-- ==== Sys2Proof/Word.lean ====
section
/-! DEFINITION. The word types of the MX2 model: bytes, 64-bit registers, the register name kinds of R30, and the
operand kinds that instruction fields name (R33, R42 to R44, R46 to R49). -/

namespace Sys2Proof

/-- A byte of memory (R5: multi-byte values are little-endian). -/
abbrev Byte := BitVec 8
/-- A scalar, reference or special register. -/
abbrev W64 := BitVec 64
/-- A lane value, a PC, a 32-bit immediate. -/
abbrev W32 := BitVec 32

/-- Scalar register s0-s31 (R30). -/
abbrev SReg := Fin 32
/-- Reference register a0-a15 (R30). -/
abbrev ARef := Fin 16
/-- Tile name t0-t63 (R30). -/
abbrev TReg := Fin 64
/-- Shape record sh0-sh31 (R30). -/
abbrev ShReg := Fin 32
/-- Element mask m0-m15 (R30). -/
abbrev MReg := Fin 16
/-- Cluster barrier b0-b15 (R30), also a message tag. -/
abbrev BReg := Fin 16
/-- Core within a cluster c0-c7 (R30). -/
abbrev CoreSel := Fin 8
/-- Parameter window P0-P7 (R31). -/
abbrev WinReg := Fin 8
/-- Relay-core integer register x0-x31 (R293). -/
abbrev XReg := Fin 32

/-- Condition codes of format C (R33). -/
inductive Cc where
  | eq | ne | lt | ge | ltu | geu
  deriving DecidableEq, Repr

/-- Scopes (R42, R109). -/
inductive Scope where
  | blk | cl | dev | dom | sys
  deriving DecidableEq, Repr

/-- Strength paired with its scope, as R43 allows: weak carries none, every other strength carries one. -/
inductive MemOrd where
  | weak
  | strong (sc : Scope)
  | acq (sc : Scope)
  | rel (sc : Scope)
  deriving DecidableEq, Repr

/-- Rounding modes (R42, R64). -/
inductive Rnd where
  | rne | rz | rdn | rup | rsr
  deriving DecidableEq, Repr

/-- Tile layouts (R42, R155). -/
inductive Lay where
  | row | col | sw
  deriving DecidableEq, Repr

/-- Tile homes (R42): tile store or accumulator store. -/
inductive Home where
  | s | a
  deriving DecidableEq, Repr

/-- Element formats (R44). -/
inductive Efmt where
  | fp32 | fp16 | bf16 | e4m3 | e5m2 | e2m3 | e3m2 | e2m1
  | i4 | i8 | i16 | i32 | i64 | ui4 | ui8 | ui16 | ui32 | ui64
  | a56 | mxf8a | mxf8b | mxf6a | mxf6b | mxf4 | mxi8 | ks4 | ks6
  deriving DecidableEq, Repr

/-- Atomic operations of ATOM (R46). -/
inductive AOp where
  | add | smin | smax | umin | umax | and | or | xor | xchg | fadd | bfadd2 | incw
  deriving DecidableEq, Repr

/-- Operand of VALID (R138). -/
inductive ValidArg where
  | none | full
  | partImm (f : BitVec 16)
  | partReg (a : SReg)
  deriving DecidableEq, Repr

/-- A matrix operand, possibly read from another core of the cluster (R38, R190). -/
structure TSrc where
  t : TReg
  core : Option CoreSel
  deriving DecidableEq, Repr

/-- Input tiles of MAP and REDUCE, one to four of them (R39). -/
inductive Ins where
  | i1 (a : TReg)
  | i2 (a b : TReg)
  | i3 (a b c : TReg)
  | i4 (a b c d : TReg)
  deriving DecidableEq, Repr

/-- Kinds of TSCANR (R219). -/
inductive Scan where
  | inc | exc | max
  deriving DecidableEq, Repr

/-- A block context: package core number (R12) and context number 0 to 3 (R14). -/
structure BKey where
  core : Nat
  slot : Nat
  deriving DecidableEq, Repr

/-- What the Dispatcher names when it requests system mode (R141): the system routine's code reference and entry, the
save area of the context (log 9), and, to resume, which saved block. -/
structure SysReq where
  code : BitVec 64
  entry : BitVec 32
  savea : BitVec 64
  resume : Option Nat
  deriving DecidableEq, Repr

/-- Lane types (R231). -/
inductive LType where
  | fp32 | i32 | ui32
  deriving DecidableEq, Repr

/-- Operand selectors of lane words (R48). -/
inductive LSel where
  | q (n : Fin 8)
  | x
  | e (n : Fin 4)
  | k (n : Fin 8)
  deriving DecidableEq, Repr

/-- Destination selectors of lane words (R48). -/
inductive LDst where
  | q (n : Fin 8)
  | x
  deriving DecidableEq, Repr

/-- Lane-function words (R47 to R49, R231 to R235). They are no rows of the opcode table: MAP and REDUCE run them. -/
inductive LaneWord where
  | ladd (ty : LType) (rnd : Rnd) (sat : Bool) (d : LDst) (a b : LSel)
  | lsub (ty : LType) (rnd : Rnd) (sat : Bool) (d : LDst) (a b : LSel)
  | lmul (ty : LType) (rnd : Rnd) (sat : Bool) (d : LDst) (a b : LSel)
  | lfma (ty : LType) (rnd : Rnd) (sat : Bool) (d : LDst) (a b c : LSel)
  | lmin (ty : LType) (d : LDst) (a b : LSel)
  | lmax (ty : LType) (d : LDst) (a b : LSel)
  | lcvt (src dst : Efmt) (rnd : Rnd) (sat : Bool) (d : LDst) (a : LSel)
  | lcmp (pred : Fin 8) (ty : LType) (d : LDst) (a b : LSel)
  | lsel (d : LDst) (a b c : LSel)
  | land (d : LDst) (a b : LSel)
  | lor (d : LDst) (a b : LSel)
  | lxor (d : LDst) (a b : LSel)
  | lshl (d : LDst) (a b : LSel)
  | lshr (arith : Bool) (d : LDst) (a b : LSel)
  | lrcp (d : LDst) (a : LSel)
  | lrsq (d : LDst) (a : LSel)
  | lexp2 (d : LDst) (a : LSel)
  | llog2 (d : LDst) (a : LSel)
  | lmov (d : LDst) (a : LSel)
  | lkld (hi : Bool) (imm : BitVec 16) (d : LDst)
  | lpull (d : LDst) (a b : LSel)
  | lpush (d : LDst) (a b : LSel)
  | lmset (a : LSel)
  | lmsave (d : LDst)
  | lmrest (a : LSel)
  | lret
  deriving DecidableEq, Repr

end Sys2Proof
end

