-- ==== Sys2Proof/Syntax.lean ====
section
/-! DEFINITION. The syntax of the MX2: one constructor of `Instr` per row of spec/opcode_table.json, in the table's order.
Tile-instruction words (R28 to R46), relay-core words (R293) and the device's own steps (engine steps, waystation
events, Dispatcher steps, host and mailbox commands, MGC events) are all rows of that table. -/

namespace Sys2Proof

/-- The instructions and steps of the MX2: one constructor per row of the opcode table. -/
inductive Instr where
  /-- IF: `if.cc sa, sb` (R123). -/
  | cIf (cc : Cc) (a b : SReg) (off : W32)
  /-- ELSE: `else` (R123). -/
  | cElse (off : W32)
  /-- ENDIF: `endif` (R123). -/
  | endif
  /-- LOOP: `loop` (R123). -/
  | loop (off : W32)
  /-- LOOPC: `loopc sa` (R123). -/
  | loopc (a : SReg) (off : W32)
  /-- ENDL: `endl`, a is the header's count or 0 (R123). -/
  | endl (a : SReg) (off : W32)
  /-- BRK: `brk.cc sa, sb` (R123). -/
  | brk (cc : Cc) (a b : SReg) (off : W32)
  /-- CONT: `cont.cc sa, sb` (R123). -/
  | cont (cc : Cc) (a b : SReg) (off : W32)
  /-- CALL: `call name` (R125). -/
  | call (off : W32)
  /-- CALLI: `calli sa, table` (R125). -/
  | calli (a : SReg) (off : W32)
  /-- RET: `ret` (R125). -/
  | ret
  /-- EXIT: `exit` (R126). -/
  | exit
  /-- TRAP: `trap #code` (R135). -/
  | trap (code : BitVec 16)
  /-- NOP: `nop` (R135). -/
  | nop
  /-- YIELD: `yield` (R135). -/
  | yield
  /-- SRD: `srd sd, name` (R127). -/
  | srd (d : SReg) (reg : BitVec 12)
  /-- SWR: `swr name, sa` for a register without a row of its own (R127). -/
  | swr (a : SReg) (reg : BitVec 12)
  /-- HINV: `swr hinv, sa` (R79). -/
  | hinv (a : SReg)
  /-- XROOT: `swr xroot, sa` (R87). -/
  | xroot (a : SReg)
  /-- CAPQ: `capq sd, sc, sa, #i` (R129). -/
  | capq (d c a : SReg) (imm : W32)
  /-- LWID: `lwid sd` (R130). -/
  | lwid (d : SReg)
  /-- PUBLISH: `publish sd, aa` (R132). -/
  | publish (d : SReg) (aa : ARef)
  /-- VALID: `valid` (R138). -/
  | valid (v : ValidArg)
  /-- WRAPEND: `wrapend` (R138). -/
  | wrapend
  /-- ERET: `eret` (R141). -/
  | eret
  /-- SAVECTX: `savectx` (R141). -/
  | savectx
  /-- LOADCTX: `loadctx` (R141). -/
  | loadctx
  /-- ADD: `add sd, sa, sb` (R145). -/
  | add (d a b : SReg)
  /-- SUB: `sub sd, sa, sb` (R145). -/
  | sub (d a b : SReg)
  /-- MUL: `mul sd, sa, sb` (R145). -/
  | mul (d a b : SReg)
  /-- MULH: `mulh sd, sa, sb` (R145). -/
  | mulh (d a b : SReg)
  /-- MULHU: `mulhu sd, sa, sb` (R145). -/
  | mulhu (d a b : SReg)
  /-- DIV: `div sd, sa, sb` (R146). -/
  | div (d a b : SReg)
  /-- DIVU: `divu sd, sa, sb` (R146). -/
  | divu (d a b : SReg)
  /-- REM: `rem sd, sa, sb` (R146). -/
  | rem (d a b : SReg)
  /-- REMU: `remu sd, sa, sb` (R146). -/
  | remu (d a b : SReg)
  /-- AND: `and sd, sa, sb` (R145). -/
  | and (d a b : SReg)
  /-- OR: `or sd, sa, sb` (R145). -/
  | or (d a b : SReg)
  /-- XOR: `xor sd, sa, sb` (R145). -/
  | xor (d a b : SReg)
  /-- SLL: `sll sd, sa, sb` (R145). -/
  | sll (d a b : SReg)
  /-- SRL: `srl sd, sa, sb` (R145). -/
  | srl (d a b : SReg)
  /-- SRA: `sra sd, sa, sb` (R145). -/
  | sra (d a b : SReg)
  /-- SLT: `slt sd, sa, sb` (R145). -/
  | slt (d a b : SReg)
  /-- SLTU: `sltu sd, sa, sb` (R145). -/
  | sltu (d a b : SReg)
  /-- MIN: `min sd, sa, sb` (R145). -/
  | min (d a b : SReg)
  /-- MAX: `max sd, sa, sb` (R145). -/
  | max (d a b : SReg)
  /-- CLZ: `clz sd, sa` (R145). -/
  | clz (d a : SReg)
  /-- POPC: `popc sd, sa` (R145). -/
  | popc (d a : SReg)
  /-- SEL: `sel sd, sa, sb, sc` (R145). -/
  | sel (d a b c : SReg)
  /-- BFX: `bfx[.s] sd, sa, #lo, #len`, len1 = len - 1 (R145). -/
  | bfx (d a : SReg) (lo len1 : Fin 64) (sgn : Bool)
  /-- BFI: `bfi sd, sa, #lo, #len` (R145). -/
  | bfi (d a : SReg) (lo len1 : Fin 64)
  /-- ADDI: `addi sd, sa, #i` (R145). -/
  | addi (d a : SReg) (imm : W32)
  /-- ANDI: `andi sd, sa, #i` (R145). -/
  | andi (d a : SReg) (imm : W32)
  /-- ORI: `ori sd, sa, #i` (R145). -/
  | ori (d a : SReg) (imm : W32)
  /-- XORI: `xori sd, sa, #i` (R145). -/
  | xori (d a : SReg) (imm : W32)
  /-- SLLI: `slli sd, sa, #n` (R145). -/
  | slli (d a : SReg) (n : Fin 64)
  /-- SRLI: `srli sd, sa, #n` (R145). -/
  | srli (d a : SReg) (n : Fin 64)
  /-- SRAI: `srai sd, sa, #n` (R145). -/
  | srai (d a : SReg) (n : Fin 64)
  /-- LI: `li sd, #i` (R145). -/
  | li (d : SReg) (imm : W32)
  /-- LIH: `lih sd, #u` (R145). -/
  | lih (d : SReg) (imm : W32)
  /-- REFMK: `refmk ad, sa, sb` (R149). -/
  | refmk (d : ARef) (a b : SReg)
  /-- REFMK_W: `refmk.w ad, sa` (R149). -/
  | refmkW (d : ARef) (a : SReg)
  /-- REFADD: `refadd ad, aa, sb` (R149). -/
  | refadd (d a : ARef) (b : SReg)
  /-- REFADD_IMM: `refadd ad, aa, #i` (R149). -/
  | refaddImm (d a : ARef) (imm : W32)
  /-- REFH: `refh sd, aa` (R149). -/
  | refh (d : SReg) (a : ARef)
  /-- REFOFF: `refoff sd, aa` (R149). -/
  | refoff (d : SReg) (a : ARef)
  /-- REFOFF_W: `refoff.w sd, aa` (R149). -/
  | refoffW (d : SReg) (a : ARef)
  /-- LD_B: `ld.b sd, aa, #disp` (R151). -/
  | ldB (d : SReg) (aref : ARef) (ord : MemOrd) (disp : BitVec 24)
  /-- LD_H: `ld.h sd, aa, #disp` (R151). -/
  | ldH (d : SReg) (aref : ARef) (ord : MemOrd) (disp : BitVec 24)
  /-- LD_W: `ld.w sd, aa, #disp` (R151). -/
  | ldW (d : SReg) (aref : ARef) (ord : MemOrd) (disp : BitVec 24)
  /-- LD_D: `ld.d sd, aa, #disp` (R151). -/
  | ldD (d : SReg) (aref : ARef) (ord : MemOrd) (disp : BitVec 24)
  /-- LDQ: `ldq sd, aa, #disp` (R151). -/
  | ldq (d : SReg) (aref : ARef) (ord : MemOrd) (disp : BitVec 24)
  /-- ST_B: `st.b sd, aa, #disp` (R151). -/
  | stB (d : SReg) (aref : ARef) (ord : MemOrd) (disp : BitVec 24)
  /-- ST_H: `st.h sd, aa, #disp` (R151). -/
  | stH (d : SReg) (aref : ARef) (ord : MemOrd) (disp : BitVec 24)
  /-- ST_W: `st.w sd, aa, #disp` (R151). -/
  | stW (d : SReg) (aref : ARef) (ord : MemOrd) (disp : BitVec 24)
  /-- ST_D: `st.d sd, aa, #disp` (R151). -/
  | stD (d : SReg) (aref : ARef) (ord : MemOrd) (disp : BitVec 24)
  /-- STQ: `stq sd, aa, #disp` (R151). -/
  | stq (d : SReg) (aref : ARef) (ord : MemOrd) (disp : BitVec 24)
  /-- TBIND: `tbind td, #r, #c, fmt, home`, sizes minus 1 (R160). -/
  | tbind (td : TReg) (rows cols : Fin 256) (fmt : Efmt) (home : Home) (lay : Lay)
  /-- TBIND_MN: `tbind.mn td, shs, fmt, home` (R160). -/
  | tbindMn (td : TReg) (sh : ShReg) (fmt : Efmt) (home : Home) (lay : Lay)
  /-- TBIND_MK: `tbind.mk td, shs, fmt, home` (R160). -/
  | tbindMk (td : TReg) (sh : ShReg) (fmt : Efmt) (home : Home) (lay : Lay)
  /-- TBIND_KN: `tbind.kn td, shs, fmt, home` (R160). -/
  | tbindKn (td : TReg) (sh : ShReg) (fmt : Efmt) (home : Home) (lay : Lay)
  /-- TVIEW: `tview td, #r, #c, sa` (R162). -/
  | tview (td : TReg) (rows cols : Fin 256) (a : SReg)
  /-- TLAY: `tlay.L td` (R162). -/
  | tlay (td : TReg) (lay : Lay)
  /-- TUNBIND: `tunbind td` (R167). -/
  | tunbind (td : TReg)
  /-- TDESC: `tdesc sd, ta, #w` (R170). -/
  | tdesc (d : SReg) (ta : TReg) (w : Fin 256)
  /-- TZERO: `tzero td` (R169). -/
  | tzero (td : TReg)
  /-- TFILL: `tfill td, sa` (R169). -/
  | tfill (td : TReg) (a : SReg)
  /-- TCPYT: `tcpyt td, ta[, mN]` (R169). -/
  | tcpyt (td ta : TReg) (mask : Option MReg)
  /-- TSETTLE: `tsettle td` (R169). -/
  | tsettle (td : TReg)
  /-- TSTAT: `tstat sd, ta, #n` (R170). -/
  | tstat (d : SReg) (ta : TReg) (n : Fin 256)
  /-- SHAPE: `shape shd, sa, sb, sc` (R158). -/
  | shape (d : ShReg) (a b c : SReg)
  /-- SHQ: `shq sd, sha, #f` (R159). -/
  | shq (d : SReg) (a : ShReg) (f : Fin 16)
  /-- SHQ_ADV: `shq.adv sd, sha` (R159). -/
  | shqAdv (d : SReg) (a : ShReg)
  /-- TLD: `tld[.kc] td, aa, sb, #disp` (R175, R177). -/
  | tld (td : TReg) (aref : ARef) (b : SReg) (kc : Bool) (ord : MemOrd) (disp : BitVec 20)
  /-- TST: `tst td, aa, sb, #disp` (R175, R177). -/
  | tst (td : TReg) (aref : ARef) (b : SReg) (ord : MemOrd) (disp : BitVec 20)
  /-- TLDG: `tldg td, aa, sb, tx, #disp` (R181). -/
  | tldg (td : TReg) (aref : ARef) (b : SReg) (tx : TReg) (ord : MemOrd) (disp : BitVec 20)
  /-- TSTS: `tsts td, aa, sb, tx, #disp` (R181). -/
  | tsts (td : TReg) (aref : ARef) (b : SReg) (tx : TReg) (ord : MemOrd) (disp : BitVec 20)
  /-- TLDD: `tldd td, aa, sb, #disp` (R183). -/
  | tldd (td : TReg) (aref : ARef) (b : SReg) (ord : MemOrd) (disp : BitVec 20)
  /-- TSTD: `tstd td, aa, sb, #disp` (R183). -/
  | tstd (td : TReg) (aref : ARef) (b : SReg) (ord : MemOrd) (disp : BitVec 20)
  /-- PLD: `pld td, pN, sb, #disp` (R184). -/
  | pld (td : TReg) (win : WinReg) (b : SReg) (disp : BitVec 20)
  /-- PLDS: `plds sd, pN, #disp` (R184). -/
  | plds (d : SReg) (win : WinReg) (disp : BitVec 20)
  /-- TPRF: `tprf aa, sb, #disp` (R185). -/
  | tprf (aref : ARef) (b : SReg) (disp : BitVec 20)
  /-- XCPY: `xcpy sd, adst, asrc, aflag, slen` (R187). -/
  | xcpy (d : SReg) (dst src flag : ARef) (b : SReg) (ord : MemOrd)
  /-- XCPY_COPY: the link engine copies the bytes of placed XCPY idx of a die (R187). -/
  | xcpyCopy (die idx : Nat)
  /-- XCPY_FLAG: the link engine adds to the completion flag (R187). -/
  | xcpyFlag (die idx : Nat)
  /-- TMMA: `tmma td, ta, tb` (R195). -/
  | tmma (td : TReg) (a b : TSrc)
  /-- TMMAS: `tmmas td, ta, tb, tsa, tsb` (R195). -/
  | tmmas (td : TReg) (a b : TSrc) (tsa tsb : TReg)
  /-- TMMAX: `tmmax td, ta, tb` (R195). -/
  | tmmax (td : TReg) (a b : TSrc)
  /-- GMMA: `gmma td, ta, tb, bN` (R196). -/
  | gmma (td ta : TReg) (b : TSrc) (bar : BReg)
  /-- GMMA_PART: an accepted member runs its oldest pending part (R196). -/
  | gmmaPart (k : BKey)
  /-- TACZ: `tacz td` (R200). -/
  | tacz (td : TReg)
  /-- TACV: `tacv.fmt.rnd.sat td, ta` (R200). -/
  | tacv (td ta : TReg) (fmt : Efmt) (rnd : Rnd) (sat : Bool) (mask : Option MReg)
  /-- TACQ: `tacq[.add].fmt.rnd td, ta` (R200). -/
  | tacq (td ta : TReg) (fmt : Efmt) (rnd : Rnd) (add : Bool) (mask : Option MReg)
  /-- MSLT: `mslt sa` (R202). -/
  | mslt (a : SReg)
  /-- TADD: `tadd.rnd.sat td, ta, tb` (R210). -/
  | tadd (td ta tb : TReg) (rnd : Rnd) (sat : Bool) (mask : Option MReg)
  /-- TSUB: `tsub.rnd.sat td, ta, tb` (R210). -/
  | tsub (td ta tb : TReg) (rnd : Rnd) (sat : Bool) (mask : Option MReg)
  /-- TMUL: `tmul.rnd.sat td, ta, tb` (R210). -/
  | tmul (td ta tb : TReg) (rnd : Rnd) (sat : Bool) (mask : Option MReg)
  /-- TFMA: `tfma.rnd.sat td, ta, tb, tc` (R210). -/
  | tfma (td ta tb tc : TReg) (rnd : Rnd) (sat : Bool) (mask : Option MReg)
  /-- TMIN: `tmin.rnd.sat td, ta, tb` (R210). -/
  | tmin (td ta tb : TReg) (rnd : Rnd) (sat : Bool) (mask : Option MReg)
  /-- TMAX: `tmax.rnd.sat td, ta, tb` (R210). -/
  | tmax (td ta tb : TReg) (rnd : Rnd) (sat : Bool) (mask : Option MReg)
  /-- TABS: `tabs.sat td, ta` (R210). -/
  | tabs (td ta : TReg) (sat : Bool) (mask : Option MReg)
  /-- TNEG: `tneg.sat td, ta` (R210). -/
  | tneg (td ta : TReg) (sat : Bool) (mask : Option MReg)
  /-- TCVT: `tcvt.fmt.rnd.sat td, ta` (R211). -/
  | tcvt (td ta : TReg) (fmt : Efmt) (rnd : Rnd) (sat : Bool) (mask : Option MReg)
  /-- TCMP: `tcmp.pred.fmt md, ta, tb` (R212). -/
  | tcmp (md : MReg) (ta tb : TReg) (fmt : Efmt) (pred : Fin 256) (mask : Option MReg)
  /-- TSEL: `tsel td, ta, tb, mN` (R213). -/
  | tsel (td ta tb : TReg) (mask : Option MReg)
  /-- TAND: `tand td, ta, tb` (R214). -/
  | tand (td ta tb : TReg) (mask : Option MReg)
  /-- TOR: `tor td, ta, tb` (R214). -/
  | tor (td ta tb : TReg) (mask : Option MReg)
  /-- TXOR: `txor td, ta, tb` (R214). -/
  | txor (td ta tb : TReg) (mask : Option MReg)
  /-- TNOT: `tnot td, ta` (R214). -/
  | tnot (td ta : TReg) (mask : Option MReg)
  /-- TSHL: `tshl td, ta, #n` (R214). -/
  | tshl (td ta : TReg) (n : Fin 256) (mask : Option MReg)
  /-- TSHR: `tshr td, ta, #n` (R214). -/
  | tshr (td ta : TReg) (n : Fin 256) (mask : Option MReg)
  /-- TBSH: `tbsh td, ta, sb` (R215). -/
  | tbsh (td ta : TReg) (b : SReg) (mask : Option MReg)
  /-- TFSH: `tfsh td, ta, tb, sc` (R215). -/
  | tfsh (td ta tb : TReg) (c : SReg) (mask : Option MReg)
  /-- TRCP: `trcp td, ta` (R217). -/
  | trcp (td ta : TReg) (mask : Option MReg)
  /-- TRSQ: `trsq td, ta` (R217). -/
  | trsq (td ta : TReg) (mask : Option MReg)
  /-- TRCPN: `trcpn td, ta, tb` (R217). -/
  | trcpn (td ta tb : TReg) (mask : Option MReg)
  /-- TRSQN: `trsqn td, ta, tb` (R217). -/
  | trsqn (td ta tb : TReg) (mask : Option MReg)
  /-- TEXP2: `texp2 td, ta` (R217). -/
  | texp2 (td ta : TReg) (mask : Option MReg)
  /-- TLOG2: `tlog2 td, ta` (R217). -/
  | tlog2 (td ta : TReg) (mask : Option MReg)
  /-- TSUMR: `tsumr.rnd.sat td, ta` (R220). -/
  | tsumr (td ta : TReg) (rnd : Rnd) (sat : Bool) (mask : Option MReg)
  /-- TMAXR: `tmaxr td, ta` (R220). -/
  | tmaxr (td ta : TReg) (mask : Option MReg)
  /-- TOPK: `topk td, tc, ta, #k` (R222). -/
  | topk (td tc ta : TReg) (k : Fin 256) (mask : Option MReg)
  /-- TSORTR: `tsortr.dir[.i] td, [tc,] ta` (R223). -/
  | tsortr (td ta : TReg) (tc : Option TReg) (desc : Bool)
  /-- TSCANR: `tscanr.kind.rnd.sat td, ta` (R220). -/
  | tscanr (td ta : TReg) (kind : Scan) (rnd : Rnd) (sat : Bool)
  /-- TPERM: `tperm.r/.c td, ta, tb` (R224). -/
  | tperm (td ta tb : TReg) (col : Bool) (mask : Option MReg)
  /-- TBCAST: `tbcast.r/.c td, ta` (R224). -/
  | tbcast (td ta : TReg) (col : Bool) (mask : Option MReg)
  /-- MAND: `mand md, ma, mb` (R225). -/
  | mand (md ma mb : MReg)
  /-- MOR: `mor md, ma, mb` (R225). -/
  | mor (md ma mb : MReg)
  /-- MNOT: `mnot md, ma` (R225). -/
  | mnot (md ma : MReg)
  /-- MCNT: `mcnt sd, ma` (R225). -/
  | mcnt (d : SReg) (ma : MReg)
  /-- MAP: `map td, fn, ta...` (R228). -/
  | map (td : TReg) (fn : Fin 512) (ins : Ins) (mask : Option MReg)
  /-- MAP2: `map2 td, td2, fn, ta...` (R228). -/
  | map2 (td td2 : TReg) (fn : Fin 512) (ins : Ins) (mask : Option MReg)
  /-- REDUCE: `reduce td, fn, ta[, tb]` (R229). -/
  | reduce (td : TReg) (fn : Fin 512) (ins : Ins) (mask : Option MReg)
  /-- REDUCE2: `reduce2 td, td2, fn, ta[, tb]` (R229). -/
  | reduce2 (td td2 : TReg) (fn : Fin 512) (ins : Ins) (mask : Option MReg)
  /-- ATOM_W: `atom.w.op.str.scope sd, aa, sb, #disp` (R238). -/
  | atomW (op : AOp) (d : SReg) (aref : ARef) (b : SReg) (ord : MemOrd) (disp : BitVec 24)
  /-- ATOM_D: `atom.d.op.str.scope sd, aa, sb, #disp` (R238). -/
  | atomD (op : AOp) (d : SReg) (aref : ARef) (b : SReg) (ord : MemOrd) (disp : BitVec 24)
  /-- CAS_W: `cas.w.str.scope sd, aa, sb, sc, #disp` (R240). -/
  | casW (d : SReg) (aref : ARef) (b c : SReg) (ord : MemOrd) (disp : BitVec 24)
  /-- CAS_D: `cas.d.str.scope sd, aa, sb, sc, #disp` (R240). -/
  | casD (d : SReg) (aref : ARef) (b c : SReg) (ord : MemOrd) (disp : BitVec 24)
  /-- CAS16: `cas16.str.scope sd, aa, sb, sc, #disp` (R240). -/
  | cas16 (d : SReg) (aref : ARef) (b c : SReg) (ord : MemOrd) (disp : BitVec 24)
  /-- LDA: `lda.str.scope sd, aa, #disp` (R241). -/
  | lda (d : SReg) (aref : ARef) (ord : MemOrd) (disp : BitVec 24)
  /-- STL: `stl.str.scope sd, aa, #disp` (R241). -/
  | stl (d : SReg) (aref : ARef) (ord : MemOrd) (disp : BitVec 24)
  /-- FENCE: `fence.scope` (R242). -/
  | fence (sc : Scope)
  /-- WAITV: `waitv.str.scope sd, aa, sb, sc, #disp` (R244). -/
  | waitv (d : SReg) (aref : ARef) (b c : SReg) (ord : MemOrd) (disp : BitVec 24)
  /-- WAITV_ROUND: a sleeping WAITV makes one round (R244). -/
  | waitvRound (k : BKey)
  /-- BARI: `bari bN, #cnt` (R250). -/
  | bari (bar : BReg) (cnt : Fin 512)
  /-- BARA: `bara bN, #cnt` (R250). -/
  | bara (bar : BReg) (cnt : Fin 512)
  /-- BARW: `barw sd, bN` (R250). -/
  | barw (d : SReg) (bar : BReg)
  /-- BARW_WAKE: a sleeping BARW wakes after a completion (R250). -/
  | barwWake (k : BKey)
  /-- BART: `bart sd, bN` (R250). -/
  | bart (d : SReg) (bar : BReg)
  /-- TSEND: `tsend tS, cK, #tag` (R252). -/
  | tsend (t : TReg) (core : CoreSel) (tag : BReg)
  /-- TRECV: `trecv tD, cK, #tag` (R252). -/
  | trecv (t : TReg) (core : CoreSel) (tag : BReg)
  /-- TILE_TRANSFER: the transfer of the waiting TSEND idx of block k and its matching TRECV (R252). -/
  | tileTransfer (k : BKey) (idx : Nat)
  /-- ENQ: `enq sd, #q` (R259). -/
  | enq (d : SReg) (q : BitVec 12) (ord : MemOrd)
  /-- TRANSFORM: a bindery engine takes the TRANSFORM at the head of queue q of a context (R263). -/
  | transform (ctx q : Nat)
  /-- REDIST: a bindery engine takes the REDIST at the head of queue q of a context (R264). -/
  | redist (ctx q : Nat)
  /-- COMPRESS: a bindery engine takes the COMPRESS at the head of queue q of a context (R267). -/
  | compress (ctx q : Nat)
  /-- DECOMPRESS: a bindery engine takes the DECOMPRESS at the head of queue q of a context (R267). -/
  | decompress (ctx q : Nat)
  /-- RECODE: a bindery engine takes the RECODE at the head of queue q of a context (R267). -/
  | recode (ctx q : Nat)
  /-- RESAMPLE: a bindery engine takes the RESAMPLE at the head of queue q of a context (R268). -/
  | resample (ctx q : Nat)
  /-- QUANT: a bindery engine takes the QUANT at the head of queue q of a context (R270). -/
  | quant (ctx q : Nat)
  /-- BINDERY_COMPLETION_RECORD: the completion record of bindery command idx in flight on a die (R261). -/
  | binderyCompletionRecord (die idx : Nat)
  /-- MOVE: `move sd, asrc, adst, arec, stag` (R282). -/
  | move (d : SReg) (src dst recd : ARef) (b : SReg) (ord : MemOrd)
  /-- MOVE_CLAIM: the Drover takes the MOVE at the head of its queue (R275). -/
  | moveClaim (die : Nat)
  /-- MARK: the Drover marks the next line of its running move (R113, R275). -/
  | mark (die : Nat)
  /-- MOVE_REPORT: the Drover reports its finished move (R275). -/
  | moveReport (die : Nat)
  /-- MVQ: `mvq sd, sn` (R285). -/
  | mvq (d b : SReg)
  /-- MVWAIT: `mvwait sd, sn` (R285). -/
  | mvwait (d b : SReg) (ord : MemOrd)
  /-- MVWAIT_WAKE: a sleeping MVWAIT retires (R285). -/
  | mvwaitWake (k : BKey)
  /-- SWEEP: `sweep sd, aa, slen` (R286). -/
  | sweep (d : SReg) (aa : ARef) (b : SReg)
  /-- MKQ: `mkq sd, aa` (R287). -/
  | mkq (d : SReg) (aa : ARef)
  /-- MKFREE: `mkfree sd, aa, arec, stag` (R288). -/
  | mkfree (d : SReg) (aa recd : ARef) (b : SReg) (ord : MemOrd)
  /-- MKFREE_EVENT: the Drover takes the MKFREE at the head of its queue (R115, R288). -/
  | mkfreeEvent (die : Nat)
  /-- QUARANTINE_END: quarantine idx of a die ends (R288). -/
  | quarantineEnd (die idx : Nat)
  /-- READ: a weak load unit: unit u of event ev of the queue of block k (R105). -/
  | read (k : BKey) (ev u : Nat)
  /-- DRAIN: a weak store unit: unit u of event ev of the queue of block k (R105). -/
  | drain (k : BKey) (ev u : Nat)
  /-- PERFORM: a strong access unit: unit u of event ev of the queue of block k (R105). -/
  | perform (k : BKey) (ev u : Nat)
  /-- ACQUIRE_POINT: the acquire point ev of block k (R111). -/
  | acquirePoint (k : BKey) (ev : Nat)
  /-- RELEASE_POINT: the release point ev of block k (R111). -/
  | releasePoint (k : BKey) (ev : Nat)
  /-- EXPAND: the home rewrites the coding block at physical address pa as raw lines (R117). -/
  | expand (pa : Nat)
  /-- CODE: the next Code event of bindery command idx in flight on a die (R269). -/
  | code (die idx : Nat)
  /-- MICRO_OP: the micro-ops of dependency-table entry ent of block k advance (R164). -/
  | microOp (k : BKey) (ent : Nat)
  /-- LOGICAL_TIME_ADVANCE: a core advances its logical lease time (R143). -/
  | logicalTimeAdvance (core : Nat)
  /-- SLOT_ROUND: a round of the matrix slot table begins (R202). -/
  | slotRound (die : Nat)
  /-- RAMP_INTERVAL: an interval of the ramp limiter in which `demand` micro-ops are ready (R204). -/
  | rampInterval (die demand : Nat)
  /-- DIVERSION: block k is diverted at a boundary (R136). -/
  | diversion (k : BKey)
  /-- BUDGET_OVERRUN: block k overruns its wrap-up budget (R137). -/
  | budgetOverrun (k : BKey)
  /-- RETIREMENT: the ended block k retires (R119). -/
  | retirement (k : BKey)
  /-- LAUNCH_COMPLETION_RECORD: the record of launch n is written (R301). -/
  | launchCompletionRecord (n : Nat)
  /-- LAUNCH_DEADLINE: the deadline of launch n passes (R303). -/
  | launchDeadline (n : Nat)
  /-- SEAL: the host writes byte 127 of a launch line (R290, R292). -/
  | sealWrite (line : Nat) (v : Byte)
  /-- LINE_RECALL: the device recalls a launch line (R315). -/
  | lineRecall (line : Nat)
  /-- RFETCH: `rfetch rd, rs1` (R295). -/
  | rfetch (rd rs1 : XReg)
  /-- BXTR: `bxtr rd, rs1, rs2` (R295). -/
  | bxtr (rd rs1 rs2 : XReg)
  /-- SWAITQ: `swaitq rd, rs1` (R295). -/
  | swaitq (rd rs1 : XReg)
  /-- DSPCH: `dspch rd, rs1, rs2` (R295). -/
  | dspch (rd rs1 rs2 : XReg)
  /-- LAUNCH_CHOICE: the Dispatcher chooses a launch for the free context k and starts its next block (R298). -/
  | launchChoice (k : BKey)
  /-- SYSTEM_MODE_REQUEST: context k enters system mode (R141). -/
  | systemModeRequest (k : BKey) (req : SysReq)
  /-- KERNEL_NODE: KERNEL_NODE n of graph g (R308). -/
  | kernelNode (g n : Nat)
  /-- COPY_NODE: COPY_NODE n of graph g (R308). -/
  | copyNode (g n : Nat)
  /-- COND_NODE: COND_NODE n of graph g (R308). -/
  | condNode (g n : Nat)
  /-- LOOP_NODE: LOOP_NODE n of graph g (R308). -/
  | loopNode (g n : Nat)
  /-- WAIT_NODE: WAIT_NODE n of graph g (R308). -/
  | waitNode (g n : Nat)
  /-- SIGNAL_NODE: SIGNAL_NODE n of graph g (R308). -/
  | signalNode (g n : Nat)
  /-- END_NODE: END_NODE n of graph g (R308). -/
  | endNode (g n : Nat)
  /-- GRAPH_DEADLINE: the deadline of graph g passes (R307). -/
  | graphDeadline (g : Nat)
  /-- FAULT_HOLD_EXPIRY: the fault-hold window of node n of graph g ends (R309). -/
  | faultHoldExpiry (g n : Nat)
  /-- RESCUE_SLICE: a rescue slice for the WAITV sleeper k: the saved block is resumed in context tgt (R310). -/
  | rescueSlice (k : BKey) (saved : Nat) (tgt : BKey) (req : SysReq)
  /-- RESCUE_SLICE_END: the rescue slice ends (R310). -/
  | rescueSliceEnd (req : SysReq)
  /-- RELAY_ECC_HALT: relay core r halts on an uncorrectable error (R312). -/
  | relayEccHalt (r : Nat)
  /-- QUEUE_POISON: a queue table is poisoned (R312). -/
  | queuePoison (q : Nat)
  /-- CTXSET: host command CTXSET at the head of a port's ring (R316). -/
  | ctxset (port : Nat)
  /-- PART: host command PART at the head of a port's ring (R316). -/
  | part (port : Nat)
  /-- CANCEL: host command CANCEL at the head of a port's ring (R316). -/
  | cancel (port : Nat)
  /-- INVAL: host command INVAL at the head of a port's ring (R316). -/
  | inval (port : Nat)
  /-- FREPLY: host command FREPLY at the head of a port's ring (R316). -/
  | freply (port : Nat)
  /-- DROVER: host command DROVER at the head of a port's ring (R316). -/
  | drover (port : Nat)
  /-- HOST_HINV: host command HOST_HINV at the head of a port's ring (R316). -/
  | hostHinv (port : Nat)
  /-- PINWIN: host command PINWIN at the head of a port's ring (R316). -/
  | pinwin (port : Nat)
  /-- HOST_MEM_READ: a host CXL.mem read of n bytes (R313). -/
  | hostMemRead (port pa n : Nat)
  /-- HOST_MEM_WRITE: a host CXL.mem write (R313). -/
  | hostMemWrite (port pa : Nat) (bytes : List Byte)
  /-- SENSE: mailbox command SENSE (R325). -/
  | sense (port : Nat)
  /-- LOGREAD: mailbox command LOGREAD (R325). -/
  | logread (port : Nat)
  /-- UPDATE: mailbox command UPDATE (R325). -/
  | update (port : Nat)
  /-- ATTEST: mailbox command ATTEST (R325). -/
  | attest (port : Nat)
  /-- SETPARAM: mailbox command SETPARAM (R325). -/
  | setparam (port : Nat)
  /-- MONCFG: mailbox command MONCFG (R325). -/
  | moncfg (port : Nat)
  /-- MONREAD: mailbox command MONREAD (R325). -/
  | monread (port : Nat)
  /-- RESYNC: mailbox command RESYNC (R325). -/
  | resync (port : Nat)
  /-- TESTINJ: mailbox command TESTINJ (R325). -/
  | testinj (port : Nat)
  /-- SENSOR_READ: the MGC reads its sensors (R324). -/
  | sensorRead (readings : List Nat)
  /-- THERMAL_TRIP: a thermal or supply trip (R18). -/
  | thermalTrip
  /-- TRIP_CLEAR: the MGC clears the trip (R18). -/
  | tripClear
  /-- THERMAL_HALT: the MGC halts both dies (R329). -/
  | thermalHalt
  /-- PTP_SYNC: a synchronisation message: PTP time less DTIME, in ns (R322). -/
  | ptpSync (offset : Int)
  /-- HOLDOVER: lock is lost (R323). -/
  | holdover (portDown : Bool)
  /-- PACKAGE_RESET: package reset (R325). -/
  | packageReset
  /-- SURPRISE_LINK_LOSS: second-tier port p loses its link (R319). -/
  | surpriseLinkLoss (p : Nat)
  /-- DEVICE_UNREACHABLE: a device of the domain stops replying (R321). -/
  | deviceUnreachable (dev : Nat)
  /-- PATROL_SCRUB: the scrubber reads all HBM (R330). -/
  | patrolScrub
  /-- RELAY_CORE_RELOAD: the MGC reloads relay core r (R312). -/
  | relayCoreReload (r : Nat)
  /-- HFQH: the host writes HFQH of a port (R314). -/
  | hfqh (port : Nat) (v : W32)
  /-- DOMAIN_BRING_UP: the MGC assigns DEVID; members are the other devices (R320). -/
  | domainBringUp (id size : Nat) (members : List Nat)
  deriving DecidableEq, Repr

end Sys2Proof
end

