-- ==== Sys2Proof/WellFormed.lean ====
section
/-! DEFINITION. The static limits of the instruction entries (reason 0x07 of R55, and the count codes of R40): a word whose
fields break one of them is rejected by PUBLISH and traps ILLEGAL when reached (R52). -/

namespace Sys2Proof

/-- Element width in bits (R57, R58, R60). -/
def Efmt.bits : Efmt → Nat
  | .fp32 | .i32 | .ui32 => 32
  | .fp16 | .bf16 | .i16 | .ui16 => 16
  | .e4m3 | .e5m2 | .i8 | .ui8 | .mxf8a | .mxf8b | .mxi8 => 8
  | .e2m3 | .e3m2 | .mxf6a | .mxf6b | .ks6 => 6
  | .e2m1 | .i4 | .ui4 | .mxf4 | .ks4 => 4
  | .i64 | .ui64 => 64
  | .a56 => 56

/-- Block size of a block-scaled format (R60), 0 for the others. -/
def Efmt.block : Efmt → Nat
  | .mxf8a | .mxf8b | .mxf6a | .mxf6b | .mxf4 | .mxi8 => 32
  | .ks4 | .ks6 => 16
  | _ => 0

/-- Bytes of the element plane of an m x n tile (R155). -/
def elementPlaneBytes (fmt : Efmt) (lay : Lay) (m n : Nat) : Nat :=
  let (outer, inner) := if lay = .col then (n, m) else (m, n)
  (outer * ((inner * fmt.bits + 7) / 8) + 127) / 128 * 128

/-- Home and format pair as R156 asks: home a takes A56 in `.row`, home s never takes A56. -/
def homeFits (fmt : Efmt) (home : Home) (lay : Lay) : Bool :=
  match home with
  | .a => fmt = .a56 && lay = .row
  | .s => fmt ≠ .a56

/-- Formats of codes 0x00-0x11 except 0x12 (R199, R209): neither A56 nor block-scaled. -/
def Efmt.plain (f : Efmt) : Bool := f.block = 0 && f ≠ .a56

/-- LCVT's formats (R232): plain formats other than I64 and UI64. -/
def Efmt.lane (f : Efmt) : Bool := f.plain && f ≠ .i64 && f ≠ .ui64

/-- Registers that SRD may name (R127, R128); HINV is not one. -/
def srdReg (r : BitVec 12) : Bool :=
  let n := r.toNat
  n ≤ 0x008 || (0x010 ≤ n && n ≤ 0x015) || (0x020 ≤ n && n ≤ 0x023) || (0x030 ≤ n && n ≤ 0x032)
    || n = 0x100 || n = 0x101 || n = 0x103 || n = 0x104

/-- Registers that SWR may name apart from HINV and XROOT, which have rows of their own (R127, R128). -/
def swrReg (r : BitVec 12) : Bool :=
  let n := r.toNat
  (0x030 ≤ n && n ≤ 0x032) || n = 0x100 || n = 0x101 || n = 0x104

/-- Strengths a load accepts (R150, R173). -/
def MemOrd.load : MemOrd → Bool
  | .rel _ => false
  | _ => true

/-- Strengths a store accepts (R150, R173). -/
def MemOrd.store : MemOrd → Bool
  | .acq _ => false
  | _ => true

/-- Strengths an engine command accepts (R186, R258, R281): not `.s`. -/
def MemOrd.engine : MemOrd → Bool
  | .strong _ => false
  | _ => true

/-- Strengths LDA and WAITV accept (R241, R243): `.s` or `.acq`. -/
def MemOrd.strongLoad : MemOrd → Bool
  | .strong _ | .acq _ => true
  | _ => false

/-- Strengths STL accepts (R241): `.s` or `.rel`. -/
def MemOrd.strongStore : MemOrd → Bool
  | .strong _ | .rel _ => true
  | _ => false

/-- A strong access of any kind, as ATOM, CAS and CAS16 must be (R43). -/
def MemOrd.isStrong : MemOrd → Bool
  | .weak => false
  | _ => true

/-- Codes that a well-formed term names but the instruction does not accept (reason 0x04). Words with them are malformed (R51). -/
def Instr.codesAccepted : Instr → Bool
  | .ldB _ _ o _ | .ldH _ _ o _ | .ldW _ _ o _ | .ldD _ _ o _ | .ldq _ _ o _ => o.load
  | .stB _ _ o _ | .stH _ _ o _ | .stW _ _ o _ | .stD _ _ o _ | .stq _ _ o _ => o.store
  | .tld _ _ _ _ o _ => o.load
  | .tldg _ _ _ _ o _ => o.load
  | .tldd _ _ _ o _ => o.load
  | .tst _ _ _ o _ => o.store
  | .tsts _ _ _ _ o _ => o.store
  | .tstd _ _ _ o _ => o.store
  | .xcpy _ _ _ _ _ o => o.engine
  | .enq _ _ o => o.engine
  | .move _ _ _ _ _ o => o.engine
  | .mkfree _ _ _ _ o => o.engine
  | .mvwait _ _ o => match o with | .weak | .acq _ => true | _ => false
  | .atomW _ _ _ _ o _ => o.isStrong
  | .atomD op _ _ _ o _ => o.isStrong && op ≠ .fadd && op ≠ .bfadd2
  | .casW _ _ _ _ o _ | .casD _ _ _ _ o _ | .cas16 _ _ _ _ o _ => o.isStrong
  | .lda _ _ o _ => o.strongLoad
  | .stl _ _ o _ => o.strongStore
  | .waitv _ _ _ _ o _ => o.strongLoad
  | .bari _ c | .bara _ c => 1 ≤ c.val && c.val ≤ 256
  | .tacv _ _ f _ _ _ | .tacq _ _ f _ _ _ | .tcvt _ _ f _ _ _ => f.plain
  | .tcmp _ _ _ f _ _ => f.plain
  | _ => true

/-- Static limits (reason 0x07). -/
def Instr.limitsKept : Instr → Bool
  | .loopc a _ => a ≠ 0
  | .srd _ r => srdReg r
  | .swr _ r => swrReg r
  | .bfx _ _ lo len1 _ => lo.val + len1.val + 1 ≤ 64
  | .bfi _ _ lo len1 => lo.val + len1.val + 1 ≤ 64
  | .ldq d _ _ _ | .stq d _ _ _ => d.val % 2 = 0
  | .tbind _ r c f h l => homeFits f h l && (h = .a || elementPlaneBytes f l (r.val + 1) (c.val + 1) ≤ 131072)
  | .tbindMn _ _ f h l | .tbindMk _ _ f h l | .tbindKn _ _ f h l => homeFits f h l
  | .tdesc _ _ w => w.val ≤ 2
  | .tstat _ ta n => n.val ≤ 8 && (n.val < 3 || ta = 0)
  | .shq _ _ f => f.val ≤ 6
  | .plds _ _ disp => disp.toNat % 8 = 0
  | .tprf _ b _ => b ≠ 0
  | .tcmp _ _ _ _ p _ => p.val ≤ 7
  | .tsel _ _ _ m => m.isSome
  | .topk _ _ _ k _ => k.val ≠ 0
  | .reduce _ _ i _ | .reduce2 _ _ _ i _ => match i with | .i1 _ | .i2 _ _ => true | _ => false
  | .cas16 d _ b c _ _ => d.val % 2 = 0 && b.val % 2 = 0 && c.val % 2 = 0
  | .mkq d _ => d.val % 2 = 0
  | _ => true

/-- A well-formed instruction: its codes are accepted and its static limits are kept. -/
def Instr.wellFormed (i : Instr) : Bool := i.codesAccepted && i.limitsKept

end Sys2Proof
end

