-- ==== Sys2Proof/Machine/Num.lean ====
section
/-! DEFINITION. Numbers: exact values, the element formats' encodings, rounding, overflow, saturation, stochastic draws and the
arithmetic of special values (R57 to R72). -/

namespace Sys2Proof

/-- An exact value: NaN, an infinity, or (-1)^neg × m × 2^e; a zero keeps its sign. -/
inductive Val where
  | nan
  | inf (neg : Bool)
  | fin (neg : Bool) (m : Nat) (e : Int)
  deriving DecidableEq, Repr

/-- STATUS flag bits (R128). -/
def flPWB : BitVec 64 := 1
def flINX : BitVec 64 := 2
def flOVF : BitVec 64 := 4
def flUNF : BitVec 64 := 8
def flNVL : BitVec 64 := 16
def flSCL : BitVec 64 := 32
def flCLMP : BitVec 64 := 64
def flDMT : BitVec 64 := 128
def flWRAP : BitVec 64 := 256
def flSYS : BitVec 64 := 512

/-- How a floating-point format treats its all-ones exponent (R57). -/
inductive Special where
  /-- infinities and NaNs -/
  | ieee
  /-- NaN at S.1111.111 only (E4M3) -/
  | nanOnly
  /-- neither -/
  | none
  deriving DecidableEq, Repr

/-- A floating-point format (R57). -/
structure FloatFmt where
  ebits : Nat
  fbits : Nat
  bias : Nat
  special : Special
  deriving DecidableEq, Repr

/-- The format of an element's encoding; a block-scaled format has that of its elements (R57, R60). -/
def Efmt.float? : Efmt → Option FloatFmt
  | .fp32 => some ⟨8, 23, 127, .ieee⟩
  | .fp16 => some ⟨5, 10, 15, .ieee⟩
  | .bf16 => some ⟨8, 7, 127, .ieee⟩
  | .e5m2 | .mxf8b => some ⟨5, 2, 15, .ieee⟩
  | .e4m3 | .mxf8a => some ⟨4, 3, 7, .nanOnly⟩
  | .e3m2 | .mxf6b => some ⟨3, 2, 3, .none⟩
  | .e2m3 | .mxf6a | .ks6 => some ⟨2, 3, 1, .none⟩
  | .e2m1 | .mxf4 | .ks4 => some ⟨2, 1, 1, .none⟩
  | .a56 => some ⟨11, 44, 1023, .ieee⟩
  | _ => none

/-- Signed integer formats (R58). -/
def Efmt.signedInt : Efmt → Bool
  | .i4 | .i8 | .i16 | .i32 | .i64 => true
  | _ => false

/-- Integer formats (R58). -/
def Efmt.isInt (f : Efmt) : Bool :=
  f.signedInt || match f with | .ui4 | .ui8 | .ui16 | .ui32 | .ui64 => true | _ => false

/-- The two's complement value of the low w bits. -/
def signedOf (w v : Nat) : Int := let u := v % 2 ^ w; if u < 2 ^ (w - 1) then (u : Int) else (u : Int) - 2 ^ w

/-- The low w bits of an integer. -/
def bitsOf (w : Nat) (i : Int) : Nat := (i % (2 ^ w : Int)).toNat

/-- An integer as an exact value. -/
def Val.ofInt (i : Int) : Val := .fin (i < 0) i.natAbs 0

/-- The value of a floating-point encoding (R57). -/
def FloatFmt.decode (f : FloatFmt) (v : Nat) : Val :=
  let s : Bool := v / 2 ^ (f.ebits + f.fbits) % 2 = 1
  let e := v / 2 ^ f.fbits % 2 ^ f.ebits
  let m := v % 2 ^ f.fbits
  let top := 2 ^ f.ebits - 1
  if f.special = .ieee && e = top then (if m = 0 then .inf s else .nan)
  else if f.special = .nanOnly && e = top && m = 2 ^ f.fbits - 1 then .nan
  else if e = 0 then .fin s m (1 - (f.bias : Int) - f.fbits)
  else .fin s (2 ^ f.fbits + m) ((e : Int) - f.bias - f.fbits)

/-- The integer of an encoding in an integer format (R58). -/
def Efmt.int (f : Efmt) (v : Nat) : Int := if f.signedInt then signedOf f.bits v else ((v % 2 ^ f.bits : Nat) : Int)

/-- The value of an element's encoding, without scales; MXI8 is c × 2^-6 (R57, R58, R60). -/
def Efmt.decode (f : Efmt) (v : Nat) : Val :=
  match f.float? with
  | some p => p.decode v
  | none => match f with
    | .mxi8 => let i := signedOf 8 v; .fin (i < 0) i.natAbs (-6)
    | _ => Val.ofInt (f.int v)

/-- E8M0 (R61). -/
def decodeE8M0 (v : Nat) : Val := if v % 256 = 255 then .nan else .fin false 1 ((v % 256 : Nat) - 127)

/-- UE5M3 (R61). -/
def decodeUE5M3 (v : Nat) : Val :=
  let u := v % 256
  if u = 255 then .nan
  else if u / 8 = 0 then .fin false (u % 8) (-17)
  else .fin false (8 + u % 8) ((u / 8 : Nat) - 18)

/-- A block scale of a block-scaled format (R60). -/
def Efmt.decodeScale (f : Efmt) (v : Nat) : Val :=
  match f with
  | .ks4 | .ks6 => decodeUE5M3 v
  | _ => decodeE8M0 v

/-- The block axis runs down the columns of the layout (R63). -/
def Lay.colwise (l : Lay) : Bool := l = .col

/-- The block scale 1.0 (R160). -/
def Efmt.unitScale (f : Efmt) : Nat := match f with | .ks4 | .ks6 => 0x78 | _ => 0x7F

/-! ## Exact arithmetic and special values (R68) -/

/-- A value and the flags it raises. -/
abbrev Fv := Val × BitVec 64

def Val.neg : Val → Val
  | .nan => .nan
  | .inf s => .inf (!s)
  | .fin s m e => .fin (!s) m e

def Val.abs : Val → Val
  | .nan => .nan
  | .inf _ => .inf false
  | .fin _ m e => .fin false m e

def Val.isNan : Val → Bool
  | .nan => true
  | _ => false

def Val.isZero : Val → Bool
  | .fin _ 0 _ => true
  | _ => false

/-- The signed mantissa at exponent e, for e at most the value's exponent. -/
def scaled (neg : Bool) (m : Nat) (e q : Int) : Int :=
  let x : Int := m * 2 ^ (e - q).toNat
  if neg then -x else x

/-- Exact sum; ∞ − ∞ is NaN with NVL; an exact zero sum of opposite values is −0 in .rdn only (R68). -/
def Val.add (mode : Rnd) (a b : Val) : Fv :=
  match a, b with
  | .nan, _ => (.nan, 0)
  | _, .nan => (.nan, 0)
  | .inf s, .inf t => if s = t then (.inf s, 0) else (.nan, flNVL)
  | .inf s, _ => (.inf s, 0)
  | _, .inf t => (.inf t, 0)
  | .fin s m e, .fin t n f =>
    let q := min e f
    let r := scaled s m e q + scaled t n f q
    if r = 0 then
      if m = 0 && n = 0 && s = t then (.fin s 0 0, 0) else (.fin (mode = .rdn) 0 0, 0)
    else (.fin (r < 0) r.natAbs q, 0)

/-- Exact product; 0 × ∞ is NaN with NVL (R68). -/
def Val.mul (a b : Val) : Fv :=
  match a, b with
  | .nan, _ => (.nan, 0)
  | _, .nan => (.nan, 0)
  | .inf s, .inf t => (.inf (s != t), 0)
  | .inf s, .fin t n _ => if n = 0 then (.nan, flNVL) else (.inf (s != t), 0)
  | .fin s m _, .inf t => if m = 0 then (.nan, flNVL) else (.inf (s != t), 0)
  | .fin s m e, .fin t n f => (.fin (s != t) (m * n) (e + f), 0)

/-- Order of two values that are no NaN; −0 equals +0. -/
def Val.lt (a b : Val) : Bool :=
  match a, b with
  | .nan, _ => false
  | _, .nan => false
  | .inf s, .inf t => s && !t
  | .inf s, .fin .. => s
  | .fin .., .inf t => !t
  | .fin s m e, .fin t n f =>
    let q := min e f
    scaled s m e q < scaled t n f q

/-- Equality of two values that are no NaN; −0 equals +0. -/
def Val.eqv (a b : Val) : Bool :=
  match a, b with
  | .nan, _ => false
  | _, .nan => false
  | .inf s, .inf t => s = t
  | .fin s m e, .fin t n f => let q := min e f; scaled s m e q = scaled t n f q
  | _, _ => false

/-- Sign of a value. -/
def Val.sign : Val → Bool
  | .nan => false
  | .inf s => s
  | .fin s _ _ => s

/-! ## Stochastic draws (R66, R67) -/

/-- SEED after one draw; the draw is its bits [63:48]. -/
def nextSeed (x : BitVec 64) : BitVec 64 :=
  let x := if x = 0 then (0x9E3779B97F4A7C15 : BitVec 64) else x
  let x := x ^^^ (x <<< 13)
  let x := x ^^^ (x >>> 7)
  x ^^^ (x <<< 17)

/-- The 16 bits drawn. -/
def drawOf (seed : BitVec 64) : Nat := seed.toNat / 2 ^ 48

/-- A draw when the mode is .rsr: the value drawn and the seed after it. -/
def drawFor (mode : Rnd) (seed : BitVec 64) : Nat × BitVec 64 :=
  match mode with
  | .rsr => (drawOf (nextSeed seed), nextSeed seed)
  | _ => (0, seed)

/-! ## Rounding (R64 to R66) -/

/-- Whether a magnitude lo + rem / 2^sh goes up to lo + 1. -/
def roundsUp (mode : Rnd) (draw : Nat) (neg : Bool) (lo rem sh : Nat) : Bool :=
  if rem = 0 then false
  else match mode with
    | .rne => 2 * rem > 2 ^ sh || (2 * rem = 2 ^ sh && lo % 2 = 1)
    | .rz => false
    | .rdn => neg
    | .rup => !neg
    | .rsr => draw < rem * 65536 / 2 ^ sh

/-- Rounds m × 2^e to a multiple of 2^q: the multiple, and whether it is inexact. -/
def roundAt (mode : Rnd) (draw : Nat) (neg : Bool) (m : Nat) (e q : Int) : Nat × Bool :=
  if q ≤ e then (m * 2 ^ (e - q).toNat, false)
  else
    let sh := (q - e).toNat
    let lo := m / 2 ^ sh
    let rem := m % 2 ^ sh
    (if roundsUp mode draw neg lo rem sh then lo + 1 else lo, rem ≠ 0)

/-- Largest finite magnitude as mantissa and exponent (R57). -/
def FloatFmt.largest (f : FloatFmt) : Nat × Int :=
  let topField : Nat := match f.special with | .ieee => 2 ^ f.ebits - 2 | _ => 2 ^ f.ebits - 1
  let mant : Nat := match f.special with | .nanOnly => 2 ^ (f.fbits + 1) - 2 | _ => 2 ^ (f.fbits + 1) - 1
  (mant, (topField : Int) - f.bias - f.fbits)

/-- Encoding of the largest finite magnitude with a sign. -/
def FloatFmt.maxBits (f : FloatFmt) (neg : Bool) : Nat :=
  neg.toNat * 2 ^ (f.ebits + f.fbits)
    + match f.special with
      | .ieee => 2 ^ (f.ebits + f.fbits) - 2 ^ f.fbits - 1
      | .nanOnly => 2 ^ (f.ebits + f.fbits) - 2
      | .none => 2 ^ (f.ebits + f.fbits) - 1

/-- Encoding of an infinity of an `ieee` format. -/
def FloatFmt.infBits (f : FloatFmt) (neg : Bool) : Nat :=
  neg.toNat * 2 ^ (f.ebits + f.fbits) + (2 ^ f.ebits - 1) * 2 ^ f.fbits

/-- Canonical NaN (R57); 0 for a format without one (R65). -/
def FloatFmt.nanBits (f : FloatFmt) : Nat :=
  match f.special with
  | .ieee => (2 ^ f.ebits - 1) * 2 ^ f.fbits + 2 ^ (f.fbits - 1)
  | .nanOnly => 2 ^ (f.ebits + f.fbits) - 1
  | .none => 0

/-- Encoding of r × 2^q, r below 2^(fbits+1) or equal to it, q at least the subnormal exponent. -/
def FloatFmt.pack (f : FloatFmt) (neg : Bool) (r : Nat) (q : Int) : Nat :=
  let (r, q) := if r = 2 ^ (f.fbits + 1) then (2 ^ f.fbits, q + 1) else (r, q)
  let s := neg.toNat * 2 ^ (f.ebits + f.fbits)
  if r < 2 ^ f.fbits then s + r
  else s + (q + f.fbits + f.bias).toNat * 2 ^ f.fbits + (r - 2 ^ f.fbits)

/-- An overflow goes to the infinity side of the table of R64. -/
def overflowsToInf (mode : Rnd) (neg : Bool) : Bool :=
  match mode with
  | .rne | .rsr => true
  | .rz => false
  | .rdn => neg
  | .rup => !neg

/-- round(x, fmt, mode) for a floating-point format (R64 to R66). -/
def FloatFmt.round (f : FloatFmt) (mode : Rnd) (sat : Bool) (draw : Nat) (v : Val) : Nat × BitVec 64 :=
  match v with
  | .nan => (f.nanBits, if f.special = .none then flNVL else 0)
  | .inf s =>
    match f.special with
    | .ieee => if sat then (f.maxBits s, flOVF) else (f.infBits s, 0)
    | .nanOnly => if sat then (f.maxBits s, flOVF) else (f.nanBits, flNVL)
    | .none => (f.maxBits s, flOVF)
  | .fin s 0 _ => (f.pack s 0 0, 0)
  | .fin s (m + 1) e =>
    let m := m + 1
    let qmin : Int := 1 - (f.bias : Int) - f.fbits
    let q : Int := max (e + (Nat.log2 m : Int) - (f.fbits : Int)) qmin
    let (r, inexact) := roundAt mode draw s m e q
    let (mx, ex) := f.largest
    let overflow : Bool := scaled false r q (min q ex) > scaled false mx ex (min q ex)
    if overflow then
      let toInf := !sat && overflowsToInf mode s
      (match f.special with
        | .ieee => if toInf then f.infBits s else f.maxBits s
        | .nanOnly => if toInf then f.nanBits else f.maxBits s
        | .none => f.maxBits s, flOVF ||| flINX)
    else
      let tiny : Bool := e + (Nat.log2 m : Int) < 1 - (f.bias : Int)
      (f.pack s r q, if inexact then (if tiny then flUNF ||| flINX else flINX) else 0)

/-- The range of an integer format (R58). -/
def Efmt.intRange (f : Efmt) : Int × Int :=
  if f.signedInt then (-(2 ^ (f.bits - 1) : Int), 2 ^ (f.bits - 1) - 1) else (0, 2 ^ f.bits - 1)

/-- An integer clamped to a format's range, and whether it was clamped. -/
def Efmt.clamp (f : Efmt) (i : Int) : Int × Bool :=
  let (lo, hi) := f.intRange
  if i < lo then (lo, true) else if hi < i then (hi, true) else (i, false)

/-- A value rounded to an integer format and clamped, whatever sat holds (R65). -/
def Efmt.roundInt (f : Efmt) (mode : Rnd) (draw : Nat) (v : Val) : Nat × BitVec 64 :=
  match v with
  | .nan => (0, flNVL)
  | .inf s => let (lo, hi) := f.intRange; (bitsOf f.bits (if s then lo else hi), flOVF)
  | .fin s m e =>
    let (r, inexact) := roundAt mode draw s m e 0
    let i : Int := if s then -(r : Int) else r
    let (c, clamped) := f.clamp i
    (bitsOf f.bits c, (if clamped then flOVF ||| flINX else 0) ||| (if inexact then flINX else 0))

/-- An integer to an integer format: wraps with sat = 0, clamps with sat = 1 (R65). -/
def Efmt.convInt (f : Efmt) (sat : Bool) (i : Int) : Nat × BitVec 64 :=
  if sat then
    let (c, clamped) := f.clamp i
    (bitsOf f.bits c, if clamped then flOVF else 0)
  else (bitsOf f.bits i, 0)

/-- round(x, fmt, mode) for any plain format (R64, R65). -/
def Efmt.round (f : Efmt) (mode : Rnd) (sat : Bool) (draw : Nat) (v : Val) : Nat × BitVec 64 :=
  match f.float? with
  | some p => p.round mode sat draw v
  | none => f.roundInt mode draw v

/-- Canonical NaN of a format, 0 without one. -/
def Efmt.nanBits (f : Efmt) : Nat := match f.float? with | some p => p.nanBits | none => 0

/-- A value known only to lie strictly between m × 2^e and (m + 1) × 2^e: for m with bits to spare, it rounds as any value of
that open interval does. -/
def Val.between (neg : Bool) (m : Nat) (e : Int) : Val := .fin neg (2 * m + 1) (e - 1)

/-- The value of an encoding under a block scale, and under a KS4 tile scale where one is given; a NaN scale, or a tile scale
that is not finite, gives NaN with SCL (R60 to R62). -/
def Efmt.scaled (f : Efmt) (v scale : Nat) (tscale : Option Nat) : Fv :=
  let x := f.decode v
  if f.block = 0 then (x, 0)
  else
    let sc := f.decodeScale scale
    if sc.isNan then (.nan, flSCL)
    else
      let y := x.mul sc
      match tscale with
      | none => y
      | some t => match Efmt.fp32.decode t with
        | .fin s m e => let z := y.1.mul (.fin s m e); (z.1, y.2 ||| z.2)
        | _ => (.nan, flSCL)

/-! ## The matrix sum order (R70, R71) -/

/-- A group sum before promotion (R71): the products of the group and the flags they raised. -/
def groupSum (ps : List Fv) : Fv :=
  let fl := ps.foldl (fun f p => f ||| p.2) 0
  if ps.any fun p => p.1.isNan then (.nan, fl)
  else
    let pos := ps.any fun p => p.1 = .inf false
    let neg := ps.any fun p => p.1 = .inf true
    if pos && neg then (.nan, fl ||| flNVL)
    else if pos then (.inf false, fl)
    else if neg then (.inf true, fl)
    else
      let sum := ps.foldl (fun (a : Val) (p : Fv) => (Val.add .rne a p.1).1) (.fin true 0 0)
      match sum with
      | .fin _ 0 _ => (.fin (ps.all fun p => p.1.sign) 0 0, fl)
      | v => (v, fl)

/-- One group applied to an accumulator encoding (R70): promotion, the rounding of the group sum, the rounded accumulation. -/
def accumulate (acc : Nat) (s promo : Fv) : Nat × BitVec 64 :=
  let p := s.1.mul promo.1
  let g := Efmt.a56.round .rne false 0 p.1
  let t := (Efmt.a56.decode acc).add .rne (Efmt.a56.decode g.1)
  let r := Efmt.a56.round .rne false 0 t.1
  (r.1, s.2 ||| promo.2 ||| p.2 ||| g.2 ||| t.2 ||| r.2)

end Sys2Proof
end

