-- ==== Sys2Proof/Config.lean ====
section
/-! DEFINITION. What the MX2 fixes for every part (R11, R14, R24), and the free values: constants without a body, for the
values the spec leaves open. Each takes the counter `State.freeCount` or the operands it may depend on (log 2). -/

namespace Sys2Proof.Config

/-- Cores per cluster (R12). -/
def coresPerCluster : Nat := 8
/-- Block contexts per core (R14). -/
def contextsPerCore : Nat := 4
/-- Bytes of a core's tile store (R15). -/
def tileStoreBytes : Nat := 1572864
/-- Entries of a core's accumulator store (R14). -/
def accEntries : Nat := 65536
/-- Slots guaranteed to a block context (R165). -/
def shareSlots : Nat := 48
/-- Accumulator entries guaranteed to a block context (R165). -/
def shareAcc : Nat := 16384
/-- Lane width in bits (R128). -/
def laneWidth : Nat := 4096

/-- The launch number a relay core takes for an admitted launch: the spec says only that it is free (R295). -/
opaque freeLaunch : Nat → BitVec 32
/-- The relay core that holds a queue (R312 speaks of a core's queues and gives no assignment). -/
opaque queueOwner : Nat → Nat
/-- First byte of the physical slot that renaming gives a tile (R325 says that it is not reported to programs). -/
opaque slotPlace : Nat → Nat
/-- TAG of a hypervisor fault entry (R99). -/
opaque hvTag : Nat → BitVec 64
/-- Code lengths of the table that RESAMPLE builds from samples of a class, beyond the bounds R268 states. -/
opaque builtCode : Nat → List Nat
/-- Byte of the SM3 digest of a message (R325; the spec names the function and does not give it). -/
opaque digestByte : List (BitVec 8) → Nat → BitVec 8
/-- Bytes of the SM2 signature of a report (R325). -/
opaque attestByte : Nat → BitVec 8
/-- Event code of a pending internal event (R295). -/
opaque eventCode : Nat → BitVec 32
/-- How many errors have been corrected since the last patrol scrub (R330: they are invisible to programs). -/
opaque corrected : Nat → Nat
/-- Whether an UPDATE image verifies (R325). -/
opaque imageVerifies : Nat → Bool
/-- Version that an image holds (R325 gives it no place). -/
opaque imageVersion : Nat → BitVec 32

/-- Whether a remote device translates a 4 KiB page of its virtual addresses (R82, R118). -/
opaque remoteMaps : Nat → Nat → Bool
/-- Whether a line of an L2PIN handle finds no free way among those reserved for its context, whose number the spec does not give (R83). -/
opaque pinFull : Nat → Bool
/-- A value that the spec leaves unstated for the case at hand (log 2). -/
opaque unstated : Nat → Nat
/-- How many elements of a tile store that traps at the memory were performed before the fault (R93, R177). -/
opaque performedBefore : Nat → Nat → Bool

end Sys2Proof.Config
end

