-- ==== Sys2Proof/Decode.lean ====
section
/-! DEFINITION. The decoder, total on any bits and rejecting by name, and after it the encoder, both written from the
encoding tables of spec/03_encoding.md and the forms of the class chapters. A word is a Nat whose bit 0 is bit 0 of the
byte at the lowest address (R28). -/

namespace Sys2Proof

/-- Why a word is no instruction; the constructors are the reasons of R55 in their order, then the relay core's. -/
inductive Reject where
  /-- reason 0x01: unassigned major opcode, or unassigned lane opcode -/
  | unassignedMajor
  /-- reason 0x02 -/
  | unassignedMinor
  /-- reason 0x03 -/
  | reservedField
  /-- reason 0x04 -/
  | reservedCode
  /-- reason 0x05 -/
  | reservedSelector
  /-- reason 0x07 -/
  | staticLimit
  /-- a word of the relay core's custom-0 opcode that R293 does not define: illegal instruction -/
  | relayIllegal
  /-- a word of the relay core's RV64 base, which the spec does not describe -/
  | relayBase
  /-- fewer bytes than a word -/
  | short
  deriving DecidableEq, Repr

/-- The reason number that PUBLISH reports (R55). -/
def Reject.reason : Reject → Nat
  | .unassignedMajor => 1
  | .unassignedMinor => 2
  | .reservedField => 3
  | .reservedCode => 4
  | .reservedSelector => 5
  | .staticLimit => 7
  | _ => 0

/-- Field of n bits at bit lo. -/
def fld (lo n w : Nat) : Nat := w / 2 ^ lo % 2 ^ n

/-- Field at bit lo as a number below n (n a power of two, the field's own range). -/
def fin (n : Nat) [NeZero n] (lo w : Nat) : Fin n := Fin.ofNat n (w / 2 ^ lo)

/-- Field of n bits at bit lo as a bit vector. -/
def bv (n lo w : Nat) : BitVec n := BitVec.ofNat n (w / 2 ^ lo)

/-- Bit lo. -/
def bit (lo w : Nat) : Bool := w / 2 ^ lo % 2 = 1

/-- Condition codes (R33). -/
def Cc.code : Cc → Nat
  | .eq => 0 | .ne => 1 | .lt => 2 | .ge => 3 | .ltu => 4 | .geu => 5

/-- The condition of a code, none for 110 and 111 (R33). -/
def Cc.ofCode : Nat → Option Cc
  | 0 => some .eq | 1 => some .ne | 2 => some .lt | 3 => some .ge | 4 => some .ltu | 5 => some .geu | _ => none

/-- Scope codes 001-101 (R42). -/
def Scope.code : Scope → Nat
  | .blk => 1 | .cl => 2 | .dev => 3 | .dom => 4 | .sys => 5

/-- The scope of a code (R42). -/
def Scope.ofCode : Nat → Option Scope
  | 1 => some .blk | 2 => some .cl | 3 => some .dev | 4 => some .dom | 5 => some .sys | _ => none

/-- Strength code (R42). -/
def MemOrd.strCode : MemOrd → Nat
  | .weak => 0 | .strong _ => 1 | .acq _ => 2 | .rel _ => 3

/-- Scope code that goes with the strength (R43). -/
def MemOrd.scopeCode : MemOrd → Nat
  | .weak => 0 | .strong s => s.code | .acq s => s.code | .rel s => s.code

/-- Strength and scope from their codes; a pairing R43 does not allow gives none. -/
def MemOrd.ofCodes (str scope : Nat) : Option MemOrd :=
  match str with
  | 0 => if scope = 0 then some .weak else none
  | 1 => (Scope.ofCode scope).map .strong
  | 2 => (Scope.ofCode scope).map .acq
  | 3 => (Scope.ofCode scope).map .rel
  | _ => none

/-- FENCE takes str 01 and a nonzero scope only (R242). -/
def fenceScope (str scope : Nat) : Option Scope := if str = 1 then Scope.ofCode scope else none

/-- Rounding-mode codes (R42). -/
def Rnd.code : Rnd → Nat
  | .rne => 0 | .rz => 1 | .rdn => 2 | .rup => 3 | .rsr => 4

/-- The rounding mode of a code (R42). -/
def Rnd.ofCode : Nat → Option Rnd
  | 0 => some .rne | 1 => some .rz | 2 => some .rdn | 3 => some .rup | 4 => some .rsr | _ => none

/-- Layout codes (R42). -/
def Lay.code : Lay → Nat
  | .row => 0 | .col => 1 | .sw => 2

/-- The layout of a code (R42). -/
def Lay.ofCode : Nat → Option Lay
  | 0 => some .row | 1 => some .col | 2 => some .sw | _ => none

/-- Home codes (R42). -/
def Home.code : Home → Nat
  | .s => 0 | .a => 1

/-- The home of a code (R42). -/
def Home.ofCode : Nat → Option Home
  | 0 => some .s | 1 => some .a | _ => none

/-- Element format codes (R44). -/
def Efmt.code : Efmt → Nat
  | .fp32 => 0x00 | .fp16 => 0x01 | .bf16 => 0x02 | .e4m3 => 0x03 | .e5m2 => 0x04 | .e2m3 => 0x05 | .e3m2 => 0x06
  | .e2m1 => 0x07 | .i4 => 0x08 | .i8 => 0x09 | .i16 => 0x0A | .i32 => 0x0B | .i64 => 0x0C | .ui4 => 0x0D | .ui8 => 0x0E
  | .ui16 => 0x0F | .ui32 => 0x10 | .ui64 => 0x11 | .a56 => 0x12 | .mxf8a => 0x13 | .mxf8b => 0x14 | .mxf6a => 0x15
  | .mxf6b => 0x16 | .mxf4 => 0x17 | .mxi8 => 0x18 | .ks4 => 0x19 | .ks6 => 0x1A

/-- The element format of a code, none for 0x1B-0x1F (R44). -/
def Efmt.ofCode : Nat → Option Efmt
  | 0x00 => some .fp32 | 0x01 => some .fp16 | 0x02 => some .bf16 | 0x03 => some .e4m3 | 0x04 => some .e5m2
  | 0x05 => some .e2m3 | 0x06 => some .e3m2 | 0x07 => some .e2m1 | 0x08 => some .i4 | 0x09 => some .i8 | 0x0A => some .i16
  | 0x0B => some .i32 | 0x0C => some .i64 | 0x0D => some .ui4 | 0x0E => some .ui8 | 0x0F => some .ui16 | 0x10 => some .ui32
  | 0x11 => some .ui64 | 0x12 => some .a56 | 0x13 => some .mxf8a | 0x14 => some .mxf8b | 0x15 => some .mxf6a
  | 0x16 => some .mxf6b | 0x17 => some .mxf4 | 0x18 => some .mxi8 | 0x19 => some .ks4 | 0x1A => some .ks6 | _ => none

/-- Atomic operation codes (R46). -/
def AOp.code : AOp → Nat
  | .add => 0 | .smin => 1 | .smax => 2 | .umin => 3 | .umax => 4 | .and => 5 | .or => 6 | .xor => 7 | .xchg => 8
  | .fadd => 9 | .bfadd2 => 10 | .incw => 11

/-- The operation of a code, none for 0xC-0xF (R46). -/
def AOp.ofCode : Nat → Option AOp
  | 0 => some .add | 1 => some .smin | 2 => some .smax | 3 => some .umin | 4 => some .umax | 5 => some .and | 6 => some .or
  | 7 => some .xor | 8 => some .xchg | 9 => some .fadd | 10 => some .bfadd2 | 11 => some .incw | _ => none

/-- TSCANR kinds, aux[1:0] (R219). -/
def Scan.code : Scan → Nat
  | .inc => 0 | .exc => 1 | .max => 2

/-- A mask field is reserved when mk is 0 (R36, R39). -/
def maskRsv (lk lm w : Nat) : Nat := if bit lk w then 0 else fld lm 4 w

/-- The optional element mask. -/
def maskOf (lk lm w : Nat) : Option MReg := if bit lk w then some (fin 16 lm w) else none

/-- The mask field of an encoded operand. -/
def maskBits : Option MReg → Nat
  | some m => m.val | none => 0

/-- The mk field of an encoded operand. -/
def maskOn : Option MReg → Nat
  | some _ => 1 | none => 0

/-- The core field is zero when x is 0 (R38, R192). -/
def srcRsv (lx lc w : Nat) : Nat := if bit lx w then 0 else fld lc 3 w

/-- A matrix operand (R38). -/
def srcOf (lt lx lc w : Nat) : TSrc := { t := fin 64 lt w, core := if bit lx w then some (fin 8 lc w) else none }

/-- The core field of an encoded operand. -/
def coreBits : Option CoreSel → Nat
  | some c => c.val | none => 0

/-- The x field of an encoded operand. -/
def coreOn : Option CoreSel → Nat
  | some _ => 1 | none => 0

/-- Inputs of MAP and REDUCE as the fields ia, ib, ic, ie and nin (R39). -/
def insBits : Ins → Nat
  | .i1 a => a.val * 2 ^ 31
  | .i2 a b => a.val * 2 ^ 31 + b.val * 2 ^ 25 + 1 * 2 ^ 11
  | .i3 a b c => a.val * 2 ^ 31 + b.val * 2 ^ 25 + c.val * 2 ^ 19 + 2 * 2 ^ 11
  | .i4 a b c d => a.val * 2 ^ 31 + b.val * 2 ^ 25 + c.val * 2 ^ 19 + d.val * 2 ^ 13 + 3 * 2 ^ 11

/-- The end of every entry: reserved fields, then codes, then static limits, in the order of the reasons of R55.
`lim` is a static limit that the term itself cannot show. -/
def finish (rsv : Nat) (lim : Bool) (o : Option Instr) : Except Reject Instr :=
  if rsv ≠ 0 then .error .reservedField
  else match o with
    | none => .error .reservedCode
    | some i =>
      if !i.codesAccepted then .error .reservedCode
      else if lim || !i.limitsKept then .error .staticLimit
      else .ok i

/-- VALID (R138): imm[17:16] kind, imm[18] the scalar form, imm[15:0] the immediate fraction. -/
def decValid (w : Nat) : Except Reject Instr :=
  let base := fld 47 5 w + fld 32 10 w + fld 19 13 w
  match fld 16 2 w with
  | 0 => finish (base + fld 42 5 w + fld 18 1 w + fld 0 16 w) false (some (.valid .none))
  | 1 => if bit 18 w then finish (base + fld 0 16 w) false (some (.valid (.partReg (fin 32 42 w))))
    else finish (base + fld 42 5 w) false (some (.valid (.partImm (bv 16 0 w))))
  | 2 => finish (base + fld 42 5 w + fld 18 1 w + fld 0 16 w) false (some (.valid .full))
  | _ => finish (base + fld 42 5 w + fld 18 1 w + fld 0 16 w) false none

/-- TSORTR (R219): tc is used when aux[1] is 1; aux[7:2] and mk must be 0 as static limits. -/
def decTsortr (w : Nat) : Except Reject Instr :=
  let rsv := fld 0 6 w + fld 14 9 w + fld 24 4 w + fld 34 6 w
  let lim := fld 8 6 w != 0 || bit 23 w
  if bit 7 w then finish rsv lim (some (.tsortr (fin 64 46 w) (fin 64 40 w) (some (fin 64 28 w)) (bit 6 w)))
  else finish (rsv + fld 28 6 w) lim (some (.tsortr (fin 64 46 w) (fin 64 40 w) none (bit 6 w)))

/-- TSCANR (R219): aux[1:0] is the kind and 11 breaks a static limit, as mk = 1 does. -/
def decTscanr (w : Nat) : Except Reject Instr :=
  let rsv := fld 0 6 w + fld 8 11 w + fld 24 16 w
  let kind : Scan := match fld 6 2 w with | 0 => .inc | 1 => .exc | _ => .max
  let lim := fld 6 2 w = 3 || bit 23 w
  finish rsv lim ((Rnd.ofCode (fld 20 3 w)).bind fun r => some (.tscanr (fin 64 46 w) (fin 64 40 w) kind r (bit 19 w)))

/-- MAP and REDUCE (R39, R226): input fields beyond nin are reserved, td2 is reserved in the one-output forms. A REDUCE uses ib only when
nin = 1, and never ic or ie. -/
def decMap (two fold : Bool) (w : Nat) (mk : TReg → TReg → Fin 512 → Ins → Option MReg → Instr) : Except Reject Instr :=
  let rsv := maskRsv 10 6 w + (if two then 0 else fld 0 6 w)
  let go (r : Nat) (ins : Ins) := finish (rsv + r) false (some (mk (fin 64 46 w) (fin 64 0 w) (fin 512 37 w) ins (maskOf 10 6 w)))
  match fld 11 2 w with
  | 0 => go (fld 13 18 w) (.i1 (fin 64 31 w))
  | 1 => go (fld 13 12 w) (.i2 (fin 64 31 w) (fin 64 25 w))
  | 2 => go (if fold then fld 13 18 w else fld 13 6 w) (.i3 (fin 64 31 w) (fin 64 25 w) (fin 64 19 w))
  | _ => go (if fold then fld 13 18 w else 0) (.i4 (fin 64 31 w) (fin 64 25 w) (fin 64 19 w) (fin 64 13 w))

/-- Major 0x00 (R45). A nonzero off in ENDIF, RET or EXIT, for which R122 gives 0, is reported as a reserved field, reason 0x03, not as a control
mismatch (DESIGN CHOICE, log 17). -/
def decMajor00 (mn w : Nat) : Except Reject Instr :=
  match mn with
  | 1 => finish (fld 32 7 w) (false) ((Cc.ofCode (fld 39 3 w)).bind fun x0 => some (.cIf x0 (fin 32 47 w) (fin 32 42 w) (bv 32 0 w)))
  | 2 => finish (fld 32 20 w) (false) (some (.cElse (bv 32 0 w)))
  | 3 => finish (fld 0 52 w) (false) (some .endif)
  | 4 => finish (fld 32 20 w) (false) (some (.loop (bv 32 0 w)))
  | 5 => finish (fld 32 15 w) (false) (some (.loopc (fin 32 47 w) (bv 32 0 w)))
  | 6 => finish (fld 32 15 w) (false) (some (.endl (fin 32 47 w) (bv 32 0 w)))
  | 7 => finish (fld 32 7 w) (false) ((Cc.ofCode (fld 39 3 w)).bind fun x0 => some (.brk x0 (fin 32 47 w) (fin 32 42 w) (bv 32 0 w)))
  | 8 => finish (fld 32 7 w) (false) ((Cc.ofCode (fld 39 3 w)).bind fun x0 => some (.cont x0 (fin 32 47 w) (fin 32 42 w) (bv 32 0 w)))
  | 9 => finish (fld 32 20 w) (false) (some (.call (bv 32 0 w)))
  | 10 => finish (fld 32 15 w) (false) (some (.calli (fin 32 47 w) (bv 32 0 w)))
  | 11 => finish (fld 0 52 w) (false) (some .ret)
  | 12 => finish (fld 0 52 w) (false) (some .exit)
  | _ => .error .unassignedMinor

/-- Major 0x01 (R45). -/
def decMajor01 (mn w : Nat) : Except Reject Instr :=
  match mn with
  | 0 => finish (fld 16 36 w) (false) (some (.trap (bv 16 0 w)))
  | 1 => finish (fld 0 52 w) (false) (some .nop)
  | 2 => finish (fld 0 52 w) (false) (some .yield)
  | 3 => finish (fld 12 35 w) (false) (some (.srd (fin 32 47 w) (bv 12 0 w)))
  | 4 => finish (fld 12 30 w + fld 47 5 w) false (some (if fld 0 12 w = 0x102 then .hinv (fin 32 42 w) else if fld 0 12 w = 0x103 then .xroot (fin 32 42 w) else .swr (fin 32 42 w) (bv 12 0 w)))
  | 5 => finish (fld 37 5 w) (false) (some (.capq (fin 32 47 w) (fin 32 32 w) (fin 32 42 w) (bv 32 0 w)))
  | 6 => finish (fld 0 47 w) (false) (some (.lwid (fin 32 47 w)))
  | 7 => finish (fld 0 42 w + fld 46 1 w) (false) (some (.publish (fin 32 47 w) (fin 16 42 w)))
  | 8 => decValid w
  | 9 => finish (fld 0 52 w) (false) (some .wrapend)
  | _ => .error .unassignedMinor

/-- Major 0x02 (R45). -/
def decMajor02 (mn w : Nat) : Except Reject Instr :=
  match mn with
  | 0 => finish (fld 0 52 w) (false) (some .eret)
  | 1 => finish (fld 0 52 w) (false) (some .savectx)
  | 2 => finish (fld 0 52 w) (false) (some .loadctx)
  | _ => .error .unassignedMinor

/-- Major 0x10 (R45). -/
def decMajor10 (mn w : Nat) : Except Reject Instr :=
  match mn with
  | 0 => finish (fld 0 37 w) (false) (some (.add (fin 32 47 w) (fin 32 42 w) (fin 32 37 w)))
  | 1 => finish (fld 0 37 w) (false) (some (.sub (fin 32 47 w) (fin 32 42 w) (fin 32 37 w)))
  | 2 => finish (fld 0 37 w) (false) (some (.mul (fin 32 47 w) (fin 32 42 w) (fin 32 37 w)))
  | 3 => finish (fld 0 37 w) (false) (some (.mulh (fin 32 47 w) (fin 32 42 w) (fin 32 37 w)))
  | 4 => finish (fld 0 37 w) (false) (some (.mulhu (fin 32 47 w) (fin 32 42 w) (fin 32 37 w)))
  | 5 => finish (fld 0 37 w) (false) (some (.div (fin 32 47 w) (fin 32 42 w) (fin 32 37 w)))
  | 6 => finish (fld 0 37 w) (false) (some (.divu (fin 32 47 w) (fin 32 42 w) (fin 32 37 w)))
  | 7 => finish (fld 0 37 w) (false) (some (.rem (fin 32 47 w) (fin 32 42 w) (fin 32 37 w)))
  | 8 => finish (fld 0 37 w) (false) (some (.remu (fin 32 47 w) (fin 32 42 w) (fin 32 37 w)))
  | 9 => finish (fld 0 37 w) (false) (some (.and (fin 32 47 w) (fin 32 42 w) (fin 32 37 w)))
  | 10 => finish (fld 0 37 w) (false) (some (.or (fin 32 47 w) (fin 32 42 w) (fin 32 37 w)))
  | 11 => finish (fld 0 37 w) (false) (some (.xor (fin 32 47 w) (fin 32 42 w) (fin 32 37 w)))
  | 12 => finish (fld 0 37 w) (false) (some (.sll (fin 32 47 w) (fin 32 42 w) (fin 32 37 w)))
  | 13 => finish (fld 0 37 w) (false) (some (.srl (fin 32 47 w) (fin 32 42 w) (fin 32 37 w)))
  | 14 => finish (fld 0 37 w) (false) (some (.sra (fin 32 47 w) (fin 32 42 w) (fin 32 37 w)))
  | 15 => finish (fld 0 37 w) (false) (some (.slt (fin 32 47 w) (fin 32 42 w) (fin 32 37 w)))
  | 16 => finish (fld 0 37 w) (false) (some (.sltu (fin 32 47 w) (fin 32 42 w) (fin 32 37 w)))
  | 17 => finish (fld 0 37 w) (false) (some (.min (fin 32 47 w) (fin 32 42 w) (fin 32 37 w)))
  | 18 => finish (fld 0 37 w) (false) (some (.max (fin 32 47 w) (fin 32 42 w) (fin 32 37 w)))
  | 19 => finish (fld 0 42 w) (false) (some (.clz (fin 32 47 w) (fin 32 42 w)))
  | 20 => finish (fld 0 42 w) (false) (some (.popc (fin 32 47 w) (fin 32 42 w)))
  | 21 => finish (fld 0 32 w) (false) (some (.sel (fin 32 47 w) (fin 32 42 w) (fin 32 37 w) (fin 32 32 w)))
  | 22 => finish (fld 13 29 w) (false) (some (.bfx (fin 32 47 w) (fin 32 42 w) (fin 64 0 w) (fin 64 6 w) (bit 12 w)))
  | 23 => finish (fld 12 30 w) (false) (some (.bfi (fin 32 47 w) (fin 32 42 w) (fin 64 0 w) (fin 64 6 w)))
  | _ => .error .unassignedMinor

/-- Major 0x11 (R45). -/
def decMajor11 (mn w : Nat) : Except Reject Instr :=
  match mn with
  | 0 => finish (fld 32 10 w) (false) (some (.addi (fin 32 47 w) (fin 32 42 w) (bv 32 0 w)))
  | 9 => finish (fld 32 10 w) (false) (some (.andi (fin 32 47 w) (fin 32 42 w) (bv 32 0 w)))
  | 10 => finish (fld 32 10 w) (false) (some (.ori (fin 32 47 w) (fin 32 42 w) (bv 32 0 w)))
  | 11 => finish (fld 32 10 w) (false) (some (.xori (fin 32 47 w) (fin 32 42 w) (bv 32 0 w)))
  | 12 => finish (fld 6 36 w) (false) (some (.slli (fin 32 47 w) (fin 32 42 w) (fin 64 0 w)))
  | 13 => finish (fld 6 36 w) (false) (some (.srli (fin 32 47 w) (fin 32 42 w) (fin 64 0 w)))
  | 14 => finish (fld 6 36 w) (false) (some (.srai (fin 32 47 w) (fin 32 42 w) (fin 64 0 w)))
  | 24 => finish (fld 32 15 w) (false) (some (.li (fin 32 47 w) (bv 32 0 w)))
  | 25 => finish (fld 32 15 w) (false) (some (.lih (fin 32 47 w) (bv 32 0 w)))
  | _ => .error .unassignedMinor

/-- Major 0x12 (R45). -/
def decMajor12 (mn w : Nat) : Except Reject Instr :=
  match mn with
  | 0 => if bit 0 w then finish (fld 1 41 w + fld 51 1 w) false (some (.refmkW (fin 16 47 w) (fin 32 42 w)))
    else finish (fld 1 36 w + fld 51 1 w) false (some (.refmk (fin 16 47 w) (fin 32 42 w) (fin 32 37 w)))
  | 1 => finish (fld 0 37 w + fld 46 1 w + fld 51 1 w) (false) (some (.refadd (fin 16 47 w) (fin 16 42 w) (fin 32 37 w)))
  | 2 => finish (fld 32 10 w + fld 46 1 w + fld 51 1 w) (false) (some (.refaddImm (fin 16 47 w) (fin 16 42 w) (bv 32 0 w)))
  | 3 => finish (fld 0 42 w + fld 46 1 w) (false) (some (.refh (fin 32 47 w) (fin 16 42 w)))
  | 4 => if bit 0 w then finish (fld 1 41 w + fld 46 1 w) false (some (.refoffW (fin 32 47 w) (fin 16 42 w)))
    else finish (fld 1 41 w + fld 46 1 w) false (some (.refoff (fin 32 47 w) (fin 16 42 w)))
  | _ => .error .unassignedMinor

/-- Major 0x13 (R45). -/
def decMajor13 (mn w : Nat) : Except Reject Instr :=
  match mn with
  | 0 => finish (fld 24 14 w) (false) ((MemOrd.ofCodes (fld 38 2 w) (fld 40 3 w)).bind fun x2 => some (.ldB (fin 32 47 w) (fin 16 43 w) x2 (bv 24 0 w)))
  | 1 => finish (fld 24 14 w) (false) ((MemOrd.ofCodes (fld 38 2 w) (fld 40 3 w)).bind fun x2 => some (.ldH (fin 32 47 w) (fin 16 43 w) x2 (bv 24 0 w)))
  | 2 => finish (fld 24 14 w) (false) ((MemOrd.ofCodes (fld 38 2 w) (fld 40 3 w)).bind fun x2 => some (.ldW (fin 32 47 w) (fin 16 43 w) x2 (bv 24 0 w)))
  | 3 => finish (fld 24 14 w) (false) ((MemOrd.ofCodes (fld 38 2 w) (fld 40 3 w)).bind fun x2 => some (.ldD (fin 32 47 w) (fin 16 43 w) x2 (bv 24 0 w)))
  | 4 => finish (fld 24 14 w) (false) ((MemOrd.ofCodes (fld 38 2 w) (fld 40 3 w)).bind fun x2 => some (.ldq (fin 32 47 w) (fin 16 43 w) x2 (bv 24 0 w)))
  | _ => .error .unassignedMinor

/-- Major 0x14 (R45). -/
def decMajor14 (mn w : Nat) : Except Reject Instr :=
  match mn with
  | 0 => finish (fld 24 14 w) (false) ((MemOrd.ofCodes (fld 38 2 w) (fld 40 3 w)).bind fun x2 => some (.stB (fin 32 47 w) (fin 16 43 w) x2 (bv 24 0 w)))
  | 1 => finish (fld 24 14 w) (false) ((MemOrd.ofCodes (fld 38 2 w) (fld 40 3 w)).bind fun x2 => some (.stH (fin 32 47 w) (fin 16 43 w) x2 (bv 24 0 w)))
  | 2 => finish (fld 24 14 w) (false) ((MemOrd.ofCodes (fld 38 2 w) (fld 40 3 w)).bind fun x2 => some (.stW (fin 32 47 w) (fin 16 43 w) x2 (bv 24 0 w)))
  | 3 => finish (fld 24 14 w) (false) ((MemOrd.ofCodes (fld 38 2 w) (fld 40 3 w)).bind fun x2 => some (.stD (fin 32 47 w) (fin 16 43 w) x2 (bv 24 0 w)))
  | 4 => finish (fld 24 14 w) (false) ((MemOrd.ofCodes (fld 38 2 w) (fld 40 3 w)).bind fun x2 => some (.stq (fin 32 47 w) (fin 16 43 w) x2 (bv 24 0 w)))
  | _ => .error .unassignedMinor

/-- Major 0x30 (R45). -/
def decMajor30 (mn w : Nat) : Except Reject Instr :=
  match mn with
  | 0 => finish (fld 0 16 w + fld 41 5 w) (false) ((Efmt.ofCode (fld 36 5 w)).bind fun x3 => (Home.ofCode (fld 35 1 w)).bind fun x4 => (Lay.ofCode (fld 16 3 w)).bind fun x5 => some (.tbind (fin 64 46 w) (fin 256 27 w) (fin 256 19 w) x3 x4 x5))
  | 1 => finish (fld 0 16 w + fld 19 16 w) (false) ((Efmt.ofCode (fld 36 5 w)).bind fun x2 => (Home.ofCode (fld 35 1 w)).bind fun x3 => (Lay.ofCode (fld 16 3 w)).bind fun x4 => some (.tbindMn (fin 64 46 w) (fin 32 41 w) x2 x3 x4))
  | 2 => finish (fld 0 16 w + fld 19 16 w) (false) ((Efmt.ofCode (fld 36 5 w)).bind fun x2 => (Home.ofCode (fld 35 1 w)).bind fun x3 => (Lay.ofCode (fld 16 3 w)).bind fun x4 => some (.tbindMk (fin 64 46 w) (fin 32 41 w) x2 x3 x4))
  | 3 => finish (fld 0 16 w + fld 19 16 w) (false) ((Efmt.ofCode (fld 36 5 w)).bind fun x2 => (Home.ofCode (fld 35 1 w)).bind fun x3 => (Lay.ofCode (fld 16 3 w)).bind fun x4 => some (.tbindKn (fin 64 46 w) (fin 32 41 w) x2 x3 x4))
  | 4 => finish (fld 0 19 w + fld 35 6 w) (false) (some (.tview (fin 64 46 w) (fin 256 27 w) (fin 256 19 w) (fin 32 41 w)))
  | 5 => finish (fld 0 16 w + fld 19 27 w) (false) ((Lay.ofCode (fld 16 3 w)).bind fun x1 => some (.tlay (fin 64 46 w) x1))
  | _ => .error .unassignedMinor

/-- Major 0x31 (R45). -/
def decMajor31 (mn w : Nat) : Except Reject Instr :=
  match mn with
  | 0 => finish (fld 0 46 w) (false) (some (.tunbind (fin 64 46 w)))
  | 1 => finish (fld 0 6 w + fld 14 26 w + fld 51 1 w) (false) (some (.tdesc (fin 32 46 w) (fin 64 40 w) (fin 256 6 w)))
  | 2 => finish (fld 0 46 w) (false) (some (.tzero (fin 64 46 w)))
  | 3 => finish (fld 0 40 w + fld 45 1 w) (false) (some (.tfill (fin 64 46 w) (fin 32 40 w)))
  | 4 => finish (fld 0 23 w + fld 28 12 w + maskRsv 23 24 w) (false) (some (.tcpyt (fin 64 46 w) (fin 64 40 w) (maskOf 23 24 w)))
  | 5 => finish (fld 0 46 w) (false) (some (.tsettle (fin 64 46 w)))
  | 6 => finish (fld 0 6 w + fld 14 26 w + fld 51 1 w) (false) (some (.tstat (fin 32 46 w) (fin 64 40 w) (fin 256 6 w)))
  | _ => .error .unassignedMinor

/-- Major 0x32 (R45). -/
def decMajor32 (mn w : Nat) : Except Reject Instr :=
  match mn with
  | 0 => finish (fld 0 32 w) (false) (some (.shape (fin 32 47 w) (fin 32 42 w) (fin 32 37 w) (fin 32 32 w)))
  | 1 => if bit 4 w then finish (fld 0 4 w + fld 5 37 w) false (some (.shqAdv (fin 32 47 w) (fin 32 42 w)))
    else finish (fld 5 37 w) false (some (.shq (fin 32 47 w) (fin 32 42 w) (fin 16 0 w)))
  | _ => .error .unassignedMinor

/-- Major 0x38 (R45). -/
def decMajor38 (mn w : Nat) : Except Reject Instr :=
  match mn with
  | 0 => finish (fld 20 5 w + fld 31 6 w) (false) ((MemOrd.ofCodes (fld 26 2 w) (fld 28 3 w)).bind fun x4 => some (.tld (fin 64 46 w) (fin 16 42 w) (fin 32 37 w) (bit 25 w) x4 (bv 20 0 w)))
  | 1 => finish (fld 20 6 w + fld 31 6 w) (false) ((MemOrd.ofCodes (fld 26 2 w) (fld 28 3 w)).bind fun x3 => some (.tst (fin 64 46 w) (fin 16 42 w) (fin 32 37 w) x3 (bv 20 0 w)))
  | 2 => finish (fld 20 6 w) (false) ((MemOrd.ofCodes (fld 26 2 w) (fld 28 3 w)).bind fun x4 => some (.tldg (fin 64 46 w) (fin 16 42 w) (fin 32 37 w) (fin 64 31 w) x4 (bv 20 0 w)))
  | 3 => finish (fld 20 6 w) (false) ((MemOrd.ofCodes (fld 26 2 w) (fld 28 3 w)).bind fun x4 => some (.tsts (fin 64 46 w) (fin 16 42 w) (fin 32 37 w) (fin 64 31 w) x4 (bv 20 0 w)))
  | 4 => finish (fld 20 6 w + fld 31 6 w) (false) ((MemOrd.ofCodes (fld 26 2 w) (fld 28 3 w)).bind fun x3 => some (.tldd (fin 64 46 w) (fin 16 42 w) (fin 32 37 w) x3 (bv 20 0 w)))
  | 5 => finish (fld 20 6 w + fld 31 6 w) (false) ((MemOrd.ofCodes (fld 26 2 w) (fld 28 3 w)).bind fun x3 => some (.tstd (fin 64 46 w) (fin 16 42 w) (fin 32 37 w) x3 (bv 20 0 w)))
  | 6 => finish (fld 20 17 w + fld 45 1 w) (false) (some (.pld (fin 64 46 w) (fin 8 42 w) (fin 32 37 w) (bv 20 0 w)))
  | 7 => finish (fld 20 22 w + fld 45 1 w + fld 51 1 w) (false) (some (.plds (fin 32 46 w) (fin 8 42 w) (bv 20 0 w)))
  | 8 => finish (fld 20 17 w + fld 46 6 w) (false) (some (.tprf (fin 16 42 w) (fin 32 37 w) (bv 20 0 w)))
  | _ => .error .unassignedMinor

/-- Major 0x39 (R45). -/
def decMajor39 (mn w : Nat) : Except Reject Instr :=
  match mn with
  | 0 => finish (fld 0 25 w) (false) ((MemOrd.ofCodes (fld 25 2 w) (fld 27 3 w)).bind fun x5 => some (.xcpy (fin 32 47 w) (fin 16 43 w) (fin 16 39 w) (fin 16 35 w) (fin 32 30 w) x5))
  | _ => .error .unassignedMinor

/-- Major 0x44 (R45). -/
def decMajor44 (mn w : Nat) : Except Reject Instr :=
  match mn with
  | 0 => finish (fld 0 26 w + srcRsv 33 30 w + srcRsv 29 26 w) (false) (some (.tmma (fin 64 46 w) (srcOf 40 33 30 w) (srcOf 34 29 26 w)))
  | 1 => finish (fld 0 14 w + srcRsv 33 30 w + srcRsv 29 26 w) (false) (some (.tmmas (fin 64 46 w) (srcOf 40 33 30 w) (srcOf 34 29 26 w) (fin 64 20 w) (fin 64 14 w)))
  | 2 => finish (fld 0 26 w + srcRsv 33 30 w + srcRsv 29 26 w) (false) (some (.tmmax (fin 64 46 w) (srcOf 40 33 30 w) (srcOf 34 29 26 w)))
  | 3 => finish (fld 0 10 w + fld 14 12 w + fld 30 3 w + srcRsv 29 26 w) (bit 33 w) (some (.gmma (fin 64 46 w) (fin 64 40 w) (srcOf 34 29 26 w) (fin 16 10 w)))
  | _ => .error .unassignedMinor

/-- Major 0x45 (R45). -/
def decMajor45 (mn w : Nat) : Except Reject Instr :=
  match mn with
  | 0 => finish (fld 0 46 w) (false) (some (.tacz (fin 64 46 w)))
  | 1 => finish (fld 0 14 w + fld 28 12 w + maskRsv 23 24 w) (false) ((Efmt.ofCode (fld 14 5 w)).bind fun x2 => (Rnd.ofCode (fld 20 3 w)).bind fun x3 => some (.tacv (fin 64 46 w) (fin 64 40 w) x2 x3 (bit 19 w) (maskOf 23 24 w)))
  | 2 => finish (fld 0 6 w + fld 7 7 w + fld 19 1 w + fld 28 12 w + maskRsv 23 24 w) (false) ((Efmt.ofCode (fld 14 5 w)).bind fun x2 => (Rnd.ofCode (fld 20 3 w)).bind fun x3 => some (.tacq (fin 64 46 w) (fin 64 40 w) x2 x3 (bit 6 w) (maskOf 23 24 w)))
  | _ => .error .unassignedMinor

/-- Major 0x46 (R45). -/
def decMajor46 (mn w : Nat) : Except Reject Instr :=
  match mn with
  | 0 => finish (fld 0 42 w + fld 47 5 w) (false) (some (.mslt (fin 32 42 w)))
  | _ => .error .unassignedMinor

/-- Major 0x50 (R45). -/
def decMajor50 (mn w : Nat) : Except Reject Instr :=
  match mn with
  | 0 => finish (fld 0 19 w + fld 28 6 w + maskRsv 23 24 w) (false) ((Rnd.ofCode (fld 20 3 w)).bind fun x3 => some (.tadd (fin 64 46 w) (fin 64 40 w) (fin 64 34 w) x3 (bit 19 w) (maskOf 23 24 w)))
  | 1 => finish (fld 0 19 w + fld 28 6 w + maskRsv 23 24 w) (false) ((Rnd.ofCode (fld 20 3 w)).bind fun x3 => some (.tsub (fin 64 46 w) (fin 64 40 w) (fin 64 34 w) x3 (bit 19 w) (maskOf 23 24 w)))
  | 2 => finish (fld 0 19 w + fld 28 6 w + maskRsv 23 24 w) (false) ((Rnd.ofCode (fld 20 3 w)).bind fun x3 => some (.tmul (fin 64 46 w) (fin 64 40 w) (fin 64 34 w) x3 (bit 19 w) (maskOf 23 24 w)))
  | 3 => finish (fld 0 19 w + maskRsv 23 24 w) (false) ((Rnd.ofCode (fld 20 3 w)).bind fun x4 => some (.tfma (fin 64 46 w) (fin 64 40 w) (fin 64 34 w) (fin 64 28 w) x4 (bit 19 w) (maskOf 23 24 w)))
  | 4 => finish (fld 0 19 w + fld 28 6 w + maskRsv 23 24 w) (false) ((Rnd.ofCode (fld 20 3 w)).bind fun x3 => some (.tmin (fin 64 46 w) (fin 64 40 w) (fin 64 34 w) x3 (bit 19 w) (maskOf 23 24 w)))
  | 5 => finish (fld 0 19 w + fld 28 6 w + maskRsv 23 24 w) (false) ((Rnd.ofCode (fld 20 3 w)).bind fun x3 => some (.tmax (fin 64 46 w) (fin 64 40 w) (fin 64 34 w) x3 (bit 19 w) (maskOf 23 24 w)))
  | 6 => finish (fld 0 19 w + fld 20 3 w + fld 28 12 w + maskRsv 23 24 w) (false) (some (.tabs (fin 64 46 w) (fin 64 40 w) (bit 19 w) (maskOf 23 24 w)))
  | 7 => finish (fld 0 19 w + fld 20 3 w + fld 28 12 w + maskRsv 23 24 w) (false) (some (.tneg (fin 64 46 w) (fin 64 40 w) (bit 19 w) (maskOf 23 24 w)))
  | 8 => finish (fld 0 14 w + fld 28 12 w + maskRsv 23 24 w) (false) ((Efmt.ofCode (fld 14 5 w)).bind fun x2 => (Rnd.ofCode (fld 20 3 w)).bind fun x3 => some (.tcvt (fin 64 46 w) (fin 64 40 w) x2 x3 (bit 19 w) (maskOf 23 24 w)))
  | 9 => finish (fld 0 6 w + fld 19 4 w + fld 28 6 w + fld 50 2 w + maskRsv 23 24 w) (false) ((Efmt.ofCode (fld 14 5 w)).bind fun x3 => some (.tcmp (fin 16 46 w) (fin 64 40 w) (fin 64 34 w) x3 (fin 256 6 w) (maskOf 23 24 w)))
  | 10 => finish (fld 0 23 w + fld 28 6 w + maskRsv 23 24 w) (false) (some (.tsel (fin 64 46 w) (fin 64 40 w) (fin 64 34 w) (maskOf 23 24 w)))
  | _ => .error .unassignedMinor

/-- Major 0x51 (R45). -/
def decMajor51 (mn w : Nat) : Except Reject Instr :=
  match mn with
  | 0 => finish (fld 0 23 w + fld 28 6 w + maskRsv 23 24 w) (false) (some (.tand (fin 64 46 w) (fin 64 40 w) (fin 64 34 w) (maskOf 23 24 w)))
  | 1 => finish (fld 0 23 w + fld 28 6 w + maskRsv 23 24 w) (false) (some (.tor (fin 64 46 w) (fin 64 40 w) (fin 64 34 w) (maskOf 23 24 w)))
  | 2 => finish (fld 0 23 w + fld 28 6 w + maskRsv 23 24 w) (false) (some (.txor (fin 64 46 w) (fin 64 40 w) (fin 64 34 w) (maskOf 23 24 w)))
  | 3 => finish (fld 0 23 w + fld 28 12 w + maskRsv 23 24 w) (false) (some (.tnot (fin 64 46 w) (fin 64 40 w) (maskOf 23 24 w)))
  | 4 => finish (fld 0 6 w + fld 14 9 w + fld 28 12 w + maskRsv 23 24 w) (false) (some (.tshl (fin 64 46 w) (fin 64 40 w) (fin 256 6 w) (maskOf 23 24 w)))
  | 5 => finish (fld 0 6 w + fld 14 9 w + fld 28 12 w + maskRsv 23 24 w) (false) (some (.tshr (fin 64 46 w) (fin 64 40 w) (fin 256 6 w) (maskOf 23 24 w)))
  | 6 => finish (fld 0 23 w + fld 28 6 w + fld 39 1 w + maskRsv 23 24 w) (false) (some (.tbsh (fin 64 46 w) (fin 64 40 w) (fin 32 34 w) (maskOf 23 24 w)))
  | 7 => finish (fld 0 23 w + fld 33 1 w + maskRsv 23 24 w) (false) (some (.tfsh (fin 64 46 w) (fin 64 40 w) (fin 64 34 w) (fin 32 28 w) (maskOf 23 24 w)))
  | _ => .error .unassignedMinor

/-- Major 0x52 (R45). -/
def decMajor52 (mn w : Nat) : Except Reject Instr :=
  match mn with
  | 0 => finish (fld 0 23 w + fld 28 12 w + maskRsv 23 24 w) (false) (some (.trcp (fin 64 46 w) (fin 64 40 w) (maskOf 23 24 w)))
  | 1 => finish (fld 0 23 w + fld 28 12 w + maskRsv 23 24 w) (false) (some (.trsq (fin 64 46 w) (fin 64 40 w) (maskOf 23 24 w)))
  | 2 => finish (fld 0 23 w + fld 28 6 w + maskRsv 23 24 w) (false) (some (.trcpn (fin 64 46 w) (fin 64 40 w) (fin 64 34 w) (maskOf 23 24 w)))
  | 3 => finish (fld 0 23 w + fld 28 6 w + maskRsv 23 24 w) (false) (some (.trsqn (fin 64 46 w) (fin 64 40 w) (fin 64 34 w) (maskOf 23 24 w)))
  | 4 => finish (fld 0 23 w + fld 28 12 w + maskRsv 23 24 w) (false) (some (.texp2 (fin 64 46 w) (fin 64 40 w) (maskOf 23 24 w)))
  | 5 => finish (fld 0 23 w + fld 28 12 w + maskRsv 23 24 w) (false) (some (.tlog2 (fin 64 46 w) (fin 64 40 w) (maskOf 23 24 w)))
  | _ => .error .unassignedMinor

/-- Major 0x53 (R45). -/
def decMajor53 (mn w : Nat) : Except Reject Instr :=
  match mn with
  | 0 => finish (fld 0 19 w + fld 28 12 w + maskRsv 23 24 w) (false) ((Rnd.ofCode (fld 20 3 w)).bind fun x2 => some (.tsumr (fin 64 46 w) (fin 64 40 w) x2 (bit 19 w) (maskOf 23 24 w)))
  | 1 => finish (fld 0 23 w + fld 28 12 w + maskRsv 23 24 w) (false) (some (.tmaxr (fin 64 46 w) (fin 64 40 w) (maskOf 23 24 w)))
  | 2 => finish (fld 0 6 w + fld 14 9 w + fld 34 6 w + maskRsv 23 24 w) (false) (some (.topk (fin 64 46 w) (fin 64 28 w) (fin 64 40 w) (fin 256 6 w) (maskOf 23 24 w)))
  | 3 => decTsortr w
  | 4 => decTscanr w
  | 5 => finish (fld 0 6 w + fld 14 9 w + fld 28 6 w + maskRsv 23 24 w) (fld 7 7 w != 0) (some (.tperm (fin 64 46 w) (fin 64 40 w) (fin 64 34 w) (bit 6 w) (maskOf 23 24 w)))
  | 6 => finish (fld 0 6 w + fld 14 9 w + fld 28 12 w + maskRsv 23 24 w) (fld 7 7 w != 0) (some (.tbcast (fin 64 46 w) (fin 64 40 w) (bit 6 w) (maskOf 23 24 w)))
  | _ => .error .unassignedMinor

/-- Major 0x54 (R45). -/
def decMajor54 (mn w : Nat) : Except Reject Instr :=
  match mn with
  | 0 => decMap false false w fun td _ fn ins m => .map td fn ins m
  | 1 => decMap true false w fun td td2 fn ins m => .map2 td td2 fn ins m
  | 2 => decMap false true w fun td _ fn ins m => .reduce td fn ins m
  | 3 => decMap true true w fun td td2 fn ins m => .reduce2 td td2 fn ins m
  | _ => .error .unassignedMinor

/-- Major 0x55 (R45). -/
def decMajor55 (mn w : Nat) : Except Reject Instr :=
  match mn with
  | 0 => finish (fld 0 34 w + fld 38 2 w + fld 44 2 w + fld 50 2 w) (false) (some (.mand (fin 16 46 w) (fin 16 40 w) (fin 16 34 w)))
  | 1 => finish (fld 0 34 w + fld 38 2 w + fld 44 2 w + fld 50 2 w) (false) (some (.mor (fin 16 46 w) (fin 16 40 w) (fin 16 34 w)))
  | 2 => finish (fld 0 40 w + fld 44 2 w + fld 50 2 w) (false) (some (.mnot (fin 16 46 w) (fin 16 40 w)))
  | 3 => finish (fld 0 40 w + fld 44 2 w + fld 51 1 w) (false) (some (.mcnt (fin 32 46 w) (fin 16 40 w)))
  | _ => .error .unassignedMinor

/-- Major 0x70 (R45). -/
def decMajor70 (mn w : Nat) : Except Reject Instr :=
  match mn with
  | 0 => finish (fld 28 5 w) (false) ((AOp.ofCode (fld 24 4 w)).bind fun x0 => (MemOrd.ofCodes (fld 38 2 w) (fld 40 3 w)).bind fun x4 => some (.atomW x0 (fin 32 47 w) (fin 16 43 w) (fin 32 33 w) x4 (bv 24 0 w)))
  | 1 => finish (fld 28 5 w) (false) ((AOp.ofCode (fld 24 4 w)).bind fun x0 => (MemOrd.ofCodes (fld 38 2 w) (fld 40 3 w)).bind fun x4 => some (.atomD x0 (fin 32 47 w) (fin 16 43 w) (fin 32 33 w) x4 (bv 24 0 w)))
  | 2 => finish (fld 24 4 w) (false) ((MemOrd.ofCodes (fld 38 2 w) (fld 40 3 w)).bind fun x4 => some (.casW (fin 32 47 w) (fin 16 43 w) (fin 32 33 w) (fin 32 28 w) x4 (bv 24 0 w)))
  | 3 => finish (fld 24 4 w) (false) ((MemOrd.ofCodes (fld 38 2 w) (fld 40 3 w)).bind fun x4 => some (.casD (fin 32 47 w) (fin 16 43 w) (fin 32 33 w) (fin 32 28 w) x4 (bv 24 0 w)))
  | 4 => finish (fld 24 4 w) (false) ((MemOrd.ofCodes (fld 38 2 w) (fld 40 3 w)).bind fun x4 => some (.cas16 (fin 32 47 w) (fin 16 43 w) (fin 32 33 w) (fin 32 28 w) x4 (bv 24 0 w)))
  | 5 => finish (fld 24 14 w) (false) ((MemOrd.ofCodes (fld 38 2 w) (fld 40 3 w)).bind fun x2 => some (.lda (fin 32 47 w) (fin 16 43 w) x2 (bv 24 0 w)))
  | 6 => finish (fld 24 14 w) (false) ((MemOrd.ofCodes (fld 38 2 w) (fld 40 3 w)).bind fun x2 => some (.stl (fin 32 47 w) (fin 16 43 w) x2 (bv 24 0 w)))
  | 7 => finish (fld 0 38 w + fld 43 9 w) (false) ((fenceScope (fld 38 2 w) (fld 40 3 w)).bind fun x0 => some (.fence x0))
  | 8 => finish (fld 24 4 w) (false) ((MemOrd.ofCodes (fld 38 2 w) (fld 40 3 w)).bind fun x4 => some (.waitv (fin 32 47 w) (fin 16 43 w) (fin 32 33 w) (fin 32 28 w) x4 (bv 24 0 w)))
  | _ => .error .unassignedMinor

/-- Major 0x71 (R45). -/
def decMajor71 (mn w : Nat) : Except Reject Instr :=
  match mn with
  | 0 => finish (fld 0 30 w + fld 39 9 w) (false) (some (.bari (fin 16 48 w) (fin 512 30 w)))
  | 1 => finish (fld 0 30 w + fld 39 9 w) (false) (some (.bara (fin 16 48 w) (fin 512 30 w)))
  | 2 => finish (fld 0 25 w + fld 30 18 w) (false) (some (.barw (fin 32 25 w) (fin 16 48 w)))
  | 3 => finish (fld 0 25 w + fld 30 18 w) (false) (some (.bart (fin 32 25 w) (fin 16 48 w)))
  | 4 => finish (fld 0 39 w) (false) (some (.tsend (fin 64 42 w) (fin 8 39 w) (fin 16 48 w)))
  | 5 => finish (fld 0 39 w) (false) (some (.trecv (fin 64 42 w) (fin 8 39 w) (fin 16 48 w)))
  | _ => .error .unassignedMinor

/-- Major 0x78 (R45). -/
def decMajor78 (mn w : Nat) : Except Reject Instr :=
  match mn with
  | 0 => finish (fld 0 13 w + fld 30 17 w) (false) ((MemOrd.ofCodes (fld 25 2 w) (fld 27 3 w)).bind fun x2 => some (.enq (fin 32 47 w) (bv 12 13 w) x2))
  | _ => .error .unassignedMinor

/-- Major 0x79 (R45). -/
def decMajor79 (mn w : Nat) : Except Reject Instr :=
  match mn with
  | 0 => finish (fld 0 25 w) (false) ((MemOrd.ofCodes (fld 25 2 w) (fld 27 3 w)).bind fun x5 => some (.move (fin 32 47 w) (fin 16 43 w) (fin 16 39 w) (fin 16 35 w) (fin 32 30 w) x5))
  | 1 => finish (fld 0 30 w + fld 35 12 w) (false) (some (.mvq (fin 32 47 w) (fin 32 30 w)))
  | 2 => finish (fld 0 25 w + fld 35 12 w) (false) ((MemOrd.ofCodes (fld 25 2 w) (fld 27 3 w)).bind fun x2 => some (.mvwait (fin 32 47 w) (fin 32 30 w) x2))
  | 3 => finish (fld 0 30 w + fld 35 8 w) (false) (some (.sweep (fin 32 47 w) (fin 16 43 w) (fin 32 30 w)))
  | 4 => finish (fld 0 43 w) (false) (some (.mkq (fin 32 47 w) (fin 16 43 w)))
  | 5 => finish (fld 0 25 w + fld 39 4 w) (false) ((MemOrd.ofCodes (fld 25 2 w) (fld 27 3 w)).bind fun x4 => some (.mkfree (fin 32 47 w) (fin 16 43 w) (fin 16 35 w) (fin 32 30 w) x4))
  | _ => .error .unassignedMinor

/-- The decoder of tile-instruction words (R28 to R56): total, and it rejects by name. -/
def decodeTile (w : Nat) : Except Reject Instr :=
  match fld 57 7 w with
  | 0x00 => decMajor00 (fld 52 5 w) w
  | 0x01 => decMajor01 (fld 52 5 w) w
  | 0x02 => decMajor02 (fld 52 5 w) w
  | 0x10 => decMajor10 (fld 52 5 w) w
  | 0x11 => decMajor11 (fld 52 5 w) w
  | 0x12 => decMajor12 (fld 52 5 w) w
  | 0x13 => decMajor13 (fld 52 5 w) w
  | 0x14 => decMajor14 (fld 52 5 w) w
  | 0x30 => decMajor30 (fld 52 5 w) w
  | 0x31 => decMajor31 (fld 52 5 w) w
  | 0x32 => decMajor32 (fld 52 5 w) w
  | 0x38 => decMajor38 (fld 52 5 w) w
  | 0x39 => decMajor39 (fld 52 5 w) w
  | 0x44 => decMajor44 (fld 52 5 w) w
  | 0x45 => decMajor45 (fld 52 5 w) w
  | 0x46 => decMajor46 (fld 52 5 w) w
  | 0x50 => decMajor50 (fld 52 5 w) w
  | 0x51 => decMajor51 (fld 52 5 w) w
  | 0x52 => decMajor52 (fld 52 5 w) w
  | 0x53 => decMajor53 (fld 52 5 w) w
  | 0x54 => decMajor54 (fld 52 5 w) w
  | 0x55 => decMajor55 (fld 52 5 w) w
  | 0x70 => decMajor70 (fld 52 5 w) w
  | 0x71 => decMajor71 (fld 52 5 w) w
  | 0x78 => decMajor78 (fld 52 5 w) w
  | 0x79 => decMajor79 (fld 52 5 w) w
  | _ => .error .unassignedMajor

/-- An operand selector of a lane word (R48); none for a reserved code. -/
def LSel.ofCode (n : Nat) : Option LSel :=
  if n < 8 then some (.q (Fin.ofNat 8 n))
  else if n = 8 then some .x
  else if n < 16 then none
  else if n < 20 then some (.e (Fin.ofNat 4 (n - 16)))
  else if n < 24 then none
  else some (.k (Fin.ofNat 8 (n - 24)))

/-- The code of an operand selector (R48). -/
def LSel.code : LSel → Nat
  | .q n => n.val | .x => 8 | .e n => 16 + n.val | .k n => 24 + n.val

/-- A destination selector of a lane word (R48): q0-q7 or the latch only. -/
def LDst.ofCode (n : Nat) : Option LDst :=
  if n < 8 then some (.q (Fin.ofNat 8 n)) else if n = 8 then some .x else none

/-- The code of a destination selector (R48). -/
def LDst.code : LDst → Nat
  | .q n => n.val | .x => 8

/-- Lane types, mod[5:4] (R231). -/
def LType.ofCode : Nat → Option LType
  | 0 => some .fp32 | 1 => some .i32 | 2 => some .ui32 | _ => none

/-- The code of a lane type (R231). -/
def LType.code : LType → Nat
  | .fp32 => 0 | .i32 => 1 | .ui32 => 2

/-- The end of every lane entry: unused fields (0x03), codes (0x04), selectors (0x05), the lowest reason first (R55). -/
def finishLane (rsv : Nat) (codes : Bool) (o : Option LaneWord) : Except Reject LaneWord :=
  if rsv ≠ 0 then .error .reservedField
  else if !codes then .error .reservedCode
  else match o with
    | none => .error .reservedSelector
    | some i => .ok i

/-- rnd and lane type of an arithmetic lane word: type 11 is reserved, and I32 and UI32 need mod[2:0] = 000 (R231). -/
def laneArith (w : Nat) : Option (LType × Rnd) :=
  match LType.ofCode (fld 4 2 w), Rnd.ofCode (fld 0 3 w) with
  | some .fp32, some r => some (.fp32, r)
  | some ty, _ => if fld 0 3 w = 0 then some (ty, .rne) else none
  | none, _ => none

/-- The decoder of lane-function words (R47 to R49, R231 to R235). -/
def decodeLane (w : Nat) : Except Reject LaneWord :=
  let d := LDst.ofCode (fld 21 5 w)
  let a := LSel.ofCode (fld 16 5 w)
  let b := LSel.ofCode (fld 11 5 w)
  let c := LSel.ofCode (fld 6 5 w)
  let rd := fld 21 5 w
  let ra := fld 16 5 w
  let rb := fld 11 5 w
  let rc := fld 6 5 w
  let rm := fld 0 6 w
  let sat := bit 3 w
  let arith2 (f : LType → Rnd → Bool → LDst → LSel → LSel → LaneWord) : Except Reject LaneWord :=
    finishLane rc (laneArith w).isSome
      ((laneArith w).bind fun p => d.bind fun d => a.bind fun a => b.bind fun b => some (f p.1 p.2 sat d a b))
  let minmax (f : LType → LDst → LSel → LSel → LaneWord) : Except Reject LaneWord :=
    finishLane (rc + fld 0 4 w) (LType.ofCode (fld 4 2 w)).isSome
      ((LType.ofCode (fld 4 2 w)).bind fun ty => d.bind fun d => a.bind fun a => b.bind fun b => some (f ty d a b))
  let two (f : LDst → LSel → LSel → LaneWord) : Except Reject LaneWord :=
    finishLane (rc + rm) true (d.bind fun d => a.bind fun a => b.bind fun b => some (f d a b))
  let one (f : LDst → LSel → LaneWord) : Except Reject LaneWord :=
    finishLane (rb + rc + rm) true (d.bind fun d => a.bind fun a => some (f d a))
  match fld 26 6 w with
  | 0x01 => arith2 .ladd
  | 0x02 => arith2 .lsub
  | 0x03 => arith2 .lmul
  | 0x04 => finishLane 0 (laneArith w).isSome
      ((laneArith w).bind fun p => d.bind fun d => a.bind fun a => b.bind fun b => c.bind fun c => some (.lfma p.1 p.2 sat d a b c))
  | 0x05 => minmax .lmin
  | 0x06 => minmax .lmax
  | 0x07 =>
      let f := (Efmt.ofCode rb).bind fun s => (Efmt.ofCode rc).bind fun t => (Rnd.ofCode (fld 0 3 w)).bind fun r =>
        if s.lane && t.lane then some (s, t, r) else none
      finishLane (fld 4 2 w) f.isSome (f.bind fun p => d.bind fun d => a.bind fun a => some (.lcvt p.1 p.2.1 p.2.2 sat d a))
  | 0x08 => finishLane (rc + fld 3 1 w) (LType.ofCode (fld 4 2 w)).isSome
      ((LType.ofCode (fld 4 2 w)).bind fun ty => d.bind fun d => a.bind fun a => b.bind fun b => some (.lcmp (fin 8 0 w) ty d a b))
  | 0x09 => finishLane rm true (d.bind fun d => a.bind fun a => b.bind fun b => c.bind fun c => some (.lsel d a b c))
  | 0x0A => two .land
  | 0x0B => two .lor
  | 0x0C => two .lxor
  | 0x0D => two .lshl
  | 0x0E => finishLane (rc + fld 1 5 w) true (d.bind fun d => a.bind fun a => b.bind fun b => some (.lshr (bit 0 w) d a b))
  | 0x0F => one .lrcp
  | 0x10 => one .lrsq
  | 0x11 => one .lexp2
  | 0x12 => one .llog2
  | 0x13 => one .lmov
  | 0x14 => finishLane (fld 0 4 w) true (d.bind fun d => some (.lkld (bit 4 w) (bv 16 5 w) d))
  | 0x15 => two .lpull
  | 0x16 => two .lpush
  | 0x17 => finishLane (rd + rb + rc + rm) true (a.bind fun a => some (.lmset a))
  | 0x18 => finishLane (ra + rb + rc + rm) true (d.bind fun d => some (.lmsave d))
  | 0x19 => finishLane (rd + rb + rc + rm) true (a.bind fun a => some (.lmrest a))
  | 0x1A => finishLane (rd + ra + rb + rc + rm) true (some .lret)
  | _ => .error .unassignedMajor

/-- The decoder of relay-core words (R293). -/
def decodeRelay (w : Nat) : Except Reject Instr :=
  if fld 0 7 w ≠ 0x0B then .error .relayBase
  else if fld 25 7 w ≠ 0 then .error .relayIllegal
  else match fld 12 3 w with
    | 0 => if fld 20 5 w = 0 then .ok (.rfetch (fin 32 7 w) (fin 32 15 w)) else .error .relayIllegal
    | 1 => .ok (.bxtr (fin 32 7 w) (fin 32 15 w) (fin 32 20 w))
    | 2 => if fld 20 5 w = 0 then .ok (.swaitq (fin 32 7 w) (fin 32 15 w)) else .error .relayIllegal
    | 3 => .ok (.dspch (fin 32 7 w) (fin 32 15 w) (fin 32 20 w))
    | _ => .error .relayIllegal

/-- Little-endian value of a list of bytes (R5). -/
def leNat : List Byte → Nat
  | [] => 0
  | b :: bs => b.toNat + 256 * leNat bs

/-- The n little-endian bytes of a value (R5). -/
def leBytes : Nat → Nat → List Byte
  | 0, _ => []
  | n + 1, v => BitVec.ofNat 8 v :: leBytes n (v / 256)

/-- The decoder on bytes as they lie in memory: eight bytes of a tile-instruction word, then the rest. -/
def decodeBytes (bs : List Byte) : Except Reject (Instr × List Byte) :=
  if bs.length < 8 then .error .short
  else (decodeTile (leNat (bs.take 8))).map fun i => (i, bs.drop 8)

/-- The decoder on the bytes of a relay-core word. -/
def decodeRelayBytes (bs : List Byte) : Except Reject (Instr × List Byte) :=
  if bs.length < 4 then .error .short
  else (decodeRelay (leNat (bs.take 4))).map fun i => (i, bs.drop 4)

/-- The instruction read from a word numbered as the opcode table numbers it: rows of 32 bits are relay-core words (R293),
every other row is a 64-bit tile-instruction word (R28). -/
def decodeTableWord (nbits w : Nat) : Option Instr :=
  if nbits = 32 then
    match decodeRelayBytes (leBytes 4 w) with
    | .ok (i, _) => some i
    | .error _ => none
  else
    match decodeBytes (leBytes 8 w) with
    | .ok (i, _) => some i
    | .error _ => none

/-- The sum of fields placed at their low bits. -/
def packFields : List (Nat × Nat) → Nat
  | [] => 0
  | (lo, v) :: fs => v * 2 ^ lo + packFields fs

/-- A tile-instruction word of a major and minor opcode with its fields (R28, R29). -/
def word (major minor : Nat) (fields : List (Nat × Nat)) : Nat := major * 2 ^ 57 + minor * 2 ^ 52 + packFields fields

/-- The tile-instruction word of an instruction (R28 to R46); none for relay words and for steps that have no word. -/
def encodeTile : Instr → Option Nat
  | .cIf x0 x1 x2 x3 => some (word 0x00 1 [(39, x0.code), (47, x1.val), (42, x2.val), (0, x3.toNat)])
  | .cElse x0 => some (word 0x00 2 [(0, x0.toNat)])
  | .endif  => some (word 0x00 3 [])
  | .loop x0 => some (word 0x00 4 [(0, x0.toNat)])
  | .loopc x0 x1 => some (word 0x00 5 [(47, x0.val), (0, x1.toNat)])
  | .endl x0 x1 => some (word 0x00 6 [(47, x0.val), (0, x1.toNat)])
  | .brk x0 x1 x2 x3 => some (word 0x00 7 [(39, x0.code), (47, x1.val), (42, x2.val), (0, x3.toNat)])
  | .cont x0 x1 x2 x3 => some (word 0x00 8 [(39, x0.code), (47, x1.val), (42, x2.val), (0, x3.toNat)])
  | .call x0 => some (word 0x00 9 [(0, x0.toNat)])
  | .calli x0 x1 => some (word 0x00 10 [(47, x0.val), (0, x1.toNat)])
  | .ret  => some (word 0x00 11 [])
  | .exit  => some (word 0x00 12 [])
  | .trap x0 => some (word 0x01 0 [(0, x0.toNat)])
  | .nop  => some (word 0x01 1 [])
  | .yield  => some (word 0x01 2 [])
  | .srd x0 x1 => some (word 0x01 3 [(47, x0.val), (0, x1.toNat)])
  | .swr x0 x1 => some (word 0x01 4 [(42, x0.val), (0, x1.toNat)])
  | .hinv x0 => some (word 0x01 4 [(42, x0.val), (0, 0x102)])
  | .xroot x0 => some (word 0x01 4 [(42, x0.val), (0, 0x103)])
  | .capq x0 x1 x2 x3 => some (word 0x01 5 [(47, x0.val), (32, x1.val), (42, x2.val), (0, x3.toNat)])
  | .lwid x0 => some (word 0x01 6 [(47, x0.val)])
  | .publish x0 x1 => some (word 0x01 7 [(47, x0.val), (42, x1.val)])
  | .valid x0 => some (match x0 with
      | .none => word 0x01 8 []
      | .partImm f => word 0x01 8 [(16, 1), (0, f.toNat)]
      | .partReg a => word 0x01 8 [(42, a.val), (18, 1), (16, 1)]
      | .full => word 0x01 8 [(16, 2)])
  | .wrapend  => some (word 0x01 9 [])
  | .eret  => some (word 0x02 0 [])
  | .savectx  => some (word 0x02 1 [])
  | .loadctx  => some (word 0x02 2 [])
  | .add x0 x1 x2 => some (word 0x10 0 [(47, x0.val), (42, x1.val), (37, x2.val)])
  | .sub x0 x1 x2 => some (word 0x10 1 [(47, x0.val), (42, x1.val), (37, x2.val)])
  | .mul x0 x1 x2 => some (word 0x10 2 [(47, x0.val), (42, x1.val), (37, x2.val)])
  | .mulh x0 x1 x2 => some (word 0x10 3 [(47, x0.val), (42, x1.val), (37, x2.val)])
  | .mulhu x0 x1 x2 => some (word 0x10 4 [(47, x0.val), (42, x1.val), (37, x2.val)])
  | .div x0 x1 x2 => some (word 0x10 5 [(47, x0.val), (42, x1.val), (37, x2.val)])
  | .divu x0 x1 x2 => some (word 0x10 6 [(47, x0.val), (42, x1.val), (37, x2.val)])
  | .rem x0 x1 x2 => some (word 0x10 7 [(47, x0.val), (42, x1.val), (37, x2.val)])
  | .remu x0 x1 x2 => some (word 0x10 8 [(47, x0.val), (42, x1.val), (37, x2.val)])
  | .and x0 x1 x2 => some (word 0x10 9 [(47, x0.val), (42, x1.val), (37, x2.val)])
  | .or x0 x1 x2 => some (word 0x10 10 [(47, x0.val), (42, x1.val), (37, x2.val)])
  | .xor x0 x1 x2 => some (word 0x10 11 [(47, x0.val), (42, x1.val), (37, x2.val)])
  | .sll x0 x1 x2 => some (word 0x10 12 [(47, x0.val), (42, x1.val), (37, x2.val)])
  | .srl x0 x1 x2 => some (word 0x10 13 [(47, x0.val), (42, x1.val), (37, x2.val)])
  | .sra x0 x1 x2 => some (word 0x10 14 [(47, x0.val), (42, x1.val), (37, x2.val)])
  | .slt x0 x1 x2 => some (word 0x10 15 [(47, x0.val), (42, x1.val), (37, x2.val)])
  | .sltu x0 x1 x2 => some (word 0x10 16 [(47, x0.val), (42, x1.val), (37, x2.val)])
  | .min x0 x1 x2 => some (word 0x10 17 [(47, x0.val), (42, x1.val), (37, x2.val)])
  | .max x0 x1 x2 => some (word 0x10 18 [(47, x0.val), (42, x1.val), (37, x2.val)])
  | .clz x0 x1 => some (word 0x10 19 [(47, x0.val), (42, x1.val)])
  | .popc x0 x1 => some (word 0x10 20 [(47, x0.val), (42, x1.val)])
  | .sel x0 x1 x2 x3 => some (word 0x10 21 [(47, x0.val), (42, x1.val), (37, x2.val), (32, x3.val)])
  | .bfx x0 x1 x2 x3 x4 => some (word 0x10 22 [(47, x0.val), (42, x1.val), (0, x2.val), (6, x3.val), (12, x4.toNat)])
  | .bfi x0 x1 x2 x3 => some (word 0x10 23 [(47, x0.val), (42, x1.val), (0, x2.val), (6, x3.val)])
  | .addi x0 x1 x2 => some (word 0x11 0 [(47, x0.val), (42, x1.val), (0, x2.toNat)])
  | .andi x0 x1 x2 => some (word 0x11 9 [(47, x0.val), (42, x1.val), (0, x2.toNat)])
  | .ori x0 x1 x2 => some (word 0x11 10 [(47, x0.val), (42, x1.val), (0, x2.toNat)])
  | .xori x0 x1 x2 => some (word 0x11 11 [(47, x0.val), (42, x1.val), (0, x2.toNat)])
  | .slli x0 x1 x2 => some (word 0x11 12 [(47, x0.val), (42, x1.val), (0, x2.val)])
  | .srli x0 x1 x2 => some (word 0x11 13 [(47, x0.val), (42, x1.val), (0, x2.val)])
  | .srai x0 x1 x2 => some (word 0x11 14 [(47, x0.val), (42, x1.val), (0, x2.val)])
  | .li x0 x1 => some (word 0x11 24 [(47, x0.val), (0, x1.toNat)])
  | .lih x0 x1 => some (word 0x11 25 [(47, x0.val), (0, x1.toNat)])
  | .refmk x0 x1 x2 => some (word 0x12 0 [(47, x0.val), (42, x1.val), (37, x2.val)])
  | .refmkW x0 x1 => some (word 0x12 0 [(47, x0.val), (42, x1.val), (0, 1)])
  | .refadd x0 x1 x2 => some (word 0x12 1 [(47, x0.val), (42, x1.val), (37, x2.val)])
  | .refaddImm x0 x1 x2 => some (word 0x12 2 [(47, x0.val), (42, x1.val), (0, x2.toNat)])
  | .refh x0 x1 => some (word 0x12 3 [(47, x0.val), (42, x1.val)])
  | .refoff x0 x1 => some (word 0x12 4 [(47, x0.val), (42, x1.val)])
  | .refoffW x0 x1 => some (word 0x12 4 [(47, x0.val), (42, x1.val), (0, 1)])
  | .ldB x0 x1 x2 x3 => some (word 0x13 0 [(47, x0.val), (43, x1.val), (38, x2.strCode), (40, x2.scopeCode), (0, x3.toNat)])
  | .ldH x0 x1 x2 x3 => some (word 0x13 1 [(47, x0.val), (43, x1.val), (38, x2.strCode), (40, x2.scopeCode), (0, x3.toNat)])
  | .ldW x0 x1 x2 x3 => some (word 0x13 2 [(47, x0.val), (43, x1.val), (38, x2.strCode), (40, x2.scopeCode), (0, x3.toNat)])
  | .ldD x0 x1 x2 x3 => some (word 0x13 3 [(47, x0.val), (43, x1.val), (38, x2.strCode), (40, x2.scopeCode), (0, x3.toNat)])
  | .ldq x0 x1 x2 x3 => some (word 0x13 4 [(47, x0.val), (43, x1.val), (38, x2.strCode), (40, x2.scopeCode), (0, x3.toNat)])
  | .stB x0 x1 x2 x3 => some (word 0x14 0 [(47, x0.val), (43, x1.val), (38, x2.strCode), (40, x2.scopeCode), (0, x3.toNat)])
  | .stH x0 x1 x2 x3 => some (word 0x14 1 [(47, x0.val), (43, x1.val), (38, x2.strCode), (40, x2.scopeCode), (0, x3.toNat)])
  | .stW x0 x1 x2 x3 => some (word 0x14 2 [(47, x0.val), (43, x1.val), (38, x2.strCode), (40, x2.scopeCode), (0, x3.toNat)])
  | .stD x0 x1 x2 x3 => some (word 0x14 3 [(47, x0.val), (43, x1.val), (38, x2.strCode), (40, x2.scopeCode), (0, x3.toNat)])
  | .stq x0 x1 x2 x3 => some (word 0x14 4 [(47, x0.val), (43, x1.val), (38, x2.strCode), (40, x2.scopeCode), (0, x3.toNat)])
  | .tbind x0 x1 x2 x3 x4 x5 => some (word 0x30 0 [(46, x0.val), (27, x1.val), (19, x2.val), (36, x3.code), (35, x4.code), (16, x5.code)])
  | .tbindMn x0 x1 x2 x3 x4 => some (word 0x30 1 [(46, x0.val), (41, x1.val), (36, x2.code), (35, x3.code), (16, x4.code)])
  | .tbindMk x0 x1 x2 x3 x4 => some (word 0x30 2 [(46, x0.val), (41, x1.val), (36, x2.code), (35, x3.code), (16, x4.code)])
  | .tbindKn x0 x1 x2 x3 x4 => some (word 0x30 3 [(46, x0.val), (41, x1.val), (36, x2.code), (35, x3.code), (16, x4.code)])
  | .tview x0 x1 x2 x3 => some (word 0x30 4 [(46, x0.val), (27, x1.val), (19, x2.val), (41, x3.val)])
  | .tlay x0 x1 => some (word 0x30 5 [(46, x0.val), (16, x1.code)])
  | .tunbind x0 => some (word 0x31 0 [(46, x0.val)])
  | .tdesc x0 x1 x2 => some (word 0x31 1 [(46, x0.val), (40, x1.val), (6, x2.val)])
  | .tzero x0 => some (word 0x31 2 [(46, x0.val)])
  | .tfill x0 x1 => some (word 0x31 3 [(46, x0.val), (40, x1.val)])
  | .tcpyt x0 x1 x2 => some (word 0x31 4 [(46, x0.val), (40, x1.val), (24, maskBits x2), (23, maskOn x2)])
  | .tsettle x0 => some (word 0x31 5 [(46, x0.val)])
  | .tstat x0 x1 x2 => some (word 0x31 6 [(46, x0.val), (40, x1.val), (6, x2.val)])
  | .shape x0 x1 x2 x3 => some (word 0x32 0 [(47, x0.val), (42, x1.val), (37, x2.val), (32, x3.val)])
  | .shq x0 x1 x2 => some (word 0x32 1 [(47, x0.val), (42, x1.val), (0, x2.val)])
  | .shqAdv x0 x1 => some (word 0x32 1 [(47, x0.val), (42, x1.val), (4, 1)])
  | .tld x0 x1 x2 x3 x4 x5 => some (word 0x38 0 [(46, x0.val), (42, x1.val), (37, x2.val), (25, x3.toNat), (26, x4.strCode), (28, x4.scopeCode), (0, x5.toNat)])
  | .tst x0 x1 x2 x3 x4 => some (word 0x38 1 [(46, x0.val), (42, x1.val), (37, x2.val), (26, x3.strCode), (28, x3.scopeCode), (0, x4.toNat)])
  | .tldg x0 x1 x2 x3 x4 x5 => some (word 0x38 2 [(46, x0.val), (42, x1.val), (37, x2.val), (31, x3.val), (26, x4.strCode), (28, x4.scopeCode), (0, x5.toNat)])
  | .tsts x0 x1 x2 x3 x4 x5 => some (word 0x38 3 [(46, x0.val), (42, x1.val), (37, x2.val), (31, x3.val), (26, x4.strCode), (28, x4.scopeCode), (0, x5.toNat)])
  | .tldd x0 x1 x2 x3 x4 => some (word 0x38 4 [(46, x0.val), (42, x1.val), (37, x2.val), (26, x3.strCode), (28, x3.scopeCode), (0, x4.toNat)])
  | .tstd x0 x1 x2 x3 x4 => some (word 0x38 5 [(46, x0.val), (42, x1.val), (37, x2.val), (26, x3.strCode), (28, x3.scopeCode), (0, x4.toNat)])
  | .pld x0 x1 x2 x3 => some (word 0x38 6 [(46, x0.val), (42, x1.val), (37, x2.val), (0, x3.toNat)])
  | .plds x0 x1 x2 => some (word 0x38 7 [(46, x0.val), (42, x1.val), (0, x2.toNat)])
  | .tprf x0 x1 x2 => some (word 0x38 8 [(42, x0.val), (37, x1.val), (0, x2.toNat)])
  | .xcpy x0 x1 x2 x3 x4 x5 => some (word 0x39 0 [(47, x0.val), (43, x1.val), (39, x2.val), (35, x3.val), (30, x4.val), (25, x5.strCode), (27, x5.scopeCode)])
  | .tmma x0 x1 x2 => some (word 0x44 0 [(46, x0.val), (40, x1.t.val), (33, coreOn x1.core), (30, coreBits x1.core), (34, x2.t.val), (29, coreOn x2.core), (26, coreBits x2.core)])
  | .tmmas x0 x1 x2 x3 x4 => some (word 0x44 1 [(46, x0.val), (40, x1.t.val), (33, coreOn x1.core), (30, coreBits x1.core), (34, x2.t.val), (29, coreOn x2.core), (26, coreBits x2.core), (20, x3.val), (14, x4.val)])
  | .tmmax x0 x1 x2 => some (word 0x44 2 [(46, x0.val), (40, x1.t.val), (33, coreOn x1.core), (30, coreBits x1.core), (34, x2.t.val), (29, coreOn x2.core), (26, coreBits x2.core)])
  | .gmma x0 x1 x2 x3 => some (word 0x44 3 [(46, x0.val), (40, x1.val), (34, x2.t.val), (29, coreOn x2.core), (26, coreBits x2.core), (10, x3.val)])
  | .tacz x0 => some (word 0x45 0 [(46, x0.val)])
  | .tacv x0 x1 x2 x3 x4 x5 => some (word 0x45 1 [(46, x0.val), (40, x1.val), (14, x2.code), (20, x3.code), (19, x4.toNat), (24, maskBits x5), (23, maskOn x5)])
  | .tacq x0 x1 x2 x3 x4 x5 => some (word 0x45 2 [(46, x0.val), (40, x1.val), (14, x2.code), (20, x3.code), (6, x4.toNat), (24, maskBits x5), (23, maskOn x5)])
  | .mslt x0 => some (word 0x46 0 [(42, x0.val)])
  | .tadd x0 x1 x2 x3 x4 x5 => some (word 0x50 0 [(46, x0.val), (40, x1.val), (34, x2.val), (20, x3.code), (19, x4.toNat), (24, maskBits x5), (23, maskOn x5)])
  | .tsub x0 x1 x2 x3 x4 x5 => some (word 0x50 1 [(46, x0.val), (40, x1.val), (34, x2.val), (20, x3.code), (19, x4.toNat), (24, maskBits x5), (23, maskOn x5)])
  | .tmul x0 x1 x2 x3 x4 x5 => some (word 0x50 2 [(46, x0.val), (40, x1.val), (34, x2.val), (20, x3.code), (19, x4.toNat), (24, maskBits x5), (23, maskOn x5)])
  | .tfma x0 x1 x2 x3 x4 x5 x6 => some (word 0x50 3 [(46, x0.val), (40, x1.val), (34, x2.val), (28, x3.val), (20, x4.code), (19, x5.toNat), (24, maskBits x6), (23, maskOn x6)])
  | .tmin x0 x1 x2 x3 x4 x5 => some (word 0x50 4 [(46, x0.val), (40, x1.val), (34, x2.val), (20, x3.code), (19, x4.toNat), (24, maskBits x5), (23, maskOn x5)])
  | .tmax x0 x1 x2 x3 x4 x5 => some (word 0x50 5 [(46, x0.val), (40, x1.val), (34, x2.val), (20, x3.code), (19, x4.toNat), (24, maskBits x5), (23, maskOn x5)])
  | .tabs x0 x1 x2 x3 => some (word 0x50 6 [(46, x0.val), (40, x1.val), (19, x2.toNat), (24, maskBits x3), (23, maskOn x3)])
  | .tneg x0 x1 x2 x3 => some (word 0x50 7 [(46, x0.val), (40, x1.val), (19, x2.toNat), (24, maskBits x3), (23, maskOn x3)])
  | .tcvt x0 x1 x2 x3 x4 x5 => some (word 0x50 8 [(46, x0.val), (40, x1.val), (14, x2.code), (20, x3.code), (19, x4.toNat), (24, maskBits x5), (23, maskOn x5)])
  | .tcmp x0 x1 x2 x3 x4 x5 => some (word 0x50 9 [(46, x0.val), (40, x1.val), (34, x2.val), (14, x3.code), (6, x4.val), (24, maskBits x5), (23, maskOn x5)])
  | .tsel x0 x1 x2 x3 => some (word 0x50 10 [(46, x0.val), (40, x1.val), (34, x2.val), (24, maskBits x3), (23, maskOn x3)])
  | .tand x0 x1 x2 x3 => some (word 0x51 0 [(46, x0.val), (40, x1.val), (34, x2.val), (24, maskBits x3), (23, maskOn x3)])
  | .tor x0 x1 x2 x3 => some (word 0x51 1 [(46, x0.val), (40, x1.val), (34, x2.val), (24, maskBits x3), (23, maskOn x3)])
  | .txor x0 x1 x2 x3 => some (word 0x51 2 [(46, x0.val), (40, x1.val), (34, x2.val), (24, maskBits x3), (23, maskOn x3)])
  | .tnot x0 x1 x2 => some (word 0x51 3 [(46, x0.val), (40, x1.val), (24, maskBits x2), (23, maskOn x2)])
  | .tshl x0 x1 x2 x3 => some (word 0x51 4 [(46, x0.val), (40, x1.val), (6, x2.val), (24, maskBits x3), (23, maskOn x3)])
  | .tshr x0 x1 x2 x3 => some (word 0x51 5 [(46, x0.val), (40, x1.val), (6, x2.val), (24, maskBits x3), (23, maskOn x3)])
  | .tbsh x0 x1 x2 x3 => some (word 0x51 6 [(46, x0.val), (40, x1.val), (34, x2.val), (24, maskBits x3), (23, maskOn x3)])
  | .tfsh x0 x1 x2 x3 x4 => some (word 0x51 7 [(46, x0.val), (40, x1.val), (34, x2.val), (28, x3.val), (24, maskBits x4), (23, maskOn x4)])
  | .trcp x0 x1 x2 => some (word 0x52 0 [(46, x0.val), (40, x1.val), (24, maskBits x2), (23, maskOn x2)])
  | .trsq x0 x1 x2 => some (word 0x52 1 [(46, x0.val), (40, x1.val), (24, maskBits x2), (23, maskOn x2)])
  | .trcpn x0 x1 x2 x3 => some (word 0x52 2 [(46, x0.val), (40, x1.val), (34, x2.val), (24, maskBits x3), (23, maskOn x3)])
  | .trsqn x0 x1 x2 x3 => some (word 0x52 3 [(46, x0.val), (40, x1.val), (34, x2.val), (24, maskBits x3), (23, maskOn x3)])
  | .texp2 x0 x1 x2 => some (word 0x52 4 [(46, x0.val), (40, x1.val), (24, maskBits x2), (23, maskOn x2)])
  | .tlog2 x0 x1 x2 => some (word 0x52 5 [(46, x0.val), (40, x1.val), (24, maskBits x2), (23, maskOn x2)])
  | .tsumr x0 x1 x2 x3 x4 => some (word 0x53 0 [(46, x0.val), (40, x1.val), (20, x2.code), (19, x3.toNat), (24, maskBits x4), (23, maskOn x4)])
  | .tmaxr x0 x1 x2 => some (word 0x53 1 [(46, x0.val), (40, x1.val), (24, maskBits x2), (23, maskOn x2)])
  | .topk x0 x1 x2 x3 x4 => some (word 0x53 2 [(46, x0.val), (28, x1.val), (40, x2.val), (6, x3.val), (24, maskBits x4), (23, maskOn x4)])
  | .tsortr x0 x1 x2 x3 => some (match x2 with
      | none => word 0x53 3 [(46, x0.val), (40, x1.val), (6, x3.toNat)]
      | some tc => word 0x53 3 [(46, x0.val), (40, x1.val), (28, tc.val), (7, 1), (6, x3.toNat)])
  | .tscanr x0 x1 x2 x3 x4 => some (word 0x53 4 [(46, x0.val), (40, x1.val), (20, x3.code), (19, x4.toNat), (6, x2.code)])
  | .tperm x0 x1 x2 x3 x4 => some (word 0x53 5 [(46, x0.val), (40, x1.val), (34, x2.val), (6, x3.toNat), (24, maskBits x4), (23, maskOn x4)])
  | .tbcast x0 x1 x2 x3 => some (word 0x53 6 [(46, x0.val), (40, x1.val), (6, x2.toNat), (24, maskBits x3), (23, maskOn x3)])
  | .mand x0 x1 x2 => some (word 0x55 0 [(46, x0.val), (40, x1.val), (34, x2.val)])
  | .mor x0 x1 x2 => some (word 0x55 1 [(46, x0.val), (40, x1.val), (34, x2.val)])
  | .mnot x0 x1 => some (word 0x55 2 [(46, x0.val), (40, x1.val)])
  | .mcnt x0 x1 => some (word 0x55 3 [(46, x0.val), (40, x1.val)])
  | .map x0 x2 x3 x4 => some (word 0x54 0 [(46, x0.val), (37, x2.val), (0, insBits x3), (10, maskOn x4), (6, maskBits x4)])
  | .map2 x0 x1 x2 x3 x4 => some (word 0x54 1 [(46, x0.val), (37, x2.val), (0, insBits x3), (10, maskOn x4), (6, maskBits x4), (0, x1.val)])
  | .reduce x0 x2 x3 x4 => some (word 0x54 2 [(46, x0.val), (37, x2.val), (0, insBits x3), (10, maskOn x4), (6, maskBits x4)])
  | .reduce2 x0 x1 x2 x3 x4 => some (word 0x54 3 [(46, x0.val), (37, x2.val), (0, insBits x3), (10, maskOn x4), (6, maskBits x4), (0, x1.val)])
  | .atomW x0 x1 x2 x3 x4 x5 => some (word 0x70 0 [(24, x0.code), (47, x1.val), (43, x2.val), (33, x3.val), (38, x4.strCode), (40, x4.scopeCode), (0, x5.toNat)])
  | .atomD x0 x1 x2 x3 x4 x5 => some (word 0x70 1 [(24, x0.code), (47, x1.val), (43, x2.val), (33, x3.val), (38, x4.strCode), (40, x4.scopeCode), (0, x5.toNat)])
  | .casW x0 x1 x2 x3 x4 x5 => some (word 0x70 2 [(47, x0.val), (43, x1.val), (33, x2.val), (28, x3.val), (38, x4.strCode), (40, x4.scopeCode), (0, x5.toNat)])
  | .casD x0 x1 x2 x3 x4 x5 => some (word 0x70 3 [(47, x0.val), (43, x1.val), (33, x2.val), (28, x3.val), (38, x4.strCode), (40, x4.scopeCode), (0, x5.toNat)])
  | .cas16 x0 x1 x2 x3 x4 x5 => some (word 0x70 4 [(47, x0.val), (43, x1.val), (33, x2.val), (28, x3.val), (38, x4.strCode), (40, x4.scopeCode), (0, x5.toNat)])
  | .lda x0 x1 x2 x3 => some (word 0x70 5 [(47, x0.val), (43, x1.val), (38, x2.strCode), (40, x2.scopeCode), (0, x3.toNat)])
  | .stl x0 x1 x2 x3 => some (word 0x70 6 [(47, x0.val), (43, x1.val), (38, x2.strCode), (40, x2.scopeCode), (0, x3.toNat)])
  | .fence x0 => some (word 0x70 7 [(38, 1), (40, x0.code)])
  | .waitv x0 x1 x2 x3 x4 x5 => some (word 0x70 8 [(47, x0.val), (43, x1.val), (33, x2.val), (28, x3.val), (38, x4.strCode), (40, x4.scopeCode), (0, x5.toNat)])
  | .bari x0 x1 => some (word 0x71 0 [(48, x0.val), (30, x1.val)])
  | .bara x0 x1 => some (word 0x71 1 [(48, x0.val), (30, x1.val)])
  | .barw x0 x1 => some (word 0x71 2 [(25, x0.val), (48, x1.val)])
  | .bart x0 x1 => some (word 0x71 3 [(25, x0.val), (48, x1.val)])
  | .tsend x0 x1 x2 => some (word 0x71 4 [(42, x0.val), (39, x1.val), (48, x2.val)])
  | .trecv x0 x1 x2 => some (word 0x71 5 [(42, x0.val), (39, x1.val), (48, x2.val)])
  | .enq x0 x1 x2 => some (word 0x78 0 [(47, x0.val), (13, x1.toNat), (25, x2.strCode), (27, x2.scopeCode)])
  | .move x0 x1 x2 x3 x4 x5 => some (word 0x79 0 [(47, x0.val), (43, x1.val), (39, x2.val), (35, x3.val), (30, x4.val), (25, x5.strCode), (27, x5.scopeCode)])
  | .mvq x0 x1 => some (word 0x79 1 [(47, x0.val), (30, x1.val)])
  | .mvwait x0 x1 x2 => some (word 0x79 2 [(47, x0.val), (30, x1.val), (25, x2.strCode), (27, x2.scopeCode)])
  | .sweep x0 x1 x2 => some (word 0x79 3 [(47, x0.val), (43, x1.val), (30, x2.val)])
  | .mkq x0 x1 => some (word 0x79 4 [(47, x0.val), (43, x1.val)])
  | .mkfree x0 x1 x2 x3 x4 => some (word 0x79 5 [(47, x0.val), (43, x1.val), (35, x2.val), (30, x3.val), (25, x4.strCode), (27, x4.scopeCode)])
  | _ => none

/-- The relay-core word of an instruction (R293). -/
def encodeRelay : Instr → Option Nat
  | .rfetch rd rs1 => some (0x0B + rd.val * 2 ^ 7 + rs1.val * 2 ^ 15)
  | .bxtr rd rs1 rs2 => some (0x0B + rd.val * 2 ^ 7 + 1 * 2 ^ 12 + rs1.val * 2 ^ 15 + rs2.val * 2 ^ 20)
  | .swaitq rd rs1 => some (0x0B + rd.val * 2 ^ 7 + 2 * 2 ^ 12 + rs1.val * 2 ^ 15)
  | .dspch rd rs1 rs2 => some (0x0B + rd.val * 2 ^ 7 + 3 * 2 ^ 12 + rs1.val * 2 ^ 15 + rs2.val * 2 ^ 20)
  | _ => none

/-- The bytes of an instruction as the hardware stores them: eight for a tile word, four for a relay word. -/
def encode (i : Instr) : Option (List Byte) :=
  match encodeTile i, encodeRelay i with
  | some w, _ => some (leBytes 8 w)
  | none, some w => some (leBytes 4 w)
  | none, none => none

/-- The lane-function word of a lane instruction (R47 to R49). -/
def encodeLane : LaneWord → Nat :=
  let head (op d a b c m : Nat) : Nat := op * 2 ^ 26 + d * 2 ^ 21 + a * 2 ^ 16 + b * 2 ^ 11 + c * 2 ^ 6 + m
  let ar (ty : LType) (r : Rnd) (sat : Bool) : Nat := ty.code * 2 ^ 4 + sat.toNat * 2 ^ 3 + r.code
  fun
  | .ladd ty r s d a b => head 0x01 d.code a.code b.code 0 (ar ty r s)
  | .lsub ty r s d a b => head 0x02 d.code a.code b.code 0 (ar ty r s)
  | .lmul ty r s d a b => head 0x03 d.code a.code b.code 0 (ar ty r s)
  | .lfma ty r s d a b c => head 0x04 d.code a.code b.code c.code (ar ty r s)
  | .lmin ty d a b => head 0x05 d.code a.code b.code 0 (ty.code * 2 ^ 4)
  | .lmax ty d a b => head 0x06 d.code a.code b.code 0 (ty.code * 2 ^ 4)
  | .lcvt s t r sat d a => head 0x07 d.code a.code s.code t.code (sat.toNat * 2 ^ 3 + r.code)
  | .lcmp p ty d a b => head 0x08 d.code a.code b.code 0 (ty.code * 2 ^ 4 + p.val)
  | .lsel d a b c => head 0x09 d.code a.code b.code c.code 0
  | .land d a b => head 0x0A d.code a.code b.code 0 0
  | .lor d a b => head 0x0B d.code a.code b.code 0 0
  | .lxor d a b => head 0x0C d.code a.code b.code 0 0
  | .lshl d a b => head 0x0D d.code a.code b.code 0 0
  | .lshr ar d a b => head 0x0E d.code a.code b.code 0 ar.toNat
  | .lrcp d a => head 0x0F d.code a.code 0 0 0
  | .lrsq d a => head 0x10 d.code a.code 0 0 0
  | .lexp2 d a => head 0x11 d.code a.code 0 0 0
  | .llog2 d a => head 0x12 d.code a.code 0 0 0
  | .lmov d a => head 0x13 d.code a.code 0 0 0
  | .lkld hi imm d => 0x14 * 2 ^ 26 + d.code * 2 ^ 21 + imm.toNat * 2 ^ 5 + hi.toNat * 2 ^ 4
  | .lpull d a b => head 0x15 d.code a.code b.code 0 0
  | .lpush d a b => head 0x16 d.code a.code b.code 0 0
  | .lmset a => head 0x17 0 a.code 0 0 0
  | .lmsave d => head 0x18 d.code 0 0 0 0
  | .lmrest a => head 0x19 0 a.code 0 0 0
  | .lret => head 0x1A 0 0 0 0 0

end Sys2Proof
end

