-- ==== Sys2Proof/Machine/State.lean ====
section
/-! DEFINITION. The state of an MX2 package: plain data holding every piece of state the spec gives the machine, and the
state right after package reset. The rule that names a field stands in its docstring. -/

namespace Sys2Proof.Machine

/-- Bytes by address: rising addresses, no zero byte listed; an unlisted address reads as zero (log 5). -/
abbrev Memory := List Host.Cell

/-! ## Reasons a step can stop -/

/-- Faults: the model stops. -/
inductive Fault where
  /-- Raised by the meaning of a tile-instruction word when the agent that moves is no block context holding a block:
  only a block executes such a word (R28, R120). Safe: the hardware has no such event. -/
  | noBlock
  /-- Raised by the meaning of a relay-core word when the agent that moves is no relay core (R293). Safe: the hardware has
  no such event. -/
  | noRelay
  deriving DecidableEq, Repr

/-- Refusals: the model gives no meaning. -/
inductive Refusal where
  /-- Raised by `exec` for an instruction that is not modelled yet. Safe. -/
  | notModelled (mnemonic : String)
  /-- Raised by `step` when a relay core fetches a word of the RV64 base, which the spec does not describe (R293). Safe. -/
  | relayBaseWord
  deriving DecidableEq, Repr

/-! ## Block state -/

/-- An origin record of poison (R97): cause, lowest faulting address, PC of the first poisoning instruction. -/
structure Origin where
  cause : Nat
  addr : W64
  pc : W32
  /-- DEV of the fault (R98, R321); the save area has no place for it -/
  dev : Nat
  deriving DecidableEq, Repr

/-- A bound tile: its descriptor (R154), its contents and its poison map. -/
structure Tile where
  /-- LNK and LSH: the linked shape record, and whether rows are the K extent (`.kn`) or columns (`.mk`) (R161) -/
  link : Option (ShReg × Bool)
  /-- LSH as it reads: TVIEW and TLAY clear LNK and leave it (R154, R161) -/
  lsh : ShReg
  /-- CMP: held compressed (R178), and the coding blocks of it that arrived raw -/
  cmp : Bool
  raw : List Nat
  home : Home
  lay : Lay
  fmt : Efmt
  /-- bound extent, BROWS + 1 and BCOLS + 1 -/
  brows : Nat
  bcols : Nat
  /-- window: WROW0, WCOL0, WROWS + 1, WCOLS + 1 -/
  wrow0 : Nat
  wcol0 : Nat
  wrows : Nat
  wcols : Nat
  tscale : W32
  /-- extent that sizes the storage: the bound extent of the bind (R155, R161) -/
  srows : Nat
  scols : Nat
  /-- element encodings of the storage extent in row-major order -/
  elems : Array Nat
  /-- block scales, one byte each, in the order of the scale plane (R63) -/
  scales : Array Nat
  /-- poisoned lines in rising order (R93, R195) -/
  poison : List Nat
  origin : Option Origin
  /-- the slot, by number: its first byte in its store is `Config.slotPlace phys`, chosen by renaming (R163, R325) -/
  phys : Nat
  /-- a fresh slot that the write it was taken for has not reached yet: until then the name's value stands in the slot before it (R163,
  R168) -/
  unwritten : Bool
  deriving DecidableEq, Repr

/-- A shape record (R157). -/
structure ShapeRec where
  gm : Nat
  gn : Nat
  gk : Nat
  kcur : Nat
  v : Bool
  ktot : Nat
  kpos : Nat
  deriving DecidableEq, Repr

/-- An element mask (R207) with its poison bit and origin record (R97). -/
structure Mask where
  bits : BitVec 65536
  poison : Bool
  origin : Option Origin
  deriving DecidableEq, Repr

/-- A block's validity (R138). -/
inductive Validity where
  | none
  | part (frac : BitVec 16)
  | full
  deriving DecidableEq, Repr

/-- FLT0 to FLT3 (R98). -/
structure FaultRecord where
  flt0 : W64
  flt1 : W64
  flt2 : W64
  flt3 : W64
  deriving DecidableEq, Repr

/-- What a fault carries before it becomes a trap (R98), a poisoning (R93) or a ring entry (R318). -/
structure FaultInfo where
  cause : Nat
  ocause : Nat
  /-- TILE, ROW, COL when TV = 1 -/
  tile : Option (TReg × Nat × Nat)
  /-- AK and ADDR when AV = 1 -/
  addr : Option (Nat × W64)
  aref : Nat
  lwi : Nat
  dev : Nat
  det : Nat
  aux : W64
  /-- the access was to a device that is none of the domain, or that does not reply (R321) -/
  remote : Bool
  deriving DecidableEq, Repr

/-- A handle table entry as a check reads it (R77); a nonzero reserved field is kept as `rsv`. -/
structure HEntry where
  v : Bool
  base : Nat
  mp : Bool
  at_ : Bool
  ex : Bool
  wr : Bool
  rd : Bool
  bound : Nat
  gen : Nat
  pcore : Nat
  home : Nat
  dm : Bool
  mcls : Nat
  ce : Bool
  ccls : Nat
  c32 : Bool
  devid : Nat
  space : Nat
  tsoff : Nat
  rsv : Bool
  deriving DecidableEq, Repr

/-- Kinds of queued memory events (R105, R111). -/
inductive EvKind where
  | read | drain | perform | acqPoint | relPoint
  deriving DecidableEq, Repr

/-- What part of a unit's bytes goes where: an element of a tile by its coordinates in the binding with its first bit in
the unit, a block scale by its place in the scale plane, the KS4 tile scale, or the registers named by the event. -/
inductive UnitDst where
  | elem (r c bit : Nat)
  | scale (idx : Nat)
  | tscale
  | reg (off : Nat)
  deriving DecidableEq, Repr

/-- Where one single-copy unit of an access lies and what it carries (R112). -/
structure EvUnit where
  /-- reference image of the unit's first byte -/
  image : W64
  /-- home address of each byte, resolved at issue (R81 step 6) -/
  place : List Nat
  /-- bytes to store, and which of their bits are written (empty: all): the home merges the written elements into the
  unit; both empty for a load -/
  data : List Byte
  mask : List Byte
  /-- a fault met at issue by this unit of a load -/
  bad : Option FaultInfo
  /-- destinations of a load -/
  dst : List UnitDst
  /-- the bytes are zero without an access: beyond the bound (R175) -/
  zero : Bool
  done : Bool
  deriving DecidableEq, Repr

/-- What an atomic Perform computes (R238, R240). -/
inductive RmwOp where
  | atom (op : AOp) (operand : W64)
  | cas (expect new : Nat)
  deriving DecidableEq, Repr

/-- Destination of a queued access. -/
inductive EvDest where
  | none
  /-- a scalar, zero-extended -/
  | scalar (d : SReg)
  /-- a pair s[d], s[d+1] -/
  | pair (d : SReg)
  /-- elements of a tile's window -/
  | tile (t : TReg)
  deriving DecidableEq, Repr

/-- A queued access of a block: an entry of its weak store buffer or weak load queue, a strong access, or a point (R103 to
R106, R111). -/
structure Ev where
  id : Nat
  kind : EvKind
  pc : W32
  ord : MemOrd
  units : List EvUnit
  dest : EvDest
  rmw : Option RmwOp
  /-- the reference register, its image at issue and the displacement, for the rewrite of R153 and R179 -/
  ref : Option (ARef × W64 × Int)
  /-- r at which the access at offset e itself ended, when it was chased -/
  chased : Option W64
  /-- rights the chase checks again: bit 0 RD, bit 1 WR, bit 2 AT -/
  rights : Nat
  /-- performed from a leased copy never (LDA, STL) -/
  atHome : Bool
  /-- an engine command this point belongs to (R111) -/
  engine : Option Nat
  /-- tile of a tile-memory access (R106: through the same tile) -/
  tile : Option TReg
  /-- bale size of the handle, 0 when it is not movable (R153) -/
  bale : Nat
  /-- CLMP to be set at retirement (R171) -/
  clmp : Bool
  /-- PWB to be set at retirement (R184) -/
  pwb : Bool
  /-- a unit of the load has met a fault (R152: it poisons both scalars of LDQ) -/
  failed : Bool
  /-- such a fault was the first poisoning of its destination's record, which keeps the access's lowest address (R97) -/
  first : Bool
  /-- natural alignment that the access needs, in bytes (R81 step 5), 1 for none -/
  al : Nat
  /-- waymarks met so far (R327) -/
  hops : Nat
  /-- poisoned lines that a tile load overwrites whole, cleared when its first unit lands (R94) -/
  clears : List Nat
  /-- CMP after a tile load (R178) -/
  keep : Bool
  /-- lines of the window of a load that carries a tile scale, which poisons them all when it fails (R176) -/
  lines : List Nat
  /-- the slot that a tile load writes, as its name held it at issue (R163) -/
  slot : Nat
  /-- a command of the copy engine of the core (R171) -/
  copy : Bool
  /-- the data of the store is not known yet: its instruction waits in the dependency table (R164) -/
  waiting : Bool
  deriving DecidableEq, Repr

/-- A waiting TSEND or TRECV (R252). -/
structure Msg where
  id : Nat
  send : Bool
  tile : TReg
  core : CoreSel
  tag : BReg
  pos : Nat
  pc : W32
  /-- the tile as its name held it at issue: the sender's window, or the extent and the slot that the receiver writes (R161, R163) -/
  snap : Tile
  deriving DecidableEq, Repr

/-- An instruction that has issued and waits in the dependency table or for the hypervisor (R101, R164), with what it read at issue: the
scalars, references, shape records and the tiles that it names. -/
structure Held where
  id : Nat
  pc : W32
  instr : Instr
  /-- the channel position that a TSEND or TRECV took (R254) -/
  pos : Option (BitVec 16)
  s : Vector W64 32
  sp : BitVec 32
  a : Vector W64 16
  ap : BitVec 16
  sh : Vector ShapeRec 32
  tiles : List (TReg × Tile)
  /-- the partners' tiles that it reads, by core, with the windows, formats and extents of its issue (R190, R193) -/
  remote : List (Nat × TReg × Tile)
  /-- the slots that it writes: fresh ones where an older instruction still used the name's (R163) -/
  dsts : List (TReg × Nat)
  /-- its events stand in the block's queue and wait for its data; otherwise younger accesses that R106 orders after it wait for it -/
  queued : Bool
  /-- a GMMA: its parts have gone to the members of its gang, and one of them has been run (R196, R198) -/
  given : Bool
  begun : Bool
  deriving DecidableEq, Repr

/-- A GMMA part that a member has not yet run (R196). -/
structure GPart where
  /-- the name of its GMMA -/
  id : Nat
  td : TReg
  ta : TReg
  b : TSrc
  bar : BReg
  /-- core of the lead -/
  lead : Nat
  /-- the shared operand as the lead's slot held it, when it is the lead's, and the lines of it with a store error (R189) -/
  snap : Option Tile
  badLines : List Nat
  /-- the shared operand has been read, or there is none -/
  ready : Bool
  pc : W32
  deriving DecidableEq, Repr

/-- A WAITV that sleeps (R243, R244). -/
structure Wait where
  d : SReg
  cmp : Nat
  all : Bool
  wakeBy : W64
  /-- the copied table: image and expected value of each entry -/
  table : List (W64 × W64)
  acq : Bool
  /-- length of the inversion window at its begin, and the DTIME at which it ends (R310, R326) -/
  window : Nat
  due : Nat
  /-- the rewrite of the reference register that the read of the table asks for at retirement (R153, R245) -/
  fix : Option (ARef × W64 × Int × Nat × W64)
  /-- the round in progress: it began at or after the wake-by time, and what its entries so far gave -/
  final : Bool
  holds : List Bool
  deriving DecidableEq, Repr

/-- Why a block sleeps, or is in the middle of an instruction (R244, R250, R285, R286). -/
inductive Sleep where
  | waitv (w : Wait)
  /-- BARW: destination, barrier, and PHASE at the completion that woke it -/
  | barw (d : SReg) (bar : BReg) (woken : Option (BitVec 16))
  /-- MVWAIT: destination and move number -/
  | mvwait (d : SReg) (num : W64)
  /-- SWEEP: destination, reference register and image, bytes to examine, bytes examined, words rewritten -/
  | sweep (d : SReg) (aa : ARef) (image : W64) (len next count : Nat)
  deriving DecidableEq, Repr

/-- An entry of the dependency table (R164). -/
structure DepEntry where
  pc : W32
  /-- 0 free, 1 waiting, 2 running, 3 done -/
  state : Nat
  td : Nat
  waits : W32
  prog : W32
  /-- name of the waiting instruction, queued access or message that the entry stands for, until it completes -/
  name : Option Nat
  deriving DecidableEq, Repr

/-- The system routine a context runs (R141). -/
structure SysMode where
  /-- code reference of the routine and the bounds of its code section -/
  code : W64
  codeOff : Nat
  codeLen : Nat
  /-- PC of the user block while the routine runs -/
  userPc : W32
  /-- a block is in the context: loaded, or in place from before -/
  loaded : Bool
  /-- SAVECTX has written the area -/
  saved : Bool
  /-- the routine resumes this saved block -/
  resume : Option Nat
  deriving DecidableEq, Repr

/-- A block in its context. -/
structure Block where
  /-- PC (R120) -/
  pc : W32
  /-- s0-s31 with poison bits (R30, R94) -/
  s : Vector W64 32
  sp : BitVec 32
  /-- a0-a15 with poison bits (R74) -/
  a : Vector W64 16
  ap : BitVec 16
  /-- origin record of the scalar and reference file (R97) -/
  origin : Option Origin
  /-- t0-t63, unbound when none (R154) -/
  t : Vector (Option Tile) 64
  sh : Vector ShapeRec 32
  m : Vector Mask 16
  /-- STATUS (R128) -/
  status : W64
  gang : W64
  seed : W64
  flt : FaultRecord
  wpc : W32
  wcause : Nat
  /-- WBEND in DTIME ns (R136) -/
  wbend : Nat
  validity : Validity
  /-- return PCs, innermost first (R125) -/
  calls : List W32
  launch : Nat
  blklin : Nat
  /-- AP and DN bits of b0-b15 (R248) -/
  arrived : BitVec 16
  doneBar : BitVec 16
  /-- PHASE of each barrier at the completion behind DN (R250: an earlier completion returns no fault fields) -/
  donePhase : Vector Nat 16
  /-- channel positions: send counts then receive counts at 16K + g (R254) -/
  sendPos : Vector (BitVec 16) 128
  recvPos : Vector (BitVec 16) 128
  /-- queued accesses, oldest first (R103) -/
  evq : List Ev
  /-- instructions that wait in the dependency table, oldest first (R164) -/
  held : List Held
  /-- superseded slots that an older instruction still reads or writes, with the name that mapped to them (R163, R165) -/
  superseded : List (TReg × Tile)
  msgs : List Msg
  parts : List GPart
  /-- GMMAs of this lead whose shared operand some part has still to read, by name, with its slot (R196) -/
  readers : List (Nat × Nat)
  sleep : Option Sleep
  deps : List DepEntry
  /-- block contexts of the core whose shares are on loan to this block (R165) -/
  loans : List Nat
  /-- the block has ended and waits for R119: its final validity and cause, 0 when none; DTIME at the trap or kill (R302) -/
  ended : Option (Validity × Nat)
  trapTime : Nat
  /-- a cancel reached a level above the block (R304) -/
  cancelled : Bool
  sys : Option SysMode
  /-- attempt under FPOL 1 (R302) and DTIME at the start, less time pre-empted (R299) -/
  attempt : Nat
  started : Nat
  deriving DecidableEq, Repr

/-! ## Memory metadata -/

/-- A waymark (R278), with the home of the line it names (R113). -/
structure Mark where
  newref : W64
  home : Nat
  gen : Nat
  hop : Nat
  mnum : Nat
  deriving DecidableEq, Repr

/-- Coding metadata of a 512-byte block that is not raw (R265), with the class whose table of its home die coded it (R266). -/
structure Coded where
  cls : Nat
  gen : Nat
  lines : Nat
  deriving DecidableEq, Repr

/-! ## Contexts -/

/-- A translation that a die's last-level TLB holds, or the first-level TLB of a core (R92): the tags, the page with its size (R90), the access
it was walked for, and the guest-physical and physical address of the page. -/
structure TlbEntry where
  die : Nat
  /-- the core whose first-level TLB it is, none for the last level -/
  core : Option Nat
  vmid : Nat
  asid : Nat
  va : Nat
  size : Nat
  /-- RD, WR, AT, EX, MP of the access, as bits 0 to 4 -/
  need : Nat
  gpa : Nat
  pa : Nat
  deriving DecidableEq, Repr

/-- A line of an L2PIN handle that the home holds (R83): in a way reserved for the context, or as CACHED. -/
structure Pin where
  line : Nat
  ctx : Nat
  handle : Nat
  reserved : Bool
  deriving DecidableEq, Repr

/-- A context descriptor (R76, R86, R88, R256, R317, R20). -/
structure Ctx where
  htb : W64
  htn : W64
  xroot : W64
  hroot : W64
  bqb : W64
  bqn : W64
  cfqb : W64
  cfqh : W32
  cftail : W32
  /-- an entry of the context fault ring was lost -/
  lost : Bool
  /-- partition: package core numbers, rising -/
  part : List Nat
  /-- cores that have left the partition and whose demotion is not done yet (R85, R311) -/
  leaving : List Nat
  /-- lines of virtual addresses that a demotion could not write back: poisoned at their home once they have one (R85) -/
  lostLines : List Nat
  /-- handle cache entries of a core: core, handle index, entry (R79) -/
  hcache : List (Nat × Nat × HEntry)
  deriving DecidableEq, Repr

/-! ## Cores, clusters, dies -/

/-- What a core holds beside its block contexts. -/
structure CoreSt where
  /-- COREPIN window size W (R316) -/
  win : Nat
  /-- staged block: launch, BLKLIN and context (R306) -/
  staged : Option (Nat × Nat × Nat)
  /-- logical lease time (R143) -/
  logical : Nat
  /-- armed errors: store and line (R325) -/
  armed : List (Nat × Nat)
  deriving DecidableEq, Repr

/-- Shared fields of a cluster barrier (R248). -/
structure Barrier where
  f : Bool
  fc : Nat
  fcause : Nat
  e : Nat
  a : Nat
  lf : Bool
  lfc : Nat
  lcause : Nat
  phase : BitVec 16
  deriving DecidableEq, Repr

/-- Identity of a block for ring entries (R318). -/
structure BlkId where
  launch : Nat
  blklin : Nat
  deriving DecidableEq, Repr

/-- A placed XCPY, or the copy of a COPY node (R187, R308). -/
structure LinkCmd where
  id : Nat
  ctx : Nat
  core : Nat
  dst : W64
  src : W64
  flag : Option W64
  n : Nat
  who : BlkId
  /-- the block's queued acquire and release points -/
  acq : Option (BKey × Nat)
  rel : Option (BKey × Nat)
  /-- the graph node it runs for -/
  node : Option (Nat × Nat)
  /-- bytes that the copy has passed -/
  next : Nat
  copied : Bool
  failed : Bool
  /-- bytes that the engine has read and not written yet, none where the read met a fault (R105) -/
  buffer : List (Option Byte)
  /-- the copy waits for the hypervisor -/
  held : Bool
  /-- cause of the first fault of the copy, 0 when none -/
  cause : Nat
  deriving DecidableEq, Repr

/-- A bindery command placed on a queue and not yet finished (R255, R258 to R262). -/
structure BindCmd where
  id : Nat
  ctx : Nat
  q : Nat
  /-- TAIL at its placement -/
  pos : Nat
  core : Nat
  /-- an engine has taken it; the fields from `words` on hold values from then -/
  taken : Bool
  /-- the eight words of the command -/
  words : List W64
  status : Nat
  cause : Nat
  addr : W64
  cnt1 : Nat
  cnt2 : Nat
  /-- parts of its work: units, elements, blocks or samples, and how many are done -/
  parts : Nat
  at_ : Nat
  /-- what it read when it started: the headers of the owner tables (R264), or the tile scale (R271) -/
  head : List Byte
  /-- words 1 to 3 of its record are written (R261); of a command that no engine has taken: an error in its ring place has been met -/
  recd : Bool
  /-- what the part at work has read so far, in the order of its reads (R105) -/
  got : List (List Byte)
  /-- reference images of the coding blocks that still wait for their Code events (R269) -/
  codes : List W64
  /-- a learning RESAMPLE: class and slot, until its freeze (R268) -/
  learns : Option (Nat × Nat)
  acq : Option (BKey × Nat)
  rel : Option (BKey × Nat)
  deriving DecidableEq, Repr

/-- A coding class (R266, R268): its active slot, whether it is learning, when its active table was frozen (none for the table
of reset), and the code lengths of its four table slots, 0 for a byte without a code. Live counts are counted from the coded
blocks. -/
structure CodeClass where
  active : Nat
  learning : Bool
  frozenAt : Option Nat
  slots : List (List Nat)
  deriving DecidableEq, Repr

/-- A command on a Drover queue (R283). -/
structure DroverCmd where
  /-- its name for the points of its block (R111) -/
  id : Nat
  /-- the move number, 0 for a command that is no MOVE -/
  num : Nat
  op : Nat
  tag : W32
  ctx : Nat
  src : W64
  dst : W64
  recd : W64
  acq : Option (BKey × Nat)
  rel : Option (BKey × Nat)
  deriving DecidableEq, Repr

/-- States of a bale in the directory (R273). -/
inductive BaleState where
  | moving | marked | quarantined
  deriving DecidableEq, Repr

/-- An entry of a bale directory (R273); bales are (context, handle, bale number). -/
structure DirEntry where
  ctx : Nat
  srcH : Nat
  srcK : Nat
  dstH : Nat
  dstK : Nat
  size : Nat
  num : Nat
  depth : Nat
  state : BaleState
  /-- physical pages of the source bale, walked at the claim -/
  pages : List Nat
  deriving DecidableEq, Repr

/-- The command that a Drover runs: a move (R275), or a refused command whose record is still to be written. -/
structure RunningMove where
  cmd : DroverCmd
  /-- STATUS, CAUSE and word 3 of its record (R284) -/
  status : Nat
  cause : Nat
  addr : W64
  line : Nat
  lines : Nat
  gen : Nat
  depth : Nat
  eccLines : Nat
  /-- physical address of each 4 KiB page of the source and destination bale, walked at the claim -/
  srcPages : List Nat
  dstPages : List Nat
  /-- words 1 to 3 of its record are written (R284) -/
  recd : Bool
  deriving DecidableEq, Repr

/-- A bale in quarantine (R288). -/
structure Quarantine where
  cmd : DroverCmd
  ctx : Nat
  h : Nat
  k : Nat
  size : Nat
  ends : Nat
  /-- the quarantine has ended; only the record waits -/
  cleared : Bool
  recd : Bool
  deriving DecidableEq, Repr

/-- A remembered move (R285). -/
structure MoveRec where
  num : Nat
  ctx : Nat
  lines : Nat
  status : Nat
  /-- 1 queued, 2 copying, 3 reported, 4 refused -/
  state : Nat
  deriving DecidableEq, Repr

/-- A monitor channel (R327). -/
structure Monitor where
  source : Nat
  shift : Nat
  min : Nat
  max : Nat
  count : Nat
  bins : List Nat
  deriving DecidableEq, Repr

/-- What a die holds. -/
structure Die where
  /-- matrix slot table: V and CTX of the 64 entries of a round (R202) -/
  slots : List (Bool × Nat)
  /-- table loaded by MSLT for the next round -/
  nextSlots : Option (List (Bool × Nat))
  /-- ramp limiter: micro-ops and fillers of the last interval (R204) -/
  rampI : Nat
  rampF : Nat
  link : List LinkCmd
  bind : List BindCmd
  classes : List CodeClass
  dqueue : List DroverCmd
  seqNo : Nat
  running : Option RunningMove
  moves : List MoveRec
  dir : List DirEntry
  quar : List Quarantine
  monitors : List Monitor
  deriving DecidableEq, Repr

/-! ## Dispatcher -/

/-- A launch line (R290). -/
structure LaunchLine where
  bytes : List Byte
  parity : Bool
  sealed : Bool
  /-- the host holds the line and the device has not recalled it, and the host has written byte 127 meanwhile (R315) -/
  hostOwned : Bool
  written : Bool
  deriving DecidableEq, Repr

/-- A manifest (R291), as its 128 bytes give it. -/
structure Manifest where
  coderef : W64
  kidx : Nat
  abind : BitVec 16
  flags : Nat
  gx : Nat
  gy : Nat
  gz : Nat
  deadline : Nat
  budget : Nat
  pwt : W64
  pwmask : BitVec 8
  prio : Nat
  spol : Nat
  fpol : Nat
  job : Nat
  ctx : Nat
  compref : W64
  mseed : W64
  vmap : W64
  est : Nat
  fltref : W64
  fltn : Nat
  qid : Nat
  deriving DecidableEq, Repr

/-- A launch in the launch table (R295, R297 to R305). -/
structure Launch where
  num : Nat
  man : Manifest
  /-- entry and wrap-up entry of the kernel, its extent, code section (R131) -/
  entry : W32
  wrapup : Option W32
  codeOff : Nat
  codeLen : Nat
  coop : Bool
  /-- parameter windows P0-P7: image and LEN (R184) -/
  windows : List (Option (W64 × Nat))
  /-- BLKLINs that have been started or staged, rising; a staged block that is returned leaves the list (R306) -/
  begun : List Nat
  /-- blocks to re-run, with the context in which each trapped (R305) -/
  reruns : List (Nat × BKey)
  /-- code of each retired block's validity (R301) -/
  valid : List (Nat × Validity)
  fcause : Nat
  fblk : Option Nat
  nflt : Nat
  /-- DTIME at admission and at the start of the last block, for R300 -/
  admitted : Nat
  waitingSince : Nat
  /-- key of R298, kept until a block retires -/
  key : Option Int
  /-- Tk of R299 -/
  tk : Nat
  /-- the validity map has been written (R301) -/
  mapped : Bool
  ready : Bool
  /-- 0, or the launch status that ended it: CANCEL, ECC, EXPIRED -/
  status : Nat
  /-- the graph node that admitted it -/
  node : Option (Nat × Nat)
  deriving DecidableEq, Repr

/-- A queue of launches and graphs, by number, oldest first (R297), with the relay core that holds it (R312). -/
structure Queue where
  qid : Nat
  launches : List Nat
  owner : Nat
  slot : Option Nat
  /-- the slot that it freed when it spilled (R309, R328) -/
  spilledFrom : Option Nat
  frozen : Bool
  poisoned : Bool
  deriving DecidableEq, Repr

/-- State of a node of a running graph (R307, R308). -/
structure NodeSt where
  /-- predecessor completions received -/
  preds : Nat
  /-- the phase of the completion that reached it last, by the node that opens it (R304) -/
  phase : Nat
  /-- the LOOP in whose body it runs -/
  owner : Option Nat
  /-- the node runs -/
  running : Bool
  /-- LOOP: body runs so far, and its body has reached its end -/
  runs : Nat
  atEnd : Bool
  /-- its eight words, as they stood when the graph reached it (R308) -/
  words : List W64
  /-- the launch a KERNEL node admitted -/
  launch : Option Nat
  /-- DTIME at which a fault-hold ends (R309), and whether the hold has spilled -/
  hold : Option Nat
  spilled : Bool
  deriving DecidableEq, Repr

/-- A node that no completion has reached. -/
def NodeSt.zero : NodeSt :=
  { preds := 0, phase := 0, owner := none, running := false, runs := 0, atEnd := false, words := [], launch := none,
    hold := none, spilled := false }

/-- A running graph (R307). -/
structure Graph where
  num : Nat
  man : Manifest
  /-- nodes that a completion has reached, by index -/
  nodes : List (Nat × NodeSt)
  /-- the launch before it in its queue has written its record (R297), and node 0 has been started -/
  ready : Bool
  started : Bool
  kernels : Nat
  fcause : Nat
  /-- 0, or CANCEL, EXPIRED, BADMFT -/
  status : Nat
  ending : Bool
  deriving DecidableEq, Repr

/-- A relay core (R293 to R295). -/
structure Relay where
  x : Vector W64 32
  pc : W64
  mb : List Byte
  /-- an uncorrectable error lies in MB (R294) -/
  mbError : Bool
  rcause : W64
  mcause : W64
  mepc : W64
  mtval : W64
  mtvec : W64
  asleep : Bool
  halted : Bool
  /-- instruction memory, as Memory -/
  imem : Memory
  deriving DecidableEq, Repr

/-- A block saved by pre-emption (R141). -/
structure Saved where
  id : Nat
  launch : Nat
  blklin : Nat
  savea : W64
  /-- the context it was saved from -/
  key : BKey
  at_ : Nat
  wrap : Bool
  /-- needs recorded in the header: tile-store bytes, accumulator entries, bound tiles -/
  needs : Nat × Nat × Nat
  started : Nat
  attempt : Nat
  /-- what its resumable instructions have not done yet: accesses not performed, waiting messages, pending parts (R119, R180,
  R198, R253) -/
  evq : List Ev
  held : List Held
  superseded : List (TReg × Tile)
  /-- names whose slot its writer has not reached yet -/
  unwritten : List Nat
  msgs : List Msg
  parts : List GPart
  /-- of each bound name, what its descriptor has no field for: the axis of its link, the extent that sizes its storage, and its slot (R154,
  R161) -/
  storage : List (Nat × Bool × Nat × Nat × Nat)
  /-- coding blocks of each compressed tile that arrived raw (R178) -/
  raws : List (Nat × List Nat)
  /-- names of the entries of the dependency table -/
  names : List (Option Nat)
  /-- AP and DN as they stand now: the set may complete phases while the block is away (R250) -/
  arrived : BitVec 16
  doneBar : BitVec 16
  /-- PHASE at the completion behind each DN bit, which the save area has no place for -/
  donePhase : Vector Nat 16
  /-- its barrier set has held no block of its launch meanwhile: the whole group is saved (R247) -/
  whole : Bool
  /-- a COREPIN handle of its context has been demoted meanwhile (R85) -/
  demoted : Bool
  deriving DecidableEq, Repr

/-- A rescue slice (R310): the waiter, the saved block it resumed and the context that runs it. -/
structure Rescue where
  waiter : BKey
  target : BKey
  ends : Nat
  deriving DecidableEq, Repr

/-! ## Host ports and the MGC -/

/-- Registers of a host port (R314). -/
structure Port where
  hcrb : W64
  hcrt : W32
  hcrh : W32
  /-- ring counts of FREPLY commands performed ahead of the head (R316) -/
  done : List Nat
  hfqb : W64
  hfqt : W32
  hfqh : W32
  mbox : Memory
  down : Bool
  deriving DecidableEq, Repr

/-- A second-stage fault posted to a hypervisor (R99) that waits for its reply, or has been answered. -/
structure HvPost where
  tag : W64
  /-- the port whose ring takes it -/
  port : Nat
  gva : Nat
  gpa : Nat
  vmid : Nat
  ctx : Nat
  kind : Nat
  level : Nat
  det : Nat
  /-- the block whose access waits, none for an engine or a graph node -/
  who : Option BKey
  /-- the access is the Drain of a store whose instruction has retired (R101, R114) -/
  drain : Bool
  /-- declined by the hypervisor; served, and the access not made again yet (R87) -/
  declined : Bool
  served : Bool
  /-- written into the ring (false while the ring is full) -/
  posted : Bool
  deriving DecidableEq, Repr

/-- A remote device of the load-store domain (R82, R118, R321): its id, whether it replies, and the 4 KiB virtual pages it
translates. -/
structure RemoteDev where
  id : Nat
  reachable : Bool
  pages : List Nat
  deriving DecidableEq, Repr

/-- An entry of the MGC's event log (R324): a kind and a value. -/
structure LogEntry where
  kind : Nat
  value : Nat
  time : Nat
  deriving DecidableEq, Repr

/-- The management controller (R322 to R330). -/
structure Mgc where
  log : List LogEntry
  params : List Nat
  /-- test mode in force; SETPARAM index 6 takes effect at the next boot -/
  testMode : Bool
  /-- versions and validity of the two image banks, the bank in force, the rollback counter (R325) -/
  bankA : Nat × Bool
  bankB : Nat × Bool
  /-- the images that the banks hold -/
  imageA : List Byte
  imageB : List Byte
  booted : Nat
  rollback : Nat
  sensors : List Nat
  /-- error counters (R328) -/
  errors : List Nat
  deriving DecidableEq, Repr

/-! ## The package -/

/-- The agent that executes an instruction. -/
inductive Agent where
  | block (k : BKey)
  | relay (r : Nat)
  deriving DecidableEq, Repr

/-- A turn of the schedule (log 1): an agent runs its next instruction, a device event happens, DTIME advances, the host writes or reads a
register of BAR0 of a port (R314), the host writes its own memory, a debugger stops a block or lets it run again (R342), or a cache of
handles or of translations makes room. -/
inductive Turn where
  | agent (g : Agent)
  | event (i : Instr)
  | tick (ns : Nat)
  | bar (port off : Nat) (v : W64)
  | barRead (port off : Nat)
  | host (a : Nat) (bytes : List Byte)
  | stop (k : BKey)
  | cont (k : BKey)
  /-- the entry of a context's handle caches or of the TLBs at this place makes room (R79, R92) -/
  | forgetHandle (ctx n : Nat)
  | forgetPage (n : Nat)
  deriving DecidableEq, Repr

/-- The state of the package. -/
structure State where
  /-- bytes by home address: device and host physical addresses below 2^56, COREPIN windows and remote memory above (R16,
  R82, R83); canonical (rising addresses, no zero bytes) -/
  mem : Memory
  /-- waymarks by line (R278), uncorrectable lines (R85, R330), coded blocks (R265); rising keys -/
  marks : List (Nat × Mark)
  eccLines : List Nat
  coded : List (Nat × Coded)
  /-- contexts by number, rising -/
  ctxs : List (Nat × Ctx)
  /-- resident blocks by context, rising -/
  blocks : List (BKey × Block)
  cores : List (Nat × CoreSt)
  /-- SAVEA of each block context (R128) -/
  savea : List (BKey × W64)
  /-- barrier sets by (global cluster, context number), rising -/
  bars : List ((Nat × Nat) × Vector Barrier 16)
  /-- the launch for which each barrier set was zeroed last (R247) -/
  barOwner : List ((Nat × Nat) × Nat)
  die0 : Die
  die1 : Die
  lines : Vector LaunchLine 512
  relays : Vector Relay 8
  launches : List Launch
  /-- an uncorrectable error lies in the launch table (R294) -/
  tableError : Bool
  queues : List Queue
  graphs : List Graph
  saved : List Saved
  /-- block-time estimate of each kernel: context, code reference and directory index; Tk (R299) -/
  estimates : List ((Nat × W64 × Nat) × Nat)
  rescues : List Rescue
  /-- DTIME from which a waiter may earn its next rescue slice -/
  rescued : List (BKey × Nat)
  /-- pending internal events of the relay cores (R295) -/
  internal : List Nat
  port0 : Port
  port1 : Port
  hvPosts : List HvPost
  /-- translations held by the TLBs (R92), and lines of L2PIN handles (R83) -/
  tlb : List TlbEntry
  pins : List Pin
  /-- release points of engine commands that blocks have left behind at their retirement, one queue for each block (R111, R119) -/
  late : List (List Ev)
  /-- data of the last host read, none where it is poisoned (R313) -/
  hostRead : List (Option Byte)
  mgc : Mgc
  /-- clusters per die C (R1), expander sizes in bytes and link-lost flags (R319) -/
  clusters : Nat
  expanders : Vector Nat 8
  linkLost : Vector Bool 8
  devid : BitVec 12
  domain : Nat
  remotes : List RemoteDev
  /-- DTIME (R18), its state (R323), the last synchronisation, slew owed in ns, locked once, Ethernet port down -/
  dtime : Nat
  dstate : Nat
  lastSync : Nat
  slewOwed : Int
  lockedOnce : Bool
  ptpDown : Bool
  /-- arithmetic clock stepped down (R18); dies halted (R329) -/
  slowClock : Bool
  halted : Bool
  /-- model fields: turns still to be taken, the agent that moves when none is left, counters behind free values, names of
  queued events and commands -/
  schedule : List Turn
  active : Agent
  /-- contexts whose block a debugger holds stopped (R342) -/
  stopped : List BKey
  freeCount : Nat
  evSeq : Nat
  deriving DecidableEq, Repr

/-! ## Values at reset -/

/-- No fault yet (R98). -/
def FaultRecord.zero : FaultRecord := { flt0 := 0, flt1 := 0, flt2 := 0, flt3 := 0 }

/-- An empty context descriptor: registers 0 (R76, R86, R88, R256, R318), an empty partition. -/
def Ctx.empty : Ctx :=
  { htb := 0, htn := 0, xroot := 0, hroot := 0, bqb := 0, bqn := 0, cfqb := 0, cfqh := 0, cftail := 0, lost := false,
    part := [], leaving := [], lostLines := [], hcache := [] }

/-- A core at reset: no window (R316), nothing staged. -/
def CoreSt.empty : CoreSt := { win := 0, staged := none, logical := 0, armed := [] }

/-- A barrier at reset (R248). -/
def Barrier.zero : Barrier :=
  { f := false, fc := 0, fcause := 0, e := 0, a := 0, lf := false, lfc := 0, lcause := 0, phase := 0 }

/-- A shape record with all fields 0 (R121). -/
def ShapeRec.zero : ShapeRec := { gm := 0, gn := 0, gk := 0, kcur := 0, v := false, ktot := 0, kpos := 0 }

/-- An element mask with all bits 0 (R121). -/
def Mask.zero : Mask := { bits := 0, poison := false, origin := none }

/-- A launch line at reset: bytes zero, expected parity 0, not sealed (R290). -/
def LaunchLine.zero : LaunchLine := { bytes := List.replicate 128 0, parity := false, sealed := false, hostOwned := false, written := false }

/-- A relay core at reset: RCAUSE 0 (R294); the other registers by DESIGN CHOICE 0 (log 6). -/
def Relay.zero : Relay :=
  { x := Vector.replicate 32 0, pc := 0, mb := List.replicate 128 0, mbError := false, rcause := 0, mcause := 0, mepc := 0, mtval := 0, mtvec := 0,
    asleep := false, halted := false, imem := [] }

/-- A host port at reset (R314). -/
def Port.zero : Port :=
  { hcrb := 0, hcrt := 0, hcrh := 0, done := [], hfqb := 0, hfqt := 0, hfqh := 0, mbox := [], down := false }

/-- A monitor channel at reset (DESIGN CHOICE, log 6). -/
def Monitor.zero : Monitor := { source := 0, shift := 0, min := 0, max := 0, count := 0, bins := List.replicate 16 0 }

/-- A coding class after package reset (R266): slot 0 is active and holds the 8-bit identity code. -/
def CodeClass.reset : CodeClass :=
  { active := 0, learning := false, frozenAt := none, slots := [List.replicate 256 8, [], [], []] }

/-- A die at reset: every V of the slot table 0 (R202), queues and directories empty. -/
def Die.reset : Die :=
  { slots := List.replicate 64 (false, 0), nextSlots := none, rampI := 0, rampF := 0, link := [], bind := [],
    classes := List.replicate 8 CodeClass.reset, dqueue := [], seqNo := 1, running := none, moves := [], dir := [],
    quar := [], monitors := List.replicate 8 Monitor.zero }

/-- The MGC at reset: parameters at their defaults in ns where they are times (R326). -/
def Mgc.reset : Mgc :=
  { log := [], params := [1, 1000000, 10000000, 100000, 20000, 0, 0], testMode := false, bankA := (0, true), bankB := (0, false),
    imageA := [], imageB := [], booted := 0, rollback := 0, sensors := [], errors := List.replicate 32 0 }

/-- The package right after package reset. -/
def State.reset : State :=
  { mem := [], marks := [], eccLines := [], coded := [], ctxs := [], blocks := [], cores := [], savea := [], bars := [], barOwner := [],
    die0 := Die.reset, die1 := Die.reset, lines := Vector.replicate 512 LaunchLine.zero,
    relays := Vector.replicate 8 Relay.zero, launches := [], tableError := false, queues := [], graphs := [], saved := [], estimates := [],
    rescues := [], rescued := [], internal := [], port0 := Port.zero, port1 := Port.zero, hvPosts := [], tlb := [], pins := [], late := [], hostRead := [],
    mgc := Mgc.reset, clusters := 12, expanders := Vector.replicate 8 0, linkLost := Vector.replicate 8 false, devid := 0,
    domain := 0, remotes := [], dtime := 0, dstate := 0, lastSync := 0, slewOwed := 0, lockedOnce := false, ptpDown := false,
    slowClock := false, halted := false, schedule := [], active := .relay 0, stopped := [], freeCount := 0, evSeq := 0 }

end Sys2Proof.Machine
end

