-- ==== Sys2Proof/Machine/Ops.lean ====
section
/-! DEFINITION. The named operations: memory, registers, the parts of the package by number, ending a block, and taking a
trap (R134), the one shared operation by which every fault of an instruction reaches the block. -/

namespace Sys2Proof.Machine

/-- The three outcomes of this machine. -/
abbrev Out := Host.Outcome State Fault Refusal

/-! ## Keyed lists -/

/-- The value at a key. -/
def kvGet [DecidableEq κ] (k : κ) : List (κ × α) → Option α
  | [] => none
  | (k', v) :: xs => if k' = k then some v else kvGet k xs

/-- The list with a value at a key, new keys placed by their order. -/
def kvSet [DecidableEq κ] (ord : κ → Nat) (k : κ) (v : α) : List (κ × α) → List (κ × α)
  | [] => [(k, v)]
  | (k', v') :: xs =>
    if k' = k then (k, v) :: xs
    else if ord k < ord k' then (k, v) :: (k', v') :: xs
    else (k', v') :: kvSet ord k v xs

/-- The list without a key. -/
def kvDrop [DecidableEq κ] (k : κ) (xs : List (κ × α)) : List (κ × α) := xs.filter fun p => p.1 ≠ k

/-- A rising list of numbers with one more. -/
def insertNat (n : Nat) : List Nat → List Nat
  | [] => [n]
  | x :: xs => if n < x then n :: x :: xs else if n = x then x :: xs else x :: insertNat n xs

/-! ## Memory -/

/-- The byte at an address. -/
def Memory.read (m : Memory) (a : Nat) : Byte := (kvGet a m).getD 0

/-- The memory with one byte written; writing zero removes the entry (every entry, so that a byte reads as it was written in any list of
cells). -/
def Memory.write (a : Nat) (b : Byte) : Memory → Memory
  | [] => if b = 0 then [] else [(a, b)]
  | (k, c) :: xs =>
    if a < k then (if b = 0 then (k, c) :: kvDrop a xs else (a, b) :: (k, c) :: xs)
    else if a = k then (if b = 0 then kvDrop a xs else (a, b) :: xs)
    else (k, c) :: Memory.write a b xs

/-- The canonical form: rising addresses, no entry equal to what an unlisted address reads as. -/
def Memory.wf : Memory → Bool
  | [] => true
  | [(_, b)] => b ≠ 0
  | (k, b) :: (k', b') :: xs => b ≠ 0 && k < k' && Memory.wf ((k', b') :: xs)

/-- n bytes from an address. -/
def Memory.readN (m : Memory) (a : Nat) : Nat → List Byte
  | 0 => []
  | n + 1 => m.read a :: Memory.readN m (a + 1) n

/-- Bytes written from an address. -/
def Memory.writeN (m : Memory) (a : Nat) : List Byte → Memory
  | [] => m
  | b :: bs => Memory.writeN (m.write a b) (a + 1) bs

/-- Little-endian number of n bytes at an address (R5). -/
def Memory.readLE (m : Memory) (a n : Nat) : Nat := leNat (m.readN a n)

/-- A number written as n little-endian bytes (R5). -/
def Memory.writeLE (m : Memory) (a n v : Nat) : Memory := m.writeN a (leBytes n v)

/-- A host physical address as a device physical address: PA[55] = 1 (R16). -/
def hostPA (a : Nat) : Nat := 2 ^ 55 + a % 2 ^ 55

/-- Home address of a byte of a COREPIN window (R83): above every physical address. -/
def corepinHome (core off : Nat) : Nat := 2 ^ 56 + core * 2 ^ 21 + off

/-- Home address of a byte of a remote device (R118). -/
def remoteHome (dev va : Nat) : Nat := 2 ^ 64 + dev * 2 ^ 57 + va % 2 ^ 57

/-! ## Parts of the package -/

/-- Order of block contexts. -/
def BKey.ord (k : BKey) : Nat := k.core * 4 + k.slot

/-- The block in a context. -/
def State.block? (s : State) (k : BKey) : Option Block := kvGet k s.blocks

/-- The state with a block in a context. -/
def State.setBlock (s : State) (k : BKey) (b : Block) : State := { s with blocks := kvSet BKey.ord k b s.blocks }

/-- The state with a context empty. -/
def State.dropBlock (s : State) (k : BKey) : State := { s with blocks := kvDrop k s.blocks }

/-- A context's descriptor. -/
def State.ctx (s : State) (n : Nat) : Ctx := (kvGet n s.ctxs).getD Ctx.empty

/-- The state with a context's descriptor written. -/
def State.setCtx (s : State) (n : Nat) (c : Ctx) : State := { s with ctxs := kvSet id n c s.ctxs }

/-- A core's own state. -/
def State.core (s : State) (n : Nat) : CoreSt := (kvGet n s.cores).getD CoreSt.empty

/-- The state with a core's own state written. -/
def State.setCore (s : State) (n : Nat) (c : CoreSt) : State := { s with cores := kvSet id n c s.cores }

/-- A die. -/
def State.die (s : State) (d : Nat) : Die := if d = 0 then s.die0 else s.die1

/-- The state with a die written. -/
def State.setDie (s : State) (d : Nat) (x : Die) : State := if d = 0 then { s with die0 := x } else { s with die1 := x }

/-- A host port. -/
def State.port (s : State) (p : Nat) : Port := if p = 0 then s.port0 else s.port1

/-- The state with a host port written. -/
def State.setPort (s : State) (p : Nat) (x : Port) : State := if p = 0 then { s with port0 := x } else { s with port1 := x }

/-- Cores of the package, 16 × C (R12). -/
def State.coreCount (s : State) : Nat := 16 * s.clusters

/-- CORE of a package core number (R12). -/
def coreInCluster (n : Nat) : Nat := n % 8

/-- Cluster of a package core number, counted over the package (R12). -/
def globalCluster (n : Nat) : Nat := n / 8

/-- CLUST of a package core number (R12). -/
def State.clusterOf (s : State) (n : Nat) : Nat := if s.clusters = 0 then 0 else n / 8 % s.clusters

/-- DIE of a package core number (R12). -/
def State.dieOf (s : State) (n : Nat) : Nat := if n / 8 < s.clusters then 0 else 1

/-- The launch of a number. -/
def State.launch? (s : State) (n : Nat) : Option Launch := s.launches.find? fun l => l.num = n

/-- The state with a launch's entry rewritten. -/
def State.setLaunch (s : State) (l : Launch) : State :=
  { s with launches := s.launches.map fun x => if x.num = l.num then l else x }

/-- The launch of a block. -/
def State.launchOf (s : State) (b : Block) : Option Launch := s.launch? b.launch

/-- The context number of a block (CTX, R128). -/
def State.ctxNumOf (s : State) (b : Block) : Nat := ((s.launchOf b).map fun l => l.man.ctx).getD 0

/-- SAVEA of a block context (R128). -/
def State.saveaOf (s : State) (k : BKey) : W64 := (kvGet k s.savea).getD 0

/-- The barrier set of a context: that of its number in its cluster (R247). -/
def State.barSet (s : State) (k : BKey) : Vector Barrier 16 :=
  (kvGet (globalCluster k.core, k.slot) s.bars).getD (Vector.replicate 16 Barrier.zero)

/-- The state with a barrier set written. -/
def State.setBarSet (s : State) (k : BKey) (v : Vector Barrier 16) : State :=
  { s with bars := kvSet (fun p => p.1 * 4 + p.2) (globalCluster k.core, k.slot) v s.bars }

/-- Blocks of a barrier set: those of the same context number in the same cluster (R247). -/
def sameSet (k k' : BKey) : Bool := globalCluster k.core = globalCluster k'.core && k.slot = k'.slot

/-- The block of a context, or none of the agent is no block context holding one. -/
def State.activeBlock (s : State) : Option (BKey × Block) :=
  match s.active with
  | .block k => (s.block? k).map fun b => (k, b)
  | .relay _ => none

/-- Runs a meaning on the block that moves. -/
def onBlock (s : State) (f : BKey → Block → Out) : Out :=
  match s.activeBlock with
  | some (k, b) => f k b
  | none => .fault .noBlock

/-- A counter behind free values, advanced. -/
def State.bumpFree (s : State) : State := { s with freeCount := s.freeCount + 1 }

/-! ## Registers -/

/-- s[r]; s0 reads 0 (R30). -/
def Block.gs (b : Block) (r : SReg) : W64 := if r = 0 then 0 else b.s[r.val]

/-- Poison bit of s[r]; s0 is never poisoned (R94). -/
def Block.ps (b : Block) (r : SReg) : Bool := if r = 0 then false else b.sp.getLsbD r.val

/-- Writes s[r] with its poison bit; a write to s0 is discarded (R30, R94). -/
def Block.putS (b : Block) (r : SReg) (v : W64) (p : Bool) : Block :=
  if r = 0 then b
  else { b with s := b.s.set r.val v, sp := if p then b.sp ||| BitVec.twoPow 32 r.val else b.sp &&& ~~~ BitVec.twoPow 32 r.val }

/-- a[r] (R74). -/
def Block.ga (b : Block) (r : ARef) : W64 := b.a[r.val]

/-- Poison bit of a[r]. -/
def Block.pa (b : Block) (r : ARef) : Bool := b.ap.getLsbD r.val

/-- Writes a[r] with its poison bit. -/
def Block.putA (b : Block) (r : ARef) (v : W64) (p : Bool) : Block :=
  { b with a := b.a.set r.val v, ap := if p then b.ap ||| BitVec.twoPow 16 r.val else b.ap &&& ~~~ BitVec.twoPow 16 r.val }

/-- The first poisoning fills the origin record of the scalar and reference file (R97). -/
def Block.noteOrigin (b : Block) (o : Option Origin) : Block :=
  match b.origin with
  | some _ => b
  | none => { b with origin := o }

/-- The PC of the next word (R120). -/
def Block.advance (b : Block) : Block := { b with pc := b.pc + 8 }

/-- The descriptor of a tile name. -/
def Block.gt (b : Block) (t : TReg) : Option Tile := b.t[t.val]

/-- Writes a tile name's binding. -/
def Block.putT (b : Block) (t : TReg) (x : Option Tile) : Block := { b with t := b.t.set t.val x }

/-- A shape record. -/
def Block.gsh (b : Block) (r : ShReg) : ShapeRec := b.sh[r.val]

/-- Writes a shape record. -/
def Block.putSh (b : Block) (r : ShReg) (x : ShapeRec) : Block := { b with sh := b.sh.set r.val x }

/-- An element mask. -/
def Block.gm (b : Block) (r : MReg) : Mask := b.m[r.val]

/-- Writes an element mask. -/
def Block.putM (b : Block) (r : MReg) (x : Mask) : Block := { b with m := b.m.set r.val x }

/-- Sets STATUS bits (R69, R128). -/
def Block.raise (b : Block) (bits : W64) : Block := { b with status := b.status ||| bits }

/-- HIDX of a reference image (R74). -/
def refH (r : W64) : Nat := r.toNat / 2 ^ 44

/-- OFF of a reference image (R74). -/
def refOff (r : W64) : Nat := r.toNat % 2 ^ 44

/-- A reference image (R74). -/
def mkRef (h off : Nat) : W64 := BitVec.ofNat 64 (h % 2 ^ 20 * 2 ^ 44 + off % 2 ^ 44)

/-! ## Cause codes (R133) -/

def causeIllegal : Nat := 0x01
def causePriv : Nat := 0x02
def causeBound : Nat := 0x03
def causeRights : Nat := 0x04
def causeHandle : Nat := 0x05
def causePage1 : Nat := 0x06
def causePage2 : Nat := 0x07
def causePoison : Nat := 0x08
def causeMarkChain : Nat := 0x09
def causeStale : Nat := 0x0A
def causeParam : Nat := 0x0B
def causeAlign : Nat := 0x0C
def causeShape : Nat := 0x0D
def causeUnbound : Nat := 0x0E
def causeStoreFull : Nat := 0x0F
def causeEcc : Nat := 0x10
def causeDeadline : Nat := 0x11
def causeGangPartner : Nat := 0x12
def causeFormat : Nat := 0x13
def causeSoftware : Nat := 0x14
def causeCodeBound : Nat := 0x15
def causePreempt : Nat := 0x16
def causeCancel : Nat := 0x17

/-- A fault that carries its cause alone. -/
def FaultInfo.plain (cause : Nat) : FaultInfo :=
  { cause := cause, ocause := 0, tile := none, addr := none, aref := 0, lwi := 0, dev := 0, det := 0, aux := 0,
    remote := false }

/-- A fault at a tile's element (R98). -/
def FaultInfo.atTile (cause : Nat) (t : TReg) (row col : Nat) : FaultInfo :=
  { FaultInfo.plain cause with tile := some (t, row, col) }

/-- A fault at a reference image, AK 00 (R98). -/
def FaultInfo.atRef (cause : Nat) (image : W64) : FaultInfo := { FaultInfo.plain cause with addr := some (0, image) }

/-- A fault at a virtual address, AK 01 (R98). -/
def FaultInfo.atVA (cause va : Nat) : FaultInfo := { FaultInfo.plain cause with addr := some (1, BitVec.ofNat 64 va) }

/-- Address kind of an origin record's address: a reference image for the causes of R81 steps 2 to 4 and 7 and ECC, a virtual
address for the others (DEDUCED, log 10). -/
def originAK (cause : Nat) : Nat :=
  if cause = causeHandle || cause = causeRights || cause = causeBound || cause = causeStale || cause = causeMarkChain
    || cause = causeEcc then 0 else 1

/-- The POISON fault that consumes a poisoned operand with an origin record (R96, R97, R98). -/
def FaultInfo.poisoned (o : Option Origin) (aref : Nat) (tile : Option (TReg × Nat × Nat)) : FaultInfo :=
  match o with
  | none => { FaultInfo.plain causePoison with aref := aref, tile := tile }
  | some r => { FaultInfo.plain causePoison with
      ocause := r.cause, aref := aref, tile := tile, addr := some (originAK r.cause, r.addr), dev := r.dev, aux := r.pc.setWidth 64 }

/-- FLT0 to FLT3 of a fault at a PC (R98). -/
def FaultInfo.record (f : FaultInfo) (pc : W32) : FaultRecord :=
  let tv : Nat := match f.tile with | some _ => 1 | none => 0
  let tile : Nat := match f.tile with | some (t, _, _) => t.val | none => 0
  let row : Nat := match f.tile with | some (_, r, _) => r | none => 0
  let col : Nat := match f.tile with | some (_, _, c) => c | none => 0
  let av : Nat := match f.addr with | some _ => 1 | none => 0
  let ak : Nat := match f.addr with | some (k, _) => k | none => 0
  let addr : W64 := match f.addr with | some (_, a) => a | none => 0
  { flt0 := BitVec.ofNat 64 (f.cause * 2 ^ 56 + f.ocause % 256 * 2 ^ 48 + tv * 2 ^ 47 + av * 2 ^ 46 + ak % 4 * 2 ^ 44
      + f.aref % 16 * 2 ^ 40 + tile * 2 ^ 34 + pc.toNat)
    flt1 := BitVec.ofNat 64 (row % 256 * 2 ^ 56 + col % 256 * 2 ^ 48 + f.lwi % 32 * 2 ^ 43 + f.dev % 4096 * 2 ^ 28
      + f.det % 16 * 2 ^ 24)
    flt2 := addr
    flt3 := f.aux }

/-! ## The rings of a context and of the MGC -/

/-- Entries of a ring whose register holds SZ in bits [3:0], SZ above 8 acting as 8 (R314). -/
def ringSize (reg : W64) : Nat := 2 ^ (min (reg.toNat % 16) 8 + 4)

/-- BASE of a ring register as a host physical byte address (R314). -/
def ringBase (reg : W64) : Nat := reg.toNat / 2 ^ 12 % 2 ^ 44 * 4096

/-- Posts an entry to a context fault ring, or loses it when there is no ring or it is full (R318). -/
def postCtxFault (s : State) (ctx src cause : Nat) (addr : W64) (ident : Nat) : State :=
  let c := s.ctx ctx
  let full : Bool := (c.cftail - c.cfqh).toNat = ringSize c.cfqb
  if ringBase c.cfqb = 0 || full then s.setCtx ctx { c with lost := true }
  else
    let a := hostPA (ringBase c.cfqb + 32 * (c.cftail.toNat % ringSize c.cfqb))
    let bytes := leBytes 2 ctx ++ leBytes 1 (src + if c.lost then 128 else 0) ++ leBytes 1 cause ++ leBytes 4 0
      ++ leBytes 8 addr.toNat ++ leBytes 8 ident ++ leBytes 8 s.dtime
    { s with mem := s.mem.writeN a bytes }.setCtx ctx { c with lost := false, cftail := c.cftail + 1 }

/-- ID of a block's ring entries (R318). -/
def BlkId.num (w : BlkId) : Nat := w.launch * 2 ^ 32 + w.blklin % 2 ^ 32

/-! Kinds of MGC event-log entries (R324). The spec gives no codes: DESIGN CHOICE (log 24). -/

def logTrip : Nat := 1
def logClock : Nat := 2
def logCorrected : Nat := 3
def logUncorrectable : Nat := 4
def logUpdate : Nat := 5
def logAttest : Nat := 6
def logReload : Nat := 7
def logParam : Nat := 8
def logTimeState : Nat := 9
def logHostWrite : Nat := 10
def logDemotion : Nat := 11
def logBoot : Nat := 12
def logHalt : Nat := 13

/-- Appends an entry to the MGC's event log: a ring of 2,048 entries (R324). -/
def logMgc (s : State) (kind value : Nat) : State :=
  let l := s.mgc.log ++ [{ kind := kind, value := value, time := s.dtime }]
  { s with mgc := { s.mgc with log := l.drop (l.length - 2048) } }

/-- Error counters of the MGC (R328 gives no indexes: DESIGN CHOICE, log 24): corrected errors, uncorrectable errors. -/
def errCorrected : Nat := 0
def errUncorrectable : Nat := 1

/-- The MGC counts n errors of a kind. -/
def countErrors (s : State) (index n : Nat) : State := { s with mgc := { s.mgc with errors := s.mgc.errors.modify index fun x => x + n } }

/-- An uncorrectable error at an address is logged and counted (R324, R330). -/
def noteError (s : State) (a : Nat) : State := countErrors (logMgc s logUncorrectable a) errUncorrectable 1

/-- A sample of a monitor channel: every channel of the die with that source takes it (R327). -/
def monitorSample (s : State) (die source v : Nat) : State :=
  let sat (n : Nat) : Nat := min n (2 ^ 32 - 1)
  let upd (m : Monitor) : Monitor :=
    if m.source ≠ source then m
    else
      let x := v / 2 ^ m.shift
      let bin := if x < 2 then 0 else min 15 (Nat.log2 x)
      { m with
        min := if m.count = 0 then sat v else Nat.min m.min (sat v)
        max := if m.count = 0 then sat v else Nat.max m.max (sat v)
        count := min (m.count + 1) (2 ^ 64 - 1)
        bins := m.bins.modify bin fun n => sat (n + 1) }
  let d := s.die die
  if d.monitors.any fun m => m.source = source then s.setDie die { d with monitors := d.monitors.map upd } else s

/-! ## Barriers (R250, R251) -/

/-- A barrier's phase completes (R250). -/
def Barrier.complete (x : Barrier) : Barrier :=
  { x with lf := x.f, lfc := x.fc, lcause := x.fcause, f := false, fc := 0, fcause := 0, a := 0, phase := x.phase + 1 }

/-- What a completion does to a block of the set: its AP becomes DN, and a BARW that sleeps on the barrier wakes (R250). -/
def Block.barCompleted (b : Block) (n : BReg) (phase : BitVec 16) : Block :=
  let b1 := if b.arrived.getLsbD n.val then
      { b with
        arrived := b.arrived &&& ~~~ BitVec.twoPow 16 n.val
        doneBar := b.doneBar ||| BitVec.twoPow 16 n.val
        donePhase := b.donePhase.set n.val phase.toNat }
    else b
  match b1.sleep with
  | some (.barw d m none) => if m = n then { b1 with sleep := some (.barw d m (some phase)) } else b1
  | _ => b1

/-- What a completion does to a saved block of the set: its AP becomes DN (R250). -/
def Saved.barCompleted (x : Saved) (n : BReg) (phase : BitVec 16) : Saved :=
  if x.arrived.getLsbD n.val then
    { x with
      arrived := x.arrived &&& ~~~ BitVec.twoPow 16 n.val
      doneBar := x.doneBar ||| BitVec.twoPow 16 n.val
      donePhase := x.donePhase.set n.val phase.toNat }
  else x

/-- A change to every saved block of a launch that uses the barrier set of context k (R247). -/
def State.onSavedSet (s : State) (k : BKey) (launch : Nat) (f : Saved → Saved) : State :=
  { s with saved := s.saved.map fun x => if sameSet k x.key && x.launch = launch then f x else x }

/-- One arrival on a barrier of the set of context k, by the block of context k (R250). -/
def barArrive (s : State) (k : BKey) (n : BReg) (faulted : Option (Nat × Nat)) : State :=
  let set := s.barSet k
  let x := set[n.val]
  let x : Barrier := match faulted with
    | some (core, cause) => if x.f then x else { x with f := true, fc := core, fcause := cause }
    | none => x
  let x : Barrier := { x with a := x.a + 1 }
  let s := match s.block? k with
    | some b => s.setBlock k { b with arrived := b.arrived ||| BitVec.twoPow 16 n.val }
    | none => s
  if x.a = x.e then
    let y := x.complete
    let s := s.setBarSet k (set.set n.val y)
    let s := match s.block? k with
      | some b => s.onSavedSet k b.launch fun x => x.barCompleted n y.phase
      | none => s
    { s with blocks := s.blocks.map fun p => if sameSet k p.1 then (p.1, p.2.barCompleted n y.phase) else p }
  else s.setBarSet k (set.set n.val x)

/-- A block of the set sleeps in BARW on the barrier. -/
def State.barSleeper (s : State) (k : BKey) (n : BReg) : Bool :=
  s.blocks.any fun p => sameSet k p.1 && match p.2.sleep with | some (.barw _ m none) => m = n | _ => false

/-- The faulted arrivals of a dying block on each of b0-b15 (R251). -/
def faultedArrivals (s : State) (k : BKey) (cause : Nat) : List Nat → State
  | [] => s
  | i :: is =>
    let n : BReg := Fin.ofNat 16 i
    let x := (s.barSet k)[n.val]
    let ap : Bool := match s.block? k with | some b => b.arrived.getLsbD n.val | none => true
    let s' := if !ap && (x.a > 0 || s.barSleeper k n) && x.e ≠ 0 then barArrive s k n (some (coreInCluster k.core, cause)) else s
    faultedArrivals s' k cause is

/-! ## Ending a block, and taking a trap -/

/-- A block ends with a validity and a cause (0: none); it retires once R119 holds. Its sleeping instruction is discarded. -/
def Block.finish (b : Block) (v : Validity) (cause : Nat) : Block :=
  { b with ended := some (v, cause), sleep := none, parts := [] }

/-- The block without the queued accesses, waiting instructions and messages of the instruction named id and of every younger one (R134). -/
def Block.upTo (b : Block) (id : Nat) : Block :=
  { b with
    evq := b.evq.filter fun e => e.id < id
    held := b.held.filter fun h => h.id < id
    msgs := b.msgs.filter fun m => m.id < id }

/-- The faulted arrivals of a member that ends before it has accepted its parts: one for each (R197). -/
def partArrivals (s : State) (k : BKey) (cause : Nat) : List GPart → State
  | [] => s
  | p :: ps => partArrivals (barArrive s k p.bar (some (coreInCluster k.core, cause))) k cause ps

/-- A kill or a trap with a fault record: the block ends with NONE, after its faulted barrier arrivals (R134, R137, R197,
R251). -/
def killBlock (s : State) (k : BKey) (b : Block) (f : FaultInfo) (pc : W32) : State :=
  let s := faultedArrivals (partArrivals (s.setBlock k { b with parts := [] }) k f.cause b.parts) k f.cause (List.range 16)
  match s.block? k with
  | some b => s.setBlock k ({ b with flt := f.record pc, sys := none, trapTime := s.dtime }.finish .none f.cause)
  | none => s

/-- A queued access whose instruction has not begun writeback: a load, a strong access or a tile store with no unit performed (R21). A
scalar weak store has completed when it entered the store buffer. -/
def Ev.discardable (e : Ev) : Bool :=
  (match e.kind with
    | .read | .perform => true
    | .drain => e.tile.isSome
    | .acqPoint | .relPoint => false)
  && !(e.units.any fun u => u.done)

/-- The events of a queue that a discard leaves: the points of a discarded tile access, named beside it, go with it (R119, R173). -/
def keptOf (evq : List Ev) : List Ev :=
  let gone := (evq.filter Ev.discardable).map fun e => e.id
  evq.filter fun e => !e.discardable
    && !(e.engine.isNone && ((e.kind = .acqPoint && gone.contains (e.id + 1)) || (e.kind = .relPoint && gone.contains (e.id - 1))))

/-- The events of a block that a discard leaves. -/
def Block.keptEvents (b : Block) : List Ev := keptOf b.evq

/-- Waiting GMMAs of a lead are discarded before any part of them has begun: their parts are withdrawn from every member (R198). -/
def State.withdraw (s : State) (gone : List Held) : State :=
  let ids := (gone.filter fun h => h.given && !h.begun).map fun h => h.id
  if ids.isEmpty then s
  else
    let left (ps : List GPart) : List GPart := ps.filter fun g => !ids.contains g.id
    { s with
      blocks := s.blocks.map fun p => (p.1, { p.2 with parts := left p.2.parts })
      saved := s.saved.map fun x => { x with parts := left x.parts } }

/-- A trap of the instruction named id: what is older completes, what is younger is discarded with it (R134). -/
def killUpTo (s : State) (k : BKey) (b : Block) (id : Nat) (f : FaultInfo) (pc : W32) : State :=
  killBlock (s.withdraw (b.held.filter fun h => id ≤ h.id)) k (b.upTo id) f pc

/-- Taking a trap (R134): the trapping instruction has no effect, FLT0 to FLT3 are written, the block ends with NONE and the
cause. In system mode the routine ends and the block is handled as a failed save or restore, with cause PREEMPT: of a saved block the record
goes, and its parts and arrivals are the block's (R134, R141, R251). -/
def takeTrap (s : State) (k : BKey) (b : Block) (f : FaultInfo) : State :=
  match b.sys with
  | none => killBlock s k b f b.pc
  | some m =>
    let mine (x : Saved) : Bool := x.launch = b.launch && x.blklin = b.blklin
    let old := s.saved.find? mine
    let s1 := { s with saved := s.saved.filter fun x => !mine x }
    killBlock s1 k { b with
      pc := m.userPc
      evq := (match old with | some x => keptOf x.evq | none => []) ++ b.keptEvents
      held := []
      superseded := []
      msgs := []
      parts := (match old with | some x => x.parts | none => []) ++ b.parts
      arrived := (match old with | some x => x.arrived | none => b.arrived) } (FaultInfo.plain causePreempt) m.userPc

/-- The outcome of an instruction that traps. -/
def trapOut (s : State) (k : BKey) (b : Block) (f : FaultInfo) : Out := .next (takeTrap s k b f)

/-- The return from a trap's counterpart, system mode (R141): the context runs the user block again at its PC. -/
def Block.leaveSystem (b : Block) (m : SysMode) : Block :=
  { b with sys := none, pc := m.userPc, status := b.status &&& ~~~ (0x200 : W64) }

end Sys2Proof.Machine
end

