-- ==== Sys2Proof/Machine/Translate.lean ====
section
/-! DEFINITION. Handles, their checks, the two translation stages, second-stage faults, and the place of a byte (R76 to R102,
R279, R280). -/

namespace Sys2Proof.Machine

/-! ## Results of accesses -/

/-- What an access can do: go on, meet a fault, or wait for the hypervisor (R99). The state is the one after it: a handle
cache filled (R79), a posting made. -/
inductive Res (α : Type) where
  | ok (s : State) (a : α)
  | bad (s : State) (f : FaultInfo)
  | wait (s : State)

/-- Goes on after a result. -/
def Res.andThen (r : Res α) (f : State → α → Res β) : Res β :=
  match r with
  | .ok s a => f s a
  | .bad s e => .bad s e
  | .wait s => .wait s

/-- A fault's record rewritten. -/
def Res.mapFault (r : Res α) (g : FaultInfo → FaultInfo) : Res α :=
  match r with
  | .ok s a => .ok s a
  | .bad s e => .bad s (g e)
  | .wait s => .wait s

/-- Rights an access needs (R80). -/
structure Need where
  rd : Bool
  wr : Bool
  at_ : Bool
  ex : Bool
  mp : Bool
  /-- bytes of natural alignment that the access needs (R81 step 5), 1 for none -/
  al : Nat
  deriving DecidableEq, Repr

def Need.none : Need := { rd := false, wr := false, at_ := false, ex := false, mp := false, al := 1 }
def Need.load : Need := { Need.none with rd := true }
def Need.store : Need := { Need.none with wr := true }
def Need.atomic : Need := { Need.none with rd := true, wr := true, at_ := true }
def Need.readWrite : Need := { Need.none with rd := true, wr := true }
def Need.fetch : Need := { Need.none with ex := true }

/-- The need of a scalar access of n bytes, which is naturally aligned (R151). -/
def Need.scalar (need : Need) (n : Nat) : Need := { need with al := n }

/-- The rights as bits 0 to 4. -/
def Need.bits (n : Need) : Nat :=
  n.rd.toNat + 2 * n.wr.toNat + 4 * n.at_.toNat + 8 * n.ex.toNat + 16 * n.mp.toNat

/-- KIND of an access for R99. -/
def Need.kind (n : Need) : Nat := if n.ex then 4 else if n.at_ then 3 else if n.wr then 2 else 1

/-- Who makes an access: context, package core number of the issuing core, and the block that waits for it. -/
structure Env where
  ctx : Nat
  core : Nat
  who : Option BKey
  /-- the access is the Drain of a store whose instruction has retired (R114) -/
  drain : Bool := false
  deriving DecidableEq, Repr

/-- The environment of a block's accesses. -/
def State.envOf (s : State) (k : BKey) (b : Block) : Env := { ctx := s.ctxNumOf b, core := k.core, who := some k }

/-! ## The physical address map (R16, R82) -/

/-- SPACE of a physical address, none where R16 puts nothing: 0 HBM, 1 second tier, 3 host. -/
def State.spaceOf (s : State) (pa : Nat) : Option Nat :=
  if 2 ^ 55 ≤ pa then some 3
  else if pa < 0x8000000000 then (if 0x8000 ≤ pa && pa < 384000000000 then some 0 else none)
  else if pa < 0x10000000000 then
    (if 0x8000008000 ≤ pa && pa < 0x8000000000 + 384000000000 then some 0 else none)
  else if 0x100000000000 ≤ pa && pa < 0x100000000000 + 8 * 0x20000000000 then
    let p := (pa - 0x100000000000) / 0x20000000000
    let off := (pa - 0x100000000000) % 0x20000000000
    if s.linkLost.toList.getD p false then none
    else if off < s.expanders.toList.getD p 0 then some 1 else none
  else none

/-- Home die of a physical address (R16, R17). -/
def homeDie (pa : Nat) : Nat :=
  if pa < 0x10000000000 then pa / 0x8000000000 % 2
  else if (pa - 0x100000000000) / 0x20000000000 < 4 then 0 else 1

/-- HBM stack of a line (R17): 4 KiB runs are interleaved over the die's four stacks. -/
def homeStack (pa : Nat) : Nat := 4 * homeDie pa + ((pa / 2 ^ 12 % 4) ^^^ (pa / 2 ^ 20 % 4))

/-- Home slice of a line within its die (R17). -/
def homeSlice (pa : Nat) : Nat :=
  (pa / 2 ^ 7 % 128) ^^^ (pa / 2 ^ 14 % 128) ^^^ (pa / 2 ^ 21 % 128) ^^^ (pa / 2 ^ 28 % 128) ^^^ (pa / 2 ^ 35 % 128)

/-- An armed error of a tile store lies in the line of a COREPIN window that holds a home address (R325). -/
def State.armedAt (s : State) (home : Nat) : Bool :=
  2 ^ 56 ≤ home && home < 2 ^ 57 && (s.core ((home - 2 ^ 56) / 2 ^ 21)).armed.contains (0, home % 2 ^ 21 / 128)

/-- A line that an uncorrectable error holds (R85, R325, R330). -/
def State.eccAt (s : State) (home : Nat) : Bool := s.eccLines.contains (home / 128) || s.armedAt home

/-- Armed errors in the windows that a read touched have fired, once (R325). -/
def State.disarmHomes (s : State) : List Nat → State
  | [] => s
  | p :: ps =>
    if s.armedAt p then
      let n := (p - 2 ^ 56) / 2 ^ 21
      let c := s.core n
      State.disarmHomes (s.setCore n { c with armed := c.armed.filter fun a => a ≠ (0, p % 2 ^ 21 / 128) }) ps
    else State.disarmHomes s ps

/-- A read has met uncorrectable errors: each line is logged and counted by the MGC (R324, R330), and an armed error there has fired
(R325). -/
def State.firedHomes (s : State) (ps : List Nat) : State :=
  ((ps.filter s.eccAt).map fun p => p / 128).eraseDups.foldl (fun s l => noteError s (128 * l)) (s.disarmHomes ps)

/-! ## Second-stage faults (R99, R100) -/

/-- Entries of a port's hypervisor fault ring that the host has not consumed fill it (R314, R318). -/
def Port.hvFull (p : Port) : Bool := (p.hfqt - p.hfqh).toNat ≥ ringSize p.hfqb

/-- Writes a posting into the ring of a port when there is room (R99); the access waits otherwise (R318). -/
def State.writeHvEntry (s : State) (port : Nat) (e : HvPost) : State × Bool :=
  let p := s.port port
  if p.hvFull then (s, false)
  else
    let a := hostPA (ringBase p.hfqb + 32 * (p.hfqt.toNat % ringSize p.hfqb))
    let bytes := leBytes 8 e.gva ++ leBytes 8 e.gpa ++ leBytes 2 e.vmid ++ leBytes 2 e.ctx ++ leBytes 1 e.kind
      ++ leBytes 1 e.level ++ leBytes 2 0 ++ leBytes 8 e.tag.toNat
    ({ s with mem := s.mem.writeN a bytes }.setPort port { p with hfqt := p.hfqt + 1 }, true)

/-- The fault the guest sees when the hypervisor declines (R100). -/
def declinedFault (kind gva gpa det : Nat) (image : W64) : FaultInfo :=
  if kind = 0 then FaultInfo.atVA causePage1 gva
  else if kind = 5 then FaultInfo.atRef causeHandle image
  else { FaultInfo.atVA causePage2 gva with aux := BitVec.ofNat 64 gpa, det := det }

/-- A second-stage fault: posted to the hypervisor's fault queue while the access waits; declined, it reaches the guest
(R99, R100). DESIGN CHOICE (log 33): of the two ports' rings the posting takes that of the port of the issuing core's die. -/
def hvFault (s : State) (e : Env) (image : W64) (kind level gva gpa det : Nat) : Res α :=
  let same (p : HvPost) : Bool :=
    p.who = e.who && p.drain = e.drain && p.ctx = e.ctx && p.kind = kind && p.gva = gva && p.gpa = gpa && p.level = level && !p.served
  let port := s.dieOf e.core
  match s.hvPosts.find? same with
  | some p =>
    if p.declined then
      .bad { s with hvPosts := s.hvPosts.filter fun q => !same q } (declinedFault kind gva gpa p.det image)
    else if p.posted then .wait s
    else
      let (s', done) := s.writeHvEntry port p
      .wait { s' with hvPosts := s'.hvPosts.map fun q => if same q then { q with posted := done } else q }
  | none =>
    let vmid := (s.ctx e.ctx).hroot.toNat / 2 ^ 44 % 2 ^ 14
    let p : HvPost := { tag := Config.hvTag s.freeCount, port := port, gva := gva, gpa := gpa, vmid := vmid, ctx := e.ctx, kind := kind,
                        level := level, det := det, who := e.who, drain := e.drain, declined := false, served := false, posted := false }
    let (s', done) := s.bumpFree.writeHvEntry port p
    -- a served access that is made again and faults once more is posted anew
    .wait { s' with hvPosts := (s'.hvPosts.filter fun q => !(q.served && q.who = e.who)) ++ [{ p with posted := done }] }

/-! ## Page tables (R86 to R91) -/

/-- What a PTE says at a level. -/
inductive PteStep where
  | pointer (ppn : Nat)
  | leaf (pa span : Nat)
  | fault (det : Nat)
  deriving DecidableEq, Repr

/-- Reads one PTE at a level for an address under the choices of R89: detail 0 not valid, 5 malformed, 1 permission, 2 A or D
clear. Svnapot is 64 KiB only; bits [62:54] are reserved. -/
def pteStep (pte level addr : Nat) (need : Need) : PteStep :=
  let b (i : Nat) : Bool := pte.testBit i
  let ppn := fld 10 44 pte
  let leaf := b 1 || b 2 || b 3
  if !b 0 then .fault 0
  else if fld 54 9 pte ≠ 0 then .fault 5
  else if b 2 && !b 1 then .fault 5
  else if !leaf then
    if b 63 || b 4 || b 6 || b 7 || level = 0 then .fault 5 else .pointer ppn
  else if level = 4 then .fault 5
  else if b 63 && (level ≠ 0 || ppn % 16 ≠ 8) then .fault 5
  else if ppn % 2 ^ (9 * level) ≠ 0 then .fault 5
  else if !b 4 || (need.rd && !b 1) || (need.wr && !b 2) || (need.ex && !b 3) || (need.mp && !b 1) then .fault 1
  else if !b 6 || (need.wr && !b 7) then .fault 2
  else
    let span := if b 63 then 2 ^ 16 else 2 ^ (12 + 9 * level)
    .leaf (ppn * 4096 / span * span + addr % span) span

/-- Outcome of a walk of one stage: a physical address and the size of the page it lies in, a fault with its detail at a PTE address or at
the leaf, or ECC. -/
inductive Walk where
  | ok (pa span : Nat)
  | fault (det : Nat)
  | ecc
  deriving DecidableEq, Repr

/-- The second stage, Sv57x4, from a level down (R88, R89). -/
def walk2 (s : State) (gpa : Nat) (need : Need) : Nat → Nat → Walk
  | table, level =>
    let idx := if level = 4 then gpa / 2 ^ 48 % 2 ^ 11 else gpa / 2 ^ (12 + 9 * level) % 512
    let a := table + 8 * idx
    match s.spaceOf a with
    | none => .fault 4
    | some _ =>
      if s.eccAt a then .ecc
      else match pteStep (s.mem.readLE a 8) level gpa need with
        | .fault d => .fault d
        | .leaf pa span => .ok pa span
        | .pointer ppn => match level with
          | 0 => .fault 5
          | l + 1 => walk2 s gpa need (ppn * 4096) l

/-- The size that an address space without translation puts no limit to. -/
def wholeSpan : Nat := 2 ^ 64

/-- The second stage of a context for a guest-physical address (R88): the address itself without a second stage. -/
def stage2 (s : State) (ctx gpa : Nat) (need : Need) : Walk :=
  let r := (s.ctx ctx).hroot.toNat
  let mode := fld 60 4 r
  if mode = 0 then .ok gpa wholeSpan
  else if mode ≠ 0xA || fld 0 2 r ≠ 0 || 2 ^ 59 ≤ gpa then .fault 0
  else walk2 s gpa need (fld 0 44 r * 4096) 4

/-- A context has a second stage. -/
def State.hasStage2 (s : State) (ctx : Nat) : Bool := fld 60 4 (s.ctx ctx).hroot.toNat ≠ 0

/-- The sixteen level-1 PTEs of an aligned 32 MiB run, which lie in one line, are leaves that join to one page (R91). -/
def joins32 (ptes : List Nat) : Bool :=
  let first := ptes.headD 0
  let ppn := fld 10 44 first
  ppn % 2 ^ 13 = 0 && ptes.zipIdx.all fun p =>
    p.1.testBit 0 && (p.1.testBit 1 || p.1.testBit 2 || p.1.testBit 3) && fld 0 10 p.1 = fld 0 10 first && fld 54 10 p.1 = 0
      && fld 10 44 p.1 = ppn + 512 * p.2

/-- The size of the page that a leaf of the first stage gives the TLB: 32 MiB where the hint of the handle joins sixteen leaves (R90, R91). -/
def leafSpan (s : State) (c32 : Bool) (level a span : Nat) : Nat :=
  if c32 && level = 1 && joins32 ((List.range 16).map fun i => s.mem.readLE (a / 128 * 128 + 8 * i) 8) then 2 ^ 25 else span

/-- The first stage, Sv57, from a level down; each PTE is read through the second stage (R86, R89, R99). Answers the guest-physical address
and the size of its page. -/
def walk1 (s : State) (e : Env) (image : W64) (va : Nat) (need : Need) (c32 : Bool) : Nat → Nat → Res (Nat × Nat)
  | table, level =>
    let g := table + 8 * (va / 2 ^ (12 + 9 * level) % 512)
    match stage2 s e.ctx g { Need.none with rd := true } with
    | .ecc => .bad (noteError s g) (FaultInfo.atRef causeEcc image)
    | .fault d => hvFault s e image 0 level va g d
    | .ok a _ =>
      match s.spaceOf a with
      | none =>
        if s.hasStage2 e.ctx then hvFault s e image 0 level va g 4
        else .bad s { FaultInfo.atVA causePage1 va with det := 4 }
      | some _ =>
        if s.eccAt a then .bad (noteError s a) (FaultInfo.atRef causeEcc image)
        else match pteStep (s.mem.readLE a 8) level va need with
          | .fault d => .bad s { FaultInfo.atVA causePage1 va with det := d }
          | .leaf pa span => .ok s (pa, leafSpan s c32 level a span)
          | .pointer ppn => match level with
            | 0 => .bad s { FaultInfo.atVA causePage1 va with det := 5 }
            | l + 1 => walk1 s e image va need c32 (ppn * 4096) l

/-- Lines of a page that a demotion could not write back are poisoned at the home they now have (R85). -/
def State.settleLost (s : State) (ctx va pa : Nat) : State :=
  let c := s.ctx ctx
  match c.lostLines.filter fun l => l / 32 = va / 4096 with
  | [] => s
  | ls =>
    { s with eccLines := ls.foldl (fun es l => insertNat (pa / 4096 * 32 + l % 32) es) s.eccLines }.setCtx ctx
      { c with lostLines := c.lostLines.filter fun l => l / 32 ≠ va / 4096 }

/-- VMID and ASID of a context's translations (R86, R88). -/
def Ctx.tags (c : Ctx) : Nat × Nat := (fld 44 14 c.hroot.toNat, fld 44 16 c.xroot.toNat)

/-- A TLB entry translates an access: it is the last level's of the issuing core's die or that core's own, and its page holds the address. -/
def TlbEntry.hits (x : TlbEntry) (die core : Nat) (tags : Nat × Nat) (va need : Nat) : Bool :=
  x.die = die && (x.core.isNone || x.core = some core) && (x.vmid, x.asid) = tags && x.va ≤ va && va < x.va + x.size && x.need = need

/-- What the TLBs hold for an access to a virtual address: its guest-physical and its physical address (R92). -/
def State.tlbFind (s : State) (e : Env) (va : Nat) (need : Need) : Option (Nat × Nat) :=
  (s.tlb.find? fun x => x.hits (s.dieOf e.core) e.core (s.ctx e.ctx).tags va need.bits).map fun x => (x.gpa + (va - x.va), x.pa + (va - x.va))

/-- The first n entries of one TLB are kept, and all the others. -/
def keepFirst (mine : TlbEntry → Bool) : Nat → List TlbEntry → List TlbEntry
  | _, [] => []
  | n, x :: xs =>
    if !mine x then x :: keepFirst mine n xs
    else match n with
      | 0 => keepFirst mine 0 xs
      | m + 1 => x :: keepFirst mine m xs

/-- Entries of a die's last-level TLB, and of a core's first-level TLB (R92). -/
def lastLevelEntries : Nat := 16384
def firstLevelEntries : Nat := 128

/-- A translation that was walked enters the TLB of the issuing core's die and that of the core (R92). DESIGN CHOICE (log 7): a full TLB gives
up its oldest entry. -/
def State.tlbFill (s : State) (e : Env) (va gpa pa size : Nat) (need : Need) : State :=
  let t := (s.ctx e.ctx).tags
  let die := s.dieOf e.core
  let x : TlbEntry :=
    { die := die, core := none, vmid := t.1, asid := t.2, va := va / size * size, size := size, need := need.bits,
      gpa := gpa - va % size, pa := pa - va % size }
  let first := keepFirst (fun y => y.core = some e.core) firstLevelEntries ({ x with core := some e.core } :: s.tlb)
  { s with tlb := keepFirst (fun y => y.core.isNone && y.die = die) lastLevelEntries (x :: first) }

/-- Translates a virtual address of a context through its stages to a physical address of a SPACE that the access accepts
(R82, R86 to R91). A translation that a TLB holds is used as it was walked (R92). -/
def translateTo (s : State) (e : Env) (image : W64) (va : Nat) (accepts : Nat → Bool) (need : Need) (c32 : Bool) : Res Nat :=
  let root := (s.ctx e.ctx).xroot.toNat
  if fld 60 4 root ≠ 0xA || 2 ^ 57 ≤ va then .bad s (FaultInfo.atVA causePage1 va)
  else
    let arrive (s : State) (gpa pa : Nat) (fill : State → State) : Res Nat :=
      let last (det : Nat) : Res Nat :=
        if s.hasStage2 e.ctx then hvFault s e image need.kind 0 va gpa det
        else .bad s { FaultInfo.atVA causePage1 va with det := det }
      match s.spaceOf pa with
      | none => last 4
      | some sp =>
        if accepts sp then .ok ((fill s).settleLost e.ctx va pa) pa else last 3
    match s.tlbFind e va need with
    | some (gpa, pa) => arrive s gpa pa id
    | none =>
      (walk1 s e image va need c32 (fld 0 44 root * 4096) 4).andThen fun s g =>
        match stage2 s e.ctx g.1 need with
        | .ecc => .bad (noteError s g.1) (FaultInfo.atRef causeEcc image)
        | .fault d => hvFault s e image need.kind 0 va g.1 d
        | .ok pa span => arrive s g.1 pa fun s => s.tlbFill e va g.1 pa (min g.2 span) need

/-- Translates a virtual address to a physical address of one SPACE. -/
def translate (s : State) (e : Env) (image : W64) (va space : Nat) (need : Need) (c32 : Bool) : Res Nat :=
  translateTo s e image va (fun sp => sp = space) need c32

/-! ## Handles (R76 to R85) -/

/-- A handle table entry from its first 32 bytes (R77). -/
def parseHandle (w0 w1 w2 w3 : Nat) : HEntry :=
  { v := w0.testBit 63
    base := fld 0 57 w0
    mp := w1.testBit 48
    at_ := w1.testBit 47
    ex := w1.testBit 46
    wr := w1.testBit 45
    rd := w1.testBit 44
    bound := fld 0 44 w1
    gen := fld 48 16 w2
    pcore := fld 40 8 w2
    home := fld 38 2 w2
    dm := w2.testBit 37
    mcls := fld 35 2 w2
    ce := w2.testBit 34
    ccls := fld 31 3 w2
    c32 := w2.testBit 30
    devid := fld 16 12 w2
    space := fld 14 2 w2
    tsoff := fld 0 21 w3
    rsv := fld 57 6 w0 ≠ 0 || fld 49 15 w1 ≠ 0 || fld 28 2 w2 ≠ 0 || fld 0 14 w2 ≠ 0 || fld 21 43 w3 ≠ 0 }

/-- Bale size of a movable class, 0 for none (R272). -/
def baleSize (mcls : Nat) : Nat := if mcls = 1 then 65536 else if mcls = 2 then 2097152 else 0

/-- HTN.N as it acts (R76). -/
def Ctx.handles (c : Ctx) : Nat := min (fld 0 21 c.htn.toNat) 1048576

/-- Guest-physical or physical address of entry k (R76). -/
def Ctx.entryAddr (c : Ctx) (k : Nat) : Nat := fld 12 44 c.htb.toNat * 4096 + 64 * k

/-- An entry from the handle cache of the issuing core, read from the table on a miss (R79). -/
def readHandle (s : State) (e : Env) (image : W64) : Res HEntry :=
  let k := refH image
  let c := s.ctx e.ctx
  match c.hcache.find? fun p => p.1 = e.core && p.2.1 = k with
  | some (_, _, h) => .ok s h
  | none =>
    let g := c.entryAddr k
    match stage2 s e.ctx g { Need.none with rd := true } with
    | .ecc => .bad (noteError s g) (FaultInfo.atRef causeEcc image)
    | .fault d => hvFault s e image 5 0 0 g d
    | .ok a _ =>
      match s.spaceOf a with
      | none => if s.hasStage2 e.ctx then hvFault s e image 5 0 0 g 4 else .bad s (FaultInfo.atRef causeHandle image)
      | some _ =>
        if s.eccAt a then .bad (noteError s a) (FaultInfo.atRef causeEcc image)
        else
          let w (i : Nat) : Nat := s.mem.readLE (a + 8 * i) 8
          let h := parseHandle (w 0) (w 1) (w 2) (w 3)
          .ok (s.setCtx e.ctx { c with hcache := (e.core, k, h) :: c.hcache }) h

/-- A core of the partition, or one that leaves it and whose COREPIN handles are not demoted yet (R85). -/
def Ctx.holdsCore (c : Ctx) (core : Nat) : Bool := c.part.contains core || c.leaving.contains core

/-- R78: what makes an entry valid for an access, apart from the index. -/
def State.entryValid (s : State) (c : Ctx) (h : HEntry) : Bool :=
  let b := baleSize h.mcls
  h.v && !h.rsv && h.mcls ≠ 3
    && (h.mcls = 0 || (h.base % b = 0 && h.bound % b = 0))
    && !(h.space = 2 && (h.devid = s.devid.toNat || s.devid = 0))
    && !(h.home = 1 && h.space ≠ 0 && h.space ≠ 1)
    && !(h.home = 2 && (h.space ≠ 0 || !c.holdsCore h.pcore || h.tsoff + h.bound > (s.core h.pcore).win))
    && !((h.ce || h.mcls ≠ 0) && (h.space = 2 || h.space = 3))

/-- Rights of an entry cover the need (R80). -/
def HEntry.grants (h : HEntry) (n : Need) : Bool :=
  (!n.rd || h.rd) && (!n.wr || h.wr) && (!n.at_ || h.at_) && (!n.ex || h.ex) && (!n.mp || h.mp)

/-- A COREPIN region is reachable from its own core and from the cores of its cluster in the partition (R84). -/
def corepinReach (c : Ctx) (core : Nat) (h : HEntry) : Bool :=
  h.home ≠ 2 || core = h.pcore || (globalCluster core = globalCluster h.pcore && c.holdsCore core)

/-- HROOT has no legal MODE, or PPN bits that its root table cannot have: every access faults PAGE2 (R88). -/
def Ctx.badRoot (c : Ctx) : Bool :=
  let r := c.hroot.toNat
  fld 60 4 r ≠ 0 && (fld 60 4 r ≠ 0xA || fld 0 2 r ≠ 0)

/-- R81 step 2 (HANDLE) and step 3 (RIGHTS, with R84), for the handle of a reference image. Under a bad HROOT the access itself meets
the second-stage fault, at the entry's address (R88; log 15). -/
def checkHandle (s : State) (e : Env) (image : W64) (need : Need) : Res HEntry :=
  let k := refH image
  if k = 0 || k ≥ (s.ctx e.ctx).handles then .bad s (FaultInfo.atRef causeHandle image)
  else if (s.ctx e.ctx).badRoot then hvFault s e image need.kind 0 0 ((s.ctx e.ctx).entryAddr k) 0
  else
    (readHandle s e image).andThen fun s h =>
      if !s.entryValid (s.ctx e.ctx) h then .bad s (FaultInfo.atRef causeHandle image)
      else if !h.grants need || !corepinReach (s.ctx e.ctx) e.core h then .bad s (FaultInfo.atRef causeRights image)
      else .ok s h

/-- R81 step 4: [e, e + n) lies within the bound. -/
def inBound (e : Int) (n bound : Nat) : Bool := 0 ≤ e && e + n ≤ bound

/-! ## Bales (R272 to R274, R280) -/

/-- The package bale directory (R274). -/
def State.directory (s : State) : List DirEntry := s.die0.dir ++ s.die1.dir

/-- The directory entry whose source is the bale that holds an offset of a handle. -/
def State.dirOf (s : State) (ctx h off : Nat) : Option DirEntry :=
  s.directory.find? fun d => d.ctx = ctx && d.srcH = h && off / d.size = d.srcK

/-- The waymark of the line that holds a home address. -/
def State.markAt (s : State) (home : Nat) : Option Mark := kvGet (home / 128) s.marks

/-- A line of a bale that is moving has been marked (R113). -/
def State.lineMarked (s : State) (d : DirEntry) (off : Nat) : Bool :=
  let at_ := off % d.size
  match d.pages[at_ / 4096]? with
  | some p => (s.markAt (p + at_ % 4096)).isSome
  | none => false

/-- The place where a byte of a moved bale lies, through the bale directory (R280): a bale that still moves has lines at both
places. -/
def followDir (s : State) (ctx : Nat) : Nat → Nat → Nat → W64
  | 0, h, off => mkRef h off
  | n + 1, h, off => match s.dirOf ctx h off with
    | none => mkRef h off
    | some d =>
      if d.state = .moving && !s.lineMarked d off then mkRef h off
      else followDir s ctx n d.dstH (d.dstK * d.size + off % d.size)

/-- R280: an access to a quarantined bale faults STALE. -/
def staleFault (s : State) (ctx : Nat) (image : W64) : Option FaultInfo :=
  match s.dirOf ctx (refH image) (refOff image) with
  | some d => if d.state = .quarantined
      then some { FaultInfo.atRef causeStale image with aux := followDir s ctx 4 (refH image) (refOff image) }
      else none
  | none => none

/-- A device of the domain that does not reply, or none of the domain (R82, R321). -/
def State.unreachable (s : State) (dev : Nat) : Bool :=
  match s.remotes.find? fun r => r.id = dev with
  | some r => !r.reachable
  | none => true

/-! ## The place of a byte -/

/-- Home address of one byte of a handle, after the checks of steps 2 to 5: R81 step 6. -/
def placeRaw (s : State) (e : Env) (h : HEntry) (image : W64) (need : Need) : Res Nat :=
  let off := refOff image
  let va := h.base + off
  if h.home = 2 then .ok s (corepinHome h.pcore (Config.tileStoreBytes - (s.core h.pcore).win + h.tsoff + off))
  else if h.space = 2 then
    match s.remotes.find? fun r => r.id = h.devid with
    | some r =>
      if r.reachable && (r.pages.contains (va / 4096) || Config.remoteMaps r.id (va / 4096)) then .ok s (remoteHome h.devid va)
      else .bad s { FaultInfo.atVA causePage1 va with dev := h.devid, remote := !r.reachable }
    | none => .bad s { FaultInfo.atVA causePage1 va with dev := h.devid, remote := true }
  else translate s e image va h.space need h.c32

/-- Home address of one byte of a handle: R81 step 6, and the quarantine check of step 7. -/
def placeByte (s : State) (e : Env) (h : HEntry) (image : W64) (need : Need) : Res Nat :=
  (placeRaw s e h image need).andThen fun s pa => match staleFault s e.ctx image with
    | some f => .bad s f
    | none => .ok s pa

/-- A line of an L2PIN handle that the home does not hold yet: it takes a reserved way, or, when it finds none free, it is held as CACHED and the
monitors of its home die count it (R83, R327 source 7). -/
def State.pinLine (ctx handle : Nat) (s : State) (line : Nat) : State :=
  if s.pins.any fun p => p.line = line then s
  else
    let full := Config.pinFull s.freeCount
    let s1 := { s.bumpFree with pins := { line := line, ctx := ctx, handle := handle, reserved := !full } :: s.pins }
    if full then monitorSample s1 (homeDie (128 * line)) 7 1 else s1

/-- The lines of m bytes from a home address that an access through a handle reaches, when its HOME is L2PIN (R83). -/
def State.notePins (s : State) (e : Env) (h : HEntry) (image : W64) (pa m : Nat) : State :=
  if h.home ≠ 1 then s
  else ((List.range ((pa + m - 1) / 128 + 1 - pa / 128)).map (pa / 128 + ·)).foldl (State.pinLine e.ctx (refH image)) s

/-- Lines of a handle of a context, or of all its handles, whose HOME may have changed are unpinned (R83). -/
def State.unpin (s : State) (ctx : Nat) (all : Bool) (handle : Nat) : State :=
  { s with pins := s.pins.filter fun p => !(p.ctx = ctx && (all || p.handle = handle)) }

/-- Home addresses of n consecutive bytes of a handle; one translation for each 4 KiB page touched. -/
def placeBytes (s : State) (e : Env) (h : HEntry) (image : W64) (need : Need) : Nat → Nat → Res (List Nat)
  | 0, _ => .ok s []
  | fuel + 1, n =>
    if n = 0 then .ok s []
    else
      (placeByte s e h image need).andThen fun s p =>
        let m := min n (4096 - (h.base + refOff image) % 4096)
        (placeBytes (s.notePins e h image p m) e h (image + BitVec.ofNat 64 m) need fuel (n - m)).andThen fun s ps =>
          .ok s ((List.range m).map (p + ·) ++ ps)

/-! ## Chasing waymarks (R279) -/

/-- Where a byte that has a home address lies now, through the waymarks (R113): what two accesses have in common whether they were
checked before a Mark or after it. -/
def State.lastHome (s : State) : Nat → Nat → Nat
  | 0, home => home
  | n + 1, home => match s.markAt home with
    | none => home
    | some m => s.lastHome n (m.home / 128 * 128 + home % 128)

/-- The place of a byte now. -/
def State.nowAt (s : State) (home : Nat) : Nat := s.lastHome 4 home

/-- Chases one byte: from the reference image and home address it has, to those where it lies (R279). `start` is the image
the access started from. -/
def chase (s : State) (e : Env) (need : Need) (start : W64) : Nat → W64 → Nat → Res (W64 × Nat)
  | 0, image, home => match s.markAt home with
    | none => .ok s (image, home)
    | some _ => .bad s { FaultInfo.atRef causeMarkChain start with aux := mkRef (refH image) (refOff image / 128 * 128) }
  | n + 1, image, home => match s.markAt home with
    | none => .ok s (image, home)
    | some m =>
      let r := mkRef (refH m.newref) (refOff m.newref + refOff image % 128)
      (checkHandle s e r need).andThen fun s h =>
        if !inBound (refOff r) 1 h.bound then .bad s (FaultInfo.atRef causeBound r)
        else if (h.base + refOff r) % need.al ≠ home % need.al then .bad s (FaultInfo.atVA causeAlign (h.base + refOff r))
        else (placeByte s e h r need).andThen fun s p => chase s e need start n r p

/-- A home address of a device that has become unreachable: PAGE1 with DEV (R321). -/
def State.lostAt (s : State) (home : Nat) : Option FaultInfo :=
  if home < 2 ^ 64 then none
  else
    let dev := (home - 2 ^ 64) / 2 ^ 57
    if s.unreachable dev then some { FaultInfo.atVA causePage1 (home % 2 ^ 57) with dev := dev, remote := true } else none

/-- Chases every byte of a unit; answers the final image of the first byte when it was chased, and the home addresses. -/
def chaseAll (s : State) (e : Env) (need : Need) (start : W64) : W64 → List Nat → Res (Option W64 × List Nat)
  | _, [] => .ok s (none, [])
  | image, p :: ps => match s.lostAt p with
    | some f => .bad s f
    | none =>
      (chase s e need start 3 image p).andThen fun s r =>
        (chaseAll s e need start (image + 1) ps).andThen fun s rest =>
          .ok s (if r.2 = p then none else some r.1, r.2 :: rest.2)

/-- Waymarks that stand between a home address and the place of its byte now. -/
def State.hops (s : State) : Nat → Nat → Nat
  | 0, _ => 0
  | n + 1, home => match s.markAt home with
    | none => 0
    | some m => 1 + s.hops n (m.home / 128 * 128 + home % 128)

/-- Waymarks that the lines of a unit meet, each line once. -/
def State.unitHops (s : State) (places : List Nat) : Nat :=
  if s.marks.isEmpty then 0
  else
    let firsts := places.filter fun p => !(places.takeWhile fun q => q ≠ p).any fun q => q / 128 = p / 128
    (firsts.map fun p => s.hops 4 p).foldl (· + ·) 0

/-- An access that is made at once is sampled by the monitors of the issuing core's die with its chases, when it has ended (R327 source 5). -/
def Res.sampled (r : Res α) (e : Env) (hops : Nat) : Res α :=
  match r with
  | .ok s a => .ok (monitorSample s (s.dieOf e.core) 5 hops) a
  | .bad s f => .bad (monitorSample s (s.dieOf e.core) 5 hops) f
  | .wait s => .wait s

/-! ## Performing at the home -/

/-- Expand: a coded block becomes raw lines before a write touches it (R117); the values do not change. -/
def State.expandAt (s : State) (home : Nat) : State :=
  match kvGet (home / 512) s.coded with
  | none => s
  | some _ => { s with coded := kvDrop (home / 512) s.coded }

/-- Bytes at home addresses. -/
def State.readHomes (s : State) (ps : List Nat) : List Byte := ps.map fun p => s.mem.read p

/-- Bytes written at home addresses, each block expanded first. A write replaces an uncorrectable byte only with its whole
line, so the line's error stays (R330). -/
def State.writeHomes (s : State) : List Nat → List Byte → State
  | p :: ps, b :: bs => State.writeHomes { s.expandAt p with mem := (s.expandAt p).mem.write p b } ps bs
  | _, _ => s

/-- Reads a unit at its home: chase, then the bytes; an uncorrectable error faults ECC (R93). -/
def readUnit (s : State) (e : Env) (need : Need) (image : W64) (places : List Nat) : Res (Option W64 × List Byte) :=
  (chaseAll s e need image image places).andThen fun s r =>
    if r.2.any fun p => s.eccAt p then .bad (s.firedHomes r.2) (FaultInfo.atRef causeEcc (r.1.getD image))
    else .ok s (r.1, s.readHomes r.2)

/-- Writes a unit at its home: chase, Expand, then the bytes. -/
def writeUnit (s : State) (e : Env) (need : Need) (image : W64) (places : List Nat) (bytes : List Byte) : Res (Option W64) :=
  (chaseAll s e need image image places).andThen fun s r => .ok (s.writeHomes r.2 bytes) r.1

/-- A whole access of n bytes at an offset of a handle: R81 steps 2 to 7 and the home addresses. `align` checks natural
alignment on the virtual address (R151). -/
def locate (s : State) (e : Env) (h : Nat) (off : Int) (n : Nat) (align : Bool) (need : Need) : Res (HEntry × W64 × List Nat) :=
  let image := mkRef h (off % (2 ^ 44)).toNat
  (checkHandle s e image need).andThen fun s he =>
    if !inBound off n he.bound then .bad s (FaultInfo.atRef causeBound image)
    else if align && (he.base + off.toNat) % n ≠ 0 then .bad s (FaultInfo.atVA causeAlign (he.base + off.toNat))
    else (placeBytes s e he image need (n / 4096 + 2) n).andThen fun s ps => .ok s (he, image, ps)

/-- A strong read of n bytes through a reference image, performed at once: for engines, tables and the Dispatcher. A fetch takes no sample
(DEDUCED, log 22). -/
def readRef (s : State) (e : Env) (image : W64) (off : Int) (n : Nat) (align : Bool) (need : Need) : Res (List Byte) :=
  (locate s e (refH image) (refOff image + off) n align need).andThen fun s l =>
    let r := (readUnit s e need l.2.1 l.2.2).andThen fun s r => .ok s r.2
    if need.ex then r else r.sampled e (s.unitHops l.2.2)

/-- A write of bytes through a reference image, performed at once. -/
def writeRef (s : State) (e : Env) (image : W64) (off : Int) (bytes : List Byte) (align : Bool) (need : Need) : Res Unit :=
  (locate s e (refH image) (refOff image + off) bytes.length align need).andThen fun s l =>
    ((writeUnit s e need l.2.1 l.2.2 bytes).andThen fun s _ => .ok s ()).sampled e (s.unitHops l.2.2)

end Sys2Proof.Machine
end

