-- ==== Sys2Proof/Machine/Operands.lean ====
section
/-! DEFINITION. Tile operands: binding checks, windows, elements, scales, poison lines, and their bytes in memory (R154 to
R163, R166, R59, R63). -/

namespace Sys2Proof.Machine

/-! ## Storage (R155) -/

/-- Bytes of a run of n elements (R59). -/
def runBytes (fmt : Efmt) (n : Nat) : Nat := (n * fmt.bits + 7) / 8

/-- Bytes of a run of n elements in memory: an A56 element takes 8 bytes (R59). -/
def memRunBytes (fmt : Efmt) (n : Nat) : Nat := if fmt = .a56 then 8 * n else runBytes fmt n

/-- Scale-plane bytes of an m x n tile before rounding (R63). -/
def scaleCount (fmt : Efmt) (lay : Lay) (m n : Nat) : Nat :=
  if fmt.block = 0 then 0 else if lay = .col then n * (m / fmt.block) else m * (n / fmt.block)

/-- Scale-plane storage (R155). -/
def scalePlaneBytes (fmt : Efmt) (lay : Lay) (m n : Nat) : Nat := (scaleCount fmt lay m n + 127) / 128 * 128

/-- EBYTES: element-plane storage, or accumulator entries for home a (R154, R155). -/
def Tile.ebytes (t : Tile) : Nat :=
  match t.home with
  | .a => t.srows * t.scols
  | .s => elementPlaneBytes t.fmt t.lay t.srows t.scols

/-- SBYTES (R154, R155). -/
def Tile.sbytes (t : Tile) : Nat := scalePlaneBytes t.fmt t.lay t.srows t.scols

/-- Length of the block axis (R63). -/
def blockAxis (lay : Lay) (m n : Nat) : Nat := if lay = .col then m else n

/-! ## Using a tile -/

/-- A bound tile with the extent that is current for its link (R161), or the fault of R166 and R161. -/
def Block.useTile (b : Block) (t : TReg) : Except FaultInfo Tile :=
  match b.gt t with
  | none => .error (FaultInfo.atTile causeUnbound t 0 0)
  | some x => match x.link with
    | none => .ok x
    | some (sh, rowsAreK) =>
      let k := (b.gsh sh).kcur
      if k > (if rowsAreK then x.srows else x.scols) then .error (FaultInfo.atTile causeShape t 0 0)
      else if rowsAreK then .ok { x with wrow0 := 0, wcol0 := 0, wrows := k, wcols := x.scols }
      else .ok { x with wrow0 := 0, wcol0 := 0, wrows := x.srows, wcols := k }

/-- A tile's binding with the slot and the contents of another: link and window stay. -/
def Tile.refill (y x : Tile) : Tile :=
  { y with
    cmp := x.cmp, raw := x.raw, tscale := x.tscale, elems := x.elems, scales := x.scales, poison := x.poison, origin := x.origin,
    phys := x.phys, unwritten := false }

/-- The new contents, scales, poison and origin of a used tile go back to its binding, in the slot that the name has now. -/
def Block.commitTile (b : Block) (t : TReg) (x : Tile) : Block :=
  match b.gt t with
  | none => b
  | some y => b.putT t (some { y.refill x with phys := y.phys })

/-! ## Slots (R163) -/

/-- Commands that a copy engine queue holds (R171). -/
def copyQueueSize : Nat := 16

/-- A waiting instruction is a command of the copy engine (R171): tile memory but for TPRF. -/
def Held.copies (h : Held) : Bool :=
  match h.instr with
  | .tld .. | .tst .. | .tldg .. | .tsts .. | .tldd .. | .tstd .. | .pld .. | .plds .. => true
  | _ => false

/-- Commands on the copy engine queue of a core, those among them that wait for an index tile or for the hypervisor. -/
def State.copyCount (s : State) (core : Nat) : Nat :=
  ((s.blocks.filter fun p => p.1.core = core).map fun p =>
    (p.2.evq.filter fun e => e.copy).length + (p.2.held.filter fun h => h.copies && !h.queued).length).foldl (· + ·) 0

/-- The slot of a number, which was a name's: under the name still, or superseded. -/
def Block.slotOf (b : Block) (t : TReg) (phys : Nat) : Option Tile :=
  let old := (b.superseded.find? fun p => p.2.phys = phys).map fun p => p.2
  match b.gt t with
  | some y => if y.phys = phys then some y else old
  | none => old

/-- A tile as an instruction named it at issue, with the contents that its slot holds now. -/
def Block.version (b : Block) (t : TReg) (x : Tile) : Tile :=
  match b.slotOf t x.phys with
  | some y => x.refill y
  | none => x

/-- New contents of a slot that was a name's; a slot that nothing holds any longer takes none. -/
def Block.putSlot (b : Block) (t : TReg) (phys : Nat) (y : Tile) : Block :=
  if (b.gt t).any fun z => z.phys = phys then b.commitTile t y
  else { b with superseded := b.superseded.map fun p => if p.2.phys = phys then (p.1, { p.2.refill y with phys := phys }) else p }

/-- A queued load writes a slot. -/
def Ev.writesSlot (e : Ev) (phys : Nat) : Bool := match e.dest with | .tile _ => e.slot = phys | _ => false

/-- An unfinished instruction is to write a slot: a waiting TRECV, an instruction that waits in the dependency table, a queued load. -/
def Block.slotWriter (b : Block) (phys : Nat) : Bool :=
  (b.msgs.any fun m => !m.send && m.snap.phys = phys) || (b.held.any fun h => h.dsts.any fun p => p.2 = phys)
    || b.evq.any fun e => e.writesSlot phys

/-- An unfinished instruction reads or writes a slot. -/
def Block.slotUsed (b : Block) (phys : Nat) : Bool :=
  b.slotWriter phys || (b.msgs.any fun m => m.snap.phys = phys) || (b.held.any fun h => h.tiles.any fun p => p.2.phys = phys)
    || b.readers.any fun p => p.2 = phys

/-- Superseded slots that are kept: those in use, and those whose name has its value there until the next slot of it is written. -/
def Block.keepSlots (b : Block) : List (TReg × Tile) → List (TReg × Tile)
  | [] => []
  | p :: ps =>
    let next := match ps.find? fun q => q.1 = p.1 with | some q => some q.2 | none => b.gt p.1
    if b.slotUsed p.2.phys || next.any fun y => y.unwritten then p :: b.keepSlots ps else b.keepSlots ps

/-- A superseded slot is freed when its last older reader or writer has completed (R163). -/
def Block.freeSlots (b : Block) : Block := { b with superseded := b.keepSlots b.superseded }

/-- A name gives up its slot, which lives on while an older instruction reads or writes it (R163, R165). -/
def Block.supersede (b : Block) (t : TReg) : Block :=
  match b.gt t with
  | some x => if b.slotUsed x.phys then { b with superseded := b.superseded ++ [(t, x)] } else b
  | none => b

/-- A name takes a fresh slot, with the contents of the old one until it is written: the merge of R163 has its elements from there. -/
def Block.freshSlot (b : Block) (t : TReg) (phys : Nat) : Block :=
  match b.gt t with
  | some x => { b with superseded := b.superseded ++ [(t, x)] }.putT t (some { x with phys := phys, unwritten := true })
  | none => b

/-- A waiting TLAY of a name. -/
def Block.layWaits (b : Block) (t : TReg) : Bool := b.held.any fun h => match h.instr with | .tlay d _ => d = t | _ => false

/-- Every name with the contents of its last completed writer; with the layout that it had, too, when a TLAY has not been done (R168). -/
def Block.restoreNames (b : Block) : Block :=
  (List.finRange 64).foldl (fun b t => match b.gt t with
    | some y =>
      if y.unwritten then
        match (b.superseded.filter fun p => p.1 = t && !p.2.unwritten).getLast? with
        | some p => if b.layWaits t then b.putT t (some { p.2 with phys := y.phys }) else b.commitTile t { p.2 with phys := y.phys }
        | none => b.commitTile t y
      else b
    | none => b) b

/-- Elements of a window in row-major order, as window coordinates. -/
def Tile.coords (t : Tile) : List (Nat × Nat) :=
  (List.range t.wrows).flatMap fun i => (List.range t.wcols).map fun j => (i, j)

/-- Index of a window element in the contents. -/
def Tile.index (t : Tile) (i j : Nat) : Nat := (t.wrow0 + i) * t.scols + (t.wcol0 + j)

/-- elem(t, i, j) as an encoding (R7). -/
def Tile.get (t : Tile) (i j : Nat) : Nat := t.elems.getD (t.index i j) 0

/-- elem(t, i, j) := an encoding. -/
def Tile.set (t : Tile) (i j v : Nat) : Tile := { t with elems := t.elems.setIfInBounds (t.index i j) v }

/-- Place of the scale of a window element's block in the scale plane (R63). -/
def Tile.scaleIndex (t : Tile) (i j : Nat) : Nat :=
  let r := t.wrow0 + i
  let c := t.wcol0 + j
  let b := t.fmt.block
  if t.lay = .col then c * (t.srows / b) + r / b else r * (t.scols / b) + c / b

/-- The scale byte of a window element's block. -/
def Tile.getScale (t : Tile) (i j : Nat) : Nat := t.scales.getD (t.scaleIndex i j) 0

/-- Writes the scale byte of a window element's block. -/
def Tile.setScale (t : Tile) (i j v : Nat) : Tile := { t with scales := t.scales.setIfInBounds (t.scaleIndex i j) v }

/-- A window covers the whole bound extent. -/
def Tile.wholeWindow (t : Tile) : Bool := t.wrow0 = 0 && t.wcol0 = 0 && t.wrows = t.brows && t.wcols = t.bcols

/-- A window covers whole blocks of a block-scaled tile. -/
def Tile.blockAligned (t : Tile) : Bool :=
  t.fmt.block = 0 ||
    (if t.lay = .col then t.wrow0 % t.fmt.block = 0 && t.wrows % t.fmt.block = 0
     else t.wcol0 % t.fmt.block = 0 && t.wcols % t.fmt.block = 0)

/-! ## Poison lines (R93, R195) -/

/-- Poison lines that hold an element, by its coordinates in the binding. -/
def Tile.linesAt (t : Tile) (r c : Nat) : List Nat :=
  match t.home with
  | .a => [(r * t.scols + c) / 16]
  | .s =>
    let w := t.fmt.bits
    let bit := if t.lay = .col then c * runBytes t.fmt t.srows * 8 + r * w else r * runBytes t.fmt t.scols * 8 + c * w
    let lo := bit / 1024
    let hi := (bit + w - 1) / 1024
    if lo = hi then [lo] else [lo, hi]

/-- Poison lines that hold a window element. -/
def Tile.lines (t : Tile) (i j : Nat) : List Nat := t.linesAt (t.wrow0 + i) (t.wcol0 + j)

/-- poison(t, i, j) read (R7). -/
def Tile.poisoned (t : Tile) (i j : Nat) : Bool := (t.lines i j).any fun l => t.poison.contains l

/-- Lines added to the map; the first poisoning fills the origin record (R97). -/
def Tile.poisonLines (t : Tile) (ls : List Nat) (o : Option Origin) : Tile :=
  { t with poison := ls.foldl (fun p l => insertNat l p) t.poison
           origin := match t.origin with | some x => some x | none => o }

/-- poison(t, i, j) := true. -/
def Tile.poisonAt (t : Tile) (i j : Nat) (o : Option Origin) : Tile := t.poisonLines (t.lines i j) o

/-- Every line the window touches is poisoned. -/
def Tile.poisonWindow (t : Tile) (o : Option Origin) : Tile :=
  t.coords.foldl (fun t p => t.poisonAt p.1 p.2 o) t

/-- The effect of an instruction on the poison of the lines it writes: a line is poisoned afterwards if it holds a poisoned
element; elements that were not written keep the line's earlier state, and a masked write clears no line (R94). `written` lists the window
elements written with their poison. Lines all of whose elements in the binding are written unpoisoned are cleared. -/
def Tile.rewritePoison (t : Tile) (masked : Bool) (written : List ((Nat × Nat) × Bool)) (o : Option Origin) : Tile :=
  if t.poison.isEmpty && !(written.any fun p => p.2) then t
  else
    let bad := (written.filter fun p => p.2).flatMap fun p => t.lines p.1.1 p.1.2
    let done := written.map fun p => (t.wrow0 + p.1.1, t.wcol0 + p.1.2)
    let whole (l : Nat) : Bool :=
      (List.range t.brows).all fun r => (List.range t.bcols).all fun c =>
        !(t.linesAt r c).contains l || done.contains (r, c)
    let kept := if masked then t.poison else t.poison.filter fun l => !whole l
    { t with poison := [] }.poisonLines (kept ++ bad) (if bad.isEmpty then none else o)

/-- Lines that hold an element of block n of the scale plane (R63, R176). -/
def Tile.scaleLines (t : Tile) (n : Nat) : List Nat :=
  let blk := t.fmt.block
  let cells : List (Nat × Nat) :=
    if t.lay = .col then
      let per := t.srows / blk
      (List.range blk).map fun i => (n % per * blk + i, n / per)
    else
      let per := t.scols / blk
      (List.range blk).map fun i => (n / per, n % per * blk + i)
  cells.flatMap fun p => t.linesAt p.1 p.2

/-- Lines of a tile to which an armed error of the core's stores contributes (R189, R325): the tile-store line or the line of 16 accumulator
entries at the slot's place; for a line of the scale plane, the lines of the blocks whose scales it holds. -/
def Tile.armedLines (armed : List (Nat × Nat)) (t : Tile) : List Nat :=
  match t.home with
  | .s =>
    let base := Config.slotPlace t.phys / 128
    let plane := (t.ebytes + 127) / 128
    armed.flatMap fun p =>
      if p.1 = 0 && base ≤ p.2 && p.2 < base + plane then [p.2 - base]
      else if p.1 = 0 && base + plane ≤ p.2 && p.2 < base + plane + (t.sbytes + 127) / 128 then
        ((List.range 128).filter fun i => 128 * (p.2 - base - plane) + i < t.scales.size).flatMap fun i =>
          t.scaleLines (128 * (p.2 - base - plane) + i)
      else []
  | .a => armed.filterMap fun p =>
      if p.1 = 1 && Config.slotPlace t.phys / 16 ≤ p.2 && p.2 < Config.slotPlace t.phys / 16 + (t.ebytes + 15) / 16
      then some (p.2 - Config.slotPlace t.phys / 16) else none

/-- Lines of a tile's window that hold an armed error of the core's stores. -/
def Tile.armedWindow (armed : List (Nat × Nat)) (t : Tile) : List Nat :=
  (t.armedLines armed).filter fun l => t.coords.any fun p => (t.lines p.1 p.2).contains l

/-- A tile as an instruction reads it: the lines of its window with an armed error are poisoned, with cause ECC, address 0 and the
instruction's PC (R189, R330). -/
def Tile.readArmed (armed : List (Nat × Nat)) (pc : W32) (t : Tile) : Tile :=
  match t.armedWindow armed with
  | [] => t
  | ls => { t.poisonLines ls none with origin := some { cause := causeEcc, addr := 0, pc := pc, dev := 0 } }

/-- The armed errors of a core after instructions read tiles: each that lay in a line read has fired (R325). -/
def disarm (armed : List (Nat × Nat)) (ts : List Tile) : List (Nat × Nat) :=
  armed.filter fun p =>
    !(ts.any fun t => (t.armedLines [p]).any fun l => t.coords.any fun q => (t.lines q.1 q.2).contains l)

/-- A tile that an instruction reads: bound, of its current extent, with the armed errors it meets (R161, R166, R325). -/
def State.source (s : State) (k : BKey) (b : Block) (t : TReg) : Except FaultInfo Tile :=
  (b.useTile t).map fun x => x.readArmed (s.core k.core).armed b.pc

/-- A tile that an instruction both reads and writes: the record of its binding stays when it is filled (R97). -/
def State.accumulator (s : State) (k : BKey) (b : Block) (t : TReg) : Except FaultInfo Tile :=
  match b.useTile t, s.source k b t with
  | .ok x, .ok y => .ok { y with origin := match x.origin with | some o => some o | none => y.origin }
  | .error f, _ => .error f
  | _, .error f => .error f

/-- The armed errors met by the tiles an instruction read have fired: they are logged and counted (R324, R330). -/
def State.fired (s : State) (k : BKey) (ts : List Tile) : State :=
  match (s.core k.core).armed with
  | [] => s
  | a =>
    let left := disarm a ts
    (a.filter fun p => !left.contains p).foldl (fun s p => noteError s (128 * p.2)) (s.setCore k.core { s.core k.core with armed := left })

/-- Runs on with a tile or traps. -/
def withTile (s : State) (k : BKey) (b : Block) (r : Except FaultInfo Tile) (f : Tile → Out) : Out :=
  match r with
  | .ok x => f x
  | .error e => trapOut s k b e

/-! ## Active elements (R206, R207) -/

/-- Mask bit of window element (i, j) when the columns are counted by C. -/
def Mask.bit (m : Mask) (c i j : Nat) : Bool := m.bits.getLsbD (i * c + j)

/-- Window element (i, j) is active under an instruction's mask operand. -/
def Block.active (b : Block) (mask : Option MReg) (c i j : Nat) : Bool :=
  match mask with
  | none => true
  | some m => (b.gm m).bit c i j

/-- The controlling mask is poisoned: its origin record, none when it is not (R207). -/
def Block.maskPoison (b : Block) (mask : Option MReg) : Option (Option Origin) :=
  match mask with
  | none => none
  | some m => if (b.gm m).poison then some (b.gm m).origin else none

/-- A mask takes new bits, poisoned with a record when there is one: the first poisoning fills the record, and an unpoisoned write clears it
(R97, R207). -/
def Block.writeMask (b : Block) (md : MReg) (bits : BitVec 65536) (o : Option (Option Origin)) : Block :=
  let old := b.gm md
  b.putM md { bits := bits, poison := o.isSome, origin := if old.poison && o.isSome then old.origin else o.getD none }

/-- Elements written to a window: coordinates, encoding, poison. -/
abbrev Written := List ((Nat × Nat) × Nat × Bool)

/-- A destination window after its elements are written (R94, R205: raw): first the elements, then the poison of the lines with
the origin record of the first poisoned source, then every line of the window when the controlling mask was poisoned. -/
def Tile.writeAll (t : Tile) (masked : Bool) (ws : Written) (o : Option Origin) (maskPoison : Option (Option Origin)) : Tile :=
  let t1 : Tile := ws.foldl (fun t w => t.set w.1.1 w.1.2 w.2.1) { t with cmp := false, raw := [] }
  let t2 := t1.rewritePoison masked (ws.map fun w => (w.1, w.2.2)) o
  match maskPoison with
  | none => t2
  | some mo => t2.poisonWindow (match o with | some x => some x | none => mo)

/-- Entries of the dependency table (R164). -/
def depEntries : Nat := 32

/-- A free entry. -/
def DepEntry.free : DepEntry := { pc := 0, state := 0, td := 0, waits := 0, prog := 0, name := none }

/-- What an entry of the dependency table stands for has completed: it may be freed (R164). -/
def Block.completed (b : Block) (d : DepEntry) : Bool :=
  match d.name with
  | none => true
  | some n => !(b.held.any fun h => h.id = n) && !(b.evq.any fun e => e.id = n) && !(b.msgs.any fun m => m.id = n)
      && !(b.readers.any fun p => p.1 = n)

/-- An entry may be freed: its instruction has completed, and no waiting entry lists it (R164). -/
def Block.freeEntry (b : Block) (n : Nat) : Bool :=
  match b.deps[n]? with
  | some d => b.completed d && !(b.deps.any fun x => x.state = 1 && x.waits.getLsbD n)
  | none => false

/-- The dependency table has room: a free entry, or one that may be freed (R164). -/
def Block.hasEntry (b : Block) : Bool := b.deps.length < depEntries || (List.range depEntries).any b.freeEntry

/-- The table with one more entry, in the place of the first that may be freed once all are in use. -/
def Block.enter (b : Block) (d : DepEntry) : Block :=
  if b.deps.length < depEntries then { b with deps := b.deps ++ [d] }
  else { b with deps := match (List.range depEntries).find? b.freeEntry with | some i => b.deps.set i d | none => b.deps }

/-- A tile instruction has issued: the next word, and an entry of the dependency table, which stands for a queued access or message of
that name if it has one (R164). Other instructions run whole when they no longer wait. -/
def Block.issuedAs (b : Block) (name : Option Nat) (td : Nat) : Block :=
  (b.enter { pc := b.pc, state := 2, td := td, waits := 0, prog := 0xFFFFFFFF, name := name }).advance

/-- A tile instruction has issued and run. -/
def Block.issued (b : Block) (td : TReg) : Block := b.issuedAs none td.val

/-- Coding blocks of a compressed tile that its expansion takes micro-ops for (R178, R205). -/
def Tile.expansions (t : Tile) : Nat := if t.cmp then (t.ebytes + 511) / 512 - t.raw.length else 0

/-- An instruction that reads compressed tiles has them expanded first: the monitors of the die take the micro-ops (R327 source 6), and
each name goes to a raw copy in a fresh slot with every value kept (R177, R205). -/
def State.expandFor (s : State) (k : BKey) (b : Block) (ts : List TReg) : State × Block :=
  let count := (ts.eraseDups.map fun t => match b.gt t with | some x => x.expansions | none => 0).foldl (· + ·) 0
  ts.foldl (fun (p : State × Block) t => match p.2.gt t with
    | some x => if x.cmp then (p.1.bumpFree, (p.2.supersede t).putT t (some { x with cmp := false, raw := [], phys := p.1.freeCount })) else p
    | none => p) (monitorSample s (s.dieOf k.core) 6 count, b)

/-! ## Shares (R165) -/

/-- Tile-store bytes guaranteed to a context of a core whose COREPIN window has a size. -/
def shareBytes (win : Nat) : Nat := (Config.tileStoreBytes - win) / 512 * 128

/-- What a block's bound tiles take: slots, tile-store bytes, accumulator entries. -/
structure Usage where
  slots : Nat
  bytes : Nat
  acc : Nat
  deriving DecidableEq, Repr

/-- What one tile takes. -/
def Tile.usage (t : Tile) : Usage :=
  match t.home with
  | .s => { slots := 1, bytes := t.ebytes + t.sbytes, acc := 0 }
  | .a => { slots := 1, bytes := 0, acc := t.ebytes }

def Usage.add (u v : Usage) : Usage := { slots := u.slots + v.slots, bytes := u.bytes + v.bytes, acc := u.acc + v.acc }

/-- What the bound names of a block take, one name left out. -/
def Block.usageBut (b : Block) (but : Option TReg) : Usage :=
  (List.finRange 64).foldl (fun u t =>
    if but = some t then u
    else match b.gt t with
      | some x => u.add x.usage
      | none => u) { slots := 0, bytes := 0, acc := 0 }

/-- What the superseded slots of a block take (R165). -/
def Block.oldUsage (b : Block) : Usage :=
  b.superseded.foldl (fun u p => u.add p.2.usage) { slots := 0, bytes := 0, acc := 0 }

/-- A usage fits n shares. -/
def Usage.fits (u : Usage) (win n : Nat) : Bool :=
  u.slots ≤ n * Config.shareSlots && u.bytes ≤ n * shareBytes win && u.acc ≤ n * Config.shareAcc

/-- Loans returned while the usage fits without the last of them. -/
def returnLoans (u : Usage) (win : Nat) : List Nat → List Nat
  | [] => []
  | c :: cs => if u.fits win (cs.length + 1) then returnLoans u win cs else c :: cs

/-- Contexts of a core that hold no block and are lent to none. -/
def State.lendable (s : State) (core : Nat) : List Nat :=
  let lent (c : Nat) : Bool := s.blocks.any fun p => p.1.core = core && p.2.loans.contains c
  (List.range Config.contextsPerCore).filter fun c => (s.block? { core := core, slot := c }).isNone && !lent c

/-- Loans a block needs for a usage: those it holds, and as many more as the usage needs; none when there are not enough. -/
def borrow (u : Usage) (win : Nat) (held : List Nat) : List Nat → Option (List Nat)
  | [] => if u.fits win (held.length + 1) then some held else none
  | c :: cs => if u.fits win (held.length + 1) then some held else borrow u win (c :: held) cs

/-- A block's loans after its bound tiles or live slots changed. -/
def State.settleLoans (s : State) (k : BKey) (b : Block) : Block :=
  match b.loans with
  | [] => b
  | ls => { b with loans := returnLoans ((b.usageBut none).add b.oldUsage) (s.core k.core).win ls }

/-! ## Values with scales (R60 to R62) -/

/-- The value of a window element with its block scale. The KS4 tile scale is applied where `tileScale` asks. -/
def Tile.value (t : Tile) (tileScale : Bool) (i j : Nat) : Fv :=
  Efmt.scaled t.fmt (t.get i j) (t.getScale i j) (if tileScale && t.fmt = .ks4 then some t.tscale.toNat else none)

/-! ## Memory images (R59, R174) -/

/-- Coordinates of a window element in memory rows: (row, place in the row) (R174). -/
def Tile.memCoord (t : Tile) (i j : Nat) : Nat × Nat := if t.lay = .col then (j, i) else (i, j)

/-- Elements in one memory row of the window, and memory rows. -/
def Tile.memRow (t : Tile) : Nat := if t.lay = .col then t.wrows else t.wcols
def Tile.memRows (t : Tile) : Nat := if t.lay = .col then t.wcols else t.wrows

/-- The unit that holds element v of a memory row: first byte in the row, bytes, and the bit of the element within it (R59,
R112): two elements to a byte, four E2M3 or E3M2 elements to three bytes, otherwise the element's own bytes. -/
def elemUnit (fmt : Efmt) (v : Nat) : Nat × Nat × Nat :=
  if fmt = .a56 then (8 * v, 8, 0)
  else match fmt.bits with
    | 4 => (v / 2, 1, v % 2 * 4)
    | 6 => (v / 4 * 3, 3, v % 4 * 6)
    | w => (v * (w / 8), w / 8, 0)

/-- Bytes that hold any bit of element v of a memory row: those that decide whether it lies beyond a bound. -/
def elemBytes (fmt : Efmt) (v : Nat) : Nat × Nat :=
  if fmt = .a56 then (8 * v, 8)
  else
    let lo := v * fmt.bits / 8
    let hi := (v * fmt.bits + fmt.bits - 1) / 8
    (lo, hi + 1 - lo)

/-- The encoding of an element from the little-endian bytes that hold it (R59). -/
def elemOfBytes (fmt : Efmt) (v : Nat) (bs : List Byte) : Nat :=
  if fmt = .a56 then leNat bs % 2 ^ 56 else leNat bs / 2 ^ (v * fmt.bits % 8) % 2 ^ fmt.bits

end Sys2Proof.Machine
end

