-- ==== Sys2Proof/Machine/Waystation.lean ====
section
/-! DEFINITION. The waystation machine of a block: what waits for what, performing a unit of a queued access, completing an
access, and settling the queue in program order (R103 to R119, R152, R153, R179). The meanings of READ, DRAIN, PERFORM,
ACQUIRE_POINT and RELEASE_POINT are here. -/

namespace Sys2Proof.Machine

/-! ## What waits for what (R106) -/

/-- The instruction of a scalar weak store has retired when its Drain is performed: the store entered the store buffer (R114). -/
def Ev.buffered (e : Ev) : Bool := e.kind = .drain && e.tile.isNone

/-- A strong event (R104): a Perform, or a point of an engine command. -/
def Ev.strong (e : Ev) : Bool := match e.kind with | .perform | .acqPoint | .relPoint => true | _ => false

/-- The event is an acquire: every younger event waits for it. -/
def Ev.acquires (e : Ev) : Bool :=
  e.kind = .acqPoint || (e.kind = .perform && match e.ord with | .acq _ => true | _ => false)

/-- The event is a release: it waits for every older event. -/
def Ev.releases (e : Ev) : Bool :=
  e.kind = .relPoint || (e.kind = .perform && match e.ord with | .rel _ => true | _ => false)

/-- Where the bytes of a unit lie now: two accesses to one byte may have been placed on either side of its Mark (R106, R113). -/
def EvUnit.now (s : State) (u : EvUnit) : List Nat := u.place.map s.nowAt

/-- Two units touch a common byte. -/
def EvUnit.overlaps (s : State) (u v : EvUnit) : Bool := (u.now s).any fun p => (v.now s).contains p

/-- Every byte of u lies in v. -/
def EvUnit.coveredBy (s : State) (u v : EvUnit) : Bool := (u.now s).all fun p => (v.now s).contains p

/-- A weak Read may forward from an older Drain that covers its bytes (R105, R106). -/
def forwards (s : State) (y : Ev) (u : EvUnit) (x : Ev) (v : EvUnit) : Bool :=
  y.kind = .read && x.kind = .drain && u.coveredBy s v && v.mask.isEmpty

/-- Unit u of event y waits for the older event x (R106). -/
def waitsFor (s : State) (y : Ev) (u : EvUnit) (x : Ev) : Bool :=
  y.releases || x.acquires || (x.strong && y.strong)
    || (y.tile.isSome && y.tile = x.tile)
    || x.units.any fun v => !v.done && u.overlaps s v && !forwards s y u x v

/-- Units of one event that come before unit n and must be performed first: all of them when it is a strong tile access (R104:
elements in row-major order), otherwise those that touch its bytes. The halves of a strong LDQ or STQ come in either order
(R112). -/
def unitWaits (s : State) (y : Ev) (n : Nat) (u : EvUnit) : Bool :=
  (y.units.take n).any fun v => !v.done && ((y.strong && y.tile.isSome) || u.overlaps s v)

/-- An older command of the copy engine, of another context of the core, touches a byte of the unit (R111, R171). -/
def State.copyWaits (s : State) (k : BKey) (y : Ev) (u : EvUnit) : Bool :=
  y.copy && s.blocks.any fun p => p.1.core = k.core && p.1 ≠ k && p.2.evq.any fun x =>
    x.copy && x.id < y.id && x.units.any fun v => !v.done && u.overlaps s v

/-- Unit n of event ev of the block of context k may be performed now. Of a block that a debugger holds stopped only the stores of
its store buffer have been sent: its loads and copy commands wait for it to run again (R342). -/
def State.unitEnabled (s : State) (k : BKey) (b : Block) (ev n : Nat) : Bool :=
  let older := b.evq.takeWhile fun e => e.id ≠ ev
  match b.evq.find? fun e => e.id = ev with
  | none => false
  | some y => match y.units[n]? with
    | none => false
    | some u => !y.waiting && !u.done && !(s.stopped.contains k && !y.buffered) && !unitWaits s y n u && !s.copyWaits k y u
      && !(older.any fun x => waitsFor s y u x)

/-- A point of a queue may be performed now; the release point of an engine command also waits for the command (R111). -/
def pointEnabled (evq : List Ev) (ev : Nat) (engineBusy : Nat → Bool) : Bool :=
  let older := evq.takeWhile fun e => e.id ≠ ev
  match evq.find? fun e => e.id = ev with
  | some y => !y.waiting && match y.kind with
    | .acqPoint => !(older.any fun x => x.strong || x.acquires)
    | .relPoint => older.isEmpty && match y.engine with | some n => !engineBusy n | none => true
    | _ => false
  | none => false

/-- Queues of events that the package holds: of the blocks in contexts, of saved blocks, and what retired blocks left to their engine commands
(R111, R119). -/
def State.eventQueues (s : State) : List (List Ev) :=
  (s.blocks.map fun p => p.2.evq) ++ (s.saved.map fun (x : Saved) => x.evq) ++ s.late

/-! ## Destinations -/

/-- Rights that a chase checks again for an event. -/
def Ev.need (e : Ev) : Need :=
  { rd := e.rights.testBit 0, wr := e.rights.testBit 1, at_ := e.rights.testBit 2, ex := false, mp := false, al := e.al }

/-- The origin record of a fault met by a load at a PC (R97, R321). -/
def FaultInfo.origin (f : FaultInfo) (pc : W32) : Origin :=
  { cause := f.cause, addr := match f.addr with | some (_, a) => a | none => 0, pc := pc, dev := f.dev }

/-- Bits lo to lo + w − 1 of a unit's bytes. -/
def unitBits (bs : List Byte) (lo w : Nat) : Nat := leNat bs / 2 ^ lo % 2 ^ w

/-- Bits of a unit that an element takes: A56 elements take the low 56 of their 8 bytes (R59). -/
def takeElem (fmt : Efmt) (bit : Nat) (bs : List Byte) : Nat := unitBits bs bit fmt.bits

/-- An origin record after a fault of an access: the first poisoning fills it, and of the access that did so it keeps the lowest address
(R97). -/
def lowestOrigin (first : Bool) (old : Option Origin) (o : Origin) : Option Origin :=
  match old with
  | none => some o
  | some p => if first && o.addr.toNat < p.addr.toNat then some o else some p

/-- A poisoning fault at lines of a tile. -/
def Tile.poisonBy (first : Bool) (t : Tile) (ls : List Nat) (o : Origin) : Tile :=
  { t.poisonLines ls (some o) with origin := lowestOrigin first t.origin o }

/-- A loaded element, scale or tile scale goes into a tile, with the fault that poisons it, if any (R93, R176); `win` are the lines of the
window of the access. -/
def Tile.land (first : Bool) (win : List Nat) (t : Tile) (d : UnitDst) (r : Except Origin (List Byte)) : Tile :=
  match d, r with
  | .elem row col bit, .ok bs => { t with elems := t.elems.setIfInBounds (row * t.scols + col) (takeElem t.fmt bit bs) }
  | .elem row col _, .error o => t.poisonBy first (t.linesAt row col) o
  | .scale n, .ok bs => { t with scales := t.scales.setIfInBounds n (leNat bs % 256) }
  | .scale n, .error o => t.poisonBy first (t.scaleLines n) o
  | .tscale, .ok bs => { t with tscale := BitVec.ofNat 32 (leNat bs) }
  | .tscale, .error o => { t.poisonBy first win o with tscale := 0 }
  | .reg _, _ => t

/-- What a performed load unit does to the block's registers or tile (R93, R151, R152). -/
def Block.land (b : Block) (e : Ev) (u : EvUnit) (r : Except FaultInfo (List Byte)) : Block :=
  let v : Except Origin (List Byte) := match r with | .ok bs => .ok bs | .error f => .error (f.origin e.pc)
  match e.dest with
  | .none => b
  | .scalar d => match v with
    | .ok bs => b.putS d (BitVec.ofNat 64 (leNat bs)) false
    | .error o => if d = 0 then b else (b.putS d 0 true).noteOrigin (some o)
  | .pair d =>
    let hi := d + 1
    match v with
    | .ok bs =>
      -- a fault in either half poisons both scalars (R152)
      if e.failed then b else b.putS (if u.dst.contains (.reg 8) then hi else d) (BitVec.ofNat 64 (leNat bs)) false
    | .error o => { (b.putS d 0 true).putS hi 0 true with origin := lowestOrigin e.first b.origin o }
  | .tile t => match b.slotOf t e.slot with
    | none => b
    | some x =>
      let fresh : Tile := if e.units.any fun u => u.done then x
        else { x with poison := x.poison.filter (fun l => !e.clears.contains l), cmp := e.keep, raw := [] }
      -- an element that faults leaves the tile raw (R178)
      let kept : Tile := { fresh with cmp := fresh.cmp && r.isOk }
      b.putSlot t e.slot (u.dst.foldl (fun x d => x.land (e.first || x.origin.isNone) e.lines d v) kept)

/-- The record that an event's faults go to is still clear: the next fault of the event is the first poisoning (R97). -/
def Block.recordClear (b : Block) (e : Ev) : Bool :=
  match e.dest with
  | .tile t => (match b.slotOf t e.slot with | some x => x.origin.isNone | none => false)
  | _ => b.origin.isNone

/-! ## Completing an access -/

/-- The rewrite of a reference register at retirement (R153, R179): the register still holds the value read, OFF of the
register lies in the same moved bale as the access at OFF + disp, and that access was chased to r. -/
def Block.rewriteWith (b : Block) (a : ARef) (image : W64) (disp : Int) (bale : Nat) (r : W64) : Block :=
  if bale ≠ 0 && b.ga a = image && !b.pa a && ((refOff image : Int) + disp) / (bale : Int) = (refOff image : Int) / (bale : Int)
  then b.putA a (mkRef (refH r) (((refOff r : Int) - disp) % (2 ^ 44)).toNat) false
  else b

/-- A store that can trap no more but for a device that does not answer (R321): a scalar weak store, and the second half of a strong STQ, all of
whose checks came before the first was written (R152; DESIGN CHOICE, log 15: a half that a later chase cannot perform is lost as R114 says). -/
def Ev.pastTrap (e : Ev) : Bool :=
  e.buffered || (e.kind = .perform && e.tile.isNone && e.rmw.isNone && e.units.any fun u => u.done)

/-- The rewrite that a completed access makes; none for a store that has retired (R114). -/
def Block.rewriteRef (b : Block) (e : Ev) : Block :=
  if e.buffered then b
  else match e.ref, e.chased with
  | some (a, image, disp), some r => b.rewriteWith a image disp e.bale r
  | _, _ => b

/-- An access all of whose units are performed leaves the queue: the rewrite, then CLMP and PWB (R171). -/
def Block.complete (b : Block) (e : Ev) : Block :=
  if e.units.all fun u => u.done then
    let b0 : Block := { b with evq := b.evq.filter fun x => x.id ≠ e.id }
    (b0.rewriteRef e).raise ((if e.clmp then flCLMP else 0) ||| (if e.pwb then flPWB else 0))
  else b

/-- An event with one more unit performed. -/
def Ev.mark (e : Ev) (n : Nat) : Ev := { e with units := e.units.modify n fun u => { u with done := true } }

/-- The event in its queue after unit n is performed; `chased` notes the end of a chase of the access at offset e. -/
def Block.markUnit (b : Block) (e : Ev) (n : Nat) (chased : Option W64) (failed first : Bool) (hops : Nat) : Block :=
  let atE : Bool := match e.ref, e.units[n]? with
    | some (_, image, disp), some u => u.image = mkRef (refH image) (((refOff image : Int) + disp) % (2 ^ 44)).toNat
    | _, _ => false
  let e1 : Ev := { e.mark n with
    chased := if atE then (match chased with | some r => some r | none => e.chased) else e.chased
    failed := e.failed || failed
    first := e.first || first
    hops := e.hops + hops }
  let b1 : Block := { b with evq := b.evq.map fun x => if x.id = e.id then e1 else x }
  b1.complete e1

/-! ## Atomic results (R238, R240) -/

/-- FP32 or BF16 addition of an atomic ALU: round to nearest even, canonical NaN, no flags (R238). -/
def fpAdd (f : Efmt) (v o : Nat) : Nat := (f.round .rne false 0 (Val.add .rne (f.decode v) (f.decode o)).1).1

/-- `new` of R238 for w bytes. -/
def atomNew (op : AOp) (w v o : Nat) : Nat :=
  let m := 2 ^ (8 * w)
  let sv := signedOf (8 * w) v
  let so := signedOf (8 * w) o
  match op with
  | .add => (v + o) % m
  | .smin => if sv ≤ so then v else o
  | .smax => if sv ≤ so then o else v
  | .umin => min v o
  | .umax => max v o
  | .and => v &&& o
  | .or => v ||| o
  | .xor => v ^^^ o
  | .xchg => o
  | .fadd => fpAdd .fp32 v o
  | .bfadd2 => fpAdd .bf16 (v % 65536) (o % 65536) + 65536 * fpAdd .bf16 (v / 65536) (o / 65536)
  | .incw => if v ≥ o then 0 else v + 1

/-- The value a read-modify-write stores, none when it stores nothing (R238, R240). -/
def RmwOp.store (op : RmwOp) (w v : Nat) : Option Nat :=
  match op with
  | .atom a o => some (atomNew a w v (o.toNat % 2 ^ (8 * w)))
  | .cas x n => if v = x % 2 ^ (8 * w) then some (n % 2 ^ (8 * w)) else none

/-! ## Performing a unit -/

/-- Bytes of a store merged into what the home holds (R112). -/
def mergeBytes (old data mask : List Byte) : List Byte :=
  if mask.isEmpty then data
  else ((old.zip data).zip mask).map fun p => (p.1.1 &&& ~~~ p.2) ||| (p.1.2 &&& p.2)

/-- A load unit takes the youngest older Drain that covers it, or the value at its home (R105). -/
def forwardFrom (s : State) (b : Block) (e : Ev) (u : EvUnit) : Option (List Byte) :=
  let older := (b.evq.takeWhile fun x => x.id ≠ e.id).reverse
  if e.kind ≠ .read then none
  else
    let cover := older.findSome? fun x =>
      if x.kind ≠ .drain then none else (x.units.reverse.find? fun v => !v.done && u.coveredBy s v && v.mask.isEmpty)
    cover.map fun v => (u.now s).map fun p => (v.data.getD ((v.now s).idxOf p) 0)

/-- ID of a block for ring entries (R318). -/
def Block.who (b : Block) : BlkId := { launch := b.launch, blklin := b.blklin }

/-- The reference image at which a chase that fails stops: that of the place whose checks fail, or of the fourth waymark's line (R114,
R279). -/
def chaseStop (s : State) (e : Env) (need : Need) : Nat → W64 → Nat → W64
  | 0, image, _ => image
  | n + 1, image, home => match s.markAt home with
    | none => image
    | some m =>
      let r := mkRef (refH m.newref) (refOff m.newref + refOff image % 128)
      match (checkHandle s e r need).andThen fun s h =>
          if !inBound (refOff r) 1 h.bound then .bad s (FaultInfo.atRef causeBound r) else placeByte s e h r need with
      | .ok s p => chaseStop s e need n r p
      | _ => r

/-- The first byte of a unit whose chase fails, as its image and home address. -/
def stoppedByte (s : State) (e : Env) (need : Need) (start : W64) : W64 → List Nat → Option (W64 × Nat)
  | _, [] => none
  | image, p :: ps => match chase s e need start 3 image p with
    | .ok _ _ => stoppedByte s e need start (image + 1) ps
    | _ => some (image, p)

/-- A weak store that a chase cannot perform is performed nowhere and posted with SRC 8 (R114). -/
def lostStore (s : State) (b : Block) (env : Env) (need : Need) (u : EvUnit) (f : FaultInfo) : State :=
  let at_ := match stoppedByte s env need u.image u.image u.place with
    | some (image, home) => chaseStop s env need 3 image home
    | none => u.image
  postCtxFault s (s.ctxNumOf b) 8 f.cause at_ b.who.num

/-- An access that has left its queue is sampled by the monitors of the issuing core's die with its chases (R327 source 5); one that traps is
sampled at its trap. -/
def sampleChase (s : State) (k : BKey) (e : Ev) (hops : Nat) : State :=
  match s.block? k with
  | none => s
  | some b => if b.evq.any fun x => x.id = e.id then s else monitorSample s (s.dieOf k.core) 5 (e.hops + hops)

/-- Expand of the blocks that hold home addresses, without a write (R117: a compare that fails is still a Perform). -/
def State.expandHomes (s : State) (ps : List Nat) : State := ps.foldl (fun s p => s.expandAt p) s

/-- A strong read of 8 bytes that is made at once: it is checked anew, chased, and a Perform at the home (R105, R117). -/
def strongRead (s : State) (e : Env) (image : W64) : Res W64 :=
  let need := Need.load.scalar 8
  (locate s e (refH image) (refOff image) 8 true need).andThen fun s l =>
    let done : Res W64 := (readUnit s e need l.2.1 l.2.2).andThen fun s r =>
      .ok (s.expandHomes (l.2.2.map s.nowAt)) (BitVec.ofNat 64 (leNat r.2))
    done.sampled e (s.unitHops l.2.2)

/-- The reference register of an event, for AREF (R98). -/
def Ev.arefNum (e : Ev) : Nat := match e.ref with | some (a, _) => a.val | none => 0

/-- The window element that a tile store's unit writes first, for TILE, ROW and COL (R98). -/
def Ev.element (e : Ev) (u : EvUnit) : Option (TReg × Nat × Nat) :=
  match e.tile, u.dst with
  | some t, .elem r c _ :: _ => some (t, r, c)
  | some t, _ => some (t, 0, 0)
  | none, _ => none

/-- A strong STQ completes the relocation checks of both halves before it writes either (R152): its units where they lie now. -/
def checkHalves (s : State) (e : Env) (need : Need) (us : List EvUnit) : Res (List EvUnit) :=
  match us with
  | [u, v] =>
    if u.done || v.done then .ok s us
    else
      (chaseAll s e need u.image u.image u.place).andThen fun s r =>
        (chaseAll s e need v.image v.image v.place).andThen fun s q =>
          .ok s [{ u with image := r.1.getD u.image, place := r.2 }, { v with image := q.1.getD v.image, place := q.2 }]
  | _ => .ok s us

/-- The coding block of a tile's storage that holds an element, each row of which begins at a byte. -/
def Tile.codingBlock (t : Tile) (r c : Nat) : Nat :=
  (if t.lay = .col then c * runBytes t.fmt t.srows + r * t.fmt.bits / 8 else r * runBytes t.fmt t.scols + c * t.fmt.bits / 8) / 512

/-- A unit of a load that keeps its tile compressed: the coding blocks that it receives raw (R178). -/
def Block.noteRaw (b : Block) (s : State) (e : Ev) (u : EvUnit) : Block :=
  match e.dest with
  | .tile t =>
    (match b.slotOf t e.slot with
      | some x =>
        if e.keep && u.place.any fun p => (kvGet (p / 512) s.coded).isNone then
          let note (l : List Nat) (d : UnitDst) : List Nat := match d with
            | .elem r c _ => insertNat (x.codingBlock r c) l
            | _ => l
          b.putSlot t e.slot { x with raw := u.dst.foldl note x.raw }
        else b
      | none => b)
  | _ => b

/-- Units of a load that are performed in the same step as unit n: those of one compressed coding block, which arrives as of one step
(R117, R178). -/
def Ev.mates (s : State) (e : Ev) (n : Nat) : List Nat :=
  let block (m : Nat) : Option Nat := match e.units[m]? with
    | some u => (match u.place with | p :: _ => if (kvGet (p / 512) s.coded).isSome then some (p / 512) else none | [] => none)
    | none => none
  if !e.keep || (block n).isNone then [n]
  else n :: (List.range e.units.length).filter fun m => m ≠ n && block m = block n

/-- Performs unit n of event e of block k (R105): the state afterwards. A store or atomic that meets a fault traps, unless all its checks have
passed: then it is lost under R114, or traps for a device that does not answer (R321). A load poisons. A Perform expands the coding
blocks that it touches (R117). -/
def performUnit (s : State) (k : BKey) (b : Block) (e : Ev) (n : Nat) : State :=
  match e.units[n]? with
  | none => s
  | some u =>
    let env := { s.envOf k b with drain := e.buffered }
    let hops := s.unitHops u.place
    let land (s : State) (chased : Option W64) (hops : Nat) (r : Except FaultInfo (List Byte)) : State :=
      match s.block? k with
      | none => s
      | some b =>
        let failed := !r.isOk
        sampleChase (s.setBlock k (((b.land e u r).noteRaw s e u).markUnit e n chased failed (failed && b.recordClear e) hops)) k e hops
    let landed (s : State) (chased : Option W64) (r : Except FaultInfo (List Byte)) : State := land s chased hops r
    let trapped (s : State) (f : FaultInfo) : State :=
      match s.block? k with
      | none => s
      | some b => killUpTo (monitorSample s (s.dieOf k.core) 5 (e.hops + hops)) k b e.id { f with aref := e.arefNum, tile := e.element u } e.pc
    match u.bad with
    | some f =>
      if u.data.isEmpty && e.rmw.isNone then landed s none (.error f)
      else if e.pastTrap then landed (postCtxFault s (s.ctxNumOf b) 8 f.cause u.image b.who.num) none (.ok [])
      else trapped s f
    | none =>
      if u.zero then landed s none (.ok (List.replicate 16 0))
      else match e.rmw with
        | some op =>
          match chaseAll s env e.need u.image u.image u.place with
          | .wait s => s
          | .bad s f => trapped s f
          | .ok s (ch, ps) =>
            if ps.any fun p => s.eccAt p then trapped (s.firedHomes ps) (FaultInfo.atRef causeEcc (ch.getD u.image))
            else
              let v := leNat (s.readHomes ps)
              let s := match op.store ps.length v with
                | some x => s.writeHomes ps (leBytes ps.length x)
                | none => s.expandHomes ps
              match s.block? k with
              | none => s
              | some b =>
                let b := match e.dest with
                  | .scalar d => b.putS d (BitVec.ofNat 64 v) false
                  | .pair d => (b.putS d (BitVec.ofNat 64 v) false).putS (d + 1) (BitVec.ofNat 64 (v / 2 ^ 64)) false
                  | _ => b
                sampleChase (s.setBlock k (b.markUnit e n ch false false hops)) k e hops
        | none =>
          if u.data.isEmpty then
            match forwardFrom s b e u with
            | some bs => land s none 0 (.ok bs)
            | none => match readUnit s env e.need u.image u.place with
              | .wait s => s
              | .bad s f => landed s none (.error f)
              | .ok s (ch, bs) => landed (if e.kind = .perform then s.expandHomes (u.now s) else s) ch (.ok bs)
          else
            match (if e.strong && e.tile.isNone then (checkHalves s env e.need e.units).andThen fun s _ => .ok s () else .ok s ()).andThen
                fun s _ => chaseAll s env e.need u.image u.image u.place with
            | .wait s => s
            | .bad s f =>
              if e.pastTrap && !f.remote then landed (lostStore s b env e.need u f) none (.ok [])
              else trapped s f
            | .ok s (ch, ps) => landed (s.writeHomes ps (mergeBytes (s.readHomes ps) u.data u.mask)) ch (.ok [])

/-- Performs a point: it leaves the queue. -/
def performPoint (s : State) (k : BKey) (ev : Nat) : State :=
  match s.block? k with
  | none => s
  | some b => s.setBlock k { b with evq := b.evq.filter fun x => x.id ≠ ev }

/-- A bindery command has made its last access (R111). -/
def BindCmd.done (c : BindCmd) : Bool := c.taken && c.codes.isEmpty && c.parts ≤ c.at_ && c.learns.isNone

/-- An engine command placed by a block has not made its last read or write: it stands on a link, bindery or Drover queue
(R111). -/
def State.engineBusy (s : State) (n : Nat) : Bool :=
  let busy (d : Die) : Bool :=
    (d.link.any fun c => c.id = n && !c.copied) || (d.bind.any fun c => c.id = n && !c.done) || (d.dqueue.any fun c => c.id = n)
      || (match d.running with | some r => r.cmd.id = n && r.line < r.lines | none => false)
      || (d.quar.any fun q => q.cmd.id = n && !q.cleared)
  busy s.die0 || busy s.die1

/-! ## Settling the queue in program order -/

/-- Performs every unit that is enabled, in order, of one event. -/
def settleUnits (s : State) (k : BKey) (ev : Nat) : List Nat → State
  | [] => s
  | n :: ns =>
    let s' := match s.block? k with
      | some b => (match b.ended, b.evq.find? fun e => e.id = ev with
        | _, some e => if s.unitEnabled k b ev n then performUnit s k b e n else s
        | _, none => s)
      | none => s
    settleUnits s' k ev ns

/-- Performs what is enabled of the events of a queue, oldest first. -/
def settleEvents (s : State) (k : BKey) : List Ev → State
  | [] => s
  | e :: es =>
    let s' := match e.kind with
      | .acqPoint | .relPoint => (match s.block? k with
        | some b => if pointEnabled b.evq e.id s.engineBusy then performPoint s k e.id else s
        | none => s)
      | _ => settleUnits s k e.id (List.range e.units.length)
    settleEvents s' k es

/-- Performs a block's queued events in program order, as far as they can be: one run of the machine of R105. -/
def settle (s : State) (k : BKey) : State :=
  match s.block? k with
  | some b => settleEvents s k b.evq
  | none => s

/-- Every queued event of a block has been performed. -/
def State.settled (s : State) (k : BKey) : Bool :=
  match s.block? k with
  | some b => b.evq.isEmpty
  | none => true

/-- Some queued event of a block meets a condition. -/
def State.pending (s : State) (k : BKey) (p : Ev → Bool) : Bool :=
  match s.block? k with
  | some b => b.evq.any p
  | none => false

/-- Performs the queued events that meet a condition; when they wait for others, the whole queue in program order. -/
def settleWhere (s : State) (k : BKey) (p : Ev → Bool) : State :=
  match s.block? k with
  | none => s
  | some b =>
    let s1 := settleEvents s k (b.evq.filter p)
    if s1.pending k p then settle s1 k else s1

/-- Runs a meaning on the active block once no queued event meets a condition; until then the block waits. -/
def afterSettling (p : Ev → Bool) (s : State) (f : State → BKey → Block → Out) : Out :=
  onBlock s fun k _ =>
    let s1 := settleWhere s k p
    match s1.block? k with
    | none => .next s1
    | some b => if s1.pending k p || b.ended.isSome then .next s1 else f s1 k b

/-- Home addresses of a range now, faulting pages left out: for what an access waits for, or the commands of one queue (R106,
R111). -/
def rangeHomes (s : State) (e : Env) (image : W64) (n : Nat) : List Nat :=
  (List.range n).filterMap fun i =>
    let im := image + BitVec.ofNat 64 i
    match (readHandle s e im).andThen fun s h => placeByte s e h im Need.none with
    | .ok _ p => some p
    | _ => none

/-- Home addresses that the accesses of a meaning reach, for a block with queued events. -/
abbrev Reach := State → BKey → Block → List Nat

/-- A reach, needed only when something is queued. -/
def Reach.now (r : Reach) (s : State) (k : BKey) (b : Block) : List Nat := if b.evq.isEmpty then [] else r s k b

/-- An access to the bytes at ps waits for the queued event e (R106): an acquire, a strong event when the access is strong, and an
access to a common byte. -/
def Ev.precedes (strong : Bool) (s : State) (ps : List Nat) (e : Ev) : Bool :=
  e.acquires || (strong && e.strong) || e.units.any fun u => !u.done && (u.now s).any fun p => (ps.map s.nowAt).contains p

/-- Runs a meaning that makes accesses itself once what they wait for has been performed. -/
def afterOlder (strong : Bool) (r : Reach) (s : State) (f : State → BKey → Block → Out) : Out :=
  onBlock s fun k b => afterSettling (Ev.precedes strong s (r.now s k b)) s f

/-! ## Meanings of the event rows -/

/-- A turn of one queued unit, when its waits are satisfied and it is of the kind named (R105, R106). -/
def takeUnit (kind : EvKind) (k : BKey) (ev u : Nat) (s : State) : Out :=
  match s.block? k with
  | none => .next s
  | some b => match b.evq.find? fun e => e.id = ev with
    | none => .next s
    | some e => if e.kind = kind && s.unitEnabled k b ev u then .next (settleUnits s k ev (e.mates s u)) else .next s

/-- A point of a saved or retired block is performed: it leaves its queue. -/
def State.dropPoint (s : State) (ev : Nat) : State :=
  let left (q : List Ev) : List Ev := q.filter fun e => e.id ≠ ev
  { s with
    saved := s.saved.map fun x => { x with evq := left x.evq }
    late := (s.late.map left).filter fun q => !q.isEmpty }

/-- A turn of a point of an engine command (R111). Of a block that a debugger holds stopped only the commands placed on an engine have been
sent (R342). -/
def takePoint (kind : EvKind) (k : BKey) (ev : Nat) (s : State) : Out :=
  let ready (q : List Ev) (e : Ev) : Bool := e.kind = kind && pointEnabled q ev s.engineBusy
  match (s.block? k).bind fun b => (b.evq.find? fun e => e.id = ev).map fun e => (b.evq, e) with
  | some (q, e) => if ready q e && !(s.stopped.contains k && e.engine.isNone) then .next (performPoint s k ev) else .next s
  | none =>
    if ((s.saved.map fun (x : Saved) => x.evq) ++ s.late).any fun q => q.any fun e => e.id = ev && ready q e
    then .next (s.dropPoint ev) else .next s

/-- READ: a weak load unit takes its value (R105). -/
def execRead (k : BKey) (ev u : Nat) (s : State) : Out := takeUnit .read k ev u s

/-- DRAIN: a weak store unit writes its bytes at the home (R105, R114). -/
def execDrain (k : BKey) (ev u : Nat) (s : State) : Out := takeUnit .drain k ev u s

/-- PERFORM: a strong access happens at the home in one step (R105). -/
def execPerform (k : BKey) (ev u : Nat) (s : State) : Out := takeUnit .perform k ev u s

/-- ACQUIRE_POINT of an engine command or tile access (R111). -/
def execAcquirePoint (k : BKey) (ev : Nat) (s : State) : Out := takePoint .acqPoint k ev s

/-- RELEASE_POINT of an engine command or tile access (R111). -/
def execReleasePoint (k : BKey) (ev : Nat) (s : State) : Out := takePoint .relPoint k ev s

/-- EXPAND: the home rewrites the coded block at an address as raw lines (R117). -/
def execExpand (pa : Nat) (s : State) : Out := .next (s.expandAt pa)

/-! ## Queueing an access -/

/-- A fresh name for an event or command. -/
def State.freshId (s : State) : State × Nat := ({ s with evSeq := s.evSeq + 1 }, s.evSeq)

/-- An event with no options set. -/
def Ev.plain (id : Nat) (kind : EvKind) (pc : W32) (ord : MemOrd) : Ev :=
  { id := id, kind := kind, pc := pc, ord := ord, units := [], dest := .none, rmw := none, ref := none, chased := none,
    rights := 0, atHome := false, engine := none, tile := none, bale := 0, clmp := false, pwb := false, failed := false,
    first := false, al := 1, hops := 0, clears := [], keep := false, slot := 0, copy := false,
    lines := [], waiting := false }

/-- A unit of a load. -/
def EvUnit.load (image : W64) (place : List Nat) (dst : List UnitDst) : EvUnit :=
  { image := image, place := place, data := [], mask := [], bad := none, dst := dst, zero := false, done := false }

/-- A unit of a store. -/
def EvUnit.store (image : W64) (place : List Nat) (data mask : List Byte) : EvUnit :=
  { image := image, place := place, data := data, mask := mask, bad := none, dst := [], zero := false, done := false }

/-- An event appended to a block's queue. -/
def Block.enqueue (b : Block) (e : Ev) : Block := { b with evq := b.evq ++ [e] }

end Sys2Proof.Machine
end

