-- ==== Sys2Proof/Machine/LoadStore.lean ====
section
/-! DEFINITION. Scalar loads and stores (R150 to R153), LDA and STL (R241). Each places its access on the block's queue after
every check of R81 has been made; a load that meets a fault poisons its destination, a store traps. -/

namespace Sys2Proof.Machine

/-- Offset e = OFF + disp of an access, exactly (R75). -/
def accessOff (image : W64) (disp : Int) : Int := (refOff image : Int) + disp

/-- The trap of a poisoned scalar, its record that of the scalar and reference file (R96, R97). -/
def Block.scalarPoison (b : Block) : FaultInfo := FaultInfo.poisoned b.origin 0 none

/-- The trap of a poisoned reference register (R81 step 1, R96). -/
def Block.refPoison (b : Block) (a : ARef) : FaultInfo := FaultInfo.poisoned b.origin a.val none

/-- Units of a scalar access: LDQ and STQ have two 8-byte halves, every other access one unit (R112). -/
def scalarUnits (image : W64) (places : List Nat) (n : Nat) (halves : Bool) (data : List Byte) : List EvUnit :=
  let one (off len : Nat) (dst : UnitDst) : EvUnit :=
    { EvUnit.load (image + BitVec.ofNat 64 off) ((places.drop off).take len) [dst] with data := (data.drop off).take len }
  if halves then [one 0 8 (.reg 0), one 8 8 (.reg 8)] else [one 0 n (.reg 0)]

/-- The kind and strength of a queued scalar access (R104). -/
def loadKind (ord : MemOrd) : EvKind := match ord with | .weak => .read | _ => .perform
def storeKind (ord : MemOrd) : EvKind := match ord with | .weak => .drain | _ => .perform

/-- A load of n bytes to s[d], or of 16 to the pair s[d], s[d+1] (R151, R152). -/
def scalarLoad (n : Nat) (pair atHome : Bool) (d : SReg) (aref : ARef) (ord : MemOrd) (disp : BitVec 24) (s : State) : Out :=
  onBlock s fun k b =>
    if b.pa aref then trapOut s k b (b.refPoison aref)
    else
      let image := b.ga aref
      match locate s (s.envOf k b) (refH image) (accessOff image disp.toInt) n (n != 1) Need.load with
      | .wait s => .next s
      | .bad s f =>
        let o := some (f.origin b.pc)
        let b1 := b.putS d 0 true
        let b2 := if pair then b1.putS (d + 1) 0 true else b1
        .next (s.setBlock k (if d = 0 && !pair then b else b2.noteOrigin o).advance)
      | .ok s (h, im, ps) =>
        let (s, id) := s.freshId
        let e : Ev := { Ev.plain id (loadKind ord) b.pc ord with
          units := scalarUnits im ps n pair []
          dest := if pair then .pair d else .scalar d
          ref := some (aref, image, disp.toInt)
          rights := 1
          al := n
          atHome := atHome
          bale := baleSize h.mcls }
        .next (s.setBlock k (b.enqueue e).advance)

/-- The relocation checks of a weak store, which end before it retires (R81 step 7, R114): its units at the places where they
are chased to, and the image at which the chase of its first byte ended. -/
def chaseStore (s : State) (e : Env) (n : Nat) : List EvUnit → Res (List EvUnit × Option W64)
  | [] => .ok s ([], none)
  | u :: us => (chaseAll s e (Need.store.scalar n) u.image u.image u.place).andThen fun s r =>
    (chaseStore s e n us).andThen fun s rest =>
      .ok s ({ u with image := r.1.getD u.image, place := r.2 } :: rest.1, r.1)

/-- A store of n bytes of s[d], or of the 16 bytes of a pair (R151, R152). A weak store chases its reference before it retires,
and rewrites it then (R153); a strong one is chased where it is performed. -/
def scalarStore (n : Nat) (pair atHome : Bool) (d : SReg) (aref : ARef) (ord : MemOrd) (disp : BitVec 24) (s : State) : Out :=
  onBlock s fun k b =>
    if b.pa aref then trapOut s k b (b.refPoison aref)
    else if b.ps d || (pair && b.ps (d + 1)) then trapOut s k b b.scalarPoison
    else
      let image := b.ga aref
      match locate s (s.envOf k b) (refH image) (accessOff image disp.toInt) n (n != 1) Need.store with
      | .wait s => .next s
      | .bad s f => trapOut s k b { f with aref := aref.val }
      | .ok s (h, im, ps) =>
        let data := if pair then leBytes 8 (b.gs d).toNat ++ leBytes 8 (b.gs (d + 1)).toNat else leBytes n (b.gs d).toNat
        let units := scalarUnits im ps n pair data
        match (if ord = .weak then chaseStore s (s.envOf k b) n units else .ok s (units, none)) with
        | .wait s => .next s
        | .bad s f => trapOut s k b { f with aref := aref.val }
        | .ok s (us, chased) =>
          let (s, id) := s.freshId
          let b1 := match chased with
            | some r => b.rewriteWith aref image disp.toInt (baleSize h.mcls) r
            | none => b
          let e : Ev := { Ev.plain id (storeKind ord) b.pc ord with
            units := us
            ref := some (aref, image, disp.toInt)
            rights := 2
            al := n
            hops := s.unitHops ps
            atHome := atHome
            bale := baleSize h.mcls }
          .next (s.setBlock k (b1.enqueue e).advance)

/-- LD.B (R150 to R153). -/
def execLdB (d : SReg) (aref : ARef) (ord : MemOrd) (disp : BitVec 24) (s : State) : Out := scalarLoad 1 false false d aref ord disp s

/-- LD.H (R150 to R153). -/
def execLdH (d : SReg) (aref : ARef) (ord : MemOrd) (disp : BitVec 24) (s : State) : Out := scalarLoad 2 false false d aref ord disp s

/-- LD.W (R150 to R153). -/
def execLdW (d : SReg) (aref : ARef) (ord : MemOrd) (disp : BitVec 24) (s : State) : Out := scalarLoad 4 false false d aref ord disp s

/-- LD.D (R150 to R153). -/
def execLdD (d : SReg) (aref : ARef) (ord : MemOrd) (disp : BitVec 24) (s : State) : Out := scalarLoad 8 false false d aref ord disp s

/-- LDQ (R150 to R153). -/
def execLdq (d : SReg) (aref : ARef) (ord : MemOrd) (disp : BitVec 24) (s : State) : Out := scalarLoad 16 true false d aref ord disp s

/-- ST.B (R150 to R153). -/
def execStB (d : SReg) (aref : ARef) (ord : MemOrd) (disp : BitVec 24) (s : State) : Out := scalarStore 1 false false d aref ord disp s

/-- ST.H (R150 to R153). -/
def execStH (d : SReg) (aref : ARef) (ord : MemOrd) (disp : BitVec 24) (s : State) : Out := scalarStore 2 false false d aref ord disp s

/-- ST.W (R150 to R153). -/
def execStW (d : SReg) (aref : ARef) (ord : MemOrd) (disp : BitVec 24) (s : State) : Out := scalarStore 4 false false d aref ord disp s

/-- ST.D (R150 to R153). -/
def execStD (d : SReg) (aref : ARef) (ord : MemOrd) (disp : BitVec 24) (s : State) : Out := scalarStore 8 false false d aref ord disp s

/-- STQ (R150 to R153). -/
def execStq (d : SReg) (aref : ARef) (ord : MemOrd) (disp : BitVec 24) (s : State) : Out := scalarStore 16 true false d aref ord disp s

/-- LDA: as LD.D, performed at the home (R241). -/
def execLda (d : SReg) (aref : ARef) (ord : MemOrd) (disp : BitVec 24) (s : State) : Out := scalarLoad 8 false true d aref ord disp s

/-- STL: as ST.D, performed at the home (R241). -/
def execStl (d : SReg) (aref : ARef) (ord : MemOrd) (disp : BitVec 24) (s : State) : Out := scalarStore 8 false true d aref ord disp s

end Sys2Proof.Machine
end

