-- ==== Sys2Proof/Machine/Atomics.lean ====
section
/-! DEFINITION. Atomics, FENCE and WAITV (R236 to R246). -/

namespace Sys2Proof.Machine

/-! ## ATOM, CAS, CAS16 -/

/-- A read-modify-write of n bytes: the checks of R81 and R239, then one Perform on the block's queue (R236). `operands` are
the scalars whose poison traps. -/
def atomicAccess (n : Nat) (pair : Bool) (d : SReg) (aref : ARef) (ord : MemOrd) (disp : BitVec 24) (operands : List SReg)
    (op : Block → RmwOp) (s : State) : Out :=
  onBlock s fun k b =>
    if b.pa aref then trapOut s k b (b.refPoison aref)
    else if operands.any b.ps then trapOut s k b b.scalarPoison
    else
      let image := b.ga aref
      match locate s (s.envOf k b) (refH image) (accessOff image disp.toInt) n true Need.atomic with
      | .wait s => .next s
      | .bad s f => trapOut s k b { f with aref := aref.val }
      | .ok s (h, im, ps) =>
        let (s, id) := s.freshId
        let e : Ev := { Ev.plain id .perform b.pc ord with
          units := [EvUnit.load im ps [.reg 0]]
          dest := if pair then .pair d else .scalar d
          rmw := some (op b)
          ref := some (aref, image, disp.toInt)
          rights := 7
          al := n
          bale := baleSize h.mcls }
        .next (s.setBlock k (b.enqueue e).advance)

/-- ATOM.W (R237 to R239). -/
def execAtomW (op : AOp) (d : SReg) (aref : ARef) (b : SReg) (ord : MemOrd) (disp : BitVec 24) (s : State) : Out :=
  atomicAccess 4 false d aref ord disp [b] (fun x => .atom op (x.gs b)) s

/-- ATOM.D (R237 to R239). -/
def execAtomD (op : AOp) (d : SReg) (aref : ARef) (b : SReg) (ord : MemOrd) (disp : BitVec 24) (s : State) : Out :=
  atomicAccess 8 false d aref ord disp [b] (fun x => .atom op (x.gs b)) s

/-- CAS.W (R239, R240). -/
def execCasW (d : SReg) (aref : ARef) (b c : SReg) (ord : MemOrd) (disp : BitVec 24) (s : State) : Out :=
  atomicAccess 4 false d aref ord disp [b, c] (fun x => .cas (x.gs b).toNat (x.gs c).toNat) s

/-- CAS.D (R239, R240). -/
def execCasD (d : SReg) (aref : ARef) (b c : SReg) (ord : MemOrd) (disp : BitVec 24) (s : State) : Out :=
  atomicAccess 8 false d aref ord disp [b, c] (fun x => .cas (x.gs b).toNat (x.gs c).toNat) s

/-- s[r] + 2^64 × s[r + 1] (R240). -/
def Block.pairValue (b : Block) (r : SReg) : Nat := (b.gs r).toNat + 2 ^ 64 * (b.gs (r + 1)).toNat

/-- CAS16 (R239, R240). -/
def execCas16 (d : SReg) (aref : ARef) (b c : SReg) (ord : MemOrd) (disp : BitVec 24) (s : State) : Out :=
  atomicAccess 16 true d aref ord disp [b, b + 1, c, c + 1] (fun x => .cas (x.pairValue b) (x.pairValue c)) s

/-! ## FENCE -/

/-- FENCE: every older event of the block is performed first (R106, R242). Until that can be, the block waits. -/
def execFence (_sc : Scope) (s : State) : Out :=
  afterSettling (fun _ => true) s fun s k b => .next (s.setBlock k b.advance)

/-! ## WAITV -/

/-- CMP-compare of a value with the expected one (R243). -/
def waitCompare (cmp : Nat) (v x : W64) : Bool :=
  match cmp with
  | 0 => v = x
  | 1 => v ≠ x
  | _ => x.toNat ≤ v.toNat

/-- The read of an entry in a round, checked under R81 steps 2 to 7 again: whether the entry holds. A failing one carries its index in
FLT3 (R244). -/
def waitRead (s : State) (e : Env) (cmp : Nat) (entry : W64 × W64) (i : Nat) : Res Bool :=
  ((strongRead s e entry.1).mapFault fun f => { f with aux := BitVec.ofNat 64 i }).andThen fun s v => .ok s (waitCompare cmp v entry.2)

/-- MASK with bit i for each entry that held (R243). -/
def maskOfHolds : List Bool → Nat
  | [] => 0
  | h :: hs => h.toNat + 2 * maskOfHolds hs

/-- The condition of a WAITV after a round (R244). -/
def Wait.met (w : Wait) (holds : List Bool) : Bool := if w.all then holds.all id else holds.any id

/-- The result of a WAITV: MASK, and TO when the condition is not met (R243). -/
def Wait.result (w : Wait) (holds : List Bool) : W64 := BitVec.ofNat 64 (maskOfHolds holds + if w.met holds then 0 else 2 ^ 16)

/-- A WAITV retires after a round: the rewrite of its reference register, its result, the next word (R153, R244, R245). -/
def Block.wakeUp (b : Block) (w : Wait) (holds : List Bool) : Block :=
  let b1 : Block := { b with sleep := none }
  let b2 := match w.fix with
    | some (a, image, disp, bale, r) => b1.rewriteWith a image disp bale r
    | none => b1
  (b2.putS w.d (w.result holds) false).advance

/-- The round in progress is the final one: it began at or after the wake-by time (R244). -/
def Wait.late (w : Wait) (now : Nat) : Bool :=
  if w.holds.isEmpty then w.wakeBy ≠ 0 && w.wakeBy.toNat ≤ now else w.final

/-- A WAITV of block k reads the next entry of its round; the reads of a round are no snapshot. After the last of them it retires when
the condition is met or the round is final (R244). -/
def waitRound (s : State) (k : BKey) (b : Block) (w : Wait) : State :=
  match w.table[w.holds.length]? with
  | none => s
  | some entry => match waitRead s (s.envOf k b) w.cmp entry w.holds.length with
    | .wait s => s
    | .bad s f => takeTrap s k { b with sleep := none } f
    | .ok s1 h =>
      let hs := w.holds ++ [h]
      if hs.length < w.table.length then s1.setBlock k { b with sleep := some (.waitv { w with holds := hs, final := w.late s.dtime }) }
      else if w.met hs || w.late s.dtime then s1.setBlock k (b.wakeUp w hs)
      else s1.setBlock k { b with sleep := some (.waitv { w with holds := [], final := false }) }

/-- WAITV_ROUND: a sleeping WAITV goes on with a round (R244, R245). -/
def execWaitvRound (k : BKey) (s : State) : Out :=
  match s.block? k with
  | none => .next s
  | some b => match b.sleep with
    | some (.waitv w) => .next (waitRound s k b w)
    | _ => .next s

/-- Reads the words of the watch table: image and expected value of each entry (R243). -/
def parseTable : Nat → List Byte → List (W64 × W64)
  | 0, _ => []
  | n + 1, bs =>
    (BitVec.ofNat 64 (leNat (bs.take 8)), BitVec.ofNat 64 (leNat ((bs.drop 8).take 8))) :: parseTable n (bs.drop 16)

/-- The checks of each entry at issue, in entry order (R244 step 4). -/
def checkTable (s : State) (e : Env) : List (W64 × W64) → Nat → Res Unit
  | [], _ => .ok s ()
  | (image, _) :: rest, i =>
    (((locate s e (refH image) (refOff image) 8 true (Need.load.scalar 8)).andThen fun s l => chaseAll s e (Need.load.scalar 8) l.2.1 l.2.1 l.2.2).mapFault
      fun f => { f with aux := BitVec.ofNat 64 i }).andThen fun s _ => checkTable s e rest (i + 1)

/-- Bytes of the watch table: N entries of 16 bytes at the displacement (R243). -/
def watchTable (aref : ARef) (b : SReg) (disp : BitVec 24) : Reach := fun s k blk =>
  let im := mkRef (refH (blk.ga aref)) (accessOff (blk.ga aref) disp.toInt % (2 ^ 44)).toNat
  rangeHomes s (s.envOf k blk) im (16 * fld 0 5 (blk.gs b).toNat)

/-- Bytes of the watched words that the table names now. -/
def watchWords (aref : ARef) (b : SReg) (disp : BitVec 24) : Reach := fun s k blk =>
  let table := parseTable (fld 0 5 (blk.gs b).toNat) (s.readHomes (watchTable aref b disp s k blk))
  table.flatMap fun p => rangeHomes s (s.envOf k blk) p.1 8

/-- WAITV (R243 to R245): the checks at issue, the copied table, then the first read of its first round; it sleeps when that
does not end it. -/
def execWaitv (d : SReg) (aref : ARef) (b c : SReg) (ord : MemOrd) (disp : BitVec 24) (s : State) : Out :=
  afterOlder true (watchTable aref b disp) s fun s _ _ =>
    afterOlder true (watchWords aref b disp) s fun s k blk =>
      if blk.pa aref then trapOut s k blk (blk.refPoison aref)
      else if blk.ps b || blk.ps c then trapOut s k blk blk.scalarPoison
      else
        let w := (blk.gs b).toNat
        let n := fld 0 5 w
        let cmp := fld 9 2 w
        if fld 11 53 w ≠ 0 || fld 5 3 w ≠ 0 || cmp = 3 || n = 0 || 16 < n then trapOut s k blk (FaultInfo.plain causeFormat)
        else
          let env := s.envOf k blk
          let image := blk.ga aref
          let off := accessOff image disp.toInt
          let im := mkRef (refH image) (off % (2 ^ 44)).toNat
          let table : Res (HEntry × Option W64 × List Byte) :=
            (checkHandle s env im Need.load).andThen fun s h =>
              if !inBound off (16 * n) h.bound then .bad s (FaultInfo.atRef causeBound im)
              else if (h.base + off.toNat) % 8 ≠ 0 then .bad s (FaultInfo.atVA causeAlign (h.base + off.toNat))
              else (placeBytes s env h im Need.load 2 (16 * n)).andThen fun s ps =>
                ((readUnit s env (Need.load.scalar 8) im ps).andThen fun s r => .ok s (h, r)).sampled env (s.unitHops ps)
          match table with
          | .wait s => .next s
          | .bad s f => trapOut s k blk { f with aref := aref.val }
          | .ok s (h, ch, bs) =>
            let entries := parseTable n bs
            match checkTable s env entries 0 with
            | .wait s => .next s
            | .bad s f => trapOut s k blk f
            | .ok s _ =>
              let w : Wait :=
                { d := d
                  cmp := cmp
                  all := w.testBit 8
                  wakeBy := if c = 0 then 0 else blk.gs c
                  table := entries
                  acq := match ord with | .acq _ => true | _ => false
                  window := s.mgc.params.getD 4 0
                  due := s.dtime + s.mgc.params.getD 4 0
                  fix := ch.map fun r => (aref, image, disp.toInt, baleSize h.mcls, r)
                  final := false
                  holds := [] }
              let blk1 : Block := { blk with sleep := some (.waitv w) }
              .next (waitRound (s.setBlock k blk1) k blk1 w)

end Sys2Proof.Machine
end

