-- ==== Sys2Proof/Machine/Barrier.lean ====
section
/-! DEFINITION. Cluster barriers (R247 to R251). Every operation is a strong event: it follows every older strong event of its
block, and an arrival follows every older tile writer too. -/

namespace Sys2Proof.Machine

/-- What an arrival waits for: older strong events (R106) and tile writers (R250). -/
def barWaits (e : Ev) : Bool := e.strong || match e.dest with | .tile _ => true | _ => false

/-- BARI (R250): E := cnt; arrivals already counted are dropped, with their AP bits. -/
def execBari (bar : BReg) (cnt : Fin 512) (s : State) : Out :=
  afterSettling Ev.strong s fun s k b =>
    let bs := s.barSet k
    let x : Barrier := { bs[bar.val] with e := cnt.val, a := 0, f := false, fc := 0, fcause := 0 }
    let s1 := (s.setBlock k b.advance).setBarSet k (bs.set bar.val x)
    let lift (p : BKey × Block) : BKey × Block :=
      if sameSet k p.1 then (p.1, { p.2 with arrived := p.2.arrived &&& ~~~ BitVec.twoPow 16 bar.val }) else p
    .next ({ s1 with blocks := s1.blocks.map lift }.onSavedSet k b.launch fun (y : Saved) =>
      { y with arrived := y.arrived &&& ~~~ BitVec.twoPow 16 bar.val })

/-- BARA (R250): the first arrival sets E; another count makes a faulted arrival with cause SHAPE. -/
def execBara (bar : BReg) (cnt : Fin 512) (s : State) : Out :=
  afterSettling barWaits s fun s k b =>
    let bs := s.barSet k
    let x := bs[bar.val]
    let x1 : Barrier := if x.e = 0 then { x with e := cnt.val } else x
    let s1 := (s.setBlock k b.advance).setBarSet k (bs.set bar.val x1)
    .next (barArrive s1 k bar (if cnt.val = x1.e then none else some (coreInCluster k.core, causeShape)))

/-- The result word of BARW and BART (R250); `fresh` when the fault fields are those of the phase asked about. -/
def barResult (x : Barrier) (completed fresh : Bool) : W64 :=
  BitVec.ofNat 64 (x.phase.toNat * 2 ^ 32 + completed.toNat * 2 ^ 16
    + if fresh then x.lcause * 2 ^ 8 + x.lfc * 2 + x.lf.toNat else 0)

/-- BARW returns: DN := 0 and s[d] := the result (R250). -/
def barReturn (s : State) (k : BKey) (b : Block) (d : SReg) (bar : BReg) (phase : Nat) : State :=
  let x := (s.barSet k)[bar.val]
  let b1 : Block := { b with sleep := none, doneBar := b.doneBar &&& ~~~ BitVec.twoPow 16 bar.val }
  s.setBlock k (b1.putS d (barResult x true (x.phase.toNat = phase)) false).advance

/-- BARW (R250): returns at once when DN is set, sleeps until the next completion otherwise. -/
def execBarw (d : SReg) (bar : BReg) (s : State) : Out :=
  afterSettling Ev.strong s fun s k b =>
    if b.doneBar.getLsbD bar.val then .next (barReturn s k b d bar b.donePhase[bar.val])
    else .next (s.setBlock k { b with sleep := some (.barw d bar none) })

/-- Parts pending on a barrier. -/
def partOf (bar : BReg) (p : GPart) : Bool := p.bar = bar

/-- The first part that a block sleeping in BARW has accepted (R196). -/
def Block.acceptedPart (b : Block) : Option GPart :=
  match b.sleep with
  | some (.barw _ bar _) => b.parts.find? (partOf bar)
  | _ => none

/-- An accepted part may run: it follows the older instructions of its member, and the read of the shared operand (R196). -/
def Block.partRuns (b : Block) (p : GPart) : Bool := p.ready && b.held.isEmpty && b.msgs.all fun m => m.send

/-- BARW_WAKE: a sleeping BARW returns after a completion (R250), once it has run the part it accepted (R196). -/
def execBarwWake (k : BKey) (s : State) : Out :=
  match s.block? k with
  | none => .next s
  | some b => match b.sleep with
    | some (.barw d bar (some phase)) => if b.acceptedPart.isSome then .next s else .next (barReturn s k b d bar phase.toNat)
    | _ => .next s

/-- BART (R250): the result with DN in bit 16; no other state changes. -/
def execBart (d : SReg) (bar : BReg) (s : State) : Out :=
  afterSettling Ev.strong s fun s k b =>
    .next (s.setBlock k (b.putS d (barResult (s.barSet k)[bar.val] (b.doneBar.getLsbD bar.val) true) false).advance)

end Sys2Proof.Machine
end

