-- ==== Sys2Proof/Machine/Flags.lean ====
section
/-! DEFINITION. The STATUS register: its flag bits, how results set them and how SWR clears them (R6, R69, R127, R128). -/

namespace Sys2Proof.Machine

/-- The write-1-to-clear flags of STATUS, bits [7:0] (R128). -/
def statusFlags : W64 := 0xFF

/-- SWR of STATUS: a 1 clears a W1C flag, a 0 leaves it; SYS, WRAP and the reserved bits ignore the write (R6, R127). -/
def statusWrite (old v : W64) : W64 := old &&& ~~~ (v &&& statusFlags)

/-- Flags that an instruction's active elements raised are set when it retires (R69). -/
def Block.raiseFlags (b : Block) (fl : W64) : Block := b.raise fl

/-- STATUS.DMT of every resident block of a context (R85). -/
def setDemoted (s : State) (ctx : Nat) : State :=
  { s with blocks := s.blocks.map fun p => if s.ctxNumOf p.2 = ctx then (p.1, p.2.raise flDMT) else p }

end Sys2Proof.Machine
end

