-- ==== Sys2Proof/Machine/Scalar.lean ====
section
/-! DEFINITION. The integer instructions (R144 to R147). -/

namespace Sys2Proof.Machine

/-- A result of scalars: written with its poison, and the PC moves on (R94, R147: no flag is raised). -/
def scalarResult (d : SReg) (f : Block → W64) (p : Block → Bool) (s : State) : Out :=
  onBlock s fun k b => .next (s.setBlock k (b.putS d (f b) (p b)).advance)

/-- A result of s[a] and s[b]. -/
def scalar2 (f : W64 → W64 → W64) (d a b : SReg) (s : State) : Out :=
  scalarResult d (fun x => f (x.gs a) (x.gs b)) (fun x => x.ps a || x.ps b) s

/-- A result of s[a]. -/
def scalar1 (f : W64 → W64) (d a : SReg) (s : State) : Out :=
  scalarResult d (fun x => f (x.gs a)) (fun x => x.ps a) s

/-- imm sign-extended (R32). -/
def sx (imm : W32) : W64 := imm.signExtend 64

/-- High 64 bits of the signed product (R145). -/
def mulhSigned (a b : W64) : W64 := BitVec.ofInt 64 (a.toInt * b.toInt / 2 ^ 64)

/-- High 64 bits of the unsigned product (R145). -/
def mulhUnsigned (a b : W64) : W64 := BitVec.ofNat 64 (a.toNat * b.toNat / 2 ^ 64)

/-- Quotient rounded toward zero; by 0 all ones (R146). -/
def divSigned (a b : W64) : W64 := if b = 0 then -1 else BitVec.ofInt 64 (a.toInt.tdiv b.toInt)

/-- Unsigned quotient; by 0 all ones (R146). -/
def divUnsigned (a b : W64) : W64 := if b = 0 then -1 else BitVec.ofNat 64 (a.toNat / b.toNat)

/-- Remainder with the sign of a; by 0 it is a (R146). -/
def remSigned (a b : W64) : W64 := if b = 0 then a else BitVec.ofInt 64 (a.toInt.tmod b.toInt)

/-- Unsigned remainder; by 0 it is a (R146). -/
def remUnsigned (a b : W64) : W64 := if b = 0 then a else BitVec.ofNat 64 (a.toNat % b.toNat)

/-- Shift amount: bits [5:0] (R145). -/
def shamt (b : W64) : Nat := b.toNat % 64

/-- Leading zero bits of a 64-bit value (R145). -/
def leadingZeros (a : W64) : Nat := if a = 0 then 64 else 63 - Nat.log2 a.toNat

/-- One bits of a number below 2^n (R145). -/
def popCount : Nat → Nat → Nat
  | 0, _ => 0
  | n + 1, v => v % 2 + popCount n (v / 2)

/-- BFX: the field, zero-extended or sign-extended from its top bit (R145). -/
def bitField (a : W64) (lo len : Nat) (sgn : Bool) : W64 :=
  let f := a.toNat / 2 ^ lo % 2 ^ len
  if sgn then BitVec.ofInt 64 (signedOf len f) else BitVec.ofNat 64 f

/-- BFI: old with bits [lo + len − 1 : lo] replaced by the low bits of a (R145). -/
def insertField (old a : W64) (lo len : Nat) : W64 :=
  let mask : W64 := BitVec.ofNat 64 ((2 ^ len - 1) * 2 ^ lo)
  (old &&& ~~~ mask) ||| ((a <<< lo) &&& mask)

/-- ADD (R145). -/
def execAdd (d a b : SReg) (s : State) : Out := scalar2 (fun a b => a + b) d a b s

/-- SUB (R145). -/
def execSub (d a b : SReg) (s : State) : Out := scalar2 (fun a b => a - b) d a b s

/-- MUL (R145). -/
def execMul (d a b : SReg) (s : State) : Out := scalar2 (fun a b => a * b) d a b s

/-- MULH (R145). -/
def execMulh (d a b : SReg) (s : State) : Out := scalar2 (fun a b => mulhSigned a b) d a b s

/-- MULHU (R145). -/
def execMulhu (d a b : SReg) (s : State) : Out := scalar2 (fun a b => mulhUnsigned a b) d a b s

/-- DIV (R146). -/
def execDiv (d a b : SReg) (s : State) : Out := scalar2 (fun a b => divSigned a b) d a b s

/-- DIVU (R146). -/
def execDivu (d a b : SReg) (s : State) : Out := scalar2 (fun a b => divUnsigned a b) d a b s

/-- REM (R146). -/
def execRem (d a b : SReg) (s : State) : Out := scalar2 (fun a b => remSigned a b) d a b s

/-- REMU (R146). -/
def execRemu (d a b : SReg) (s : State) : Out := scalar2 (fun a b => remUnsigned a b) d a b s

/-- AND (R145). -/
def execAnd (d a b : SReg) (s : State) : Out := scalar2 (fun a b => a &&& b) d a b s

/-- OR (R145). -/
def execOr (d a b : SReg) (s : State) : Out := scalar2 (fun a b => a ||| b) d a b s

/-- XOR (R145). -/
def execXor (d a b : SReg) (s : State) : Out := scalar2 (fun a b => a ^^^ b) d a b s

/-- SLL (R145). -/
def execSll (d a b : SReg) (s : State) : Out := scalar2 (fun a b => a <<< shamt b) d a b s

/-- SRL (R145). -/
def execSrl (d a b : SReg) (s : State) : Out := scalar2 (fun a b => a >>> shamt b) d a b s

/-- SRA (R145). -/
def execSra (d a b : SReg) (s : State) : Out := scalar2 (fun a b => a.sshiftRight (shamt b)) d a b s

/-- SLT (R145). -/
def execSlt (d a b : SReg) (s : State) : Out := scalar2 (fun a b => if a.toInt < b.toInt then 1 else 0) d a b s

/-- SLTU (R145). -/
def execSltu (d a b : SReg) (s : State) : Out := scalar2 (fun a b => if a.toNat < b.toNat then 1 else 0) d a b s

/-- MIN (R145). -/
def execMin (d a b : SReg) (s : State) : Out := scalar2 (fun a b => if a.toInt ≤ b.toInt then a else b) d a b s

/-- MAX (R145). -/
def execMax (d a b : SReg) (s : State) : Out := scalar2 (fun a b => if a.toInt ≤ b.toInt then b else a) d a b s

/-- CLZ (R145). -/
def execClz (d a : SReg) (s : State) : Out := scalar1 (fun a => BitVec.ofNat 64 (leadingZeros a)) d a s

/-- POPC (R145). -/
def execPopc (d a : SReg) (s : State) : Out := scalar1 (fun a => BitVec.ofNat 64 (popCount 64 a.toNat)) d a s

/-- SEL: the condition s[c] contributes whichever operand it selects (R145, R147). -/
def execSel (d a b c : SReg) (s : State) : Out :=
  scalarResult d (fun x => if x.gs c ≠ 0 then x.gs a else x.gs b) (fun x => x.ps a || x.ps b || x.ps c) s

/-- BFX (R145). -/
def execBfx (d a : SReg) (lo len1 : Fin 64) (sgn : Bool) (s : State) : Out :=
  scalar1 (fun a => bitField a lo.val (len1.val + 1) sgn) d a s

/-- BFI reads s[d] (R145, R147). -/
def execBfi (d a : SReg) (lo len1 : Fin 64) (s : State) : Out :=
  scalarResult d (fun x => insertField (x.gs d) (x.gs a) lo.val (len1.val + 1)) (fun x => x.ps d || x.ps a) s

/-- ADDI (R145). -/
def execAddi (d a : SReg) (imm : W32) (s : State) : Out := scalar1 (fun a => a + sx imm) d a s

/-- ANDI (R145). -/
def execAndi (d a : SReg) (imm : W32) (s : State) : Out := scalar1 (fun a => a &&& sx imm) d a s

/-- ORI (R145). -/
def execOri (d a : SReg) (imm : W32) (s : State) : Out := scalar1 (fun a => a ||| sx imm) d a s

/-- XORI (R145). -/
def execXori (d a : SReg) (imm : W32) (s : State) : Out := scalar1 (fun a => a ^^^ sx imm) d a s

/-- SLLI (R145). -/
def execSlli (d a : SReg) (n : Fin 64) (s : State) : Out := scalar1 (fun a => a <<< n.val) d a s

/-- SRLI (R145). -/
def execSrli (d a : SReg) (n : Fin 64) (s : State) : Out := scalar1 (fun a => a >>> n.val) d a s

/-- SRAI (R145). -/
def execSrai (d a : SReg) (n : Fin 64) (s : State) : Out := scalar1 (fun a => a.sshiftRight n.val) d a s

/-- LI (R145). -/
def execLi (d : SReg) (imm : W32) (s : State) : Out := scalarResult d (fun _ => sx imm) (fun _ => false) s

/-- LIH reads s[d] (R145, R147). -/
def execLih (d : SReg) (imm : W32) (s : State) : Out :=
  scalarResult d (fun x => BitVec.ofNat 64 (imm.toNat * 2 ^ 32 + (x.gs d).toNat % 2 ^ 32)) (fun x => x.ps d) s

end Sys2Proof.Machine
end

