-- ==== Sys2Proof/Machine/Control.lean ====
section
/-! DEFINITION. Fetching words, structured control flow, subroutines, special registers, capabilities and validity (R102, R120 to
R130, R135, R138). -/

namespace Sys2Proof.Machine

/-! ## Fetch (R102) -/

/-- Code reference and code section that a block runs in: its launch's, or the system routine's in system mode. -/
def State.codeOf (s : State) (b : Block) : Option (W64 × Nat × Nat) :=
  match b.sys with
  | some m => some (m.code, m.codeOff, m.codeLen)
  | none => (s.launchOf b).map fun l => (l.man.coderef, l.codeOff, l.codeLen)

/-- The word at a PC: CODE_BOUND outside the code section, before any fetch (R102). -/
def fetchWord (s : State) (k : BKey) (b : Block) (pc : Int) : Res Nat :=
  match s.codeOf b with
  | none => .bad s (FaultInfo.plain causeCodeBound)
  | some (code, off, len) =>
    if pc < off || (off : Int) + len < pc + 8 then .bad s (FaultInfo.plain causeCodeBound)
    else (readRef s (s.envOf k b) code pc 8 false Need.fetch).andThen fun s bs => .ok s (leNat bs)

/-- ILLEGAL or PRIV at an instruction: FLT3 holds its word (R98). -/
def wordFault (cause : Nat) (i : Instr) : FaultInfo :=
  { FaultInfo.plain cause with aux := BitVec.ofNat 64 ((encodeTile i).getD 0) }

/-! ## Control words (R122 to R126) -/

/-- PC + 8 × n as an integer. -/
def pcPlus (b : Block) (n : Int) : Int := (b.pc.toNat : Int) + 8 * n

/-- The PC moved by n words. -/
def Block.jump (b : Block) (n : Int) : Block := { b with pc := BitVec.ofInt 32 (pcPlus b n) }

/-- Runs a control word once the word at PC + 8 × off is of the kind R122 requires; a mismatch traps ILLEGAL and the word has
no effect (R124). DESIGN CHOICE (log 17): a word outside the code section is a mismatch, and a word that cannot be fetched traps the cause of
its fetch at the control word. -/
def withMatch (i : Instr) (off : W32) (signOk : Bool) (kind : Nat → Bool) (s : State) (f : State → BKey → Block → Nat → Out) : Out :=
  onBlock s fun k b =>
    if !signOk then trapOut s k b (wordFault causeIllegal i)
    else match fetchWord s k b (pcPlus b off.toInt) with
      | .wait s => .next s
      | .bad s e => trapOut s k b (if e.cause = causeCodeBound then wordFault causeIllegal i else e)
      | .ok s w => if kind w then f s k b w else trapOut s k b (wordFault causeIllegal i)

/-- The instruction a word decodes to meets a test. -/
def wordIs (p : Instr → Bool) (w : Nat) : Bool := match decodeTile w with | .ok i => p i | .error _ => false

def isElseOrEndif : Instr → Bool
  | .cElse _ | .endif => true
  | _ => false
def isEndif : Instr → Bool
  | .endif => true
  | _ => false
def isEndl : Instr → Bool
  | .endl _ _ => true
  | _ => false

/-- The header that an ENDL with field a closes: LOOP for 0, LOOPC on the same scalar otherwise (R122, R124). -/
def isHeaderOf (a : SReg) : Instr → Bool
  | .loop _ => a = 0
  | .loopc x _ => a ≠ 0 && x = a
  | _ => false

/-- The condition of R123. -/
def condHolds (cc : Cc) (a b : W64) : Bool :=
  match cc with
  | .eq => a = b
  | .ne => a ≠ b
  | .lt => a.toInt < b.toInt
  | .ge => b.toInt ≤ a.toInt
  | .ltu => a.toNat < b.toNat
  | .geu => b.toNat ≤ a.toNat

/-- A condition's outcome moves the PC by words; a poisoned scalar traps POISON before any effect (R96, R123). -/
def branch (s : State) (k : BKey) (x : Block) (cc : Cc) (a b : SReg) (yes no : Int) : Out :=
  if x.ps a || x.ps b then trapOut s k x x.scalarPoison
  else .next (s.setBlock k (x.jump (if condHolds cc (x.gs a) (x.gs b) then yes else no)))

/-- IF (R123). -/
def execCIf (cc : Cc) (a b : SReg) (off : W32) (s : State) : Out :=
  withMatch (.cIf cc a b off) off (0 < off.toInt) (wordIs isElseOrEndif) s fun s k x _ =>
    branch s k x cc a b 1 (off.toInt + 1)

/-- ELSE (R123). -/
def execCElse (off : W32) (s : State) : Out :=
  withMatch (.cElse off) off (0 < off.toInt) (wordIs isEndif) s fun s k x _ => .next (s.setBlock k (x.jump (off.toInt + 1)))

/-- ENDIF (R123). -/
def execEndif (s : State) : Out := onBlock s fun k x => .next (s.setBlock k x.advance)

/-- LOOP (R123). -/
def execLoop (off : W32) (s : State) : Out :=
  withMatch (.loop off) off (0 < off.toInt) (wordIs isEndl) s fun s k x _ => .next (s.setBlock k x.advance)

/-- LOOPC (R123). -/
def execLoopc (a : SReg) (off : W32) (s : State) : Out :=
  withMatch (.loopc a off) off (0 < off.toInt) (wordIs isEndl) s fun s k x _ =>
    if x.ps a then trapOut s k x x.scalarPoison
    else .next (s.setBlock k (x.jump (if x.gs a = 0 then off.toInt + 1 else 1)))

/-- ENDL (R123): counts s[a] down when the header is a LOOPC. -/
def execEndl (a : SReg) (off : W32) (s : State) : Out :=
  withMatch (.endl a off) off (off.toInt < 0) (wordIs (isHeaderOf a)) s fun s k x _ =>
    if a = 0 then .next (s.setBlock k (x.jump (off.toInt + 1)))
    else if x.ps a then trapOut s k x x.scalarPoison
    else
      let n := x.gs a - 1
      .next (s.setBlock k ((x.putS a n false).jump (if n = 0 then 1 else off.toInt + 1)))

/-- BRK (R123). -/
def execBrk (cc : Cc) (a b : SReg) (off : W32) (s : State) : Out :=
  withMatch (.brk cc a b off) off (0 < off.toInt) (wordIs isEndl) s fun s k x _ => branch s k x cc a b (off.toInt + 1) 1

/-- CONT (R123). -/
def execCont (cc : Cc) (a b : SReg) (off : W32) (s : State) : Out :=
  withMatch (.cont cc a b off) off (0 < off.toInt) (wordIs isEndl) s fun s k x _ => branch s k x cc a b off.toInt 1

/-- Return PCs that the call stack holds (R125). -/
def callDepth : Nat := 16

/-- CALL (R125). A push onto a full stack traps ILLEGAL. -/
def execCall (off : W32) (s : State) : Out :=
  onBlock s fun k x =>
    if callDepth ≤ x.calls.length || 0 ≤ off.toInt then trapOut s k x (wordFault causeIllegal (.call off))
    else .next (s.setBlock k ({ x with calls := (x.pc + 8) :: x.calls }.jump off.toInt))

/-- A jump-table header: bits [63:32] zero, 1 to 256 entries (R124, R125). -/
def isTableHeader (w : Nat) : Bool := w / 2 ^ 32 = 0 && 1 ≤ w && w ≤ 256

/-- CALLI (R53, R125): a full call stack is ILLEGAL before the table is fetched and the index is looked at; the index is unsigned, and one
beyond the table faults BOUND with FLT3 := the index. The entry is one word of the code section, of which the low 32 bits are the offset.
DESIGN CHOICE (log 17): an entry that lies outside the code section traps CODE_BOUND at the CALLI, and its bits [63:32] are ignored. -/
def execCalli (a : SReg) (off : W32) (s : State) : Out :=
  onBlock s fun k x =>
    if callDepth ≤ x.calls.length then trapOut s k x (wordFault causeIllegal (.calli a off))
    else withMatch (.calli a off) off (off.toInt < 0) isTableHeader s fun s k x n =>
      if x.ps a then trapOut s k x x.scalarPoison
      else
        let i := (x.gs a).toNat
        if n ≤ i then trapOut s k x { FaultInfo.plain causeBound with aux := x.gs a }
        else match fetchWord s k x (pcPlus x (off.toInt + 1 + i)) with
          | .wait s => .next s
          | .bad s e => trapOut s k x e
          | .ok s w => .next (s.setBlock k ({ x with calls := (x.pc + 8) :: x.calls }.jump (off.toInt + signedOf 32 w)))

/-- RET (R125). A pop from an empty stack traps ILLEGAL. -/
def execRet (s : State) : Out :=
  onBlock s fun k x => match x.calls with
    | [] => trapOut s k x (wordFault causeIllegal .ret)
    | pc :: rest => .next (s.setBlock k { x with pc := pc, calls := rest })

/-- The block has ended by its own word: it retires with a validity once R119 holds; its messages still complete (R253). -/
def Block.exitWith (b : Block) (v : Validity) : Block := { b with ended := some (v, 0) }

/-- The block is in wrap-up (R128). -/
def Block.inWrap (b : Block) : Bool := b.status.getLsbD 8

/-- The context is in system mode (R128). -/
def Block.inSys (b : Block) : Bool := b.status.getLsbD 9

/-- EXIT (R126): NONE in wrap-up, the current validity otherwise. -/
def execExit (s : State) : Out :=
  onBlock s fun k x => .next (s.setBlock k (x.exitWith (if x.inWrap then .none else x.validity)))

/-- TRAP (R135). -/
def execTrap (code : BitVec 16) (s : State) : Out :=
  onBlock s fun k x => trapOut s k x { FaultInfo.plain causeSoftware with aux := code.setWidth 64 }

/-- NOP (R135). -/
def execNop (s : State) : Out := onBlock s fun k x => .next (s.setBlock k x.advance)

/-- YIELD (R135): no effect on state; for 64 cycles another context of the core goes first, which is timing. -/
def execYield (s : State) : Out := onBlock s fun k x => .next (s.setBlock k x.advance)

/-! ## Special registers (R127, R128) -/

/-- BLKID of a linear index in a grid (R121, R128). -/
def blkidWord (m : Manifest) (lin : Nat) : W64 :=
  let x := lin % (m.gx + 1)
  let y := lin / (m.gx + 1) % (m.gy + 1)
  let z := lin / (m.gx + 1) / (m.gy + 1)
  BitVec.ofNat 64 (z % 65536 * 2 ^ 48 + y % 65536 * 2 ^ 32 + x)

/-- BLKDIM of a grid (R128). -/
def blkdimWord (m : Manifest) : W64 := BitVec.ofNat 64 (m.gz * 2 ^ 48 + m.gy * 2 ^ 32 + m.gx)

/-- The deadline that means none (R128). -/
def noDeadline : Nat := 0xFFFFFFFFFFFFFFFF

/-- SLACK (R128): DEADLN − DTIME, saturated; the largest signed value with no deadline. -/
def slackWord (deadline dtime : Nat) : W64 :=
  if deadline = noDeadline then 0x7FFFFFFFFFFFFFFF
  else
    let d : Int := (deadline : Int) - dtime
    BitVec.ofInt 64 (max (-(2 ^ 63)) (min (2 ^ 63 - 1) d))

/-- The value of a special register (R128). -/
def readSpecial (s : State) (k : BKey) (b : Block) (reg : Nat) : W64 :=
  let m := (s.launchOf b).map fun l => l.man
  let deadline := (m.map fun m => m.deadline).getD noDeadline
  let c := s.ctx (s.ctxNumOf b)
  match reg with
  | 0x000 => (m.map fun m => blkidWord m b.blklin).getD 0
  | 0x001 => (m.map fun m => blkdimWord m).getD 0
  | 0x002 => BitVec.ofNat 64 b.launch
  | 0x003 => BitVec.ofNat 64 (coreInCluster k.core)
  | 0x004 => BitVec.ofNat 64 (s.clusterOf k.core)
  | 0x005 => BitVec.ofNat 64 (s.dieOf k.core)
  | 0x006 => s.devid.setWidth 64
  | 0x007 => BitVec.ofNat 64 (s.ctxNumOf b)
  | 0x008 => BitVec.ofNat 64 Config.laneWidth
  | 0x010 => BitVec.ofNat 64 s.dtime
  | 0x011 => BitVec.ofNat 64 deadline
  | 0x012 => slackWord deadline s.dtime
  | 0x013 => BitVec.ofNat 64 (if b.inWrap then b.wbend - s.dtime else (m.map fun m => m.budget).getD 0)
  | 0x014 => b.wpc.setWidth 64
  | 0x015 => BitVec.ofNat 64 (b.wcause % 2 ^ 8)
  | 0x020 => b.flt.flt0
  | 0x021 => b.flt.flt1
  | 0x022 => b.flt.flt2
  | 0x023 => b.flt.flt3
  | 0x030 => b.status
  | 0x031 => b.gang
  | 0x032 => b.seed
  | 0x100 => c.htb
  | 0x101 => c.htn
  | 0x103 => c.xroot
  | 0x104 => s.saveaOf k
  | _ => 0

/-- System-only registers (R128). -/
def systemOnly (reg : Nat) : Bool := 0x100 ≤ reg

/-- SRD (R127): a register that SRD may not name is ILLEGAL, before the mode is looked at (R53). -/
def execSrd (d : SReg) (reg : BitVec 12) (s : State) : Out :=
  onBlock s fun k b =>
    if !srdReg reg then trapOut s k b (wordFault causeIllegal (.srd d reg))
    else if systemOnly reg.toNat && !b.inSys then trapOut s k b (wordFault causePriv (.srd d reg))
    else .next (s.setBlock k (b.putS d (readSpecial s k b reg.toNat) false).advance)

/-- Writes a special register that is no action: only its RW and W1C fields (R6, R127). -/
def writeSpecial (s : State) (k : BKey) (b : Block) (reg : Nat) (v : W64) : State :=
  let n := s.ctxNumOf b
  let c := s.ctx n
  match reg with
  | 0x030 => s.setBlock k { b with status := statusWrite b.status v }
  | 0x031 => s.setBlock k { b with gang := v &&& 0xFF }
  | 0x032 => s.setBlock k { b with seed := v }
  | 0x100 => (s.setBlock k b).setCtx n { c with htb := v &&& 0x00FFFFFFFFFFF000 }
  | 0x101 => (s.setBlock k b).setCtx n { c with htn := v &&& 0x1FFFFF }
  | 0x104 => { s.setBlock k b with savea := kvSet BKey.ord k (v &&& 0x00FFFFFFFFFFFF80) s.savea }
  | _ => s.setBlock k b

/-- The checks of SWR: PRIV for a system-only register in user mode, POISON for a poisoned scalar (R96, R127). -/
def swrWith (i : Instr) (reg : Nat) (a : SReg) (s : State) (f : State → BKey → Block → W64 → Out) : Out :=
  onBlock s fun k b =>
    if systemOnly reg && !b.inSys then trapOut s k b (wordFault causePriv i)
    else if b.ps a then trapOut s k b b.scalarPoison
    else f s k b (b.gs a)

/-- SWR of a register without a row of its own (R127): a register that SWR may not name is ILLEGAL, before the mode is looked at (R53). -/
def execSwr (a : SReg) (reg : BitVec 12) (s : State) : Out :=
  if !swrReg reg then onBlock s fun k b => trapOut s k b (wordFault causeIllegal (.swr a reg))
  else swrWith (.swr a reg) reg.toNat a s fun s k b v => .next (writeSpecial s k b.advance reg.toNat v)

/-- Every core of the partition drops one handle, or every handle, of a context, and its lines are unpinned (R79, R83). -/
def dropHandles (s : State) (ctx : Nat) (all : Bool) (h : Nat) : State :=
  let c := s.ctx ctx
  (s.setCtx ctx { c with hcache := if all then [] else c.hcache.filter fun p => p.2.1 ≠ h }).unpin ctx all h

/-- HINV: SWR of the action register, bit 63 ALL, bits [19:0] HIDX (R79). -/
def execHinv (a : SReg) (s : State) : Out :=
  swrWith (.hinv a) 0x102 a s fun s k b v =>
    .next (dropHandles (s.setBlock k b.advance) (s.ctxNumOf b) (v.getLsbD 63) (v.toNat % 2 ^ 20))

/-- Settles every block of a context, so that the accesses issued before have been performed or have faulted (R87, R92). -/
def settleCtx (s : State) (ctx : Nat) : State :=
  s.blocks.foldl (fun s p => match s.block? p.1 with
    | some b => if s.ctxNumOf b = ctx && !s.stopped.contains p.1 then settle s p.1 else s
    | none => s) s

/-- An access or command of a context is still outstanding: a queued event, or a command on a copy, bindery, Drover or link
queue (R87). -/
def State.ctxBusy (s : State) (ctx : Nat) : Bool :=
  let die (d : Die) : Bool :=
    (d.link.any fun c => c.ctx = ctx) || (d.bind.any fun c => c.ctx = ctx) || (d.dqueue.any fun c => c.ctx = ctx)
      || (match d.running with | some r => r.cmd.ctx = ctx | none => false) || (d.quar.any fun q => q.ctx = ctx)
  (s.blocks.any fun p => s.ctxNumOf p.2 = ctx && (!p.2.evq.isEmpty || !p.2.held.isEmpty)) || die s.die0 || die s.die1

/-- An access of a context waits for the hypervisor, other than one of the block of context `but` (R87, R101): it will be made again. -/
def State.ctxHeld (s : State) (ctx : Nat) (but : Option BKey) : Bool :=
  s.hvPosts.any fun p => p.ctx = ctx && (but.isNone || p.who ≠ but)

/-- What the TLBs hold of an ASID of a VMID is dropped (R92). -/
def State.dropTlb (s : State) (vmid asid : Nat) : State :=
  { s with tlb := s.tlb.filter fun t => !(t.vmid = vmid && t.asid = asid) }

/-- XROOT of a context takes a value; with the tags unchanged, the translations that the TLBs hold for them are dropped (R87, R92). -/
def writeXroot (s : State) (ctx : Nat) (v : W64) : State :=
  let s1 := s.setCtx ctx { s.ctx ctx with xroot := v }
  if (s.ctx ctx).tags = (s1.ctx ctx).tags then s1.dropTlb (s1.ctx ctx).tags.1 (s1.ctx ctx).tags.2 else s1

/-- XROOT: the write retires only after every access of the context issued before it has been performed or has faulted
(R87). -/
def execXroot (a : SReg) (s : State) : Out :=
  swrWith (.xroot a) 0x103 a s fun s k b v =>
    let n := s.ctxNumOf b
    let s1 := settleCtx s n
    if s1.ctxBusy n || s1.ctxHeld n (some k) then .next s1
    else match s1.block? k with
      | none => .next s1
      | some b => .next (writeXroot (s1.setBlock k b.advance) n v)

/-! ## Capabilities and lane width (R129, R130) -/

/-- Bytes of expander memory in use: at most 2 TiB each, none after a link loss (R319). -/
def State.secondTier (s : State) : Nat :=
  (List.range 8).foldl (fun n p => n + if s.linkLost.toList.getD p false then 0 else min (s.expanders.toList.getD p 0) (2 ^ 41)) 0

/-- The value of a capability index that the MX2 knows (R129). -/
def capability (s : State) (i : Nat) : Option Nat :=
  match i with
  | 0x00 => some 0x0100
  | 0x01 => some Config.laneWidth
  | 0x02 => some s.clusters
  | 0x03 => some Config.coresPerCluster
  | 0x04 => some 2
  | 0x05 => some Config.contextsPerCore
  | 0x06 => some 192
  | 0x07 => some Config.tileStoreBytes
  | 0x08 => some 24
  | 0x09 => some Config.accEntries
  | 0x0A => some 32
  | 0x0B => some 134217728
  | 0x0C => some 128
  | 0x0D => some 768000000000
  | 0x0E => some s.secondTier
  | 0x0F => some s.domain
  | 0x10 => some 0x07F843FE
  | 0x11 => some 0x7F
  | 0x12 => some 8
  | 0x13 => some 1048576
  | 0x14 => some callDepth
  | 0x15 => some 16
  | 0x16 => some s.dstate
  | _ => none

/-- CAPQ (R129): s[d] the value or 0, then s[c] the flag; a poisoned index poisons both. -/
def execCapq (d c a : SReg) (imm : W32) (s : State) : Out :=
  onBlock s fun k b =>
    let i := (b.gs a + imm.setWidth 64).toNat
    let (v, miss) : Nat × W64 := match capability s i with
      | some v => (v, 0)
      | none => (0, 1)
    .next (s.setBlock k ((b.putS d (BitVec.ofNat 64 v) (b.ps a)).putS c miss (b.ps a)).advance)

/-- LWID (R130). -/
def execLwid (d : SReg) (s : State) : Out :=
  onBlock s fun k b => .next (s.setBlock k (b.putS d (BitVec.ofNat 64 Config.laneWidth) false).advance)

/-! ## Validity (R138) -/

/-- VALID (R138): min(s[a], 65535) / 65536 in the scalar form; a poisoned scalar sets NONE. -/
def execValid (v : ValidArg) (s : State) : Out :=
  onBlock s fun k b =>
    let x : Validity := match v with
      | .none => .none
      | .full => .full
      | .partImm f => .part f
      | .partReg a => if b.ps a then .none else .part (BitVec.ofNat 16 (min (b.gs a).toNat 65535))
    .next (s.setBlock k { b with validity := x }.advance)

/-- WRAPEND (R138): commits the current validity; outside wrap-up it acts as EXIT. -/
def execWrapend (s : State) : Out := onBlock s fun k b => .next (s.setBlock k (b.exitWith b.validity))

end Sys2Proof.Machine
end

