-- ==== Sys2Proof/Machine/Message.lean ====
section
/-! DEFINITION. Tile messages between the blocks of a cluster (R190, R252 to R254). -/

namespace Sys2Proof.Machine

/-- The context of the partner on core c of the cluster (R190). -/
def partnerKey (k : BKey) (c : Nat) : BKey := { core := globalCluster k.core * 8 + c, slot := k.slot }

/-- The partner on core c: the block of the same launch in the same context number (R190). -/
def State.partner? (s : State) (k : BKey) (b : Block) (c : Nat) : Option Block :=
  match s.block? (partnerKey k c) with
  | some p => if p.launch = b.launch then some p else none
  | none => none

/-- The checks of R190 on a partner: RIGHTS outside the partition, GANG_PARTNER without one. -/
def partnerCheck (s : State) (k : BKey) (b : Block) (c : Nat) : Except FaultInfo Block :=
  if !(s.ctx (s.ctxNumOf b)).part.contains (partnerKey k c).core then .error (FaultInfo.plain causeRights)
  else match s.partner? k b c with
    | some p => .ok p
    | none => .error (FaultInfo.plain causeGangPartner)

/-- Index of a channel position (R140, R254). -/
def channel (c : CoreSel) (g : BReg) : Fin 128 := Fin.ofNat 128 (16 * c.val + g.val)

/-- Tile writers of a tile still in the queue: the instruction waits for them (R163, R164). -/
def writesTile (t : TReg) (e : Ev) : Bool := e.dest = .tile t

/-- Issues a TSEND or TRECV: the checks, its position, its entry, and its place among the waiting messages (R252 to R254). -/
def postMessage (send : Bool) (t : TReg) (c : CoreSel) (g : BReg) (s : State) : Out :=
  afterSettling (writesTile t) s fun s k b =>
    match b.useTile t with
    | .error f => trapOut s k b f
    | .ok x => match partnerCheck s k b c.val with
      | .error f => trapOut s k b { f with tile := some (t, 0, 0) }
      | .ok _ =>
        let ch := channel c g
        let pos := if send then b.sendPos[ch.val] else b.recvPos[ch.val]
        let m : Msg := { id := s.evSeq, send := send, tile := t, core := c, tag := g, pos := pos.toNat, pc := b.pc,
                         snap := x }
        let b1 : Block := if send then { b with sendPos := b.sendPos.set ch.val (pos + 1) }
          else { b with recvPos := b.recvPos.set ch.val (pos + 1) }
        .next ({ s with evSeq := s.evSeq + 1 }.setBlock k ({ b1 with msgs := b1.msgs ++ [m] }.issuedAs (some m.id) t.val))

/-- TSEND (R252). -/
def execTsend (t : TReg) (core : CoreSel) (tag : BReg) (s : State) : Out := postMessage true t core tag s

/-- TRECV (R252). -/
def execTrecv (t : TReg) (core : CoreSel) (tag : BReg) (s : State) : Out := postMessage false t core tag s

/-- One element of a transferred window with its scale (R252). Blocks that lie along the other axis of the receiver take
scales that the spec does not state (log 2). -/
def transferElem (src : Tile) (n : Nat) (dst : Tile) (i j : Nat) : Tile :=
  let d := dst.set i j (src.get i j)
  if src.fmt.block = 0 then d
  else if src.lay.colwise = dst.lay.colwise then d.setScale i j (src.getScale i j)
  else d.setScale i j (Config.unstated (n + d.scaleIndex i j) % 256)

/-- The receiver's tile after a transfer: elements, scales, TSCALE, poison per element and the origin record (R252). -/
def transferTile (src dst : Tile) (n : Nat) : Tile :=
  let cs := src.coords
  let d := cs.foldl (fun d p => transferElem src n d p.1 p.2) dst
  let d : Tile := { d with tscale := src.tscale, cmp := src.cmp && dst.wholeWindow, raw := if dst.wholeWindow then src.raw else [] }
  d.rewritePoison false (cs.map fun p => (p, src.poisoned p.1 p.2)) src.origin

/-- A waiting message of a block removed. -/
def Block.dropMsg (b : Block) (i : Nat) : Block := { b with msgs := b.msgs.eraseIdx i }

/-- A waiting message r of the partner is the other side of message m of block k (R252). -/
def Msg.meets (k : BKey) (m r : Msg) : Bool :=
  r.send ≠ m.send && r.core.val = coreInCluster k.core && r.tag = m.tag && r.pos = m.pos

/-- The waiting TRECV that matches a TSEND of block k (R252). -/
def matchingRecv (k : BKey) (m : Msg) (p : Block) : Option (Nat × Msg) :=
  let ok (r : Msg) : Bool :=
    !r.send && r.core.val = coreInCluster k.core && r.tag = m.tag && r.pos = m.pos
  (p.msgs.zipIdx.find? fun x => ok x.1).map fun x => (x.2, x.1)

/-- TILE_TRANSFER: the waiting TSEND idx of block k meets its TRECV (R252, R253). -/
def execTileTransfer (k : BKey) (idx : Nat) (s : State) : Out :=
  match s.block? k with
  | none => .next s
  | some b => match b.msgs[idx]? with
    | none => .next s
    | some m =>
      let src := m.snap
      let rk := partnerKey k m.core.val
      -- a block that a debugger holds stopped takes no part in a transfer (R342)
      if !m.send || s.stopped.contains k || s.stopped.contains rk then .next s
      else match s.partner? k b m.core.val with
      | none => .next s
      | some p => match matchingRecv k m p with
        | none => .next s
        | some (ri, r) =>
          -- the receiver first, since sender and receiver may be one block
          let p1 := p.dropMsg ri
          let dropSend (s : State) : State :=
            match s.block? k with
            | some b => s.setBlock k (s.settleLoans k { b with msgs := b.msgs.erase m }.freeSlots)
            | none => s
          let fails (cause : Nat) : Out :=
            let s1 := dropSend (s.setBlock rk p1)
            match s1.block? rk with
            | some q => .next (killUpTo s1 rk q r.id (FaultInfo.atTile cause r.tile 0 0) r.pc)
            | none => .next s1
          let dst := p1.version r.tile r.snap
          if src.fmt ≠ dst.fmt then fails causeFormat
          else if src.wrows ≠ dst.wrows || src.wcols ≠ dst.wcols then fails causeShape
          else
            let s1 := s.setBlock rk (s.settleLoans rk (p1.putSlot r.tile r.snap.phys (transferTile src dst s.freeCount)).freeSlots)
            .next (dropSend s1.bumpFree)

/-- A waiting message of the block of context k can meet no other side: its partner holds no such message and has ended, or
there is no partner. -/
def State.hopeless (s : State) (k : BKey) (b : Block) (m : Msg) : Bool :=
  match s.partner? k b m.core.val with
  | none => true
  | some p => p.ended.isSome && !(p.msgs.any fun r => m.meets k r)

/-- The block of context q when the one of context k has retired or been killed: a message of it that waits toward k, and that
no message left there meets, traps GANG_PARTNER with the older instructions completing (R134, R253). A block already killed
loses the message. -/
def orphanAt (s : State) (k q : BKey) : State :=
  match s.block? q with
  | none => s
  | some b =>
    let left : List Msg := match s.block? k with | some x => x.msgs | none => []
    let lost (m : Msg) : Bool := m.core.val = coreInCluster k.core && !(left.any fun r => m.meets q r)
    match b.msgs.find? lost with
    | none => s
    | some m => match b.ended with
      | some (_, _ + 1) => s.setBlock q { b with msgs := b.msgs.filter fun m => !lost m }
      | _ => killUpTo s q b m.id (FaultInfo.atTile causeGangPartner m.tile 0 0) m.pc

/-- A partner has retired or been killed: every block that waits for a message with it traps GANG_PARTNER (R253). -/
def orphanMessages (s : State) (k : BKey) : State :=
  s.blocks.foldl (fun s p => if sameSet k p.1 && p.1 ≠ k then orphanAt s k p.1 else s) s

end Sys2Proof.Machine
end

