-- ==== Sys2Proof/Machine/Tiles.lean ====
section
/-! DEFINITION. Shape records, binding, windows, layouts, the shares of the stores, and the descriptor instructions (R154 to
R170). Majors 0x30, 0x31 and 0x32. -/

namespace Sys2Proof.Machine

/-! ## Shape records (R157 to R159) -/

/-- The grant of R158 for a request. -/
def shapeGrant (m n k : Nat) : ShapeRec :=
  let gn := min n 256
  let gm := min (min m 256) (32768 / gn)
  let cap := min (min k 256) (32768 / max gm gn)
  let gk := if k = 0 then 0 else if cap < k then 32 * (cap / 32) else cap
  { gm := gm, gn := gn, gk := gk, kcur := gk, v := true, ktot := k, kpos := 0 }

/-- SHAPE (R158). -/
def execShape (d : ShReg) (a b c : SReg) (s : State) : Out :=
  onBlock s fun key x =>
    if x.ps a || x.ps b || x.ps c then trapOut s key x x.scalarPoison
    else
      let m := (x.gs a).toNat
      let n := (x.gs b).toNat
      let k := (x.gs c).toNat
      if m = 0 || n = 0 || 2 ^ 32 ≤ m || 2 ^ 32 ≤ n || 2 ^ 32 ≤ k then trapOut s key x (FaultInfo.plain causeShape)
      else
        let g := shapeGrant m n k
        let x1 := ((x.putSh d g).putS a (BitVec.ofNat 64 g.gm) false).putS b (BitVec.ofNat 64 g.gn) false
        .next (s.setBlock key (x1.putS c (BitVec.ofNat 64 g.gk) false).advance)

/-- Strips left, the current one included (R159). -/
def ShapeRec.strips (r : ShapeRec) : Nat := if r.gk = 0 then 0 else (r.ktot - r.kpos + r.gk - 1) / r.gk

/-- The field of a shape record that SHQ reads; a record with V = 0 gives 0 (R159). -/
def ShapeRec.field (r : ShapeRec) (f : Nat) : Nat :=
  if !r.v then 0
  else match f with
    | 0 => r.gm
    | 1 => r.gn
    | 2 => r.gk
    | 3 => r.kcur
    | 4 => r.ktot
    | 5 => r.kpos
    | _ => r.strips

/-- SHQ (R159). -/
def execShq (d : SReg) (a : ShReg) (f : Fin 16) (s : State) : Out :=
  onBlock s fun k b => .next (s.setBlock k (b.putS d (BitVec.ofNat 64 ((b.gsh a).field f.val)) false).advance)

/-- The record after an advance, and the depth of its strip, 0 at the rewind (R159). -/
def ShapeRec.next (r : ShapeRec) : ShapeRec × Nat :=
  let pos := r.kpos + r.kcur
  if r.ktot ≤ pos then ({ r with kpos := 0, kcur := min r.gk r.ktot }, 0)
  else ({ r with kpos := pos, kcur := min r.gk (r.ktot - pos) }, min r.gk (r.ktot - pos))

/-- SHQ.ADV (R159). -/
def execShqAdv (d : SReg) (a : ShReg) (s : State) : Out :=
  onBlock s fun k b =>
    let r := b.gsh a
    if !r.v || r.gk = 0 then trapOut s k b (FaultInfo.plain causeShape)
    else .next (s.setBlock k ((b.putSh a r.next.1).putS d (BitVec.ofNat 64 r.next.2) false).advance)

/-! ## Binding (R160) -/

/-- A freshly bound tile: zero encodings, scales 1.0, no poison. DESIGN CHOICE (log 13): LSH of a tile that is not linked, TBIND.MN's among them,
is 0. -/
def Tile.bound (link : Option (ShReg × Bool)) (home : Home) (lay : Lay) (fmt : Efmt) (rows cols phys : Nat) : Tile :=
  { link := link
    lsh := match link with | some (sh, _) => sh | none => 0
    cmp := false
    raw := []
    home := home
    lay := lay
    fmt := fmt
    brows := rows
    bcols := cols
    wrow0 := 0
    wcol0 := 0
    wrows := rows
    wcols := cols
    tscale := if fmt = .ks4 then 0x3F800000 else 0
    srows := rows
    scols := cols
    elems := Array.replicate (rows * cols) 0
    scales := Array.replicate (scaleCount fmt lay rows cols) fmt.unitScale
    poison := []
    origin := none
    phys := phys
    unwritten := false }

/-- The largest element plane of a tile-store tile (R155). -/
def elementPlaneLimit : Nat := 131072

/-- Binds td to a new tile, after the shape checks: storage, block axis, and the stores, in the order of R160. An old slot that an older
instruction still uses lives on; without room for both the bind waits (R165). -/
def bindTile (td : TReg) (x : Tile) (s : State) (k : BKey) (b : Block) : Out :=
  let win := (s.core k.core).win
  if x.home = .s && elementPlaneLimit < x.ebytes then trapOut s k b (FaultInfo.atTile causeShape td 0 0)
  else if x.fmt.block ≠ 0 && blockAxis x.lay x.brows x.bcols % x.fmt.block ≠ 0 then
    trapOut s k b (FaultInfo.atTile causeFormat td 0 0)
  else
    let u := (b.usageBut (some td)).add x.usage
    match borrow u win b.loans (s.lendable k.core) with
    | none => trapOut s k b (FaultInfo.atTile causeStoreFull td 0 0)
    | some ls =>
      let b1 : Block := { (b.supersede td).putT td (some { x with phys := s.freeCount }) with loans := ls }
      if (u.add b1.oldUsage).fits win (ls.length + 1) then .next (s.bumpFree.setBlock k (s.settleLoans k b1).advance) else .next s

/-- TBIND (R160). -/
def execTbind (td : TReg) (rows cols : Fin 256) (fmt : Efmt) (home : Home) (lay : Lay) (s : State) : Out :=
  onBlock s fun k b => bindTile td (Tile.bound none home lay fmt (rows.val + 1) (cols.val + 1) 0) s k b

/-- A bind to a shape record (R160). -/
def bindShape (td : TReg) (sh : ShReg) (fmt : Efmt) (home : Home) (lay : Lay) (link : Option Bool)
    (extent : ShapeRec → Nat × Nat) (s : State) : Out :=
  onBlock s fun k b =>
    let r := b.gsh sh
    if !r.v || (link.isSome && r.gk = 0) then trapOut s k b (FaultInfo.atTile causeShape td 0 0)
    else bindTile td (Tile.bound (link.map fun l => (sh, l)) home lay fmt (extent r).1 (extent r).2 0) s k b

/-- TBIND.MN (R160). -/
def execTbindMn (td : TReg) (sh : ShReg) (fmt : Efmt) (home : Home) (lay : Lay) (s : State) : Out :=
  bindShape td sh fmt home lay none (fun r => (r.gm, r.gn)) s

/-- TBIND.MK (R160): columns are the K extent. -/
def execTbindMk (td : TReg) (sh : ShReg) (fmt : Efmt) (home : Home) (lay : Lay) (s : State) : Out :=
  bindShape td sh fmt home lay (some false) (fun r => (r.gm, r.gk)) s

/-- TBIND.KN (R160): rows are the K extent. -/
def execTbindKn (td : TReg) (sh : ShReg) (fmt : Efmt) (home : Home) (lay : Lay) (s : State) : Out :=
  bindShape td sh fmt home lay (some true) (fun r => (r.gk, r.gn)) s

/-! ## Windows and layouts (R162) -/

/-- The link cleared, with the current extent as the bound extent (R161). -/
def Tile.unlink (t : Tile) : Tile :=
  match t.link with
  | none => t
  | some _ => { t with link := none, brows := t.wrows, bcols := t.wcols }

/-- TVIEW (R162). -/
def execTview (td : TReg) (rows cols : Fin 256) (a : SReg) (s : State) : Out :=
  onBlock s fun k b =>
    withTile s k b (b.useTile td) fun x =>
      if b.ps a then trapOut s k b b.scalarPoison
      else
        let y := x.unlink
        let r0 := (b.gs a).toNat / 256 % 256
        let c0 := (b.gs a).toNat % 256
        let v : Tile := { y with wrow0 := r0, wcol0 := c0, wrows := rows.val + 1, wcols := cols.val + 1 }
        if y.brows < r0 + v.wrows || y.bcols < c0 + v.wcols then trapOut s k b (FaultInfo.atTile causeShape td 0 0)
        else if !v.blockAligned then trapOut s k b (FaultInfo.atTile causeFormat td 0 0)
        else .next (s.setBlock k (b.putT td (some v)).advance)

/-- The poison map of a tile in a new layout: a line is poisoned if it holds a poisoned element (R162). -/
def Tile.relaid (t : Tile) (lay : Lay) : Tile :=
  let bad := (List.range t.brows).flatMap fun r => ((List.range t.bcols).filter fun c =>
    (t.linesAt r c).any fun l => t.poison.contains l).map fun c => (r, c)
  let u : Tile := { t with lay := lay, cmp := false, raw := [] }
  if t.poison.isEmpty then u
  else { u with poison := (bad.flatMap fun p => u.linesAt p.1 p.2).foldl (fun ls l => insertNat l ls) [] }

/-- TLAY (R162): a fresh slot in the new layout, once the share has room for it beside the slots that older instructions still use (R165). -/
def execTlay (td : TReg) (lay : Lay) (s : State) : Out :=
  onBlock s fun k b =>
    withTile s k b (b.useTile td) fun x =>
      if (x.home = .a && lay ≠ .row) || (x.fmt.block ≠ 0 && lay.colwise ≠ x.lay.colwise) then
        trapOut s k b (FaultInfo.atTile causeFormat td 0 0)
      else if x.home = .a then .next (s.setBlock k ((b.putT td (some x.unlink)).issued td))
      else
        let y : Tile := { x.unlink.relaid lay with
          phys := s.freeCount
          unwritten := false }
        let b1 := (b.supersede td).putT td (some y)
        if ((b1.usageBut none).add b1.oldUsage).fits (s.core k.core).win (b.loans.length + 1)
          then .next (s.bumpFree.setBlock k ((s.settleLoans k b1).issued td)) else .next s

/-- TUNBIND (R167): a linked tile that is over-deep faults SHAPE (R161), an unbound name is left alone. -/
def execTunbind (td : TReg) (s : State) : Out :=
  onBlock s fun k b =>
    match b.gt td, b.useTile td with
    | some _, .error f => trapOut s k b f
    | _, _ => .next (s.setBlock k (s.settleLoans k ((b.supersede td).putT td none)).advance)

/-! ## Fill, copy and settle (R169) -/

/-- The record is cleared when no line of the tile is poisoned (R97, R169). -/
def Tile.clearOrigin (t : Tile) : Tile := if t.poison.isEmpty then { t with origin := none } else t

/-- Every window element takes one encoding, unpoisoned; lines that the window covers wholly are cleared (R169). -/
def Tile.fillWindow (t : Tile) (v : Nat) : Tile :=
  (t.writeAll false (t.coords.map fun p => (p, v, false)) none none).clearOrigin

/-- TZERO (R169). -/
def execTzero (td : TReg) (s : State) : Out :=
  onBlock s fun k b =>
    withTile s k b (b.useTile td) fun x =>
      let y := x.fillWindow 0
      let z := if x.fmt.block = 0 then y else x.coords.foldl (fun t p => t.setScale p.1 p.2 x.fmt.unitScale) y
      .next (s.setBlock k ((b.commitTile td z).issued td))

/-- TFILL (R169). DESIGN CHOICE (log 13): with a poisoned s[a] the elements that it poisons hold the low bits of s[a] like any others. -/
def execTfill (td : TReg) (a : SReg) (s : State) : Out :=
  onBlock s fun k b =>
    withTile s k b (b.useTile td) fun x =>
      if x.fmt.block ≠ 0 then trapOut s k b (FaultInfo.atTile causeFormat td 0 0)
      else
        let v := (b.gs a).toNat % 2 ^ x.fmt.bits
        let y : Tile := if b.ps a then
            ((x.writeAll false (x.coords.map fun p => (p, v, true)) none none).poisonWindow b.origin)
          else x.fillWindow v
        .next (s.setBlock k ((b.commitTile td y).issued td))

/-- Formats, windows and blocks of a copy agree (R169): the fault, at the tile that R98 names. -/
def copyFault (td ta : TReg) (d a : Tile) (masked : Bool) : Option FaultInfo :=
  if d.fmt ≠ a.fmt then some (FaultInfo.atTile causeFormat ta 0 0)
  else if masked && d.fmt.block ≠ 0 then some (FaultInfo.atTile causeFormat td 0 0)
  else if d.wrows ≠ a.wrows || d.wcols ≠ a.wcols then some (FaultInfo.atTile causeShape ta 0 0)
  else if d.fmt.block ≠ 0 && !d.blockAligned then some (FaultInfo.atTile causeFormat td 0 0)
  else if d.fmt.block ≠ 0 && (!a.blockAligned || d.lay.colwise ≠ a.lay.colwise) then some (FaultInfo.atTile causeFormat ta 0 0)
  else none

/-- TCPYT (R169). -/
def execTcpyt (td ta : TReg) (mask : Option MReg) (s : State) : Out :=
  onBlock s fun k b =>
    withTile s k b (b.useTile td) fun d =>
      withTile s k b (s.source k b ta) fun a =>
        match copyFault td ta d a mask.isSome with
        | some f => trapOut s k b f
        | none =>
          let s := s.fired k [a]
          if td = ta then .next (s.setBlock k (b.issued td))
          else
            let cells := d.coords.filter fun p => b.active mask d.wcols p.1 p.2
            let ws : Written := cells.map fun p => (p, a.get p.1 p.2, a.poisoned p.1 p.2)
            let o := if ws.any fun w => w.2.2 then a.origin else none
            let y := d.writeAll mask.isSome ws o (b.maskPoison mask)
            let z : Tile := if d.fmt.block = 0 then y
              else cells.foldl (fun t p => t.setScale p.1 p.2 (a.getScale p.1 p.2)) { y with tscale := a.tscale }
            let e := s.expandFor k b [ta]
            .next (e.1.setBlock k ((e.2.commitTile td z).issued td))

/-- TSETTLE (R169): the older writers have completed, and no superseded slot of td is left; a compressed tile is expanded. -/
def execTsettle (td : TReg) (s : State) : Out :=
  afterSettling (writesTile td) s fun s k b =>
    withTile s k b (b.useTile td) fun _ =>
      if b.superseded.any fun p => p.1 = td then .next s
      else
        let e := s.expandFor k b [td]
        .next (e.1.setBlock k (e.2.issued td))

/-! ## Reading descriptors (R154, R170) -/

/-- Word 0 of a descriptor (R154). -/
def Tile.word0 (t : Tile) : Nat :=
  let lnk : Nat := if t.link.isSome then 1 else 0
  2 ^ 63 + lnk * 2 ^ 62 + t.lsh.val * 2 ^ 57 + t.cmp.toNat * 2 ^ 56 + Home.code t.home * 2 ^ 55 + t.lay.code * 2 ^ 52
    + t.fmt.code * 2 ^ 47 + (t.brows - 1) * 2 ^ 39 + (t.bcols - 1) * 2 ^ 31

/-- Word 1 of a descriptor (R154). -/
def Tile.word1 (t : Tile) : Nat :=
  t.wrow0 * 2 ^ 56 + t.wcol0 * 2 ^ 48 + (t.wrows - 1) * 2 ^ 40 + (t.wcols - 1) * 2 ^ 32 + t.tscale.toNat

/-- Word 2 of a descriptor (R154). -/
def Tile.word2 (t : Tile) : Nat := t.ebytes * 2 ^ 32 + t.sbytes

/-- The descriptor word that TDESC reads; 0 for an unbound name (R170). -/
def descWord (t : Option Tile) (w : Nat) : Nat :=
  match t with
  | none => 0
  | some x => match w with
    | 0 => x.word0
    | 1 => x.word1
    | _ => x.word2

/-- TDESC (R170): after the older writers of the tile. A linked tile reads its current extent, and faults as R161 states when
its storage is too shallow. -/
def execTdesc (d : SReg) (ta : TReg) (w : Fin 256) (s : State) : Out :=
  afterSettling (writesTile ta) s fun s k b =>
    match b.gt ta with
    | none => .next (s.setBlock k (b.putS d 0 false).advance)
    | some _ => withTile s k b (b.useTile ta) fun x =>
        .next (s.setBlock k (b.putS d (BitVec.ofNat 64 (descWord (some x) w.val)) false).advance)

/-- Poisoned lines within the bound extent (R170). -/
def Tile.poisonCount (t : Tile) : Nat :=
  if t.brows = t.srows && t.bcols = t.scols then t.poison.length
  else (t.poison.filter fun l => (List.range t.brows).any fun r => (List.range t.bcols).any fun c => (t.linesAt r c).contains l).length

/-- First poisoned element of the window in row-major order (R170). -/
def Tile.firstPoison (t : Tile) : Nat :=
  if t.poison.isEmpty then 2 ^ 64 - 1
  else match t.coords.find? fun p => t.poisoned p.1 p.2 with
    | some (i, j) => i * 256 + j
    | none => 2 ^ 64 - 1

/-- What TSTAT reports on a tile (R170). -/
def tileStat (x : Tile) (n : Nat) : Nat :=
  match n with
  | 0 => x.poisonCount
  | 1 => x.firstPoison
  | _ => match x.origin with | some o => o.cause | none => 0

/-- What TSTAT reports on the block's share (R165, R170). -/
def shareStat (s : State) (k : BKey) (b : Block) (n : Nat) : Nat :=
  match n with
  | 3 => Config.shareSlots
  | 4 => shareBytes (s.core k.core).win
  | 5 => Config.shareAcc
  | 6 => (b.usageBut none).slots
  | 7 => (b.usageBut none).bytes
  | _ => b.loans.length

/-- TSTAT (R170). -/
def execTstat (d : SReg) (ta : TReg) (n : Fin 256) (s : State) : Out :=
  if n.val ≤ 2 then
    afterSettling (writesTile ta) s fun s k b =>
      withTile s k b (b.useTile ta) fun x =>
        .next (s.setBlock k (b.putS d (BitVec.ofNat 64 (tileStat x n.val)) false).advance)
  else onBlock s fun k b => .next (s.setBlock k (b.putS d (BitVec.ofNat 64 (shareStat s k b n.val)) false).advance)

end Sys2Proof.Machine
end

