-- ==== Sys2Proof/Machine/TileMem.lean ====
section
/-! DEFINITION. Tile memory: TLD, TST, TLDG, TSTS, TLDD, TSTD, PLD, PLDS and TPRF (R171 to R185). An access is planned element by
element, its elements are gathered into the units of R112, and the units go on the block's queue as one event. -/

namespace Sys2Proof.Machine

/-! ## Plans -/

/-- Where an element, scale byte or tile scale of an access lies. -/
inductive Target where
  /-- n bytes at an image, in the unit that begins at `key` -/
  | bytes (h : HEntry) (image key : W64) (n : Nat)
  /-- beyond the bound: a load reads zero -/
  | zero
  /-- a store writes nothing -/
  | drop
  /-- a fault of the element's own handle (R183) -/
  | bad (f : FaultInfo)

/-- One element, scale byte or tile scale of an access. -/
structure Access where
  cell : Nat × Nat
  dst : UnitDst
  target : Target
  /-- encoding to store, its width and its first bit in the bytes at `image` -/
  data : Nat
  width : Nat
  bit : Nat

/-- An access that a load zeroes. -/
def Access.zeroed (a : Access) : Bool := match a.target with | .zero => true | _ => false

/-- A fold that goes on while the accesses do. -/
def resFold (f : State → β → α → Res β) : State → β → List α → Res β
  | s, acc, [] => .ok s acc
  | s, acc, x :: xs => (f s acc x).andThen fun s acc => resFold f s acc xs

/-- Accesses that share one unit, first byte to last, in the order of the access. -/
structure Group where
  h : HEntry
  key : W64
  lo : Nat
  hi : Nat
  items : List Access

/-- Offset of an access within its unit. -/
def inUnit (image key : W64) : Nat := (image - key).toNat

/-- Adjacent accesses to one unit become one group (R112). -/
def groupAccesses (alone : Bool) : List Access → List Group
  | [] => []
  | a :: as =>
    let rest := groupAccesses alone as
    match a.target with
    | .bytes h image key n =>
      let lo := inUnit image key
      (match rest with
        | g :: gs =>
          if !alone && g.key = key && g.h = h then
            { g with lo := min g.lo lo, hi := max g.hi (lo + n), items := a :: g.items } :: gs
          else { h := h, key := key, lo := lo, hi := lo + n, items := [a] } :: g :: gs
        | [] => [{ h := h, key := key, lo := lo, hi := lo + n, items := [a] }])
    | _ => rest

/-- Image of a group's first byte. -/
def Group.image (g : Group) : W64 := g.key + BitVec.ofNat 64 g.lo

/-- Bit of an access within its group's bytes. -/
def Group.bitOf (g : Group) (a : Access) : Nat :=
  match a.target with
  | .bytes _ image _ _ => 8 * (inUnit image g.key - g.lo) + a.bit
  | _ => 0

/-- Destination of an access within the bytes of its group. -/
def Group.dstOf (g : Group) (a : Access) : UnitDst :=
  match a.dst with
  | .elem r c _ => .elem r c (g.bitOf a)
  | d => d

/-- The load unit of a group: a fault met at issue stays with the unit (R93, R177). -/
def loadUnit (e : Env) (need : Need) (s : State) (g : Group) : Res EvUnit :=
  let dst := g.items.map g.dstOf
  match placeBytes s e g.h g.image need (g.hi - g.lo + 1) (g.hi - g.lo) with
  | .ok s ps => .ok s (EvUnit.load g.image ps dst)
  | .bad s f => .ok s { EvUnit.load g.image [] dst with bad := some f }
  | .wait s => .wait s

/-- The bytes of a store group, and the mask of the bits written, empty when all are. -/
def Group.bytes (g : Group) : List Byte × List Byte :=
  let n := g.hi - g.lo
  let put (acc : Nat × Nat) (a : Access) : Nat × Nat :=
    let m := (2 ^ a.width - 1) * 2 ^ g.bitOf a
    let v := a.data % 2 ^ a.width * 2 ^ g.bitOf a
    -- a later element of the unit replaces an earlier one
    (acc.1 - (acc.1 &&& m) + v, acc.2 ||| m)
  let r := g.items.foldl put (0, 0)
  (leBytes n r.1, if r.2 = 2 ^ (8 * n) - 1 then [] else leBytes n r.2)

/-- The store unit of a group. -/
def storeUnit (e : Env) (need : Need) (s : State) (g : Group) : Res EvUnit :=
  (placeBytes s e g.h g.image need (g.hi - g.lo + 1) (g.hi - g.lo)).andThen fun s ps =>
    .ok s { EvUnit.store g.image ps g.bytes.1 g.bytes.2 with
      dst := (g.items.take 1).map fun a => .elem a.cell.1 a.cell.2 0 }

/-! ## Queueing -/

/-- What an access through a register rewrites (R179): register, image, displacement; and the bale size. -/
structure RefUse where
  ref : Option (ARef × W64 × Int)
  bale : Nat

/-- Strength of a tile access: its data events, and a point before or after them (R111, R173). -/
def MemOrd.isStrong (o : MemOrd) : Bool := match o with | .strong _ => true | _ => false
def MemOrd.isAcq (o : MemOrd) : Bool := match o with | .acq _ => true | _ => false
def MemOrd.isRel (o : MemOrd) : Bool := match o with | .rel _ => true | _ => false

/-- An event with its acquire or release point on the block's queue; one without units has completed at once. -/
def enqueueTile (s : State) (k : BKey) (b : Block) (ord : MemOrd) (load : Bool) (e : Ev) : State :=
  let id := s.evSeq
  let kind : EvKind := if MemOrd.isStrong ord then .perform else if load then .read else .drain
  let before : List Ev := if MemOrd.isAcq ord then [Ev.plain id .acqPoint b.pc ord] else []
  let main : List Ev := if e.units.isEmpty then [] else [{ e with id := id + 1, kind := kind, copy := true }]
  let after : List Ev := if MemOrd.isRel ord then [Ev.plain (id + 2) .relPoint b.pc ord] else []
  let b1 : Block := { b with evq := b.evq ++ before ++ main ++ after }
  let b2 := if e.units.isEmpty then b1.raise ((if e.clmp then flCLMP else 0) ||| (if e.pwb then flPWB else 0)) else b1
  { s with evSeq := id + 3 }.setBlock k b2

/-- Poisoned lines of a tile that its window covers wholly: a load into the window clears them (R94). -/
def Tile.coveredLines (t : Tile) : List Nat :=
  let inside (r c : Nat) : Bool := t.wrow0 ≤ r && r < t.wrow0 + t.wrows && t.wcol0 ≤ c && c < t.wcol0 + t.wcols
  t.poison.filter fun l => (List.range t.brows).all fun r => (List.range t.bcols).all fun c =>
    !(t.linesAt r c).contains l || inside r c

/-- Targets that read zero, as one unit (R175, R176). -/
def zeroUnit (as : List Access) : List EvUnit :=
  let zs := as.filter Access.zeroed
  if zs.isEmpty then [] else [{ EvUnit.load 0 [] (zs.map fun a => a.dst) with zero := true }]

/-- Units whose element's own handle failed (R183). -/
def badUnits (as : List Access) : List EvUnit :=
  as.filterMap fun a => match a.target with
    | .bad f => some { EvUnit.load 0 [] [a.dst] with bad := some f }
    | _ => none

/-- Queues a planned load into a tile. -/
def queueLoad (s : State) (k : BKey) (b : Block) (td : TReg) (x : Tile) (use : RefUse) (ord : MemOrd) (as : List Access)
    (clmp pwb : Bool) (keep : Bool → Bool) : Out :=
  let collect (s : State) (us : List EvUnit) (g : Group) : Res (List EvUnit) :=
    (loadUnit (s.envOf k b) Need.load s g).andThen fun s u => .ok s (us ++ [u])
  match resFold collect s [] (groupAccesses (MemOrd.isStrong ord) as) with
  | .wait s => .next s
  | .bad s f => trapOut s k b f
  | .ok s us =>
    let units := us ++ zeroUnit as ++ badUnits as
    let e : Ev := { Ev.plain 0 .read b.pc ord with
      units := units
      dest := .tile td
      tile := some td
      ref := use.ref
      bale := use.bale
      rights := 1
      clmp := clmp
      pwb := pwb
      clears := x.coveredLines
      slot := x.phys
      lines := if x.fmt = .ks4 then x.coords.flatMap fun p => x.lines p.1 p.2 else []
      keep := keep (units.any fun u => u.bad.isSome || u.zero) }
    .next (enqueueTile s k (b.issuedAs (some (s.evSeq + 1)) td.val) ord true { e with pc := b.pc })

/-- Places the units of a store in order; a fault stops with the units before it, and the window element it met (R93, R177). -/
def placeStore (e : Env) (need : Need) : State → List EvUnit → List Group → Res (List EvUnit × Option (FaultInfo × (Nat × Nat)))
  | s, us, [] => .ok s (us, none)
  | s, us, g :: gs =>
    match storeUnit e need s g with
    | .wait s => .wait s
    | .bad s f => .ok s (us, some (f, (g.items.head?.map fun a => a.cell).getD (0, 0)))
    | .ok s u => placeStore e need s (us ++ [u]) gs

/-- Queues a planned store of a tile. A store that meets a fault traps, having written only what was performed before
the fault (R93, R177): under `.s` every unit before it, since they are visited in order (R173), and otherwise a free choice of
the units before it (log 2). -/
def queueStore (s : State) (k : BKey) (b : Block) (td : TReg) (aref : Nat) (use : RefUse) (ord : MemOrd) (as : List Access)
    (clmp : Bool) : Out :=
  match placeStore (s.envOf k b) Need.store s [] (groupAccesses (MemOrd.isStrong ord) as) with
  | .wait s => .next s
  | .bad s f => trapOut s k b f
  | .ok s (us, fault) =>
    let e : Ev := { Ev.plain 0 .drain b.pc ord with
      units := us
      tile := some td
      ref := use.ref
      bale := use.bale
      rights := 2
      clmp := clmp }
    match fault with
    | none =>
      let x := s.expandFor k b [td]
      .next (enqueueTile x.1 k (x.2.issuedAs (some (x.1.evSeq + 1)) td.val) ord false e)
    | some (f, cell) =>
      let done := if MemOrd.isStrong ord then us else us.zipIdx.filterMap fun p =>
        if Config.performedBefore s.freeCount p.2 then some p.1 else none
      let s1 := enqueueTile s.bumpFree k b (if MemOrd.isStrong ord then ord else .weak) false
        { e with units := done, clmp := false, ref := none }
      match s1.block? k with
      | some b1 => trapOut s1 k b1 { f with aref := aref, tile := some (td, cell.1, cell.2) }
      | none => .next s1

/-! ## The tensor scalar (R174) -/

/-- Stride, row limit and column limit of an access; 0 is no limit. -/
structure Tensor where
  stride : Nat
  vr : Nat
  vc : Nat

/-- RBm of a window (R174). -/
def Tile.rbm (t : Tile) : Nat := memRunBytes t.fmt t.memRow

/-- The tensor of an access whose b field names a scalar (R174). -/
def Block.tensor (b : Block) (r : SReg) (t : Tile) : Tensor :=
  if r = 0 then { stride := t.rbm, vr := 0, vc := 0 }
  else
    let v := (b.gs r).toNat
    { stride := fld 0 32 v, vr := fld 32 16 v, vc := fld 48 16 v }

/-- The place of memory coordinates (u, v) after the tensor edge, and whether it was outside (R175, R181). -/
def Tensor.edge (x : Tensor) (row : Int) (v : Nat) : Nat × Nat × Bool :=
  let ur := row.toNat
  let isOut : Bool := row < 0 || (x.vr ≠ 0 && x.vr ≤ ur) || (x.vc ≠ 0 && x.vc ≤ v)
  (if x.vr ≠ 0 then min ur (x.vr - 1) else ur, if x.vc ≠ 0 then min v (x.vc - 1) else v, isOut)

/-! ## Planning an access through one handle (R175, R176, R181) -/

/-- What an access acts on: the tile's window, where its rows lie, and the limit of its space. -/
structure Plan where
  x : Tile
  h : HEntry
  hidx : Nat
  /-- handle offset of byte 0 of the space: 0, or that of a parameter window (R184) -/
  base : Nat
  /-- BOUND or LEN -/
  limit : Nat
  /-- origin e in the space -/
  e : Int
  tensor : Tensor
  /-- row(u) -/
  row : Nat → Int

/-- Reference image of a byte of the space. -/
def Plan.image (p : Plan) (rel : Int) : W64 := mkRef p.hidx (((p.base : Int) + rel) % (2 ^ 44)).toNat

/-- Target of n bytes at a place of the space, in the unit that begins `back` bytes earlier. -/
def Plan.target (p : Plan) (load isOut : Bool) (rel : Int) (n back : Nat) : Target × Bool :=
  let beyond : Bool := !inBound rel n p.limit
  if load then
    if beyond then (.zero, true) else (.bytes p.h (p.image rel) (p.image rel - BitVec.ofNat 64 back) n, isOut)
  else if isOut || beyond then (.drop, true)
  else (.bytes p.h (p.image rel) (p.image rel - BitVec.ofNat 64 back) n, false)

/-- An element as an access, and whether it was clamped, zeroed or dropped. -/
def Plan.elem (p : Plan) (load : Bool) (i j : Nat) : Access × Bool :=
  let (u, v) := p.x.memCoord i j
  let (uc, vc, isOut) := p.tensor.edge (p.row u) v
  let (lo, n) := elemBytes p.x.fmt vc
  let (key, _, _) := elemUnit p.x.fmt vc
  let start : Int := p.e + uc * p.tensor.stride
  let (tg, hit) := p.target load isOut (start + lo) n (lo - key)
  let w := if p.x.fmt = .a56 then 64 else p.x.fmt.bits
  ({ cell := (i, j)
     dst := .elem (p.x.wrow0 + i) (p.x.wcol0 + j) 0
     target := tg
     data := p.x.get i j
     width := w
     bit := if p.x.fmt = .a56 then 0 else vc * p.x.fmt.bits % 8 }, hit)

/-- Scale bytes in a memory row of the window. -/
def Tile.scalesPerRow (t : Tile) : Nat := t.memRow / t.fmt.block

/-- Rows that the elements take before the scale plane (R176). -/
def Plan.rs (p : Plan) : Nat := if p.tensor.vr ≠ 0 then p.tensor.vr else p.x.memRows

/-- First byte of the scale plane. -/
def Plan.scaleBase (p : Plan) : Int := p.e + p.rs * p.tensor.stride

/-- A scale byte as an access: block q of memory row u (R176). -/
def Plan.scale (p : Plan) (load : Bool) (u q : Nat) : Access × Bool :=
  let blk := p.x.fmt.block
  let (uc, vc, isOut) := p.tensor.edge (p.row u) (q * blk)
  let (tg, hit) := p.target load isOut (p.scaleBase + uc * p.x.scalesPerRow + vc / blk) 1 0
  let cell := if p.x.lay = .col then (q * blk, u) else (u, q * blk)
  ({ cell := cell
     dst := .scale (p.x.scaleIndex cell.1 cell.2)
     target := tg
     data := p.x.getScale cell.1 cell.2
     width := 8
     bit := 0 }, hit)

/-- The KS4 tile scale as an access (R176). -/
def Plan.tileScale (p : Plan) (load : Bool) : Access × Bool :=
  let (tg, hit) := p.target load false (p.scaleBase + p.rs * p.x.scalesPerRow) 4 0
  ({ cell := (0, 0), dst := .tscale, target := tg, data := p.x.tscale.toNat, width := 32, bit := 0 }, hit)

/-- The order in which elements are visited. Strong accesses and whole-byte formats go in row-major order of the window; the
elements of a unit that a `.col` window spreads over rows are brought together, which keeps the order of elements that write
the same bytes (R104, R112, R181). -/
def Plan.order (p : Plan) (strong : Bool) : List (Nat × Nat) :=
  let per : Nat := match p.x.fmt.bits with | 4 => 2 | 6 => 4 | _ => 1
  let crossed : Bool := per = 4 && p.tensor.stride % 3 ≠ 0 && p.tensor.stride < p.x.rbm
  if strong || p.x.lay ≠ .col || per = 1 || crossed then p.x.coords
  else
    (List.range ((p.x.wrows + per - 1) / per)).flatMap fun g =>
      (List.range p.x.wcols).flatMap fun j =>
        (List.range (min per (p.x.wrows - g * per))).map fun i => (g * per + i, j)

/-- Every access of a plan: the elements, then the scale bytes, then the tile scale; whether one was clamped or dropped, and
whether one was read as zero beyond the limit. -/
def Plan.all (p : Plan) (load strong : Bool) : List Access × Bool × Bool :=
  let es := (p.order strong).map fun c => p.elem load c.1 c.2
  let scs := if p.x.fmt.block = 0 then []
    else (List.range p.x.memRows).flatMap fun u => (List.range p.x.scalesPerRow).map fun q => p.scale load u q
  let ts := if p.x.fmt = .ks4 then [p.tileScale load] else []
  let al := es ++ scs ++ ts
  (al.map fun a => a.1, al.any fun a => a.2 && !a.1.zeroed, al.any fun a => a.1.zeroed)

/-! ## Loads and stores through a register (R177 to R181) -/

/-- Every line of the window is poisoned by a fault; an acquire point stands all the same (R93, R111, R173, R177). -/
def poisonLoad (s : State) (k : BKey) (b : Block) (td : TReg) (x : Tile) (ord : MemOrd) (f : FaultInfo) : Out :=
  let b1 := b.commitTile td ({ x with cmp := false, raw := [] }.poisonWindow (some (f.origin b.pc)))
  .next (enqueueTile s k (b1.issued td) ord true (Ev.plain 0 .read b.pc ord))

/-- The lowest address a plan's elements name, for the record of a fault that meets them all (R97). -/
def Plan.lowest (p : Plan) : W64 :=
  match (p.x.coords.map fun c =>
      let (u, v) := p.x.memCoord c.1 c.2
      let (uc, vc, _) := p.tensor.edge (p.row u) v
      p.e + uc * p.tensor.stride + (elemBytes p.x.fmt vc).1) with
  | [] => p.image p.e
  | a :: as => p.image (as.foldl min a)

/-- Row numbers of an index tile, the checks of R181 first. -/
def indexRows (s : State) (k : BKey) (b : Block) (tx : TReg) (m : Nat) : Except FaultInfo (List Int) :=
  match s.source k b tx with
  | .error f => .error f
  | .ok t =>
    if t.fmt ≠ .i32 && t.fmt ≠ .ui32 then .error (FaultInfo.atTile causeFormat tx 0 0)
    else if t.wrows ≠ m || t.wcols ≠ 1 then .error (FaultInfo.atTile causeShape tx 0 0)
    else match (List.range m).find? fun u => t.poisoned u 0 with
      | some u => .error (FaultInfo.poisoned t.origin 0 (some (tx, u, 0)))
      | none => .ok ((List.range m).map fun u => t.fmt.int (t.get u 0))

/-- The first element that a store would write and that is poisoned (R96, R177). -/
def poisonedData (x : Tile) (as : List Access) : Option (Nat × Nat) :=
  (as.find? fun a => (match a.target with | .bytes .. => true | _ => false)
    && (match a.dst with | .elem .. => x.poisoned a.cell.1 a.cell.2 | _ => false)).map fun a => a.cell

/-- The checks of a tile access through a register up to the rights, then the access (R177, R181). `tx` is the index tile. -/
def tileAccess (load : Bool) (td : TReg) (aref : ARef) (r : SReg) (tx : Option TReg) (kc : Bool) (ord : MemOrd) (disp : BitVec 20)
    (s : State) : Out :=
  onBlock s fun k b =>
    withTile s k b (if load then b.useTile td else s.source k b td) fun x =>
      let bound : Option FaultInfo := match tx with
        | some t => (match b.useTile t with | .error f => (if f.cause = causeUnbound then some f else none) | .ok _ => none)
        | none => none
      match bound with
      | some f => trapOut s k b f
      | none =>
        if b.pa aref then trapOut s k b (b.refPoison aref)
        else if b.ps r then trapOut s k b b.scalarPoison
        else
          match (match tx with
            | some t => (indexRows s k b t x.memRows).map some
            | none => .ok none) with
          | .error f => trapOut s k b f
          | .ok rows =>
            let image := b.ga aref
            let e := accessOff image disp.toInt
            let need := if load then Need.load else Need.store
            let plan (h : HEntry) : Plan :=
              { x := x
                h := h
                hidx := refH image
                base := 0
                limit := h.bound
                e := e
                tensor := b.tensor r x
                row := fun u => match rows with | some l => l.getD u 0 | none => (u : Int) }
            let blank := parseHandle 0 0 0 0
            match checkHandle s (s.envOf k b) (plan blank).lowest need with
            | .wait s => .next s
            | .bad s f =>
              if load then poisonLoad s k b td x ord f
              else
                -- a declined second-stage fault keeps its address (R100)
                let where_ := match f.addr with | some (1, a) => some (1, a) | _ => some (0, (plan blank).image e)
                trapOut s k b { f with aref := aref.val, addr := where_ }
            | .ok s h =>
              let p := plan h
              let use : RefUse := { ref := some (aref, image, disp.toInt), bale := baleSize h.mcls }
              let (as, edge, beyond) := p.all load (MemOrd.isStrong ord)
              if load then
                let compact : Bool := kc && h.ce && r = 0 && e % 512 = 0 && x.wholeWindow && x.link.isNone && x.fmt.block = 0
                  && x.fmt ≠ .a56 && x.memRows * x.rbm % 512 = 0 && !edge && !beyond
                queueLoad s k b td x use ord as (edge || beyond) false fun failed => compact && !failed
              else match poisonedData x as with
                | some c => trapOut s k b (FaultInfo.poisoned x.origin 0 (some (td, c.1, c.2)))
                | none => queueStore (s.fired k [x]) k b td aref.val use ord as (edge || beyond)

/-- TLD (R175 to R178). -/
def execTld (td : TReg) (aref : ARef) (b : SReg) (kc : Bool) (ord : MemOrd) (disp : BitVec 20) (s : State) : Out :=
  tileAccess true td aref b none kc ord disp s

/-- TST (R175 to R177). -/
def execTst (td : TReg) (aref : ARef) (b : SReg) (ord : MemOrd) (disp : BitVec 20) (s : State) : Out :=
  tileAccess false td aref b none false ord disp s

/-- TLDG (R181). -/
def execTldg (td : TReg) (aref : ARef) (b : SReg) (tx : TReg) (ord : MemOrd) (disp : BitVec 20) (s : State) : Out :=
  tileAccess true td aref b (some tx) false ord disp s

/-- TSTS (R181). -/
def execTsts (td : TReg) (aref : ARef) (b : SReg) (tx : TReg) (ord : MemOrd) (disp : BitVec 20) (s : State) : Out :=
  tileAccess false td aref b (some tx) false ord disp s

/-! ## Parameter windows (R184) -/

/-- A parameter window of the block's launch. -/
def State.window (s : State) (b : Block) (w : WinReg) : Option (W64 × Nat) :=
  match s.launchOf b with
  | some l => (l.windows.getD w.val none)
  | none => none

/-- The trap of an unbound window. -/
def paramFault (w : WinReg) : FaultInfo := { FaultInfo.plain causeParam with aref := w.val }

/-- A target of a window that its handle no longer holds faults BOUND (R81, R184). -/
def Access.rebound (a : Access) : Access :=
  match a.target with
  | .bytes h image _ n => if inBound (refOff image) n h.bound then a
      else { a with target := .bad (FaultInfo.atRef causeBound image) }
  | _ => a

/-- PLD (R184). DESIGN CHOICE (log 15): its faults are looked for in the order UNBOUND_TILE, PARAM, POISON of the tensor's scalar, FORMAT. -/
def execPld (td : TReg) (win : WinReg) (b : SReg) (disp : BitVec 20) (s : State) : Out :=
  onBlock s fun k blk =>
    withTile s k blk (blk.useTile td) fun x =>
      match s.window blk win with
      | none => trapOut s k blk (paramFault win)
      | some (image, len) =>
        if blk.ps b then trapOut s k blk blk.scalarPoison
        else if x.fmt.block ≠ 0 then trapOut s k blk (FaultInfo.atTile causeFormat td 0 0)
        else
          let plan (h : HEntry) : Plan :=
            { x := x
              h := h
              hidx := refH image
              base := refOff image
              limit := len
              e := disp.toInt
              tensor := blk.tensor b x
              row := fun u => (u : Int) }
          match checkHandle s (s.envOf k blk) (plan (parseHandle 0 0 0 0)).lowest Need.load with
          | .wait s => .next s
          | .bad s f => poisonLoad s k blk td x .weak f
          | .ok s h =>
            let (as, edge, beyond) := (plan h).all true false
            queueLoad s k blk td x { ref := none, bale := 0 } .weak (as.map Access.rebound) edge beyond fun _ => false

/-- PLDS (R184). -/
def execPlds (d : SReg) (win : WinReg) (disp : BitVec 20) (s : State) : Out :=
  onBlock s fun k b =>
    match s.window b win with
    | none => trapOut s k b (paramFault win)
    | some (image, len) =>
      if !inBound disp.toInt 8 len then .next (s.setBlock k (((b.putS d 0 false).raise flPWB).issuedAs none 0))
      else
        match locate s (s.envOf k b) (refH image) (accessOff image disp.toInt) 8 false Need.load with
        | .wait s => .next s
        | .bad s f =>
          .next (s.setBlock k ((if d = 0 then b else (b.putS d 0 true).noteOrigin (some (f.origin b.pc))).issuedAs none 0))
        | .ok s (_, im, ps) =>
          let e : Ev := { Ev.plain s.evSeq .read b.pc .weak with
            units := [EvUnit.load im ps [.reg 0]]
            dest := .scalar d
            rights := 1
            copy := true }
          .next ({ s with evSeq := s.evSeq + 1 }.setBlock k ((b.enqueue e).issuedAs (some e.id) 0))

/-- TPRF (R185): only poison traps; no value that a program can observe changes. -/
def execTprf (aref : ARef) (b : SReg) (_disp : BitVec 20) (s : State) : Out :=
  onBlock s fun k blk =>
    if blk.pa aref then trapOut s k blk (blk.refPoison aref)
    else if blk.ps b then trapOut s k blk blk.scalarPoison
    else .next (s.setBlock k blk.advance)

/-! ## Distributed tensors (R182, R183) -/

/-- The header of an owner table. -/
structure Owner where
  br : Nat
  bc : Nat
  nbr : Nat
  nbc : Nat
  efmt : Nat
  stride : Nat
  /-- a field that must be zero is not -/
  rsv : Bool

/-- Reads a header from its 32 bytes. -/
def parseOwner (bs : List Byte) : Owner :=
  let f (off n : Nat) : Nat := leNat ((bs.drop off).take n)
  { br := f 0 2, bc := f 2 2, nbr := f 4 2, nbc := f 6 2, efmt := f 8 1, stride := f 16 8,
    rsv := f 9 7 ≠ 0 || f 24 8 ≠ 0 }

/-- The instruction faults FORMAT on its table (R183). -/
def Owner.malformed (o : Owner) (x : Tile) : Bool :=
  o.br = 0 || o.bc = 0 || o.nbr = 0 || o.nbc = 0 || o.rsv || o.efmt ≠ x.fmt.code || x.fmt.bits < 8 || x.fmt.block ≠ 0

/-- The handle that owns a block, from its table entry (R183): HANDLE when the entry or the device does not fit. -/
def ownerHandle (s : State) (e : Env) (need : Need) (w0 w1 : Nat) (off : Nat) : Res HEntry :=
  let image := mkRef (fld 12 20 w0) off
  if fld 32 32 w0 ≠ 0 || fld 44 20 w1 ≠ 0 then .bad s (FaultInfo.atRef causeHandle image)
  else
    (checkHandle s e image need).andThen fun s h =>
      let dev := fld 0 12 w0
      let ok : Bool := if dev = s.devid.toNat then h.space = 0 else h.space = 2 && h.devid = dev
      if ok then .ok s h else .bad s (FaultInfo.atRef causeHandle image)

/-- One element of a distributed tensor: its access, and whether it was clamped, zeroed or dropped (R183). -/
def ownerElem (load : Bool) (env : Env) (need : Need) (tbl : W64) (disp : Int) (o : Owner) (x : Tile) (r0 c0 : Nat)
    (s : State) (i j : Nat) : Res (Access × Bool) :=
  let r := min (r0 + i) (o.nbr * o.br - 1)
  let c := min (c0 + j) (o.nbc * o.bc - 1)
  let isOut : Bool := o.nbr * o.br ≤ r0 + i || o.nbc * o.bc ≤ c0 + j
  let a (t : Target) : Access :=
    { cell := (i, j)
      dst := .elem (x.wrow0 + i) (x.wcol0 + j) 0
      target := t
      data := x.get i j
      width := if x.fmt = .a56 then 64 else x.fmt.bits
      bit := 0 }
  let n := if x.fmt = .a56 then 8 else x.fmt.bits / 8
  if isOut && !load then .ok s (a .drop, true)
  else
    let k := r / o.br * o.nbc + c / o.bc
    match readRef s env tbl (disp + 32 + 16 * k) 16 false Need.load with
    | .wait s => .wait s
    | .bad s f => if load then .ok s (a (.bad f), isOut) else .bad s f
    | .ok s bs =>
      let w0 := leNat (bs.take 8)
      let w1 := leNat (bs.drop 8)
      let off := fld 0 44 w1 + r % o.br * o.stride + c % o.bc * n
      match ownerHandle s env need w0 w1 off with
      | .wait s => .wait s
      | .bad s f => if load then .ok s (a (.bad f), isOut) else .bad s { f with tile := none }
      | .ok s h =>
        let image := mkRef (fld 12 20 w0) off
        if !inBound off n h.bound then .ok s (a (if load then .zero else .drop), true)
        else .ok s (a (.bytes h image image n), isOut)

/-- The elements of a distributed access, in row-major order. -/
def ownerPlan (load : Bool) (env : Env) (need : Need) (tbl : W64) (disp : Int) (o : Owner) (x : Tile) (r0 c0 : Nat) (s : State) :
    Res (List Access × Bool) :=
  resFold (fun s acc c =>
    (ownerElem load env need tbl disp o x r0 c0 s c.1 c.2).andThen fun s a => .ok s (acc.1 ++ [a.1], acc.2 || a.2))
    s ([], false) x.coords

/-- Bytes of an owner table's header (R182). -/
def tableHeader (aref : ARef) (disp : BitVec 20) : Reach := fun s k b =>
  rangeHomes s (s.envOf k b) (mkRef (refH (b.ga aref)) (accessOff (b.ga aref) disp.toInt % (2 ^ 44)).toNat) 32

/-- Bytes of the owner table's entries that the window of a tile needs, by the header as it stands (R183). -/
def tableEntries (td : TReg) (aref : ARef) (r : SReg) (disp : BitVec 20) : Reach := fun s k b =>
  match b.gt td with
  | none => []
  | some x =>
    let o := parseOwner (s.readHomes (tableHeader aref disp s k b))
    let v := (b.gs r).toNat
    let block (c : Nat × Nat) : Nat :=
      min (fld 0 32 v + c.1) (o.nbr * o.br - 1) / o.br * o.nbc + min (fld 32 32 v + c.2) (o.nbc * o.bc - 1) / o.bc
    let at_ (n : Nat) : W64 :=
      mkRef (refH (b.ga aref)) ((accessOff (b.ga aref) disp.toInt + (32 + 16 * n : Nat)) % (2 ^ 44)).toNat
    (x.coords.map block).eraseDups.flatMap fun n => rangeHomes s (s.envOf k b) (at_ n) 16

/-- TLDD and TSTD (R183). The table is read at issue, after what the read waits for: an acquire point of the access comes before it
(R106, R111). -/
def distributed (load : Bool) (td : TReg) (aref : ARef) (r : SReg) (ord : MemOrd) (disp : BitVec 20) (s : State) : Out :=
  let strong := MemOrd.isAcq ord || MemOrd.isStrong ord
  afterOlder strong (tableHeader aref disp) s fun s _ _ => afterOlder strong (tableEntries td aref r disp) s fun s k b =>
    withTile s k b (if load then b.useTile td else s.source k b td) fun x =>
      if b.pa aref then trapOut s k b (b.refPoison aref)
      else if b.ps r then trapOut s k b b.scalarPoison
      else
        let env := s.envOf k b
        let image := b.ga aref
        let v := (b.gs r).toNat
        match (locate s env (refH image) (accessOff image disp.toInt) 32 false Need.load).andThen fun s l =>
            (readUnit s env Need.load l.2.1 l.2.2).andThen fun s u => .ok s (l.1, u.2) with
        | .wait s => .next s
        | .bad s f => if load then poisonLoad s k b td x ord f else trapOut s k b { f with aref := aref.val }
        | .ok s (h, bs) =>
          let o := parseOwner bs
          if o.malformed x then
            let tile := if o.efmt ≠ x.fmt.code || x.fmt.bits < 8 || x.fmt.block ≠ 0 then some (td, 0, 0) else none
            trapOut s k b { FaultInfo.atVA causeFormat (h.base + (accessOff image disp.toInt).toNat) with tile := tile }
          else
            match ownerPlan load env (if load then Need.load else Need.store) image disp.toInt o x (fld 0 32 v) (fld 32 32 v) s with
            | .wait s => .next s
            | .bad s f => trapOut s k b { f with aref := aref.val }
            | .ok s (as, clmp) =>
              let use : RefUse := { ref := none, bale := 0 }
              if load then queueLoad s k b td x use ord as clmp false fun _ => false
              else match poisonedData x as with
                | some c => trapOut s k b (FaultInfo.poisoned x.origin 0 (some (td, c.1, c.2)))
                | none => queueStore (s.fired k [x]) k b td aref.val use ord as clmp

/-- TLDD (R183). -/
def execTldd (td : TReg) (aref : ARef) (b : SReg) (ord : MemOrd) (disp : BitVec 20) (s : State) : Out :=
  distributed true td aref b ord disp s

/-- TSTD (R183). -/
def execTstd (td : TReg) (aref : ARef) (b : SReg) (ord : MemOrd) (disp : BitVec 20) (s : State) : Out :=
  distributed false td aref b ord disp s

end Sys2Proof.Machine
end

