-- ==== Sys2Proof/Machine/Link.lean ====
section
/-! DEFINITION. XCPY and the link engine of a die (R186, R187, R111). -/

namespace Sys2Proof.Machine

/-! ## Points of engine commands (R111) -/

/-- A point of a command still stands in a queue, that of its block or of a block that was saved or has retired. -/
def State.waitsPoint (s : State) (p : Option (BKey × Nat)) : Bool :=
  p.any fun x => s.eventQueues.any fun q => q.any fun e => e.id = x.2

/-- An event older than the release point of a command is still queued before it: the accesses of the command wait for it (R111: `.rel`
orders what the block has written before the command's reads). -/
def State.waitsRelease (s : State) (p : Option (BKey × Nat)) : Bool :=
  p.any fun x => s.eventQueues.any fun q => (q.any fun e => e.id = x.2) && q.any fun e => e.id < x.2

/-- A block's events for an engine command: its acquire point, then its release point, by the strength of the command. Answers
the block, and the names of the two points. -/
def Block.enginePoints (b : Block) (k : BKey) (ord : MemOrd) (id : Nat) : Block × Option (BKey × Nat) × Option (BKey × Nat) :=
  let pt (kind : EvKind) (n : Nat) : Ev := { Ev.plain n kind b.pc ord with engine := some id }
  match ord with
  | .acq _ => (b.enqueue (pt .acqPoint (id + 1)), some (k, id + 1), none)
  | .rel _ => (b.enqueue (pt .relPoint (id + 2)), none, some (k, id + 2))
  | _ => (b, none, none)

/-! ## XCPY -/

/-- The handle of an operand after R81 steps 2 to 5 over n bytes, and RIGHTS for HOME COREPIN (R187). -/
def operandCheck (s : State) (e : Env) (image : W64) (n : Nat) (align : Bool) (need : Need) : Res HEntry :=
  (checkHandle s e image need).andThen fun s h =>
    if h.home = 2 then .bad s (FaultInfo.atRef causeRights image)
    else if !inBound (refOff image) n h.bound then .bad s (FaultInfo.atRef causeBound image)
    else if align && (h.base + refOff image) % n ≠ 0 then .bad s (FaultInfo.atVA causeAlign (h.base + refOff image))
    else .ok s h

/-- Commands that a link queue holds (R187). -/
def linkQueueSize : Nat := 256

/-- The checks of an XCPY at issue, in the order of R187. -/
def xcpyCheck (s : State) (e : Env) (b : Block) (dst src flag : ARef) (n : Nat) : Res Unit :=
  let at_ (r : ARef) (x : Res HEntry) : Res HEntry := x.mapFault fun f => { f with aref := r.val }
  (at_ dst (operandCheck s e (b.ga dst) n false Need.store)).andThen fun s _ =>
    (at_ src (operandCheck s e (b.ga src) n false Need.load)).andThen fun s _ =>
      (at_ flag (operandCheck s e (b.ga flag) 8 true Need.store)).andThen fun s _ =>
        if 2 ^ 40 ≤ n then .bad s { FaultInfo.atRef causeBound (b.ga dst) with aref := dst.val } else .ok s ()

/-- XCPY (R187): the command is placed on the link queue of the core's die, or s[d] is 1. Its placement waits for older acquires, and orders
nothing else but through its points (R106, R111). -/
def execXcpy (d : SReg) (dst src flag : ARef) (b : SReg) (ord : MemOrd) (s : State) : Out :=
  afterSettling Ev.acquires s fun s k x =>
    match [dst, src, flag].find? x.pa with
    | some r => trapOut s k x (x.refPoison r)
    | none =>
      if x.ps b then trapOut s k x x.scalarPoison
      else
        let n := (x.gs b).toNat
        match xcpyCheck s (s.envOf k x) x dst src flag n with
        | .wait s => .next s
        | .bad s f => trapOut s k x f
        | .ok s _ =>
          let die := s.dieOf k.core
          let q := s.die die
          if linkQueueSize ≤ q.link.length then .next (s.setBlock k ((x.putS d 1 false).issuedAs none 0))
          else
            let id := s.evSeq
            let (x1, acq, rel) := (x.putS d 0 false).enginePoints k ord id
            let c : LinkCmd :=
              { id := id
                ctx := s.ctxNumOf x
                core := k.core
                dst := x.ga dst
                src := x.ga src
                flag := some (x.ga flag)
                n := n
                who := x.who
                acq := acq
                rel := rel
                node := none
                next := 0
                buffer := []
                copied := false
                failed := false
                held := false
                cause := 0 }
            .next (({ s with evSeq := id + 3 }.setDie die { q with link := q.link ++ [c] }).setBlock k (x1.issuedAs none 0))

/-! ## The link engine -/

/-- Environment of the engine that runs a command. -/
def LinkCmd.env (c : LinkCmd) : Env := { ctx := c.ctx, core := c.core, who := none }

/-- Home addresses of the next n bytes of a command's copy, and of its completion flag. -/
def LinkCmd.dataHomes (c : LinkCmd) (s : State) (n : Nat) : List Nat :=
  rangeHomes s c.env (c.dst + BitVec.ofNat 64 c.next) n ++ rangeHomes s c.env (c.src + BitVec.ofNat 64 c.next) n
def LinkCmd.flagHomes (c : LinkCmd) (s : State) : List Nat := match c.flag with | some f => rangeHomes s c.env f 8 | none => []

/-- An access of a command to the bytes at ps waits: an older command of its queue has still to access one of them (R111). -/
def State.linkWaits (s : State) (older : List LinkCmd) (ps : List Nat) : Bool :=
  let mine := ps.map s.nowAt
  older.any fun x => (x.dataHomes s (x.n - x.next) ++ x.flagHomes s).any fun p => mine.contains (s.nowAt p)

/-- Bytes that one step of a copy takes: a free number of those that are left (log 2). -/
def LinkCmd.piece (c : LinkCmd) (n : Nat) : List Nat :=
  let left := c.n - c.next
  if left = 0 then [] else (List.range (1 + Config.unstated n % left)).map (c.next + ·)

/-- Reads bytes of a range, each with every check of R81 again: what it held, or none; and the first fault. -/
def engineRead (e : Env) (image : W64) : State → List Nat → Res (List (Option Byte) × Option FaultInfo)
  | s, [] => .ok s ([], none)
  | s, i :: is => match readRef s e image i 1 false Need.load with
    | .wait s => .wait s
    | .bad s f => (engineRead e image s is).andThen fun s r => .ok s (none :: r.1, some f)
    | .ok s bs => (engineRead e image s is).andThen fun s r => .ok s (some (bs.headD 0) :: r.1, r.2)

/-- The checks of the writes, before any of them: whether one of them waits for the hypervisor. -/
def engineReady (e : Env) (image : W64) : State → List Nat → Res Unit
  | s, [] => .ok s ()
  | s, i :: is =>
    match (locate s e (refH image) ((refOff image : Int) + i) 1 false Need.store).andThen fun s l =>
        chaseAll s e Need.store l.2.1 l.2.1 l.2.2 with
    | .wait s => .wait s
    | .bad s _ => engineReady e image s is
    | .ok s _ => engineReady e image s is

/-- Writes the bytes that were read, from a place on; answers the first fault. -/
def engineWrite (e : Env) (image : W64) : State → Nat → List (Option Byte) → Res (Option FaultInfo)
  | s, _, [] => .ok s none
  | s, i, none :: rest => engineWrite e image s (i + 1) rest
  | s, i, some b :: rest => match writeRef s e image i [b] false Need.store with
    | .wait s => .wait s
    | .bad s f => (engineWrite e image s (i + 1) rest).andThen fun s _ => .ok s (some f)
    | .ok s _ => engineWrite e image s (i + 1) rest

/-- A command of a link queue rewritten. -/
def State.setLink (s : State) (die : Nat) (c : LinkCmd) : State :=
  let q := s.die die
  s.setDie die { q with link := q.link.map fun x => if x.id = c.id then c else x }

/-- A command leaves its link queue. -/
def State.dropLink (s : State) (die : Nat) (c : LinkCmd) : State :=
  let q := s.die die
  s.setDie die { q with link := q.link.filter fun x => x.id ≠ c.id }

/-- ID of the ring entries of a link command: its block, or the graph of its node (R318). -/
def LinkCmd.ident (c : LinkCmd) : Nat := match c.node with | some (g, _) => g | none => c.who.num

/-- SRC of a ring entry of a link command: 7 for a node's copy, 5 for an unreachable device (R321), 1 otherwise (R318). -/
def LinkCmd.src318 (c : LinkCmd) (f : FaultInfo) : Nat :=
  match c.node with
  | some _ => 7
  | none => if f.remote then 5 else 1

/-- Address of a fault for a ring entry (R318). -/
def FaultInfo.where_ (f : FaultInfo) : W64 := match f.addr with | some (_, a) => a | none => 0

/-- A copy that met a fault: the first one is posted to the context fault ring (R187, R318). -/
def LinkCmd.noteFault (c : LinkCmd) (s : State) (fault : Option FaultInfo) : State × LinkCmd :=
  match fault, c.failed with
  | some f, false => (postCtxFault s c.ctx (c.src318 f) f.cause f.where_ c.ident, { c with failed := true, cause := f.cause })
  | _, _ => (s, c)

/-- A copy after the reads of a step: their bytes stand in the engine until they are written; with none left the copy has ended. -/
def takeLink (s : State) (die : Nat) (c : LinkCmd) (r : List (Option Byte) × Option FaultInfo) : State :=
  let (s, c) := c.noteFault s r.2
  s.setLink die { c with
    buffer := r.1
    copied := r.1.isEmpty
    held := false }

/-- A copy after the writes of a step. -/
def passLink (s : State) (die : Nat) (c : LinkCmd) (fault : Option FaultInfo) : State :=
  let next := c.next + c.buffer.length
  let (s, c) := c.noteFault s fault
  s.setLink die { c with
    next := next
    buffer := []
    copied := c.n ≤ next
    held := false }

/-- XCPY_COPY: the engine reads the next bytes of command idx, or writes those that it has read (R105, R187): every byte that meets no fault is
copied. -/
def execXcpyCopy (die idx : Nat) (s : State) : Out :=
  match (s.die die).link[idx]? with
  | none => .next s
  | some c =>
    let hold (s : State) : Out := .next (s.setLink die { c with held := true })
    if c.copied || s.waitsPoint c.acq || s.waitsRelease c.rel then .next s
    else if c.buffer.isEmpty then
      let piece := c.piece s.freeCount
      if s.linkWaits ((s.die die).link.take idx) (c.dataHomes s piece.length) then .next s
      else match engineRead c.env c.src s piece with
        | .wait s => hold s
        | .bad s _ => .next s
        | .ok s r => .next (takeLink s.bumpFree die c r)
    else
      let places := (List.range c.buffer.length).map (c.next + ·)
      match (engineReady c.env c.dst s places).andThen fun s _ => engineWrite c.env c.dst s c.next c.buffer with
      | .wait s => hold s
      | .bad s _ => .next s
      | .ok s fault => .next (passLink s die c fault)

/-- Adds to the 8 bytes at a reference image in one strong event at the home (R187, R308). -/
def strongAdd (s : State) (e : Env) (rights : Need) (image : W64) (v : Nat) : Res Unit :=
  let need := rights.scalar 8
  (locate s e (refH image) (refOff image) 8 true need).andThen fun s l =>
    let done : Res Unit := (chaseAll s e need l.2.1 l.2.1 l.2.2).andThen fun s r =>
      if r.2.any fun p => s.eccAt p then .bad (s.firedHomes r.2) (FaultInfo.atRef causeEcc (r.1.getD l.2.1))
      else .ok (s.writeHomes r.2 (leBytes 8 ((leNat (s.readHomes r.2) + v) % 2 ^ 64))) ()
    done.sampled e (s.unitHops l.2.2)

/-- XCPY_FLAG: after the copy, and after the release point, the completion flag takes 1, or 1 + 2^32 when a byte failed; a
fault of the add is posted and not retried (R111, R187). A node's copy waits for its COPY_NODE while its graph goes on. -/
def execXcpyFlag (die idx : Nat) (s : State) : Out :=
  let q := s.die die
  match q.link[idx]? with
  | none => .next s
  | some c =>
    if !c.copied || s.waitsPoint c.rel || s.linkWaits (q.link.take idx) (c.flagHomes s) then .next s
    else if c.node.any fun n => s.graphs.any fun g => g.num = n.1 && !g.ending then .next s
    else match c.flag with
      | none => .next (s.dropLink die c)
      | some flag =>
        match strongAdd s c.env Need.store flag (if c.failed then 1 + 2 ^ 32 else 1) with
        | .wait s => .next s
        | .bad s f => .next ((postCtxFault s c.ctx (c.src318 f) f.cause flag c.ident).dropLink die c)
        | .ok s _ => .next (s.dropLink die c)

end Sys2Proof.Machine
end

