-- ==== Sys2Proof/Machine/Special.lean ====
section
/-! DEFINITION. Arithmetic of the lane engine on encodings: the element operations, conversion, comparison, rank order, and the
special functions (R65, R68, R71, R210, R212, R217, R218, R220, R221). -/

namespace Sys2Proof

/-! ## Element operations (R206, R210) -/

/-- The arithmetic formats (R206). -/
def Efmt.arith (f : Efmt) : Bool := f.isInt || match f with | .fp32 | .fp16 | .bf16 => true | _ => false

/-- The operations TADD to TNEG. -/
inductive EOp where
  | add | sub | mul | fma | min | max | abs | neg
  deriving DecidableEq, Repr

/-- MIN or MAX of two values: a NaN operand gives NaN, and −0 is below +0 (R68). -/
def Val.minmax (max : Bool) (a b : Val) : Val :=
  if a.isNan || b.isNan then .nan
  else
    let below : Bool := Val.lt a b || (Val.eqv a b && a.sign && !b.sign)
    if below != max then a else b

/-- The exact value of an operation, with the flags of R68. -/
def EOp.value (op : EOp) (rnd : Rnd) (a b c : Val) : Fv :=
  match op with
  | .add => a.add rnd b
  | .sub => a.add rnd b.neg
  | .mul => a.mul b
  | .fma => let p := a.mul b; let t := p.1.add rnd c; (t.1, p.2 ||| t.2)
  | .min => (Val.minmax false a b, 0)
  | .max => (Val.minmax true a b, 0)
  | .abs => (a.abs, 0)
  | .neg => (a.neg, 0)

/-- The exact integer of an operation. -/
def EOp.int (op : EOp) (a b c : Int) : Int :=
  match op with
  | .add => a + b
  | .sub => a - b
  | .mul => a * b
  | .fma => a * b + c
  | .min => if a ≤ b then a else b
  | .max => if a ≤ b then b else a
  | .abs => a.natAbs
  | .neg => -a

/-- The result of an operation on encodings (R206, R210). Floating-point ABS and NEG are exact whatever sat holds. -/
def EOp.run (op : EOp) (f : Efmt) (rnd : Rnd) (sat : Bool) (draw : Nat) (a b c : Nat) : Nat × BitVec 64 :=
  if f.isInt then f.convInt sat (op.int (f.int a) (f.int b) (f.int c))
  else
    let v := op.value rnd (f.decode a) (f.decode b) (f.decode c)
    let sat := sat && op ≠ .abs && op ≠ .neg
    let r := f.round rnd sat draw v.1
    (r.1, v.2 ||| r.2)

/-- Conversion of a value into a format: integer to integer wraps or clamps, everything else rounds (R64, R65). -/
def convert (src dst : Efmt) (rnd : Rnd) (sat : Bool) (draw : Nat) (v : Fv) (int : Int) : Nat × BitVec 64 :=
  if src.isInt && dst.isInt then dst.convInt sat int
  else
    let r := dst.round rnd sat draw v.1
    (r.1, v.2 ||| r.2)

/-- The comparison predicates (R212). -/
def predHolds (pred : Nat) (a b : Val) : Bool :=
  let un : Bool := a.isNan || b.isNan
  match pred with
  | 0 => Val.eqv a b
  | 1 => !Val.eqv a b
  | 2 => Val.lt a b
  | 3 => Val.lt a b || Val.eqv a b
  | 4 => Val.lt b a
  | 5 => Val.lt b a || Val.eqv a b
  | 6 => un
  | _ => !un

/-- An encoding with each NaN made canonical. -/
def Efmt.canon (f : Efmt) (v : Nat) : Nat := if (f.decode v).isNan then f.nanBits else v

/-! ## Sums, maxima, ranks (R71, R220, R221) -/

/-- The exact sum of values: a NaN decides first, then opposite infinities, then an infinity (R71, R220). -/
def sumVals (rnd : Rnd) (vs : List Val) : Fv :=
  if vs.any Val.isNan then (.nan, 0)
  else
    let pos := vs.any fun v => v = .inf false
    let neg := vs.any fun v => v = .inf true
    if pos && neg then (.nan, flNVL)
    else if pos then (.inf false, 0)
    else if neg then (.inf true, 0)
    else match vs with
      | [] => (.fin false 0 0, 0)
      | v :: rest => (rest.foldl (fun (a x : Val) => (a.add rnd x).1) v, 0)

/-- The sum of a row's encodings in their format, rounded once (R220). -/
def sumRow (f : Efmt) (rnd : Rnd) (sat : Bool) (draw : Nat) (vs : List Nat) : Nat × BitVec 64 :=
  if f.isInt then f.convInt sat ((vs.map f.int).foldl (· + ·) 0)
  else
    let t := sumVals rnd (vs.map f.decode)
    let r := f.round rnd sat draw t.1
    (r.1, t.2 ||| r.2)

/-- The largest of a row's encodings; an empty row gives −∞ or the least integer (R220). -/
def maxRow (f : Efmt) (vs : List Nat) : Nat :=
  match vs.map f.decode with
  | [] => match f.float? with
    | some p => p.infBits true
    | none => bitsOf f.bits f.intRange.1
  | v :: rest => (f.round .rne false 0 (rest.foldl (Val.minmax true) v)).1

/-- Strictly higher rank by value (R221). -/
def Val.higher (a b : Val) : Bool := !a.isNan && (b.isNan || Val.lt b a)

/-- A column goes before the first column that it does not rank behind. -/
def insertRank (behind : Nat → Nat → Bool) (x : Nat) : List Nat → List Nat
  | [] => [x]
  | y :: ys => if behind x y then y :: insertRank behind x ys else x :: y :: ys

/-- Columns in rank order; equal ranks keep ascending column order (R221, R223). -/
def rankCols (f : Efmt) (desc : Bool) (v : Nat → Nat) (cols : List Nat) : List Nat :=
  let val (j : Nat) : Val := f.decode (v j)
  let behind (x y : Nat) : Bool := if desc then Val.higher (val y) (val x) else Val.higher (val x) (val y)
  cols.foldr (insertRank behind) []

/-! ## Special functions (R217, R218) -/

/-- Integer square root by bits, from bit n down. -/
def isqrtFrom (n : Nat) : Nat → Nat → Nat
  | 0, r => r
  | b + 1, r => let t := r + 2 ^ b; isqrtFrom n b (if t * t ≤ n then t else r)

/-- floor(sqrt n). -/
def isqrt (n : Nat) : Nat := isqrtFrom n (Nat.log2 n / 2 + 1) 0

/-- x′: x cut toward zero to 13 significant bits (R217); formats of fewer bits are never cut. -/
def cut13 (m : Nat) (e : Int) : Nat × Int :=
  let len := if m = 0 then 0 else Nat.log2 m + 1
  if len ≤ 13 then (m, e) else (m / 2 ^ (len - 13), e + ((len - 13 : Nat) : Int))

/-- 1 / (m × 2^e), exact or known to lie between two neighbours at 100 bits. -/
def recip (neg : Bool) (m : Nat) (e : Int) : Val :=
  let n := 2 ^ 128
  if n % m = 0 then .fin neg (n / m) (-128 - e) else Val.between neg (n / m) (-128 - e)

/-- 1 / sqrt(m × 2^e) for m > 0. -/
def recipSqrt (m : Nat) (e : Int) : Val :=
  let (m, e) := if e % 2 = 0 then (m, e) else (2 * m, e - 1)
  let r := isqrt (2 ^ 256 / m)
  if m * r * r = 2 ^ 256 then .fin false r (-128 - e / 2) else Val.between false r (-128 - e / 2)

/-- Precision of the logarithm and exponential, in bits after the point. -/
def fixBits : Nat := 200

/-- ln 2 × 2^fixBits, from its series. -/
def ln2Fixed : Nat := (List.range fixBits).foldl (fun a k => a + 2 ^ (fixBits - (k + 1)) / (k + 1)) 0

/-- exp(t / 2^fixBits) × 2^fixBits for 0 ≤ t < 2^fixBits, from its series. -/
def expFixed (t : Nat) : Nat :=
  ((List.range 60).foldl (fun (a : Nat × Nat) k => let x := a.2 * t / 2 ^ fixBits / (k + 1); (a.1 + x, x)) (2 ^ fixBits, 2 ^ fixBits)).1

/-- The bits kept of a fixed-point result; the last bits carry the error of its series. -/
def keepBits : Nat := 140

/-- 2^x for a finite nonzero x. Beyond exponents of ±4096 every format overflows or rounds to nothing, so the exponent is cut
there. -/
def exp2Val (neg : Bool) (m : Nat) (e : Int) : Val :=
  let big : Bool := e + (Nat.log2 m : Int) ≥ 12
  if big then (if neg then Val.between false (2 ^ keepBits) (-5000) else .fin false 1 5000)
  else
    -- x × 2^fixBits, rounded down, and whether that was exact
    let up := fixBits + e
    let x : Nat × Bool := if 0 ≤ up then (m * 2 ^ up.toNat, true) else (m / 2 ^ (-up).toNat, m % 2 ^ (-up).toNat = 0)
    let xs : Int := if neg then -((x.1 : Int) + (if x.2 then 0 else 1)) else x.1
    let n := xs / 2 ^ fixBits
    let f := (xs % 2 ^ fixBits).toNat
    if f = 0 && x.2 then .fin false 1 n
    else
      let y := expFixed (f * ln2Fixed / 2 ^ fixBits)
      Val.between false (y / 2 ^ (fixBits - keepBits)) (n - keepBits)

/-- ln(y / 2^fixBits) × 2^fixBits for 1 ≤ y / 2^fixBits < 2, by the series of the inverse hyperbolic tangent. -/
def lnFixed (y : Nat) : Nat :=
  let z := (y - 2 ^ fixBits) * 2 ^ fixBits / (y + 2 ^ fixBits)
  let z2 := z * z / 2 ^ fixBits
  2 * ((List.range 66).foldl (fun (a : Nat × Nat) k => (a.1 + a.2 / (2 * k + 1), a.2 * z2 / 2 ^ fixBits)) (0, z)).1

/-- log2 of m × 2^e, m > 0. -/
def log2Val (m : Nat) (e : Int) : Val :=
  let l := Nat.log2 m
  let i : Int := e + l
  if m = 2 ^ l then .fin (i < 0) i.natAbs 0
  else
    let y := m * 2 ^ (fixBits - l)
    let v : Int := i * 2 ^ fixBits + (lnFixed y * 2 ^ fixBits / ln2Fixed : Nat)
    Val.between (v < 0) (v.natAbs / 2 ^ (fixBits - keepBits)) (-(keepBits : Int))

/-- The special functions. -/
inductive SFun where
  | rcp | rsq | rcpn | rsqn | exp2 | log2
  deriving DecidableEq, Repr

/-- The value of a special function, with the flags of its own table (R217, R218). -/
def SFun.value (op : SFun) (x y : Val) : Fv :=
  let one : Val := .fin false 1 0
  match op, x with
  | _, .nan => (.nan, 0)
  | .rcp, .inf s => (.fin s 0 0, 0)
  | .rcp, .fin s 0 _ => (.inf s, 0)
  | .rcp, .fin s m e => let (m, e) := cut13 m e; (recip s m e, 0)
  | .rsq, .inf s => if s then (.nan, flNVL) else (.fin false 0 0, 0)
  | .rsq, .fin s 0 _ => (.inf s, 0)
  | .rsq, .fin s m e => if s then (.nan, flNVL) else let (m, e) := cut13 m e; (recipSqrt m e, 0)
  | .rcpn, .inf s => if y.isNan then (.nan, 0) else (.fin s 0 0, 0)
  | .rcpn, .fin s 0 _ => if y.isNan then (.nan, 0) else (.inf s, 0)
  | .rcpn, .fin s m e => match y with
    | .nan => (.nan, 0)
    | .inf t => (.inf t, 0)
    | .fin t 0 f => (.fin t 0 f, 0)
    | .fin t n f =>
      let y : Val := .fin t n f
      let d := (one.add .rne ((Val.fin s m e).mul y).1.neg).1
      ((y.add .rne (y.mul d).1).1, 0)
  | .rsqn, .inf s => if y.isNan then (.nan, 0) else if s then (.nan, flNVL) else (.fin false 0 0, 0)
  | .rsqn, .fin s 0 _ => if y.isNan then (.nan, 0) else (.inf s, 0)
  | .rsqn, .fin s m e =>
    if y.isNan then (.nan, 0)
    else if s then (.nan, flNVL)
    else match y with
      | .fin t (n + 1) f =>
        let y : Val := .fin t (n + 1) f
        let d := (one.add .rne (((Val.fin s m e).mul y).1.mul y).1.neg).1
        ((y.add .rne ((y.mul d).1.mul (.fin false 1 (-1))).1).1, 0)
      | v => (v, 0)
  | .exp2, .inf s => if s then (.fin false 0 0, 0) else (.inf false, 0)
  | .exp2, .fin _ 0 _ => (one, 0)
  | .exp2, .fin s m e => (exp2Val s m e, 0)
  | .log2, .inf s => if s then (.nan, flNVL) else (.inf false, 0)
  | .log2, .fin _ 0 _ => (.inf true, 0)
  | .log2, .fin s m e => if s then (.nan, flNVL) else (log2Val m e, 0)

/-- The result of a special function on encodings, rounded to nearest even (R216). -/
def SFun.run (op : SFun) (f : Efmt) (x y : Nat) : Nat × BitVec 64 :=
  let v := op.value (f.decode x) (f.decode y)
  let r := f.round .rne false 0 v.1
  (r.1, v.2 ||| r.2)

/-- Formats of the special functions (R216). -/
def Efmt.special (f : Efmt) : Bool := match f with | .fp32 | .fp16 | .bf16 => true | _ => false

/-- Index formats (R219). -/
def Efmt.index (f : Efmt) : Bool := f = .i32 || f = .ui32

/-! ## Quantising (R270) -/

/-- The wide formats of QUANT. -/
def Efmt.wide (f : Efmt) : Bool := match f with | .fp32 | .fp16 | .bf16 => true | _ => false

/-- emax of R270. -/
def Efmt.emax (f : Efmt) : Int :=
  match f with
  | .mxf8a => 8
  | .mxf8b => 15
  | .mxf6a | .mxf4 => 2
  | .mxf6b => 4
  | _ => 0

/-- The magnitude m × 2^e of a finite value. -/
def Val.mag : Val → Nat × Int
  | .fin _ m e => (m, e)
  | _ => (0, 0)

/-- The larger of two magnitudes. -/
def magMax (a b : Nat × Int) : Nat × Int :=
  let q := min a.2 b.2
  if scaled false a.1 a.2 q < scaled false b.1 b.2 q then b else a

/-- x / y for a finite x and a finite y that is not zero: exact, or known to 200 bits. -/
def Val.quotient (x y : Val) : Val :=
  let s := x.sign != y.sign
  let (m, e) := x.mag
  let (n, f) := y.mag
  let num := m * 2 ^ 200
  if num % n = 0 then .fin s (num / n) (e - f - 200) else Val.between s (num / n) (e - f - 200)

/-- The KS scale: the least UE5M3 value from 2^-17 up whose product with T × Max reaches amax, or 114,688 (R270). -/
def ksScale (amax : Nat × Int) (t : Val) (f : Efmt) : Nat :=
  let max : Val := if f = .ks4 then .fin false 6 0 else .fin false 15 (-1)
  let reaches (u : Nat) : Bool :=
    let p := (((decodeUE5M3 u).mul t).1.mul max).1.mag
    let q := min p.2 amax.2
    scaled false amax.1 amax.2 q ≤ scaled false p.1 p.2 q
  (((List.range 254).map (· + 1)).find? reaches).getD 254

/-- One quantised element: its encoding, and whether it was clamped (R270). -/
def quantElem (f : Efmt) (x scale t : Val) : Nat × Bool :=
  let y := x.quotient (scale.mul t).1
  let r := if f = .mxi8 then Efmt.i8.roundInt .rne 0 (y.mul (.fin false 64 0)).1 else f.round .rne true 0 y
  (r.1, r.2 &&& flOVF ≠ 0)

/-- The scale byte and encodings of a block of values, with the elements clamped (R270). -/
def quantBlock (f : Efmt) (t : Val) (xs : List Val) : Nat × List (Nat × Bool) :=
  let zeros := xs.map fun _ => (0, false)
  if xs.any fun x => x.isNan || x = .inf false || x = .inf true then (0xFF, zeros)
  else
    let amax := xs.foldl (fun a x => magMax a x.mag) (0, 0)
    if amax.1 = 0 then (0, zeros)
    else
      let u : Nat := match f with
        | .ks4 | .ks6 => ksScale amax t f
        | _ => (max (-127) (min 127 ((Nat.log2 amax.1 : Int) + amax.2 - f.emax)) + 127).toNat
      (u, xs.map fun x => quantElem f x (f.decodeScale u) t)

/-- A finite, positive, normal FP32 value (R270). -/
def normalFp32 (v : Nat) : Bool := v < 2 ^ 31 && 1 ≤ v / 2 ^ 23 % 256 && v / 2 ^ 23 % 256 ≤ 254

end Sys2Proof
end

