-- ==== Sys2Proof/Machine/Bindery.lean ====
section
/-! DEFINITION. Bindery queues, ENQ, the bindery engines and their commands, coding, and completion records (R255 to R271). -/

namespace Sys2Proof.Machine

/-! ## Queue descriptors (R256, R257) -/

/-- The bytes from a virtual address that no handle covers, page by page: each is translated like an access (R255, R259). -/
def vaBytes (s : State) (e : Env) (need : Need) : Nat → Nat → Nat → Res (List Nat)
  | 0, _, _ => .ok s []
  | fuel + 1, va, n =>
    if n = 0 then .ok s []
    else (translateTo s e 0 va (fun _ => true) need false).andThen fun s p =>
      let m := min n (4096 - va % 4096)
      (vaBytes s e need fuel (va + m) (n - m)).andThen fun s ps => .ok s ((List.range m).map (p + ·) ++ ps)

/-- Physical address of a descriptor-table entry at a guest-physical address, read by the device through the second stage. -/
def tableAt (s : State) (e : Env) (g : Nat) (need : Need) : Res Nat :=
  match stage2 s e.ctx g need with
  | .ecc => .bad (noteError s g) (FaultInfo.plain causeEcc)
  | .fault d => hvFault s e 0 5 0 0 g d
  | .ok a _ => match s.spaceOf a with
    | none => if s.hasStage2 e.ctx then hvFault s e 0 5 0 0 g 4 else .bad s (FaultInfo.plain causeHandle)
    | some _ => if s.eccAt a then .bad (noteError s a) (FaultInfo.plain causeEcc) else .ok s a

/-- A queue descriptor and where it lies. -/
structure QDesc where
  at_ : Nat
  v : Bool
  ring : Nat
  log2n : Nat
  die : Nat
  tail : Nat
  head : Nat
  /-- a reserved field of words 0 to 3 is nonzero -/
  rsv : Bool
  deriving DecidableEq, Repr

/-- Queue q of a context, none when it is no queue (R256). -/
def queueAt (s : State) (e : Env) (q : Nat) (need : Need) : Res QDesc :=
  let c := s.ctx e.ctx
  if min (fld 0 13 c.bqn.toNat) 4096 ≤ q then .bad s (FaultInfo.plain causeHandle)
  else (tableAt s e (fld 12 44 c.bqb.toNat * 4096 + 64 * q) need).andThen fun s a =>
    let w (i : Nat) : Nat := s.mem.readLE (a + 8 * i) 8
    .ok s {
      at_ := a
      v := (w 0).testBit 63
      ring := fld 0 57 (w 0)
      log2n := fld 8 5 (w 1)
      die := fld 0 1 (w 1)
      tail := fld 0 32 (w 2)
      head := fld 0 32 (w 3)
      rsv := fld 57 6 (w 0) ≠ 0 || fld 13 51 (w 1) ≠ 0 || fld 1 7 (w 1) ≠ 0 || fld 32 32 (w 2) ≠ 0 || fld 32 32 (w 3) ≠ 0 }

/-- The descriptor is one that R259 accepts. -/
def QDesc.valid (d : QDesc) : Bool := d.v && !d.rsv && 4 ≤ d.log2n && d.log2n ≤ 12

/-- Commands that stand in the ring. -/
def QDesc.count (d : QDesc) : Nat := (d.tail + 2 ^ 32 - d.head) % 2 ^ 32

/-- Virtual address of the command at a count. -/
def QDesc.slot (d : QDesc) (n : Nat) : Nat := d.ring + 64 * (n % 2 ^ d.log2n)

/-- A number written at consecutive home addresses. -/
def State.putNum (s : State) (a n v : Nat) : State := s.writeHomes ((List.range n).map (a + ·)) (leBytes n v)

/-! ## ENQ -/

/-- The scalars that hold an ENQ's command, s8 to s15. -/
def enqRegs : List SReg := (List.range 8).map fun i => Fin.ofNat 32 (8 + i)

/-- Home addresses of the bytes at a virtual address that no handle covers, where they lie now: a ring in a movable bale is reached
through the waymarks of its lines (R278, R279). -/
def ringBytes (s : State) (e : Env) (need : Need) (va n : Nat) : Res (List Nat) :=
  (vaBytes s e need 2 va n).andThen fun s ps =>
    (chaseAll s e need (BitVec.ofNat 64 va) (BitVec.ofNat 64 va) ps).andThen fun s r => .ok s r.2

/-- What an ENQ accesses: the descriptor of its queue and the next place of its ring. -/
def enqBytes (q : Nat) : Reach := fun s k b =>
  match queueAt s (s.envOf k b) q Need.none with
  | .ok s c => (List.range 64).map (c.at_ + ·) ++ (match vaBytes s (s.envOf k b) Need.none 2 (c.slot c.tail) 64 with
    | .ok _ ps => ps
    | _ => [])
  | _ => []

/-- ENQ (R258, R259): the descriptor is read strongly, after what such an access waits for (R106). -/
def execEnq (d : SReg) (q : BitVec 12) (ord : MemOrd) (s : State) : Out :=
  afterOlder true (enqBytes q.toNat) s fun s k x =>
    if enqRegs.any x.ps then trapOut s k x x.scalarPoison
    else
      let e := s.envOf k x
      let bad (f : FaultInfo) : FaultInfo :=
        if f.cause = causeHandle then { FaultInfo.plain causeHandle with aux := q.setWidth 64 } else f
      match ((queueAt s e q.toNat Need.readWrite).mapFault bad).andThen fun s c =>
          if !c.valid then .bad s (bad (FaultInfo.plain causeHandle))
          else if 2 ^ c.log2n ≤ c.count then .ok s (c, [])
          else (ringBytes s e Need.store (c.slot c.tail) 64).andThen fun s ps =>
            if ps.any fun p => s.eccAt p then .bad (s.firedHomes ps) (FaultInfo.atVA causeEcc (c.slot c.tail)) else .ok s (c, ps) with
      | .wait s => .next s
      | .bad s f => trapOut s k x f
      | .ok s (c, []) =>
        if 2 ^ c.log2n ≤ c.count then .next (s.setBlock k (x.putS d 1 false).advance) else .next s
      | .ok s (c, ps) =>
        let words := enqRegs.map x.gs
        let s1 := s.writeHomes ps (words.flatMap fun w => leBytes 8 w.toNat)
        let s2 := s1.putNum (c.at_ + 16) 4 ((c.tail + 1) % 2 ^ 32)
        let id := s2.evSeq
        let (x1, acq, rel) := (x.putS d 0 false).enginePoints k ord id
        let cmd : BindCmd :=
          { id := id
            ctx := e.ctx
            q := q.toNat
            pos := c.tail
            core := k.core
            taken := false
            words := words
            status := 0
            cause := 0
            addr := 0
            cnt1 := 0
            cnt2 := 0
            parts := 0
            at_ := 0
            head := []
            recd := false
            got := []
            codes := []
            learns := none
            acq := acq
            rel := rel }
        let die := s2.die c.die
        .next (({ s2 with evSeq := id + 3 }.setDie c.die { die with bind := die.bind ++ [cmd] }).setBlock k x1.advance)

/-! ## Taking a command (R255, R260) -/

/-- The words of a command. -/
def BindCmd.w (c : BindCmd) (i : Nat) : Nat := ((c.words[i]?).getD 0).toNat
def BindCmd.op (c : BindCmd) : Nat := fld 0 8 (c.w 0)
def BindCmd.arg (c : BindCmd) : Nat := fld 16 16 (c.w 0)

/-- STATUS codes (R262). -/
def stFault : Nat := 1
def stBadCmd : Nat := 2
def stLive : Nat := 3
def stActive : Nat := 4
def stEarly : Nat := 5
def stBusy : Nat := 6

/-- A refused command. -/
def BindCmd.refuse (c : BindCmd) (st : Nat) : BindCmd := { c with status := st }

/-- Virtual address of a fault, for ADDR (R261): a reference image through its handle; the image itself where no handle gives
an address. -/
def faultVA (s : State) (e : Env) (f : FaultInfo) : W64 :=
  match f.addr with
  | none => 0
  | some (0, im) =>
    if f.cause = causeHandle || refH im = 0 || (s.ctx e.ctx).handles ≤ refH im then im
    else match readHandle s e im with
      | .ok _ h => BitVec.ofNat 64 (h.base + refOff im)
      | _ => im
  | some (_, a) => a

/-- A command that stopped at a fault, after what it processed (R262). -/
def BindCmd.fail (c : BindCmd) (s : State) (e : Env) (f : FaultInfo) : BindCmd :=
  { c with status := stFault, cause := f.cause, addr := faultVA s e f }

/-- Commands of a queue that an engine of a die has taken, in queue order. -/
def State.takenOf (s : State) (die ctx q : Nat) : List BindCmd := (s.die die).bind.filter fun c => c.taken && c.ctx = ctx && c.q = q

/-- Engines of a die that serve a command: those with work left (R255). -/
def Die.enginesBusy (d : Die) : Nat := d.bind.countP fun c => c.taken && !c.done

/-- The engines of a die (R255). -/
def engineCount : Nat := 4

/-- A command of a die rewritten. -/
def State.setBind (s : State) (die : Nat) (c : BindCmd) : State :=
  let d := s.die die
  s.setDie die { d with bind := d.bind.map fun x => if x.id = c.id then c else x }

/-- An engine takes the command at the head of a queue when its OP is one of `ops`, checks it and starts it (R255). `ranges` names the
bytes that it reads to start, which wait for the older commands of its queue that touch them (R111); `touched` names what a command still
has to access. -/
def takeCommand (ctx q : Nat) (ops : Nat → Bool) (ranges : BindCmd → List (W64 × Nat)) (touched : State → BindCmd → List Nat)
    (run : State → Env → Nat → BindCmd → Res BindCmd) (s : State) : Out :=
  let stub (n : Nat) : Option BindCmd := ((s.die0.bind ++ s.die1.bind).find? fun c => c.ctx = ctx && c.q = q && !c.taken && c.pos = n)
  let waiting := (s.die0.bind ++ s.die1.bind).find? fun c => c.ctx = ctx && c.q = q && !c.taken
  let first := ((s.die0.bind ++ s.die1.bind).find? fun c => c.ctx = ctx && c.q = q).map fun c => c.core
  -- an error met at the head of a queue is logged and counted once
  let met (s1 : State) : Out := match waiting with
    | some c => if c.recd then .next s else .next ((s1.setBind 0 { c with recd := true }).setBind 1 { c with recd := true })
    | none => .next s
  match queueAt s { ctx := ctx, core := first.getD 0, who := none } q Need.readWrite with
  | .wait s => .next s
  | .bad s _ => met s
  | .ok s d =>
    if !d.valid || d.head = d.tail then .next s
    else
      let c0 : BindCmd := match stub d.head with
        | some c => c
        | none => { id := s.evSeq, ctx := ctx, q := q, pos := d.head, core := d.die * 8 * s.clusters, taken := false, words := [],
                    status := 0, cause := 0, addr := 0, cnt1 := 0, cnt2 := 0, parts := 0, at_ := 0, head := [], recd := false, got := [],
                    codes := [], learns := none, acq := none, rel := none }
      let e : Env := { ctx := ctx, core := c0.core, who := none }
      match ringBytes s e Need.load (d.slot d.head) 64 with
      | .wait s => .next s
      | .bad s _ => met s
      | .ok s ps =>
        let bs := s.readHomes ps
        let words : List W64 := (List.range 8).map fun i => BitVec.ofNat 64 (leNat ((bs.drop (8 * i)).take 8))
        let c1 : BindCmd := { c0 with
          taken := true
          words := words
          recd := false }
        let older := s.takenOf d.die ctx q
        let overlap : Bool := match ranges c1 with
          | [] => false
          | rs =>
            let mine := (rs.flatMap fun r => rangeHomes s e r.1 r.2).map s.nowAt
            older.any fun x => (touched s x).any fun p => mine.contains (s.nowAt p)
        if !ops c1.op || s.waitsPoint c1.acq || s.waitsRelease c1.rel || engineCount ≤ (s.die d.die).enginesBusy
            || (fld 8 1 (c1.w 0) = 1 && !older.isEmpty) || overlap then .next s
        else if ps.any s.eccAt then met (s.firedHomes ps)
        else
          let r : Res BindCmd := if fld 9 7 (c1.w 0) ≠ 0 then .ok s (c1.refuse stBadCmd) else run s e d.die c1
          match r with
          | .wait s => .next s
          | .bad s _ => .next s
          | .ok s c2 =>
            let s1 := s.putNum (d.at_ + 24) 4 ((d.head + 1) % 2 ^ 32)
            let die := s1.die d.die
            let rest := die.bind.filter fun c => c.id ≠ c2.id
            .next ({ s1 with evSeq := s1.evSeq + 1 }.setDie d.die { die with bind := rest ++ [c2] })

/-! ## TRANSFORM (R263) -/

/-- The units of a row of C elements: first byte, bytes, elements, and the bits of the last byte that belong to the row
(R59, R112). -/
def rowUnits (fmt : Efmt) (cols : Nat) : List (Nat × Nat × Nat × Nat) :=
  let per := match fmt.bits with | 4 => 2 | 6 => 4 | _ => 1
  let size := per * fmt.bits / 8
  (List.range ((cols + per - 1) / per)).map fun u =>
    let n := min per (cols - u * per)
    (u * size, (n * fmt.bits + 7) / 8, n, n * fmt.bits)

/-- A copied unit: source offset, destination offset, bytes, elements, bits. -/
abbrev CopyUnit := Nat × Nat × Nat × Nat × Nat

/-- What one access of a part of a command leaves: bytes that it read, for the accesses that follow, or, when it was the last, the elements
processed and what CNT2 counts. The reads and writes of an engine are events of their own (R105, R111). -/
inductive PartStep where
  | read (bytes : List Byte)
  | done (cnt1 cnt2 : Nat)
  deriving DecidableEq, Repr

/-- A read of a part. -/
def partRead (s : State) (e : Env) (image : W64) (off n : Nat) : Res PartStep :=
  (readRef s e image off n false Need.load).andThen fun s bs => .ok s (.read bs)

/-- Copies one unit: it is read, then its bits are merged into the destination. -/
def copyUnit (s : State) (e : Env) (src dst : W64) (u : CopyUnit) : List (List Byte) → Res PartStep
  | [] => partRead s e src u.1 u.2.2.1
  | bs :: _ =>
    (locate s e (refH dst) ((refOff dst : Int) + u.2.1) u.2.2.1 false Need.store).andThen fun s l =>
      let mask := leBytes u.2.2.1 (2 ^ u.2.2.2.2 - 1)
      let put : Res PartStep := (chaseAll s e Need.store l.2.1 l.2.1 l.2.2).andThen fun s r =>
        .ok (s.writeHomes r.2 (mergeBytes (s.readHomes r.2) bs mask)) (.done u.2.2.2.1 0)
      put.sampled e (s.unitHops l.2.2)

/-- The copies of TRANSFORM in row-major order of the source. -/
def transformUnits (mode : Nat) (fmt : Efmt) (rows cols ss ds : Nat) : List CopyUnit :=
  let row (r : Nat) : List CopyUnit :=
    match mode with
    | 0 => (rowUnits fmt cols).map fun u => (r * ss + u.1, r * ds + u.1, u.2.1, u.2.2.1, u.2.2.2)
    | 1 => (List.range cols).map fun c =>
        (r * ss + c * (fmt.bits / 8), c * ds + r * (fmt.bits / 8), fmt.bits / 8, 1, fmt.bits)
    | _ => (List.range (runBytes fmt cols / 16)).map fun k =>
        (r * ss + 16 * k, r * ds + 16 * (k ^^^ (r % 8)), 16, 128 / fmt.bits, 128)
  (List.range rows).flatMap row

/-- A TRANSFORM whose fields break a limit (R263). -/
def transformBad (c : BindCmd) (fmt : Option Efmt) : Bool :=
  let mode := fld 0 2 c.arg
  let cols := fld 0 16 (c.w 4)
  fld 2 14 c.arg ≠ 0 || mode = 3 || fld 37 27 (c.w 4) ≠ 0 || cols = 0 || fld 16 16 (c.w 4) = 0
    || fld 44 20 (c.w 5) ≠ 0 || fld 44 20 (c.w 6) ≠ 0 || c.w 7 ≠ 0
    || match fmt with
      | none => true
      | some f => !f.plain || (mode = 1 && f.bits < 8) || (mode = 2 && runBytes f cols % 128 ≠ 0)

/-- The units of a TRANSFORM (R263). -/
def BindCmd.transform (c : BindCmd) : List CopyUnit :=
  match Efmt.ofCode (fld 32 5 (c.w 4)) with
  | none => []
  | some f => transformUnits (fld 0 2 c.arg) f (fld 16 16 (c.w 4)) (fld 0 16 (c.w 4)) (fld 0 44 (c.w 5)) (fld 0 44 (c.w 6))

/-- TRANSFORM starts: its limits, then as many parts as units (R263). An undefined OP is BADCMD here too (R262). -/
def runTransform (s : State) (_ : Env) (_ : Nat) (c : BindCmd) : Res BindCmd :=
  if c.op ≠ 1 || transformBad c (Efmt.ofCode (fld 32 5 (c.w 4))) then .ok s (c.refuse stBadCmd)
  else .ok s { c with parts := c.transform.length }

/-! ## REDIST (R264) -/

/-- A header that fails the checks of R183 by itself, or names no format. -/
def Owner.unfit (o : Owner) : Bool :=
  o.br = 0 || o.bc = 0 || o.nbr = 0 || o.nbc = 0 || o.rsv ||
    match Efmt.ofCode o.efmt with | none => true | some f => f.bits < 8 || f.block ≠ 0

/-- Offset of the table entry of the owner of tensor element (r, c) (R183). -/
def Owner.entryOff (o : Owner) (r c : Nat) : Nat := 32 + 16 * (r / o.br * o.nbc + c / o.bc)

/-- The place of tensor element (r, c) that its owner's table entry gives: its handle and reference image (R183). -/
def ownerPlace (s : State) (e : Env) (need : Need) (o : Owner) (n r c : Nat) (entry : List Byte) : Res (HEntry × W64 × Nat) :=
  let w0 := leNat (entry.take 8)
  let w1 := leNat (entry.drop 8)
  let off := fld 0 44 w1 + r % o.br * o.stride + c % o.bc * n
  (ownerHandle s e need w0 w1 off).andThen fun s h => .ok s (h, mkRef (fld 12 20 w0) off, off)

/-- Bytes of an element as REDIST writes them: the top byte of an A56 element is zero (R59). -/
def Owner.clean (o : Owner) (bs : List Byte) : List Byte := if o.efmt = Efmt.code .a56 then bs.take 7 ++ [0] else bs

/-- Moves one element: the entry of its owner, the element, the entry of its new owner, then the write. Beyond the source's handle it reads as
zero, beyond the destination's it is dropped (R183, R264). -/
def redistElem (s : State) (e : Env) (src dst : W64) (so d : Owner) (n : Nat) (p : Nat × Nat) : List (List Byte) → Res PartStep
  | [] => partRead s e src (so.entryOff p.1 p.2) 16
  | [from_] => (ownerPlace s e Need.load so n p.1 p.2 from_).andThen fun s a =>
      if !inBound a.2.2 n a.1.bound then .ok s (.read (List.replicate n 0)) else partRead s e a.2.1 0 n
  | [_, _] => partRead s e dst (d.entryOff p.1 p.2) 16
  | _ :: bs :: dest :: _ => (ownerPlace s e Need.store d n p.1 p.2 dest).andThen fun s b =>
      if !inBound b.2.2 n b.1.bound then .ok s (.done 1 0)
      else (writeRef s e b.2.1 0 (so.clean bs) false Need.store).andThen fun s _ => .ok s (.done 1 0)

/-- The two owner tables that a REDIST has read. -/
def BindCmd.owners (c : BindCmd) : Owner × Owner := (parseOwner (c.head.take 32), parseOwner (c.head.drop 32))

/-- Bytes of an element of an owner table's format in memory. -/
def Owner.elemSize (o : Owner) : Nat := match Efmt.ofCode o.efmt with | some .a56 => 8 | some f => f.bits / 8 | none => 1

/-- The tensor element that part i of a REDIST moves. -/
def BindCmd.cell (c : BindCmd) (i : Nat) : Nat × Nat :=
  (fld 0 32 (c.w 4) + i / fld 32 32 (c.w 5), fld 32 32 (c.w 4) + i % fld 32 32 (c.w 5))

/-- REDIST starts: its limits and the headers of its tables, then a part for each element (R264). -/
def runRedist (s : State) (e : Env) (_ : Nat) (c : BindCmd) : Res BindCmd :=
  let src := BitVec.ofNat 64 (c.w 2)
  let dst := BitVec.ofNat 64 (c.w 3)
  let rows := fld 0 32 (c.w 5)
  let cols := fld 32 32 (c.w 5)
  if c.arg ≠ 0 || c.w 6 ≠ 0 || c.w 7 ≠ 0 || rows = 0 || cols = 0 then .ok s (c.refuse stBadCmd)
  else
    match (readRef s e src 0 32 false Need.load).andThen fun s o => (readRef s e dst 0 32 false Need.load).andThen fun s d => .ok s (o ++ d) with
    | .wait s => .wait s
    | .bad s f => .ok s (c.fail s e f)
    | .ok s bs =>
      let c1 : BindCmd := { c with head := bs }
      let (o, d) := c1.owners
      let inside (o : Owner) : Bool := fld 0 32 (c.w 4) + rows ≤ o.nbr * o.br && fld 32 32 (c.w 4) + cols ≤ o.nbc * o.bc
      if o.unfit || d.unfit || o.efmt ≠ d.efmt || !inside o || !inside d then .ok s (c.refuse stBadCmd)
      else .ok s { c1 with parts := rows * cols }

/-! ## Compression (R265 to R269) -/

/-- Home die of a home address (R17); a COREPIN byte is homed on the die of its core. -/
def State.homeDieOf (s : State) (home : Nat) : Nat :=
  if 2 ^ 56 ≤ home && home < 2 ^ 64 then s.dieOf ((home - 2 ^ 56) / 2 ^ 21) else homeDie home

/-- Live count of a slot: the coded blocks that name it (R266). -/
def State.liveCount (s : State) (die cls gen : Nat) : Nat :=
  s.coded.countP fun p => s.homeDieOf (p.1 * 512) = die && p.2.cls = cls && p.2.gen = gen

/-- A coding class of a die. -/
def State.codeClass (s : State) (die cls : Nat) : CodeClass := ((s.die die).classes[cls]?).getD CodeClass.reset

/-- The state with a coding class rewritten. -/
def State.setClass (s : State) (die cls : Nat) (c : CodeClass) : State :=
  let d := s.die die
  s.setDie die { d with classes := d.classes.set cls c }

/-- Code length in bits of a block's bytes under a table, none when a byte has no code (R265). -/
def codeLength (lens : List Nat) : List Byte → Option Nat
  | [] => some 0
  | b :: bs =>
    let n := lens.getD b.toNat 0
    if n = 0 then none else (codeLength lens bs).map (n + ·)

/-- Lines that a block takes under a table; none: it is stored raw, for its code would take 512 bytes or more (R265). -/
def codedLines (lens : List Nat) (bs : List Byte) : Option Nat :=
  match codeLength lens bs with
  | none => none
  | some n => if 4096 ≤ n then none else some (max 1 ((n + 1023) / 1024))

/-- Recodes a block at its home with the active generation of a class: coded, or left raw (R265, R269). -/
def State.recode (s : State) (block cls : Nat) : State :=
  let c := s.codeClass (s.homeDieOf (block * 512)) cls
  match codedLines ((c.slots[c.active]?).getD []) (s.mem.readN (block * 512) 512) with
  | some n => { s with coded := kvSet id block { cls := cls, gen := c.active, lines := n } s.coded }
  | none => { s with coded := kvDrop block s.coded }

/-- The fields of a range command, and the blocks it handles. -/
def rangeBad (c : BindCmd) (argMask : Nat) : Bool :=
  c.arg / (argMask + 1) ≠ 0 || c.w 3 % 512 ≠ 0 || c.w 4 ≠ 0 || c.w 5 ≠ 0 || c.w 6 ≠ 0 || c.w 7 ≠ 0

/-- Images of the 512-byte blocks of a range. -/
def blockImages (image : W64) (n : Nat) : List W64 := (List.range (n / 512)).map fun i => image + BitVec.ofNat 64 (512 * i)

/-- What COMPRESS, DECOMPRESS and RECODE check when they start (R267): zero fields, then the handle under R81, then CE and the
alignment, then the bound. Their blocks follow as Code events. -/
def runRange (argMask : Nat) (s : State) (e : Env) (die : Nat) (c : BindCmd) : Res BindCmd :=
  let image := BitVec.ofNat 64 (c.w 2)
  let n := c.w 3
  if rangeBad c argMask then .ok s (c.refuse stBadCmd)
  else match checkHandle s e image Need.readWrite with
    | .wait s => .wait s
    | .bad s f => .ok s (c.fail s e f)
    | .ok s h =>
      if !h.ce || (h.base + refOff image) % 512 ≠ 0 then .ok s (c.refuse stBadCmd)
      else if !inBound (refOff image) n h.bound then .ok s (c.fail s e (FaultInfo.atRef causeBound image))
      else if c.op = 5 && (s.codeClass die h.ccls).active = c.arg then .ok s (c.refuse stActive)
      else .ok s { c with codes := blockImages image n }

/-- The taken commands of a die, in the order they were taken. -/
def Die.inFlight (d : Die) : List BindCmd := d.bind.filter fun c => c.taken

/-- One Code event of a command on the block of an image (R267, R269): the command after it. -/
def codeBlock (s : State) (e : Env) (c : BindCmd) (image : W64) : Res BindCmd :=
  (locate s e (refH image) (refOff image) 512 false Need.readWrite).andThen fun s l =>
    (chaseAll s e Need.readWrite image image l.2.2).andThen fun s r =>
      if r.2.any fun p => s.eccAt p then .bad (s.firedHomes r.2) (FaultInfo.atRef causeEcc image)
      else
        let p := r.2.headD 0
        let whole : Bool := p % 512 = 0 && r.2 = (List.range 512).map (p + ·)
        let old := kvGet (p / 512) s.coded
        let cls := l.1.ccls
        let die := s.homeDieOf p
        let count (s : State) : Res BindCmd :=
          .ok s { c with cnt1 := c.cnt1 + 1, cnt2 := c.cnt2 + if (kvGet (p / 512) s.coded).isNone then 1 else 0 }
        if c.op = 4 then
          (if whole && old.isSome then .ok { s with coded := kvDrop (p / 512) s.coded } { c with cnt1 := c.cnt1 + 1 } else .ok s c)
        else if !whole then count s
        else match c.op, old with
          | 5, some x => count (if x.gen = c.arg then s.recode (p / 512) cls else s)
          | 5, none => count s
          | _, some x => count (if x.cls = cls && x.gen = (s.codeClass die cls).active then s else s.recode (p / 512) cls)
          | _, none => count (s.recode (p / 512) cls)

/-! ## RESAMPLE (R268) -/

/-- The block indices that are sampled. -/
def sampleIndices (samples n : Nat) : List Nat :=
  let m := min samples n
  if m = 0 then [] else (List.range m).map fun k => k * (n / m)

/-- RESAMPLE starts: its checks in order; the class learns until the freeze, and a part is left for each sample. -/
def runResample (s : State) (e : Env) (die : Nat) (c : BindCmd) : Res BindCmd :=
  let cls := fld 0 3 c.arg
  let slot := fld 4 2 c.arg
  let image := BitVec.ofNat 64 (c.w 2)
  let n := c.w 3
  let x := s.codeClass die cls
  if fld 3 1 c.arg ≠ 0 || fld 6 10 c.arg ≠ 0 || refOff image % 512 ≠ 0 || n % 512 ≠ 0 || c.w 4 = 0 || 65535 < c.w 4 then
    .ok s (c.refuse stBadCmd)
  else if x.learning then .ok s (c.refuse stBusy)
  else if slot = x.active then .ok s (c.refuse stActive)
  else if s.liveCount die cls slot ≠ 0 then .ok s (c.refuse stLive)
  else if (match x.frozenAt with | some t => decide (s.dtime < t + s.mgc.params.getD 2 0) | none => false)
    then .ok s (c.refuse stEarly)
  else
    let start : Res Unit := (checkHandle s e image Need.load).andThen fun s h =>
      if !inBound (refOff image) n h.bound then .bad s (FaultInfo.atRef causeBound image) else .ok s ()
    match start with
    | .wait s => .wait s
    | .bad s f => .ok s (c.fail s e f)
    | .ok s _ => .ok (s.setClass die cls { x with learning := true })
        { c with parts := (sampleIndices (c.w 4) (n / 512)).length, learns := some (cls, slot) }

/-- Code lengths from 0 to 12 that leave room for each other: those of a prefix code (R265). `left` counts the codewords of 12 bits that are
not taken; a length without room becomes 0, no code. -/
def prefixLengths : Nat → List Nat → List Nat
  | _, [] => []
  | left, n :: ns =>
    let l := n % 13
    if l = 0 || left < 2 ^ (12 - l) then 0 :: prefixLengths left ns else l :: prefixLengths (left - 2 ^ (12 - l)) ns

/-- The code lengths that a RESAMPLE built: those of a prefix code, else free (log 2). -/
def builtLengths (n : Nat) : List Nat := prefixLengths (2 ^ 12) ((List.range 256).map fun i => (Config.builtCode n).getD i 0)

/-- The freeze of a learning command (R268): in one step the table is frozen, its slot made active, the time recorded. -/
def freeze (s : State) (die : Nat) (c : BindCmd) : State :=
  match c.learns with
  | none => s
  | some (cls, slot) =>
    let x := s.codeClass die cls
    (s.bumpFree.setClass die cls
      { active := slot, learning := false, frozenAt := some s.dtime, slots := x.slots.set slot (builtLengths s.freeCount) }).setBind
        die { c with learns := none }

/-! ## QUANT (R270, R271) -/

/-- Little-endian bytes of a run of encodings (R59). -/
def packRun (f : Efmt) (es : List Nat) : List Byte :=
  leBytes (runBytes f es.length) (es.foldr (fun v n => v % 2 ^ f.bits + 2 ^ f.bits * n) 0)

/-- The operands of QUANT. -/
structure QuantOp where
  src : W64
  dst : W64
  sf : Efmt
  df : Efmt
  rows : Nat
  cols : Nat
  ss : Nat
  ds : Nat
  t : Nat

/-- Offsets of a block-scaled side at a stride: scale byte b of row r, and the tile scale (R176, R270). -/
def quantScaleAt (rows cols stride : Nat) (f : Efmt) (r b : Nat) : Nat := rows * stride + r * (cols / f.block) + b
def quantTAt (rows cols stride : Nat) (f : Efmt) : Nat := rows * stride + rows * (cols / f.block)

/-- The quantised block of what a wide block holds: scale byte, and encodings with the elements clamped (R270). -/
def QuantOp.quantised (o : QuantOp) (bs : List Byte) : Nat × List (Nat × Bool) :=
  let w := o.sf.bits / 8
  let xs := (List.range o.df.block).map fun i => o.sf.decode (leNat ((bs.drop (i * w)).take w))
  quantBlock o.df (if o.df = .ks4 then Efmt.fp32.decode o.t else .fin false 1 0) xs

/-- Quantises block b of row r (R270): its read, the write of its elements, and that of its scale. -/
def quantiseBlock (s : State) (e : Env) (o : QuantOp) (p : Nat × Nat) : List (List Byte) → Res PartStep
  | [] => partRead s e o.src (p.1 * o.ss + p.2 * o.df.block * (o.sf.bits / 8)) (o.df.block * (o.sf.bits / 8))
  | [bs] =>
    let enc := packRun o.df ((o.quantised bs).2.map fun x => x.1)
    (writeRef s e o.dst (p.1 * o.ds + p.2 * (o.df.block * o.df.bits / 8) : Nat) enc false Need.store).andThen fun s _ => .ok s (.read [])
  | bs :: _ =>
    let r := o.quantised bs
    (writeRef s e o.dst (quantScaleAt o.rows o.cols o.ds o.df p.1 p.2 : Nat) (leBytes 1 r.1) false Need.store).andThen fun s _ =>
      .ok s (.done o.df.block (r.2.countP fun x => x.2))

/-- Dequantises block b of row r (R271): the reads of its elements and of its scale, then its write. -/
def dequantiseBlock (s : State) (e : Env) (o : QuantOp) (t : Option Nat) (p : Nat × Nat) : List (List Byte) → Res PartStep
  | [] => partRead s e o.src (p.1 * o.ss + p.2 * (o.sf.block * o.sf.bits / 8)) (o.sf.block * o.sf.bits / 8)
  | [_] => partRead s e o.src (quantScaleAt o.rows o.cols o.ss o.sf p.1 p.2) 1
  | bs :: sc :: _ =>
    let f := o.sf
    let w := o.df.bits / 8
    let outs := (List.range f.block).map fun i =>
      o.df.round .rne false 0 (f.scaled (leNat bs / 2 ^ (i * f.bits) % 2 ^ f.bits) (leNat sc) t).1
    let enc := outs.flatMap fun x => leBytes w x.1
    (writeRef s e o.dst (p.1 * o.ds + p.2 * f.block * w : Nat) enc false Need.store).andThen fun s _ =>
      .ok s (.done f.block (outs.countP fun x => x.2 &&& flOVF ≠ 0))

/-- QUANT's operands, none when they break a limit (R270). -/
def quantOp (c : BindCmd) : Option QuantOp :=
  match Efmt.ofCode (fld 32 5 (c.w 4)), Efmt.ofCode (fld 40 5 (c.w 4)) with
  | some sf, some df =>
    let bf := if sf.block ≠ 0 then sf else df
    let o : QuantOp :=
      { src := BitVec.ofNat 64 (c.w 2)
        dst := BitVec.ofNat 64 (c.w 3)
        sf := sf
        df := df
        rows := fld 16 16 (c.w 4)
        cols := fld 0 16 (c.w 4)
        ss := fld 0 44 (c.w 5)
        ds := fld 0 44 (c.w 6)
        t := fld 0 32 (c.w 7) }
    let kinds : Bool := (sf.wide && df.block ≠ 0) || (df.wide && sf.block ≠ 0)
    if !kinds || c.arg ≠ 0 || fld 37 3 (c.w 4) ≠ 0 || fld 45 19 (c.w 4) ≠ 0 || o.rows = 0 || o.cols = 0
        || fld 44 20 (c.w 5) ≠ 0 || fld 44 20 (c.w 6) ≠ 0 || fld 32 32 (c.w 7) ≠ 0
        || o.cols % bf.block ≠ 0 || (bf = .ks4 && !normalFp32 o.t) then none
    else some o
  | _, _ => none

/-- The block-scaled format of a QUANT. -/
def QuantOp.scaled (o : QuantOp) : Efmt := if o.df.block ≠ 0 then o.df else o.sf

/-- Blocks of a QUANT's matrix. -/
def QuantOp.blocks (o : QuantOp) : Nat := o.rows * (o.cols / o.scaled.block)

/-- Row and place in the row of a block. -/
def QuantOp.cell (o : QuantOp) (i : Nat) : Nat × Nat := (i / (o.cols / o.scaled.block), i % (o.cols / o.scaled.block))

/-- QUANT starts: its limits, and the tile scale that a KS4 source has; then a part for each block, and one for the tile scale that a KS4
destination takes. -/
def runQuant (s : State) (e : Env) (_ : Nat) (c : BindCmd) : Res BindCmd :=
  match quantOp c with
  | none => .ok s (c.refuse stBadCmd)
  | some o =>
    if o.sf = .ks4 then
      match readRef s e o.src (quantTAt o.rows o.cols o.ss o.sf : Nat) 4 false Need.load with
      | .wait s => .wait s
      | .bad s f => .ok s (c.fail s e f)
      | .ok s bs => .ok s { c with parts := o.blocks, head := bs }
    else .ok s { c with parts := o.blocks + if o.df = .ks4 then 1 else 0 }

/-- Part i of a QUANT (R270, R271). -/
def quantPart (s : State) (e : Env) (c : BindCmd) (o : QuantOp) (i : Nat) : Res PartStep :=
  if o.df.block = 0 then dequantiseBlock s e o (if o.sf = .ks4 then some (leNat c.head) else none) (o.cell i) c.got
  else if i < o.blocks then quantiseBlock s e o (o.cell i) c.got
  else (writeRef s e o.dst (quantTAt o.rows o.cols o.ds o.df : Nat) (leBytes 4 o.t) false Need.store).andThen fun s _ => .ok s (.done 0 0)

/-- Ranges that part i of a QUANT touches, as offsets from the source and the destination. -/
def QuantOp.ranges (o : QuantOp) (i : Nat) : List (W64 × Nat) :=
  let at_ (im : W64) (n : Nat) : W64 := im + BitVec.ofNat 64 n
  let f := o.scaled
  let p := o.cell i
  if i < o.blocks then
    let wide (im : W64) (g : Efmt) (stride : Nat) : List (W64 × Nat) := [(at_ im (p.1 * stride + p.2 * f.block * (g.bits / 8)), f.block * (g.bits / 8))]
    let narrow (im : W64) (stride : Nat) : List (W64 × Nat) :=
      [(at_ im (p.1 * stride + p.2 * (f.block * f.bits / 8)), f.block * f.bits / 8), (at_ im (quantScaleAt o.rows o.cols stride f p.1 p.2), 1)]
    if o.df.block ≠ 0 then wide o.src o.sf o.ss ++ narrow o.dst o.ds else narrow o.src o.ss ++ wide o.dst o.df o.ds
  else [(at_ o.dst (quantTAt o.rows o.cols o.ds o.df), 4)]

/-! ## The engines at work (R111, R255) -/

/-- The next access of part i of a command. -/
def enginePart (s : State) (e : Env) (c : BindCmd) (i : Nat) : Res PartStep :=
  match c.op with
  | 1 => match c.transform[i]? with
    | some u => copyUnit s e (BitVec.ofNat 64 (c.w 2)) (BitVec.ofNat 64 (c.w 3)) u c.got
    | none => .ok s (.done 0 0)
  | 2 => redistElem s e (BitVec.ofNat 64 (c.w 2)) (BitVec.ofNat 64 (c.w 3)) c.owners.1 c.owners.2 c.owners.1.elemSize (c.cell i) c.got
  | 6 => (readRef s e (BitVec.ofNat 64 (c.w 2)) (512 * (sampleIndices (c.w 4) (c.w 3 / 512)).getD i 0 : Nat) 512 false Need.load).andThen
      fun s _ => .ok s (.done 1 0)
  | 7 => match quantOp c with
    | some o => quantPart s e c o i
    | none => .ok s (.done 0 0)
  | _ => .ok s (.done 0 0)

/-- Home addresses of an element of a distributed tensor and of its table entry. -/
def ownerHomes (s : State) (e : Env) (need : Need) (tbl : W64) (o : Owner) (p : Nat × Nat) : List Nat :=
  rangeHomes s e (tbl + BitVec.ofNat 64 (o.entryOff p.1 p.2)) 16 ++
    match (readRef s e tbl (o.entryOff p.1 p.2) 16 false Need.load).andThen fun s bs => ownerPlace s e need o o.elemSize p.1 p.2 bs with
    | .ok s a => rangeHomes s e a.2.1 o.elemSize
    | _ => []

/-- Home addresses that part i of a command touches (R111). -/
def partHomes (s : State) (e : Env) (c : BindCmd) (i : Nat) : List Nat :=
  match c.op with
  | 1 => match c.transform[i]? with
    | some u => rangeHomes s e (BitVec.ofNat 64 (c.w 2) + BitVec.ofNat 64 u.1) u.2.2.1
        ++ rangeHomes s e (BitVec.ofNat 64 (c.w 3) + BitVec.ofNat 64 u.2.1) u.2.2.1
    | none => []
  | 2 => ownerHomes s e Need.load (BitVec.ofNat 64 (c.w 2)) c.owners.1 (c.cell i)
      ++ ownerHomes s e Need.store (BitVec.ofNat 64 (c.w 3)) c.owners.2 (c.cell i)
  | 6 => rangeHomes s e (BitVec.ofNat 64 (c.w 2 + 512 * (sampleIndices (c.w 4) (c.w 3 / 512)).getD i 0)) 512
  | 7 => match quantOp c with
    | some o => (o.ranges i).flatMap fun r => rangeHomes s e r.1 r.2
    | none => []
  | _ => []

/-- Environment of the engine that runs a command. -/
def BindCmd.env (c : BindCmd) : Env := { ctx := c.ctx, core := c.core, who := none }

/-- Home addresses of a command's completion record, when it has one (R261). -/
def recordHomes (s : State) (c : BindCmd) : List Nat :=
  if c.w 1 = 0 then [] else rangeHomes s c.env (BitVec.ofNat 64 (c.w 1)) 32

/-- Home addresses that a command still has to access: its parts, its Code events and its record. -/
def touchedHomes (s : State) (c : BindCmd) : List Nat :=
  ((List.range (c.parts - c.at_)).flatMap fun i => partHomes s c.env c (c.at_ + i))
    ++ (c.codes.flatMap fun im => rangeHomes s c.env im 512) ++ recordHomes s c

/-- An access of a command waits: an older command of its queue has still to touch a common byte (R111). -/
def State.engineWaits (s : State) (die : Nat) (c : BindCmd) (ps : List Nat) : Bool :=
  let mine := ps.map s.nowAt
  (((s.die die).bind.takeWhile fun x => x.id ≠ c.id).filter fun x => x.taken && x.ctx = c.ctx && x.q = c.q).any fun x =>
    (touchedHomes s x).any fun p => mine.contains (s.nowAt p)

/-- The next access of a command's parts. A fault ends its work (R262). -/
def workCommand (s : State) (die : Nat) (c : BindCmd) : Option State :=
  if c.parts ≤ c.at_ || s.engineWaits die c (partHomes s c.env c c.at_) then none
  else match enginePart s c.env c c.at_ with
    | .wait s => some s
    | .bad s f =>
      let s1 := match c.learns with
        | some (cls, _) => s.setClass die cls { s.codeClass die cls with learning := false }
        | none => s
      some (s1.setBind die { c.fail s c.env f with
        at_ := c.parts
        got := []
        learns := none })
    | .ok s (.read bs) => some (s.setBind die { c with got := c.got ++ [bs] })
    | .ok s (.done n m) =>
      let last := c.parts ≤ c.at_ + 1
      some (s.setBind die { c with
        at_ := c.at_ + 1
        got := []
        cnt1 := if last && c.op = 1 then fld 16 16 (c.w 4) * fld 0 16 (c.w 4) else c.cnt1 + n
        cnt2 := c.cnt2 + m })

/-- The commands of a queue with some OPs that have parts left, with their die. -/
def State.atWork (s : State) (ctx q : Nat) (ops : Nat → Bool) : List (Nat × BindCmd) :=
  (s.takenOf 0 ctx q).map (fun c => (0, c)) ++ (s.takenOf 1 ctx q).map (fun c => (1, c))
    |>.filter fun p => ops p.2.op && p.2.at_ < p.2.parts

/-- A turn of the engines on a queue: one of its commands at work goes on, or its head is taken; which of these is free (log 2). -/
def engineTurn (ctx q : Nat) (ops : Nat → Bool) (ranges : BindCmd → List (W64 × Nat)) (run : State → Env → Nat → BindCmd → Res BindCmd)
    (s : State) : Out :=
  let take (s : State) : Out := takeCommand ctx q ops ranges touchedHomes run s
  match s.atWork ctx q ops with
  | [] => take s
  | w :: ws =>
    let n := Config.unstated s.freeCount % (ws.length + 2)
    let works : List State := (w :: ws).filterMap fun p => workCommand s.bumpFree p.1 p.2
    match (w :: ws)[n]?.bind fun p => workCommand s.bumpFree p.1 p.2 with
    | some s1 => .next s1
    | none => match take s, works with
      | .next s1, s2 :: _ => .next (if s1 = s then s2 else s1)
      | o, _ => o

/-- TRANSFORM (R263); a command with an undefined OP is taken here too and is BADCMD (R262). -/
def execTransform (ctx q : Nat) (s : State) : Out := engineTurn ctx q (fun op => op = 1 || op = 0 || 7 < op) (fun _ => []) runTransform s

/-- REDIST (R264). -/
def execRedist (ctx q : Nat) (s : State) : Out :=
  engineTurn ctx q (fun op => op = 2) (fun c => [(BitVec.ofNat 64 (c.w 2), 32), (BitVec.ofNat 64 (c.w 3), 32)]) runRedist s

/-- COMPRESS (R267). -/
def execCompress (ctx q : Nat) (s : State) : Out := engineTurn ctx q (fun op => op = 3) (fun _ => []) (runRange 0) s

/-- DECOMPRESS (R267). -/
def execDecompress (ctx q : Nat) (s : State) : Out := engineTurn ctx q (fun op => op = 4) (fun _ => []) (runRange 0) s

/-- RECODE (R267). -/
def execRecode (ctx q : Nat) (s : State) : Out := engineTurn ctx q (fun op => op = 5) (fun _ => []) (runRange 3) s

/-- RESAMPLE (R268). -/
def execResample (ctx q : Nat) (s : State) : Out := engineTurn ctx q (fun op => op = 6) (fun _ => []) runResample s

/-- Bytes that a QUANT reads to start: the tile scale of a KS4 source. -/
def quantStart (c : BindCmd) : List (W64 × Nat) :=
  match quantOp c with
  | some o => if o.sf = .ks4 then [(o.src + BitVec.ofNat 64 (quantTAt o.rows o.cols o.ss o.sf), 4)] else []
  | none => []

/-- QUANT (R270, R271). -/
def execQuant (ctx q : Nat) (s : State) : Out := engineTurn ctx q (fun op => op = 7) quantStart runQuant s

/-- CODE: the next Code event of command idx in flight on a die (R269). -/
def execCode (die idx : Nat) (s : State) : Out :=
  match (s.die die).inFlight[idx]? with
  | none => .next s
  | some c => match c.codes with
    | [] => .next s
    | im :: rest =>
      if s.engineWaits die c (rangeHomes s c.env im 512) then .next s
      else match codeBlock s c.env c im with
        | .wait s => .next s
        | .bad s f => .next (s.setBind die { c.fail s c.env f with codes := [] })
        | .ok s c => .next (s.setBind die { c with codes := rest })

/-! ## Completion records (R261) -/

/-- Some bytes of a 32-byte record at an image, which is checked as a whole. -/
def recordPart (s : State) (e : Env) (at_ : W64) (lo : Nat) (bytes : List Byte) : Res Unit :=
  (locate s e (refH at_) (refOff at_) 32 true Need.store).andThen fun s l =>
    (chaseAll s e Need.store l.2.1 l.2.1 l.2.2).andThen fun s r => .ok (s.writeHomes ((r.2.drop lo).take bytes.length) bytes) ()

/-- Words 1 to 3 of a record: weak writes, before its word 0. -/
def recordTail (s : State) (e : Env) (at_ : W64) (w1 w2 w3 : Nat) : Res Unit :=
  recordPart s e at_ 8 (leBytes 8 w1 ++ leBytes 8 w2 ++ leBytes 8 w3)

/-- Word 0 of a record: the last write, strong and a release. -/
def recordHead (s : State) (e : Env) (at_ : W64) (tag cause op status : Nat) : Res Unit :=
  recordPart s e at_ 0 (leBytes 8 (tag % 2 ^ 32 * 2 ^ 32 + cause % 256 * 2 ^ 24 + op % 256 * 2 ^ 16 + status % 256 * 2 ^ 8 + 1))

/-- BINDERY_COMPLETION_RECORD: command idx in flight on a die ends: a learning class freezes its table, words 1 to 3 of the record are
written, and after the release point its word 0; a record that fails its checks is posted with SRC 2 (R111, R261, R268, R318). -/
def execBinderyCompletionRecord (die idx : Nat) (s : State) : Out :=
  match (s.die die).inFlight[idx]? with
  | none => .next s
  | some c =>
    if !c.codes.isEmpty || c.at_ < c.parts then .next s
    else if c.learns.isSome then .next (freeze s die c)
    else
      let drop (s : State) : State :=
        let d := s.die die
        s.setDie die { d with bind := d.bind.filter fun x => x.id ≠ c.id }
      let image : W64 := BitVec.ofNat 64 (c.w 1)
      let fault : Bool := c.status = stFault
      let fails (s : State) (f : FaultInfo) : Out := .next (drop (postCtxFault s c.ctx 2 f.cause image (fld 32 32 (c.w 0))))
      if image = 0 then (if s.waitsPoint c.rel then .next s else .next (drop s))
      else if s.engineWaits die c (recordHomes s c) then .next s
      else if !c.recd then
        match recordTail s c.env image c.cnt1 c.cnt2 (if fault then c.addr.toNat else s.dtime) with
        | .wait s => .next s
        | .bad s f => fails s f
        | .ok s _ => .next (s.setBind die { c with recd := true })
      else if s.waitsPoint c.rel then .next s
      else match recordHead s c.env image (fld 32 32 (c.w 0)) (if fault then c.cause else 0) c.op c.status with
        | .wait s => .next s
        | .bad s f => fails s f
        | .ok s _ => .next (drop s)

end Sys2Proof.Machine
end

