-- ==== Sys2Proof/Machine/Drover.lean ====
section
/-! DEFINITION. Movable bales, the Drover of each die, waymarks, and the relocation instructions: major 0x79 (R113 to R116,
R272 to R289). -/

namespace Sys2Proof.Machine

/-! ## The bale directory (R273, R274) -/

/-- A bale's state, none for plain. -/
def State.baleState (s : State) (ctx h k : Nat) : Option BaleState :=
  (s.directory.find? fun d => d.ctx = ctx && d.srcH = h && d.srcK = k).map fun d => d.state

/-- A live entry names a bale as a destination. -/
def State.baleNamed (s : State) (ctx h k : Nat) : Bool := s.directory.any fun d => d.ctx = ctx && d.dstH = h && d.dstK = k

/-- The depth of a bale: 0, or 1 plus the depth of the source of the entry that names it (R273). -/
def State.baleDepth (s : State) (ctx h k : Nat) : Nat → Nat
  | 0 => 0
  | n + 1 => match s.directory.find? fun d => d.ctx = ctx && d.dstH = h && d.dstK = k with
    | none => 0
    | some d => 1 + s.baleDepth ctx d.srcH d.srcK n

/-- The directories of both dies rewritten. -/
def State.mapDir (s : State) (f : List DirEntry → List DirEntry) : State :=
  { s with die0 := { s.die0 with dir := f s.die0.dir }, die1 := { s.die1 with dir := f s.die1.dir } }

/-- A bale's state changed (R274). -/
def State.setBale (s : State) (ctx h k : Nat) (st : BaleState) : State :=
  s.mapDir fun l => l.map fun d => if d.ctx = ctx && d.srcH = h && d.srcK = k then { d with state := st } else d

/-- Entries of a die's directory (R273). -/
def directorySize : Nat := 16384

/-! ## Checks of the commands (R282, R288) -/

/-- AREF of three operands, for the instruction; a host command names none. -/
abbrev Arefs := Nat × Nat × Nat

/-- The first operand whose offset is no multiple of its size: ALIGN (R282). -/
def offsetFault : List (W64 × Nat × Nat) → Option FaultInfo
  | [] => none
  | (im, n, a) :: xs => if refOff im % n ≠ 0 then some { FaultInfo.atRef causeAlign im with aref := a } else offsetFault xs

/-- The first operand whose bytes reach beyond its handle: BOUND (R81 step 4). -/
def extentFault : List (W64 × Nat × Nat × Nat) → Option FaultInfo
  | [] => none
  | (im, n, bound, a) :: xs =>
    if !inBound (refOff im) n bound then some { FaultInfo.atRef causeBound im with aref := a } else extentFault xs

/-- A check of a list, as a result. -/
def failing (s : State) (f : Option FaultInfo) (x : α) : Res α := match f with | some e => .bad s e | none => .ok s x

/-- R81 steps 2 and 3 of an operand. -/
def moveHandle (s : State) (e : Env) (im : W64) (need : Need) (a : Nat) : Res HEntry :=
  (checkHandle s e im need).mapFault fun f => { f with aref := a }

/-- The checks of MOVE after POISON: both handles and the bale size (R282). -/
def moveChecks (s : State) (e : Env) (src dst rcd : W64) (a : Arefs) : Res (HEntry × HEntry × Nat) :=
  (moveHandle s e src { Need.load with mp := true } a.1).andThen fun s hs =>
    (moveHandle s e dst { Need.store with mp := true } a.2.1).andThen fun s hd =>
      (moveHandle s e rcd Need.store a.2.2).andThen fun s hr =>
        let b := baleSize hs.mcls
        if hs.mcls = 0 || hs.mcls ≠ hd.mcls || hs.home = 2 || hd.home = 2 then .bad s (FaultInfo.plain causeFormat)
        else
          (failing s (offsetFault [(src, b, a.1), (dst, b, a.2.1), (rcd, 32, a.2.2)]) ()).andThen fun s _ =>
            (failing s (extentFault [(src, b, hs.bound, a.1), (dst, b, hd.bound, a.2.1), (rcd, 32, hr.bound, a.2.2)]) ()).andThen
              fun s _ => if refH src = refH dst && refOff src = refOff dst then .bad s (FaultInfo.plain causeFormat)
                else .ok s (hs, hd, b)

/-- The checks of MKFREE after POISON: the bale size (R288). -/
def freeChecks (s : State) (e : Env) (im rcd : W64) (a : Arefs) : Res Nat :=
  (moveHandle s e im { Need.none with mp := true } a.1).andThen fun s h =>
    (moveHandle s e rcd Need.store a.2.2).andThen fun s hr =>
      let b := baleSize h.mcls
      if h.mcls = 0 then .bad s (FaultInfo.plain causeFormat)
      else
        (failing s (offsetFault [(im, b, a.1), (rcd, 32, a.2.2)]) ()).andThen fun s _ =>
          (failing s (extentFault [(im, b, h.bound, a.1), (rcd, 32, hr.bound, a.2.2)]) ()).andThen fun s _ => .ok s b

/-! ## The queues (R282, R283, R285) -/

/-- Commands a Drover holds: its queue and the one it runs. -/
def Die.droverCmds (d : Die) : List DroverCmd :=
  d.dqueue ++ match d.running with | some r => [r.cmd] | none => []

/-- The Drover queue is full for a context: 1,024 commands, 256 of one context (R282). -/
def Die.droverFull (d : Die) (ctx : Nat) : Bool :=
  1024 ≤ d.droverCmds.length || 256 ≤ d.droverCmds.countP fun c => c.ctx = ctx

/-- The move number that a die gives next (R282). -/
def moveNumber (die seq : Nat) : Nat := die * 2 ^ 31 + seq

/-- The sequence after a move number: 31 bits, never 0. -/
def nextSeq (seq : Nat) : Nat := if 2 ^ 31 ≤ seq + 1 then 1 else seq + 1

/-- A die remembers its last 4,096 moves (R285). -/
def Die.remember (d : Die) (m : MoveRec) : Die :=
  let l := (d.moves.filter fun x => x.num ≠ m.num) ++ [m]
  { d with moves := l.drop (l.length - 4096) }

/-- A remembered move rewritten in its place. -/
def Die.updateMove (d : Die) (num : Nat) (f : MoveRec → MoveRec) : Die :=
  { d with moves := d.moves.map fun x => if x.num = num then f x else x }

/-- Places a command on a die's Drover queue; a MOVE takes the next number and is remembered as queued. -/
def placeDrover (s : State) (die : Nat) (c : DroverCmd) : State :=
  let d := s.die die
  if c.op = 0x10 then
    s.setDie die ({ d with dqueue := d.dqueue ++ [c], seqNo := nextSeq d.seqNo }.remember
      { num := c.num, ctx := c.ctx, lines := 0, status := 0, state := 1 })
  else s.setDie die { d with dqueue := d.dqueue ++ [c] }

/-- The block's side of placing a MOVE or MKFREE: the command, its points and s[d] (R111, R282, R288). -/
def placeFromBlock (s : State) (k : BKey) (x : Block) (d : SReg) (v : W64) (num op : Nat) (tag src dst rcd : W64) (ord : MemOrd) :
    Out :=
  let id := s.evSeq
  let (x1, acq, rel) := (x.putS d v false).enginePoints k ord id
  let c : DroverCmd :=
    { id := id
      num := num
      op := op
      tag := tag.setWidth 32
      ctx := s.ctxNumOf x
      src := src
      dst := dst
      recd := rcd
      acq := acq
      rel := rel }
  .next ((placeDrover { s with evSeq := id + 3 } (s.dieOf k.core) c).setBlock k x1.advance)

/-- MOVE (R282): its placement waits for older acquires (R106). -/
def execMove (d : SReg) (src dst recd : ARef) (b : SReg) (ord : MemOrd) (s : State) : Out :=
  afterSettling Ev.acquires s fun s k x =>
    match [src, dst, recd].find? x.pa with
    | some r => trapOut s k x (x.refPoison r)
    | none =>
      if x.ps b then trapOut s k x x.scalarPoison
      else match moveChecks s (s.envOf k x) (x.ga src) (x.ga dst) (x.ga recd) (src.val, dst.val, recd.val) with
        | .wait s => .next s
        | .bad s f => trapOut s k x f
        | .ok s _ =>
          let die := s.dieOf k.core
          if (s.die die).droverFull (s.ctxNumOf x) then .next (s.setBlock k (x.putS d 0 false).advance)
          else
            let num := moveNumber die (s.die die).seqNo
            placeFromBlock s k x d (BitVec.ofNat 64 num) num 0x10 (x.gs b) (x.ga src) (x.ga dst) (x.ga recd) ord

/-- MKFREE (R288): its placement waits for older acquires (R106). -/
def execMkfree (d : SReg) (aa recd : ARef) (b : SReg) (ord : MemOrd) (s : State) : Out :=
  afterSettling Ev.acquires s fun s k x =>
    match [aa, recd].find? x.pa with
    | some r => trapOut s k x (x.refPoison r)
    | none =>
      if x.ps b then trapOut s k x x.scalarPoison
      else match freeChecks s (s.envOf k x) (x.ga aa) (x.ga recd) (aa.val, 0, recd.val) with
        | .wait s => .next s
        | .bad s f => trapOut s k x f
        | .ok s _ =>
          if (s.die (s.dieOf k.core)).droverFull (s.ctxNumOf x) then .next (s.setBlock k (x.putS d 1 false).advance)
          else placeFromBlock s k x d 0 0 0x11 (x.gs b) (x.ga aa) 0 (x.ga recd) ord

/-! ## The Drover at work (R275, R288) -/

/-- STATUS codes that the Drover adds (R284). -/
def stMoveBusy : Nat := 8
def stChain : Nat := 9
def stFull : Nat := 10
def stMoveLive : Nat := 11

/-- Environment of the Drover of a die for a command. -/
def droverEnv (s : State) (die : Nat) (c : DroverCmd) : Env := { ctx := c.ctx, core := die * 8 * s.clusters, who := none }

/-- The head of a queue becomes the command that runs. -/
def startCmd (s : State) (die : Nat) (r : RunningMove) : State :=
  let d := s.die die
  s.setDie die { d with dqueue := d.dqueue.drop 1, running := some r }

/-- A command that is refused: only its record is left to be written. -/
def refuseCmd (s : State) (die : Nat) (c : DroverCmd) (status cause : Nat) (addr : W64) : State :=
  startCmd s die
    { cmd := c, status := status, cause := cause, addr := addr, line := 0, lines := 0, gen := 0, depth := 0, eccLines := 0,
      srcPages := [], dstPages := [], recd := false }

/-- A check that fails at the Drover: BADCMD for FORMAT and ALIGN, FAULT with the cause otherwise (R283). -/
def refuseFault (s : State) (die : Nat) (c : DroverCmd) (f : FaultInfo) : State :=
  if f.cause = causeFormat || f.cause = causeAlign then refuseCmd s die c stBadCmd 0 0
  else refuseCmd s die c stFault f.cause (faultVA s (droverEnv s die c) f)

/-- Physical addresses of the pages of a bale (R275). -/
def walkPages (s : State) (e : Env) (h : HEntry) (need : Need) (image : W64) : Nat → Res (List Nat)
  | 0 => .ok s []
  | n + 1 => (placeRaw s e h image need).andThen fun s p =>
      (walkPages s e h need (image + 4096) n).andThen fun s ps => .ok s (p :: ps)

/-- MOVE_CLAIM: the Drover of a die takes the command at the head of its queue unless it is an MKFREE (R275, R283). -/
def execMoveClaim (die : Nat) (s : State) : Out :=
  let d := s.die die
  match d.running, d.dqueue with
  | none, c :: _ =>
    if c.op = 0x11 || s.waitsPoint c.acq || s.waitsRelease c.rel then .next s
    else if c.op ≠ 0x10 then .next (refuseCmd s die c stBadCmd 0 0)
    else
      let e := droverEnv s die c
      match moveChecks s e c.src c.dst c.recd (0, 0, 0) with
      | .wait s => .next s
      | .bad s f => .next (refuseFault s die c f)
      | .ok s (hs, hd, b) =>
        let n := b / 4096
        match (walkPages s e hs Need.load c.src n).andThen fun s ps =>
            (walkPages s e hd Need.store c.dst n).andThen fun s pd => .ok s (ps, pd) with
        | .wait s => .next s
        | .bad s f => .next (refuseCmd s die c stFault f.cause (faultVA s e f))
        | .ok s (ps, pd) =>
          let sk := refOff c.src / b
          let dk := refOff c.dst / b
          let depth := s.baleDepth c.ctx (refH c.src) sk 16 + 1
          if (s.baleState c.ctx (refH c.src) sk).isSome || (s.baleState c.ctx (refH c.dst) dk).isSome
              || s.baleNamed c.ctx (refH c.dst) dk then .next (refuseCmd s die c stMoveBusy 0 0)
          else if ps.any fun p => pd.contains p then .next (refuseCmd s die c stBadCmd 0 0)
          else if 3 < depth then .next (refuseCmd s die c stChain 0 0)
          else if directorySize ≤ (s.die die).dir.length then .next (refuseCmd s die c stFull 0 0)
          else
            let entry : DirEntry :=
              { ctx := c.ctx
                srcH := refH c.src
                srcK := sk
                dstH := refH c.dst
                dstK := dk
                size := b
                num := c.num
                depth := depth
                state := .moving
                pages := ps }
            let s1 := startCmd s die
              { cmd := c, status := 0, cause := 0, addr := 0, line := 0, lines := b / 128, gen := (hs.gen + 1) % 2 ^ 16,
                depth := depth, eccLines := 0, srcPages := ps, dstPages := pd, recd := false }
            let d1 := s1.die die
            .next (s1.setDie die ({ d1 with dir := d1.dir ++ [entry] }.updateMove c.num fun m => { m with state := 2 }))
  | _, _ => .next s

/-- Home address of a line of a list of pages. -/
def lineHome (pages : List Nat) (line : Nat) : Nat := pages.getD (line / 32) 0 + 128 * (line % 32)

/-- MARK: the Drover marks the next line of its running move: the new line takes the old line's value, the old line becomes a
waymark; an uncorrectable error goes with the line (R113, R275, R278). -/
def execMark (die : Nat) (s : State) : Out :=
  match (s.die die).running with
  | none => .next s
  | some r =>
    if r.lines ≤ r.line then .next s
    else
      let old := lineHome r.srcPages r.line
      let new := lineHome r.dstPages r.line
      let s1 := (s.expandAt old).expandAt new
      let bad := s1.eccAt old
      let bytes := s1.mem.readN old 128
      let mem := (s1.mem.writeN new bytes).writeN old (List.replicate 128 0)
      let errs := s1.eccLines.filter fun l => l ≠ old / 128 && l ≠ new / 128
      let mark : Mark :=
        { newref := mkRef (refH r.cmd.dst) (refOff r.cmd.dst + 128 * r.line)
          home := new
          gen := r.gen
          hop := r.depth
          mnum := r.cmd.num }
      let s2 : State := { (if bad then noteError s1 old else s1) with
        mem := mem
        eccLines := if bad then insertNat (new / 128) errs else errs
        marks := kvSet id (old / 128) mark s1.marks }
      let r1 : RunningMove := { r with line := r.line + 1, eccLines := r.eccLines + if bad then 1 else 0 }
      .next (s2.setDie die ({ s2.die die with running := some r1 }.updateMove r.cmd.num fun m => { m with lines := r.line + 1 }))

/-- The device rewrites GEN of a handle entry, in memory and in every handle cache of the context, in one step (R79, R277). -/
def setHandleGen (s : State) (ctx h gen : Nat) : State :=
  let c := s.ctx ctx
  let s1 := s.setCtx ctx { c with
    hcache := c.hcache.map fun p => if p.2.1 = h then (p.1, p.2.1, { p.2.2 with gen := gen }) else p }
  match stage2 s1 ctx (c.entryAddr h) { Need.none with rd := true } with
  | .ok a _ => s1.putNum (a + 22) 2 gen
  | _ => s1

/-- A step of the record of a Drover's command: words 1 to 3, then word 0 (R261, R284). A record that fails its checks is posted with SRC 3
(R318), and the command is done. An MKFREE has no move number: the entry's ID is unstated (log 2). Answers whether the command is done. -/
def droverRecord (s : State) (die : Nat) (c : DroverCmd) (tailDone : Bool) (status cause lines ecc : Nat) (addr : W64) (time : Nat) :
    Res Bool :=
  let fault : Bool := status = stFault
  let e := droverEnv s die c
  match (if tailDone then recordHead s e c.recd c.tag.toNat (if fault then cause else 0) c.op status
      else recordTail s e c.recd lines ecc (if fault then addr.toNat else time)) with
  | .wait s => .wait s
  | .bad s f =>
    .ok (postCtxFault s.bumpFree c.ctx 3 f.cause c.recd (if c.op = 0x10 then c.num else Config.unstated s.freeCount)) true
  | .ok s _ => .ok s tailDone

/-- A finished move is marked: the state of its source bale, and GEN of the source handle (R275). -/
def markMove (s : State) (r : RunningMove) : State :=
  setHandleGen (s.setBale r.cmd.ctx (refH r.cmd.src) (refOff r.cmd.src / (128 * r.lines)) .marked) r.cmd.ctx (refH r.cmd.src) r.gen

/-- A finished move whose source bale is not marked yet. -/
def State.unmarked (s : State) (r : RunningMove) : Bool :=
  r.cmd.op = 0x10 && r.status = 0
    && s.baleState r.cmd.ctx (refH r.cmd.src) (refOff r.cmd.src / (128 * r.lines)) = some .moving

/-- MOVE_REPORT: the Drover reports its finished or refused command: a move is marked first, then comes its record (R275, R284). -/
def execMoveReport (die : Nat) (s : State) : Out :=
  match (s.die die).running with
  | none => .next s
  | some r =>
    if r.line < r.lines then .next s
    else if s.unmarked r then .next (markMove s r)
    else if r.recd && s.waitsPoint r.cmd.rel then .next s
    else match droverRecord s die r.cmd r.recd r.status r.cause r.lines r.eccLines r.addr s.dtime with
      | .wait s => .next s
      | .bad s _ => .next s
      | .ok s false => .next (s.setDie die { s.die die with running := some { r with recd := true } })
      | .ok s true =>
        .next (s.setDie die ({ s.die die with running := none }.updateMove r.cmd.num fun m =>
          { m with state := if r.cmd.op = 0x10 && r.status = 0 then 3 else 4, status := r.status }))

/-- An access of a block still holds a location in some pages (R115). -/
def State.holdsPages (s : State) (pages : List Nat) : Bool :=
  s.blocks.any fun p => p.2.evq.any fun e => e.units.any fun u =>
    !u.done && u.place.any fun a => pages.contains (a / 4096 * 4096)

/-- MKFREE_EVENT: the Drover takes the MKFREE at the head of its queue (R115, R288). -/
def execMkfreeEvent (die : Nat) (s : State) : Out :=
  let d := s.die die
  match d.running, d.dqueue with
  | none, c :: _ =>
    if c.op ≠ 0x11 || s.waitsPoint c.acq || s.waitsRelease c.rel then .next s
    else if c.dst ≠ 0 then .next (refuseCmd s die c stBadCmd 0 0)
    else match freeChecks s (droverEnv s die c) c.src c.recd (0, 0, 0) with
      | .wait s => .next s
      | .bad s f => .next (refuseFault s die c f)
      | .ok s b =>
        let h := refH c.src
        let k := refOff c.src / b
        match s.directory.find? fun x => x.ctx = c.ctx && x.srcH = h && x.srcK = k && x.state = .marked with
        | none => .next (refuseCmd s die c stMoveLive 0 0)
        | some x =>
          if s.baleNamed c.ctx h k then .next (refuseCmd s die c stMoveLive 0 0)
          else if s.holdsPages x.pages then .next s
          else
            let s1 := s.setBale c.ctx h k .quarantined
            let d1 := s1.die die
            let q : Quarantine :=
              { cmd := c
                ctx := c.ctx
                h := h
                k := k
                size := b
                ends := s1.dtime + s1.mgc.params.getD 1 0
                cleared := false
                recd := false }
            .next (s1.setDie die { d1 with dqueue := d1.dqueue.drop 1, quar := d1.quar ++ [q] })
  | _, _ => .next s

/-- The end of a quarantine: the bale's lines are zero and no waymarks, its directory entries are gone (R288). -/
def clearBale (s : State) (q : Quarantine) : State :=
  let mine (d : DirEntry) : Bool := d.ctx = q.ctx && d.srcH = q.h && d.srcK = q.k
  let pages := (s.directory.filter mine).flatMap fun d => d.pages
  let inside (a : Nat) : Bool := pages.contains (a / 4096 * 4096)
  let s1 := s.mapDir fun l => l.filter fun d => !mine d
  { s1 with
    mem := s1.mem.filter fun c => !inside c.1
    marks := s1.marks.filter fun m => !inside (m.1 * 128)
    eccLines := s1.eccLines.filter fun l => !inside (l * 128)
    coded := s1.coded.filter fun c => !inside (c.1 * 512) }

/-- QUARANTINE_END: quarantine idx of a die ends once its time has passed; then its record is written, its word 0 after the release point
(R288). -/
def execQuarantineEnd (die idx : Nat) (s : State) : Out :=
  match (s.die die).quar[idx]? with
  | none => .next s
  | some q =>
    let put (s : State) (q : Quarantine) : State := s.setDie die { s.die die with quar := (s.die die).quar.set idx q }
    if !q.cleared then
      (if s.dtime < q.ends then .next s else .next (put (clearBale s q) { q with cleared := true, ends := s.dtime }))
    else if q.recd && s.waitsPoint q.cmd.rel then .next s
    else match droverRecord s die q.cmd q.recd 0 0 (q.size / 128) 0 0 q.ends with
      | .wait s => .next s
      | .bad s _ => .next s
      | .ok s false => .next (put s { q with recd := true })
      | .ok s true => .next (s.setDie die { s.die die with quar := (s.die die).quar.eraseIdx idx })

/-! ## MVQ and MVWAIT (R285) -/

/-- The state word of a move number, as a context sees it. -/
def moveWord (s : State) (ctx num : Nat) : Nat :=
  match (s.die (num / 2 ^ 31 % 2)).moves.find? fun m => m.num = num && m.ctx = ctx with
  | none => 0
  | some m => m.lines % 2 ^ 24 * 2 ^ 24 + (if m.state = 3 || m.state = 4 then m.status % 256 * 2 ^ 16 else 0) + m.state

/-- A state word that ends an MVWAIT: STATE 0, 3 or 4. -/
def moveSettled (w : Nat) : Bool := w % 8 = 0 || w % 8 = 3 || w % 8 = 4

/-- A poisoned move number poisons s[d] (R285). -/
def poisonMove (s : State) (k : BKey) (x : Block) (d : SReg) : Out := .next (s.setBlock k (x.putS d 0 true).advance)

/-- MVQ (R285). -/
def execMvq (d b : SReg) (s : State) : Out :=
  onBlock s fun k x =>
    if x.ps b then poisonMove s k x d
    else .next (s.setBlock k (x.putS d (BitVec.ofNat 64 (moveWord s (s.ctxNumOf x) (x.gs b).toNat)) false).advance)

/-- MVWAIT (R285): it retires at once when the move is settled or unknown, and sleeps otherwise. -/
def execMvwait (d b : SReg) (_ord : MemOrd) (s : State) : Out :=
  onBlock s fun k x =>
    if x.ps b then poisonMove s k x d
    else
      let w := moveWord s (s.ctxNumOf x) (x.gs b).toNat
      if moveSettled w then .next (s.setBlock k (x.putS d (BitVec.ofNat 64 w) false).advance)
      else .next (s.setBlock k { x with sleep := some (.mvwait d (x.gs b)) })

/-- MVWAIT_WAKE: a sleeping MVWAIT retires once its move is settled (R285). -/
def execMvwaitWake (k : BKey) (s : State) : Out :=
  match s.block? k with
  | none => .next s
  | some x => match x.sleep with
    | some (.mvwait d num) =>
      let w := moveWord s (s.ctxNumOf x) num.toNat
      if moveSettled w then .next (s.setBlock k ({ x with sleep := none }.putS d (BitVec.ofNat 64 w) false).advance) else .next s
    | _ => .next s

/-! ## SWEEP (R286) -/

/-- Where the data of reference v lies: through waymarks and the directory entries of quarantined bales, at most n steps; none
for a probe that would fault or take one step more. -/
def finalFrom (s : State) (e : Env) : Nat → W64 → Option W64
  | fuel, v =>
    match checkHandle s e v Need.none with
    | .ok s h =>
      if !inBound (refOff v) 1 h.bound then none
      else
        let dir := if baleSize h.mcls = 0 then none else s.dirOf e.ctx (refH v) (refOff v)
        let next : Option (Option W64) := match dir with
          | some d =>
            if d.state = .quarantined then some (some (mkRef d.dstH (d.dstK * d.size + refOff v % d.size)))
            else match placeRaw s e h v Need.none with
              | .ok s p => some ((s.markAt p).map fun m => mkRef (refH m.newref) (refOff m.newref + refOff v % 128))
              | _ => none
          | none => match placeRaw s e h v Need.none with
            | .ok s p => some ((s.markAt p).map fun m => mkRef (refH m.newref) (refOff m.newref + refOff v % 128))
            | _ => none
        (match next, fuel with
          | none, _ => none
          | some none, _ => some v
          | some (some _), 0 => none
          | some (some w), n + 1 => finalFrom s e n w)
    | _ => none

/-- final(v) (R286): v itself when it names no movable handle. -/
def finalRef (s : State) (e : Env) (v : W64) : W64 :=
  match checkHandle s e v Need.none with
  | .ok s h => if h.mcls = 0 || h.bound ≤ refOff v then v else (finalFrom s e 3 v).getD v
  | _ => v

/-- The word of a sweep at byte k: whether it was rewritten. -/
def sweepWord (s : State) (e : Env) (image : W64) (k : Nat) : Res Bool :=
  let need := Need.readWrite.scalar 8
  (locate s e (refH image) ((refOff image : Int) + k) 8 true need).andThen fun s l =>
    let done : Res Bool := (chaseAll s e need l.2.1 l.2.1 l.2.2).andThen fun s r =>
      if r.2.any fun p => s.eccAt p then .bad (s.firedHomes r.2) (FaultInfo.atRef causeEcc (r.1.getD l.2.1))
      else
        let v := BitVec.ofNat 64 (leNat (s.readHomes r.2))
        let t := finalRef s e v
        if t = v then .ok (s.expandHomes r.2) false else .ok (s.writeHomes r.2 (leBytes 8 t.toNat)) true
    done.sampled e (s.unitHops l.2.2)

/-- SWEEP completes, having examined `next` bytes (R286). -/
def endSweep (x : Block) (d : SReg) (next count : Nat) : Block :=
  ({ x with sleep := none }.putS d (BitVec.ofNat 64 (next / 8 * 2 ^ 32 + count)) false).advance

/-- A block in the middle of a SWEEP examines its next word; a fault traps at the word, and earlier rewrites stay (R286). -/
def execSweepRound (k : BKey) (s : State) : Out :=
  match s.block? k with
  | none => .next s
  | some x => match x.sleep with
    | some (.sweep d aa image len next count) =>
      if len ≤ next then .next (s.setBlock k (endSweep x d next count))
      else match sweepWord s (s.envOf k x) image next with
        | .wait s => .next s
        | .bad s f => trapOut s k x { f with aref := aa.val }
        | .ok s r =>
          let count := count + r.toNat
          if len ≤ next + 8 then .next (s.setBlock k (endSweep x d (next + 8) count))
          else .next (s.setBlock k { x with sleep := some (.sweep d aa image len (next + 8) count) })
    | _ => .next s

/-- Bytes that a SWEEP examines (R286). -/
def sweptBytes (aa : ARef) (b : SReg) : Reach := fun s k x => rangeHomes s (s.envOf k x) (x.ga aa) (min (x.gs b).toNat (2 ^ 24))

/-- SWEEP (R286): the checks that come before its first word; it then examines a word at a time. -/
def execSweep (d : SReg) (aa : ARef) (b : SReg) (s : State) : Out :=
  afterOlder true (sweptBytes aa b) s fun s k x =>
    if x.pa aa then trapOut s k x (x.refPoison aa)
    else if x.ps b then trapOut s k x x.scalarPoison
    else
      let image := x.ga aa
      let n := (x.gs b).toNat
      let at_ (f : FaultInfo) : FaultInfo := { f with aref := aa.val }
      if refOff image % 8 ≠ 0 || n % 8 ≠ 0 then trapOut s k x (at_ (FaultInfo.atRef causeAlign image))
      else match checkHandle s (s.envOf k x) image Need.readWrite with
        | .wait s => .next s
        | .bad s f => trapOut s k x (at_ f)
        | .ok s _ =>
          let m := min n (2 ^ 24)
          if m = 0 then .next (s.setBlock k (endSweep x d 0 0))
          else .next (s.setBlock k { x with sleep := some (.sweep d aa image m 0 0) })

/-! ## MKQ (R287) -/

/-- BSTATE. -/
def baleCode : Option BaleState → Nat
  | none => 0
  | some .moving => 1
  | some .marked => 2
  | some .quarantined => 3

/-- The two result words of MKQ for a byte at a home address. -/
def mkqWords (s : State) (ctx : Nat) (h : HEntry) (image : W64) (home : Nat) : W64 × W64 :=
  let dir := if baleSize h.mcls = 0 then none else s.dirOf ctx (refH image) (refOff image)
  let st := baleCode (dir.map fun d => d.state)
  match s.markAt home with
  | some m => (BitVec.ofNat 64 (m.gen % 2 ^ 16 * 2 ^ 48 + m.mnum % 2 ^ 32 * 2 ^ 16 + m.hop % 4 * 16 + 8 + st),
      if st = 3 then (match dir with
        | some d => mkRef d.dstH (d.dstK * d.size + refOff image % d.size / 128 * 128)
        | none => m.newref) else m.newref)
  | none => match dir with
    | some d => (BitVec.ofNat 64 (d.num % 2 ^ 32 * 2 ^ 16 + st),
        if st = 3 then mkRef d.dstH (d.dstK * d.size + refOff image % d.size / 128 * 128) else 0)
    | none => (0, 0)

/-- MKQ (R287): steps 2 to 6 of R81 for one byte with RD, and no chase. An odd d breaks a static limit (R281). -/
def execMkq (d : SReg) (aa : ARef) (s : State) : Out :=
  onBlock s fun k x =>
    if d.val % 2 ≠ 0 then trapOut s k x (wordFault causeIllegal (.mkq d aa))
    else if x.pa aa then trapOut s k x (x.refPoison aa)
    else
      let image := x.ga aa
      let e := s.envOf k x
      match (checkHandle s e image Need.load).andThen fun s h =>
          if !inBound (refOff image) 1 h.bound then .bad s (FaultInfo.atRef causeBound image)
          else (placeRaw s e h image Need.load).andThen fun s p => .ok s (h, p) with
      | .wait s => .next s
      | .bad s f => trapOut s k x { f with aref := aa.val }
      | .ok s (h, p) =>
        let w := mkqWords s e.ctx h image p
        .next (s.setBlock k ((x.putS d w.1 false).putS (d + 1) w.2 false).advance)

end Sys2Proof.Machine
end

