-- ==== Sys2Proof/Machine/Launch.lean ====
section
/-! DEFINITION. The Dispatcher's launches: manifests and admission, queues, slack and choice, starting blocks, retirement,
re-runs, cancels and deadlines (R121, R247, R291 to R306). -/

namespace Sys2Proof.Machine

/-! ## Launch statuses (R296, R304) -/

def lsNotPub : Nat := 0x20
def lsMovCode : Nat := 0x21
def lsBadMft : Nat := 0x22
def lsInfeas : Nat := 0x23
def lsCancel : Nat := 0x24
def lsEcc : Nat := 0x25
def lsExpired : Nat := 0x26

/-! ## Manifests (R291) -/

/-- n little-endian bytes at an offset of a list. -/
def fieldAt (bs : List Byte) (off n : Nat) : Nat := leNat ((bs.drop off).take n)

/-- A manifest from its 128 bytes (R291). -/
def parseManifest (bs : List Byte) : Manifest :=
  let w (off : Nat) : W64 := BitVec.ofNat 64 (fieldAt bs off 8)
  { coderef := w 0
    kidx := fieldAt bs 8 2
    abind := BitVec.ofNat 16 (fieldAt bs 10 2)
    flags := fieldAt bs 12 4
    gx := fieldAt bs 16 4
    gy := fieldAt bs 20 2
    gz := fieldAt bs 22 2
    deadline := fieldAt bs 24 8
    budget := fieldAt bs 32 8
    pwt := w 40
    pwmask := BitVec.ofNat 8 (fieldAt bs 48 1)
    prio := fieldAt bs 49 1
    spol := fieldAt bs 50 1
    fpol := fieldAt bs 51 1
    job := fieldAt bs 52 2
    ctx := fieldAt bs 54 2
    compref := w 56
    mseed := w 64
    vmap := w 72
    est := fieldAt bs 80 8
    fltref := w 88
    fltn := fieldAt bs 96 2
    qid := fieldAt bs 98 2 }

/-- FLAGS bits (R291). -/
def Manifest.coop (m : Manifest) : Bool := m.flags.testBit 0
def Manifest.rej (m : Manifest) : Bool := m.flags.testBit 1
def Manifest.graph (m : Manifest) : Bool := m.flags.testBit 2
def Manifest.ovlp (m : Manifest) : Bool := m.flags.testBit 3

/-- A zero field of a manifest is nonzero, or a policy is reserved (R291, R296). -/
def manifestReserved (bs : List Byte) (m : Manifest) : Bool :=
  ((bs.drop 100).take 26).any (fun b => b ≠ 0) || 16 ≤ m.flags || 8 ≤ m.prio || 2 ≤ m.spol || 3 ≤ m.fpol

/-- Blocks of the grid. -/
def Manifest.gridSize (m : Manifest) : Nat := (m.gx + 1) * (m.gy + 1) * (m.gz + 1)

/-- The environment of the Dispatcher's accesses for a context (log 25). -/
def dispEnv (ctx : Nat) : Env := { ctx := ctx, core := 0, who := none }

/-- A reference passes R81 steps 2 and 3, its bytes lie within the bound and its address is aligned. -/
def refFits (s : State) (e : Env) (image : W64) (n align : Nat) (need : Need) : Res Bool :=
  match checkHandle s e image need with
  | .wait s => .wait s
  | .bad s _ => .ok s false
  | .ok s h => .ok s (inBound (refOff image) n h.bound && (h.base + refOff image) % align = 0)

/-! ## Kernels (R131) -/

/-- A kernel of a code object. -/
structure Kernel where
  entry : Nat
  wrapup : Option Nat
  coop : Bool
  codeOff : Nat
  codeLen : Nat
  deriving DecidableEq, Repr

/-- An entry of a directory. -/
def dirEntry (dir : List Byte) (i : Nat) : List Byte := (dir.drop (16 * i)).take 16

/-- The offset of the wrap-up entry of a kernel, the first of the directory's n entries that names it. -/
def wrapupOf (dir : List Byte) (kidx n : Nat) : Option Nat :=
  ((List.range n).find? fun i => fieldAt (dirEntry dir i) 4 1 = 3 && fieldAt (dirEntry dir i) 6 2 = kidx).map fun i =>
    fieldAt (dirEntry dir i) 0 4

/-- The kernel of a directory index, none when it is not a kernel. -/
def kernelAt (header dir : List Byte) (kidx : Nat) : Option Kernel :=
  let n := fieldAt header 44 2
  let d := dirEntry dir kidx
  if n ≤ kidx || fieldAt d 4 1 ≠ 1 then none
  else some {
    entry := fieldAt d 0 4
    wrapup := wrapupOf dir kidx n
    coop := (fieldAt d 5 1).testBit 0
    codeOff := fieldAt header 16 4
    codeLen := fieldAt header 20 4 }

/-! ## Slack and keys (R298, R299) -/

/-- Placeable parallelism P of R299. -/
def State.parallelism (s : State) (m : Manifest) (nrem : Nat) : Nat :=
  let part := (s.ctx m.ctx).part
  let held := (s.blocks.filter fun p => part.contains p.1.core && match s.launchOf p.2 with
    | some l => m.prio < l.man.prio
    | none => false).length
  max 1 (min (Config.contextsPerCore * part.length - held) nrem)

/-- Slack of R299, none without a deadline. -/
def State.slack (s : State) (m : Manifest) (tk nrem : Nat) : Option Int :=
  if m.deadline = noDeadline then none
  else
    let p := s.parallelism m nrem
    some ((m.deadline : Int) - s.dtime - ((nrem * tk + p - 1) / p : Nat))

/-- The key of R298. -/
def State.keyOf (s : State) (m : Manifest) (tk nrem : Nat) : Int :=
  match s.slack m tk nrem with
  | none => 2 ^ 63 - 1
  | some k => if m.spol = 0 then k else m.deadline

/-- The name of a launch's kernel. -/
def Manifest.kernelKey (m : Manifest) : Nat × W64 × Nat := (m.ctx, m.coderef, m.kidx)

/-- Tk at admission (R299). -/
def State.firstTk (s : State) (m : Manifest) : Nat := if m.est ≠ 0 then m.est else (kvGet m.kernelKey s.estimates).getD 0

/-- Blocks of a launch not yet retired. -/
def Launch.remaining (l : Launch) : Nat := l.man.gridSize - l.valid.length

/-- The deadline of a manifest has passed. -/
def State.expired (s : State) (m : Manifest) : Bool := m.deadline ≠ noDeadline && m.deadline ≤ s.dtime

/-! ## Admission (R296) -/

/-- The windows that the mask binds, read from the table: none when one fails R78, lacks RD or exceeds its bound. -/
def bindWindows (s : State) (e : Env) (m : Manifest) : List Nat → Res (Option (List (Option (W64 × Nat))))
  | [] => .ok s (some [])
  | n :: ns =>
    if !m.pwmask.getLsbD n then
      (bindWindows s e m ns).andThen fun s r => .ok s (r.map fun ws => none :: ws)
    else match readRef s e m.pwt (16 * n) 16 false Need.load with
      | .wait s => .wait s
      | .bad s _ => .ok s none
      | .ok s bs =>
        let image := BitVec.ofNat 64 (fieldAt bs 0 8)
        let len := fieldAt bs 8 8
        (refFits s e image len 1 Need.load).andThen fun s good =>
          if !good then .ok s none
          else (bindWindows s e m ns).andThen fun s r => .ok s (r.map fun ws => some (image, len) :: ws)

/-- ABIND names only bytes of a bound P0. -/
def abindFits (m : Manifest) (windows : List (Option (W64 × Nat))) : Bool :=
  m.abind = 0 || match windows.headD none with
    | none => false
    | some (_, len) => (List.range 16).all fun n => !m.abind.getLsbD n || 8 * n + 8 ≤ len

/-- Numbers that a queue holds name launches or graphs of another context. -/
def State.queueForeign (s : State) (qid ctx : Nat) : Bool :=
  match s.queues.find? fun q => q.qid = qid with
  | none => false
  | some q => q.launches.any fun n =>
      (s.launches.any fun l => l.num = n && l.man.ctx ≠ ctx) || (s.graphs.any fun g => g.num = n && g.man.ctx ≠ ctx)

/-- The references of a manifest that its records go to (R296): COMPREF, VMAP, FLTREF. -/
def recordRefs (s : State) (e : Env) (m : Manifest) : Res Bool :=
  (refFits s e m.compref 64 64 Need.store).andThen fun s c =>
    if !c then .ok s false
    else
      (if m.vmap = 0 then .ok s true else refFits s e m.vmap ((2 * m.gridSize + 7) / 8) 1 Need.store).andThen fun s v =>
        if !v then .ok s false
        else if m.fltref = 0 then .ok s true else refFits s e m.fltref (64 * m.fltn) 64 Need.store

/-- BADMFT checks that a launch and a graph share; the windows when they pass. -/
def sharedChecks (s : State) (bs : List Byte) (m : Manifest) : Res (Option (List (Option (W64 × Nat)))) :=
  let e := dispEnv m.ctx
  if manifestReserved bs m then .ok s none
  else (bindWindows s e m (List.range 8)).andThen fun s ws =>
    match ws with
    | none => .ok s none
    | some ws =>
      if !abindFits m ws || s.queueForeign m.qid m.ctx then .ok s none
      else (recordRefs s e m).andThen fun s good => .ok s (if good then some ws else none)

/-- The code object of a manifest: its header and directory, or the launch status that refuses it: NOTPUB, MOVCODE, or BADMFT
for a reference that faults. -/
def codeChecks (s : State) (m : Manifest) : Res (Except Nat (List Byte × List Byte)) :=
  let e := dispEnv m.ctx
  match readRef s e m.coderef 0 64 false Need.none with
  | .wait s => .wait s
  | .bad s _ => .ok s (.error lsBadMft)
  | .ok s header =>
    if !(fieldAt header 6 2).testBit 0 then .ok s (.error lsNotPub)
    else match checkHandle s e m.coderef Need.none with
      | .wait s => .wait s
      | .bad s _ => .ok s (.error lsBadMft)
      | .ok s h =>
        if h.mcls ≠ 0 then .ok s (.error lsMovCode)
        else match readRef s e m.coderef (fieldAt header 40 4) (16 * fieldAt header 44 2) false Need.none with
          | .wait s => .wait s
          | .bad s _ => .ok s (.error lsBadMft)
          | .ok s dir => .ok s (.ok (header, dir))

/-- A launch entry of a manifest that passed its checks. -/
def State.newLaunch (s : State) (m : Manifest) (k : Kernel) (ws : List (Option (W64 × Nat))) (node : Option (Nat × Nat)) : Launch :=
  { num := 0
    man := m
    entry := BitVec.ofNat 32 k.entry
    wrapup := k.wrapup.map fun w => BitVec.ofNat 32 w
    codeOff := k.codeOff
    codeLen := k.codeLen
    coop := m.coop
    windows := ws
    begun := []
    reruns := []
    valid := []
    fcause := 0
    fblk := none
    nflt := 0
    admitted := s.dtime
    waitingSince := s.dtime
    key := none
    tk := s.firstTk m
    mapped := false
    ready := m.ovlp || node.isSome || !(s.queues.any fun q => q.qid = m.qid)
    status := 0
    node := node }

/-- The checks of R296 on a launch manifest: its entry, or the launch status that refuses it. -/
def admitLaunch (s : State) (bs : List Byte) (m : Manifest) (node : Option (Nat × Nat)) : Res (Except Nat Launch) :=
  if m.graph then .ok s (.error lsBadMft)
  else (codeChecks s m).andThen fun s c => match c with
    | .error st => .ok s (.error st)
    | .ok (header, dir) => match kernelAt header dir m.kidx with
      | none => .ok s (.error lsBadMft)
      | some k =>
        if k.coop ≠ m.coop || 2 ^ 32 < m.gridSize || (m.coop && 8 < m.gridSize) then .ok s (.error lsBadMft)
        else (sharedChecks s bs m).andThen fun s ws => match ws with
          | none => .ok s (.error lsBadMft)
          | some ws =>
            let l := s.newLaunch m k ws node
            let late : Bool := match s.slack m l.tk m.gridSize with | some x => x < 0 | none => false
            if m.rej && late then .ok s (.error lsInfeas) else .ok s (.ok l)

/-- The checks of R296 on a graph manifest (R291, R307): its node count, its grid, and that the handle of CODEREF does not fault; none of
them concerns a kernel. -/
def admitGraph (s : State) (bs : List Byte) (m : Manifest) : Res (Except Nat Graph) :=
  if m.kidx = 0 || m.kidx = 65535 || 2 ^ 32 < m.gridSize || (m.coop && 8 < m.gridSize) then .ok s (.error lsBadMft)
  else match checkHandle s (dispEnv m.ctx) m.coderef Need.none with
    | .wait s => .wait s
    | .bad s _ => .ok s (.error lsBadMft)
    | .ok s _ => (sharedChecks s bs m).andThen fun s ws => match ws with
      | none => .ok s (.error lsBadMft)
      | some _ => .ok s (.ok {
          num := 0
          man := m
          nodes := []
          ready := m.ovlp || !(s.queues.any fun q => q.qid = m.qid)
          started := false
          kernels := 0
          fcause := 0
          status := 0
          ending := false })

/-! ## Writes on the launch side (R301, R302) -/

/-- A write on the launch side that fails is posted with SRC 7 and not retried (R302). Answers the cause of the failure, or 0. -/
def launchWrite (s : State) (ctx ident : Nat) (image : W64) (off : Nat) (bytes : List Byte) : Res Nat :=
  match writeRef s (dispEnv ctx) image off bytes false Need.store with
  | .wait s => .wait s
  | .ok s _ => .ok s 0
  | .bad s f => .ok (postCtxFault s ctx 7 f.cause f.where_ ident) f.cause

/-- What a launch or graph completion record holds (R301). -/
structure LaunchRec where
  num : Nat
  fcause : Nat
  status : Nat
  full : Nat
  part : Nat
  none_ : Nat
  fsum : Nat
  fblk : Option Nat
  nflt : Nat
  deriving DecidableEq, Repr

/-- Word 0 of a completion record. -/
def LaunchRec.word0 (r : LaunchRec) : Nat := r.num % 2 ^ 32 * 2 ^ 32 + r.fcause % 256 * 2 ^ 24 + r.status % 256 * 2 ^ 8 + 1

/-- Writes a completion record: words 1 to 7, then word 0 (R301); answers the cause of a failure, or 0. -/
def writeLaunchRec (s : State) (m : Manifest) (r : LaunchRec) : Res Nat :=
  let words := [r.full, r.part, r.none_, r.fsum, s.dtime, r.fblk.getD (2 ^ 64 - 1), r.nflt]
  (launchWrite s m.ctx r.num m.compref 8 (words.flatMap fun w => leBytes 8 w)).andThen fun s c =>
    if c ≠ 0 then .ok s c else launchWrite s m.ctx r.num m.compref 0 (leBytes 8 r.word0)

/-- The record of a refused launch: its status, all counts zero (R296); no number was given, so LAUNCH is unstated (log 2).
COMPREF must be one that admission accepts. -/
def refusedRecord (s : State) (m : Manifest) (status : Nat) : Res Unit :=
  (refFits s (dispEnv m.ctx) m.compref 64 64 Need.store).andThen fun s good =>
    if !good then .ok s ()
    else
      let r : LaunchRec := { num := Config.unstated s.freeCount % 2 ^ 32, fcause := 0, status := status, full := 0, part := 0,
                             none_ := 0, fsum := 0, fblk := none, nflt := 0 }
      (writeLaunchRec s.bumpFree m r).andThen fun s _ => .ok s ()

/-! ## Queues (R297) -/

/-- Hardware queue slots. -/
def queueSlots : Nat := 512

/-- The lowest queue slot in no use. -/
def State.freeSlot (s : State) : Option Nat :=
  (List.range queueSlots).find? fun n => !(s.queues.any fun q => q.slot = some n)

/-- A launch or graph joins the queue of its manifest. -/
def State.joinQueue (s : State) (qid num : Nat) : State :=
  if s.queues.any fun q => q.qid = qid then
    { s with queues := s.queues.map fun q => if q.qid = qid then
        { q with launches := q.launches ++ [num], slot := match q.slot with | some n => some n | none => s.freeSlot } else q }
  else
    let q : Queue := { qid := qid, launches := [num], owner := Config.queueOwner s.freeCount % 8, slot := s.freeSlot,
                       spilledFrom := none, frozen := false, poisoned := false }
    { s.bumpFree with queues := s.queues ++ [q] }

/-- A spilled queue that holds a ready launch, and no node in a spilled fault-hold. -/
def State.reloadable (s : State) (q : Queue) : Bool :=
  q.slot.isNone
    && (q.launches.any fun n => (s.launches.any fun l => l.num = n && l.ready) || (s.graphs.any fun g => g.num = n && g.ready))
    && !(s.graphs.any fun g => q.launches.contains g.num && g.nodes.any fun x => x.2.spilled)

/-- The first queue that may be reloaded takes a free slot. -/
def State.reloadQueue (s : State) : State :=
  match s.freeSlot, s.queues.find? s.reloadable with
  | some n, some q => { s with queues := s.queues.map fun x => if x.qid = q.qid then { x with slot := some n } else x }
  | _, _ => s

/-- The number after one in a list. -/
def afterIn (n : Nat) : List Nat → Option Nat
  | [] => none
  | x :: xs => if x = n then xs.head? else afterIn n xs

/-- A launch or graph leaves its queue: the one after it becomes ready (R297); an empty queue gives up its slot. -/
def State.leaveQueue (s : State) (qid num : Nat) : State :=
  let next := (s.queues.find? fun q => q.qid = qid).bind fun q => afterIn num q.launches
  let qs := (s.queues.map fun q => if q.qid = qid then { q with launches := q.launches.filter fun n => n ≠ num } else q).filter
    fun q => !q.launches.isEmpty
  ({ s with
      queues := qs
      launches := s.launches.map fun (l : Launch) => if next = some l.num && l.node.isNone then { l with ready := true } else l
      graphs := s.graphs.map fun (g : Graph) => if next = some g.num then { g with ready := true } else g }).reloadQueue

/-- The queue that holds a launch or graph is frozen (R312). -/
def State.frozenQueue (s : State) (num : Nat) : Bool := s.queues.any fun q => q.frozen && q.launches.contains num

/-- The queue of a launch, or of the graph that admitted it, is frozen. -/
def State.launchFrozen (s : State) (l : Launch) : Bool :=
  s.frozenQueue l.num || match l.node with | some (g, _) => s.frozenQueue g | none => false

/-! ## The launch table (R295) -/

/-- Entries of the launch table. -/
def launchTableSize : Nat := 4096

/-- The launch table is full; graphs take entries too. -/
def State.tableFull (s : State) : Bool := launchTableSize ≤ s.launches.length + s.graphs.length

/-- A number is in use: a launch or graph of the table has it, or something that a node of that graph began is outstanding (R307). -/
def State.numberUsed (s : State) (n : Nat) : Bool :=
  let ofGraph (x : Option (Nat × Nat)) : Bool := match x with | some (g, _) => g = n | none => false
  s.launches.any (fun l => l.num = n || ofGraph l.node) || s.graphs.any (fun g => g.num = n)
    || (s.die0.link ++ s.die1.link).any fun c => ofGraph c.node

/-- The first free number from a number on. -/
def State.numberFrom (s : State) : Nat → Nat → Nat
  | 0, n => n
  | fuel + 1, n => if s.numberUsed n then State.numberFrom s fuel ((n + 1) % 2 ^ 32) else n

/-- A free launch number (R295): which one is a free value. -/
def State.freeNumber (s : State) : Nat :=
  s.numberFrom (2 * s.launches.length + s.graphs.length + s.die0.link.length + s.die1.link.length) (Config.freeLaunch s.freeCount).toNat

/-- An admitted launch enters the table and, unless a graph orders it, its queue. -/
def State.addLaunch (s : State) (l : Launch) : State × Nat :=
  let n := s.freeNumber
  let s1 := { s.bumpFree with launches := s.launches ++ [{ l with num := n }] }
  (if l.node.isSome then s1 else s1.joinQueue l.man.qid n, n)

/-- An admitted graph enters the table and its queue. -/
def State.addGraph (s : State) (g : Graph) : State × Nat :=
  let n := s.freeNumber
  let s1 := { s.bumpFree with graphs := s.graphs ++ [{ g with num := n }] }
  (s1.joinQueue g.man.qid n, n)

/-! ## Starting blocks (R121, R247) -/

/-- SEED at block start (R121). -/
def startSeed (mseed : W64) (blklin : Nat) : W64 := mseed ^^^ BitVec.ofNat 64 (blklin * 0xD1B54A32D192ED03)

/-- A block at its start, before its bound references are read (R121). -/
def startBlock (l : Launch) (blklin attempt now : Nat) : Block :=
  { pc := l.entry
    s := Vector.replicate 32 0
    sp := 0
    a := Vector.replicate 16 0
    ap := 0
    origin := none
    t := Vector.replicate 64 none
    sh := Vector.replicate 32 ShapeRec.zero
    m := Vector.replicate 16 Mask.zero
    status := 0
    gang := 0
    seed := startSeed l.man.mseed blklin
    flt := FaultRecord.zero
    wpc := 0
    wcause := 0
    wbend := 0
    validity := .full
    calls := []
    launch := l.num
    blklin := blklin
    arrived := 0
    doneBar := 0
    donePhase := Vector.replicate 16 0
    sendPos := Vector.replicate 128 0
    recvPos := Vector.replicate 128 0
    evq := []
    held := []
    superseded := []
    msgs := []
    parts := []
    readers := []
    sleep := none
    deps := []
    loans := []
    ended := none
    trapTime := 0
    cancelled := false
    sys := none
    attempt := attempt
    started := now }

/-- The reference registers that ABIND binds, read from P0; a failing read poisons its register (R121). -/
def bindRefs (s : State) (e : Env) (m : Manifest) (p0 : W64) (entry : W32) (b : Block) : List Nat → Res Block
  | [] => .ok s b
  | n :: ns =>
    if !m.abind.getLsbD n then bindRefs s e m p0 entry b ns
    else match readRef s e p0 (8 * n) 8 false Need.load with
      | .wait s => .wait s
      | .bad s f =>
        bindRefs s e m p0 entry ((b.putA (Fin.ofNat 16 n) 0 true).noteOrigin (some (f.origin entry))) ns
      | .ok s bs => bindRefs s e m p0 entry (b.putA (Fin.ofNat 16 n) (BitVec.ofNat 64 (leNat bs)) false) ns

/-- Starts a block of a launch in a context. The barrier set is zeroed when this is the first block of the launch there
(R247). -/
def placeBlock (s : State) (l : Launch) (blklin attempt : Nat) (k : BKey) : Res Unit :=
  let b := startBlock l blklin attempt s.dtime
  let p0 := match l.windows.headD none with | some (image, _) => image | none => 0
  (bindRefs s { ctx := l.man.ctx, core := k.core, who := none } l.man p0 l.entry b (List.range 16)).andThen fun s b =>
    let set := (globalCluster k.core, k.slot)
    let s1 := if kvGet set s.barOwner = some l.num then s
      else { s.setBarSet k (Vector.replicate 16 Barrier.zero) with
        barOwner := kvSet (fun p => p.1 * 4 + p.2) set l.num s.barOwner }
    let s2 := if l.begun.isEmpty then monitorSample s1 (s.dieOf k.core) 3 (s.dtime - l.admitted) else s1
    let s3 := match s2.launch? l.num with
      | some l => s2.setLaunch { l with begun := insertNat blklin l.begun, waitingSince := s.dtime }
      | none => s2
    .ok (s3.setBlock k b) ()

/-- A context may hold a block of a launch: it holds none, its share is not on loan (R165), and its set holds no block of
another launch (R247). -/
def State.contextFree (s : State) (k : BKey) (l : Launch) : Bool :=
  (s.block? k).isNone && (s.lendable k.core).contains k.slot
    && !(s.blocks.any fun p => sameSet k p.1 && p.2.launch ≠ l.num)

/-- A launch may start blocks: it is ready, neither ended nor past its deadline, and its queue is not frozen (R297, R303,
R304, R312). -/
def State.mayStart (s : State) (l : Launch) : Bool :=
  l.status = 0 && !s.expired l.man && !s.launchFrozen l

/-- A re-run of a launch may start in a context: on the core of its trap, or, once that core has left the partition, on any core of it (R305,
R311; log 25). One of a cooperative launch stays in the barrier set of its mates, or of its trap when none of them stands (R20, R247). -/
def State.rerunFits (s : State) (l : Launch) (k : BKey) (r : Nat × BKey) : Bool :=
  let part := (s.ctx l.man.ctx).part
  let mates := s.blocks.filter fun p => p.2.launch = l.num
  let home := match mates with | p :: _ => p.1 | [] => r.2
  let core : Bool := r.2.core = k.core || (part.contains k.core && !part.contains r.2.core)
  if !l.coop then core
  else if sameSet home r.2 then core && (sameSet k r.2 || (mates.isEmpty && !part.contains r.2.core))
  else sameSet k home

/-- A re-run waits for a core: it is the next block to start there (R305). -/
def State.rerunOn (s : State) (core : Nat) : Bool :=
  s.launches.any fun l => l.reruns.any fun r => (List.range Config.contextsPerCore).any fun n => s.rerunFits l { core := core, slot := n } r

/-- The lowest number that a rising list leaves out, from n on. -/
def firstGap (n : Nat) : List Nat → Nat
  | [] => n
  | x :: xs => if x = n then firstGap (n + 1) xs else n

/-- The staged block of a core starts when its context may hold it and no re-run goes first (R305, R306). -/
def startStaged (s : State) (core : Nat) : State :=
  match (s.core core).staged with
  | none => s
  | some (n, blk, slot) => match s.launch? n with
    | none => s
    | some l =>
      let k : BKey := { core := core, slot := slot }
      if !s.contextFree k l || !s.mayStart l || s.rerunOn core then s
      else match placeBlock s l blk 0 k with
        | .ok s _ => s.setCore core { s.core core with staged := none }
        | .bad s _ => s
        | .wait s => s

/-- Staged blocks of a launch are discarded (R303, R306). -/
def State.dropStaged (s : State) (n : Nat) : State :=
  { s with cores := s.cores.map fun p => match p.2.staged with
      | some (m, _, _) => if m = n then (p.1, { p.2 with staged := none }) else p
      | none => p }

/-! ## Cancels (R304) -/

/-- Every block of a launch has retired. -/
def Launch.over (l : Launch) : Bool := l.valid.length = l.man.gridSize && l.reruns.isEmpty

/-- Cancels a launch: its running blocks are to be diverted, no further block starts, staged blocks are discarded. A launch
whose last block has retired does not change. -/
def cancelLaunch (s : State) (n status : Nat) : State :=
  match s.launch? n with
  | none => s
  | some l =>
    if l.over then s
    else
      let s1 := (s.setLaunch { l with status := status, reruns := [] }).dropStaged n
      { s1 with blocks := s1.blocks.map fun p => if p.2.launch = n then (p.1, { p.2 with cancelled := true }) else p }

/-! ## Choice (R298, R300) -/

/-- A launch has waited 100 ms since its admission or its last start (R300). -/
def agedAfter : Nat := 100000000

/-- Priority as it acts (R298, R300). -/
def State.effectivePrio (s : State) (l : Launch) : Nat := if agedAfter ≤ s.dtime - l.waitingSince then 7 else l.man.prio

/-- Cores of the cluster of k, from k's core on, whose context of k's number is free for a cooperative launch (R300). -/
def State.coopCores (s : State) (k : BKey) (l : Launch) : List Nat :=
  let base := globalCluster k.core * 8
  ((List.range 8).map fun i => base + (k.core + i) % 8).filter fun c =>
    (s.ctx l.man.ctx).part.contains c && s.contextFree { k with core := c } l && !s.rerunOn c

/-- A launch may use the context k now: for a re-run that waits for the core, or for its next block, or whole when it is
cooperative. Its saved blocks stand before its next block (R141, R311). -/
def State.mayUse (s : State) (k : BKey) (l : Launch) : Bool :=
  s.mayStart l && l.ready && (s.ctx l.man.ctx).part.contains k.core && s.contextFree k l &&
    (if s.rerunOn k.core then l.reruns.any (s.rerunFits l k)
     else l.begun.length < l.man.gridSize && !(s.saved.any fun x => x.launch = l.num) &&
      (!l.coop || l.man.gridSize - l.begun.length ≤ (s.coopCores k l).length))

/-- The better of two candidates: priority, key, then the earlier admission (R298). -/
def State.better (s : State) (x y : Launch) : Bool :=
  s.effectivePrio y < s.effectivePrio x
    || (s.effectivePrio y = s.effectivePrio x && decide (x.key.getD 0 < y.key.getD 0))

/-- The launch chosen among candidates in admission order. -/
def State.chosen (s : State) : List Launch → Option Launch
  | [] => none
  | l :: ls => match State.chosen s ls with
    | none => some l
    | some x => if s.better x l then some x else some l

/-- Starts blocks of a cooperative launch on a list of cores in one step (R300). -/
def placeCoop (k : BKey) (l : Launch) : List Nat → State → Nat → Res Unit
  | [], s, _ => .ok s ()
  | c :: cs, s, left =>
    if left = 0 then .ok s ()
    else match s.launch? l.num with
      | none => .ok s ()
      | some l => (placeBlock s l (firstGap 0 l.begun) 0 { k with core := c }).andThen fun s _ => placeCoop k l cs s (left - 1)

/-- LAUNCH_CHOICE: context k takes the staged block of its core, or a block of the launch that R298 chooses. -/
def execLaunchChoice (k : BKey) (s : State) : Out :=
  if s.coreCount ≤ k.core || Config.contextsPerCore ≤ k.slot then .next s
  else
    let s0 := startStaged s k.core
    if (s0.block? k).isSome then .next s0
    else
      let keyed (l : Launch) : Launch := match l.key with
        | some _ => l
        | none => if s0.mayUse k l then { l with key := some (s0.keyOf l.man l.tk l.remaining) } else l
      let s1 := { s0 with launches := s0.launches.map keyed }
      match s1.chosen (s1.launches.filter (s1.mayUse k)) with
      | none => .next s1
      | some l => match l.reruns.find? (s1.rerunFits l k) with
        | some r => match placeBlock s1 l r.1 1 k with
          | .ok s2 _ => match s2.launch? l.num with
            | some l2 => .next (s2.setLaunch { l2 with reruns := l2.reruns.erase r })
            | none => .next s2
          | .bad s2 _ => .next s2
          | .wait s2 => .next s2
        | none =>
          if l.coop then
            match placeCoop k l (s1.coopCores k l) s1 (l.man.gridSize - l.begun.length) with
            | .ok s2 _ => .next s2
            | .bad s2 _ => .next s2
            -- placed whole or not at all: the posting alone stays
            | .wait s2 => .next { s1 with hvPosts := s2.hvPosts, mem := s2.mem, port0 := s2.port0, port1 := s2.port1,
                                          freeCount := s2.freeCount }
          else match placeBlock s1 l (firstGap 0 l.begun) 0 k with
            | .ok s2 _ => .next s2
            | .bad s2 _ => .next s2
            | .wait s2 => .next s2

/-- Internal events of the relay cores (R295), by the numbers that `Config.eventCode` turns into codes. -/
def ievRetired : Nat := 0
def ievTimer : Nat := 1
def ievHost : Nat := 2

/-- LAUNCH_DEADLINE: DTIME has reached the deadline of launch n: its unstarted blocks never start and its staged blocks are
discarded; its running blocks are diverted at their boundaries (R303). The relay cores see a timer event (R295, log 25). -/
def execLaunchDeadline (n : Nat) (s : State) : Out :=
  match s.launch? n with
  | none => .next s
  | some l =>
    if !s.expired l.man || l.over then .next s
    else
      let s1 := (s.setLaunch { l with status := if l.status = 0 then lsExpired else l.status, reruns := [] }).dropStaged n
      .next (if l.status = 0 then { s1 with internal := s1.internal ++ [ievTimer] } else s1)

/-! ## Retirement (R119, R302, R305) -/

/-- A deadline or a cancel has reached a block (R136). -/
def State.stopDue (s : State) (b : Block) : Bool :=
  b.cancelled || match s.launchOf b with | some l => s.expired l.man | none => false

/-- A block that a trap or a kill has ended. -/
def Block.killed (b : Block) : Bool := match b.ended with | some (_, _ + 1) => true | _ => false

/-- An ended block may retire: every event of its completed instructions is performed, release points of engine commands
excepted, and no message of it waits, unless a deadline or a cancel discards the message (R119, R253). A message of a killed
block that can meet no other side goes with it. -/
def State.mayRetire (s : State) (k : BKey) (b : Block) : Bool :=
  (b.evq.all fun e => e.kind = .relPoint || (e.waiting && s.stopDue b)) &&
    ((b.msgs.isEmpty && b.held.isEmpty) || s.stopDue b || (b.killed && !b.msgs.isEmpty && b.msgs.all fun m => s.hopeless k b m))

/-- Entry k of a fault log (R302). -/
def faultLogEntry (b : Block) (now : Nat) : List Byte :=
  [b.flt.flt0, b.flt.flt1, b.flt.flt2, b.flt.flt3, BitVec.ofNat 64 b.blklin, BitVec.ofNat 64 b.attempt, BitVec.ofNat 64 now,
    0].flatMap fun w => leBytes 8 w.toNat

/-- Writes a trap's log entry when the log has room (R302). -/
def logTrapEntry (s : State) (l : Launch) (b : Block) : Res Unit :=
  if l.man.fltref = 0 || l.man.fltn ≤ l.nflt then .ok s ()
  else (launchWrite s l.man.ctx l.num l.man.fltref (64 * l.nflt) (faultLogEntry b b.trapTime)).andThen fun s _ => .ok s ()

/-- FPOL takes no action for a kill at a budget overrun (R305). -/
def Block.fpolSpared (b : Block) (cause : Nat) : Bool := b.inWrap && cause = causeDeadline

/-- Tk of a launch after a block of its kernel that retired FULL took d (R299). -/
def nextTk (tk d : Nat) : Nat := ((tk : Int) + ((d : Int) - tk) / 8).toNat

/-- A launch's counts after a block retired in a context with a validity and a cause (0: no trap), and whether FPOL asks for a
cancel (R301, R305). -/
def Launch.count (l : Launch) (b : Block) (k : BKey) (v : Validity) (cause now : Nat) : Launch × Bool :=
  if cause = 0 then
    let l1 := { l with valid := kvSet id b.blklin v l.valid }
    (if v = .full then { l1 with tk := nextTk l.tk (now - b.started) } else l1, false)
  else
    let l1 : Launch := { l with
      nflt := l.nflt + 1
      fcause := if l.fblk.isSome then l.fcause else cause
      fblk := match l.fblk with | some x => some x | none => some b.blklin }
    if l.man.fpol = 1 && b.attempt = 0 && l.status = 0 && !b.fpolSpared cause then
      ({ l1 with reruns := l1.reruns ++ [(b.blklin, k)] }, false)
    else ({ l1 with valid := kvSet id b.blklin .none l1.valid }, l.man.fpol = 2 && !b.fpolSpared cause)

/-- The other launches of a kernel after one of its blocks retired FULL: their Tk moves too (R299). -/
def State.noteTk (s : State) (l : Launch) (d : Nat) : State :=
  { s with launches := s.launches.map fun x =>
      if x.num ≠ l.num && x.man.kernelKey = l.man.kernelKey then { x with tk := nextTk x.tk d } else x }

/-- The launch of a retired block: counts, estimate, key, status, and the trap's ring entry (R298, R299, R302). -/
def countBlock (s : State) (l : Launch) (b : Block) (k : BKey) (v : Validity) (cause : Nat) : State :=
  let (l1, cancel) := l.count b k v cause s.dtime
  let l2 : Launch := { l1 with status := if l1.status = 0 && s.expired l1.man then lsExpired else l1.status }
  let s1 := s.setLaunch { l2 with key := some (s.keyOf l2.man l2.tk l2.remaining) }
  let s2 := if cause = 0 && v = .full
    then { s1.noteTk l (s.dtime - b.started) with estimates := kvSet (fun _ => 0) l.man.kernelKey l1.tk s1.estimates } else s1
  let s3 := if cause = 0 then s2
    else postCtxFault s2 l.man.ctx 6 (b.flt.flt0.toNat / 2 ^ 56) b.flt.flt2 b.who.num
  if cancel then cancelLaunch s3 l.num lsCancel else s3

/-- A context's block leaves: the rescue slice that it ran in is over (R310). -/
def State.leaveRescues (s : State) (k : BKey) : State := { s with rescues := s.rescues.filter fun r => r.target ≠ k }

/-- A block leaves its context: its barriers and partners learn of it, the points of its engine commands stay behind, and the context takes a
staged block (R119, R197, R253, R295, R306). -/
def retireBlock (s : State) (k : BKey) (b : Block) (v : Validity) (cause : Nat) : Out :=
  let logged : Res Unit := match s.launchOf b with
    | some l => if cause = 0 then .ok s () else logTrapEntry s l b
    | none => .ok s ()
  match logged with
  | .wait s => .next s
  | .bad s _ => .next s
  | .ok s _ =>
    let s1 := partArrivals (s.setBlock k { b with parts := [], msgs := [], held := [] }) k (if cause = 0 then causeGangPartner else cause) b.parts
    let s2 := orphanMessages (s1.dropBlock k) k
    let points := b.evq.filter fun e => e.kind = .relPoint
    let s3 := { s2.leaveRescues k with
      late := s2.late ++ if points.isEmpty then [] else [points]
      hvPosts := s2.hvPosts.filter fun p => p.who ≠ some k
      rescued := kvDrop k s2.rescued
      internal := s2.internal ++ [ievRetired] }
    let s4 := match s3.launchOf b with
      | some l => countBlock s3 l b k v cause
      | none => s3
    .next (startStaged s4 k.core)

/-- RETIREMENT: an ended block retires once R119 holds; until then a killed one has ended its partners' messages (R253). -/
def execRetirement (k : BKey) (s : State) : Out :=
  match s.block? k with
  | none => .next s
  | some b =>
    if b.ended.isNone then .next s
    else
      let s1 := settle s k
      match s1.block? k with
      | none => .next s1
      | some b1 => match b1.ended with
        | some (v, cause) =>
          if s1.mayRetire k b1 then retireBlock s1 k b1 v cause
          else .next (if b1.killed then orphanMessages s1 k else s1)
        | none => .next s1

end Sys2Proof.Machine
end

