-- ==== Sys2Proof/Machine/Graph.lean ====
section
/-! DEFINITION. Graphs and their nodes, launch completion records, and what ends a graph or poisons a queue (R301, R304, R307 to
R309, R312, R348). -/

namespace Sys2Proof.Machine

/-! ## Parts of a graph -/

/-- The graph of a number. -/
def State.graph? (s : State) (n : Nat) : Option Graph := s.graphs.find? fun g => g.num = n

/-- The state with a graph's entry rewritten. -/
def State.setGraph (s : State) (g : Graph) : State := { s with graphs := s.graphs.map fun x => if x.num = g.num then g else x }

/-- A node's state. -/
def Graph.node (g : Graph) (i : Nat) : NodeSt := (kvGet i g.nodes).getD NodeSt.zero

/-- The graph with a node's state written. -/
def Graph.setNode (g : Graph) (i : Nat) (x : NodeSt) : Graph := { g with nodes := kvSet id i x g.nodes }

/-- The graph record takes the first nonzero status or cause (R302, R308, and R309 for a COPY node). -/
def Graph.noteCause (g : Graph) (c : Nat) : Graph := if g.fcause = 0 then { g with fcause := c } else g

/-- Word i of a node. -/
def NodeSt.word (x : NodeSt) (i : Nat) : W64 := x.words.getD i 0

/-- Fields of a node (R307). -/
def NodeSt.type_ (x : NodeSt) : Nat := (x.word 0).toNat % 256
def NodeSt.npred (x : NodeSt) : Nat := max 1 ((x.word 0).toNat / 2 ^ 16 % 2 ^ 16)
def NodeSt.next0 (x : NodeSt) : Nat := (x.word 0).toNat / 2 ^ 32 % 2 ^ 16
def NodeSt.next1 (x : NodeSt) : Nat := (x.word 0).toNat / 2 ^ 48
def NodeSt.refA (x : NodeSt) : W64 := x.word 1
def NodeSt.valB (x : NodeSt) : W64 := x.word 2
def NodeSt.valC (x : NodeSt) : W64 := x.word 3

/-- Successor codes (R307). -/
def nextNone : Nat := 0xFFFF
def nextBody : Nat := 0xFFFE

/-- Node types (R307). -/
def ntKernel : Nat := 1
def ntCopy : Nat := 2
def ntCond : Nat := 3
def ntLoop : Nat := 4
def ntWait : Nat := 5
def ntSignal : Nat := 6
def ntEnd : Nat := 7

/-- A node that is malformed as it stands, in a graph of n nodes (R308). -/
def NodeSt.malformed (x : NodeSt) (n : Nat) : Bool :=
  let bad (i : Nat) : Bool := n ≤ i && i ≠ nextNone && i ≠ nextBody
  !(1 ≤ x.type_ && x.type_ ≤ 7) || (x.word 0).toNat / 2 ^ 8 % 256 ≠ 0 || (x.words.drop 4).any (fun w => w ≠ 0)
    || bad x.next0 || bad x.next1 || (x.type_ = ntLoop && n ≤ x.valB.toNat % 2 ^ 16)

/-! ## Ending a graph (R304, R307, R308) -/

/-- Some launch that a graph admitted has not written its record. -/
def State.graphBusy (s : State) (g : Nat) : Bool :=
  s.launches.any fun l => match l.node with | some (h, _) => h = g | none => false

/-- A graph's completion record is written and the graph leaves the table and its queue: the state when the record has been
tried, none while the write waits. -/
def recordGraph (s : State) (g : Graph) (status : Nat) : State :=
  let r : LaunchRec := { num := g.num, fcause := g.fcause, status := status, full := g.kernels, part := 0, none_ := 0, fsum := 0,
                         fblk := none, nflt := 0 }
  match writeLaunchRec s g.man r with
  | .wait s => s
  | .bad s _ => s
  | .ok s _ => { s with graphs := s.graphs.filter fun x => x.num ≠ g.num }.leaveQueue g.man.qid g.num

/-- An ending graph writes its record once every launch it admitted has written its own (R304). -/
def tryGraphRecord (s : State) (n : Nat) : State :=
  match s.graph? n with
  | none => s
  | some g => if g.ending && !s.graphBusy n then recordGraph s g g.status else s

/-- Cancels every launch of a list. -/
def cancelLaunches (status : Nat) : List Nat → State → State
  | [], s => s
  | n :: ns, s => cancelLaunches status ns (cancelLaunch s n status)

/-- Launches that a graph's nodes admitted, of one phase or of all. -/
def State.graphLaunches (s : State) (g : Graph) (phase : Option Nat) : List Nat :=
  (s.launches.filter fun l => match l.node with
    | some (h, i) => h = g.num && (match phase with | some p => (g.node i).phase = p | none => true)
    | none => false).map fun l => l.num

/-- A graph ends at its current nodes with a status: its launches are cancelled, it starts no further node (R304). -/
def endGraph (s : State) (n status : Nat) : State :=
  match s.graph? n with
  | none => s
  | some g =>
    if g.ending then s
    else
      let s1 := s.setGraph { g with ending := true, status := status }
      tryGraphRecord (cancelLaunches lsCancel (s1.graphLaunches g none) s1) n

/-! ## Signals (R307, R308) -/

/-- A completion reaches a node in a phase and a loop body. -/
def Graph.reach (g : Graph) (i phase : Nat) (owner : Option Nat) : Graph :=
  let x := g.node i
  g.setNode i { x with preds := x.preds + 1, phase := phase, owner := owner }

/-- A node signals one successor: a node, the end of the loop body it runs in, or none (R307). -/
def signalOne (s : State) (n i next : Nat) : State :=
  match s.graph? n with
  | none => s
  | some g =>
    let x := g.node i
    if g.ending || next = nextNone then s
    else if next = nextBody then
      match x.owner with
      | none => endGraph s n lsBadMft
      | some l =>
        if (g.node l).running then s.setGraph (g.setNode l { g.node l with atEnd := true }) else endGraph s n lsBadMft
    else s.setGraph (g.reach next x.phase x.owner)

/-- A node completes and signals successors (R308). -/
def completeNode (s : State) (n i : Nat) (nexts : List Nat) : State :=
  match s.graph? n with
  | none => s
  | some g =>
    let s1 := s.setGraph (g.setNode i { g.node i with running := false, launch := none, hold := none, spilled := false })
    nexts.foldl (fun s x => signalOne s n i x) s1

/-- Node i belongs to the body of a loop: by the chain of loops it runs in. -/
def Graph.inBody (g : Graph) (loop : Nat) : Nat → Nat → Bool
  | 0, _ => false
  | fuel + 1, i => match (g.node i).owner with
    | none => false
    | some l => l = loop || Graph.inBody g loop fuel l

/-- Every body node's NPRED count is reset (R308). -/
def Graph.resetBody (g : Graph) (loop : Nat) : Graph :=
  { g with nodes := g.nodes.map fun p => if g.inBody loop g.nodes.length p.1 then (p.1, { p.2 with preds := 0 }) else p }

/-! ## Launch completion records (R301) -/

/-- No block of a launch is resident, staged or saved. -/
def State.launchIdle (s : State) (n : Nat) : Bool :=
  !(s.blocks.any fun p => p.2.launch = n) && !(s.saved.any fun x => x.launch = n)
    && !(s.cores.any fun p => match p.2.staged with | some (m, _, _) => m = n | none => false)

/-- A launch may write its record: every block has retired or will never start, and its queue is not frozen (R301, R312). -/
def State.mayRecord (s : State) (l : Launch) : Bool :=
  s.launchIdle l.num && l.reruns.isEmpty && !s.launchFrozen l && (l.status ≠ 0 || l.valid.length = l.man.gridSize)

/-- The code of a validity in the map (R301). -/
def Validity.mapCode : Validity → Nat
  | .none => 0
  | .part _ => 1
  | .full => 2

/-- Byte j of a validity map. -/
def mapByte (valid : List (Nat × Validity)) (j : Nat) : Byte :=
  BitVec.ofNat 8 ((List.range 4).foldl (fun n i => n + 4 ^ i * match kvGet (4 * j + i) valid with
    | some v => v.mapCode
    | none => 0) 0)

/-- Writes bytes piece by piece; the first failure is posted once (R302). -/
def writePieces (s : State) (ctx ident : Nat) (image : W64) (failed : Bool) : Nat → Nat → List Byte → Res Unit
  | 0, _, _ => .ok s ()
  | fuel + 1, off, bytes =>
    if bytes.isEmpty then .ok s ()
    else
      let n := 128 - (refOff image + off) % 128
      let r : Res Nat := if failed then
          (match writeRef s (dispEnv ctx) image off (bytes.take n) false Need.store with
            | .wait s => .wait s
            | .ok s _ => .ok s 0
            | .bad s f => .ok s f.cause)
        else launchWrite s ctx ident image off (bytes.take n)
      r.andThen fun s c => writePieces s ctx ident image (failed || c ≠ 0) fuel (off + n) (bytes.drop n)

/-- The counts of a launch as its record gives them (R301): blocks that never started are counted NONE. -/
def Launch.record (l : Launch) : LaunchRec :=
  let vs := l.valid.map fun p => p.2
  let full := (vs.filter fun v => v = .full).length
  let part := (vs.filter fun v => v.mapCode = 1).length
  { num := l.num
    fcause := l.fcause
    status := l.status
    full := full
    part := part
    none_ := l.man.gridSize - full - part
    fsum := vs.foldl (fun n v => n + match v with | .part f => f.toNat | _ => 0) 0
    fblk := l.fblk
    nflt := l.nflt }

/-- Slack at launch completion for the monitors (R327 source 4): negative counts as 0. -/
def State.endSlack (s : State) (m : Manifest) : Nat := if m.deadline = noDeadline then 2 ^ 63 - 1 else m.deadline - s.dtime

/-- A launch whose record has been tried leaves the table and its queue, and its node completes (R297, R302, R308). -/
def finishLaunch (s : State) (l : Launch) (cause : Nat) : State :=
  let slack := s.endSlack l.man
  let s1 := monitorSample (monitorSample s 0 4 slack) 1 4 slack
  let s2 := { s1 with
    launches := s1.launches.filter fun x => x.num ≠ l.num
    barOwner := s1.barOwner.filter fun p => p.2 ≠ l.num }
  match l.node with
  | none => s2.leaveQueue l.man.qid l.num
  | some (n, i) =>
    let s3 := match s2.graph? n with
      | some g => s2.setGraph ((g.noteCause l.status).noteCause cause)
      | none => s2
    let next : List Nat := match s3.graph? n with
      | some g => [(g.node i).next0, (g.node i).next1]
      | none => []
    tryGraphRecord (completeNode s3 n i next) n

/-- The validity map and the record of a launch, when it may write them (R301). -/
def recordLaunch (s : State) (n : Nat) : State :=
  match s.launch? n with
  | none => s
  | some l =>
    if !s.mayRecord l then s
    else
      let bytes := if l.man.vmap = 0 || l.mapped then [] else (List.range ((2 * l.man.gridSize + 7) / 8)).map (mapByte l.valid)
      match writePieces s l.man.ctx n l.man.vmap false (bytes.length + 1) 0 bytes with
      | .wait s => s
      | .bad s _ => s
      | .ok s1 _ =>
        let l1 : Launch := { l with mapped := true }
        match writeLaunchRec (s1.setLaunch l1) l.man l1.record with
        | .wait s => s
        | .bad s _ => s
        | .ok s2 c => finishLaunch s2 l1 c

/-- LAUNCH_COMPLETION_RECORD (R301). -/
def execLaunchCompletionRecord (n : Nat) (s : State) : Out := .next (recordLaunch s n)

/-! ## Running nodes (R307 to R309) -/

/-- A fault of a node's access: posted with SRC 7 and the graph number; the graph is cancelled and its record takes the cause,
whatever it held before (R309). -/
def nodeFault (s : State) (g : Graph) (f : FaultInfo) : State :=
  let s1 := postCtxFault s g.man.ctx 7 f.cause f.where_ g.num
  match s1.graph? g.num with
  | some g1 => endGraph (s1.setGraph { g1 with fcause := f.cause }) g.num lsCancel
  | none => s1

/-- A node whose access waits for the hypervisor begins a fault-hold (R309). -/
def holdNode (s : State) (n i : Nat) : State :=
  match s.graph? n with
  | none => s
  | some g =>
    let x := g.node i
    s.setGraph (g.setNode i { x with hold := match x.hold with | some t => some t | none => some (s.dtime + s.mgc.params.getD 3 0) })

/-- A node's access has been served: the hold ends, and a spilled queue is reloaded (R309). -/
def releaseNode (s : State) (n i : Nat) : State :=
  match s.graph? n with
  | none => s
  | some g => (s.setGraph (g.setNode i { g.node i with hold := none, spilled := false })).reloadQueue

/-- Runs a node's access: it goes on, holds, or ends the graph. -/
def nodeAccess (r : Res α) (g : Graph) (i : Nat) (f : State → α → Out) : Out :=
  match r with
  | .ok s a => f (releaseNode s g.num i) a
  | .wait s => .next (holdNode s g.num i)
  | .bad s e => .next (nodeFault s g e)

/-- The eight words of a node, read from the node array. -/
def readNode (s : State) (g : Graph) (i : Nat) : Res (List W64) :=
  (readRef s (dispEnv g.man.ctx) g.man.coderef (64 * i) 64 false Need.load).andThen fun s bs =>
    .ok s ((List.range 8).map fun j => BitVec.ofNat 64 (fieldAt bs (8 * j) 8))

/-- A turn of node i of graph n for the event of one type. A node that completions have reached is read and checked, and runs
once NPRED of them have reached it; node 0 starts the graph. A running node goes on. -/
def atNode (type_ n i : Nat) (s : State) (f : State → Graph → NodeSt → Out) : Out :=
  match s.graph? n with
  | none => .next s
  | some g =>
    let x := g.node i
    let first : Bool := i = 0 && !g.started
    if g.ending || !g.ready || s.frozenQueue n then .next s
    else if x.running then (if x.type_ = type_ then f s g x else .next s)
    else if !first && x.preds = 0 then .next s
    else nodeAccess (readNode s g i) g i fun s ws =>
      let y : NodeSt := { x with words := ws }
      if !first && x.preds < y.npred then .next s
      else if y.malformed g.man.kidx then .next (endGraph s n lsBadMft)
      else if y.type_ ≠ type_ then .next s
      else
        let y1 : NodeSt := { y with
          preds := if first then x.preds else x.preds - y.npred
          running := true
          phase := if i = 0 || 1 < y.npred then i else x.phase
          runs := 0
          atEnd := false
          launch := none
          hold := none
          spilled := false }
        let g1 := { g with started := true }.setNode i y1
        f (s.setGraph g1) g1 y1

/-- KERNEL_NODE: admits the node's manifest; a refused or unreadable one completes the node (R308). -/
def execKernelNode (g n : Nat) (s : State) : Out :=
  atNode ntKernel g n s fun s gr x =>
    if x.launch.isSome then .next s
    else
      let refused (s : State) (st : Nat) : Out :=
        match s.graph? g with
        | some gr => .next (completeNode (s.setGraph (gr.noteCause st)) g n [x.next0, x.next1])
        | none => .next s
      match readRef s (dispEnv gr.man.ctx) x.refA 0 128 false Need.load with
      | .wait s => .next (holdNode s g n)
      | .bad s _ => refused s lsBadMft
      | .ok s bs =>
        let m := parseManifest bs
        if (s.ctx m.ctx).handles = 0 then refused s lsBadMft
        else match admitLaunch s bs m (some (g, n)) with
          | .wait s => .next (holdNode s g n)
          | .bad s _ => refused s lsBadMft
          | .ok s (.error st) => match refusedRecord s m st with
            | .wait s => .next (holdNode s g n)
            | .bad s _ => refused s st
            | .ok s _ => refused s st
          | .ok s (.ok l) =>
            if s.tableFull then .next s
            else
              let (s1, num) := (releaseNode s g n).addLaunch l
              match s1.graph? g with
              | none => .next s1
              | some gr => .next (s1.setGraph ({ gr with kernels := gr.kernels + 1 }.setNode n { gr.node n with launch := some num }))

/-- Length from which a copy faults BOUND (R187). -/
def copyLimit : Nat := 2 ^ 40

/-- The fault of a COPY node as a whole: a length that R187 refuses, or a COREPIN handle. -/
def copyRefused (s : State) (e : Env) (x : NodeSt) : Res (Option FaultInfo) :=
  let pinned (image : W64) (need : Need) (s : State) : Res (Option FaultInfo) :=
    match checkHandle s e image need with
    | .wait s => .wait s
    | .bad s _ => .ok s none
    | .ok s h => .ok s (if h.home = 2 then some (FaultInfo.atRef causeRights image) else none)
  (pinned x.valB Need.store s).andThen fun s f => match f with
    | some f => .ok s (some f)
    | none => (pinned x.refA Need.load s).andThen fun s f => match f with
      | some f => .ok s (some f)
      | none => .ok s (if copyLimit ≤ x.valC.toNat then some (FaultInfo.atRef causeBound x.valB) else none)

/-- COPY_NODE: places a copy on the link engine of die 0 (log 25), and completes when the last byte is copied; an access of the
copy that waits for the hypervisor is a fault-hold of the node (R308, R309). -/
def execCopyNode (g n : Nat) (s : State) : Out :=
  atNode ntCopy g n s fun s gr x =>
    let q := s.die 0
    match q.link.find? fun c => c.node = some (g, n) with
    | some c =>
      if !c.copied then .next (if c.held then holdNode s g n else releaseNode s g n)
      else
        let s1 := (releaseNode s g n).dropLink 0 c
        match s1.graph? g with
        | none => .next s1
        | some gr => .next (completeNode (s1.setGraph (gr.noteCause c.cause)) g n [x.next0, x.next1])
    | none =>
      match copyRefused s (dispEnv gr.man.ctx) x with
      | .wait s => .next (holdNode s g n)
      | .bad s _ => .next s
      | .ok s (some f) =>
        let s1 := postCtxFault s gr.man.ctx 7 f.cause f.where_ g
        match s1.graph? g with
        | none => .next s1
        | some gr => .next (completeNode (s1.setGraph (gr.noteCause f.cause)) g n [x.next0, x.next1])
      | .ok s none =>
        let q := s.die 0
        if linkQueueSize ≤ q.link.length then .next s
        else
          let c : LinkCmd :=
            { id := s.evSeq
              ctx := gr.man.ctx
              core := 0
              dst := x.valB
              src := x.refA
              flag := none
              n := x.valC.toNat
              who := { launch := 0, blklin := 0 }
              acq := none
              rel := none
              node := some (g, n)
              next := 0
              buffer := []
              copied := false
              failed := false
              held := false
              cause := 0 }
          .next ({ releaseNode s g n with evSeq := s.evSeq + 1 }.setDie 0 { q with link := q.link ++ [c] })

/-- A predicate read: a strong 8-byte load (R307). -/
def readPredicate (s : State) (g : Graph) (image : W64) : Res W64 := strongRead s (dispEnv g.man.ctx) image

/-- COND_NODE (R308). -/
def execCondNode (g n : Nat) (s : State) : Out :=
  atNode ntCond g n s fun s gr x =>
    nodeAccess (readPredicate s gr x.refA) gr n fun s p => .next (completeNode s g n [if p ≠ 0 then x.next0 else x.next1])

/-- A loop starts a run of its body (R308). -/
def startBody (s : State) (g n runs : Nat) : State :=
  match s.graph? g with
  | none => s
  | some gr =>
    let x := gr.node n
    let g1 := gr.setNode n { x with runs := runs, atEnd := false }
    s.setGraph (g1.reach (x.valB.toNat % 2 ^ 16) x.phase (some n))

/-- LOOP_NODE: the first run of the body; at each end of the body, the predicate decides whether it runs again (R308). -/
def execLoopNode (g n : Nat) (s : State) : Out :=
  atNode ntLoop g n s fun s gr x =>
    if x.runs = 0 then .next (startBody s g n 1)
    else if !x.atEnd then .next s
    else nodeAccess (readPredicate s gr x.refA) gr n fun s p =>
      if p ≠ 0 && (x.valC = 0 || x.runs < x.valC.toNat) then
        let s1 := match s.graph? g with | some gr => s.setGraph (gr.resetBody n) | none => s
        .next (startBody s1 g n (x.runs + 1))
      else .next (completeNode s g n [x.next0])

/-- WAIT_NODE: one strong read of the word; the node completes when it is at least B, unsigned (R308). -/
def execWaitNode (g n : Nat) (s : State) : Out :=
  atNode ntWait g n s fun s gr x =>
    nodeAccess (readPredicate s gr x.refA) gr n fun s v =>
      if x.valB.toNat ≤ v.toNat then .next (completeNode s g n [x.next0, x.next1]) else .next s

/-- SIGNAL_NODE: an ATOM.D add (R236, R308). -/
def execSignalNode (g n : Nat) (s : State) : Out :=
  atNode ntSignal g n s fun s gr x =>
    nodeAccess (strongAdd s (dispEnv gr.man.ctx) Need.atomic x.refA x.valB.toNat) gr n fun s _ =>
      .next (completeNode s g n [x.next0, x.next1])

/-- END_NODE: writes the graph's completion record with STATUS DONE (R308); of an ending graph, the record it still owes
(R304). -/
def execEndNode (g n : Nat) (s : State) : Out :=
  match s.graph? g with
  | none => .next s
  | some gr =>
    if gr.ending then .next (tryGraphRecord s g)
    else atNode ntEnd g n s fun s gr _ => .next (recordGraph s gr 0)

/-- GRAPH_DEADLINE: DTIME has reached the deadline of a graph (R304, R307). -/
def execGraphDeadline (g : Nat) (s : State) : Out :=
  match s.graph? g with
  | none => .next s
  | some gr =>
    if !s.expired gr.man || gr.ending then .next s
    else .next (endGraph { s with internal := s.internal ++ [ievTimer] } g lsExpired)

/-- FAULT_HOLD_EXPIRY: the fault-hold window of a node has passed unserved: its queue spills (R309). -/
def execFaultHoldExpiry (g n : Nat) (s : State) : Out :=
  match s.graph? g with
  | none => .next s
  | some gr => match (gr.node n).hold with
    | none => .next s
    | some t =>
      if s.dtime < t then .next s
      else
        let s1 := s.setGraph (gr.setNode n { gr.node n with spilled := true })
        .next { s1 with queues := s1.queues.map fun q =>
          if q.launches.contains g && q.slot.isSome then { q with slot := none, spilledFrom := q.slot } else q }

/-! ## Cancels by level (R304) -/

/-- A graph of a context's job, or of all. -/
def endGraphs (status : Nat) : List Nat → State → State
  | [], s => s
  | n :: ns, s => endGraphs status ns (endGraph s n status)

/-- The level and number of a CANCEL name something that a cancel changes, and the state after it; none when nothing is found
(R304, R316). -/
def cancelLevel (s : State) (ctx level : Nat) (num : W64) : Option State :=
  let live (l : Launch) : Bool := !l.over
  match level with
  | 1 => if s.launches.any fun l => l.num = num.toNat && live l then some (cancelLaunch s num.toNat lsCancel) else none
  | 2 =>
    let g := num.toNat % 2 ^ 32
    let node := num.toNat / 2 ^ 32 % 2 ^ 16
    match s.graph? g with
    | none => none
    | some gr => match (s.graphLaunches gr (some node)).filter fun n => s.launches.any fun l => l.num = n && live l with
      | [] => none
      | ns => some (cancelLaunches lsCancel ns s)
  | 3 => if s.graphs.any fun g => g.num = num.toNat && !g.ending then some (endGraph s num.toNat lsCancel) else none
  | 4 =>
    let job := num.toNat % 2 ^ 16
    let ls := (s.launches.filter fun l => l.man.job = job && l.man.ctx = ctx && live l).map fun l => l.num
    let gs := (s.graphs.filter fun g => g.man.job = job && g.man.ctx = ctx && !g.ending).map fun g => g.num
    if ls.isEmpty && gs.isEmpty then none else some (endGraphs lsCancel gs (cancelLaunches lsCancel ls s))
  | _ => none

/-! ## Errors of the Dispatcher's own stores (R312) -/

/-- RELAY_ECC_HALT: an uncorrectable error in the instruction memory of relay core r: the core halts and its queues freeze. -/
def execRelayEccHalt (r : Nat) (s : State) : Out :=
  if 8 ≤ r then .next s
  else
    let i : Fin 8 := Fin.ofNat 8 r
    let s1 := noteError s r
    .next { s1 with
      relays := s1.relays.set i { s1.relays[i] with halted := true }
      queues := s1.queues.map fun q => if q.owner = r then { q with frozen := true } else q }

/-- The relay core that adopts a queue of core r: another one (log 25). -/
def adopter (r count : Nat) : Nat := (r + 1 + Config.queueOwner count % 7) % 8

/-- RELAY_CORE_RELOAD: the MGC has reloaded the image of relay core r; the other cores adopt its queues, and the launch records
held back are written. -/
def execRelayCoreReload (r : Nat) (s : State) : Out :=
  if 8 ≤ r then .next s
  else
    let i : Fin 8 := Fin.ofNat 8 r
    if !s.relays[i].halted then .next s
    else
      let held := (s.launches.filter s.launchFrozen).map fun l => l.num
      let s1 := logMgc s logReload r
      let core : Relay := { Relay.zero with imem := s1.relays[i].imem }
      let s2 := { s1.bumpFree with
        relays := s1.relays.set i core
        queues := s1.queues.map fun q =>
          if q.owner = r && q.frozen then { q with frozen := false, owner := adopter r s1.freeCount } else q }
      .next (held.foldl recordLaunch s2)

/-- QUEUE_POISON: an uncorrectable error in the table of queue q: its launches are cancelled with STATUS ECC. -/
def execQueuePoison (q : Nat) (s : State) : Out :=
  match s.queues.find? fun x => x.qid = q with
  | none => .next s
  | some x =>
    let s1 := { noteError s q with
      queues := s.queues.map fun y => if y.qid = q then { y with poisoned := true } else y }
    .next (endGraphs lsEcc x.launches (cancelLaunches lsEcc x.launches s1))

end Sys2Proof.Machine
end

