-- ==== Sys2Proof/Machine/Elementwise.lean ====
section
/-! DEFINITION. What the element-wise tile instructions share: active elements, draws in row-major order, flags and poison per
element, and the write of the destination window (R67, R69, R94, R97, R206, R207). -/

namespace Sys2Proof.Machine

/-- A source of an instruction: which destination elements its poison reaches, and its origin record. -/
abbrev Src := (Nat → Nat → Bool) × Option Origin

/-- A tile read element by element as a source. -/
def Tile.src (t : Tile) : Src := (fun i j => t.poisoned i j, t.origin)

/-- A scalar as a source of every element. -/
def Block.srcOf (b : Block) (r : SReg) : Src := (fun _ _ => b.ps r, b.origin)

/-- The record of the first poisoned source in operand order, over the elements written (R97). -/
def firstOrigin (cells : List (Nat × Nat)) : List Src → Option Origin
  | [] => none
  | x :: xs => if cells.any fun c => x.1 c.1 c.2 then x.2 else firstOrigin cells xs

/-- The elements of a window in row-major order: each draws under `.rsr` (R67); an active one is computed and written, and
raises its flags unless its result is poisoned by an input, the controlling mask among them (R69, R207). Answers the elements, the flags
and SEED. -/
def runWindow (cells : List (Nat × Nat)) (active : Nat → Nat → Bool) (mode : Rnd) (seed : W64) (srcs : List Src) (badMask : Bool)
    (f : Nat → Nat → Nat → Nat × W64) : Written × W64 × W64 :=
  let one (acc : Written × W64 × W64) (c : Nat × Nat) : Written × W64 × W64 :=
    let (draw, seed1) := drawFor mode acc.2.2
    if active c.1 c.2 then
      let r := f draw c.1 c.2
      let p := srcs.any fun x => x.1 c.1 c.2
      ((c, r.1, p) :: acc.1, if p || badMask then acc.2.1 else acc.2.1 ||| r.2, seed1)
    else (acc.1, acc.2.1, seed1)
  let r := cells.foldl one ([], 0, seed)
  (r.1.reverse, r.2.1, r.2.2)

/-- Writes a computed window to its tile: elements, poison, flags, SEED (R94, R207). `srcs` gives the origin; `masked` says that the mask
chooses the elements written, not those read. -/
def writeWindow (s : State) (k : BKey) (b : Block) (td : TReg) (d : Tile) (mask : Option MReg) (masked : Bool) (srcs : List Src)
    (r : Written × W64 × W64) : State :=
  let o := firstOrigin (r.1.map fun w => w.1) srcs
  let b1 : Block := { b.commitTile td (d.writeAll masked r.1 o (b.maskPoison mask)) with seed := r.2.2 }
  s.setBlock k ((b1.raiseFlags r.2.1).issued td)

/-- An element-wise instruction with destination td, whose windows and formats have been checked. -/
def elementwise (s : State) (k : BKey) (b : Block) (td : TReg) (d : Tile) (mask : Option MReg) (mode : Rnd) (srcs : List Src)
    (f : Nat → Nat → Nat → Nat × W64) : Out :=
  .next (writeWindow s k b td d mask mask.isSome srcs (runWindow d.coords (b.active mask d.wcols) mode b.seed srcs (b.maskPoison mask).isSome f))

/-- The first failing check of a list, as the trap of its tile (R98). -/
def firstFault : List (Bool × Nat × TReg) → Option FaultInfo
  | [] => none
  | (bad, cause, t) :: cs => if bad then some (FaultInfo.atTile cause t 0 0) else firstFault cs

/-- Two windows have equal rows and columns. -/
def Tile.sameWindow (t u : Tile) : Bool := t.wrows = u.wrows && t.wcols = u.wcols

end Sys2Proof.Machine
end

