-- ==== Sys2Proof/Machine/Matrix.lean ====
section
/-! DEFINITION. The matrix instructions: products, the ganged product, the accumulator instructions, the matrix slot table and the
ramp limiter (R188 to R204, R70 to R72). -/

namespace Sys2Proof.Machine

/-! ## Operands (R190, R194) -/

/-- Dense floating-point operand formats (R194). -/
def Efmt.denseFloat (f : Efmt) : Bool :=
  match f with | .fp16 | .bf16 | .e4m3 | .e5m2 | .e2m3 | .e3m2 | .e2m1 => true | _ => false

/-- Dense integer operand formats (R194). -/
def Efmt.denseInt (f : Efmt) : Bool := match f with | .i4 | .i8 | .ui8 => true | _ => false

/-- The tile of an operand: the block's own, or that of the partner on a core (R190). -/
def operandTile (s : State) (k : BKey) (b : Block) (o : TSrc) : Except FaultInfo Tile :=
  match o.core with
  | none => s.source k b o.t
  | some c =>
    if c.val = coreInCluster k.core then s.source k b o.t
    else match partnerCheck s k b c.val with
      | .error f => .error { f with tile := some (o.t, 0, 0) }
      | .ok p => (p.useTile o.t).map fun x => x.readArmed (s.core (partnerKey k c.val).core).armed b.pc

/-- The armed errors met in an operand's store have fired. -/
def firedOperand (s : State) (k : BKey) (o : TSrc) (x : Tile) : State :=
  match o.core with
  | none => s.fired k [x]
  | some c => s.fired (partnerKey k c.val) [x]

/-- The reader's own tiles are bound: checked before its remote operands, and in the order destination, sources, scale tiles
(R98, R166, R190). -/
def ownBound (b : Block) (k : BKey) (ts : List TReg) (os : List TSrc) (scales : List TReg) : Option FaultInfo :=
  let mine (o : TSrc) : Bool := match o.core with | none => true | some c => c.val = coreInCluster k.core
  let own := ts ++ (os.filter mine).map (fun o => o.t) ++ scales
  (own.find? fun t => (b.gt t).isNone).map fun t => FaultInfo.atTile causeUnbound t 0 0

/-- The kinds of product. -/
inductive Product where
  | dense | scaled | block
  deriving DecidableEq, Repr

/-- The pair of operand formats is accepted (R194): the tile number that fails, none when it is. -/
def formatFault (p : Product) (ta tb : TReg) (a b : Efmt) : Option FaultInfo :=
  let ok (x : Efmt) : Bool := match p with
    | .dense => Efmt.denseFloat x || Efmt.denseInt x
    | .scaled => Efmt.denseFloat x
    | .block => x.block ≠ 0
  firstFault [(!ok a, causeFormat, ta), (!ok b, causeFormat, tb), (Efmt.denseInt a ≠ Efmt.denseInt b, causeFormat, tb)]

/-- The checks of R193 on a product's tiles, in their order. -/
def productFault (p : Product) (td : TReg) (ta tb : TReg) (d a b : Tile) : Option FaultInfo :=
  match firstFault [(d.home ≠ .a, causeFormat, td), (a.home ≠ .s, causeFormat, ta), (b.home ≠ .s, causeFormat, tb)] with
  | some f => some f
  | none => match formatFault p ta tb a.fmt b.fmt with
    | some f => some f
    | none => firstFault [(a.wrows ≠ d.wrows, causeShape, ta), (b.wcols ≠ d.wcols, causeShape, tb), (a.wcols ≠ b.wrows, causeShape, tb)]

/-- R193 check 4: the scale tiles of TMMAS. -/
def scaleFault (tsa tsb : TReg) (d a sa sb : Tile) : Option FaultInfo :=
  let seg := (a.wcols + 127) / 128
  firstFault [(sa.fmt ≠ .fp32 || sa.home ≠ .s, causeFormat, tsa), (sb.fmt ≠ .fp32 || sb.home ≠ .s, causeFormat, tsb),
    (sa.wrows ≠ d.wrows || sa.wcols ≠ seg, causeShape, tsa), (sb.wrows ≠ seg || sb.wcols ≠ (d.wcols + 127) / 128, causeShape, tsb)]

/-- R193 check 5: the block axes of TMMAX lie along K. -/
def axisFault (ta tb : TReg) (a b : Tile) : Option FaultInfo :=
  firstFault [(a.lay = .col, causeFormat, ta), (b.lay ≠ .col, causeFormat, tb)]

/-! ## The product (R70, R71, R195) -/

/-- A KS4 tile scale that is no finite number makes every value of its tile NaN (R62). -/
def Tile.badScale (t : Tile) : Bool :=
  t.fmt = .ks4 && match Efmt.fp32.decode t.tscale.toNat with | .fin .. => false | _ => true

/-- An operand's value in a product: with its block scale, without its finite tile scale (R70). -/
def Tile.operand (t : Tile) (i j : Nat) : Fv := if t.badScale then (.nan, flSCL) else t.value false i j

/-- An exact product; a zero product of integers has no sign (log 11: an MXI8 element counts as a number with a sign, whose zero is +0). -/
def prodOf (int : Bool) (x y : Fv) : Fv :=
  let m := x.1.mul y.1
  let v : Val := match m.1 with | .fin _ 0 e => if int then .fin false 0 e else m.1 | v => v
  (v, x.2 ||| y.2 ||| m.2)

/-- The factor that a finite KS4 tile scale contributes to promo (R70). -/
def Tile.promo (t : Tile) : Val := if t.fmt = .ks4 && !t.badScale then Efmt.fp32.decode t.tscale.toNat else .fin false 1 0

/-- promo(i, g, j) (R70). -/
def promoOf (a b : Tile) (scales : Option (Tile × Tile)) (i g j : Nat) : Fv :=
  match scales with
  | some (sa, sb) =>
    (Efmt.fp32.decode (sa.get i (32 * g / 128))).mul (Efmt.fp32.decode (sb.get (32 * g / 128) (j / 128)))
  | none => a.promo.mul b.promo

/-- The group loop of R70 for one element. -/
def productElem (a b : Tile) (scales : Option (Tile × Tile)) (acc i j : Nat) : Nat × W64 :=
  let kk := a.wcols
  let int := Efmt.denseInt a.fmt
  let step (r : Nat × W64) (g : Nat) : Nat × W64 :=
    let ps := (List.range (min 32 (kk - 32 * g))).map fun n => prodOf int (a.operand i (32 * g + n)) (b.operand (32 * g + n) j)
    let x := accumulate r.1 (groupSum ps) (promoOf a b scales i g j)
    (x.1, r.2 ||| x.2)
  (List.range ((kk + 31) / 32)).foldl step (acc, 0)

/-- The poison sources of a product, in operand order (R195). -/
def productSrcs (d a b : Tile) (scales : Option (Tile × Tile)) : List Src :=
  let ks := List.range a.wcols
  let row (t : Tile) : Nat → Nat → Bool := fun i _ => !t.poison.isEmpty && ks.any fun n => t.poisoned i n
  let col (t : Tile) : Nat → Nat → Bool := fun _ j => !t.poison.isEmpty && ks.any fun n => t.poisoned n j
  let sc : List Src := match scales with
    | none => []
    | some (sa, sb) =>
      [(fun i _ => (List.range sa.wcols).any fun g => sa.poisoned i g, sa.origin),
       (fun _ j => (List.range sb.wrows).any fun g => sb.poisoned g (j / 128), sb.origin)]
  [d.src, (row a, a.origin), (col b, b.origin)] ++ sc

/-- The accumulator window after a product, with the flags it raised (R195). -/
def productResult (d a b : Tile) (scales : Option (Tile × Tile)) : Tile × W64 :=
  let srcs := productSrcs d a b scales
  let r := runWindow d.coords (fun _ _ => true) .rne 0 srcs false fun _ i j => productElem a b scales (d.get i j) i j
  (d.writeAll false r.1 (firstOrigin d.coords srcs) none, r.2.1)

/-- A product of the block that moves: the checks of R166, R190 and R193, then its effect. -/
def product (p : Product) (td : TReg) (oa ob : TSrc) (sc : Option (TReg × TReg)) (s : State) : Out :=
  onBlock s fun k b =>
    match ownBound b k [td] [oa, ob] (match sc with | some (x, y) => [x, y] | none => []) with
    | some f => trapOut s k b f
    | none =>
      withTile s k b (s.accumulator k b td) fun d =>
        withTile s k b (operandTile s k b oa) fun a =>
          withTile s k b (operandTile s k b ob) fun bt =>
            match productFault p td oa.t ob.t d a bt with
            | some f => trapOut s k b f
            | none =>
              let fin (scales : Option (Tile × Tile)) : Out :=
                let (x, fl) := productResult d a bt scales
                let own := d :: match scales with | some (sa, sb) => [sa, sb] | none => []
                .next ((firedOperand (firedOperand (s.fired k own) k oa a) k ob bt).setBlock k (((b.commitTile td x).raiseFlags fl).issued td))
              match sc with
              | some (tsa, tsb) =>
                withTile s k b (s.source k b tsa) fun sa =>
                  withTile s k b (s.source k b tsb) fun sb =>
                    (match scaleFault tsa tsb d a sa sb with
                      | some f => trapOut s k b f
                      | none => fin (some (sa, sb)))
              | none =>
                (match if p = .block then axisFault oa.t ob.t a bt else none with
                  | some f => trapOut s k b f
                  | none => fin none)

/-- TMMA (R195). -/
def execTmma (td : TReg) (a b : TSrc) (s : State) : Out := product .dense td a b none s

/-- TMMAS (R195). -/
def execTmmas (td : TReg) (a b : TSrc) (tsa tsb : TReg) (s : State) : Out := product .scaled td a b (some (tsa, tsb)) s

/-- TMMAX (R195). -/
def execTmmax (td : TReg) (a b : TSrc) (s : State) : Out := product .block td a b none s

/-! ## The ganged product (R196 to R198) -/

/-- The tiles of a part and its checks (R166, R190, R193). `snap` is the shared operand as the lead's slot held it. -/
def partTiles (s : State) (k : BKey) (b : Block) (td ta : TReg) (ob : TSrc) (snap : Option Tile) :
    Except FaultInfo (Tile × Tile × Tile) :=
  match ownBound b k [td, ta] (if snap.isSome then [] else [ob]) [] with
  | some f => .error f
  | none =>
    let ox : Except FaultInfo Tile := match snap with | some x => .ok x | none => operandTile s k b ob
    match s.accumulator k b td, s.source k b ta, ox with
    | .error f, _, _ => .error f
    | _, .error f, _ => .error f
    | _, _, .error f => .error f
    | .ok d, .ok a, .ok x =>
      let p : Product := if a.fmt.block = 0 then Product.dense else Product.block
      match productFault p td ta ob.t d a x with
      | some f => .error f
      | none => match (if p = Product.block then axisFault ta ob.t a x else none) with
        | some f => .error f
        | none => .ok (d, a, x)

/-- The core whose store holds an operand (R190). -/
def operandCore (k : BKey) (o : TSrc) : Nat := match o.core with | none => k.core | some c => (partnerKey k c.val).core

/-- The first window element, in row-major order, of the tile whose read met a store error, by the lines of each that did (R189, R197). -/
def armedElem (ts : List (TReg × Tile × List Nat)) : Option (TReg × Nat × Nat) :=
  ts.findSome? fun p =>
    match p.2.2 with
    | [] => none
    | ls => (p.2.1.coords.find? fun c => (p.2.1.lines c.1 c.2).any fun l => ls.contains l).map fun c => (p.1, c.1, c.2)

/-- Runs a part on block k with its checked tiles: the product, its flags, then its arrival, faulted with cause ECC when a read
met an uncorrectable error; the block is then killed with GANG_PARTNER (R196, R197, R345). `shared` gives the lines of a shared operand
that the lead's read found bad. -/
def runPart (s : State) (k : BKey) (b : Block) (td ta : TReg) (ob : TSrc) (bar : BReg) (tiles : Tile × Tile × Tile)
    (shared : Option (List Nat)) (pc : W32) : State :=
  let (d, a, x) := tiles
  let (y, fl) := productResult d a x none
  let own := (s.core k.core).armed
  let bad := armedElem [(ta, a, a.armedWindow own),
    (ob.t, x, match shared with | some ls => ls | none => x.armedWindow (s.core (operandCore k ob)).armed), (td, d, d.armedWindow own)]
  let s1 := s.fired k [d, a]
  let s1 := if shared.isSome then s1 else firedOperand s1 k ob x
  let s2 := barArrive (s1.setBlock k ((b.commitTile td y).raiseFlags fl)) k bar (bad.map fun _ => (coreInCluster k.core, causeEcc))
  match bad, s2.block? k with
  | some e, some b2 => killBlock s2 k b2 { FaultInfo.plain causeGangPartner with tile := some e } pc
  | _, _ => s2

/-- Members of a gang, ascending (R128). -/
def Block.members (b : Block) : List Nat := (List.range 8).filter fun c => b.gang.getLsbD c

/-- The gang of a GMMA is complete: the lead's core is in it, and every member lies in the partition and holds a partner. -/
def gangOk (s : State) (k : BKey) (b : Block) : Bool :=
  b.members.contains (coreInCluster k.core) && b.members.all fun c =>
    match partnerCheck s k b c with | .ok _ => true | .error _ => false

/-- The parts of the GMMA named id of the lead in context k go to the other members of its gang; a shared operand has still to be read, in the
slot and window that it has now (R196). -/
def giveParts (s : State) (k : BKey) (x : Block) (id : Nat) (td ta : TReg) (b : TSrc) (bar : BReg) : State :=
  let lead := coreInCluster k.core
  let shared : Option Tile := if b.core.any fun c => c.val = lead then x.gt b.t else none
  let part : GPart :=
    { id := id
      td := td
      ta := ta
      b := b
      bar := bar
      lead := lead
      snap := shared
      badLines := []
      ready := shared.isNone
      pc := x.pc }
  let give (s : State) (c : Nat) : State :=
    if c = lead then s
    else match s.block? (partnerKey k c) with
      | some p => s.setBlock (partnerKey k c) { p with parts := p.parts ++ [part] }
      | none => s
  x.members.foldl give s

/-- A part of the GMMA named id is still to be run by some member. -/
def State.partLeft (s : State) (id : Nat) : Bool :=
  (s.blocks.any fun p => p.2.parts.any fun g => g.id = id) || s.saved.any fun (x : Saved) => x.parts.any fun g => g.id = id

/-- The lead has read the shared operand of its GMMA named id, once for every part; until the last of them has run the GMMA stays a reader of
its slot (R196). -/
def readShared (s : State) (k : BKey) (id : Nat) (x : Tile) (lines : List Nat) : State :=
  let take (g : GPart) : GPart :=
    if g.id = id && g.snap.isSome then { g with snap := some x, badLines := lines, ready := true } else g
  let s1 : State := { s with blocks := s.blocks.map fun p => (p.1, { p.2 with parts := p.2.parts.map take }) }
  match s1.block? k with
  | some b => if s1.partLeft id then s1.setBlock k { b with readers := b.readers ++ [(id, x.phys)] } else s1
  | none => s1

/-- GMMA (R196): its parts are pending on every other member; the lead's own part runs once its older strong events and tile writers are done,
as its arrival needs (R250). One that waited has given its parts at its issue: it is then alone in its gang. -/
def execGmma (td ta : TReg) (b : TSrc) (bar : BReg) (s : State) : Out :=
  afterSettling barWaits s fun s k x =>
    match partTiles s k x td ta b none with
    | .error f => trapOut s k x f
    | .ok tiles =>
      if x.members ≠ [coreInCluster k.core] && !gangOk s k x then trapOut s k x (FaultInfo.plain causeGangPartner)
      else
        let id := s.evSeq
        let s1 := giveParts { s with evSeq := id + 1 } k x id td ta b bar
        let leads : Bool := b.core.any fun c => c.val = coreInCluster k.core
        let s2 := if leads then readShared s1 k id tiles.2.2 (tiles.2.2.armedWindow (s.core k.core).armed) else s1
        match s2.block? k with
        | none => .next s2
        | some y => .next (runPart s2 k (y.issuedAs (some id) td.val) td ta b bar tiles none x.pc)

/-- The lead's GMMA of a part has begun, now that a part of it runs (R198). -/
def markBegun (s : State) (k : BKey) (p : GPart) : State :=
  let lk := partnerKey k p.lead
  match s.block? lk with
  | some l => if l.held.any fun h => h.id = p.id then
      s.setBlock lk { l with held := l.held.map fun h => if h.id = p.id then { h with begun := true } else h }
      else s
  | none => s

/-- The GMMA of a part has begun writeback: its lead's own part is done, or another part has been run (R198). -/
def State.gmmaBegun (s : State) (k : BKey) (p : GPart) : Bool :=
  !((s.block? (partnerKey k p.lead)).any fun l => l.held.any fun h => h.id = p.id && !h.begun)

/-- GMMA_PART: a member that sleeps in BARW runs its oldest accepted part, in its program order before the BARW: after its older strong
events and tile writers. A failing check makes it a failed member (R196, R197). -/
def execGmmaPart (k : BKey) (s : State) : Out :=
  let s := settleWhere s k barWaits
  match s.block? k with
  | none => .next s
  | some b => match b.acceptedPart with
    | none => .next s
    | some p =>
      if !b.partRuns p || s.pending k barWaits then .next s
      else
        let b1 : Block := { b with parts := b.parts.erase p }
        match partTiles (s.setBlock k b1) k b1 p.td p.ta p.b p.snap with
        | .ok tiles => .next (runPart (markBegun s k p) k b1 p.td p.ta p.b p.bar tiles (p.snap.map fun _ => p.badLines) b.pc)
        | .error f =>
          let s1 := barArrive (s.setBlock k b1) k p.bar (some (coreInCluster k.core, f.cause))
          match s1.block? k with
          | some b2 => .next (killBlock s1 k b2 { FaultInfo.plain causeGangPartner with tile := f.tile } b.pc)
          | none => .next s1

/-! ## Accumulator instructions (R200) -/

/-- TACZ (R200). -/
def execTacz (td : TReg) (s : State) : Out :=
  onBlock s fun k b =>
    withTile s k b (b.useTile td) fun d =>
      if d.home ≠ .a then trapOut s k b (FaultInfo.atTile causeFormat td 0 0)
      else .next (s.setBlock k ((b.commitTile td (d.writeAll false (d.coords.map fun p => (p, 0, false)) none none)).issued td))

/-- TACV (R200): accumulator to tile store. -/
def execTacv (td ta : TReg) (fmt : Efmt) (rnd : Rnd) (sat : Bool) (mask : Option MReg) (s : State) : Out :=
  onBlock s fun k b =>
    withTile s k b (b.useTile td) fun d =>
      withTile s k b (s.source k b ta) fun a =>
        match firstFault [(d.home ≠ .s, causeFormat, td), (a.home ≠ .a, causeFormat, ta), (d.fmt ≠ fmt || d.fmt.block ≠ 0, causeFormat, td),
            (!d.sameWindow a, causeShape, ta)] with
        | some f => trapOut s k b f
        | none => elementwise (s.fired k [a]) k b td d mask rnd [a.src] fun draw i j =>
            fmt.round rnd sat draw (Efmt.a56.decode (a.get i j))

/-- TACQ (R200): tile store to accumulator, replacing or adding. -/
def execTacq (td ta : TReg) (fmt : Efmt) (rnd : Rnd) (add : Bool) (mask : Option MReg) (s : State) : Out :=
  onBlock s fun k b =>
    withTile s k b (if add then s.accumulator k b td else b.useTile td) fun d =>
      withTile s k b (s.source k b ta) fun a =>
        match firstFault [(d.home ≠ .a, causeFormat, td), (a.home ≠ .s, causeFormat, ta), (a.fmt ≠ fmt || a.fmt.block ≠ 0, causeFormat, ta),
            (!d.sameWindow a, causeShape, ta)] with
        | some f => trapOut s k b f
        | none => elementwise (s.fired k (if add then [d, a] else [a])) k b td d mask rnd (if add then [d.src, a.src] else [a.src])
            fun draw i j =>
              let v := fmt.decode (a.get i j)
              let t : Fv := if add then (Efmt.a56.decode (d.get i j)).add rnd v else (v, 0)
              let r := Efmt.a56.round rnd false draw t.1
              (r.1, t.2 ||| r.2)

/-! ## The matrix slot table (R202) -/

/-- An entry of the table in memory, V and CTX: none when a reserved bit is set. -/
def slotEntry (w : Nat) : Option (Bool × Nat) := if fld 16 47 w ≠ 0 then none else some (w.testBit 63, fld 0 16 w)

/-- Reads 64 entries. -/
def readSlots (s : State) (pa : Nat) : Nat → List (Option (Bool × Nat))
  | 0 => []
  | n + 1 => readSlots s pa n ++ [slotEntry (s.mem.readLE (pa + 8 * n) 8)]

/-- The bytes of the slot table that MSLT reads. -/
def msltBytes (a : SReg) : Reach := fun _ _ b => (List.range 512).map ((b.gs a).toNat + ·)

/-- MSLT (R202): PRIV in user mode, then POISON, ALIGN, PAGE1, ECC and FORMAT. The read is strong, at the home; it follows the older accesses
to the table's bytes (R106). -/
def execMslt (a : SReg) (s : State) : Out :=
  afterOlder true (msltBytes a) s fun s k b =>
    if !b.inSys then trapOut s k b (wordFault causePriv (.mslt a))
    else if b.ps a then trapOut s k b b.scalarPoison
    else
      let pa := (b.gs a).toNat
      if pa % 128 ≠ 0 then trapOut s k b (FaultInfo.atVA causeAlign pa)
      else if 2 ^ 56 ≤ pa || !((List.range 4).all fun n => match s.spaceOf (pa + 128 * n) with
          | some sp => sp ≠ 3 | none => false) then
        trapOut s k b { FaultInfo.atVA causePage1 pa with det := 4 }
      else if (List.range 4).any fun n => s.eccAt (pa + 128 * n) then
        trapOut (s.firedHomes ((List.range 4).map fun n => pa + 128 * n)) k b (FaultInfo.atVA causeEcc pa)
      else
        let es := readSlots s pa 64
        if es.any fun e => e.isNone then trapOut s k b (FaultInfo.plain causeFormat)
        else
          let die := s.dieOf k.core
          let d := s.die die
          .next ((s.setDie die { d with nextSlots := some (es.map fun e => e.getD (false, 0)) }).setBlock k b.advance)

/-- SLOT_ROUND: the loaded table takes effect (R202). -/
def execSlotRound (die : Nat) (s : State) : Out :=
  let d := s.die die
  match d.nextSlots with
  | none => .next s
  | some t => .next (s.setDie die { d with slots := t, nextSlots := none })

/-- RAMP_INTERVAL (R204): the micro-ops and fillers of an interval in which `demand` micro-ops are ready. The step is the
parameter of index 0: P/16, P/8, P/4 or P/2 (R326). The monitors take the fillers (R327). -/
def execRampInterval (die demand : Nat) (s : State) : Out :=
  let d := s.die die
  let p := 2250 * (8 * s.clusters)
  let step := p / 2 ^ (4 - min (s.mgc.params.getD 0 1) 3)
  let total := d.rampI + d.rampF
  let issued := min demand (min p (total + step))
  let fillers := total - step - issued
  .next (monitorSample (s.setDie die { d with rampI := issued, rampF := fillers }) die 8 fillers)

end Sys2Proof.Machine
end

