-- ==== Sys2Proof/Machine/Relay.lean ====
section
/-! DEFINITION. Launch lines and their monitors, and the relay-core extension: RFETCH, BXTR, SWAITQ, DSPCH and their exceptions
(R290 to R295, R315). -/

namespace Sys2Proof.Machine

/-! ## Relay-core registers and exceptions (R293, R294) -/

/-- x[r]; x0 reads 0. -/
def Relay.gx (r : Relay) (n : XReg) : W64 := if n = 0 then 0 else r.x[n.val]

/-- Writes x[r]; a write to x0 is discarded (R295). -/
def Relay.putX (r : Relay) (n : XReg) (v : W64) : Relay := if n = 0 then r else { r with x := r.x.set n.val v }

/-- The next 32-bit word. -/
def Relay.advance (r : Relay) : Relay := { r with pc := r.pc + 4, asleep := false }

/-- Runs a meaning on the relay core that moves. -/
def onRelay (s : State) (f : Fin 8 → Relay → Out) : Out :=
  match s.active with
  | .relay r => if h : r < 8 then f ⟨r, h⟩ s.relays[r] else .fault .noRelay
  | .block _ => .fault .noRelay

/-- The state with a relay core written. -/
def State.setRelay (s : State) (i : Fin 8) (r : Relay) : State := { s with relays := s.relays.set i.val r }

/-- RCAUSE codes (R294). -/
def rcQslot : Nat := 0x40
def rcMbuf : Nat := 0x41
def rcTarget : Nat := 0x42
def rcNoLaunch : Nat := 0x43
def rcRelayEcc : Nat := 0x44

/-- Taking a RISC-V exception: mepc, mcause and mtval are written and the pc goes to mtvec's base (PRESUMED from the RISC-V
privileged architecture, log 26). -/
def Relay.exception (r : Relay) (mcause : Nat) (word : Nat) : Relay :=
  { r with
    mepc := r.pc
    mcause := BitVec.ofNat 64 mcause
    mtval := BitVec.ofNat 64 word
    pc := r.mtvec &&& ~~~ (3 : W64)
    asleep := false }

/-- A fault of the extension: mcause 24, RCAUSE, mtval the word (R294). -/
def extFault (s : State) (i : Fin 8) (r : Relay) (instr : Instr) (cause : Nat) : Out :=
  .next (s.setRelay i { r.exception 24 ((encodeRelay instr).getD 0) with rcause := BitVec.ofNat 64 cause })

/-- A relay word ends with a result. -/
def relayResult (s : State) (i : Fin 8) (r : Relay) (rd : XReg) (v : Nat) : Out :=
  .next (s.setRelay i (r.putX rd (BitVec.ofNat 64 v)).advance)

/-! ## Launch lines (R290, R292, R315) -/

/-- The line monitor sees byte 127: with bit 7 equal to the expected parity it marks the line sealed (R290). -/
def LaunchLine.monitor (l : LaunchLine) : LaunchLine :=
  if (l.bytes.getD 127 0).getLsbD 7 = l.parity then { l with sealed := true } else l

/-- SEAL: byte 127 of a line is written by a store that goes to the device at once, non-temporal or flushed, and the monitor sees it (R290,
R292, R315). -/
def execSeal (line : Nat) (v : Byte) (s : State) : Out :=
  if h : line < 512 then
    let l := s.lines[line]
    .next { s with lines := s.lines.set line { l with bytes := l.bytes.set 127 v, hostOwned := false, written := false }.monitor }
  else .next s

/-- A byte of a line in the host's cache: the host has taken the line, and the device recalls it after a write of byte 127 (R315). -/
def LaunchLine.hostWrite (l : LaunchLine) (n : Nat) (v : Byte) : LaunchLine :=
  { l with bytes := l.bytes.set n v, hostOwned := true, written := l.written || n = 127 }

/-- LINE_RECALL: the device takes back a line whose byte 127 the host has written; the monitor acts on it (R315). -/
def execLineRecall (line : Nat) (s : State) : Out :=
  if h : line < 512 then
    let l := s.lines[line]
    if l.hostOwned && l.written then
      .next { s with lines := s.lines.set line { l with hostOwned := false, written := false }.monitor }
    else .next s
  else .next s

/-- The device writes ACK: the parity of the seal it consumed and a status (R291, R292). -/
def LaunchLine.ack (l : LaunchLine) (status : Nat) : LaunchLine :=
  { l with
    parity := !l.parity
    sealed := false
    hostOwned := false
    bytes := l.bytes.set 126 (BitVec.ofNat 8 (l.parity.toNat * 128 + status % 128)) }

/-! ## The four words (R295) -/

/-- What RFETCH does with a manifest that consumed its line: the admission of R296. -/
inductive Fetched where
  | refused (status : Nat)
  | full
  | admitted (num : Nat)
  deriving DecidableEq, Repr

/-- Admission of a manifest's bytes, with the record of a refused one. -/
def fetchManifest (s : State) (bs : List Byte) : Res Fetched :=
  let m := parseManifest bs
  let refuse (s : State) (st : Nat) : Res Fetched := (refusedRecord s m st).andThen fun s _ => .ok s (.refused st)
  if (s.ctx m.ctx).handles = 0 then .ok s (.refused lsBadMft)
  else if m.graph then
    (admitGraph s bs m).andThen fun s g => match g with
      | .error st => refuse s st
      | .ok g => if s.tableFull then .ok s .full
        else .ok (s.addGraph g).1 (.admitted (s.addGraph g).2)
  else
    (admitLaunch s bs m none).andThen fun s l => match l with
      | .error st => refuse s st
      | .ok l => if s.tableFull then .ok s .full
        else .ok (s.addLaunch l).1 (.admitted (s.addLaunch l).2)

/-- RFETCH (R295, R296). -/
def execRfetch (rd rs1 : XReg) (s : State) : Out :=
  onRelay s fun i r =>
    let q := (r.gx rs1).toNat
    if h : q < 512 then
      let l := s.lines[q]
      if s.tableError then extFault s i r (.rfetch rd rs1) rcRelayEcc
      else if !l.sealed then relayResult s i r rd 1
      else
        let r1 : Relay := { r with mb := l.bytes, mbError := false }
        let acked (s : State) (st : Nat) : State := { s with lines := s.lines.set q (l.ack st) }
        if (l.bytes.getD 127 0).toNat % 128 ≠ 0x35 then relayResult (acked s lsBadMft) i r1 rd 2
        else match fetchManifest s l.bytes with
          -- the line is kept while an access of the admission waits
          | .wait s => .next s
          | .bad s _ => .next s
          | .ok s (.refused st) => relayResult (acked s st) i r1 rd (3 + st * 2 ^ 8)
          | .ok s .full => relayResult s i r1 rd 4
          | .ok s (.admitted n) => relayResult (acked s 0) i r1 rd (n * 2 ^ 32)
    else extFault s i r (.rfetch rd rs1) rcQslot

/-- BXTR (R295). -/
def execBxtr (rd rs1 rs2 : XReg) (s : State) : Out :=
  onRelay s fun i r =>
    let o := (r.gx rs1).toNat
    let l := (r.gx rs2).toNat
    if l = 0 || 64 < l || 1024 < o + l then extFault s i r (.bxtr rd rs1 rs2) rcMbuf
    else if r.mbError then extFault s i r (.bxtr rd rs1 rs2) rcRelayEcc
    else relayResult s i r rd (leNat r.mb / 2 ^ o % 2 ^ l)

/-- The lowest sealed line of the groups that a mask selects: group g is lines 8g to 8g + 7. -/
def State.sealedLine (s : State) (mask : W64) : Option Nat :=
  (List.range 512).find? fun n => mask.getLsbD (n / 8) && match s.lines.toList[n]? with
    | some l => l.sealed
    | none => false

/-- SWAITQ: until a selected line is sealed or an internal event is pending, the core sleeps. A sealed line goes first
(DEDUCED, log 25). -/
def execSwaitq (rd rs1 : XReg) (s : State) : Out :=
  onRelay s fun i r => match s.sealedLine (r.gx rs1), s.internal with
    | some n, _ => relayResult s i r rd n
    | none, e :: es => relayResult { s with internal := es } i r rd (2 ^ 63 + (Config.eventCode e).toNat)
    | none, [] => .next (s.setRelay i { r with asleep := true })

/-- A launch that DSPCH finds live: in the table, neither ended nor past its deadline (R303, R304). -/
def State.liveLaunch (s : State) (n : Nat) : Option Launch :=
  s.launches.find? fun l => l.num = n && l.status = 0 && !s.expired l.man

/-- Contexts for every block of a cooperative launch: block blk in k, the others on the cores of the cluster from k's on. -/
def coopPlaces (s : State) (l : Launch) (k : BKey) (blk : Nat) : List (BKey × Nat) :=
  (((s.coopCores k l).map fun c => { k with core := c }).zip (blk :: (List.range l.man.gridSize).filter fun n => n ≠ blk))

/-- Starts blocks of a launch in contexts. -/
def placeEach (n : Nat) : State → List (BKey × Nat) → Res Unit
  | s, [] => .ok s ()
  | s, (k, blk) :: ps => match s.launch? n with
    | none => .ok s ()
    | some l => (placeBlock s l blk 0 k).andThen fun s _ => placeEach n s ps

/-- DSPCH of a block of a launch that is not cooperative, or of a block to re-run. A context in use, on loan, or whose set holds another launch
is occupied, and so is a core that waits for a re-run of another block, and a context that does not fit the block's own re-run (R20, R165,
R247, R305). -/
def dispatchBlock (s : State) (i : Fin 8) (r : Relay) (rd : XReg) (l : Launch) (k : BKey) (blk : Nat) : Out :=
  let again : Bool := l.reruns.any fun x => x.1 = blk && s.rerunFits l k x
  if !s.contextFree k l || (!again && (s.rerunOn k.core || l.reruns.any fun x => x.1 = blk)) then relayResult s i r rd 1
  else match placeBlock s l blk (if again then 1 else 0) k with
    | .wait s => .next s
    | .bad s _ => .next s
    | .ok s _ =>
      let s1 := match s.launch? l.num with
        | some l => s.setLaunch { l with reruns := l.reruns.filter fun x => !(again && x.1 = blk) }
        | none => s
      relayResult s1 i r rd 0

/-- DSPCH of a cooperative launch: its blocks start all at once in one cluster, or none does (R20); with no room for all of them, or when
they have been started, the context counts as occupied (DEDUCED, log 25). -/
def dispatchCoop (s : State) (i : Fin 8) (r : Relay) (rd : XReg) (l : Launch) (k : BKey) (blk : Nat) : Out :=
  let ps := coopPlaces s l k blk
  if !l.begun.isEmpty || !s.contextFree k l || s.rerunOn k.core || ps.length < l.man.gridSize then relayResult s i r rd 1
  else match placeEach l.num s ps with
    | .wait s1 => .next { s with hvPosts := s1.hvPosts, mem := s1.mem, port0 := s1.port0, port1 := s1.port1, freeCount := s1.freeCount }
    | .bad s1 _ => .next s1
    | .ok s1 _ => relayResult s1 i r rd 0

/-- DSPCH (R295). -/
def execDspch (rd rs1 rs2 : XReg) (s : State) : Out :=
  onRelay s fun i r =>
    let fail (c : Nat) : Out := extFault s i r (.dspch rd rs1 rs2) c
    let v := (r.gx rs2).toNat
    let k : BKey := { core := v % 256, slot := v / 2 ^ 8 % 4 }
    let blk := v / 2 ^ 32
    if s.tableError then fail rcRelayEcc
    else match s.liveLaunch (r.gx rs1).toNat with
      | none => fail rcNoLaunch
      | some l =>
        let again : Bool := l.reruns.any fun x => x.1 = blk
        if !(s.ctx l.man.ctx).part.contains k.core || l.man.gridSize ≤ blk then fail rcTarget
        else if v.testBit 10 then
          let c := s.core k.core
          if c.staged.isSome || l.coop then relayResult s i r rd 1
          else
            let s1 := s.setCore k.core { c with staged := some (l.num, blk, k.slot) }
            relayResult (s1.setLaunch { l with begun := insertNat blk l.begun }) i r rd 0
        else if l.coop && !again then dispatchCoop s i r rd l k blk
        else dispatchBlock s i r rd l k blk

end Sys2Proof.Machine
end

