-- ==== Sys2Proof/Machine/System.lean ====
section
/-! DEFINITION. Diversion and wrap-up, system mode, the save area, rescue slices, and the bookkeeping events of a core (R136, R137,
R139 to R141, R143, R164, R310). -/

namespace Sys2Proof.Machine

/-! ## Discarding instructions (R21, R101, R119) -/

/-- A channel position given back (R254). -/
def Block.giveBack (b : Block) (send : Bool) (c : CoreSel) (g : BReg) : Block :=
  let ch := channel c g
  if send then { b with sendPos := b.sendPos.set ch.val (b.sendPos[ch.val] - 1) }
  else { b with recvPos := b.recvPos.set ch.val (b.recvPos[ch.val] - 1) }

/-- The channel of a waiting instruction that has taken a position. -/
def Held.channel (h : Held) : Option (Bool × CoreSel × BReg) :=
  match h.pos, h.instr with
  | some _, .tsend _ c g => some (true, c, g)
  | some _, .trecv _ c g => some (false, c, g)
  | _, _ => none

/-- Names and PCs of the instructions that a discard drops. -/
def Block.inFlight (b : Block) : List (Nat × W32) :=
  ((b.evq.filter Ev.discardable).map fun e => (e.id, e.pc)) ++ (b.msgs.map fun m => (m.id, m.pc)) ++ b.held.map fun h => (h.id, h.pc)

/-- The oldest of a list of names and PCs. -/
def oldest : List (Nat × W32) → Option (Nat × W32)
  | [] => none
  | x :: xs => match oldest xs with
    | none => some x
    | some y => if y.1 < x.1 then some y else some x

/-- PC of the oldest discarded instruction, else of the next one (R136): a sleeping instruction is the youngest. -/
def Block.discardPc (b : Block) : W32 := match oldest b.inFlight with | some (_, pc) => pc | none => b.pc

/-- The block without its unfinished instructions: their positions, fresh slots and entries of the dependency table go back (R168,
R254). -/
def Block.discard (b : Block) : Block :=
  let b0 := b.restoreNames
  let b1 := b.msgs.foldl (fun b m => b.giveBack m.send m.core m.tag) b0
  let b2 := b.held.foldl (fun b h => match h.channel with | some (d, c, g) => b.giveBack d c g | none => b) b1
  let names := b.inFlight.map fun p => p.1
  { b2 with
    evq := b.keptEvents
    held := []
    superseded := []
    msgs := []
    deps := b.deps.filter fun d => !(d.name.any fun n => names.contains n)
    sleep := none }

/-- A SWEEP in progress completes with the words that it has examined (R286, R289). -/
def Block.endEarly (b : Block) : Block :=
  match b.sleep with
  | some (.sweep d _ _ _ next count) => endSweep b d next count
  | _ => b

/-- An instruction that has begun writeback and goes on (R21). -/
def Ev.begun (e : Ev) : Bool := !e.buffered && e.units.any fun u => u.done

/-- Postings that a block's discarded accesses made: the device ignores the later reply (R101). Those of a store that still drains stay. -/
def State.dropPosts (s : State) (k : BKey) : State :=
  { s with hvPosts := s.hvPosts.filter fun p => p.who ≠ some k || p.drain }

/-! ## Diversion (R136) and budget overrun (R137) -/

/-- A block is to be diverted at this boundary: a deadline or cancel has reached it, outside wrap-up and system mode, before
its EXIT or WRAPEND. -/
def State.divertDue (s : State) (b : Block) : Bool := s.stopDue b && !b.inWrap && b.ended.isNone && b.sys.isNone

/-- WCAUSE of a diversion: DEADLINE when DTIME has reached DEADLN, otherwise CANCEL (R136, R139). -/
def State.divertCause (s : State) (b : Block) : Nat :=
  match s.launchOf b with
  | some l => if s.expired l.man then causeDeadline else causeCancel
  | none => causeCancel

/-- The block in its wrap-up code, or ended when the kernel has none (R136). -/
def Block.divert (b : Block) (l : Option Launch) (cause : Nat) (wpc : W32) (now : Nat) : Block :=
  let b1 : Block := { b with wpc := wpc, wcause := cause, validity := .none, calls := [] }
  match l.bind fun l => l.wrapup with
  | none => b1.exitWith .none
  | some w => { b1 with
      status := b1.status ||| 0x100
      wbend := now + (match l with | some l => l.man.budget | none => 0)
      pc := w }

/-- Blocks of a launch in the barrier set of k. -/
def State.setMembers (s : State) (k : BKey) (launch : Nat) : List (BKey × Block) :=
  s.blocks.filter fun p => sameSet k p.1 && p.2.launch = launch

/-- Parts that a list of members will not run any more, since a deadline or cancel diverts them: those of a GMMA that has begun arrive as
failed, the others are withdrawn (R197, R198). -/
def failParts (s : State) : List (BKey × Block) → State
  | [] => s
  | (k, b) :: ps =>
    let s1 := match s.block? k with
      | some x => if s.divertDue x
          then partArrivals (s.setBlock k { x with parts := [] }) k (s.divertCause b) (x.parts.filter (s.gmmaBegun k)) else s
      | none => s
    failParts s1 ps

/-- A message that the block of context k waits to receive has not been sent: a stop discards the TRECV (R253). -/
def State.unsent (s : State) (k : BKey) (b : Block) : Bool :=
  b.msgs.any fun m => !m.send && !((s.partner? k b m.core.val).any fun p => p.msgs.any fun r => m.meets k r)

/-- The block of context k has accepted a part of a GMMA that has begun: the part completes before any stop (R198). DESIGN CHOICE (log 27): a part
behind a TRECV whose message has not been sent does not, since the stop discards that TRECV. -/
def State.partDue (s : State) (k : BKey) (b : Block) : Bool := (b.acceptedPart.any (s.gmmaBegun k)) && !s.unsent k b

/-- A waiting GMMA of the block of context k has begun: its own part completes before any stop (R198). -/
def State.leadDue (s : State) (k : BKey) (b : Block) : Bool := (b.held.any fun h => h.begun) && !s.unsent k b

/-- The arrivals of own parts that a stop drops though their GMMA has begun (R198). -/
def leadArrivals (s : State) (k : BKey) (cause : Nat) : List Held → State
  | [] => s
  | h :: hs =>
    let s1 := match h.instr with
      | .gmma _ _ _ bar => if h.begun then barArrive s k bar (some (coreInCluster k.core, cause)) else s
      | _ => s
    leadArrivals s1 k cause hs

/-- Diverts block k with a WPC, once what has begun is done: first the parts of its gang that no member has accepted arrive as failed; then
unfinished instructions are discarded, and staged blocks of an expired launch (R136, R198, R306). -/
def divertAt (s : State) (k : BKey) (b : Block) (wpc : W32) : State :=
  let cause := s.divertCause b
  let s0 := ((s.dropPosts k).setBlock k b).withdraw b.held
  let s1 := failParts (leadArrivals s0 k cause b.held) (s0.setMembers k b.launch)
  match s1.block? k with
  | none => s1
  | some b1 =>
    let b2 := (s1.settleLoans k b1.discard).divert (s1.launchOf b1) cause wpc s1.dtime
    (s1.setBlock k b2).dropStaged b.launch

/-- A diversion must still wait: for an instruction that has begun writeback (R21, R101), or for a GMMA of the set that has (R198). -/
def State.stopWaits (s : State) (k : BKey) (b : Block) : Bool :=
  (b.evq.any Ev.begun) || (s.setMembers k b.launch).any fun p => s.partDue p.1 p.2 || s.leadDue p.1 p.2

/-- Diverts block k at its boundary (R136); its SWEEP completes early (R286). -/
def divertBlock (s : State) (k : BKey) : State :=
  let s1 := settleWhere s k Ev.begun
  match s1.block? k with
  | none => s1
  | some b =>
    if !s1.divertDue b || s1.stopWaits k b then s1 else divertAt s1 k b.endEarly b.endEarly.discardPc

/-- DIVERSION. -/
def execDiversion (k : BKey) (s : State) : Out :=
  match s.block? k with
  | none => .next s
  | some b => .next (if s.divertDue b then divertBlock s k else s)

/-- A block overruns its wrap-up budget (R137). -/
def State.overrunDue (s : State) (b : Block) : Bool := b.inWrap && b.wbend ≤ s.dtime && b.ended.isNone && b.sys.isNone

/-- The kill of a budget overrun: in-flight instructions are discarded, the record holds DEADLINE and their oldest PC (R137). Its sleeping
BARW counts for the faulted arrivals (R251). -/
def overrunKill (s : State) (k : BKey) (b : Block) : State :=
  let x := b.endEarly
  killBlock ((s.dropPosts k).withdraw x.held) k { x.discard with sleep := x.sleep } (FaultInfo.plain causeDeadline) x.discardPc

/-- BUDGET_OVERRUN. -/
def execBudgetOverrun (k : BKey) (s : State) : Out :=
  match s.block? k with
  | none => .next s
  | some b => .next (if s.overrunDue b then overrunKill s k b else s)

/-! ## The save area (R140): what SAVECTX writes -/

/-- A number as n little-endian bytes; a list of words as bytes. -/
def wordsLE (ws : List Nat) : List Byte := ws.flatMap fun w => leBytes 8 w

/-- Bytes padded with zeros to a length. -/
def padTo (n : Nat) (bs : List Byte) : List Byte := bs ++ List.replicate (n - bs.length) 0

/-- A length rounded up to 128. -/
def round128 (n : Nat) : Nat := (n + 127) / 128 * 128

/-- An origin record as three words (R97, R154). -/
def originWords (o : Option Origin) : List Nat :=
  match o with
  | none => [0, 0, 0]
  | some o => [o.cause, o.addr.toNat, o.pc.toNat]

/-- Validity as VALID's imm (R138). -/
def Validity.word (v : Validity) : Nat :=
  match v with
  | .none => 0
  | .part f => 2 ^ 16 + f.toNat
  | .full => 2 * 2 ^ 16

/-- The state word of barrier n of a block (R248). -/
def barrierWord (x : Barrier) (ap dn : Bool) : Nat :=
  x.f.toNat * 2 ^ 63 + x.fc % 8 * 2 ^ 60 + x.fcause % 256 * 2 ^ 52 + x.e % 512 * 2 ^ 43 + x.a % 512 * 2 ^ 34 + x.lf.toNat * 2 ^ 33
    + x.lfc % 8 * 2 ^ 30 + x.lcause % 256 * 2 ^ 22 + ap.toNat * 2 ^ 21 + dn.toNat * 2 ^ 20 + x.phase.toNat

/-- The two words of a shape record (R157). -/
def ShapeRec.words (r : ShapeRec) : List Nat :=
  [r.gm * 2 ^ 55 + r.gn * 2 ^ 46 + r.gk * 2 ^ 37 + r.kcur * 2 ^ 28 + r.v.toNat, r.ktot * 2 ^ 32 + r.kpos]

/-- The entries of a block's dependency table as they are saved: an unfinished one names its progress record, in the order of the table (R140,
R164). -/
def Block.savedDeps (b : Block) : List DepEntry :=
  let unfinished (d : DepEntry) : Bool := d.state ≠ 0 && !b.completed d
  b.deps.zipIdx.map fun p =>
    if unfinished p.1 then { p.1 with prog := BitVec.ofNat 32 ((b.deps.take p.2).countP unfinished) } else { p.1 with prog := 0xFFFFFFFF }

/-- A record of the dependency table (R164). -/
def DepEntry.bytes (d : DepEntry) : List Byte :=
  leBytes 4 d.pc.toNat ++ leBytes 1 d.state ++ leBytes 1 d.td ++ leBytes 2 0 ++ leBytes 4 d.waits.toNat ++ leBytes 4 d.prog.toNat
    ++ List.replicate 16 0

/-- First bit of an element in the saved element plane: as in the store (R155), A56 elements taking 64 bits (R140). -/
def Tile.saveBit (t : Tile) (r c : Nat) : Nat :=
  match t.home with
  | .a => (r * t.scols + c) * 64
  | .s => if t.lay = .col then c * runBytes t.fmt t.srows * 8 + r * t.fmt.bits else r * runBytes t.fmt t.scols * 8 + c * t.fmt.bits

/-- Bytes of the saved element plane, and of the contents with the scale plane, before padding. -/
def Tile.planeLen (t : Tile) : Nat := match t.home with | .a => 8 * t.ebytes | .s => t.ebytes
def Tile.contentLen (t : Tile) : Nat := round128 (t.planeLen + t.sbytes)

/-- Poison lines of a tile, and bytes of its saved map. -/
def Tile.lineCount (t : Tile) : Nat := match t.home with | .a => (t.ebytes + 15) / 16 | .s => t.ebytes / 128
def Tile.mapLen (t : Tile) : Nat := round128 ((t.lineCount + 7) / 8)

/-- Coordinates of the storage extent. -/
def Tile.cells (t : Tile) : List (Nat × Nat) := (List.range t.srows).flatMap fun r => (List.range t.scols).map fun c => (r, c)

/-- Saved contents of a tile. -/
def Tile.contentBytes (t : Tile) : List Byte :=
  let plane := t.cells.foldl (fun n p => n + t.elems.getD (p.1 * t.scols + p.2) 0 * 2 ^ t.saveBit p.1 p.2) 0
  padTo t.contentLen (leBytes t.planeLen plane ++ (padTo t.sbytes (t.scales.toList.map fun v => BitVec.ofNat 8 v)))

/-- Saved poison map of a tile: bit k for line k. -/
def Tile.mapBytes (t : Tile) : List Byte := leBytes t.mapLen (t.poison.foldl (fun n l => n ||| 2 ^ l) 0)

/-- A tile whose descriptor is saved: that of a linked tile holds its current extent (R154, R161). DESIGN CHOICE (log 27): that of an over-deep
linked tile, which has none, holds the window of its bind, and an extent of 0, at KCUR 0, is saved as WROWS or WCOLS 0. -/
def Block.savedShape (b : Block) (t : TReg) : Option Tile :=
  match b.useTile t with
  | .ok x => some x
  | .error _ => b.gt t

/-- A saved descriptor with the offsets of its contents and map (R154). -/
def savedDescriptor (t : Option Tile) (coff poff : Nat) : List Nat :=
  match t with
  | none => List.replicate 8 0
  | some x => [x.word0, x.word1, x.word2, coff * 2 ^ 32 + poff] ++ originWords x.origin ++ [0]

/-- Offset at which the tile contents begin: no lane operand file is saved, since MAP and REDUCE run whole (log 12). -/
def savedTilesAt : Nat := 0x24000

/-- Offset at which the tile contents of an area begin, after the lane operand file when LWD = 1 (R140). -/
def tilesAt (w0 : Nat) : Nat := savedTilesAt + if w0.testBit 16 then Config.laneWidth else 0

/-- The saved descriptors from an offset on. -/
def descriptorsFrom (ts : List (Option Tile)) (off : Nat) : List Nat :=
  match ts with
  | [] => []
  | none :: ts => savedDescriptor none 0 0 ++ descriptorsFrom ts off
  | some t :: ts =>
    savedDescriptor (some t) off (off + t.contentLen) ++ descriptorsFrom ts (off + t.contentLen + t.mapLen)

/-- The offset after a list of saved tiles. -/
def endOfTiles (ts : List (Option Tile)) (off : Nat) : Nat :=
  ts.foldl (fun n t => match t with | none => n | some x => n + x.contentLen + x.mapLen) off

/-- Header of a save area (R140). -/
def saveHeader (s : State) (b : Block) (pc : W32) (total : Nat) : List Byte :=
  let u := b.usageBut none
  let blkid := match s.launchOf b with | some l => (blkidWord l.man b.blklin).toNat | none => 0
  padTo 64 (wordsLE [1 + b.inWrap.toNat * 2 ^ 17 + Config.laneWidth * 2 ^ 32, total, pc.toNat, blkid, b.launch]
    ++ leBytes 4 u.bytes ++ leBytes 4 u.acc ++ leBytes 2 u.slots)

/-- Block state of a save area (R140), with the poison bits of m0 to m15 in [63:48] of the poison word (R207). DESIGN CHOICE (log 27): STATUS is
saved with SYS 0, as the block's own mode, though STATUS reads SYS 1 in the routine that saves it. -/
def saveBlockState (s : State) (b : Block) : List Byte :=
  let mp := (List.range 16).foldl (fun n i => n + match b.m.toList[i]? with | some m => m.poison.toNat * 2 ^ i | none => 0) 0
  let deadline := match s.launchOf b with | some l => l.man.deadline | none => noDeadline
  padTo 256 (wordsLE ([b.sp.toNat + b.ap.toNat * 2 ^ 32 + mp * 2 ^ 48, (b.status &&& ~~~ (0x200 : W64)).toNat, b.seed.toNat,
    b.gang.toNat, deadline, b.wbend, b.wpc.toNat, b.wcause, b.validity.word, b.calls.length] ++ originWords b.origin ++ [s.dtime]))

/-- The instructions of a block that are still unfinished have no stated record (log 27): free bytes when there are any. -/
def progressBytes (s : State) (b : Block) : List Byte :=
  if b.evq.isEmpty && b.held.isEmpty && b.msgs.isEmpty && b.parts.isEmpty then List.replicate 2048 0
  else (List.range 2048).map fun i => BitVec.ofNat 8 (Config.unstated (s.freeCount + i))

/-- The area that SAVECTX writes for a block with a saved PC (R140). DESIGN CHOICE (log 27): the return PCs of the call stack lie outermost
first. -/
def saveArea (s : State) (k : BKey) (b : Block) (pc : W32) : List Byte :=
  let ts := (List.finRange 64).map b.restoreNames.savedShape
  let total := endOfTiles ts savedTilesAt
  let bars := s.barSet k
  let barWords := (List.finRange 16).map fun i =>
    barrierWord bars[i.val] (b.arrived.getLsbD i.val) (b.doneBar.getLsbD i.val)
  saveHeader s b pc total
    ++ wordsLE ((List.finRange 32).map fun r => (b.gs r).toNat)
    ++ wordsLE (b.a.toList.map fun r => r.toNat)
    ++ saveBlockState s b
    ++ padTo 128 (wordsLE (b.calls.reverse.map fun pc => pc.toNat))
    ++ wordsLE barWords
    ++ wordsLE (b.sh.toList.flatMap ShapeRec.words)
    ++ padTo 1024 (b.savedDeps.flatMap DepEntry.bytes)
    ++ progressBytes s b
    ++ wordsLE (descriptorsFrom ts savedTilesAt)
    ++ (b.sendPos.toList.flatMap fun n => leBytes 2 n.toNat) ++ (b.recvPos.toList.flatMap fun n => leBytes 2 n.toNat)
    ++ wordsLE (b.m.toList.flatMap fun m => originWords m.origin)
    ++ List.replicate (0x4000 - 0x2540) 0
    ++ (b.m.toList.flatMap fun m => leBytes 8192 m.bits.toNat)
    ++ (ts.flatMap fun t => match t with | none => [] | some x => x.contentBytes ++ x.mapBytes)

/-! ## The save area: what LOADCTX reads -/

/-- The origin record of three words. -/
def wordsOrigin (bs : List Byte) (off : Nat) : Option Origin :=
  if fieldAt bs off 8 = 0 then none
  else some { cause := fieldAt bs off 8, addr := BitVec.ofNat 64 (fieldAt bs (off + 8) 8), pc := BitVec.ofNat 32 (fieldAt bs (off + 16) 8),
              dev := 0 }

/-- A validity from VALID's imm. -/
def Validity.ofWord (w : Nat) : Validity :=
  match w / 2 ^ 16 % 4 with
  | 1 => .part (BitVec.ofNat 16 w)
  | 2 => .full
  | _ => .none

/-- A barrier's shared fields from its state word. -/
def Barrier.ofWord (w : Nat) : Barrier :=
  { f := w.testBit 63
    fc := fld 60 3 w
    fcause := fld 52 8 w
    e := fld 43 9 w
    a := fld 34 9 w
    lf := w.testBit 33
    lfc := fld 30 3 w
    lcause := fld 22 8 w
    phase := BitVec.ofNat 16 w }

/-- A shape record from its two words. -/
def ShapeRec.ofWords (w0 w1 : Nat) : ShapeRec :=
  { gm := fld 55 9 w0
    gn := fld 46 9 w0
    gk := fld 37 9 w0
    kcur := fld 28 9 w0
    v := w0.testBit 0
    ktot := w1 / 2 ^ 32
    kpos := w1 % 2 ^ 32 }

/-- What a saved block's descriptor of a name has no field for: the axis of its link, and the extent that sizes its storage; the bound extent
when nothing else is known. -/
def Saved.extent (x : Saved) (n rows cols : Nat) : Bool × Nat × Nat :=
  match x.storage.find? fun p => p.1 = n with
  | some (_, axis, r, c, _) => (axis, r, c)
  | none => (false, rows, cols)

/-- The tile that a saved descriptor names, with its contents and map read from the area. -/
def savedTile (bs : List Byte) (x : Saved) (n phys : Nat) : Option Tile :=
  let at_ := 0x11C0 + 64 * n
  let w (i : Nat) : Nat := fieldAt bs (at_ + 8 * i) 8
  if !(w 0).testBit 63 then none
  else match Lay.ofCode (fld 52 3 (w 0)), Efmt.ofCode (fld 47 5 (w 0)) with
    | some lay, some fmt =>
      let lsh : ShReg := Fin.ofNat 32 (fld 57 5 (w 0))
      let (axis, srows, scols) := x.extent n (fld 39 8 (w 0) + 1) (fld 31 8 (w 0) + 1)
      let t : Tile := {
        link := if (w 0).testBit 62 then some (lsh, axis) else none
        lsh := lsh
        cmp := (w 0).testBit 56
        raw := if (w 0).testBit 56 then ((x.raws.find? fun p => p.1 = n).map fun p => p.2).getD [] else []
        home := if (w 0).testBit 55 then .a else .s
        lay := lay
        fmt := fmt
        brows := fld 39 8 (w 0) + 1
        bcols := fld 31 8 (w 0) + 1
        wrow0 := fld 56 8 (w 1)
        wcol0 := fld 48 8 (w 1)
        wrows := fld 40 8 (w 1) + 1
        wcols := fld 32 8 (w 1) + 1
        tscale := BitVec.ofNat 32 (w 1)
        srows := srows
        scols := scols
        elems := #[]
        scales := #[]
        poison := []
        origin := wordsOrigin bs (at_ + 32)
        phys := phys
        unwritten := x.unwritten.contains n }
      let coff := w 3 / 2 ^ 32
      let poff := w 3 % 2 ^ 32
      let plane := fieldAt bs coff t.planeLen
      let elem (p : Nat × Nat) : Nat := plane / 2 ^ t.saveBit p.1 p.2 % 2 ^ fmt.bits
      let scales := (List.range (scaleCount fmt lay srows scols)).map fun i => fieldAt bs (coff + t.planeLen + i) 1
      let map := fieldAt bs poff t.mapLen
      some { t with
        elems := (t.cells.map elem).toArray
        scales := scales.toArray
        poison := (List.range t.lineCount).filter fun l => map.testBit l }
    | _, _ => none

/-- A dependency record that is not free, with what it stands for. -/
def savedDep (bs : List Byte) (x : Saved) (n : Nat) : Option DepEntry :=
  let at_ := 0x5C0 + 32 * n
  if fieldAt bs (at_ + 4) 1 = 0 then none
  else some {
    pc := BitVec.ofNat 32 (fieldAt bs at_ 4)
    state := fieldAt bs (at_ + 4) 1
    td := fieldAt bs (at_ + 5) 1
    waits := BitVec.ofNat 32 (fieldAt bs (at_ + 8) 4)
    prog := BitVec.ofNat 32 (fieldAt bs (at_ + 12) 4)
    name := x.names.getD n none }

/-- The slot that a saved block's slot goes to: the fresh slot of the name that it was under, or of the superseded slot (R141). -/
def Saved.fresh (x : Saved) (base phys : Nat) : Nat :=
  match x.storage.find? fun p => p.2.2.2.2 = phys with
  | some (n, _) => base + n
  | none => match x.superseded.findIdx? fun p => p.2.phys = phys with
    | some i => base + 64 + i
    | none => phys

/-- A tile in its new slot. -/
def Saved.move (x : Saved) (base : Nat) (t : Tile) : Tile := { t with phys := x.fresh base t.phys }

/-- Bits of STATUS that a save area restores: the reserved bits read 0 and SYS is clear (R6, R128). -/
def savedStatusMask : W64 := 0x1FF

/-- The block that an area holds (R140), over the block that runs the resume routine, whose own points stay in front; what the area has no
place for comes from the Dispatcher's entry of the saved block. -/
def loadArea (bs : List Byte) (s : State) (b : Block) (x : Saved) : Block :=
  let w (off : Nat) : Nat := fieldAt bs off 8
  let blkid := w 24
  let lin := match s.launchOf b with
    | some l => blkid % 2 ^ 32 + (l.man.gx + 1) * (blkid / 2 ^ 32 % 2 ^ 16 + (l.man.gy + 1) * (blkid / 2 ^ 48))
    | none => b.blklin
  let ap := (List.range 16).foldl (fun n i => n + ((w (0x340 + 8 * i)).testBit 21).toNat * 2 ^ i) 0
  let dn := (List.range 16).foldl (fun n i => n + ((w (0x340 + 8 * i)).testBit 20).toNat * 2 ^ i) 0
  let mask (i : Fin 16) : Mask := {
    bits := BitVec.ofNat 65536 (fieldAt bs (0x4000 + 8192 * i.val) 8192)
    poison := (w 0x1C0).testBit (48 + i.val)
    origin := wordsOrigin bs (0x23C0 + 24 * i.val) }
  let base := s.freeCount
  let move (t : Tile) : Tile := x.move base t
  { b with
    s := Vector.ofFn fun i : Fin 32 => BitVec.ofNat 64 (w (0x40 + 8 * i.val))
    a := Vector.ofFn fun i : Fin 16 => BitVec.ofNat 64 (w (0x140 + 8 * i.val))
    sp := BitVec.ofNat 32 (w 0x1C0)
    ap := BitVec.ofNat 16 (w 0x1C0 / 2 ^ 32)
    status := (BitVec.ofNat 64 (w 0x1C8) &&& savedStatusMask) ||| 0x200 ||| (if x.demoted then flDMT else 0)
    seed := BitVec.ofNat 64 (w 0x1D0)
    gang := BitVec.ofNat 64 (w 0x1D8 % 2 ^ 8)
    wbend := w 0x1E8
    wpc := BitVec.ofNat 32 (w 0x1F0)
    wcause := w 0x1F8 % 2 ^ 8
    validity := Validity.ofWord (w 0x200)
    origin := wordsOrigin bs 0x210
    calls := ((List.range (min (w 0x208) callDepth)).map fun i => BitVec.ofNat 32 (w (0x2C0 + 8 * i))).reverse
    arrived := BitVec.ofNat 16 ap &&& x.arrived
    doneBar := BitVec.ofNat 16 dn ||| x.doneBar
    donePhase := x.donePhase
    sh := Vector.ofFn fun i : Fin 32 => ShapeRec.ofWords (w (0x3C0 + 16 * i.val)) (w (0x3C8 + 16 * i.val))
    deps := (List.range depEntries).map fun n => (savedDep bs x n).getD DepEntry.free
    t := Vector.ofFn fun i : Fin 64 => savedTile bs x i.val (base + i.val)
    sendPos := Vector.ofFn fun i : Fin 128 => BitVec.ofNat 16 (fieldAt bs (0x21C0 + 2 * i.val) 2)
    recvPos := Vector.ofFn fun i : Fin 128 => BitVec.ofNat 16 (fieldAt bs (0x22C0 + 2 * i.val) 2)
    m := Vector.ofFn mask
    launch := w 32
    blklin := lin
    evq := (b.evq.filter fun e => !(x.evq.any fun y => y.id = e.id)) ++ x.evq.map fun e => { e with slot := x.fresh base e.slot }
    held := x.held.map fun h => { h with
      tiles := h.tiles.map fun p => (p.1, move p.2)
      dsts := h.dsts.map fun p => (p.1, x.fresh base p.2) }
    superseded := x.superseded.map fun p => (p.1, move p.2)
    msgs := x.msgs.map fun m => { m with snap := move m.snap }
    attempt := x.attempt
    started := x.started + (s.dtime - x.at_) }

/-- A unit of an access that is issued again: it is checked and placed anew; one that faults poisons, or traps when its turn comes (R119). -/
def replaceUnit (e : Env) (need : Need) (s : State) (u : EvUnit) : Res EvUnit :=
  if u.done || u.place.isEmpty then .ok s u
  else match (checkHandle s e u.image need).andThen fun s h =>
      if !inBound (refOff u.image) u.place.length h.bound then .bad s (FaultInfo.atRef causeBound u.image)
      else placeBytes s e h u.image need 2 u.place.length with
    | .wait s => .wait s
    | .bad s f => .ok s { u with bad := some f }
    | .ok s ps => .ok s { u with place := ps }

/-- The events of a loaded block, generated again (R119). -/
def replaceEvents (e : Env) (s : State) (es : List Ev) : Res (List Ev) :=
  let unit (need : Need) (s : State) (us : List EvUnit) (u : EvUnit) : Res (List EvUnit) :=
    (replaceUnit e need s u).andThen fun s v => .ok s (us ++ [v])
  resFold (fun s out x => (resFold (unit x.need) s [] x.units).andThen fun s us => .ok s (out ++ [{ x with units := us }])) s [] es

/-! ## System mode (R141) -/

/-- Bounds of the code section of a system routine's code object. -/
def routineCode (s : State) (ctx : Nat) (code : W64) : Res (Nat × Nat) :=
  (readRef s (dispEnv ctx) code 0 64 false Need.none).andThen fun s bs => .ok s (fieldAt bs 16 4, fieldAt bs 20 4)

/-- The block of a context enters system mode for a request, once its header is read; a header that cannot be read is a failed save or
restore. Its GMMAs that have not begun are withdrawn, and are issued afresh afterwards (R198). An entry that is no multiple of 8 is taken as
it is, and the fetch is unaligned (DESIGN CHOICE, log 17). -/
def enterRoutine (s : State) (k : BKey) (b : Block) (req : SysReq) (m : SysMode) : State :=
  let b1 : Block := { b with sys := some m, sleep := none, status := b.status ||| 0x200 }
  match routineCode s (s.ctxNumOf b) req.code with
  | .wait s => s
  | .bad s f => takeTrap (s.setBlock k b1) k b1 f
  | .ok s (off, len) =>
    let s := s.withdraw b1.held
    let b2 : Block := { b1 with
      pc := req.entry
      held := b1.held.map fun h => { h with given := false }
      sys := some { m with codeOff := off, codeLen := len } }
    { s with savea := kvSet BKey.ord k (req.savea &&& 0x00FFFFFFFFFFFF80) s.savea }.setBlock k b2

/-- The system mode a request names, before its routine's header is read. -/
def requestMode (req : SysReq) (userPc : W32) (loaded : Bool) : SysMode :=
  { code := req.code, codeOff := 0, codeLen := 0, userPc := userPc, loaded := loaded, saved := false, resume := req.resume }

/-- A request to pre-empt the block of a context, at a boundary: a due diversion comes first (R139), a GMMA that has begun and a
BARW that has been woken finish first (R198), a SWEEP completes early (R286). -/
def preempt (s : State) (k : BKey) (req : SysReq) : State :=
  match s.block? k with
  | none => s
  | some b =>
    let woken : Bool := match b.sleep with | some (.barw _ _ (some _)) => true | _ => false
    if b.sys.isSome || b.ended.isSome || s.partDue k b || s.leadDue k b || woken then s
    else if s.divertDue b then
      let s1 := divertBlock s k
      match s1.block? k with
      | none => s1
      | some b1 => if b1.ended.isSome || s1.divertDue b1 then s1 else enterRoutine s1 k b1 req (requestMode req b1.pc true)
    else enterRoutine s k b.endEarly req (requestMode req b.endEarly.pc true)

/-- The saved block's needs fit a context's share with what it can borrow (R141, R165). -/
def State.fitsSaved (s : State) (k : BKey) (x : Saved) : Bool :=
  (borrow { slots := x.needs.2.2, bytes := x.needs.1, acc := x.needs.2.1 } (s.core k.core).win []
    ((s.lendable k.core).filter fun c => c ≠ k.slot)).isSome

/-- A context may take a saved block: a free one of its launch's partition that has room for it. -/
def State.mayResume (s : State) (l : Launch) (k : BKey) (x : Saved) : Bool :=
  k.core < s.coreCount && k.slot < Config.contextsPerCore && (s.ctx l.man.ctx).part.contains k.core && s.contextFree k l && s.fitsSaved k x

/-- Contexts for the saved blocks of a cooperative launch in the cluster of k, of its number: each on the core that it had, x in k. -/
def samePlaces (k : BKey) (xs : List Saved) : List (BKey × Saved) := xs.map fun x => (partnerKey k (coreInCluster x.key.core), x)

/-- The same blocks on the cores from k's on, in their order. -/
def nextPlaces (s : State) (k : BKey) (l : Launch) (xs : List Saved) : List (BKey × Saved) :=
  ((s.coopCores k l).map fun c => { k with core := c }).zip xs

/-- Where the saved blocks that resume with x go: a block of a cooperative launch joins the members that stand in the set of k, unless one of its
blocks was saved from a core that leaves the partition; or the launch is placed whole in the cluster (R20, R300, R311). Empty when the contexts do
not allow it. -/
def State.resumePlaces (s : State) (l : Launch) (k : BKey) (x : Saved) : List (BKey × Saved) :=
  let ok (ps : List (BKey × Saved)) : Bool := ps.all fun p => s.mayResume l p.1 p.2
  let members := s.blocks.filter fun p => p.2.launch = l.num
  let moves : Bool := s.saved.any fun y => y.launch = l.num && (s.ctx l.man.ctx).leaving.contains y.key.core
  if !l.coop || !members.isEmpty then
    if ok [(k, x)] && (!l.coop || (!moves && members.all fun p => sameSet k p.1)) then [(k, x)] else []
  else
    let xs := x :: s.saved.filter fun (y : Saved) => y.launch = l.num && y.id ≠ x.id
    if coreInCluster x.key.core = coreInCluster k.core && ok (samePlaces k xs) then samePlaces k xs
    else if (nextPlaces s k l xs).length = xs.length && ok (nextPlaces s k l xs) then nextPlaces s k l xs
    else []

/-- The contexts take their saved blocks: each enters the resume routine, with its own save area. -/
def resumeAll (l : Launch) (req : SysReq) : State → List (BKey × Saved) → State
  | s, [] => s
  | s, (k, x) :: ps =>
    let r : SysReq := { req with savea := if req.resume = some x.id then req.savea else x.savea, resume := some x.id }
    resumeAll l req (enterRoutine s k (startBlock l x.blklin x.attempt s.dtime) r (requestMode r 0 false)) ps

/-- A request to resume a saved block in a context. -/
def resumeSaved (s : State) (k : BKey) (req : SysReq) (id : Nat) : State :=
  match s.saved.find? fun x => x.id = id with
  | none => s
  | some x => match s.launch? x.launch with
    | none => s
    | some l => resumeAll l req s (s.resumePlaces l k x)

/-- Serves a request for system mode. -/
def serveRequest (s : State) (k : BKey) (req : SysReq) : State :=
  match req.resume with
  | none => preempt s k req
  | some id => resumeSaved s k req id

/-- SYSTEM_MODE_REQUEST (R141). -/
def execSystemModeRequest (k : BKey) (req : SysReq) (s : State) : Out := .next (serveRequest s k req)

/-- Runs a system-only word in system mode; in user mode it traps PRIV (R141). -/
def onSystem (i : Instr) (s : State) (f : BKey → Block → SysMode → Out) : Out :=
  onBlock s fun k b => match b.sys with
    | none => trapOut s k b (wordFault causePriv i)
    | some m => f k b m

/-- A physical range is populated (R128, R140). -/
def State.populated (s : State) (a n : Nat) : Bool :=
  (List.range ((n + 127) / 128)).all fun i => (s.spaceOf (a + 128 * i)).isSome

/-- A memory failure of SAVECTX or LOADCTX retires the block with PREEMPT (R141). -/
def failSystem (s : State) (k : BKey) (b : Block) : Out := .next (takeTrap s k b (FaultInfo.plain causePreempt))

/-- A part of a GMMA of the lead in context k has still to run, in a resident block or a saved one (R198). -/
def State.partsOut (s : State) (k : BKey) (b : Block) : Bool :=
  let mine (g : GPart) : Bool := g.lead = coreInCluster k.core
  ((s.setMembers k b.launch).any fun p => p.2.parts.any mine)
    || s.saved.any fun x => sameSet k x.key && x.launch = b.launch && x.parts.any mine

/-- The save may complete: every event of completed instructions is performed, but for what waits for an engine; the rest is recorded and
generated again; and every part of a GMMA of this lead has run (R119, R198). -/
def State.maySave (s : State) (k : BKey) (b : Block) : Bool :=
  (b.keptEvents.all fun e => e.kind = .relPoint) && !s.partsOut k b

/-- What the Dispatcher records of a block at its save, beside its area. -/
def savedRecord (s : State) (k : BKey) (b : Block) : Saved :=
  let u := b.usageBut none
  { id := s.evSeq
    launch := b.launch
    blklin := b.blklin
    savea := s.saveaOf k
    key := k
    at_ := s.dtime
    wrap := b.inWrap
    needs := (u.bytes, u.acc, u.slots)
    started := b.started
    attempt := b.attempt
    evq := b.evq
    held := b.held
    superseded := b.superseded
    unwritten := (List.finRange 64).filterMap fun t => if (b.gt t).any fun x => x.unwritten then some t.val else none
    msgs := b.msgs
    parts := b.parts
    raws := (List.finRange 64).filterMap fun t => (b.gt t).bind fun x => if x.cmp then some (t.val, x.raw) else none
    storage := (List.finRange 64).filterMap fun t => (b.gt t).map fun x =>
      (t.val, (match x.link with | some (_, axis) => axis | none => false), x.srows, x.scols, x.phys)
    names := b.deps.map fun d => d.name
    arrived := b.arrived
    doneBar := b.doneBar
    donePhase := b.donePhase
    whole := false
    demoted := false }

/-- Lines of a block's tiles that hold an armed error of its core's stores: the save reads every one of them (R325). -/
def State.armedIn (s : State) (k : BKey) (b : Block) : List (Nat × Nat) :=
  (s.core k.core).armed.filter fun p => b.t.toList.any fun t => t.any fun x => !(x.armedLines [p]).isEmpty

/-- SAVECTX (R119, R140, R141). -/
def execSavectx (s : State) : Out :=
  onSystem .savectx s fun k _ m =>
    let s1 := settle s k
    match s1.block? k with
    | none => .next s1
    | some b =>
      if b.ended.isSome || !s1.maySave k b then .next s1
      else
        let area := saveArea s1 k b m.userPc
        let pa := (s1.saveaOf k).toNat
        let hit := s1.armedIn k b
        if !hit.isEmpty then
          let c := s1.core k.core
          failSystem (hit.foldl (fun s p => noteError s (128 * p.2))
            (s1.setCore k.core { c with armed := c.armed.filter fun p => !hit.contains p })) k b
        else if !s1.populated pa area.length then failSystem s1 k b
        else
          let s2 := { (s1.dropPosts k).writeHomes ((List.range area.length).map (pa + ·)) area with
            evSeq := s1.evSeq + 1
            saved := (s1.saved.filter fun (y : Saved) => !(y.launch = b.launch && y.blklin = b.blklin)) ++ [savedRecord s1 k b] }
          .next (s2.setBlock k { b with
            sys := some { m with saved := true }
            evq := []
            held := []
            superseded := []
            msgs := []
            parts := [] }.advance)

/-- The needs that a header records: tile-store bytes, accumulator entries, tiles. -/
def headerNeeds (bs : List Byte) : Usage := { bytes := fieldAt bs 40 4, acc := fieldAt bs 44 4, slots := fieldAt bs 48 2 }

/-- The context on the lowest core that a launch has in the set of k. -/
def State.lowestMember (s : State) (k : BKey) (launch : Nat) : BKey :=
  (s.setMembers k launch).foldl (fun m p => if p.1.core < m.core then p.1 else m) k

/-- A block of the launch that runs, or has been loaded, stands in the set of k; one that has ended does not count. -/
def State.setLive (s : State) (k : BKey) (launch : Nat) : Bool :=
  (s.setMembers k launch).any fun p => p.1 ≠ k && p.2.ended.isNone && !(p.2.sys.any fun m => !m.loaded)

/-- The barrier set of a block whose group was saved: its shared fields come from the area of the block on the lowest core, once for the
group (R247). A set that other blocks of the launch went on using keeps them. -/
def loadBarriers (s : State) (k : BKey) (b : Block) (bs : List Byte) (x : Saved) : State :=
  let set := (globalCluster k.core, k.slot)
  if s.setLive k b.launch || !(x.whole || kvGet set s.barOwner ≠ some b.launch) then s
  else
    let low := s.lowestMember k b.launch
    let words := if low = k then (bs.drop 0x340).take 128 else s.mem.readN ((s.saveaOf low).toNat + 0x340) 128
    let s1 := { s.setBarSet k (Vector.ofFn fun i : Fin 16 => Barrier.ofWord (fieldAt words (8 * i.val) 8)) with
      barOwner := kvSet (fun p => p.1 * 4 + p.2) set b.launch s.barOwner }
    s1.onSavedSet x.key b.launch fun (y : Saved) => { y with whole := false }

/-- The partner of a waiting message is gone: no block of the launch stands on its core or is saved from there (R253). -/
def State.partnerGone (s : State) (k : BKey) (b : Block) (m : Msg) : Bool :=
  (s.partner? k b m.core.val).isNone && !(s.saved.any fun y => y.launch = b.launch && coreInCluster y.key.core = m.core.val)

/-- The parts of a loaded block: on another core they arrive as failed (R197). -/
def loadParts (s : State) (k : BKey) (b : Block) (x : Saved) : State :=
  if x.key.core = k.core then s.setBlock k { b with parts := x.parts ++ b.parts }
  else partArrivals (s.setBlock k b) k causeGangPartner x.parts

/-- The block that a LOADCTX has loaded, in its context: its barriers, a cancel that reached its launch, its parts, and a trap
of a message whose partner is gone (R253). -/
def installLoaded (s : State) (k : BKey) (b : Block) (bs : List Byte) (x : Saved) : State :=
  let cancelled : Bool := match s.launchOf b with | some l => l.status ≠ 0 && l.status ≠ lsExpired | none => false
  let s1 := loadParts (loadBarriers s k b bs x) k { b with cancelled := cancelled } x
  match s1.block? k with
  | none => s1
  | some b1 =>
    if b1.ended.isSome then s1
    else match b1.msgs.find? fun m => s1.partnerGone k b1 m with
      | some m => killBlock s1 k (b1.upTo m.id) (FaultInfo.atTile causeGangPartner m.tile 0 0) m.pc
      | none => s1

/-- What the Dispatcher records of the block that a LOADCTX loads: of the one that the routine resumes, or of the block that stands in the
context, saved or not. -/
def State.recordOf (s : State) (k : BKey) (b : Block) (m : SysMode) : Saved :=
  match s.saved.find? fun (x : Saved) => m.resume = some x.id with
  | some x => x
  | none => (s.saved.find? fun (x : Saved) => x.launch = b.launch && x.blklin = b.blklin).getD (savedRecord s k b)

/-- What a LOADCTX waits for: every older access of the routine, but for the points of its engine commands (R106, R119); the block's own accesses
that wait for data are loaded again. -/
def Block.loadWaits (b : Block) : Bool := b.evq.any fun e => !(e.kind = .relPoint || e.waiting)

/-- LOADCTX (R139, R140, R141). The barriers of a group are loaded before anything that ends the block (R251). A PC in the area that is no
multiple of 8 is taken as it is, and the fetch is unaligned (DESIGN CHOICE, log 17). -/
def execLoadctx (s : State) : Out :=
  onSystem .loadctx s fun k _ m =>
    let s := settle s k
    match s.block? k with
    | none => .next s
    | some b =>
      let x := s.recordOf k b m
      let pa := (s.saveaOf k).toNat
      let read (n : Nat) : List Byte := s.mem.readN pa n
      let bad (n : Nat) : Bool := !s.populated pa n || (List.range ((n + 127) / 128)).any fun i => s.eccAt (pa + 128 * i)
      let s0 := if bad 0x3C0 then s else loadBarriers s k b (read 0x3C0) x
      let met (n : Nat) : State := s0.firedHomes ((List.range ((n + 127) / 128)).map fun i => pa + 128 * i)
      if b.ended.isSome || b.loadWaits then .next s
      else if bad savedTilesAt then failSystem (met savedTilesAt) k b
      else
        let head := read 0x21C0
        let total := fieldAt head 8 8
        let w0 := fieldAt head 0 8
        let sized := endOfTiles ((List.range 64).map fun n => savedTile head x n 0) (tilesAt w0)
        match borrow (headerNeeds head) (s.core k.core).win b.loans ((s.lendable k.core).filter fun c => c ≠ k.slot) with
        | none => failSystem s0 k b
        | some loans =>
          let lanes : Bool := !w0.testBit 16 || fld 32 32 w0 = Config.laneWidth
          if w0 % 2 ^ 16 ≠ 1 || total ≠ sized || !lanes then failSystem s0 k b
          else if bad total then failSystem (met total) k b
          else
            let bs := read total
            let pc := BitVec.ofNat 32 (fieldAt bs 16 8)
            let b1 : Block := { loadArea bs s b x with
              loans := loans
              sys := some { m with
                loaded := true
                saved := false
                userPc := pc
                resume := some x.id } }
            let s1 := { s0 with
              saved := s0.saved.filter fun y => y.id ≠ x.id
              freeCount := s.freeCount + 64 + x.superseded.length }
            if b1.inWrap && b1.wbend ≤ s.dtime then
              .next (killBlock (s1.setBlock k b1) k { b1.discard with sys := none, parts := x.parts ++ b.parts } (FaultInfo.plain causeDeadline) pc)
            else match replaceEvents (s1.envOf k b1) s1 b1.evq with
              | .wait s2 => .next { s with hvPosts := s2.hvPosts, mem := s2.mem, port0 := s2.port0, port1 := s2.port1, freeCount := s2.freeCount }
              | .bad s2 _ => failSystem s2 k b
              | .ok s2 es => .next (installLoaded s2 k { b1.advance with evq := es } bs x)

/-- The last block of a launch has left a barrier set: those saved from it are a group saved whole (R247). -/
def State.setLeft (s : State) (k : BKey) (b : Block) : State :=
  if !(s.setMembers k b.launch).isEmpty then s
  else s.onSavedSet k b.launch fun (x : Saved) => { x with whole := true }

/-- ERET (R141): a saved block leaves the context free; a block in place runs on at its PC, or is diverted with WPC its PC
(R139). -/
def execEret (s : State) : Out :=
  onSystem .eret s fun k b m =>
    if m.saved || !m.loaded then
      let s1 := settle s k
      match s1.block? k with
      | none => .next s1
      | some b1 =>
        if b1.ended.isSome || !(b1.evq.all fun e => e.kind = .relPoint) then .next s1
        else
          -- parts that came after the save are the saved block's
          let mine (x : Saved) : Bool := x.launch = b1.launch && x.blklin = b1.blklin
          let s2 : State := { s1.leaveRescues k with
            saved := s1.saved.map fun (x : Saved) => if mine x then { x with parts := x.parts ++ b1.parts } else x
            late := s1.late ++ if b1.evq.isEmpty then [] else [b1.evq] }
          .next (startStaged (((s2.dropPosts k).dropBlock k).setLeft k b1) k.core)
    else
      let b1 := b.leaveSystem m
      let s1 := s.setBlock k b1
      if m.resume.isSome && s1.divertDue b1 then
        .next (divertAt s1 k b1 b1.pc)
      else .next s1

/-! ## Rescue slices (R310) -/

/-- Length of a rescue slice in ns. -/
def rescueLength : Nat := 20000

/-- The WAITV in which the block of a context sleeps. -/
def State.waiting? (s : State) (k : BKey) : Option Wait :=
  match s.block? k with
  | some b => (match b.sleep with | some (.waitv w) => some w | _ => none)
  | none => none

/-- The block of a context sleeps in WAITV and its inversion window has ended. -/
def State.inverted (s : State) (k : BKey) : Bool := (s.waiting? k).any fun w => w.due < s.dtime

/-- A saved block is of the waiter's job and of lower priority. -/
def State.rescuable (s : State) (k : BKey) (x : Saved) : Bool :=
  match (s.block? k).bind s.launchOf, s.launch? x.launch with
  | some w, some l => l.man.job = w.man.job && l.man.ctx = w.man.ctx && l.man.prio < w.man.prio
  | _, _ => false

/-- A waiter may not yet earn its next slice: it has one, or had one within its inversion window (R310, R326). -/
def State.sliceEarly (s : State) (k : BKey) : Bool :=
  (s.rescues.any fun r => r.waiter = k) || match kvGet k s.rescued with | some t => s.dtime < t | none => false

/-- RESCUE_SLICE: each waiter earns at most one slice in an inversion window. -/
def execRescueSlice (k : BKey) (saved : Nat) (tgt : BKey) (req : SysReq) (s : State) : Out :=
  match s.saved.find? fun x => x.id = saved with
  | none => .next s
  | some x =>
    if s.sliceEarly k || !s.inverted k || !s.rescuable k x then .next s
    else
      let s1 := resumeSaved s tgt req saved
      if (s1.block? tgt).any fun b => b.sys.any fun m => m.resume = some saved then
        let w := match s.waiting? k with | some w => w.window | none => 0
        .next { s1 with
          rescues := s1.rescues ++ [{ waiter := k, target := tgt, ends := s.dtime + rescueLength }]
          rescued := kvSet BKey.ord k (s.dtime + w) s1.rescued }
      else .next s1

/-- A rescue slice whose end has come: after 20 µs of DTIME, or when its waiter no longer sleeps in WAITV. -/
def State.sliceOver (s : State) (r : Rescue) : Bool := r.ends ≤ s.dtime || (s.waiting? r.waiter).isNone

/-- RESCUE_SLICE_END: the rescued context is pre-empted again. -/
def execRescueSliceEnd (req : SysReq) (s : State) : Out :=
  match s.rescues.find? s.sliceOver with
  | none => .next s
  | some r =>
    let ended (s : State) : State := { s with rescues := s.rescues.erase r }
    match s.block? r.target with
    | none => .next (ended s)
    | some b =>
      if b.ended.isSome then .next (ended s)
      else
        let s1 := preempt s r.target { req with resume := none }
        let entered : Bool := match s1.block? r.target with | some b => b.sys.isSome && s.block? r.target ≠ some b | none => true
        .next (if entered then ended s1 else s1)

/-! ## Bookkeeping of a core -/

/-- MICRO_OP: an entry of the dependency table goes from waiting to running to done, and is freed (R164), once what it stands for has
completed. -/
def execMicroOp (k : BKey) (ent : Nat) (s : State) : Out :=
  match s.block? k with
  | none => .next s
  | some b => match b.deps[ent]? with
    | none => .next s
    | some d =>
      if !b.completed d then .next s
      else if d.state = 0 then .next s
      else if d.state = 3 then .next (if b.freeEntry ent then s.setBlock k { b with deps := b.deps.set ent DepEntry.free } else s)
      else .next (s.setBlock k { b with deps := b.deps.set ent { d with state := d.state + 1 } })

/-- LOGICAL_TIME_ADVANCE: a core's lease clock moves on (R143). -/
def execLogicalTimeAdvance (core : Nat) (s : State) : Out :=
  if core < s.coreCount then .next (s.setCore core { s.core core with logical := (s.core core).logical + 1 }) else .next s

end Sys2Proof.Machine
end

