-- ==== Sys2Proof/Machine/HostCmd.lean ====
section
/-! DEFINITION. The host ports: host commands and their ring, partition resizes with the demotion of COREPIN handles, host accesses to
device memory, and the fault ring's head (R79, R84, R85, R87, R92, R100, R311, R313 to R317). -/

namespace Sys2Proof.Machine

/-! ## The command ring (R314, R316) -/

/-- A host command: its ring count and its eight words. -/
structure HostCmd where
  pos : Nat
  words : List Nat
  deriving DecidableEq, Repr

/-- Word i of a command. -/
def HostCmd.w (c : HostCmd) (i : Nat) : Nat := c.words.getD i 0

/-- Fields of word 0 (R316). -/
def HostCmd.op (c : HostCmd) : Nat := fld 0 8 (c.w 0)
def HostCmd.ctx (c : HostCmd) : Nat := fld 16 16 (c.w 0)

/-- Host physical place of the command of a ring count, as a physical address. -/
def Port.cmdPlace (p : Port) (n : Nat) : Nat := hostPA (ringBase p.hcrb + 64 * (n % ringSize p.hcrb))

/-- The command of a ring count. -/
def State.hostCmd (s : State) (port n : Nat) : HostCmd :=
  { pos := n, words := (List.range 8).map fun i => s.mem.readLE ((s.port port).cmdPlace n + 8 * i) 8 }

/-- Ring counts from the head to the tail that are not completed, at most one ring of them. -/
def Port.pending (p : Port) : List Nat :=
  ((List.range (min (p.hcrt - p.hcrh).toNat (ringSize p.hcrb))).map fun i => (p.hcrh.toNat + i) % 2 ^ 32).filter fun n =>
    !p.done.contains n

/-- The head moved past the commands completed ahead of it. -/
def Port.passDone (p : Port) : Nat → Port
  | 0 => p
  | fuel + 1 =>
    if p.done.contains p.hcrh.toNat then
      Port.passDone { p with hcrh := p.hcrh + 1, done := p.done.filter fun n => n ≠ p.hcrh.toNat } fuel
    else p

/-- A command completes: word 7 takes STATUS and DONE, the head advances, and the relay cores see an internal event (R295, R314,
R316). -/
def completeCmd (s : State) (port : Nat) (c : HostCmd) (status : Nat) : State :=
  let p := s.port port
  let s1 := { s with
    mem := s.mem.writeLE (p.cmdPlace c.pos + 56) 8 (status + 256)
    internal := s.internal ++ [ievHost] }
  let p1 := { p with done := p.done ++ [c.pos] }
  s1.setPort port (p1.passDone p1.done.length)

/-- STATUS codes of host commands (R316). -/
def hcOk : Nat := 0
def hcBusy : Nat := 1
def hcNoTag : Nat := 2
def hcBad : Nat := 3
def hcFull : Nat := 4

/-- The zero bits of a command are zero: those of word 0, those that the masks of words 1 to 5 leave out, and word 6 (R316). -/
def HostCmd.clean (c : HostCmd) (masks : List Nat) : Bool :=
  fld 8 8 (c.w 0) = 0 && c.w 6 = 0 && (List.range 5).all fun i => c.w (i + 1) % 2 ^ 64 &&& masks.getD i 0 = c.w (i + 1)

/-- n low bits set. -/
def ones (n : Nat) : Nat := 2 ^ n - 1

/-- What a host command does: it completes with a status, or goes on waiting at the head of the ring. -/
inductive CmdRes where
  | done (s : State) (status : Nat)
  | wait (s : State)

/-- Runs the command at the head of a port's ring when its OP is one of a row's. -/
def atHead (port : Nat) (s : State) (mine : Nat → Bool) (masks : List Nat) (f : HostCmd → CmdRes) : Out :=
  match (s.port port).pending with
  | [] => .next s
  | n :: _ =>
    let c := s.hostCmd port n
    if 2 ≤ port || (s.port port).down || !mine c.op then .next s
    else if !c.clean masks then .next (completeCmd s port c hcBad)
    else match f c with
      | .done s st => .next (completeCmd s port c st)
      | .wait s => .next s

/-! ## CTXSET (R317) -/

/-- A block of a context is resident, or one is staged for it. -/
def State.ctxOccupied (s : State) (ctx : Nat) : Bool :=
  (s.blocks.any fun p => s.ctxNumOf p.2 = ctx) || s.cores.any fun p => match p.2.staged with
    | some (n, _, _) => (match s.launch? n with | some l => l.man.ctx = ctx | none => false)
    | none => false

/-- An engine command of a context is outstanding. -/
def State.ctxEngines (s : State) (ctx : Nat) : Bool :=
  let die (d : Die) : Bool :=
    (d.link.any fun c => c.ctx = ctx) || (d.bind.any fun c => c.ctx = ctx) || (d.droverCmds.any fun c => c.ctx = ctx)
      || (d.quar.any fun q => q.ctx = ctx)
  die s.die0 || die s.die1

/-- A bindery command of a context is outstanding. -/
def State.binderyBusy (s : State) (ctx : Nat) : Bool :=
  (s.die0.bind.any fun c => c.ctx = ctx) || s.die1.bind.any fun c => c.ctx = ctx

/-- Bits of ring registers that are kept: BASE and SZ (R314). -/
def ringMask : W64 := BitVec.ofNat 64 (ones 44 * 2 ^ 12 + 15)

/-- Writes a context descriptor field; its reserved bits ignore the write (R6). -/
def ctxField (s : State) (ctx i : Nat) (v : W64) : CmdRes :=
  let c := s.ctx ctx
  let ok (c : Ctx) : CmdRes := .done (s.setCtx ctx c) hcOk
  match i with
  | 0 => .done (dropHandles (s.setCtx ctx { c with htb := v &&& 0x00FFFFFFFFFFF000 }) ctx true 0) hcOk
  | 1 => .done (dropHandles (s.setCtx ctx { c with htn := v &&& 0x1FFFFF }) ctx true 0) hcOk
  | 2 =>
    let s1 := settleCtx s ctx
    if s1.ctxBusy ctx || s1.ctxHeld ctx none then .wait s1 else .done (writeXroot s1 ctx v) hcOk
  | 3 => if s.ctxOccupied ctx || s.ctxEngines ctx then .done s hcBusy else ok { c with hroot := v &&& ~~~ (BitVec.ofNat 64 (3 * 2 ^ 58)) }
  | 4 => if s.binderyBusy ctx then .done s hcBusy else ok { c with bqb := v &&& 0x00FFFFFFFFFFF000 }
  | 5 => if s.binderyBusy ctx then .done s hcBusy else ok { c with bqn := v &&& 0x1FFF }
  | 6 => ok { c with cfqb := v &&& ringMask }
  | 7 => ok { c with cfqh := v.setWidth 32 }
  | _ => .done s hcBad

/-- CTXSET (R317). An undefined OP is completed here with BADCMD, whatever its operands (R316). -/
def execCtxset (port : Nat) (s : State) : Out :=
  atHead port s (fun op => !(2 ≤ op && op ≤ 8)) [ones 64, ones 64] fun c =>
    if c.op ≠ 1 || (c.w 1 = 7 && 2 ^ 32 ≤ c.w 2) then .done s hcBad
    else ctxField s c.ctx (c.w 1) (BitVec.ofNat 64 (c.w 2))

/-! ## Demotion of COREPIN handles (R85) -/

/-- Handle k of a context as its table holds it, with the place of its entry; none where the table cannot be read. -/
def State.tableHandle (s : State) (ctx k : Nat) : Option (Nat × HEntry) :=
  match stage2 s ctx ((s.ctx ctx).entryAddr k) { Need.none with rd := true } with
  | .ok a _ =>
    if (s.spaceOf a).isNone || s.eccAt a then none
    else
      let w (i : Nat) : Nat := s.mem.readLE (a + 8 * i) 8
      some (a, parseHandle (w 0) (w 1) (w 2) (w 3))
  | _ => none

/-- A piece of a region: offset and length within one page, and its place or the fault of its translation. -/
structure DemotePiece where
  off : Nat
  n : Nat
  place : Except FaultInfo Nat

/-- The pieces of a region from an offset, one for each 4 KiB page, translated through the first stage. -/
def demotePieces (s : State) (e : Env) (h k : Nat) : Nat → Nat → Nat → Res (List DemotePiece)
  | 0, _, _ => .ok s []
  | fuel + 1, off, left =>
    if left = 0 then .ok s []
    else
      let va := h + off
      let n := min left (4096 - va % 4096)
      let rest (s : State) (p : DemotePiece) : Res (List DemotePiece) :=
        (demotePieces s e h k fuel (off + n) (left - n)).andThen fun s ps => .ok s (p :: ps)
      match translate s e (mkRef k off) va 0 Need.store false with
      | .wait s => .wait s
      | .ok s pa => rest s { off := off, n := n, place := .ok pa }
      | .bad s f => rest s { off := off, n := n, place := .error f }

/-- Writes one piece of a window to its backing page, or records the lines that it could not write. A line of the window with an
armed error arrives poisoned (R85, R325). -/
def writeBack (s : State) (ctx k va window : Nat) (p : DemotePiece) : State :=
  let from_ := (List.range p.n).map fun i => window + p.off + i
  match p.place with
  | .ok pa =>
    let bad := (List.range p.n).filter fun i => s.eccAt (window + p.off + i)
    let s1 := s.writeHomes ((List.range p.n).map (pa + ·)) (s.readHomes from_)
    { s1.firedHomes from_ with eccLines := bad.foldl (fun es i => insertNat ((pa + i) / 128) es) s1.eccLines }
  | .error f =>
    let c := s.ctx ctx
    let lines := (List.range p.n).foldl (fun ls i => insertNat ((va + p.off + i) / 128) ls) c.lostLines
    postCtxFault (logMgc (s.setCtx ctx { c with lostLines := lines }) logDemotion k) ctx 4 f.cause f.where_ k

/-- The entry of a handle after its demotion, in memory and in every handle cache of the context: HOME CACHED, DM 1, PCORE a value
that the spec does not state (R79, R85, log 2). -/
def demoteEntry (s : State) (ctx k place : Nat) : State :=
  let pcore := Config.unstated s.freeCount % 256
  let low := s.mem.readLE (place + 16) 8
  let word := low % 2 ^ 37 + 2 ^ 37 + pcore * 2 ^ 40 + low / 2 ^ 48 * 2 ^ 48
  let s1 := s.bumpFree.putNum (place + 16) 8 word
  let c := s1.ctx ctx
  s1.setCtx ctx { c with hcache := c.hcache.map fun p =>
    if p.2.1 = k then (p.1, p.2.1, { p.2.2 with home := 0, dm := true, pcore := pcore }) else p }

/-- A unit of a queued access whose bytes lay in a demoted window goes to its new home (R85): no access is lost. -/
def EvUnit.demoted (window : Nat) (ps : List DemotePiece) (u : EvUnit) : EvUnit :=
  let piece (a : Nat) : Option DemotePiece := ps.find? fun p => window + p.off ≤ a && a < window + p.off + p.n
  let place (a : Nat) : Nat := match piece a with
    | some p => (match p.place with | .ok pa => pa + (a - (window + p.off)) | .error _ => a)
    | none => a
  let fault : Option FaultInfo := u.place.findSome? fun a => (piece a).bind fun p => match p.place with | .error f => some f | .ok _ => none
  if u.done then u
  else { u with place := u.place.map place, bad := match u.bad with | some f => some f | none => fault }

/-- The queued accesses of every block after a demotion. -/
def State.moveUnits (s : State) (window : Nat) (ps : List DemotePiece) : State :=
  { s with blocks := s.blocks.map fun p => (p.1, { p.2 with evq := p.2.evq.map fun e => { e with units := e.units.map (EvUnit.demoted window ps) } }) }

/-- Demotes handle k of a context when it is a valid COREPIN handle of a core that leaves the partition. -/
def demoteHandle (s : State) (ctx k : Nat) : Res Unit :=
  match s.tableHandle ctx k with
  | none => .ok s ()
  | some (place, h) =>
    if h.home ≠ 2 || !(s.ctx ctx).leaving.contains h.pcore || !s.entryValid (s.ctx ctx) h then .ok s ()
    else
      let window := corepinHome h.pcore (Config.tileStoreBytes - (s.core h.pcore).win + h.tsoff)
      let e : Env := { ctx := ctx, core := h.pcore, who := none }
      (demotePieces s e h.base k (h.bound / 4096 + 2) 0 h.bound).andThen fun s ps =>
        let s1 := ps.foldl (fun s p => writeBack s ctx k h.base window p) s
        let s2 := setDemoted (demoteEntry (s1.moveUnits window ps) ctx k place) ctx
        .ok { s2 with saved := s2.saved.map fun x =>
          if (s2.launch? x.launch).any fun l => l.man.ctx = ctx then { x with demoted := true } else x } ()

/-- Demotes every COREPIN handle of the cores that leave, from index k on. -/
def demoteHandles (s : State) (ctx : Nat) : Nat → Nat → Res Unit
  | 0, _ => .ok s ()
  | n + 1, k => (demoteHandle s ctx k).andThen fun s _ => demoteHandles s ctx n (k + 1)

/-! ## PART (R311, R316) -/

/-- Package core numbers of a mask in words 1 to 3. -/
def HostCmd.cores (c : HostCmd) : List Nat := (List.range 192).filter fun n => (c.w (1 + n / 64)).testBit (n % 64)

/-- The staged block of a core goes back unstarted (R306). -/
def returnStaged (s : State) (core : Nat) : State :=
  match (s.core core).staged with
  | none => s
  | some (n, blk, _) =>
    let s1 := s.setCore core { s.core core with staged := none }
    match s1.launch? n with
    | some l => s1.setLaunch { l with begun := l.begun.filter fun b => b ≠ blk }
    | none => s1

/-- Staged blocks of a context return from a list of cores. -/
def returnStagedOn (ctx : Nat) : List Nat → State → State
  | [], s => s
  | c :: cs, s =>
    let mine : Bool := match (s.core c).staged with
      | some (n, _, _) => (s.launch? n).any fun l => l.man.ctx = ctx
      | none => false
    returnStagedOn ctx cs (if mine then returnStaged s c else s)

/-- A block of a context is still to be pre-empted: it lies on a core that leaves, or it belongs to a cooperative launch of which a
block was saved from such a core (R311). -/
def State.resizeWaits (s : State) (ctx : Nat) : Bool :=
  let leaving := (s.ctx ctx).leaving
  s.blocks.any fun p => s.ctxNumOf p.2 = ctx &&
    (leaving.contains p.1.core
      || ((s.launchOf p.2).any fun l => l.coop && s.saved.any fun x => x.launch = l.num && leaving.contains x.key.core))

/-- The cores that left have no window and hold nothing of the context (R85, R316). -/
def finishResize (s : State) (ctx : Nat) : State :=
  let c := s.ctx ctx
  let s1 := s.setCtx ctx { c with leaving := [], hcache := c.hcache.filter fun p => c.part.contains p.1 }
  c.leaving.foldl (fun s n => s.setCore n { s.core n with win := 0 }) s1

/-- PART: sets the partition. Removed cores leave it once their blocks are pre-empted, their staged blocks returned and their
COREPIN handles demoted; until then the command waits (R311). -/
def execPart (port : Nat) (s : State) : Out :=
  atHead port s (fun op => op = 2) [ones 64, ones 64, ones 64] fun c =>
    let new := c.cores
    if new.any fun n => s.coreCount ≤ n then .done s hcBad
    else
      let d := s.ctx c.ctx
      let gone := (d.part.filter fun n => !new.contains n).foldl (fun l n => insertNat n l) (d.leaving.filter fun n => !new.contains n)
      let s1 := returnStagedOn c.ctx gone (s.setCtx c.ctx { d with part := new, leaving := gone })
      if s1.resizeWaits c.ctx then .wait s1
      else if gone.isEmpty then .done s1 hcOk
      else match demoteHandles s1 c.ctx ((s1.ctx c.ctx).handles - 1) 1 with
        | .wait s2 => .wait s2
        | .bad s2 _ => .wait s2
        | .ok s2 _ => .done (finishResize s2 c.ctx) hcOk

/-! ## CANCEL, INVAL, FREPLY, DROVER, HINV, PINWIN (R316) -/

/-- CANCEL (R304, R316). -/
def execCancel (port : Nat) (s : State) : Out :=
  atHead port s (fun op => op = 3) [ones 3, ones 64] fun c =>
    let level := c.w 1
    let width : Nat := if level = 2 then 48 else if level = 4 then 16 else 32
    if !(1 ≤ level && level ≤ 4) || 2 ^ width ≤ c.w 2 then .done s hcBad
    else match cancelLevel s c.ctx level (BitVec.ofNat 64 (c.w 2)) with
      | some s1 => .done s1 hcOk
      | none => .done s hcNoTag

/-- A context uses translations of a VMID and, unless all are named, of an ASID (R86, R88, R92). -/
def Ctx.matches_ (c : Ctx) (vmid asid : Nat) (all : Bool) : Bool :=
  fld 44 14 c.hroot.toNat = vmid && (all || fld 44 16 c.xroot.toNat = asid)

/-- What the TLBs hold of a VMID, of one of its ASIDs or of all, and of the page that holds one 4 KiB page or of all, is dropped (R92). -/
def State.invalidate (s : State) (vmid asid : Nat) (all : Bool) (page : Option Nat) : State :=
  { s with tlb := s.tlb.filter fun t => !(t.vmid = vmid && (all || t.asid = asid) && (page.isNone || page.any fun p => t.va < 4096 * p + 4096 && 4096 * p < t.va + t.size)) }

/-- INVAL: completes once every access that may use a removed translation has been performed or has faulted (R92). -/
def execInval (port : Nat) (s : State) : Out :=
  atHead port s (fun op => op = 4) [ones 34 - 3 * 2 ^ 30, ones 64] fun c =>
    if !(c.w 1).testBit 33 && c.w 2 ≠ 0 then .done s hcBad
    else
      let vmid := fld 16 14 (c.w 1)
      let asid := fld 0 16 (c.w 1)
      let all := (c.w 1).testBit 32
      let hit := (s.ctxs.filter fun p => p.2.matches_ vmid asid all).map fun p => p.1
      let s1 := hit.foldl settleCtx s
      if hit.any fun n => s1.ctxBusy n || s1.ctxHeld n none then .wait s1
      else .done (s1.invalidate vmid asid all (if (c.w 1).testBit 33 then some (c.w 2 / 4096) else none)) hcOk

/-- Answers a waiting entry: served, the access goes on; declined, it meets the fault of R100. The served entry of a block stays until the
block has made its access again, for a write of XROOT waits for it (R87); that of a Drain or of an engine stands in a queue anyway. -/
def replyPost (s : State) (tag : W64) (decline : Bool) : Option State :=
  match s.hvPosts.find? fun p => p.tag = tag && p.posted && !p.declined && !p.served with
  | none => none
  | some p =>
    if decline then some { s with hvPosts := s.hvPosts.map fun q => if q = p then { q with declined := true } else q }
    else if p.who.isSome && !p.drain then some { s with hvPosts := s.hvPosts.map fun q => if q = p then { q with served := true } else q }
    else some { s with hvPosts := s.hvPosts.filter fun q => q ≠ p }

/-- The first FREPLY that waits in a ring: it is performed ahead of the commands before it (R316). -/
def State.firstReply (s : State) (port : Nat) : List Nat → Option HostCmd
  | [] => none
  | n :: ns => if (s.hostCmd port n).op = 5 then some (s.hostCmd port n) else State.firstReply s port ns

/-- FREPLY (R100, R101, R316). -/
def execFreply (port : Nat) (s : State) : Out :=
  if 2 ≤ port || (s.port port).down then .next s
  else match s.firstReply port (s.port port).pending with
    | none => .next s
    | some c =>
      if !c.clean [ones 64, 1] then .next (completeCmd s port c hcBad)
      else match replyPost s (BitVec.ofNat 64 (c.w 1)) (c.w 2 = 1) with
        | some s1 => .next (completeCmd s1 port c hcOk)
        | none => .next (completeCmd s port c hcNoTag)

/-- DROVER: places the MOVE or MKFREE of words 1 to 4 on a die's Drover queue (R283, R316). -/
def execDrover (port : Nat) (s : State) : Out :=
  atHead port s (fun op => op = 6) [ones 64, ones 64, ones 64, ones 64, 1] fun c =>
    let die := c.w 5
    let d := s.die die
    if d.droverFull (fld 16 16 (c.w 1)) then .done s hcFull
    else
      let op := fld 0 16 (c.w 1)
      let cmd : DroverCmd :=
        { id := s.evSeq
          num := if op = 0x10 then moveNumber die d.seqNo else 0
          op := op
          tag := BitVec.ofNat 32 (fld 32 32 (c.w 1))
          ctx := fld 16 16 (c.w 1)
          src := BitVec.ofNat 64 (c.w 2)
          dst := BitVec.ofNat 64 (c.w 3)
          recd := BitVec.ofNat 64 (c.w 4)
          acq := none
          rel := none }
      .done (placeDrover { s with evSeq := s.evSeq + 1 } die cmd) hcOk

/-- HOST_HINV: as an SWR to HINV for the context (R79, R316); the reserved bits of its register read as zero and are ignored. -/
def execHostHinv (port : Nat) (s : State) : Out :=
  atHead port s (fun op => op = 7) [ones 64] fun c =>
    .done (dropHandles s c.ctx ((c.w 1).testBit 63) (fld 0 20 (c.w 1))) hcOk

/-- A block is resident or staged on a core. -/
def State.coreOccupied (s : State) (core : Nat) : Bool := (s.blocks.any fun p => p.1.core = core) || (s.core core).staged.isSome

/-- PINWIN (R84, R316). -/
def execPinwin (port : Nat) (s : State) : Out :=
  atHead port s (fun op => op = 8) [ones 8, ones 64] fun c =>
    let core := c.w 1
    let w := c.w 2
    if 786432 < w || w % 512 ≠ 0 || !(s.ctx c.ctx).part.contains core then .done s hcBad
    else if s.coreOccupied core then .done s hcBusy
    else .done (s.setCore core { s.core core with win := w }) hcOk

/-! ## Host accesses to device memory (R313, R315) -/

/-- First physical address of a die's HDM range; its first 32 KiB are the launch window (R315). -/
def hdmBase (port : Nat) : Nat := port * 0x8000000000

/-- The launch line that a host address of a port names. -/
def windowLine (port pa : Nat) : Option (Fin 512) :=
  if hdmBase port ≤ pa && pa < hdmBase port + 0x8000 then some (Fin.ofNat 512 (256 * port + (pa - hdmBase port) / 128)) else none

/-- HBM of a port's own die. -/
def State.hdm (s : State) (port pa : Nat) : Bool := s.spaceOf pa = some 0 && homeDie pa = port

/-- The line lies in a quarantined bale (R288, R313): its pages are those the directory keeps. -/
def State.quarantinedAt (s : State) (pa : Nat) : Bool :=
  s.directory.any fun d => d.state = .quarantined && d.pages.contains (pa / 4096 * 4096)

/-- The line holds a waymark or lies in a quarantined bale. -/
def State.hiddenAt (s : State) (pa : Nat) : Bool := (s.markAt pa).isSome || s.quarantinedAt pa

/-- A byte as the host reads it: none where the data arrive marked poisoned, or where nothing answers. -/
def hostByte (s : State) (port pa : Nat) : Option Byte :=
  match windowLine port pa with
  | some i => some (s.lines[i].bytes.getD (pa % 128) 0)
  | none => if !s.hdm port pa || s.hiddenAt pa || s.eccAt pa then none else some (s.mem.read pa)

/-- The host takes the window's lines that it reads (R315). -/
def ownLines (port : Nat) : List Nat → State → State
  | [], s => s
  | pa :: ps, s => match windowLine port pa with
    | none => ownLines port ps s
    | some i => ownLines port ps { s with lines := s.lines.set i.val { s.lines[i] with hostOwned := true } }

/-- HOST_MEM_READ (R278, R313, R315). -/
def execHostMemRead (port pa n : Nat) (s : State) : Out :=
  if 2 ≤ port || (s.port port).down then .next s
  else
    let ps := (List.range n).map (pa + ·)
    let read := ps.filter fun a => (windowLine port a).isNone && s.hdm port a && !s.hiddenAt a
    .next (ownLines port ps { s.firedHomes read with hostRead := ps.map (hostByte s port) })

/-- Writes one byte for the host: into a launch line, through the host's cache (R315), or into HBM. -/
def hostPut (s : State) (port pa : Nat) (v : Byte) : State :=
  match windowLine port pa with
  | some i =>
    { s with lines := s.lines.set i.val (s.lines[i].hostWrite (pa % 128) v) }
  | none => if !s.hdm port pa || s.hiddenAt pa then s else s.writeHomes [pa] [v]

/-- Writes bytes in rising order; each line that is hidden from the host is logged once (R313). -/
def hostPuts (port : Nat) : List Byte → Nat → State → State
  | [], _, s => s
  | v :: vs, pa, s => hostPuts port vs (pa + 1) (hostPut s port pa v)

/-- Lines of an access that are hidden from the host. -/
def State.hiddenLines (s : State) (port pa n : Nat) : List Nat :=
  ((List.range n).map (pa + ·)).foldl (fun ls a =>
    if (windowLine port a).isNone && s.hdm port a && s.hiddenAt a then insertNat (a / 128) ls else ls) []

/-- HOST_MEM_WRITE (R313, R315). A write of a whole line replaces an uncorrectable one (R330). -/
def execHostMemWrite (port pa : Nat) (bytes : List Byte) (s : State) : Out :=
  if 2 ≤ port || (s.port port).down then .next s
  else
    let hidden := s.hiddenLines port pa bytes.length
    let s1 := hostPuts port bytes pa s
    let whole (l : Nat) : Bool := pa ≤ 128 * l && 128 * l + 128 ≤ pa + bytes.length && !hidden.contains l && s.hdm port (128 * l)
    let s2 := { s1 with eccLines := s1.eccLines.filter fun l => !whole l }
    .next (hidden.foldl (fun s l => logMgc s logHostWrite (128 * l)) s2)

/-! ## The fault ring's head, BAR0 and host memory (R314, R318) -/

/-- Postings that waited for a place in the fault ring of a port go ahead, oldest first, while there is room (R318). -/
def postWaiting (port : Nat) : List HvPost → State → State
  | [], s => s
  | p :: ps, s =>
    let q := s.port port
    if p.posted || p.port ≠ port || q.hvFull then postWaiting port ps s
    else
      let s1 := (s.writeHvEntry port p).1
      postWaiting port ps { s1 with hvPosts := s1.hvPosts.map fun x => if x = p then { x with posted := true } else x }

/-- The host frees places of the hypervisor fault ring (R314). -/
def freeHv (port : Nat) (v : W32) (s : State) : State :=
  let s1 := s.setPort port { s.port port with hfqh := v }
  postWaiting port s1.hvPosts s1

/-- HFQH (R314). -/
def execHfqh (port : Nat) (v : W32) (s : State) : Out :=
  if 2 ≤ port || (s.port port).down then .next s else .next (freeHv port v s)

/-- A host write of 8 bytes to a register of BAR0 (R314): the registers RO and unknown offsets ignore it. -/
def barWrite (port off : Nat) (v : W64) (s : State) : State :=
  let p := s.port port
  if 2 ≤ port || p.down then s
  else if off = 0x000 then s.setPort port { p with hcrb := v &&& ringMask }
  else if off = 0x008 then s.setPort port { p with hcrt := v.setWidth 32 }
  else if off = 0x018 then s.setPort port { p with hfqb := v &&& ringMask }
  else if off = 0x028 then freeHv port (v.setWidth 32) s
  else if 0x1000 ≤ off && off + 8 ≤ 0x2000 then s.setPort port { p with mbox := p.mbox.writeLE (off - 0x1000) 8 v.toNat }
  else s

/-- What a register of BAR0 reads as: RZ bits and unknown offsets 0 (R6, R314). -/
def Port.barValue (p : Port) (off : Nat) : Nat :=
  if off = 0x000 then p.hcrb.toNat
  else if off = 0x008 then p.hcrt.toNat
  else if off = 0x010 then p.hcrh.toNat
  else if off = 0x018 then p.hfqb.toNat
  else if off = 0x020 then p.hfqt.toNat
  else if off = 0x028 then p.hfqh.toNat
  else if 0x1000 ≤ off && off + 8 ≤ 0x2000 then p.mbox.readLE (off - 0x1000) 8
  else 0

/-- A host read of 8 bytes of BAR0 (R314): its data; none of a port that is down. -/
def barRead (port off : Nat) (s : State) : State :=
  let p := s.port port
  { s with hostRead := if 2 ≤ port || p.down then List.replicate 8 none else (leBytes 8 (p.barValue off)).map some }

/-- A store of the host to its own memory, at a host physical address. -/
def hostStore (a : Nat) (bytes : List Byte) (s : State) : State := { s with mem := s.mem.writeN (hostPA a) bytes }

end Sys2Proof.Machine
end

