-- ==== Sys2Proof/Machine/Lane.lean ====
section
/-! DEFINITION. The lane instructions on tiles and masks: majors 0x50 to 0x53 and 0x55 (R205 to R225). -/

namespace Sys2Proof.Machine

/-! ## Checks (R206, R98) -/

/-- Named tiles with their windows, destination first, in the order of R98. -/
abbrev Named := List (TReg × Tile)

/-- Every tile a name list binds, or the first fault; the destination is not read. -/
def takeTiles (s : State) (k : BKey) (b : Block) : List (TReg × Bool) → Except FaultInfo Named
  | [] => .ok []
  | (t, read) :: ts =>
    match (if read then s.source k b t else b.useTile t) with
    | .error f => .error f
    | .ok x => match takeTiles s k b ts with
      | .error f => .error f
      | .ok xs => .ok ((t, x) :: xs)

/-- A destination and its sources. -/
def destAndSources (d : TReg) (as : List TReg) : List (TReg × Bool) := (d, false) :: as.map fun t => (t, true)

/-- FORMAT for a tile of home `a` (R206). -/
def homeFault (ts : Named) : Option FaultInfo := firstFault (ts.map fun p => (p.2.home = .a, causeFormat, p.1))

/-- FORMAT for a format that is not accepted, or differs from that of the first tile (R206, R98). -/
def formatsFault (ok : Efmt → Bool) (ts : Named) : Option FaultInfo :=
  match ts with
  | [] => none
  | d :: _ => firstFault (ts.map fun p => (!ok p.2.fmt || p.2.fmt ≠ d.2.fmt, causeFormat, p.1))

/-- SHAPE for a window that differs from the first (R206). -/
def windowsFault (ts : Named) : Option FaultInfo :=
  match ts with
  | [] => none
  | d :: rest => firstFault (rest.map fun p => (!d.2.sameWindow p.2, causeShape, p.1))

/-- The first fault of several checks. -/
def firstOf : List (Option FaultInfo) → Option FaultInfo
  | [] => none
  | some f :: _ => some f
  | none :: xs => firstOf xs

/-- Runs on with the tiles of a name list once the checks pass. -/
def withTiles (s : State) (k : BKey) (b : Block) (names : List (TReg × Bool)) (check : Named → Option FaultInfo)
    (f : State → Block → Named → Out) : Out :=
  match takeTiles s k b names with
  | .error e => trapOut s k b e
  | .ok ts => match check ts with
    | some e => trapOut s k b e
    | none =>
      let srcs := (ts.zip names).filterMap fun p => if p.2.2 then some p.1 else none
      let e := (s.fired k (srcs.map fun p => p.2)).expandFor k b (srcs.map fun p => p.1)
      f e.1 e.2 ts

/-- The tile at a place of a name list. -/
def Named.tile (ts : Named) (n : Nat) (d : Tile) : Tile := match ts[n]? with | some p => p.2 | none => d

/-- A tile form of equal windows and one accepted format: destination, sources, and the element function of the sources'
encodings (R206). -/
def tileForm (ok : Efmt → Bool) (td : TReg) (as : List TReg) (mask : Option MReg) (mode : Rnd)
    (f : Efmt → Nat → (Nat → Nat) → Nat × W64) (s : State) : Out :=
  onBlock s fun k b =>
    withTiles s k b (destAndSources td as) (fun ts => firstOf [homeFault ts, formatsFault ok ts, windowsFault ts])
      fun s b ts => match ts with
        | [] => .next s
        | d :: srcs => elementwise s k b td d.2 mask mode (srcs.map fun p => p.2.src) fun draw i j =>
            f d.2.fmt draw fun n => ((srcs.map fun p => p.2.get i j)[n]?).getD 0

/-! ## Element arithmetic (R210) -/

/-- An operation of up to three sources. -/
def arithForm (op : EOp) (td : TReg) (as : List TReg) (rnd : Rnd) (sat : Bool) (mask : Option MReg) (s : State) : Out :=
  tileForm Efmt.arith td as mask rnd (fun f draw x => op.run f rnd sat draw (x 0) (x 1) (x 2)) s

/-- TADD (R210). -/
def execTadd (td ta tb : TReg) (rnd : Rnd) (sat : Bool) (mask : Option MReg) (s : State) : Out := arithForm .add td [ta, tb] rnd sat mask s

/-- TSUB (R210). -/
def execTsub (td ta tb : TReg) (rnd : Rnd) (sat : Bool) (mask : Option MReg) (s : State) : Out := arithForm .sub td [ta, tb] rnd sat mask s

/-- TMUL (R210). -/
def execTmul (td ta tb : TReg) (rnd : Rnd) (sat : Bool) (mask : Option MReg) (s : State) : Out := arithForm .mul td [ta, tb] rnd sat mask s

/-- TFMA (R210). -/
def execTfma (td ta tb tc : TReg) (rnd : Rnd) (sat : Bool) (mask : Option MReg) (s : State) : Out :=
  arithForm .fma td [ta, tb, tc] rnd sat mask s

/-- TMIN (R210). -/
def execTmin (td ta tb : TReg) (rnd : Rnd) (sat : Bool) (mask : Option MReg) (s : State) : Out := arithForm .min td [ta, tb] rnd sat mask s

/-- TMAX (R210). -/
def execTmax (td ta tb : TReg) (rnd : Rnd) (sat : Bool) (mask : Option MReg) (s : State) : Out := arithForm .max td [ta, tb] rnd sat mask s

/-- TABS (R210). -/
def execTabs (td ta : TReg) (sat : Bool) (mask : Option MReg) (s : State) : Out := arithForm .abs td [ta] .rne sat mask s

/-- TNEG (R210). -/
def execTneg (td ta : TReg) (sat : Bool) (mask : Option MReg) (s : State) : Out := arithForm .neg td [ta] .rne sat mask s

/-- TCVT (R211). -/
def execTcvt (td ta : TReg) (fmt : Efmt) (rnd : Rnd) (sat : Bool) (mask : Option MReg) (s : State) : Out :=
  onBlock s fun k b =>
    withTiles s k b (destAndSources td [ta])
      (fun ts => match ts with
        | d :: _ => firstOf [homeFault ts, firstFault [(d.2.fmt ≠ fmt, causeFormat, td)], windowsFault ts]
        | [] => none)
      fun s b ts => match ts with
        | [d, a] => elementwise s k b td d.2 mask rnd [a.2.src] fun draw i j =>
            convert a.2.fmt fmt rnd sat draw (a.2.value true i j) (a.2.fmt.int (a.2.get i j))
        | _ => .next s

/-- TCMP (R212): bits of md outside the active window are cleared; the mask's poison and record follow R207. -/
def execTcmp (md : MReg) (ta tb : TReg) (fmt : Efmt) (pred : Fin 256) (mask : Option MReg) (s : State) : Out :=
  onBlock s fun k b =>
    withTiles s k b [(ta, true), (tb, true)]
      (fun ts => firstOf [homeFault ts, firstFault (ts.map fun p => (p.2.fmt ≠ fmt || !fmt.arith, causeFormat, p.1)), windowsFault ts])
      fun s b ts => match ts with
        | [a, c] =>
          let cells := a.2.coords.filter fun p => b.active mask a.2.wcols p.1 p.2
          let holds (p : Nat × Nat) : Bool := predHolds pred.val (fmt.decode (a.2.get p.1 p.2)) (fmt.decode (c.2.get p.1 p.2))
          let bits := cells.foldl (fun (n : Nat) p => if holds p then n ||| 2 ^ (p.1 * a.2.wcols + p.2) else n) 0
          let read := cells.findSome? fun p =>
            if a.2.poisoned p.1 p.2 then some a.2.origin else if c.2.poisoned p.1 p.2 then some c.2.origin else none
          let o : Option (Option Origin) := match read with | some o => some o | none => b.maskPoison mask
          .next (s.setBlock k ((b.writeMask md (BitVec.ofNat 65536 bits) o).issuedAs none 0))
        | _ => .next s

/-- TSEL (R213). A word with mk = 0 breaks a static limit (R209). -/
def execTsel (td ta tb : TReg) (mask : Option MReg) (s : State) : Out :=
  onBlock s fun k b =>
    match mask with
    | none => trapOut s k b (wordFault causeIllegal (.tsel td ta tb none))
    | some m =>
      withTiles s k b (destAndSources td [ta, tb]) (fun ts => firstOf [homeFault ts, formatsFault Efmt.plain ts, windowsFault ts])
        fun s b ts => match ts with
          | [d, a, c] =>
            let takes (i j : Nat) : Bool := (b.gm m).bit d.2.wcols i j
            let srcs : List Src := [(fun i j => takes i j && a.2.poisoned i j, a.2.origin), (fun i j => !takes i j && c.2.poisoned i j, c.2.origin)]
            let r := runWindow d.2.coords (fun _ _ => true) .rne b.seed srcs (b.maskPoison (some m)).isSome fun _ i j =>
              (if takes i j then a.2.get i j else c.2.get i j, 0)
            .next (writeWindow s k b td d.2 (some m) false srcs r)
          | _ => .next s

/-! ## Logic and shifts (R214) -/

/-- TAND (R214). -/
def execTand (td ta tb : TReg) (mask : Option MReg) (s : State) : Out :=
  tileForm Efmt.plain td [ta, tb] mask .rne (fun _ _ x => (x 0 &&& x 1, 0)) s

/-- TOR (R214). -/
def execTor (td ta tb : TReg) (mask : Option MReg) (s : State) : Out :=
  tileForm Efmt.plain td [ta, tb] mask .rne (fun _ _ x => (x 0 ||| x 1, 0)) s

/-- TXOR (R214). -/
def execTxor (td ta tb : TReg) (mask : Option MReg) (s : State) : Out :=
  tileForm Efmt.plain td [ta, tb] mask .rne (fun _ _ x => (x 0 ^^^ x 1, 0)) s

/-- TNOT (R214). -/
def execTnot (td ta : TReg) (mask : Option MReg) (s : State) : Out :=
  tileForm Efmt.plain td [ta] mask .rne (fun f _ x => (2 ^ f.bits - 1 - x 0 % 2 ^ f.bits, 0)) s

/-- TSHL (R214). -/
def execTshl (td ta : TReg) (n : Fin 256) (mask : Option MReg) (s : State) : Out :=
  tileForm Efmt.isInt td [ta] mask .rne (fun f _ x => (x 0 * 2 ^ n.val % 2 ^ f.bits, 0)) s

/-- TSHR (R214): arithmetic for I formats. -/
def execTshr (td ta : TReg) (n : Fin 256) (mask : Option MReg) (s : State) : Out :=
  tileForm Efmt.isInt td [ta] mask .rne (fun f _ x => (bitsOf f.bits (f.int (x 0) / 2 ^ n.val), 0)) s

/-! ## Bit strings (R215) -/

/-- A window as one bit string: element i × C + j holds bits [kw + w − 1 : kw]. -/
def Tile.bitString (t : Tile) : Nat :=
  t.coords.foldr (fun p n => t.get p.1 p.2 % 2 ^ t.fmt.bits + 2 ^ t.fmt.bits * n) 0

/-- Elements of a source whose bits reach element e when bit x of the result is bit x + off of the string; `base` is the
source's first bit in the string. -/
def suppliers (w count : Nat) (off base : Int) (e : Nat) : List Nat :=
  let lo : Int := e * w + off - base
  let hi : Int := lo + w - 1
  let a := max lo 0
  let z := min hi ((count * w : Nat) - 1)
  if z < a then [] else List.range' (a.toNat / w) (z.toNat / w + 1 - a.toNat / w)

/-- A shift of bit strings: the sources concatenated, bit x of the result is bit x + off; none gives zeros. -/
def bitShift (td : TReg) (as : List TReg) (r : SReg) (mask : Option MReg) (off : Block → Nat → Option Int) (s : State) : Out :=
  onBlock s fun k b =>
    withTiles s k b (destAndSources td as) (fun ts => firstOf [homeFault ts, formatsFault Efmt.plain ts, windowsFault ts])
      fun s b ts => match ts with
        | [] => .next s
        | d :: srcs =>
          let w := d.2.fmt.bits
          let c := d.2.wcols
          let count := d.2.wrows * c
          let len := count * w
          let o := off b len
          let all := srcs.foldr (fun p n => p.2.bitString + 2 ^ len * n) 0
          let v : Nat := match o with
            | none => 0
            | some x => (if 0 ≤ x then all / 2 ^ x.toNat else all * 2 ^ (-x).toNat) % 2 ^ len
          let src (n : Nat) (t : Tile) : Src :=
            (fun i j => match o with
              | none => false
              | some x => !t.poison.isEmpty
                  && (suppliers w count x (n * len : Nat) (i * c + j)).any fun e => t.poisoned (e / c) (e % c), t.origin)
          let ss := srcs.zipIdx.map fun p => src p.2 p.1.2
          let r1 := runWindow d.2.coords (b.active mask c) .rne b.seed ss (b.maskPoison mask).isSome fun _ i j => (v / 2 ^ ((i * c + j) * w) % 2 ^ w, 0)
          let wr := writeWindow s k b td d.2 mask mask.isSome ss r1
          -- a poisoned count poisons every line of the window
          if !b.ps r then .next wr
          else match wr.block? k with
            | none => .next wr
            | some b1 => match b1.useTile td with
              | .ok x =>
                let so := match firstOrigin (r1.1.map fun w => w.1) ss with
                  | some x => some x
                  | none => b.origin
                -- the count is an operand before the controlling mask
                let x : Tile := if d.2.origin.isNone then { x with origin := so } else x
                .next (wr.setBlock k (b1.commitTile td (x.poisonWindow so)))
              | .error _ => .next wr

/-- TBSH (R215). -/
def execTbsh (td ta : TReg) (b : SReg) (mask : Option MReg) (s : State) : Out :=
  bitShift td [ta] b mask (fun x len =>
    let n := (x.gs b).toInt
    if n.natAbs < len then some (-n) else none) s

/-- TFSH (R215): the two windows are one string of twice the length. -/
def execTfsh (td ta tb : TReg) (c : SReg) (mask : Option MReg) (s : State) : Out :=
  bitShift td [ta, tb] c mask (fun x len => let n := (x.gs c).toNat; if n < 2 * len then some n else none) s

/-! ## Special functions (R216 to R218) -/

/-- A special function. -/
def specialForm (op : SFun) (td : TReg) (as : List TReg) (mask : Option MReg) (s : State) : Out :=
  tileForm Efmt.special td as mask .rne (fun f _ x => op.run f (x 0) (x 1)) s

/-- TRCP (R217, R218). -/
def execTrcp (td ta : TReg) (mask : Option MReg) (s : State) : Out := specialForm .rcp td [ta] mask s

/-- TRSQ (R217, R218). -/
def execTrsq (td ta : TReg) (mask : Option MReg) (s : State) : Out := specialForm .rsq td [ta] mask s

/-- TRCPN (R217, R218). -/
def execTrcpn (td ta tb : TReg) (mask : Option MReg) (s : State) : Out := specialForm .rcpn td [ta, tb] mask s

/-- TRSQN (R217, R218). -/
def execTrsqn (td ta tb : TReg) (mask : Option MReg) (s : State) : Out := specialForm .rsqn td [ta, tb] mask s

/-- TEXP2 (R217, R218). -/
def execTexp2 (td ta : TReg) (mask : Option MReg) (s : State) : Out := specialForm .exp2 td [ta] mask s

/-- TLOG2 (R217, R218). -/
def execTlog2 (td ta : TReg) (mask : Option MReg) (s : State) : Out := specialForm .log2 td [ta] mask s

/-! ## Row operations (R219 to R223) -/

/-- Active columns of a row of the source (R207, R219). -/
def rowCols (b : Block) (mask : Option MReg) (a : Tile) (i : Nat) : List Nat :=
  (List.range a.wcols).filter fun j => b.active mask a.wcols i j

/-- A row of the source is poisoned where it is active. -/
def rowSrc (b : Block) (mask : Option MReg) (a : Tile) : Src :=
  (fun i _ => !a.poison.isEmpty && (rowCols b mask a i).any fun j => a.poisoned i j, a.origin)

/-- The checks of TSUMR and TMAXR: td is M × 1 and ta M × N. -/
def foldFault (td ta : TReg) (ts : Named) : Option FaultInfo :=
  match ts with
  | [d, a] => firstOf [homeFault ts, formatsFault Efmt.arith ts,
      firstFault [(d.2.wcols ≠ 1, causeShape, td), (d.2.wrows ≠ a.2.wrows, causeShape, ta)]]
  | _ => none

/-- A fold of each row of ta into td. -/
def rowFold (td ta : TReg) (mode : Rnd) (mask : Option MReg) (f : Efmt → Nat → List Nat → Nat × W64) (s : State) : Out :=
  onBlock s fun k b =>
    withTiles s k b (destAndSources td [ta]) (foldFault td ta) fun s b ts => match ts with
      | [d, a] =>
        let src := rowSrc b mask a.2
        let r := runWindow d.2.coords (fun _ _ => true) mode b.seed [src] (b.maskPoison mask).isSome fun draw i _ =>
          f a.2.fmt draw ((rowCols b mask a.2 i).map fun j => a.2.get i j)
        .next (writeWindow s k b td d.2 mask false [src] r)
      | _ => .next s

/-- TSUMR (R220). -/
def execTsumr (td ta : TReg) (rnd : Rnd) (sat : Bool) (mask : Option MReg) (s : State) : Out :=
  rowFold td ta rnd mask (fun f draw vs => sumRow f rnd sat draw vs) s

/-- TMAXR (R220). -/
def execTmaxr (td ta : TReg) (mask : Option MReg) (s : State) : Out := rowFold td ta .rne mask (fun f _ vs => (maxRow f vs, 0)) s

/-- Columns that contribute to output j of a scan (R220). -/
def scanCols (kind : Scan) (j : Nat) : List Nat := match kind with | .exc => List.range j | _ => List.range (j + 1)

/-- TSCANR (R220). -/
def execTscanr (td ta : TReg) (kind : Scan) (rnd : Rnd) (sat : Bool) (s : State) : Out :=
  onBlock s fun k b =>
    withTiles s k b (destAndSources td [ta]) (fun ts => firstOf [homeFault ts, formatsFault Efmt.arith ts, windowsFault ts])
      fun s b ts => match ts with
        | [d, a] =>
          let src : Src := (fun i j => !a.2.poison.isEmpty && (scanCols kind j).any fun c => a.2.poisoned i c, a.2.origin)
          let r := runWindow d.2.coords (fun _ _ => true) rnd b.seed [src] false fun draw i j =>
            let vs := (scanCols kind j).map fun c => a.2.get i c
            match kind with
            | .max =>
              let m := maxRow a.2.fmt vs
              if a.2.fmt.isInt then (m, 0) else a.2.fmt.round rnd sat draw (a.2.fmt.decode m)
            | _ => sumRow a.2.fmt rnd sat draw vs
          .next (writeWindow s k b td d.2 none false [src] r)
        | _ => .next s

/-- A second destination written after the first. -/
def andThenWrite (s : State) (k : BKey) (td : TReg) (d : Tile) (mask : Option MReg) (srcs : List Src) (ws : Written) : State :=
  match s.block? k with
  | none => s
  | some b =>
    let o := firstOrigin (ws.map fun w => w.1) srcs
    s.setBlock k (b.commitTile td (d.writeAll false ws o (b.maskPoison mask)))

/-- TOPK (R222). -/
def execTopk (td tc ta : TReg) (n : Fin 256) (mask : Option MReg) (s : State) : Out :=
  onBlock s fun k b =>
    withTiles s k b [(td, false), (tc, false), (ta, true)]
      (fun ts => match ts with
        | [d, c, a] => firstOf [homeFault ts,
            firstFault [(!d.2.fmt.arith, causeFormat, td), (!c.2.fmt.index, causeFormat, tc), (a.2.fmt ≠ d.2.fmt, causeFormat, ta),
              (d.2.wcols ≠ n.val, causeShape, td), (!d.2.sameWindow c.2, causeShape, tc),
              (a.2.wrows ≠ d.2.wrows || a.2.wcols < n.val, causeShape, ta)]]
        | _ => none)
      fun s b ts => match ts with
        | [d, c, a] =>
          let src := rowSrc b mask a.2
          let tops := (List.range d.2.wrows).map fun i => rankCols a.2.fmt true (fun j => a.2.get i j) (rowCols b mask a.2 i)
          let pick (i q : Nat) : Option Nat := ((tops[i]?).getD [])[q]?
          let r := runWindow d.2.coords (fun _ _ => true) .rne b.seed [src] (b.maskPoison mask).isSome fun _ i q =>
            (match pick i q with | some j => a.2.fmt.canon (a.2.get i j) | none => 0, 0)
          let s1 := writeWindow s k b td d.2 mask false [src] r
          .next (andThenWrite s1 k tc c.2 mask [src] (c.2.coords.map fun p =>
            (p, (match pick p.1 p.2 with | some j => j | none => 0xFFFFFFFF), src.1 p.1 p.2)))
        | _ => .next s

/-- TSORTR (R223). -/
def execTsortr (td ta : TReg) (tc : Option TReg) (desc : Bool) (s : State) : Out :=
  onBlock s fun k b =>
    let extra := match tc with | some t => [(t, false)] | none => []
    withTiles s k b ([(td, false)] ++ extra ++ [(ta, true)])
      (fun ts => match ts.head?, ts.getLast? with
        | some d, some a => firstOf [homeFault ts,
            firstFault ([((!d.2.fmt.arith : Bool), causeFormat, td)]
              ++ (match tc, ts[1]? with | some t, some c => [((!c.2.fmt.index : Bool), causeFormat, t)] | _, _ => [])
              ++ [((a.2.fmt ≠ d.2.fmt : Bool), causeFormat, ta)]), windowsFault ts]
        | _, _ => none)
      fun s b ts => match ts.head?, ts.getLast? with
        | some d, some a =>
          let src : Src := (fun i _ => !a.2.poison.isEmpty && (List.range a.2.wcols).any fun j => a.2.poisoned i j, a.2.origin)
          let orders := (List.range d.2.wrows).map fun i => rankCols a.2.fmt desc (fun j => a.2.get i j) (List.range a.2.wcols)
          let pick (i q : Nat) : Nat := (((orders[i]?).getD [])[q]?).getD 0
          let r := runWindow d.2.coords (fun _ _ => true) .rne b.seed [src] false fun _ i q => (a.2.fmt.canon (a.2.get i (pick i q)), 0)
          let s1 := writeWindow s k b td d.2 none false [src] r
          (match tc, ts[1]? with
            | some t, some c => .next (andThenWrite s1 k t c.2 none [src] (c.2.coords.map fun p => (p, pick p.1 p.2, src.1 p.1 p.2)))
            | _, _ => .next s1)
        | _, _ => .next s

/-! ## Movement (R224) -/

/-- The index values of a permutation (R224): signed for I32. -/
def indexVals (t : Tile) (col : Bool) (n : Nat) : List Int :=
  (List.range n).map fun q => t.fmt.int (if col then t.get 0 q else t.get q 0)

/-- The index moves whole blocks of B (R224). -/
def wholeBlocks (idx : List Int) (blk : Nat) : Bool :=
  idx.length % blk = 0 && (idx.zipIdx.all fun p =>
    let first := idx.getD (p.2 / blk * blk) 0
    first % blk = 0 && p.1 = first + (p.2 % blk : Nat))

/-- A poisoned element of the block that a window element lies in. -/
def Tile.blockPoisoned (t : Tile) (i j : Nat) : Bool :=
  let blk := t.fmt.block
  if t.lay = .col then (List.range blk).any fun q => t.poisoned (i / blk * blk + q) j
  else (List.range blk).any fun q => t.poisoned i (j / blk * blk + q)

/-- The checks of TPERM on formats and windows (R224). -/
def permFault (td ta tb : TReg) (col : Bool) (ts : Named) : Option FaultInfo :=
  match ts with
  | [d, a, x] =>
    let side : Bool := if col then a.2.wrows ≠ d.2.wrows else a.2.wcols ≠ d.2.wcols
    let idx : Bool := if col then x.2.wrows ≠ 1 || x.2.wcols ≠ d.2.wcols else x.2.wcols ≠ 1 || x.2.wrows ≠ d.2.wrows
    firstOf [homeFault ts, firstFault [(a.2.fmt ≠ d.2.fmt, causeFormat, ta), (!x.2.fmt.index, causeFormat, tb),
      (side, causeShape, ta), (idx, causeShape, tb)]]
  | _ => none

/-- TPERM (R224). -/
def execTperm (td ta tb : TReg) (col : Bool) (mask : Option MReg) (s : State) : Out :=
  onBlock s fun k b =>
    withTiles s k b (destAndSources td [ta, tb]) (permFault td ta tb col) fun s b ts => match ts with
      | [d, a, x] =>
        let n := if col then d.2.wcols else d.2.wrows
        let limit : Nat := if col then a.2.wcols else a.2.wrows
        let raw := indexVals x.2 col n
        let isOut (v : Int) : Bool := v < 0 || (limit : Int) ≤ v
        let blk := d.2.fmt.block
        let along : Bool := col != d.2.lay.colwise
        if blk ≠ 0 && d.2.lay.colwise ≠ a.2.lay.colwise then trapOut s k b (FaultInfo.atTile causeFormat ta 0 0)
        else if blk ≠ 0 && (raw.any isOut || (along && !wholeBlocks raw blk)) then trapOut s k b (FaultInfo.atTile causeFormat tb 0 0)
        else
          -- the columns that count in the mask: those of ta when td is M × 1 (R207)
          let c := if d.2.wcols = 1 then a.2.wcols else d.2.wcols
          let idx := raw.map fun v => if v < 0 then 0 else min v.toNat (limit - 1)
          let at_ (i j : Nat) : Nat × Nat := if col then (i, idx.getD j 0) else (idx.getD i 0, j)
          let srcA : Src := (fun i j =>
            !a.2.poison.isEmpty && (a.2.poisoned (at_ i j).1 (at_ i j).2 || (blk ≠ 0 && a.2.blockPoisoned (at_ i j).1 (at_ i j).2)),
            a.2.origin)
          let srcX : Src := (fun i j => if col then x.2.poisoned 0 j else x.2.poisoned i 0, x.2.origin)
          let r := runWindow d.2.coords (b.active mask c) .rne b.seed [srcA, srcX] (b.maskPoison mask).isSome fun _ i j => (a.2.get (at_ i j).1 (at_ i j).2, 0)
          let d1 : Tile := if blk = 0 then d.2
            else r.1.foldl (fun t w => t.setScale w.1.1 w.1.2 (a.2.getScale (at_ w.1.1 w.1.2).1 (at_ w.1.1 w.1.2).2))
              { d.2 with tscale := if d.2.fmt = .ks4 then a.2.tscale else d.2.tscale }
          let clmp : W64 := if raw.any isOut then flCLMP else 0
          .next (writeWindow s k b td d1 mask mask.isSome [srcA, srcX] (r.1, clmp, r.2.2))
      | _ => .next s

/-- TBCAST (R224). -/
def execTbcast (td ta : TReg) (col : Bool) (mask : Option MReg) (s : State) : Out :=
  onBlock s fun k b =>
    withTiles s k b (destAndSources td [ta])
      (fun ts => match ts with
        | [d, a] =>
          let bad : Bool := if col then a.2.wcols ≠ 1 || a.2.wrows ≠ d.2.wrows else a.2.wrows ≠ 1 || a.2.wcols ≠ d.2.wcols
          firstOf [homeFault ts, formatsFault Efmt.plain ts, firstFault [(bad, causeShape, ta)]]
        | _ => none)
      fun s b ts => match ts with
        | [d, a] =>
          let at_ (i j : Nat) : Nat × Nat := if col then (i, 0) else (0, j)
          let src : Src := (fun i j => a.2.poisoned (at_ i j).1 (at_ i j).2, a.2.origin)
          elementwise s k b td d.2 mask .rne [src] fun _ i j => (a.2.get (at_ i j).1 (at_ i j).2, 0)
        | _ => .next s

/-! ## Masks (R225) -/

/-- A mask result with the poison and record of its operands (R207). -/
def maskResult (md : MReg) (v : Block → BitVec 65536) (as : List MReg) (s : State) : Out :=
  onBlock s fun k b =>
    let bad := as.find? fun m => (b.gm m).poison
    .next (s.setBlock k ((b.writeMask md (v b) (bad.map fun m => (b.gm m).origin)).issuedAs none 0))

/-- MAND (R225). -/
def execMand (md ma mb : MReg) (s : State) : Out := maskResult md (fun b => (b.gm ma).bits &&& (b.gm mb).bits) [ma, mb] s

/-- MOR (R225). -/
def execMor (md ma mb : MReg) (s : State) : Out := maskResult md (fun b => (b.gm ma).bits ||| (b.gm mb).bits) [ma, mb] s

/-- MNOT (R225). -/
def execMnot (md ma : MReg) (s : State) : Out := maskResult md (fun b => ~~~ (b.gm ma).bits) [ma] s

/-- Set bits of a number, counted from bit 0 up to a width. -/
def popcount : Nat → Nat → Nat
  | 0, _ => 0
  | n + 1, v => v % 2 + popcount n (v / 2)

/-- MCNT (R225). -/
def execMcnt (d : SReg) (ma : MReg) (s : State) : Out :=
  onBlock s fun k b =>
    let m := b.gm ma
    let n := if m.bits = 0 then 0 else popcount (Nat.log2 m.bits.toNat + 1) m.bits.toNat
    let b1 := b.putS d (BitVec.ofNat 64 n) m.poison
    .next (s.setBlock k ((if m.poison && d ≠ 0 then b1.noteOrigin m.origin else b1).issuedAs none 0))

end Sys2Proof.Machine
end

