-- ==== Sys2Proof/Machine/LaneFn.lean ====
section
/-! DEFINITION. Lane functions and their callers: MAP, MAP2, REDUCE, REDUCE2, major 0x54, and the lane-function words (R50,
R52, R53, R226 to R235). -/

namespace Sys2Proof.Machine

/-! ## Lane values -/

/-- A 32-bit lane value; poisoned by the source of a rank: input 0 to 3, then 4 for the constants (R97, R228). -/
abbrev LVal := Nat × Option Nat

/-- Poison of a result: that of its first poisoned source. -/
def poisonJoin : Option Nat → Option Nat → Option Nat
  | none, q => q
  | p, none => p
  | some a, some b => some (min a b)

/-- One lane of a row. -/
structure LaneSt where
  q : List LVal
  x : LVal
  e : List LVal
  entry : Bool
  mask : Bool
  /-- poison of the lane mask (R235) -/
  mpo : Option Nat
  /-- draws of the element, in the order of its `.rsr` words (R67) -/
  draws : List Nat
  flags : W64
  deriving DecidableEq, Repr

/-- A lane at the start of a call. -/
def LaneSt.start (e : List LVal) (entry : Bool) (draws : List Nat) : LaneSt :=
  { q := List.replicate 8 (0, none), x := (0, none), e := e, entry := entry, mask := entry, mpo := none, draws := draws,
    flags := 0 }

/-- The value of a selector (R48). -/
def LaneSt.read (l : LaneSt) (k : List LVal) : LSel → LVal
  | .q n => l.q.getD n.val (0, none)
  | .x => l.x
  | .e n => l.e.getD n.val (0, none)
  | .k n => k.getD n.val (0, none)

/-- A destination written whatever the mask. -/
def LaneSt.put (l : LaneSt) (d : LDst) (v : LVal) : LaneSt :=
  match d with
  | .q n => { l with q := l.q.set n.val v }
  | .x => { l with x := v }

/-- A word's result: written where the lane mask is 1, with the mask's poison; an unpoisoned one raises its flags (R69, R228,
R235). DESIGN CHOICE (log 16): each word is judged by its own result, so that the flags of an unpoisoned word count although a later word
poisons the lane's output. -/
def LaneSt.result (l : LaneSt) (d : LDst) (v : LVal) (fl : W64) : LaneSt :=
  if l.mask then
    let p := poisonJoin v.2 l.mpo
    let l1 := l.put d (v.1, p)
    if l.entry && p.isNone then { l1 with flags := l1.flags ||| fl } else l1
  else l

/-- The element format of a lane type (R231). -/
def laneFmt : LType → Efmt
  | .fp32 => .fp32
  | .i32 => .i32
  | .ui32 => .ui32

/-- The words that draw under `.rsr` (R67, R231, R232). -/
def drawsWord : LaneWord → Bool
  | .ladd .fp32 .rsr .. | .lsub .fp32 .rsr .. | .lmul .fp32 .rsr .. | .lfma .fp32 .rsr .. => true
  | .lcvt _ _ .rsr .. => true
  | _ => false

/-- LCVT on an encoding: the value of the low bits, converted; an integer result is extended by its signedness (R232). -/
def lcvtRun (src dst : Efmt) (rnd : Rnd) (sat : Bool) (draw v : Nat) : Nat × W64 :=
  let a := v % 2 ^ src.bits
  let r := convert src dst rnd sat draw (src.decode a, 0) (src.int a)
  (if dst.isInt then bitsOf 32 (dst.int r.1) else r.1, r.2)

/-- A row after a word that computes each lane from its own values; `draw` says that every lane consumes a draw. -/
def eachLane (draw : Bool) (f : LaneSt → Nat → LaneSt) (row : List LaneSt) : List LaneSt :=
  row.map fun l => if draw then f { l with draws := l.draws.drop 1 } (l.draws.headD 0) else f l 0

/-- The lane that the value of a lane index names: signed, within the row (R234). -/
def laneOf (n v : Nat) : Option Nat :=
  let i := signedOf 32 v
  if 0 ≤ i && i < n then some i.toNat else none

/-- LPULL on a row (R234). -/
def lpullRow (k : List LVal) (d : LDst) (a b : LSel) (row : List LaneSt) : List LaneSt :=
  let vals := row.map fun l => l.read k a
  row.map fun l =>
    let i := l.read k b
    let v : LVal := match laneOf row.length i.1 with
      | some j => vals.getD j (0, none)
      | none => (0, none)
    l.result d (v.1, poisonJoin v.2 i.2) 0

/-- LPUSH on a row: the highest source lane wins; a poisoned index of an active lane poisons every active target (R234). -/
def lpushRow (k : List LVal) (d : LDst) (a b : LSel) (row : List LaneSt) : List LaneSt :=
  let n := row.length
  let wild := row.foldl (fun p l => if l.mask then poisonJoin p (l.read k b).2 else p) none
  let dst (l : LaneSt) : LVal := match d with | .q i => l.q.getD i.val (0, none) | .x => l.x
  row.zipIdx.map fun p =>
    let src := row.reverse.find? fun l => l.mask && laneOf n (l.read k b).1 = some p.2
    match src with
    | some l => let v := l.read k a; p.1.result d (v.1, poisonJoin v.2 wild) 0
    | none => if p.1.mask && wild.isSome then p.1.put d ((dst p.1).1, poisonJoin (dst p.1).2 wild) else p.1

/-- One word on every lane of a row; each lane reads the values held before it (R228, R231 to R235). -/
def laneStep (k : List LVal) (w : LaneWord) (row : List LaneSt) : List LaneSt :=
  let draw := drawsWord w
  let arith (op : EOp) (ty : LType) (rnd : Rnd) (sat : Bool) (d : LDst) (a b c : LSel) (three : Bool) : List LaneSt :=
    eachLane draw (fun l dr =>
      let x := l.read k a
      let y := l.read k b
      let z : LVal := if three then l.read k c else (0, none)
      let r := op.run (laneFmt ty) rnd sat dr x.1 y.1 z.1
      l.result d (r.1, poisonJoin x.2 (poisonJoin y.2 z.2)) r.2) row
  let two (d : LDst) (a b : LSel) (f : Nat → Nat → Nat) : List LaneSt :=
    eachLane false (fun l _ =>
      let x := l.read k a
      let y := l.read k b
      l.result d (f x.1 y.1, poisonJoin x.2 y.2) 0) row
  let one (d : LDst) (a : LSel) (f : Nat → Nat × W64) : List LaneSt :=
    eachLane false (fun l _ => let x := l.read k a; let r := f x.1; l.result d (r.1, x.2) r.2) row
  match w with
  | .ladd ty rnd sat d a b => arith .add ty rnd sat d a b a false
  | .lsub ty rnd sat d a b => arith .sub ty rnd sat d a b a false
  | .lmul ty rnd sat d a b => arith .mul ty rnd sat d a b a false
  | .lfma ty rnd sat d a b c => arith .fma ty rnd sat d a b c true
  | .lmin ty d a b => arith .min ty .rne false d a b a false
  | .lmax ty d a b => arith .max ty .rne false d a b a false
  | .lcvt src dst rnd sat d a => eachLane draw (fun l dr =>
      let x := l.read k a
      let r := lcvtRun src dst rnd sat dr x.1
      l.result d (r.1, x.2) r.2) row
  | .lcmp pred ty d a b => two d a b fun x y =>
      if predHolds pred.val ((laneFmt ty).decode x) ((laneFmt ty).decode y) then 1 else 0
  | .lsel d a b c => eachLane false (fun l _ =>
      let x := l.read k a
      let y := if x.1 ≠ 0 then l.read k b else l.read k c
      l.result d (y.1, poisonJoin x.2 y.2) 0) row
  | .land d a b => two d a b fun x y => x &&& y
  | .lor d a b => two d a b fun x y => x ||| y
  | .lxor d a b => two d a b fun x y => x ^^^ y
  | .lshl d a b => two d a b fun x y => x * 2 ^ (y % 32) % 2 ^ 32
  | .lshr ar d a b => two d a b fun x y =>
      if ar then bitsOf 32 (signedOf 32 x / 2 ^ (y % 32)) else x / 2 ^ (y % 32)
  | .lrcp d a => one d a fun x => SFun.rcp.run .fp32 x 0
  | .lrsq d a => one d a fun x => SFun.rsq.run .fp32 x 0
  | .lexp2 d a => one d a fun x => SFun.exp2.run .fp32 x 0
  | .llog2 d a => one d a fun x => SFun.log2.run .fp32 x 0
  | .lmov d a => one d a fun x => (x, 0)
  | .lkld hi imm d => eachLane false (fun l _ =>
      l.result d (if hi then imm.toNat * 65536 else (imm.signExtend 32).toNat, none) 0) row
  | .lpull d a b => lpullRow k d a b row
  | .lpush d a b => lpushRow k d a b row
  | .lmset a => eachLane false (fun l _ =>
      let x := l.read k a
      { l with mask := l.mask && x.1 ≠ 0, mpo := poisonJoin l.mpo x.2 }) row
  | .lmsave d => eachLane false (fun l _ => l.put d (if l.mask then 1 else 0, l.mpo)) row
  | .lmrest a => eachLane false (fun l _ =>
      let x := l.read k a
      { l with mask := l.entry && x.1 ≠ 0, mpo := x.2 }) row
  | .lret => row

/-- A call on a row of lanes: every word in order (R228). -/
def laneCall (k : List LVal) (ws : List LaneWord) (row : List LaneSt) : List LaneSt :=
  ws.foldl (fun r w => laneStep k w r) row

/-- The outputs that LRET writes: o0 from the latch, o1 from q0, poisoned while the lane mask is (R235). -/
def LaneSt.out0 (l : LaneSt) : LVal := (l.x.1, poisonJoin l.x.2 l.mpo)
def LaneSt.out1 (l : LaneSt) : LVal := let v := l.q.getD 0 (0, none); (v.1, poisonJoin v.2 l.mpo)

/-! ## Fetching a lane function (R50, R53, R131) -/

/-- A little-endian number of n bytes of the code object. -/
def codeNum (s : State) (k : BKey) (b : Block) (off n : Nat) : Res Nat :=
  match s.codeOf b with
  | none => .bad s (FaultInfo.plain causeCodeBound)
  | some (code, _, _) => (readRef s (s.envOf k b) code off n false Need.fetch).andThen fun s bs => .ok s (leNat bs)

/-- The words of a function from an offset of the object, decoded in order; a malformed one gives its index (R53). DESIGN CHOICE (log 16): of
several malformed words the lowest index is the one that LWI names, and no later word is fetched. -/
def laneWords (s : State) (k : BKey) (b : Block) (off idx : Nat) : Nat → Res (Except Nat (List LaneWord))
  | 0 => .ok s (.ok [])
  | n + 1 => (codeNum s k b off 4).andThen fun s w => match decodeLane w with
    | .error _ => .ok s (.error idx)
    | .ok i => (laneWords s k b (off + 4) (idx + 1) n).andThen fun s r => match r with
      | .error j => .ok s (.error j)
      | .ok is => .ok s (.ok (i :: is))

/-- The last word is LRET and no other is (R50). -/
def lretLast (ws : List LaneWord) : Bool := ws.getLast? = some .lret && !(ws.dropLast.contains .lret)

/-- Function fn of the code object of a block: its words, or ILLEGAL with the index of R53. -/
def laneFn (s : State) (k : BKey) (b : Block) (i : Instr) (fn : Nat) : Res (List LaneWord) :=
  let illegal (s : State) (n : Nat) : Res (List LaneWord) := .bad s { wordFault causeIllegal i with lwi := n }
  (codeNum s k b 24 4).andThen fun s lfoff =>
  (codeNum s k b 28 4).andThen fun s lflen =>
  (codeNum s k b 32 4).andThen fun s tab =>
  (codeNum s k b 36 2).andThen fun s n =>
    if n ≤ fn then illegal s 0
    else (codeNum s k b (tab + 8 * fn) 8).andThen fun s e =>
      let start := fld 0 32 e
      let len := fld 32 16 e
      if fld 48 16 e ≠ 0 || start % 4 ≠ 0 || len = 0 || 32 < len || lflen < start + 4 * len then illegal s 0
      else (laneWords s k b (lfoff + start) 0 len).andThen fun s r => match r with
        | .error j => illegal s j
        | .ok ws => if lretLast ws then .ok s ws else illegal s 0

/-! ## The checks of the callers (R227) -/

/-- Input tiles of a call (R39). -/
def insList : Ins → List TReg
  | .i1 a => [a]
  | .i2 a b => [a, b]
  | .i3 a b c => [a, b, c]
  | .i4 a b c d => [a, b, c, d]

/-- FORMAT of R227 step 3. -/
def laneFormats (ts : Named) : Option FaultInfo :=
  firstFault (ts.map fun p => (p.2.home = .a || !p.2.fmt.lane, causeFormat, p.1))

/-- SHAPE of R227 step 4 for REDUCE: the first `outs` tiles are M × 1, the inputs M × N. -/
def reduceShapes (outs : Nat) (ts : Named) : Option FaultInfo :=
  match ts, ts.drop outs with
  | d :: _, a :: rest =>
    firstFault ((ts.take outs).map (fun p => ((p.2.wcols ≠ 1 || p.2.wrows ≠ d.2.wrows : Bool), causeShape, p.1))
      ++ [((a.2.wrows ≠ d.2.wrows : Bool), causeShape, a.1)]
      ++ rest.map fun p => ((!a.2.sameWindow p.2 : Bool), causeShape, p.1))
  | _, _ => none

/-- Runs a call after R227: the function first, then the tiles. -/
def withLaneFn (i : Instr) (fn : Fin 512) (outs : List TReg) (ins : Ins) (shapes : Named → Option FaultInfo)
    (f : State → BKey → Block → List LaneWord → Named → Out) (s : State) : Out :=
  onBlock s fun k b =>
    match laneFn s k b i fn.val with
    | .wait s => .next s
    | .bad s e => trapOut s k b e
    | .ok s ws =>
      withTiles s k b (outs.map (fun t => (t, false)) ++ (insList ins).map fun t => (t, true))
        (fun ts => firstOf [laneFormats ts, shapes ts]) fun s b ts => f s k b ws ts

/-- The constants k0 to k7 at issue (R228). -/
def laneConsts (b : Block) : List LVal :=
  (List.range 8).map fun i =>
    let r : SReg := Fin.ofNat 32 (16 + i)
    ((b.gs r).toNat % 2 ^ 32, if b.ps r then some 4 else none)

/-- An element of an input as a lane value. -/
def laneIn (t : Tile) (rank i j : Nat) : LVal := (t.get i j, if t.poisoned i j then some rank else none)

/-- n draws from SEED (R67). -/
def drawsOf : Nat → W64 → List Nat × W64
  | 0, seed => ([], seed)
  | n + 1, seed => let r := drawsOf n (nextSeed seed); (drawOf (nextSeed seed) :: r.1, r.2)

/-- The origin record of a rank (R97). -/
def rankOrigin (b : Block) (ins : Named) (rank : Option Nat) : Option Origin :=
  match rank with
  | none => none
  | some n => match ins[n]? with
    | some p => p.2.origin
    | none => b.origin

/-- Outputs of a call as the elements of a destination, with the record of the first poisoned source. -/
def laneWritten (d : Tile) (outs : List ((Nat × Nat) × LVal)) : Written × Option Nat :=
  (outs.map fun o => (o.1, o.2.1 % 2 ^ d.fmt.bits, o.2.2.isSome), outs.foldl (fun r o => poisonJoin r o.2.2) none)

/-- A destination of a call written; `masked` says that the mask chooses its elements. -/
def laneStore (b : Block) (td : TReg) (mask : Option MReg) (masked : Bool) (ins : Named) (outs : List ((Nat × Nat) × LVal)) : Block :=
  match b.useTile td with
  | .error _ => b
  | .ok d =>
    let w := laneWritten d outs
    b.commitTile td (d.writeAll masked w.1 (rankOrigin b ins w.2) (b.maskPoison mask))

/-- Writes the destinations of a call, its flags and SEED; under a poisoned mask every result is poisoned and raises none (R69, R207). -/
def laneFinish (s : State) (k : BKey) (b : Block) (mask : Option MReg) (masked : Bool) (ins : Named) (seed fl : W64) (td : TReg)
    (o0 : List ((Nat × Nat) × LVal)) (second : Option (TReg × List ((Nat × Nat) × LVal))) : Out :=
  let b1 := laneStore b td mask masked ins o0
  let b2 := match second with
    | some (t, o1) => laneStore b1 t mask masked ins o1
    | none => b1
  .next (s.setBlock k (({ b2 with seed := seed }.raiseFlags (if (b.maskPoison mask).isSome then 0 else fl)).issued td))

/-! ## MAP (R228) -/

/-- The lanes of a row at the start, with the draws of each element. -/
def mapRow (b : Block) (mask : Option MReg) (ins : Named) (nd : Nat) (i : Nat) : W64 → List Nat → List LaneSt × W64
  | seed, [] => ([], seed)
  | seed, j :: js =>
    let dr := drawsOf nd seed
    let c := (ins.head?.map fun p => p.2.wcols).getD 0
    let l := LaneSt.start (ins.zipIdx.map fun p => laneIn p.1.2 p.2 i j) (b.active mask c i j) dr.1
    let rest := mapRow b mask ins nd i dr.2 js
    (l :: rest.1, rest.2)

/-- Every row of the window: the lanes after the call, and SEED. -/
def mapRows (b : Block) (mask : Option MReg) (ins : Named) (ws : List LaneWord) (k : List LVal) (c : Nat) :
    W64 → List Nat → List (Nat × List LaneSt) × W64
  | seed, [] => ([], seed)
  | seed, i :: is =>
    let r := mapRow b mask ins (ws.countP drawsWord) i seed (List.range c)
    let rest := mapRows b mask ins ws k c r.2 is
    ((i, laneCall k ws r.1) :: rest.1, rest.2)

/-- MAP and MAP2. -/
def mapForm (i : Instr) (td : TReg) (td2 : Option TReg) (fn : Fin 512) (ins : Ins) (mask : Option MReg) (s : State) : Out :=
  let outs := match td2 with | some t => [td, t] | none => [td]
  withLaneFn i fn outs ins windowsFault (fun s k b ws ts =>
    match ts with
    | [] => .next s
    | d :: _ =>
      let inputs := ts.drop outs.length
      let r := mapRows b mask inputs ws (laneConsts b) d.2.wcols b.seed (List.range d.2.wrows)
      let cells (f : LaneSt → LVal) : List ((Nat × Nat) × LVal) :=
        r.1.flatMap fun p => (p.2.zipIdx.filter fun l => l.1.entry).map fun l => ((p.1, l.2), f l.1)
      let fl := r.1.foldl (fun (a : W64) p => p.2.foldl (fun (a : W64) l => a ||| l.flags) a) 0
      laneFinish s k b mask mask.isSome inputs r.2 fl td (cells LaneSt.out0) (td2.map fun t => (t, cells LaneSt.out1))) s

/-- MAP (R226, R228). -/
def execMap (td : TReg) (fn : Fin 512) (ins : Ins) (mask : Option MReg) (s : State) : Out :=
  mapForm (.map td fn ins mask) td none fn ins mask s

/-- MAP2 (R226, R228). -/
def execMap2 (td td2 : TReg) (fn : Fin 512) (ins : Ins) (mask : Option MReg) (s : State) : Out :=
  mapForm (.map2 td td2 fn ins mask) td (some td2) fn ins mask s

/-! ## REDUCE (R229) -/

/-- A fold in progress: the accumulators, flags and SEED. -/
structure Fold where
  acc0 : LVal
  acc1 : LVal
  flags : W64
  seed : W64
  deriving DecidableEq, Repr

/-- One call of a fold at column j: a row of one lane. -/
def foldCall (ws : List LaneWord) (k : List LVal) (two : Bool) (f : Fold) (e1 e3 : LVal) : Fold :=
  let dr := drawsOf (ws.countP drawsWord) f.seed
  match laneCall k ws [LaneSt.start [f.acc0, e1, f.acc1, e3] true dr.1] with
  | l :: _ => { acc0 := l.out0, acc1 := if two then l.out1 else f.acc1, flags := f.flags ||| l.flags, seed := dr.2 }
  | [] => f

/-- The fold of row i. -/
def foldRow (b : Block) (mask : Option MReg) (ws : List LaneWord) (k : List LVal) (two : Bool) (ia : Tile) (ib : Option Tile)
    (i : Nat) (flags seed : W64) : Fold :=
  match rowCols b mask ia i with
  | [] => { acc0 := (0, none), acc1 := (0, none), flags := flags, seed := seed }
  | j :: js =>
    js.foldl (fun f j => foldCall ws k two f (laneIn ia 0 i j)
      (match ib with | some t => laneIn t 1 i j | none => (0, none)))
      { acc0 := laneIn ia 0 i j, acc1 := (0, none), flags := flags, seed := seed }

/-- Every row's fold, row 0 first. -/
def foldRows (b : Block) (mask : Option MReg) (ws : List LaneWord) (k : List LVal) (two : Bool) (ia : Tile) (ib : Option Tile) :
    W64 → W64 → List Nat → List (Nat × Fold) × W64 × W64
  | flags, seed, [] => ([], flags, seed)
  | flags, seed, i :: is =>
    let f := foldRow b mask ws k two ia ib i flags seed
    let rest := foldRows b mask ws k two ia ib f.flags f.seed is
    ((i, f) :: rest.1, rest.2)

/-- REDUCE and REDUCE2. Three or four inputs break a static limit (R226, R52). -/
def reduceForm (i : Instr) (td : TReg) (td2 : Option TReg) (fn : Fin 512) (ins : Ins) (mask : Option MReg) (s : State) : Out :=
  let outs := match td2 with | some t => [td, t] | none => [td]
  if !i.limitsKept then onBlock s fun k b => trapOut s k b (wordFault causeIllegal i)
  else withLaneFn i fn outs ins (reduceShapes outs.length) (fun s k b ws ts =>
    match ts.drop outs.length with
    | [] => .next s
    | a :: rest =>
      let r := foldRows b mask ws (laneConsts b) td2.isSome a.2 (rest.head?.map fun p => p.2) 0 b.seed (List.range a.2.wrows)
      let cells (f : Fold → LVal) : List ((Nat × Nat) × LVal) := r.1.map fun p => ((p.1, 0), f p.2)
      laneFinish s k b mask false (a :: rest) r.2.2 r.2.1 td (cells Fold.acc0) (td2.map fun t => (t, cells Fold.acc1))) s

/-- REDUCE (R226, R229). -/
def execReduce (td : TReg) (fn : Fin 512) (ins : Ins) (mask : Option MReg) (s : State) : Out :=
  reduceForm (.reduce td fn ins mask) td none fn ins mask s

/-- REDUCE2 (R226, R229). -/
def execReduce2 (td td2 : TReg) (fn : Fin 512) (ins : Ins) (mask : Option MReg) (s : State) : Out :=
  reduceForm (.reduce2 td td2 fn ins mask) td (some td2) fn ins mask s

end Sys2Proof.Machine
end

