-- ==== Sys2Proof/Machine/Mgmt.lean ====
section
/-! DEFINITION. The management controller: the mailbox, sensors, trips, device time, package reset, and the events of the package's
links and memories (R18, R319 to R330). -/

namespace Sys2Proof.Machine

/-! ## The mailbox (R325) -/

/-- Offsets in MBOX: response, its data (DESIGN CHOICE, log 24), and the word that starts a command. -/
def mbResponse : Nat := 0x800
def mbData : Nat := 0x808
def mbGo : Nat := 0xFF8

/-- STATUS of a response (R325). -/
def mbOk : Nat := 0
def mbRefused : Nat := 1
def mbBad : Nat := 2

/-- A mailbox command that the host has started. -/
def Port.mail? (p : Port) : Bool := !p.down && p.mbox.readLE mbGo 8 = 1

/-- OP of the command. -/
def Port.mailOp (p : Port) : Nat := fld 0 8 (p.mbox.readLE 0 8)

/-- Operand word i, at 8 × i. -/
def Port.mailW (p : Port) (i : Nat) : Nat := p.mbox.readLE (8 * i) 8

/-- The MGC writes the response and clears the word that started the command. -/
def answerMail (s : State) (port status : Nat) (data : List Byte) : State :=
  let p := s.port port
  let room := mbGo - mbData
  let box := ((p.mbox.write mbResponse (BitVec.ofNat 8 status)).writeN mbData (data.take room)).writeLE mbGo 8 0
  s.setPort port { p with mbox := box }

/-- Runs a mailbox command when its OP is one of a row's; nonzero zero bits are a bad command. -/
def onMail (port : Nat) (s : State) (mine : Nat → Bool) (f : Port → State × Nat × List Byte) : Out :=
  let p := s.port port
  if 2 ≤ port || !p.mail? || !mine p.mailOp then .next s
  else if fld 8 56 (p.mailW 0) ≠ 0 then .next (answerMail s port mbBad [])
  else .next (answerMail (f p).1 port (f p).2.1 (f p).2.2)

/-- A command refused as it stands. -/
def mailRefused (s : State) : State × Nat × List Byte := (s, mbRefused, [])

/-- SENSE; an undefined OP is answered here as a bad command (R325). -/
def execSense (port : Nat) (s : State) : Out :=
  onMail port s (fun op => op = 1 || op = 0 || 9 < op) fun p =>
    if p.mailOp ≠ 1 then (s, mbBad, []) else (s, mbOk, s.mgc.sensors.flatMap fun v => leBytes 4 v)

/-- An entry of the event log as LOGREAD gives it: 32 bytes (R324; their layout is DESIGN CHOICE, log 24). -/
def LogEntry.bytes (e : LogEntry) : List Byte := leBytes 8 e.kind ++ leBytes 8 e.value ++ leBytes 8 e.time ++ leBytes 8 0

/-- LOGREAD: up to 60 entries from an index (R325). -/
def execLogread (port : Nat) (s : State) : Out :=
  onMail port s (fun op => op = 2) fun p => (s, mbOk, ((s.mgc.log.drop (p.mailW 1)).take 60).flatMap LogEntry.bytes)

/-- Bytes of the host's memory as a number that tells their length apart. -/
def imageNumber (bytes : List Byte) : Nat := leNat (bytes ++ [1])

/-- UPDATE: an image that verifies, of a version not below the rollback counter, goes to the inactive bank (R325). -/
def execUpdate (port : Nat) (s : State) : Out :=
  onMail port s (fun op => op = 3) fun p =>
    let bytes := s.mem.readN (hostPA (p.mailW 1)) (p.mailW 2)
    let image := imageNumber bytes
    let version := (Config.imageVersion image).toNat
    if !Config.imageVerifies image || version < s.mgc.rollback then mailRefused s
    else
      let m := if s.mgc.booted = 0 then { s.mgc with bankB := (version, true), imageB := bytes }
        else { s.mgc with bankA := (version, true), imageA := bytes }
      (logMgc { s with mgc := m } logUpdate version, mbOk, [])

/-- Parameters as a report shows them: of test mode, the one in force (R325). -/
def Mgc.reported (m : Mgc) : List Nat := m.params.set 6 m.testMode.toNat

/-- n bytes that the MGC computes with its keys (log 2). -/
def signedBytes (count n : Nat) : List Byte := (List.range n).map fun i => Config.attestByte (256 * count + i)

/-- SM3 digest of a message. -/
def digest (msg : List Byte) : List Byte := (List.range 32).map (Config.digestByte msg)

/-- The relay-core image: the instruction memory of relay core 0, each byte with its address (the model's own form, log 24). -/
def State.relayImage (s : State) : List Byte := s.relays[0].imem.flatMap fun c => leBytes 8 c.1 ++ [c.2]

/-- ATTEST: nonce, three digests, the parameters, and a signature (R325; the layout is DESIGN CHOICE, log 24). -/
def execAttest (port : Nat) (s : State) : Out :=
  onMail port s (fun op => op = 4) fun p =>
    let report := p.mbox.readN 8 32 ++ digest s.mgc.imageA ++ digest s.mgc.imageB ++ digest s.relayImage
      ++ (s.mgc.reported.flatMap fun v => leBytes 8 v) ++ signedBytes s.freeCount 64
    (logMgc s.bumpFree logAttest (leNat (p.mbox.readN 8 8)), mbOk, report)

/-- Range of a parameter, times in ns (R326). -/
def paramRange (i : Nat) : Option (Nat × Nat) :=
  match i with
  | 0 => some (0, 3)
  | 1 => some (100000, 100000000)
  | 2 => some (0, 1000000000)
  | 3 => some (10000, 10000000)
  | 4 => some (5000, 1000000)
  | 5 => some (0, 255)
  | 6 => some (0, 1)
  | _ => none

/-- SETPARAM (R326). -/
def execSetparam (port : Nat) (s : State) : Out :=
  onMail port s (fun op => op = 5) fun p =>
    match paramRange (p.mailW 1) with
    | none => mailRefused s
    | some (lo, hi) =>
      if p.mailW 2 < lo || hi < p.mailW 2 then mailRefused s
      else (logMgc { s with mgc := { s.mgc with params := s.mgc.params.set (p.mailW 1) (p.mailW 2) } } logParam (p.mailW 1), mbOk, [])

/-- A monitor channel without samples (R327). -/
def Monitor.start (source shift : Nat) : Monitor := { Monitor.zero with source := source, shift := shift }

/-- Rewrites channel c of a die. -/
def setMonitor (s : State) (die c : Nat) (m : Monitor) : State :=
  let d := s.die die
  s.setDie die { d with monitors := d.monitors.set c m }

/-- MONCFG (R327). -/
def execMoncfg (port : Nat) (s : State) : Out :=
  onMail port s (fun op => op = 6) fun p =>
    let source := p.mailW 3
    if 2 ≤ p.mailW 1 || 8 ≤ p.mailW 2 || !(1 ≤ source && source ≤ 9) || 15 < p.mailW 4 then mailRefused s
    else (setMonitor s (p.mailW 1) (p.mailW 2) (Monitor.start source (p.mailW 4)), mbOk, [])

/-- The 80-byte record of a channel (R327). -/
def Monitor.record (m : Monitor) : List Byte :=
  leBytes 4 m.min ++ leBytes 4 m.max ++ leBytes 8 m.count ++ m.bins.flatMap fun v => leBytes 4 v

/-- MONREAD: the record, and with clear the channel cleared in the same step (R327). -/
def execMonread (port : Nat) (s : State) : Out :=
  onMail port s (fun op => op = 7) fun p =>
    if 2 ≤ p.mailW 1 || 8 ≤ p.mailW 2 then mailRefused s
    else
      let m := (s.die (p.mailW 1)).monitors.getD (p.mailW 2) Monitor.zero
      let s1 := if (p.mailW 3).testBit 0 then setMonitor s (p.mailW 1) (p.mailW 2) (Monitor.start m.source m.shift) else s
      (s1, mbOk, m.record)

/-! ## RESYNC (R328) -/

/-- A matrix slot table as 64 entries of 8 bytes (R202). -/
def slotBytes (slots : List (Bool × Nat)) : List Byte := slots.flatMap fun e => leBytes 8 (e.1.toNat * 2 ^ 63 + e.2)

/-- State code of hardware queue slot n: 4 while the slot that a spilled queue freed holds no other (R328). -/
def State.slotCode (s : State) (n : Nat) : Nat :=
  match s.queues.find? fun q => q.slot = some n with
  | none => if s.queues.any fun q => q.slot.isNone && q.spilledFrom = some n then 4 else 0
  | some q => if q.poisoned then 3 else if q.frozen then 2 else 1

/-- Cores of a partition as a 24-byte mask. -/
def coreMask (cores : List Nat) : Nat := cores.foldl (fun m n => m ||| 2 ^ n) 0

/-- Moves that are queued or copying. -/
def State.openMoves (s : State) : List MoveRec := (s.die0.moves ++ s.die1.moves).filter fun m => m.state = 1 || m.state = 2

/-- Contexts that have a partition. -/
def State.partitions (s : State) : List (Nat × Ctx) := s.ctxs.filter fun p => !p.2.part.isEmpty

/-- The summary of R328; the blocks outstanding of a launch are those not yet retired. The places within its header and its entries are
DESIGN CHOICE (log 24). -/
def summary (s : State) : List Byte :=
  let moves := s.openMoves
  let parts := s.partitions
  let counts : List Nat := [128, 32, 512, min moves.length 16, min parts.length 16, min s.launches.length 108]
  let cut : Nat := (if 16 < moves.length then 8 else 0) + (if 16 < parts.length then 16 else 0)
    + (if 108 < s.launches.length then 32 else 0)
  let head := leBytes 8 1 ++ leBytes 8 s.dtime ++ leBytes 8 s.dtime ++ (counts.flatMap fun n => leBytes 4 n) ++ leBytes 4 cut
  let states := (List.range 256).map fun i => BitVec.ofNat 8 (s.slotCode (2 * i) + 16 * s.slotCode (2 * i + 1))
  let move (m : MoveRec) : List Byte := leBytes 4 m.num ++ leBytes 4 m.state ++ leBytes 4 m.lines ++ leBytes 4 m.ctx
  let part (p : Nat × Ctx) : List Byte := leBytes 4 p.1 ++ leBytes 4 p.2.part.length ++ leBytes 24 (coreMask p.2.part)
  let slotOf (l : Launch) : Nat := ((s.queues.find? fun q => q.launches.contains l.num).bind fun q => q.slot).getD 0xFFFF
  let launch (l : Launch) : List Byte :=
    leBytes 4 l.num ++ leBytes 2 l.man.ctx ++ leBytes 2 (slotOf l) ++ leBytes 4 l.remaining ++ leBytes 1 l.status
      ++ leBytes 1 l.man.prio ++ leBytes 2 0
  padTo 0x40 head ++ padTo 0x400 (slotBytes s.die0.slots ++ slotBytes s.die1.slots)
    ++ padTo 0x100 (s.mgc.errors.flatMap fun n => leBytes 8 n) ++ padTo 0x100 states
    ++ padTo 0x100 ((moves.take 16).flatMap move) ++ padTo 0x200 ((parts.take 16).flatMap part)
    ++ padTo 0x6C0 ((s.launches.take 108).flatMap launch)

/-- RESYNC: the summary goes to the host's memory; no other state changes (R328). -/
def execResync (port : Nat) (s : State) : Out :=
  onMail port s (fun op => op = 8) fun p => (hostStore (p.mailW 1) (summary s) s, mbOk, [])

/-- TESTINJ: arms one uncorrectable error on a line of a core's store, in test mode only (R325). -/
def execTestinj (port : Nat) (s : State) : Out :=
  onMail port s (fun op => op = 9) fun p =>
    let core := p.mailW 2
    let store := p.mailW 3
    let off := p.mailW 4
    let limit := if store = 0 then Config.tileStoreBytes else 8 * Config.accEntries
    if !s.mgc.testMode || 2 ≤ p.mailW 1 || s.coreCount ≤ core || s.dieOf core ≠ p.mailW 1 || 2 ≤ store || limit ≤ off then mailRefused s
    else
      let c := s.core core
      let line := (store, off / 128)
      (s.setCore core { c with armed := c.armed.filter (fun x => x ≠ line) ++ [line] }, mbOk, [])

/-! ## Sensors, trips and halt (R18, R324, R329) -/

/-- SENSOR_READ: the readings stand as SENSE returns them (R324). -/
def execSensorRead (readings : List Nat) (s : State) : Out :=
  .next { s with mgc := { s.mgc with sensors := readings.map fun v => v % 2 ^ 32 } }

/-- THERMAL_TRIP: the arithmetic clock steps down (R18, R329). -/
def execThermalTrip (s : State) : Out :=
  let s1 := logMgc s logTrip 1
  .next (if s.slowClock then s1 else logMgc { s1 with slowClock := true } logClock 1687500000)

/-- TRIP_CLEAR: the clock returns to 2.25 GHz (R18). -/
def execTripClear (s : State) : Out :=
  .next (if s.slowClock then logMgc { s with slowClock := false } logClock 2250000000 else s)

/-- THERMAL_HALT: both dies halt, and the host ports go down (R329). -/
def execThermalHalt (s : State) : Out :=
  .next (logMgc { s with
    halted := true
    port0 := { s.port0 with down := true }
    port1 := { s.port1 with down := true } } logHalt 115)

/-! ## Device time (R322, R323) -/

/-- DTIME's state changes, and the MGC logs it (R323). -/
def setTimeState (s : State) (st : Nat) : State := if s.dstate = st then s else logMgc { s with dstate := st } logTimeState st

/-- PTP_SYNC: a synchronisation message, `offset` being PTP time less DTIME. The one step is forward, at first lock, with an offset above
1 ms and nothing admitted; every other correction is slewed (R322, R323). -/
def execPtpSync (offset : Int) (s : State) : Out :=
  let steps : Bool := !s.lockedOnce && decide (1000000 < offset) && s.launches.isEmpty && s.graphs.isEmpty
  let s1 : State := if steps then { s with dtime := (s.dtime + offset.toNat) % 2 ^ 64, slewOwed := 0 } else { s with slewOwed := offset }
  .next (setTimeState { s1 with lockedOnce := true, ptpDown := false, lastSync := s1.dtime } 1)

/-- DTIME from which lock is lost without a message. -/
def holdoverAfter : Nat := 10000000000

/-- HOLDOVER: lock is lost; DTIME runs on at its last rate (R323). -/
def execHoldover (portDown : Bool) (s : State) : Out :=
  if s.dstate ≠ 1 || (!portDown && s.dtime < s.lastSync + holdoverAfter) then .next s
  else .next (setTimeState { s with slewOwed := 0, ptpDown := portDown } 2)

/-- DTIME, a 64-bit count (R18), moves on by a time of the reference oscillator; what is owed to PTP time is made up at no more than 200 ppm
(R322). -/
def State.tick (s : State) (ns : Nat) : State :=
  let most : Int := (ns / 5000 : Nat)
  let c : Int := if s.dstate = 1 then max (-most) (min most s.slewOwed) else 0
  { s with dtime := ((s.dtime : Int) + ns + c).toNat % 2 ^ 64, slewOwed := s.slewOwed - c }

/-! ## Package reset (R325) -/

/-- The bank that boots: the valid bank of higher version (R325). -/
def Mgc.bootBank (m : Mgc) : Nat := if m.bankB.2 && (!m.bankA.2 || m.bankA.1 < m.bankB.1) then 1 else 0

/-- The MGC boots: a bank, the rollback counter, and test mode (R325). -/
def Mgc.boot (m : Mgc) : Mgc :=
  let b := m.bootBank
  { m with
    booted := b
    rollback := max m.rollback (if b = 0 then m.bankA.1 else m.bankB.1)
    testMode := m.params.getD 6 0 = 1 }

/-- PACKAGE_RESET: every register takes its reset value. What lies outside the package or survives it stays: memory, the MGC's log,
banks, counters and parameters, the relay cores' image, what is attached to the ports; and the model's own fields (R324, R325, log 6). -/
def execPackageReset (s : State) : Out :=
  let s1 : State := { State.reset with
    mem := s.mem
    eccLines := s.eccLines
    relays := s.relays.map fun r => { Relay.zero with imem := r.imem }
    mgc := s.mgc.boot
    clusters := s.clusters
    expanders := s.expanders
    schedule := s.schedule
    freeCount := s.freeCount
    evSeq := s.evSeq }
  .next (logMgc s1 logBoot (s1.mgc.booted * 2 + s1.mgc.testMode.toNat))

/-! ## Links and memories (R319 to R321, R330) -/

/-- SURPRISE_LINK_LOSS: every later access to the range of a second-tier port is one to nothing (R319). -/
def execSurpriseLinkLoss (p : Nat) (s : State) : Out :=
  if h : p < 8 then .next { s with linkLost := s.linkLost.set p true } else .next s

/-- DEVICE_UNREACHABLE: a device no longer replies (R321). -/
def execDeviceUnreachable (dev : Nat) (s : State) : Out :=
  .next { s with remotes := s.remotes.map fun r => if r.id = dev then { r with reachable := false } else r }

/-- n corrected errors are logged and counted, each with a place that no program can see (R330). -/
def noteCorrected : Nat → State → State
  | 0, s => s
  | n + 1, s => noteCorrected n (countErrors (logMgc s.bumpFree logCorrected (Config.unstated s.freeCount)) errCorrected 1)

/-- PATROL_SCRUB: every HBM line is read; what cannot be corrected is logged and counted, and so are the corrected errors since the last
scrub, whose number is free (R324, R330). -/
def execPatrolScrub (s : State) : Out :=
  let bad := s.eccLines.filter fun l => s.spaceOf (128 * l) = some 0
  let s1 := bad.foldl (fun s l => noteError s (128 * l)) s
  .next (noteCorrected (Config.corrected s1.freeCount) s1.bumpFree)

/-- Devices that a domain holds at most (R320). -/
def domainLimit : Nat := 2304

/-- DOMAIN_BRING_UP: DEVID and the domain size (R320), with a list of the domain's members, as many as its size, this device among them; the
other devices reply from then on. -/
def execDomainBringUp (id size : Nat) (members : List Nat) (s : State) : Out :=
  if domainLimit < size || members.eraseDups.length ≠ size || !members.contains id || members.any fun d => 4096 ≤ d then .next s
  else .next { s with
    devid := BitVec.ofNat 12 id
    domain := size
    remotes := (members.eraseDups.filter fun d => d ≠ id).map fun d =>
      match s.remotes.find? fun r => r.id = d with
      | some r => { r with reachable := true }
      | none => { id := d, reachable := true, pages := [] } }

end Sys2Proof.Machine
end

