-- ==== Sys2Proof/Machine/Publish.lean ====
section
/-! DEFINITION. PUBLISH: the check of a code object in one pass (R50 to R55, R124 to R126, R131, R132). -/

namespace Sys2Proof.Machine

/-! ## Reasons (R55, R132) -/

def rsLaneFn : Nat := 0x06
def rsControl : Nat := 0x08
def rsDepth : Nat := 0x09
def rsCall : Nat := 0x0A
def rsEnd : Nat := 0x0B
def rsLayout : Nat := 0x0C
def rsFn : Nat := 0x0D

/-- An offending word: its offset and a reason. -/
abbrev Offence := Nat × Nat

/-- The lowest offending word, with the lowest of its reasons (R55). -/
def lowest : List Offence → Option Offence
  | [] => none
  | x :: xs => match lowest xs with
    | none => some x
    | some y => if y.1 < x.1 || (y.1 = x.1 && y.2 < x.2) then some y else some x

/-! ## Header and directory (R131) -/

/-- A code object's header. -/
structure ObjHeader where
  len : Nat
  codeOff : Nat
  codeLen : Nat
  lfOff : Nat
  lfLen : Nat
  lftOff : Nat
  lftn : Nat
  dirOff : Nat
  dirn : Nat
  deriving DecidableEq, Repr

/-- The header of an object. -/
def parseHeader (bs : List Byte) : ObjHeader :=
  { len := fieldAt bs 8 8
    codeOff := fieldAt bs 16 4
    codeLen := fieldAt bs 20 4
    lfOff := fieldAt bs 24 4
    lfLen := fieldAt bs 28 4
    lftOff := fieldAt bs 32 4
    lftn := fieldAt bs 36 2
    dirOff := fieldAt bs 40 4
    dirn := fieldAt bs 44 2 }

/-- MAGIC of a code object. -/
def objMagic : Nat := 0x4B5A434F

/-- The header is well formed: its fixed fields, multiples and limits, and every section within L. -/
def headerOk (bs : List Byte) : Bool :=
  let h := parseHeader bs
  fieldAt bs 0 4 = objMagic && fieldAt bs 4 2 = 1 && fieldAt bs 6 2 < 2
    && fieldAt bs 38 2 = 0 && fieldAt bs 46 2 = 0 && fieldAt bs 56 8 = 0
    && h.codeOff % 8 = 0 && h.codeLen % 8 = 0 && h.lfOff % 4 = 0 && h.lfLen % 4 = 0 && h.lftn ≤ 512
    && h.codeOff + h.codeLen ≤ h.len && h.lfOff + h.lfLen ≤ h.len && h.lftOff + 8 * h.lftn ≤ h.len
    && h.dirOff + 16 * h.dirn ≤ h.len

/-- A directory entry: first word of the code section, kind, byte 5, kernel index, length in words. -/
structure ObjEntry where
  start : Nat
  kind : Nat
  flags : Nat
  kernel : Nat
  words : Nat
  deriving DecidableEq, Repr

/-- Kinds of directory entries. -/
def dkKernel : Nat := 1
def dkSub : Nat := 2
def dkWrap : Nat := 3
def dkTable : Nat := 4

/-- The end of an entry's extent. -/
def ObjEntry.stop (e : ObjEntry) : Nat := e.start + e.words

/-- Directory entry i; none when it is malformed by itself. DESIGN CHOICE (log 17): R131 does not say that an entry is malformed when a
wrap-up entry or a table has length 0 or reaches past its kernel or the code section, when byte 5 is nonzero outside kernels, or when bytes
6 and 7 are nonzero outside wrap-up entries; the model rejects each with reason 0x0C. -/
def entryAt (bs : List Byte) (h : ObjHeader) (i : Nat) : Option ObjEntry :=
  let d := (bs.drop (h.dirOff + 16 * i)).take 16
  let off := fieldAt d 0 4
  let e : ObjEntry := { start := (off - h.codeOff) / 8, kind := fieldAt d 4 1, flags := fieldAt d 5 1, kernel := fieldAt d 6 2,
                        words := fieldAt d 8 4 }
  if off < h.codeOff || off % 8 ≠ 0 || fieldAt d 12 4 ≠ 0 || e.kind = 0 || 4 < e.kind || e.words = 0
      || h.codeLen / 8 < e.stop || (if e.kind = dkKernel then 1 else 0) < e.flags || (e.kind ≠ dkWrap && e.kernel ≠ 0) then none
  else some e

/-- A wrap-up entry lies inside the extent of the kernel it names. -/
def wrapFits (bs : List Byte) (h : ObjHeader) (e : ObjEntry) : Bool :=
  e.kind ≠ dkWrap || (e.kernel < h.dirn && match entryAt bs h e.kernel with
    | some k => k.kind = dkKernel && k.start < e.start && e.stop ≤ k.stop
    | none => false)

/-- The first malformed directory entry, or the directory. -/
def readDirectory (bs : List Byte) (h : ObjHeader) : List Nat → Except Offence (List ObjEntry)
  | [] => .ok []
  | i :: is => match entryAt bs h i with
    | none => .error (h.dirOff + 16 * i, rsLayout)
    | some e =>
      if !wrapFits bs h e then .error (h.dirOff + 16 * i, rsLayout)
      else (readDirectory bs h is).map fun es => e :: es

/-! ## Words of extents (R51, R124 to R126) -/

/-- An open structure: an IF or a loop, its word, the target of its off field, the a of a LOOPC, and the words that must name
its end: the ELSE of an IF, the BRKs and CONTs of a loop. -/
structure Open where
  isIf : Bool
  at_ : Nat
  target : Int
  a : Nat
  inner : List (Nat × Int)
  deriving DecidableEq, Repr

/-- What the pass over an extent holds: open structures, offences so far, and the deepest chain of calls. -/
structure Scanned where
  stack : List Open
  bad : List (Nat × Nat)
  deep : Nat
  deriving DecidableEq, Repr

/-- What the words of an extent are checked against: the subroutines as (first word, end, deepest chain of calls that a call of
it starts), the tables as (first word, end, targets), LFTN, wrap-up entries, whether the extent is a subroutine, and whether some kernel
reaches it by calls. -/
structure ScanEnv where
  subs : List (Nat × Nat × Nat)
  tables : List (Nat × Nat × List Nat)
  lftn : Nat
  wraps : List Nat
  inSub : Bool
  live : Bool
  deriving DecidableEq, Repr

/-- Most structures open at once, and most calls. -/
def nestLimit : Nat := 16

/-- Notes an offence at a word. -/
def Scanned.note (x : Scanned) (i reason : Nat) : Scanned := { x with bad := (i, reason) :: x.bad }

/-- A word matches no open structure: the words around it are matched without it. -/
def Scanned.fail (x : Scanned) (i : Nat) : Scanned := x.note i rsControl

/-- A structure opens. -/
def Scanned.push (x : Scanned) (o : Open) : Scanned :=
  let y := { x with stack := o :: x.stack }
  if nestLimit < y.stack.length then y.note o.at_ rsDepth else y

/-- The chain of calls that a call of subroutines starts; none when one is no earlier subroutine. -/
def chainOf (env : ScanEnv) (i : Nat) : List Int → Option Nat
  | [] => some 0
  | t :: ts => match env.subs.find? fun s => (s.1 : Int) = t with
    | none => none
    | some s => if i < s.2.1 then none else (chainOf env i ts).map fun n => max n s.2.2

/-- A call of subroutines at word i (R125): each must be earlier, and the chain at most 16 deep, counting the call of the
subroutine that the word lies in; only chains that a kernel reaches count. -/
def Scanned.call (x : Scanned) (env : ScanEnv) (i : Nat) (targets : List Int) : Scanned :=
  match chainOf env i targets with
  | none => x.note i rsCall
  | some n =>
    let y := { x with deep := max x.deep n }
    if env.live && nestLimit < n + env.inSub.toNat then y.note i rsDepth else y

/-- The innermost open loop takes a BRK or CONT. -/
def addToLoop (i : Nat) (t : Int) : List Open → Option (List Open)
  | [] => none
  | o :: os => if o.isIf then (addToLoop i t os).map fun r => o :: r else some ({ o with inner := (i, t) :: o.inner } :: os)

/-- Target of an off field. -/
def target (i : Nat) (off : W32) : Int := (i : Int) + off.toInt

/-- The control rules at a well-formed word i (R122, R124 to R126). -/
def Scanned.control (x : Scanned) (env : ScanEnv) (i : Nat) (w : Instr) : Scanned :=
  match w with
  | .cIf _ _ _ off => x.push { isIf := true, at_ := i, target := target i off, a := 0, inner := [] }
  | .loop off => x.push { isIf := false, at_ := i, target := target i off, a := 0, inner := [] }
  | .loopc a off => x.push { isIf := false, at_ := i, target := target i off, a := a.val, inner := [] }
  | .cElse off => match x.stack with
    | o :: os =>
      if o.isIf && o.inner.isEmpty then { x with stack := { o with inner := [(i, target i off)] } :: os } else x.fail i
    | [] => x.fail i
  | .endif => match x.stack with
    | o :: os =>
      if !o.isIf then x.fail i
      else
        let y := { x with stack := os }
        match o.inner with
        | [] => if o.target = i then y else y.note o.at_ rsControl
        | e :: _ =>
          let z := if o.target = e.1 then y else y.note o.at_ rsControl
          if e.2 = i then z else z.note e.1 rsControl
    | [] => x.fail i
  | .brk _ _ _ off | .cont _ _ _ off => match addToLoop i (target i off) x.stack with
    | some st => { x with stack := st }
    | none => x.fail i
  | .endl a off => match x.stack with
    | o :: os =>
      if o.isIf then x.fail i
      else
        let y := { x with stack := os }
        let y1 := if o.target = i then y else y.note o.at_ rsControl
        let y2 := if target i off = o.at_ && a.val = o.a then y1 else y1.note i rsControl
        o.inner.foldl (fun (y : Scanned) (e : Nat × Int) => if e.2 = i then y else y.note e.1 rsControl) y2
    | [] => x.fail i
  | .call off => x.call env i [target i off]
  | .calli _ off => match env.tables.find? fun t => (t.1 : Int) = target i off with
    | some t => if i < t.2.1 then x.note i rsCall else x.call env i (t.2.2.map fun (n : Nat) => (n : Int))
    | none => x.note i rsCall
  | .ret => if env.inSub then x else x.note i rsEnd
  | _ => x

/-- The fn field of a MAP or REDUCE. -/
def fnField : Instr → Option Nat
  | .map _ fn _ _ | .map2 _ _ fn _ _ | .reduce _ fn _ _ | .reduce2 _ _ fn _ _ => some fn.val
  | _ => none

/-- The structure word (R122, minors 1 to 8) that a malformed word stands for, from its opcode, a and off. DEDUCED (log 17): a word of major 0x00
with one of these minors opens, closes or joins its structure whatever else is wrong with it, so that it alone is reported. -/
def structureOf (w : Nat) : Option Instr :=
  if fld 57 7 w ≠ 0 then none
  else match fld 52 5 w with
    | 1 => some (.cIf .eq 0 0 (bv 32 0 w))
    | 2 => some (.cElse (bv 32 0 w))
    | 3 => some .endif
    | 4 => some (.loop (bv 32 0 w))
    | 5 => some (.loopc (fin 32 47 w) (bv 32 0 w))
    | 6 => some (.endl (fin 32 47 w) (bv 32 0 w))
    | 7 => some (.brk .eq 0 0 (bv 32 0 w))
    | 8 => some (.cont .eq 0 0 (bv 32 0 w))
    | _ => none

/-- One word of an extent: decoding, fn, then control. DESIGN CHOICE (log 17): of a structure that is open across a wrap-up entry the
offending word is the wrap-up entry's word, not the word that opened the structure; R132 names neither. -/
def Scanned.word (x : Scanned) (env : ScanEnv) (i w : Nat) : Scanned :=
  let x1 := if env.wraps.contains i && !x.stack.isEmpty then x.fail i else x
  match decodeTile w with
  | .error r =>
    let x2 := x1.note i r.reason
    match structureOf w with
    | some ins => x2.control env i ins
    | none => x2
  | .ok ins =>
    let x2 := match fnField ins with
      | some fn => if env.lftn ≤ fn then x1.note i rsFn else x1
      | none => x1
    x2.control env i ins

/-- Words of an extent in ascending order. -/
def scanWords (env : ScanEnv) (word : Nat → Nat) : List Nat → Scanned → Scanned
  | [], x => x
  | i :: is, x => scanWords env word is (x.word env i (word i))

/-- A word is well formed and meets a test. -/
def lastIs (p : Instr → Bool) (w : Nat) : Bool := match decodeTile w with | .ok i => p i | .error _ => false

def isExit : Instr → Bool
  | .exit => true
  | _ => false
def isExitOrWrapend : Instr → Bool
  | .exit | .wrapend => true
  | _ => false
def isRet : Instr → Bool
  | .ret => true
  | _ => false

/-- How an extent must end (R126): the offences of its last words. -/
def endOffences (word : Nat → Nat) (e : ObjEntry) (wraps : List Nat) : List (Nat × Nat) :=
  let check (i : Nat) (p : Instr → Bool) : List (Nat × Nat) := if lastIs p (word i) then [] else [(i, rsEnd)]
  if e.kind = dkSub then check (e.stop - 1) isRet
  else check (e.stop - 1) isExitOrWrapend ++ wraps.flatMap fun w => check (w - 1) isExit

/-- The offences of a kernel's or subroutine's extent, as word numbers, and its deepest chain of calls. -/
def extentOffences (word : Nat → Nat) (env : ScanEnv) (e : ObjEntry) : List (Nat × Nat) × Nat :=
  let x := scanWords env word ((List.range e.words).map (e.start + ·)) { stack := [], bad := [], deep := 0 }
  let opened := x.stack.map fun o => (o.at_, rsControl)
  (x.bad ++ opened ++ endOffences word e env.wraps, x.deep)

/-! ## Jump tables (R125, R132) -/

/-- The offences of a jump table's extent as word numbers, and the subroutines it names. -/
def tableOffences (word : Nat → Nat) (subs : List (Nat × Nat × Nat)) (e : ObjEntry) : List (Nat × Nat) × List Nat :=
  let h := word e.start
  let head := if h = e.words - 1 && 1 ≤ h && h ≤ 256 then [] else [(e.start, rsCall)]
  let entries := (List.range (e.words - 1)).map fun j => e.start + 1 + j
  let dest (i : Nat) : Int := (e.start : Int) + signedOf 32 (word i)
  let good (i : Nat) : Bool := word i < 2 ^ 32 && subs.any fun s => (s.1 : Int) = dest i && s.2.1 ≤ e.start
  (head ++ (entries.filter fun i => !good i).map fun i => (i, rsCall), (entries.filter good).map fun i => (dest i).toNat)

/-! ## The whole object -/

/-- Entries of the directory by their first word. -/
def insertEntry (e : ObjEntry) : List ObjEntry → List ObjEntry
  | [] => [e]
  | x :: xs => if e.start < x.start then e :: x :: xs else x :: insertEntry e xs

/-- What the pass over the extents has found: offences as word numbers, subroutines and tables so far. -/
structure Pass where
  bad : List (Nat × Nat)
  subs : List (Nat × Nat × Nat)
  tables : List (Nat × Nat × List Nat)
  deriving DecidableEq, Repr

/-- Subroutines that the words of an extent call, by their first words. -/
def callTargets (word : Nat → Nat) (tables : List ObjEntry) (e : ObjEntry) : List Nat :=
  ((List.range e.words).map (e.start + ·)).flatMap fun i => match decodeTile (word i) with
    | .ok (.call off) => [(target i off).toNat]
    | .ok (.calli _ off) =>
      (tables.filter fun t => (t.start : Int) = target i off).flatMap fun t =>
        (List.range (t.words - 1)).map fun j => ((t.start : Int) + signedOf 32 (word (t.start + 1 + j))).toNat
    | _ => []

/-- First words of the subroutines that kernels reach by calls: extents from the last to the first, since a call goes to an earlier one. -/
def reached (word : Nat → Nat) (tables : List ObjEntry) : List ObjEntry → List Nat
  | [] => []
  | e :: es =>
    let r := reached word tables es
    if e.kind = dkKernel || (e.kind = dkSub && r.contains e.start) then callTargets word tables e ++ r else r

/-- One extent in ascending order. -/
def Pass.extent (p : Pass) (word : Nat → Nat) (lftn : Nat) (wraps : List ObjEntry) (live : List Nat) (e : ObjEntry) : Pass :=
  if e.kind = dkTable then
    let r := tableOffences word p.subs e
    { p with bad := r.1 ++ p.bad, tables := (e.start, e.stop, r.2) :: p.tables }
  else
    let inside := (wraps.filter fun w => e.start < w.start && w.start < e.stop).map fun w => w.start
    let env : ScanEnv :=
      { subs := p.subs
        tables := p.tables
        lftn := lftn
        wraps := inside
        inSub := e.kind = dkSub
        live := e.kind ≠ dkSub || live.contains e.start }
    let r := extentOffences word env e
    { p with
      bad := r.1 ++ p.bad
      subs := if e.kind = dkSub then (e.start, e.stop, r.2 + 1) :: p.subs else p.subs }

/-- Code words that no extent covers, or that two cover (R131). -/
def coverOffences (es : List ObjEntry) (words : Nat) : List (Nat × Nat) :=
  ((List.range words).filter fun i => (es.filter fun e => e.start ≤ i && i < e.stop).length ≠ 1).map fun i => (i, rsLayout)

/-- Offences of the lane-function section: its words (R51), and the functions of the table (R50). Which word of a malformed function is
reported is open: the table entry for a bad entry, otherwise the word at which an LRET stands too early or is missing (DESIGN CHOICE,
log 17). -/
def laneOffences (bs : List Byte) (h : ObjHeader) : List Offence :=
  let word (off : Nat) : Nat := fieldAt bs (h.lfOff + off) 4
  let words := (List.range (h.lfLen / 4)).flatMap fun i => match decodeLane (word (4 * i)) with
    | .ok _ => []
    | .error r => [(h.lfOff + 4 * i, r.reason)]
  let isLret (off : Nat) : Bool := match decodeLane (word off) with | .ok .lret => true | _ => false
  let fns := (List.range h.lftn).flatMap fun i =>
    let e := fieldAt bs (h.lftOff + 8 * i) 8
    let start := e % 2 ^ 32
    let n := e / 2 ^ 32 % 2 ^ 16
    if 2 ^ 48 ≤ e || start % 4 ≠ 0 || n = 0 || 32 < n || h.lfLen < start + 4 * n then [(h.lftOff + 8 * i, rsLaneFn)]
    else ((List.range n).filter fun j => isLret (start + 4 * j) ≠ decide (j + 1 = n)).map fun j =>
      (h.lfOff + start + 4 * j, rsLaneFn)
  words ++ fns

/-- PUBLISH's check of an object's bytes: none when it passes, else the lowest offending word and its reason (R132). The header
and the directory come first. -/
def checkObject (bs : List Byte) : Option Offence :=
  if !headerOk bs then some (0, rsLayout)
  else
    let h := parseHeader bs
    match readDirectory bs h (List.range h.dirn) with
    | .error o => some o
    | .ok es =>
      let extents := (es.filter fun e => e.kind ≠ dkWrap).foldl (fun r e => insertEntry e r) []
      let wraps := es.filter fun e => e.kind = dkWrap
      let word (i : Nat) : Nat := fieldAt bs (h.codeOff + 8 * i) 8
      let live := reached word (extents.filter fun e => e.kind = dkTable) extents
      let p := extents.foldl (fun p e => Pass.extent p word h.lftn wraps live e) { bad := [], subs := [], tables := [] }
      let code := (p.bad ++ coverOffences extents (h.codeLen / 8)).map fun o => (h.codeOff + 8 * o.1, o.2)
      lowest (code ++ laneOffences bs h)

/-- s[d] of a PUBLISH (R132). -/
def publishResult (o : Option Offence) : W64 :=
  match o with
  | none => 0
  | some (off, reason) => BitVec.ofNat 64 (reason % 256 * 2 ^ 56 + off % 2 ^ 32)

/-- Rights that PUBLISH needs (R132). -/
def publishNeed : Need := Need.readWrite

/-- The object at a reference: its header, then its L bytes; a header that is not well formed is all that is read. -/
def readObject (s : State) (e : Env) (image : W64) : Res (List Byte) :=
  (readRef s e image 0 64 false publishNeed).andThen fun s h =>
    if !headerOk h then .ok s h else readRef s e image 0 (fieldAt h 8 8) false publishNeed

/-- FLAGS and PUBLEN of a checked object: PUBLEN := L and PUB set on success, PUB cleared on failure (R132). -/
def writePublished (s : State) (e : Env) (image : W64) (bs : List Byte) (good : Bool) : Res Unit :=
  let flags := fieldAt bs 6 2 / 2 * 2 + good.toNat
  (if good then writeRef s e image 48 (leBytes 8 (fieldAt bs 8 8)) false publishNeed else .ok s ()).andThen fun s _ =>
    writeRef s e image 6 (leBytes 2 flags) false publishNeed

/-- PUBLISH (R132): after every older event, as a release; a memory fault traps and leaves FLAGS. -/
def execPublish (d : SReg) (aa : ARef) (s : State) : Out :=
  afterSettling (fun _ => true) s fun s k b =>
    if b.pa aa then trapOut s k b (b.refPoison aa)
    else
      let e := s.envOf k b
      let image := b.ga aa
      match readObject s e image with
      | .wait s => .next s
      | .bad s f => trapOut s k b { f with aref := aa.val }
      | .ok s bs =>
        let r := checkObject bs
        match writePublished s e image bs r.isNone with
        | .wait s => .next s
        | .bad s f => trapOut s k b { f with aref := aa.val }
        | .ok s _ => .next (s.setBlock k (b.putS d (publishResult r) false).advance)

end Sys2Proof.Machine
end

