-- ==== Sys2Proof/Machine/Reference.lean ====
section
/-! DEFINITION. The reference instructions (R148, R149). None of them checks a handle, a right or a bound. -/

namespace Sys2Proof.Machine

/-- Writes a[d]: poisoned when an input was, or, when `bad`, with origin cause BOUND, address 0 and this PC (R149). -/
def Block.putRef (b : Block) (d : ARef) (v : W64) (inputPoison bad : Bool) : Block :=
  let b1 := b.putA d v (inputPoison || bad)
  if bad && !inputPoison then b1.noteOrigin (some { cause := causeBound, addr := 0, pc := b.pc, dev := 0 }) else b1

/-- A reference result. -/
def refResult (d : ARef) (v : Block → W64) (p bad : Block → Bool) (s : State) : Out :=
  onBlock s fun k b => .next (s.setBlock k (b.putRef d (v b) (p b) (bad b)).advance)

/-- HIDX(aa) with an offset moved by i, mod 2^44 (R149). -/
def refMove (r : W64) (i : Int) : W64 := mkRef (refH r) (((refOff r : Int) + i) % (2 ^ 44)).toNat

/-- The offset leaves [0, 2^44) (R149). -/
def refLeaves (r : W64) (i : Int) : Bool := (refOff r : Int) + i < 0 || (2 ^ 44 : Int) ≤ (refOff r : Int) + i

/-- REFMK (R149). -/
def execRefmk (d : ARef) (a b : SReg) (s : State) : Out :=
  refResult d (fun x => mkRef ((x.gs a).toNat % 2 ^ 20) ((x.gs b).toNat % 2 ^ 44)) (fun x => x.ps a || x.ps b)
    (fun x => (x.gs a).toNat ≥ 2 ^ 20 || (x.gs b).toNat ≥ 2 ^ 44) s

/-- REFMK.W (R149). -/
def execRefmkW (d : ARef) (a : SReg) (s : State) : Out := refResult d (fun x => x.gs a) (fun x => x.ps a) (fun _ => false) s

/-- REFADD (R149). -/
def execRefadd (d a : ARef) (b : SReg) (s : State) : Out :=
  refResult d (fun x => refMove (x.ga a) (x.gs b).toInt) (fun x => x.pa a || x.ps b) (fun x => refLeaves (x.ga a) (x.gs b).toInt) s

/-- REFADD with an immediate (R149). -/
def execRefaddImm (d a : ARef) (imm : W32) (s : State) : Out :=
  refResult d (fun x => refMove (x.ga a) imm.toInt) (fun x => x.pa a) (fun x => refLeaves (x.ga a) imm.toInt) s

/-- REFH (R149). -/
def execRefh (d : SReg) (a : ARef) (s : State) : Out :=
  scalarResult d (fun x => BitVec.ofNat 64 (refH (x.ga a))) (fun x => x.pa a) s

/-- REFOFF (R149). -/
def execRefoff (d : SReg) (a : ARef) (s : State) : Out :=
  scalarResult d (fun x => BitVec.ofNat 64 (refOff (x.ga a))) (fun x => x.pa a) s

/-- REFOFF.W (R149). -/
def execRefoffW (d : SReg) (a : ARef) (s : State) : Out := scalarResult d (fun x => x.ga a) (fun x => x.pa a) s

end Sys2Proof.Machine
end

