-- ==== Sys2Proof/Machine/Dispatch.lean ====
section
/-! DEFINITION. The dispatch: one arm per constructor of `Instr`, each one direct call of that instruction's meaning. -/

namespace Sys2Proof.Machine

def exec (i : Instr) (s : State) : Host.Outcome State Fault Refusal :=
  match i with
  | .cIf cc a b off => Sys2Proof.Machine.execCIf cc a b off s
  | .cElse off => Sys2Proof.Machine.execCElse off s
  | .endif => Sys2Proof.Machine.execEndif s
  | .loop off => Sys2Proof.Machine.execLoop off s
  | .loopc a off => Sys2Proof.Machine.execLoopc a off s
  | .endl a off => Sys2Proof.Machine.execEndl a off s
  | .brk cc a b off => Sys2Proof.Machine.execBrk cc a b off s
  | .cont cc a b off => Sys2Proof.Machine.execCont cc a b off s
  | .call off => Sys2Proof.Machine.execCall off s
  | .calli a off => Sys2Proof.Machine.execCalli a off s
  | .ret => Sys2Proof.Machine.execRet s
  | .exit => Sys2Proof.Machine.execExit s
  | .trap code => Sys2Proof.Machine.execTrap code s
  | .nop => Sys2Proof.Machine.execNop s
  | .yield => Sys2Proof.Machine.execYield s
  | .srd d reg => Sys2Proof.Machine.execSrd d reg s
  | .swr a reg => Sys2Proof.Machine.execSwr a reg s
  | .hinv a => Sys2Proof.Machine.execHinv a s
  | .xroot a => Sys2Proof.Machine.execXroot a s
  | .capq d c a imm => Sys2Proof.Machine.execCapq d c a imm s
  | .lwid d => Sys2Proof.Machine.execLwid d s
  | .publish d aa => Sys2Proof.Machine.execPublish d aa s
  | .valid v => Sys2Proof.Machine.execValid v s
  | .wrapend => Sys2Proof.Machine.execWrapend s
  | .eret => Sys2Proof.Machine.execEret s
  | .savectx => Sys2Proof.Machine.execSavectx s
  | .loadctx => Sys2Proof.Machine.execLoadctx s
  | .add d a b => Sys2Proof.Machine.execAdd d a b s
  | .sub d a b => Sys2Proof.Machine.execSub d a b s
  | .mul d a b => Sys2Proof.Machine.execMul d a b s
  | .mulh d a b => Sys2Proof.Machine.execMulh d a b s
  | .mulhu d a b => Sys2Proof.Machine.execMulhu d a b s
  | .div d a b => Sys2Proof.Machine.execDiv d a b s
  | .divu d a b => Sys2Proof.Machine.execDivu d a b s
  | .rem d a b => Sys2Proof.Machine.execRem d a b s
  | .remu d a b => Sys2Proof.Machine.execRemu d a b s
  | .and d a b => Sys2Proof.Machine.execAnd d a b s
  | .or d a b => Sys2Proof.Machine.execOr d a b s
  | .xor d a b => Sys2Proof.Machine.execXor d a b s
  | .sll d a b => Sys2Proof.Machine.execSll d a b s
  | .srl d a b => Sys2Proof.Machine.execSrl d a b s
  | .sra d a b => Sys2Proof.Machine.execSra d a b s
  | .slt d a b => Sys2Proof.Machine.execSlt d a b s
  | .sltu d a b => Sys2Proof.Machine.execSltu d a b s
  | .min d a b => Sys2Proof.Machine.execMin d a b s
  | .max d a b => Sys2Proof.Machine.execMax d a b s
  | .clz d a => Sys2Proof.Machine.execClz d a s
  | .popc d a => Sys2Proof.Machine.execPopc d a s
  | .sel d a b c => Sys2Proof.Machine.execSel d a b c s
  | .bfx d a lo len1 sgn => Sys2Proof.Machine.execBfx d a lo len1 sgn s
  | .bfi d a lo len1 => Sys2Proof.Machine.execBfi d a lo len1 s
  | .addi d a imm => Sys2Proof.Machine.execAddi d a imm s
  | .andi d a imm => Sys2Proof.Machine.execAndi d a imm s
  | .ori d a imm => Sys2Proof.Machine.execOri d a imm s
  | .xori d a imm => Sys2Proof.Machine.execXori d a imm s
  | .slli d a n => Sys2Proof.Machine.execSlli d a n s
  | .srli d a n => Sys2Proof.Machine.execSrli d a n s
  | .srai d a n => Sys2Proof.Machine.execSrai d a n s
  | .li d imm => Sys2Proof.Machine.execLi d imm s
  | .lih d imm => Sys2Proof.Machine.execLih d imm s
  | .refmk d a b => Sys2Proof.Machine.execRefmk d a b s
  | .refmkW d a => Sys2Proof.Machine.execRefmkW d a s
  | .refadd d a b => Sys2Proof.Machine.execRefadd d a b s
  | .refaddImm d a imm => Sys2Proof.Machine.execRefaddImm d a imm s
  | .refh d a => Sys2Proof.Machine.execRefh d a s
  | .refoff d a => Sys2Proof.Machine.execRefoff d a s
  | .refoffW d a => Sys2Proof.Machine.execRefoffW d a s
  | .ldB d aref ord disp => Sys2Proof.Machine.execLdB d aref ord disp s
  | .ldH d aref ord disp => Sys2Proof.Machine.execLdH d aref ord disp s
  | .ldW d aref ord disp => Sys2Proof.Machine.execLdW d aref ord disp s
  | .ldD d aref ord disp => Sys2Proof.Machine.execLdD d aref ord disp s
  | .ldq d aref ord disp => Sys2Proof.Machine.execLdq d aref ord disp s
  | .stB d aref ord disp => Sys2Proof.Machine.execStB d aref ord disp s
  | .stH d aref ord disp => Sys2Proof.Machine.execStH d aref ord disp s
  | .stW d aref ord disp => Sys2Proof.Machine.execStW d aref ord disp s
  | .stD d aref ord disp => Sys2Proof.Machine.execStD d aref ord disp s
  | .stq d aref ord disp => Sys2Proof.Machine.execStq d aref ord disp s
  | .tbind td rows cols fmt home lay => Sys2Proof.Machine.execTbind td rows cols fmt home lay s
  | .tbindMn td sh fmt home lay => Sys2Proof.Machine.execTbindMn td sh fmt home lay s
  | .tbindMk td sh fmt home lay => Sys2Proof.Machine.execTbindMk td sh fmt home lay s
  | .tbindKn td sh fmt home lay => Sys2Proof.Machine.execTbindKn td sh fmt home lay s
  | .tview td rows cols a => Sys2Proof.Machine.execTview td rows cols a s
  | .tlay td lay => Sys2Proof.Machine.execTlay td lay s
  | .tunbind td => Sys2Proof.Machine.execTunbind td s
  | .tdesc d ta w => Sys2Proof.Machine.execTdesc d ta w s
  | .tzero td => Sys2Proof.Machine.execTzero td s
  | .tfill td a => Sys2Proof.Machine.execTfill td a s
  | .tcpyt td ta mask => Sys2Proof.Machine.execTcpyt td ta mask s
  | .tsettle td => Sys2Proof.Machine.execTsettle td s
  | .tstat d ta n => Sys2Proof.Machine.execTstat d ta n s
  | .shape d a b c => Sys2Proof.Machine.execShape d a b c s
  | .shq d a f => Sys2Proof.Machine.execShq d a f s
  | .shqAdv d a => Sys2Proof.Machine.execShqAdv d a s
  | .tld td aref b kc ord disp => Sys2Proof.Machine.execTld td aref b kc ord disp s
  | .tst td aref b ord disp => Sys2Proof.Machine.execTst td aref b ord disp s
  | .tldg td aref b tx ord disp => Sys2Proof.Machine.execTldg td aref b tx ord disp s
  | .tsts td aref b tx ord disp => Sys2Proof.Machine.execTsts td aref b tx ord disp s
  | .tldd td aref b ord disp => Sys2Proof.Machine.execTldd td aref b ord disp s
  | .tstd td aref b ord disp => Sys2Proof.Machine.execTstd td aref b ord disp s
  | .pld td win b disp => Sys2Proof.Machine.execPld td win b disp s
  | .plds d win disp => Sys2Proof.Machine.execPlds d win disp s
  | .tprf aref b disp => Sys2Proof.Machine.execTprf aref b disp s
  | .xcpy d dst src flag b ord => Sys2Proof.Machine.execXcpy d dst src flag b ord s
  | .xcpyCopy die idx => Sys2Proof.Machine.execXcpyCopy die idx s
  | .xcpyFlag die idx => Sys2Proof.Machine.execXcpyFlag die idx s
  | .tmma td a b => Sys2Proof.Machine.execTmma td a b s
  | .tmmas td a b tsa tsb => Sys2Proof.Machine.execTmmas td a b tsa tsb s
  | .tmmax td a b => Sys2Proof.Machine.execTmmax td a b s
  | .gmma td ta b bar => Sys2Proof.Machine.execGmma td ta b bar s
  | .gmmaPart k => Sys2Proof.Machine.execGmmaPart k s
  | .tacz td => Sys2Proof.Machine.execTacz td s
  | .tacv td ta fmt rnd sat mask => Sys2Proof.Machine.execTacv td ta fmt rnd sat mask s
  | .tacq td ta fmt rnd add mask => Sys2Proof.Machine.execTacq td ta fmt rnd add mask s
  | .mslt a => Sys2Proof.Machine.execMslt a s
  | .tadd td ta tb rnd sat mask => Sys2Proof.Machine.execTadd td ta tb rnd sat mask s
  | .tsub td ta tb rnd sat mask => Sys2Proof.Machine.execTsub td ta tb rnd sat mask s
  | .tmul td ta tb rnd sat mask => Sys2Proof.Machine.execTmul td ta tb rnd sat mask s
  | .tfma td ta tb tc rnd sat mask => Sys2Proof.Machine.execTfma td ta tb tc rnd sat mask s
  | .tmin td ta tb rnd sat mask => Sys2Proof.Machine.execTmin td ta tb rnd sat mask s
  | .tmax td ta tb rnd sat mask => Sys2Proof.Machine.execTmax td ta tb rnd sat mask s
  | .tabs td ta sat mask => Sys2Proof.Machine.execTabs td ta sat mask s
  | .tneg td ta sat mask => Sys2Proof.Machine.execTneg td ta sat mask s
  | .tcvt td ta fmt rnd sat mask => Sys2Proof.Machine.execTcvt td ta fmt rnd sat mask s
  | .tcmp md ta tb fmt pred mask => Sys2Proof.Machine.execTcmp md ta tb fmt pred mask s
  | .tsel td ta tb mask => Sys2Proof.Machine.execTsel td ta tb mask s
  | .tand td ta tb mask => Sys2Proof.Machine.execTand td ta tb mask s
  | .tor td ta tb mask => Sys2Proof.Machine.execTor td ta tb mask s
  | .txor td ta tb mask => Sys2Proof.Machine.execTxor td ta tb mask s
  | .tnot td ta mask => Sys2Proof.Machine.execTnot td ta mask s
  | .tshl td ta n mask => Sys2Proof.Machine.execTshl td ta n mask s
  | .tshr td ta n mask => Sys2Proof.Machine.execTshr td ta n mask s
  | .tbsh td ta b mask => Sys2Proof.Machine.execTbsh td ta b mask s
  | .tfsh td ta tb c mask => Sys2Proof.Machine.execTfsh td ta tb c mask s
  | .trcp td ta mask => Sys2Proof.Machine.execTrcp td ta mask s
  | .trsq td ta mask => Sys2Proof.Machine.execTrsq td ta mask s
  | .trcpn td ta tb mask => Sys2Proof.Machine.execTrcpn td ta tb mask s
  | .trsqn td ta tb mask => Sys2Proof.Machine.execTrsqn td ta tb mask s
  | .texp2 td ta mask => Sys2Proof.Machine.execTexp2 td ta mask s
  | .tlog2 td ta mask => Sys2Proof.Machine.execTlog2 td ta mask s
  | .tsumr td ta rnd sat mask => Sys2Proof.Machine.execTsumr td ta rnd sat mask s
  | .tmaxr td ta mask => Sys2Proof.Machine.execTmaxr td ta mask s
  | .topk td tc ta k mask => Sys2Proof.Machine.execTopk td tc ta k mask s
  | .tsortr td ta tc desc => Sys2Proof.Machine.execTsortr td ta tc desc s
  | .tscanr td ta kind rnd sat => Sys2Proof.Machine.execTscanr td ta kind rnd sat s
  | .tperm td ta tb col mask => Sys2Proof.Machine.execTperm td ta tb col mask s
  | .tbcast td ta col mask => Sys2Proof.Machine.execTbcast td ta col mask s
  | .mand md ma mb => Sys2Proof.Machine.execMand md ma mb s
  | .mor md ma mb => Sys2Proof.Machine.execMor md ma mb s
  | .mnot md ma => Sys2Proof.Machine.execMnot md ma s
  | .mcnt d ma => Sys2Proof.Machine.execMcnt d ma s
  | .map td fn ins mask => Sys2Proof.Machine.execMap td fn ins mask s
  | .map2 td td2 fn ins mask => Sys2Proof.Machine.execMap2 td td2 fn ins mask s
  | .reduce td fn ins mask => Sys2Proof.Machine.execReduce td fn ins mask s
  | .reduce2 td td2 fn ins mask => Sys2Proof.Machine.execReduce2 td td2 fn ins mask s
  | .atomW op d aref b ord disp => Sys2Proof.Machine.execAtomW op d aref b ord disp s
  | .atomD op d aref b ord disp => Sys2Proof.Machine.execAtomD op d aref b ord disp s
  | .casW d aref b c ord disp => Sys2Proof.Machine.execCasW d aref b c ord disp s
  | .casD d aref b c ord disp => Sys2Proof.Machine.execCasD d aref b c ord disp s
  | .cas16 d aref b c ord disp => Sys2Proof.Machine.execCas16 d aref b c ord disp s
  | .lda d aref ord disp => Sys2Proof.Machine.execLda d aref ord disp s
  | .stl d aref ord disp => Sys2Proof.Machine.execStl d aref ord disp s
  | .fence sc => Sys2Proof.Machine.execFence sc s
  | .waitv d aref b c ord disp => Sys2Proof.Machine.execWaitv d aref b c ord disp s
  | .waitvRound k => Sys2Proof.Machine.execWaitvRound k s
  | .bari bar cnt => Sys2Proof.Machine.execBari bar cnt s
  | .bara bar cnt => Sys2Proof.Machine.execBara bar cnt s
  | .barw d bar => Sys2Proof.Machine.execBarw d bar s
  | .barwWake k => Sys2Proof.Machine.execBarwWake k s
  | .bart d bar => Sys2Proof.Machine.execBart d bar s
  | .tsend t core tag => Sys2Proof.Machine.execTsend t core tag s
  | .trecv t core tag => Sys2Proof.Machine.execTrecv t core tag s
  | .tileTransfer k idx => Sys2Proof.Machine.execTileTransfer k idx s
  | .enq d q ord => Sys2Proof.Machine.execEnq d q ord s
  | .transform ctx q => Sys2Proof.Machine.execTransform ctx q s
  | .redist ctx q => Sys2Proof.Machine.execRedist ctx q s
  | .compress ctx q => Sys2Proof.Machine.execCompress ctx q s
  | .decompress ctx q => Sys2Proof.Machine.execDecompress ctx q s
  | .recode ctx q => Sys2Proof.Machine.execRecode ctx q s
  | .resample ctx q => Sys2Proof.Machine.execResample ctx q s
  | .quant ctx q => Sys2Proof.Machine.execQuant ctx q s
  | .binderyCompletionRecord die idx => Sys2Proof.Machine.execBinderyCompletionRecord die idx s
  | .move d src dst recd b ord => Sys2Proof.Machine.execMove d src dst recd b ord s
  | .moveClaim die => Sys2Proof.Machine.execMoveClaim die s
  | .mark die => Sys2Proof.Machine.execMark die s
  | .moveReport die => Sys2Proof.Machine.execMoveReport die s
  | .mvq d b => Sys2Proof.Machine.execMvq d b s
  | .mvwait d b ord => Sys2Proof.Machine.execMvwait d b ord s
  | .mvwaitWake k => Sys2Proof.Machine.execMvwaitWake k s
  | .sweep d aa b => Sys2Proof.Machine.execSweep d aa b s
  | .mkq d aa => Sys2Proof.Machine.execMkq d aa s
  | .mkfree d aa recd b ord => Sys2Proof.Machine.execMkfree d aa recd b ord s
  | .mkfreeEvent die => Sys2Proof.Machine.execMkfreeEvent die s
  | .quarantineEnd die idx => Sys2Proof.Machine.execQuarantineEnd die idx s
  | .read k ev u => Sys2Proof.Machine.execRead k ev u s
  | .drain k ev u => Sys2Proof.Machine.execDrain k ev u s
  | .perform k ev u => Sys2Proof.Machine.execPerform k ev u s
  | .acquirePoint k ev => Sys2Proof.Machine.execAcquirePoint k ev s
  | .releasePoint k ev => Sys2Proof.Machine.execReleasePoint k ev s
  | .expand pa => Sys2Proof.Machine.execExpand pa s
  | .code die idx => Sys2Proof.Machine.execCode die idx s
  | .microOp k ent => Sys2Proof.Machine.execMicroOp k ent s
  | .logicalTimeAdvance core => Sys2Proof.Machine.execLogicalTimeAdvance core s
  | .slotRound die => Sys2Proof.Machine.execSlotRound die s
  | .rampInterval die demand => Sys2Proof.Machine.execRampInterval die demand s
  | .diversion k => Sys2Proof.Machine.execDiversion k s
  | .budgetOverrun k => Sys2Proof.Machine.execBudgetOverrun k s
  | .retirement k => Sys2Proof.Machine.execRetirement k s
  | .launchCompletionRecord n => Sys2Proof.Machine.execLaunchCompletionRecord n s
  | .launchDeadline n => Sys2Proof.Machine.execLaunchDeadline n s
  | .sealWrite line v => Sys2Proof.Machine.execSeal line v s
  | .lineRecall line => Sys2Proof.Machine.execLineRecall line s
  | .rfetch rd rs1 => Sys2Proof.Machine.execRfetch rd rs1 s
  | .bxtr rd rs1 rs2 => Sys2Proof.Machine.execBxtr rd rs1 rs2 s
  | .swaitq rd rs1 => Sys2Proof.Machine.execSwaitq rd rs1 s
  | .dspch rd rs1 rs2 => Sys2Proof.Machine.execDspch rd rs1 rs2 s
  | .launchChoice k => Sys2Proof.Machine.execLaunchChoice k s
  | .systemModeRequest k req => Sys2Proof.Machine.execSystemModeRequest k req s
  | .kernelNode g n => Sys2Proof.Machine.execKernelNode g n s
  | .copyNode g n => Sys2Proof.Machine.execCopyNode g n s
  | .condNode g n => Sys2Proof.Machine.execCondNode g n s
  | .loopNode g n => Sys2Proof.Machine.execLoopNode g n s
  | .waitNode g n => Sys2Proof.Machine.execWaitNode g n s
  | .signalNode g n => Sys2Proof.Machine.execSignalNode g n s
  | .endNode g n => Sys2Proof.Machine.execEndNode g n s
  | .graphDeadline g => Sys2Proof.Machine.execGraphDeadline g s
  | .faultHoldExpiry g n => Sys2Proof.Machine.execFaultHoldExpiry g n s
  | .rescueSlice k saved tgt req => Sys2Proof.Machine.execRescueSlice k saved tgt req s
  | .rescueSliceEnd req => Sys2Proof.Machine.execRescueSliceEnd req s
  | .relayEccHalt r => Sys2Proof.Machine.execRelayEccHalt r s
  | .queuePoison q => Sys2Proof.Machine.execQueuePoison q s
  | .ctxset port => Sys2Proof.Machine.execCtxset port s
  | .part port => Sys2Proof.Machine.execPart port s
  | .cancel port => Sys2Proof.Machine.execCancel port s
  | .inval port => Sys2Proof.Machine.execInval port s
  | .freply port => Sys2Proof.Machine.execFreply port s
  | .drover port => Sys2Proof.Machine.execDrover port s
  | .hostHinv port => Sys2Proof.Machine.execHostHinv port s
  | .pinwin port => Sys2Proof.Machine.execPinwin port s
  | .hostMemRead port pa n => Sys2Proof.Machine.execHostMemRead port pa n s
  | .hostMemWrite port pa bytes => Sys2Proof.Machine.execHostMemWrite port pa bytes s
  | .sense port => Sys2Proof.Machine.execSense port s
  | .logread port => Sys2Proof.Machine.execLogread port s
  | .update port => Sys2Proof.Machine.execUpdate port s
  | .attest port => Sys2Proof.Machine.execAttest port s
  | .setparam port => Sys2Proof.Machine.execSetparam port s
  | .moncfg port => Sys2Proof.Machine.execMoncfg port s
  | .monread port => Sys2Proof.Machine.execMonread port s
  | .resync port => Sys2Proof.Machine.execResync port s
  | .testinj port => Sys2Proof.Machine.execTestinj port s
  | .sensorRead readings => Sys2Proof.Machine.execSensorRead readings s
  | .thermalTrip => Sys2Proof.Machine.execThermalTrip s
  | .tripClear => Sys2Proof.Machine.execTripClear s
  | .thermalHalt => Sys2Proof.Machine.execThermalHalt s
  | .ptpSync offset => Sys2Proof.Machine.execPtpSync offset s
  | .holdover portDown => Sys2Proof.Machine.execHoldover portDown s
  | .packageReset => Sys2Proof.Machine.execPackageReset s
  | .surpriseLinkLoss p => Sys2Proof.Machine.execSurpriseLinkLoss p s
  | .deviceUnreachable dev => Sys2Proof.Machine.execDeviceUnreachable dev s
  | .patrolScrub => Sys2Proof.Machine.execPatrolScrub s
  | .relayCoreReload r => Sys2Proof.Machine.execRelayCoreReload r s
  | .hfqh port v => Sys2Proof.Machine.execHfqh port v s
  | .domainBringUp id size members => Sys2Proof.Machine.execDomainBringUp id size members s

end Sys2Proof.Machine
end

