-- ==== Sys2Proof/Machine/Hazard.lean ====
section
/-! DEFINITION. What an instruction waits for before it issues or runs: the registers, masks and tile slots that older unfinished
instructions of its block still have to write or read (R101, R106, R127, R153, R163, R164). -/

namespace Sys2Proof

/-- The block's own tile of a matrix operand: a partner's operand names it when the partner's core is the block's own (R190). -/
def TSrc.own (core : Nat) (o : TSrc) : List TReg :=
  match o.core with
  | none => [o.t]
  | some c => if c.val = core then [o.t] else []

/-- The input tiles of MAP and REDUCE. -/
def Ins.tiles : Ins → List TReg
  | .i1 a => [a]
  | .i2 a b => [a, b]
  | .i3 a b c => [a, b, c]
  | .i4 a b c d => [a, b, c, d]

/-- The scalars, references and tiles that an instruction names. -/
structure Names where
  s : List SReg
  a : List ARef
  t : List TReg
  deriving DecidableEq, Repr

/-- The registers of its own file that each word of a block on core `core` of its cluster names; a step of the device names none. DESIGN CHOICE
(log 3): TSTAT names its ta for every selector, so that 3 to 8, whose ta is 0, wait for the writers of t0. -/
def Instr.names (core : Nat) : Instr → Names
  | .cIf _ a b _ | .brk _ a b _ | .cont _ a b _ =>
    { s := [a, b], a := [], t := [] }
  | .cElse _ | .endif | .loop _ | .call _ | .ret | .exit | .trap _ | .nop | .yield | .wrapend | .eret | .savectx
  | .loadctx | .xcpyCopy _ _ | .xcpyFlag _ _ | .gmmaPart _ | .mand _ _ _ | .mor _ _ _ | .mnot _ _ | .fence _
  | .waitvRound _ | .bari _ _ | .bara _ _ | .barwWake _ | .tileTransfer _ _ | .transform _ _ | .redist _ _
  | .compress _ _ | .decompress _ _ | .recode _ _ | .resample _ _ | .quant _ _ | .binderyCompletionRecord _ _
  | .moveClaim _ | .mark _ | .moveReport _ | .mvwaitWake _ | .mkfreeEvent _ | .quarantineEnd _ _ | .read _ _ _
  | .drain _ _ _ | .perform _ _ _ | .acquirePoint _ _ | .releasePoint _ _ | .expand _ | .code _ _ | .microOp _ _
  | .logicalTimeAdvance _ | .slotRound _ | .rampInterval _ _ | .diversion _ | .budgetOverrun _ | .retirement _
  | .launchCompletionRecord _ | .launchDeadline _ | .sealWrite _ _ | .lineRecall _ | .rfetch _ _ | .bxtr _ _ _
  | .swaitq _ _ | .dspch _ _ _ | .launchChoice _ | .systemModeRequest _ _ | .kernelNode _ _ | .copyNode _ _
  | .condNode _ _ | .loopNode _ _ | .waitNode _ _ | .signalNode _ _ | .endNode _ _ | .graphDeadline _
  | .faultHoldExpiry _ _ | .rescueSlice _ _ _ _ | .rescueSliceEnd _ | .relayEccHalt _ | .queuePoison _ | .ctxset _
  | .part _ | .cancel _ | .inval _ | .freply _ | .drover _ | .hostHinv _ | .pinwin _ | .hostMemRead _ _ _
  | .hostMemWrite _ _ _ | .sense _ | .logread _ | .update _ | .attest _ | .setparam _ | .moncfg _ | .monread _
  | .resync _ | .testinj _ | .sensorRead _ | .thermalTrip | .tripClear | .thermalHalt | .ptpSync _ | .holdover _
  | .packageReset | .surpriseLinkLoss _ | .deviceUnreachable _ | .patrolScrub | .relayCoreReload _ | .hfqh _ _
  | .domainBringUp _ _ _ =>
    { s := [], a := [], t := [] }
  | .loopc a _ | .endl a _ | .calli a _ | .swr a _ | .hinv a | .xroot a | .mslt a =>
    { s := [a], a := [], t := [] }
  | .srd d _ | .lwid d | .li d _ | .lih d _ | .shq d _ _ | .shqAdv d _ | .plds d _ _ | .mcnt d _ | .barw d _
  | .bart d _ =>
    { s := [d], a := [], t := [] }
  | .capq d c a _ =>
    { s := [d, c, a], a := [], t := [] }
  | .publish d aa =>
    { s := [d], a := [aa], t := [] }
  | .valid v =>
    { s := (match v with | .partReg a => [a] | _ => []), a := [], t := [] }
  | .add d a b | .sub d a b | .mul d a b | .mulh d a b | .mulhu d a b | .div d a b | .divu d a b | .rem d a b
  | .remu d a b | .and d a b | .or d a b | .xor d a b | .sll d a b | .srl d a b | .sra d a b | .slt d a b
  | .sltu d a b | .min d a b | .max d a b =>
    { s := [d, a, b], a := [], t := [] }
  | .clz d a | .popc d a | .bfx d a _ _ _ | .bfi d a _ _ | .addi d a _ | .andi d a _ | .ori d a _ | .xori d a _
  | .slli d a _ | .srli d a _ | .srai d a _ =>
    { s := [d, a], a := [], t := [] }
  | .sel d a b c =>
    { s := [d, a, b, c], a := [], t := [] }
  | .refmk d a b =>
    { s := [a, b], a := [d], t := [] }
  | .refmkW d a =>
    { s := [a], a := [d], t := [] }
  | .refadd d a b =>
    { s := [b], a := [d, a], t := [] }
  | .refaddImm d a _ =>
    { s := [], a := [d, a], t := [] }
  | .refh d a | .refoff d a | .refoffW d a =>
    { s := [d], a := [a], t := [] }
  | .ldB d aref _ _ | .ldH d aref _ _ | .ldW d aref _ _ | .ldD d aref _ _ | .stB d aref _ _ | .stH d aref _ _
  | .stW d aref _ _ | .stD d aref _ _ | .lda d aref _ _ | .stl d aref _ _ =>
    { s := [d], a := [aref], t := [] }
  | .ldq d aref _ _ | .stq d aref _ _ =>
    { s := [d, d + 1], a := [aref], t := [] }
  | .tbind td _ _ _ _ _ | .tbindMn td _ _ _ _ | .tbindMk td _ _ _ _ | .tbindKn td _ _ _ _ | .tlay td _ | .tunbind td
  | .tzero td | .tsettle td | .tacz td =>
    { s := [], a := [], t := [td] }
  | .tview td _ _ a | .tfill td a =>
    { s := [a], a := [], t := [td] }
  | .tdesc d ta _ | .tstat d ta _ =>
    { s := [d], a := [], t := [ta] }
  | .tcpyt td ta _ | .tacv td ta _ _ _ _ | .tacq td ta _ _ _ _ | .tabs td ta _ _ | .tneg td ta _ _
  | .tcvt td ta _ _ _ _ | .tnot td ta _ | .tshl td ta _ _ | .tshr td ta _ _ | .trcp td ta _ | .trsq td ta _
  | .texp2 td ta _ | .tlog2 td ta _ | .tsumr td ta _ _ _ | .tmaxr td ta _ | .tscanr td ta _ _ _ | .tbcast td ta _ _ =>
    { s := [], a := [], t := [td, ta] }
  | .shape _ a b c =>
    { s := [a, b, c], a := [], t := [] }
  | .tld td aref b _ _ _ | .tst td aref b _ _ | .tldd td aref b _ _ | .tstd td aref b _ _ =>
    { s := [b], a := [aref], t := [td] }
  | .tldg td aref b tx _ _ | .tsts td aref b tx _ _ =>
    { s := [b], a := [aref], t := [td, tx] }
  | .pld td _ b _ =>
    { s := [b], a := [], t := [td] }
  | .tprf aref b _ =>
    { s := [b], a := [aref], t := [] }
  | .xcpy d dst src flag b _ =>
    { s := [d, b], a := [dst, src, flag], t := [] }
  | .tmma td a b | .tmmax td a b =>
    { s := [], a := [], t := [td] ++ a.own core ++ b.own core }
  | .tmmas td a b tsa tsb =>
    { s := [], a := [], t := [td, tsa, tsb] ++ a.own core ++ b.own core }
  | .gmma td ta b _ =>
    { s := [], a := [], t := [td, ta] ++ b.own core }
  | .tadd td ta tb _ _ _ | .tsub td ta tb _ _ _ | .tmul td ta tb _ _ _ | .tmin td ta tb _ _ _ | .tmax td ta tb _ _ _
  | .tsel td ta tb _ | .tand td ta tb _ | .tor td ta tb _ | .txor td ta tb _ | .trcpn td ta tb _ | .trsqn td ta tb _
  | .tperm td ta tb _ _ =>
    { s := [], a := [], t := [td, ta, tb] }
  | .tfma td ta tb tc _ _ _ =>
    { s := [], a := [], t := [td, ta, tb, tc] }
  | .tcmp _ ta tb _ _ _ =>
    { s := [], a := [], t := [ta, tb] }
  | .tbsh td ta b _ =>
    { s := [b], a := [], t := [td, ta] }
  | .tfsh td ta tb c _ =>
    { s := [c], a := [], t := [td, ta, tb] }
  | .topk td tc ta _ _ =>
    { s := [], a := [], t := [td, tc, ta] }
  | .tsortr td ta tc _ =>
    { s := [], a := [], t := [td, ta] ++ tc.toList }
  | .map td _ ins _ | .reduce td _ ins _ =>
    { s := [], a := [], t := [td] ++ ins.tiles }
  | .map2 td td2 _ ins _ | .reduce2 td td2 _ ins _ =>
    { s := [], a := [], t := [td, td2] ++ ins.tiles }
  | .atomW _ d aref b _ _ | .atomD _ d aref b _ _ =>
    { s := [d, b], a := [aref], t := [] }
  | .casW d aref b c _ _ | .casD d aref b c _ _ | .waitv d aref b c _ _ =>
    { s := [d, b, c], a := [aref], t := [] }
  | .cas16 d aref b c _ _ =>
    { s := [d, b, c, d + 1, b + 1, c + 1], a := [aref], t := [] }
  | .tsend t _ _ | .trecv t _ _ =>
    { s := [], a := [], t := [t] }
  | .enq d _ _ =>
    { s := d :: (List.range 8).map fun i => Fin.ofNat 32 (8 + i), a := [], t := [] }
  | .move d src dst recd b _ =>
    { s := [d, b], a := [src, dst, recd], t := [] }
  | .mvq d b | .mvwait d b _ =>
    { s := [d, b], a := [], t := [] }
  | .sweep d aa b =>
    { s := [d, b], a := [aa], t := [] }
  | .mkq d aa =>
    { s := [d, d + 1], a := [aa], t := [] }
  | .mkfree d aa recd b _ =>
    { s := [d, b], a := [aa, recd], t := [] }

/-- Major and minor of an instruction's word (R28). -/
def Instr.opcode (i : Instr) : Nat × Nat := match encodeTile i with | some w => (w / 2 ^ 57, w / 2 ^ 52 % 32) | none => (0x7F, 0)

/-- Instructions that take an entry of the dependency table (R164). -/
def Instr.takesEntry (i : Instr) : Bool :=
  let (major, minor) := i.opcode
  (major = 0x31 && 2 ≤ minor && minor ≤ 5) || (major = 0x38 && minor ≠ 8) || major = 0x39 || major = 0x44 || major = 0x45
    || (0x50 ≤ major && major ≤ 0x55) || (major = 0x30 && minor = 5) || (major = 0x71 && 4 ≤ minor)

/-- Instructions that access memory, place an engine command, or make another strong event (R104, R111). -/
def Instr.accesses (i : Instr) : Bool :=
  let (major, minor) := i.opcode
  major = 0x13 || major = 0x14 || major = 0x38 || major = 0x39 || major = 0x46 || major = 0x70 || major = 0x78 || major = 0x79
    || (major = 0x71 && minor < 4) || (major = 0x44 && minor = 3) || (major = 0x01 && minor = 7)

/-- Tile-memory instructions, which the copy engine performs (R171). -/
def Instr.copies (i : Instr) : Bool := i.opcode.1 = 0x38 && i.opcode.2 ≠ 8

/-- Commands that go to an engine's queue (R111). -/
def Instr.places : Instr → Bool
  | .xcpy .. | .enq .. | .move .. | .mkfree .. => true
  | _ => false

/-- Instructions that wait aside for the hypervisor while the block goes on (R101): loads and stores, tile memory, atomics, PUBLISH, MKQ and the
placing of engine commands. In WAITV, SWEEP and MVWAIT the block sleeps. -/
def Instr.waitsAside (i : Instr) : Bool :=
  let (major, minor) := i.opcode
  major = 0x13 || major = 0x14 || (major = 0x38 && minor ≠ 8) || (major = 0x70 && minor < 7) || (major = 0x01 && minor = 7)
    || i.places || (major = 0x79 && minor = 4)

/-- Instructions that wait for their operands in the dependency table while the block goes on (R164), and BARA, whose arrival waits for
older tile writers (R250). -/
def Instr.waitsInTable (i : Instr) : Bool := (i.takesEntry && i.opcode.1 ≠ 0x39) || i.opcode = (0x71, 1)

/-- TBIND, TVIEW and TUNBIND, which act on names and windows in program order, whatever a slot still waits for (R164). -/
def Instr.binds (i : Instr) : Bool := (i.opcode.1 = 0x30 && i.opcode.2 ≠ 5) || i.opcode = (0x31, 0)

/-- Strength of an access, or of the points of an engine command. -/
def Instr.ord : Instr → MemOrd
  | .ldB _ _ o _ | .ldH _ _ o _ | .ldW _ _ o _ | .ldD _ _ o _ | .ldq _ _ o _ | .stB _ _ o _ | .stH _ _ o _ | .stW _ _ o _
  | .stD _ _ o _ | .stq _ _ o _ | .tld _ _ _ _ o _ | .tst _ _ _ o _ | .tldg _ _ _ _ o _ | .tsts _ _ _ _ o _ | .tldd _ _ _ o _
  | .tstd _ _ _ o _ | .lda _ _ o _ | .stl _ _ o _ | .atomW _ _ _ _ o _ | .atomD _ _ _ _ o _ | .casW _ _ _ _ o _ | .casD _ _ _ _ o _
  | .cas16 _ _ _ _ o _ | .waitv _ _ _ _ o _ | .xcpy _ _ _ _ _ o | .enq _ _ o | .move _ _ _ _ _ o | .mkfree _ _ _ _ o | .mvwait _ _ o => o
  | _ => .weak

/-- Instructions that make a strong event (R104): strong loads and stores, atomics, FENCE, barriers and the parts of a GMMA, the points of
engine commands, and the accesses that ENQ, MSLT, SWEEP and PUBLISH make at the home. -/
def Instr.strong (i : Instr) : Bool :=
  match i.opcode.1 with
  | 0x13 | 0x14 | 0x38 | 0x39 => i.ord ≠ .weak
  | 0x79 => i.opcode.2 = 3 || i.ord ≠ .weak
  | 0x70 | 0x46 | 0x78 => true
  | 0x71 => i.opcode.2 < 4
  | 0x44 => i.opcode.2 = 3
  | 0x01 => i.opcode.2 = 7
  | _ => false

/-- Instructions that every younger access waits for, and those that wait for every older one (R106). -/
def Instr.acquires (i : Instr) : Bool := match i.ord with | .acq _ => true | _ => i.opcode = (0x70, 7)
def Instr.releases (i : Instr) : Bool := match i.ord with | .rel _ => true | _ => i.opcode = (0x70, 7) || i.opcode = (0x01, 7)

/-- What an access through a reference register reaches: the register, and the bytes from OFF + disp, or its whole handle. -/
def Instr.target : Instr → Option (ARef × Option (Int × Nat))
  | .ldB _ a _ d | .stB _ a _ d => some (a, some (d.toInt, 1))
  | .ldH _ a _ d | .stH _ a _ d => some (a, some (d.toInt, 2))
  | .ldW _ a _ d | .stW _ a _ d => some (a, some (d.toInt, 4))
  | .ldD _ a _ d | .stD _ a _ d | .lda _ a _ d | .stl _ a _ d => some (a, some (d.toInt, 8))
  | .ldq _ a _ d | .stq _ a _ d => some (a, some (d.toInt, 16))
  | .atomW _ _ a _ _ d => some (a, some (d.toInt, 4))
  | .atomD _ _ a _ _ d => some (a, some (d.toInt, 8))
  | .casW _ a _ _ _ d => some (a, some (d.toInt, 4))
  | .casD _ a _ _ _ d => some (a, some (d.toInt, 8))
  | .cas16 _ a _ _ _ d => some (a, some (d.toInt, 16))
  | .tld _ a .. | .tst _ a .. | .tldg _ a .. | .tsts _ a .. | .publish _ a | .sweep _ a _ => some (a, none)
  | _ => none

/-- Instructions whose chase may rewrite the reference register that they name (R153, R179). -/
def Instr.rewrites (i : Instr) : Option ARef :=
  match i.opcode.1 with
  | 0x13 | 0x14 | 0x38 | 0x70 => (Instr.target i).map fun p => p.1
  | _ => none

/-- Tiles that an instruction writes. -/
def Instr.tileDests : Instr → List TReg
  | .tlay t _ | .tzero t | .tfill t _ | .tcpyt t _ _ | .tacz t | .tld t .. | .tldg t .. | .tldd t .. | .pld t ..
  | .trecv t _ _ | .tmma t _ _ | .tmmax t _ _ | .tmmas t .. | .gmma t .. | .tacv t .. | .tacq t .. | .tadd t .. | .tsub t ..
  | .tmul t .. | .tfma t .. | .tmin t .. | .tmax t .. | .tabs t .. | .tneg t .. | .tcvt t .. | .tsel t .. | .tand t .. | .tor t ..
  | .txor t .. | .tnot t .. | .tshl t .. | .tshr t .. | .tbsh t .. | .tfsh t .. | .trcp t .. | .trsq t .. | .trcpn t ..
  | .trsqn t .. | .texp2 t .. | .tlog2 t .. | .tsumr t .. | .tmaxr t .. | .tscanr t .. | .tperm t .. | .tbcast t .. | .map t ..
  | .reduce t .. => [t]
  | .topk t c .. | .map2 t c .. | .reduce2 t c .. => [t, c]
  | .tsortr t _ c _ => t :: c.toList
  | _ => []

/-- The mask operand of an instruction. -/
def Instr.mask : Instr → Option MReg
  | .tcpyt _ _ m | .tacv _ _ _ _ _ m | .tacq _ _ _ _ _ m | .tadd _ _ _ _ _ m | .tsub _ _ _ _ _ m | .tmul _ _ _ _ _ m
  | .tfma _ _ _ _ _ _ m | .tmin _ _ _ _ _ m | .tmax _ _ _ _ _ m | .tabs _ _ _ m | .tneg _ _ _ m | .tcvt _ _ _ _ _ m
  | .tcmp _ _ _ _ _ m | .tsel _ _ _ m | .tand _ _ _ m | .tor _ _ _ m | .txor _ _ _ m | .tnot _ _ m | .tshl _ _ _ m
  | .tshr _ _ _ m | .tbsh _ _ _ m | .tfsh _ _ _ _ m | .trcp _ _ m | .trsq _ _ m | .trcpn _ _ _ m | .trsqn _ _ _ m
  | .texp2 _ _ m | .tlog2 _ _ m | .tsumr _ _ _ _ m | .tmaxr _ _ m | .topk _ _ _ _ m | .tperm _ _ _ _ m | .tbcast _ _ _ m
  | .map _ _ _ m | .map2 _ _ _ _ m | .reduce _ _ _ m | .reduce2 _ _ _ _ m => m
  | _ => none

/-- Masks that an instruction reads, and those that it writes. -/
def Instr.maskReads (i : Instr) : List MReg :=
  match i with
  | .mand _ a b | .mor _ a b => [a, b]
  | .mnot _ a | .mcnt _ a => [a]
  | _ => i.mask.toList

def Instr.maskWrites : Instr → List MReg
  | .tcmp m .. | .mand m _ _ | .mor m _ _ | .mnot m _ => [m]
  | _ => []

/-- Scalars that an instruction waiting in the table has still to write. -/
def Instr.scalarDests : Instr → List SReg
  | .mcnt d _ | .plds d _ _ | .ldB d .. | .ldH d .. | .ldW d .. | .ldD d .. | .lda d .. | .atomW _ d .. | .atomD _ d .. | .casW d ..
  | .casD d .. | .xcpy d .. | .enq d .. | .move d .. | .mkfree d .. | .publish d _ => [d]
  | .ldq d .. | .cas16 d .. | .mkq d _ => [d, d + 1]
  | _ => []

/-- Instructions that may draw from SEED: `.rsr` rounding, and lane functions (R67). -/
def Instr.draws : Instr → Bool
  | .tacv _ _ _ r _ _ | .tacq _ _ _ r _ _ | .tadd _ _ _ r _ _ | .tsub _ _ _ r _ _ | .tmul _ _ _ r _ _ | .tfma _ _ _ _ r _ _
  | .tmin _ _ _ r _ _ | .tmax _ _ _ r _ _ | .tcvt _ _ _ r _ _ | .tsumr _ _ r _ _ | .tscanr _ _ _ r _ => r = .rsr
  | .map .. | .map2 .. | .reduce .. | .reduce2 .. => true
  | _ => false

/-- Instructions that write every element of their destination's window, whatever the tile held. -/
def Instr.writesWindow (i : Instr) : Bool :=
  let (major, minor) := i.opcode
  let adds : Bool := match i with | .tacq _ _ _ _ x _ => x | _ => false
  i.mask.isNone && !adds
    && ((major = 0x31 && 2 ≤ minor && minor ≤ 4) || (major = 0x38 && minor % 2 = 0) || major = 0x45 || major = 0x50 || major = 0x51
      || major = 0x52 || i.opcode = (0x71, 5))

/-- SRD and SWR of a special register (R127). -/
def Instr.special : Instr → Option Nat
  | .srd _ r => some r.toNat
  | .swr _ r => some r.toNat
  | _ => none

end Sys2Proof

namespace Sys2Proof.Machine

/-! ## Slots (R163, R164) -/

/-- Tiles of its own that an instruction of block k names. -/
def Instr.tilesOf (i : Instr) (k : BKey) : List TReg := (Instr.names (coreInCluster k.core) i).t

/-- An instruction that writes the whole bound extent of a tile, and does not read it. A block-scaled tile keeps its TSCALE under TZERO, so
only a load or a message writes it whole. -/
def Instr.fills (i : Instr) (k : BKey) (t : TReg) (x : Tile) : Bool :=
  let ts := Instr.tilesOf i k
  i.writesWindow && i.tileDests.head? = some t && !(ts.tail.contains t) && x.wholeWindow
    && (x.fmt.block = 0 || i.opcode.1 = 0x38 || i.opcode.1 = 0x71)

/-- A slot that an instruction needs as it stands is still to be written: of a tile that it reads, or writes in part, which merges. -/
def Block.awaitsSlot (b : Block) (k : BKey) (i : Instr) : Bool :=
  !i.binds && (Instr.tilesOf i k).any fun t => match b.gt t with
    | some x => b.slotWriter x.phys && !Instr.fills i k t x
    | none => false

/-- Two instructions touch a common mask that one of them writes, or both draw from SEED: they run in program order. -/
def Instr.clashes (i j : Instr) : Bool :=
  (i.maskWrites.any fun m => j.maskReads.contains m || j.maskWrites.contains m) || (j.maskWrites.any fun m => i.maskReads.contains m)
    || (i.draws && j.draws)

/-- Instructions with an arrival. -/
def Instr.arrives (i : Instr) : Bool := match i with | .bara .. | .gmma .. => true | _ => false

/-- What else an instruction waits for: an arrival waits for every older strong event and tile writer (R106, R250), TSETTLE also for the older
readers of td's superseded slots (R169). -/
def Block.awaitsAll (b : Block) (i : Instr) : Bool :=
  match i with
  | .bara .. | .gmma .. => (b.evq.any barWaits) || (b.msgs.any fun m => !m.send) || b.held.any fun h => !h.dsts.isEmpty || h.instr.strong
  | .tsettle t => b.superseded.any fun p => p.1 = t && b.slotUsed p.2.phys
  | _ => false

/-- An instruction waits in the dependency table. -/
def Block.mustWait (b : Block) (k : BKey) (i : Instr) : Bool :=
  b.awaitsSlot k i || b.awaitsAll i || b.held.any fun h => Instr.clashes h.instr i

/-! ## Registers (R106, R127, R153) -/

/-- An event must be performed before an instruction that names some registers issues: it writes one of them, or it may still rewrite
a reference register by a chase (R106, R153, R179). -/
def Ev.holdsNames (n : Names) (e : Ev) : Bool :=
  (match e.dest with
    | .scalar d => n.s.contains d
    | .pair d => n.s.contains d || n.s.contains (d + 1)
    | .none | .tile _ => false)
  || (e.bale ≠ 0 && !e.buffered && match e.ref with | some (a, _) => n.a.contains a | none => false)

/-- SRD and SWR of STATUS follow the flags that older tile loads set (R69, R127). -/
def Instr.readsStatus (i : Instr) : Bool := i.special = some 0x030

/-- What an instruction waits for in the queue before it issues. -/
def hazard (k : BKey) (i : Instr) (e : Ev) : Bool :=
  e.holdsNames (Instr.names (coreInCluster k.core) i) || (Instr.readsStatus i && (e.clmp || e.pwb))

/-- A queued load into a tile that the instruction names: performed first where it can be. -/
def loadsTile (k : BKey) (i : Instr) (e : Ev) : Bool :=
  match e.dest with | .tile t => (Instr.tilesOf i k).contains t | _ => false

/-- A block with the registers that a waiting instruction read at its issue. -/
def Block.readAt (b : Block) (h : Held) : Block :=
  { b with
    s := h.s
    sp := h.sp
    a := h.a
    ap := h.ap }

/-- Bytes that an instruction's access may reach, as ranges of the virtual space, of a core's COREPIN window or of a device's space; none when
they are not known (DESIGN CHOICE, log 34: while an access waits its bytes are told from others by their virtual addresses). -/
def touches (s : State) (k : BKey) (b : Block) (i : Instr) : Option (List ((Nat × Nat) × Nat × Nat)) :=
  let range (image : W64) (part : Option (Int × Nat)) : Option (List ((Nat × Nat) × Nat × Nat)) :=
    match readHandle s (s.envOf k b) image with
    | .ok _ h =>
      let space : Nat × Nat := if h.home = 2 then (1, h.pcore) else if h.space = 2 then (2, h.devid) else (0, 0)
      let at_ := if h.home = 2 then h.tsoff else h.base
      some [match part with
        | some (d, n) => (space, (at_ + accessOff image d).toNat, (at_ + accessOff image d).toNat + n)
        | none => (space, at_, at_ + h.bound)]
    | _ => none
  match i with
  | .pld _ w _ _ | .plds _ w _ => (match s.window b w with
    | some (image, _) => range image none
    | none => some [])
  | .tldd .. | .tstd .. | .waitv .. => none
  | _ => match Instr.target i with
    | some (a, part) => range (b.ga a) part
    | none => some []

/-- The accesses of two instructions may have a byte in common. -/
def mayMeet : Option (List ((Nat × Nat) × Nat × Nat)) → Option (List ((Nat × Nat) × Nat × Nat)) → Bool
  | some ps, some qs => ps.any fun p => qs.any fun q => p.1 = q.1 && p.2.1 < q.2.2 && q.2.1 < p.2.2
  | some [], none | none, some [] => false
  | _, _ => true

/-- Instruction i of a block with the registers of x waits for an access that a waiting instruction has still to place (R106): an acquire or
before a release, both strong, both placed on engine queues (R111), or on a common byte. A weak access does not wait for an arrival (DESIGN
CHOICE, log 34). -/
def Held.precedes (s : State) (k : BKey) (h : Held) (x : Block) (i : Instr) : Bool :=
  h.instr.accesses && !h.queued && i.accesses
    && (h.instr.acquires || i.releases || (h.instr.strong && i.strong) || (h.instr.places && i.places)
      || mayMeet (touches s k (x.readAt h) h.instr) (touches s k x i))

/-- A waiting access may still rewrite the reference register that it names: every younger instruction that names it stalls (R153). One through a
handle that is not movable rewrites nothing. -/
def Held.rewrites (s : State) (k : BKey) (b : Block) (h : Held) : Option ARef :=
  if h.queued then none
  else (Instr.rewrites h.instr).filter fun a => match readHandle s (s.envOf k b) h.a[a.val] with
    | .ok _ e => baleSize e.mcls ≠ 0
    | _ => true

/-- A waiting instruction stalls the issue of another: it has a scalar to write or a reference to rewrite that the other names, STATUS, GANG
or SEED to read or write, or an access that comes before the other's. -/
def Held.stalls (s : State) (k : BKey) (b : Block) (i : Instr) (h : Held) : Bool :=
  let names := Instr.names (coreInCluster k.core) i
  (h.instr.scalarDests.any fun d => d ≠ 0 && names.s.contains d)
    || ((h.rewrites s k b).any names.a.contains)
    || i.special = some 0x030 || i.special = some 0x031 || i.special = some 0x032
    || h.precedes s k b i

/-- Issue stalls: for a waiting instruction, a full dependency table (R164), or a full copy queue (R171). -/
def State.issueStalls (s : State) (k : BKey) (b : Block) (i : Instr) : Bool :=
  b.held.any (Held.stalls s k b i) || (i.takesEntry && !b.hasEntry) || (i.copies && copyQueueSize ≤ s.copyCount k.core)

/-! ## Fresh slots (R163) -/

/-- Fresh slots for the tiles that an instruction writes whose slot an older instruction still uses; none when the share has no room for
them: the write waits (R165). -/
def freshSlots (k : BKey) : List TReg → State → Option State
  | [], s => some s
  | t :: ts, s => match s.block? k with
    | none => some s
    | some b => match b.gt t with
      | some x =>
        if !b.slotUsed x.phys then freshSlots k ts s
        else
          let b1 := b.freshSlot t s.freeCount
          if ((b1.usageBut none).add b1.oldUsage).fits (s.core k.core).win (b1.loans.length + 1) then freshSlots k ts (s.bumpFree.setBlock k b1)
          else none
      | none => freshSlots k ts s

/-- The compressed tiles that an instruction names, which it expands into fresh slots while older instructions use the old ones, fit the
share; otherwise it waits (R165, R205). -/
def Block.expandFits (b : Block) (win : Nat) (x : Block) (ts : List TReg) : Bool :=
  let more := ts.eraseDups.filterMap fun t => match b.gt t with
    | some y => if y.cmp && x.slotUsed y.phys then some y else none
    | none => none
  more.isEmpty || (more.foldl (fun u y => u.add y.usage) ((b.usageBut none).add b.oldUsage)).fits win (b.loans.length + 1)

end Sys2Proof.Machine
end

