-- ==== Sys2Proof/Machine/Sched.lean ====
section
/-! DEFINITION. Turns of the schedule (log 1): what a block context, a relay core, a device event and time do when their turn comes, what
moves when no turn is left, and how a program word is placed for the next step. -/

namespace Sys2Proof.Machine

/-! ## A block's turn (R53, R102, R120, R136, R137, R139) -/

/-- The outcome moved the block: its PC or mode changed, it sleeps, it ended, or it left its context. -/
def moved (k : BKey) (b : Block) (o : Out) : Bool :=
  match o with
  | .next s => (match s.block? k with
    | none => true
    | some x => x.pc ≠ b.pc || x.sys ≠ b.sys || x.ended.isSome || x.sleep.isSome)
  | _ => true

/-! ### Instructions that wait (R101, R164) -/

/-- Names that a waiting instruction keeps for the events it makes. -/
def heldNames : Nat := 4

/-- Names of the unfinished instructions that a waiting one depends on: the writers of its slots, the instructions it clashes with. -/
def Block.producers (b : Block) (k : BKey) (i : Instr) : List Nat :=
  let slots := (Instr.tilesOf i k).filterMap fun t => (b.gt t).map fun x => x.phys
  ((b.msgs.filter fun m => !m.send && slots.contains m.snap.phys).map fun m => m.id)
    ++ ((b.held.filter fun h => Instr.clashes h.instr i || h.dsts.any fun p => slots.contains p.2).map fun h => h.id)
    ++ (b.evq.filter fun e => slots.any fun n => e.writesSlot n).map fun e => e.id

/-- WAITS of an entry that depends on named instructions (R164). -/
def Block.waitsOn (b : Block) (ids : List Nat) : W32 :=
  BitVec.ofNat 32 ((b.deps.zipIdx.map fun p => if p.1.name.any fun n => ids.contains n then 2 ^ p.2 else 0).foldl (· + ·) 0)

/-- The position that a TSEND or TRECV takes in its channel when it issues (R254). -/
def Block.takePos (b : Block) (i : Instr) : Block × Option (BitVec 16) :=
  match i with
  | .tsend _ c g =>
    let ch := channel c g
    ({ b with sendPos := b.sendPos.set ch.val (b.sendPos[ch.val] + 1) }, some b.sendPos[ch.val])
  | .trecv _ c g =>
    let ch := channel c g
    ({ b with recvPos := b.recvPos.set ch.val (b.recvPos[ch.val] + 1) }, some b.recvPos[ch.val])
  | _ => (b, none)

/-- The partners' tiles that an instruction reads, with the windows that they have at its issue (R190, R193). -/
def remoteTiles (s : State) (k : BKey) (b : Block) (i : Instr) : List (Nat × TReg × Tile) :=
  let os : List TSrc := match i with
    | .tmma _ x y | .tmmax _ x y | .tmmas _ x y _ _ => [x, y]
    | .gmma _ _ y _ => [y]
    | _ => []
  os.filterMap fun o => match o.core with
    | none => none
    | some c =>
      if c.val = coreInCluster k.core then none
      else (s.partner? k b c.val).bind fun p => match p.useTile o.t with
        | .ok x => some (c.val, o.t, x)
        | .error _ => none

/-- A TLAY that waits gives its name the new layout at issue: younger instructions name the tile as it leaves it (R162, R164). -/
def Block.relaidAtIssue (b : Block) (i : Instr) : Block :=
  match i with
  | .tlay t lay => (match b.useTile t with
    | .ok x => b.putT t (some { x.unlink with lay := lay })
    | .error _ => b)
  | _ => b

/-- An instruction goes aside: with what it read at issue, its entry of the dependency table, fresh slots for what it writes, and the places
of its accesses when they are known; the block goes on with the next word. None when the share has no room for the slots. -/
def putAside (s : State) (k : BKey) (b : Block) (i : Instr) (places : Option (List Ev)) : Option State :=
  (freshSlots k i.tileDests s).map fun s1 => match s1.block? k with
    | none => s1
    | some b1 =>
      let (b2, pos) := b1.takePos i
      let h : Held :=
        { id := s1.evSeq
          pc := b.pc
          instr := i
          pos := pos
          s := b.s
          sp := b.sp
          a := b.a
          ap := b.ap
          sh := b.sh
          tiles := (Instr.tilesOf i k).eraseDups.filterMap fun t => (b.gt t).map fun x => (t, x)
          remote := remoteTiles s k b i
          dsts := i.tileDests.filterMap fun t => (b1.gt t).map fun x => (t, x.phys)
          queued := places.isSome
          given := match i with | .gmma .. => true | _ => false
          begun := false }
      let d : DepEntry :=
        { pc := b.pc
          state := 1
          td := (i.tileDests.head?.map fun t => t.val).getD 0
          waits := b.waitsOn (b.producers k i)
          prog := 0xFFFFFFFF
          name := some h.id }
      let b3 := (if i.takesEntry then b2.enter d else b2).relaidAtIssue i
      let evs := (places.getD []).map fun e => { e with dest := .none, waiting := true }
      let s2 := { s1 with evSeq := h.id + heldNames }.setBlock k { b3.advance with held := b3.held ++ [h], evq := b3.evq ++ evs }
      match i with
      | .gmma td ta o bar => giveParts s2 k b h.id td ta o bar
      | _ => s2

/-- The block as an instruction that is about to wait can be checked on at issue: nothing unfinished, and no poison in the tiles it names. -/
def Block.atIssue (b : Block) (k : BKey) (i : Instr) : Block :=
  let clean (b : Block) (t : TReg) : Block := match b.gt t with
    | some x => b.putT t (some { x with poison := [], origin := none })
    | none => b
  { (Instr.tilesOf i k).foldl clean b with
    evq := []
    held := []
    msgs := [] }

/-- Instructions whose faults depend on what a tile holds: an index tile, or data to store (R177, R181). -/
def Instr.faultsLate : Instr → Bool
  | .tst .. | .tsts .. | .tstd .. | .tldg .. => true
  | _ => false

/-- An instruction must wait in the dependency table: a fault that does not depend on the data it waits for is taken at issue (R166, R253);
of an access the places are known at issue, unless an index tile gives them. -/
def holdInstr (k : BKey) (b : Block) (i : Instr) (s : State) : Bool × Out :=
  let aside (places : Option (List Ev)) : Bool × Out :=
    match putAside s k b i places with
    | some s1 => (true, .next s1)
    | none => (false, .next s)
  match exec i (s.setBlock k (b.atIssue k i)) with
  | .next s1 => match s1.block? k with
    | none => aside none
    | some x =>
      if x.ended.isSome then
        if Instr.faultsLate i then aside none
        else (true, .next (s1.setBlock k { x with
          evq := b.evq
          held := b.held
          msgs := b.msgs }))
      else
        let direct : Bool := match i with | .tld .. | .tst .. | .tldd .. | .tstd .. | .pld .. => true | _ => false
        aside (if direct && x.pc ≠ b.pc then some x.evq else none)
  | _ => aside none

/-- A waiting instruction may run: every older writer of a slot that it needs has completed, and so has all else it waits for. -/
def State.heldReady (s : State) (k : BKey) (b : Block) (h : Held) : Bool :=
  let x := b.upTo h.id
  !(h.tiles.any fun p => x.slotWriter p.2.phys && !Instr.fills h.instr k p.1 p.2) && !x.awaitsAll h.instr
    && !(x.held.any fun g => Instr.clashes g.instr h.instr || g.precedes s k (b.readAt h) h.instr)
    && b.expandFits (s.core k.core).win x (h.tiles.map fun p => p.1)

/-- The block as a waiting instruction runs on it: what it read at issue, the slots that its names had then, and only what is older. A GMMA
that has given its parts runs its own alone. -/
def Block.forHeld (b : Block) (k : BKey) (h : Held) : Block :=
  let x := b.upTo h.id
  let slot (p : TReg × Tile) : Tile :=
    { b.version p.1 p.2 with phys := match h.dsts.find? fun d => d.1 = p.1 with | some d => d.2 | none => p.2.phys }
  let ch (c : CoreSel) (g : BReg) (v : Vector (BitVec 16) 128) : Vector (BitVec 16) 128 :=
    match h.pos with | some n => v.set (channel c g).val n | none => v
  { x with
    pc := h.pc
    s := h.s
    sp := h.sp
    a := h.a
    ap := h.ap
    sh := h.sh
    t := h.tiles.foldl (fun t p => t.set p.1.val (some (slot p))) b.t
    superseded := b.superseded.filter fun p => x.slotUsed p.2.phys
    deps := []
    ended := none
    gang := if h.given then BitVec.twoPow 64 (coreInCluster k.core) else b.gang
    sendPos := match h.instr with | .tsend _ c g => ch c g b.sendPos | _ => b.sendPos
    recvPos := match h.instr with | .trecv _ c g => ch c g b.recvPos | _ => b.recvPos }

/-- Scalars and references that a run changed from what it read, where the block still holds that. -/
def Block.mergeRegs (b x : Block) (h : Held) : Block :=
  let b1 := (List.finRange 32).foldl (fun (b : Block) r =>
    if x.s[r.val] ≠ h.s[r.val] || x.sp.getLsbD r.val ≠ h.sp.getLsbD r.val then b.putS r x.s[r.val] (x.sp.getLsbD r.val) else b) b
  (List.finRange 16).foldl (fun (b : Block) r =>
    if (x.a[r.val] ≠ h.a[r.val] || x.ap.getLsbD r.val ≠ h.ap.getLsbD r.val) && b.a[r.val] = h.a[r.val] && b.ap.getLsbD r.val = h.ap.getLsbD r.val
    then b.putA r x.a[r.val] (x.ap.getLsbD r.val) else b) b1

/-- A slot takes the layout of a tile that a TLAY has written, and loses its link with it (R161, R162). -/
def Block.relaySlot (b : Block) (t : TReg) (phys : Nat) (v : Tile) : Block :=
  let relay (y : Tile) : Tile := if y.phys ≠ phys then y else { y with
    lay := v.lay
    link := none
    brows := if y.link.isSome then v.brows else y.brows
    bcols := if y.link.isSome then v.bcols else y.bcols }
  { b with superseded := b.superseded.map fun (p : TReg × Tile) => (p.1, if p.1 = t then relay p.2 else p.2) }.putT t ((b.gt t).map relay)

/-- A slot whose writer has still to reach it. -/
def Block.unwrite (b : Block) (t : TReg) (phys : Nat) : Block :=
  let mark (y : Tile) : Tile := if y.phys = phys then { y with unwritten := true } else y
  { b with superseded := b.superseded.map fun (p : TReg × Tile) => (p.1, mark p.2) }.putT t ((b.gt t).map mark)

/-- Tiles that a run from y to x changed, back in their slots. A destination of an instruction that is done takes its contents too when it is
unchanged: those of the slot before it, which the merge of R163 has kept; its writer may still have to reach it. -/
def Block.mergeTiles (b y x : Block) (h : Held) (done : Bool) : Block :=
  let named (t : TReg) : Bool := h.tiles.any fun p => p.1 = t
  let b1 : Block := { b with
    t := Vector.ofFn fun i : Fin 64 => if named i then b.t[i.val] else x.t[i.val]
    superseded := b.superseded.map fun p => (x.superseded.find? fun q => q.2.phys = p.2.phys).getD p }
  h.tiles.foldl (fun b p => match y.gt p.1, x.gt p.1 with
    | some u, some v =>
      let wrote : Bool := done && h.dsts.any fun d => d.1 = p.1
      if u = v && !wrote then b
      else
        let fresh : Bool := (b.slotOf p.1 u.phys).any fun z => z.unwritten
        let b2 := match h.instr with | .tlay t _ => if t = p.1 then b.relaySlot t u.phys v else b | _ => b
        let b3 := b2.putSlot p.1 u.phys { v with phys := u.phys }
        if fresh && wrote && x.slotWriter u.phys then b3.unwrite p.1 u.phys else b3
    | _, _ => b) b1

/-- The block after a waiting instruction ran from y to x: it is done when it went on to the next word, and its events, messages and entry
take its place in program order. -/
def Block.mergeHeld (b y x : Block) (h : Held) : Block :=
  let done : Bool := x.pc ≠ h.pc
  let younger := b.evq.filter fun e => if done then h.id + heldNames ≤ e.id else h.id ≤ e.id
  let ran (d : DepEntry) : DepEntry :=
    if d.name = some h.id then { d with state := 2, waits := 0, name := x.deps.head?.bind fun e => e.name } else d
  let b1 : Block := { b with
    origin := x.origin
    m := x.m
    status := x.status
    seed := x.seed
    arrived := x.arrived
    doneBar := x.doneBar
    donePhase := x.donePhase
    sleep := x.sleep
    parts := x.parts
    readers := x.readers
    evq := x.evq ++ younger
    msgs := x.msgs ++ b.msgs.filter fun m => h.id ≤ m.id
    held := if done then b.held.filter fun g => g.id ≠ h.id else b.held
    deps := if done then b.deps.map ran else b.deps }
  (b1.mergeTiles y x h done).mergeRegs x h

/-- A partner's name bound as given. -/
def State.bindRemote (s : State) (k : BKey) (c : Nat) (t : TReg) (x : Option Tile) : State :=
  match s.block? (partnerKey k c) with
  | some p => s.setBlock (partnerKey k c) (p.putT t x)
  | none => s

/-- The partners' tiles as a waiting instruction reads them: with the windows of its issue, and the contents of the slots that the names have now
(R191, R193). A name that has been bound to another shape meanwhile is read as it is. -/
def State.viewRemote (s : State) (k : BKey) (h : Held) : State :=
  h.remote.foldl (fun s r => match (s.block? (partnerKey k r.1)).bind fun p => p.gt r.2.1 with
    | some y =>
      let x := r.2.2
      if x.home = y.home && x.lay = y.lay && x.fmt = y.fmt && x.srows = y.srows && x.scols = y.scols
        then s.bindRemote k r.1 r.2.1 (some { x.refill y with link := none }) else s
    | none => s) s

/-- The partners' names bound again as in another state. -/
def State.returnRemote (s old : State) (k : BKey) (h : Held) : State :=
  h.remote.foldl (fun s r => match old.block? (partnerKey k r.1) with
    | some p => s.bindRemote k r.1 r.2.1 (p.gt r.2.1)
    | none => s) s

/-- A waiting instruction of block k runs, if it may. The flag says whether it did more than wait. -/
def runHeld (k : BKey) (h : Held) (s : State) : Bool × Out :=
  let s1 := settleWhere s k fun e => e.id < h.id && ((h.tiles.any fun p => e.writesSlot p.2.phys) || (Instr.arrives h.instr && barWaits e))
  match s1.block? k with
  | none => (true, .next s1)
  | some b =>
    if !s1.heldReady k b h then (false, .next s1)
    else
      let y := b.forHeld k h
      match exec h.instr { (s1.viewRemote k h).setBlock k y with evSeq := h.id } with
      | .next s2 =>
        let s3 := { s2.returnRemote s1 k h with evSeq := max s1.evSeq s2.evSeq }
        (match s3.block? k with
          | none => (true, .next s3)
          | some x =>
            if x.ended.isSome then (true, .next (s3.setBlock k { x with deps := b.deps }))
            else (x.pc ≠ h.pc, .next (s3.setBlock k (b.mergeHeld y x h))))
      | o => (true, o)

/-- The oldest waiting instruction of a block that can do more than wait runs. -/
def heldTurn (k : BKey) (s : State) : List Held → Bool × Out
  | [] => (false, .next s)
  | h :: hs => match runHeld k h s with
    | (false, .next s1) => heldTurn k s1 hs
    | r => r

/-- An access that waits for the hypervisor goes aside, and the block goes on (R101). -/
def awaitReply (k : BKey) (b : Block) (i : Instr) (s : State) : Bool × Out :=
  if i.waitsAside && b.sys.isNone && s.hvPosts.any (fun p => p.who = some k && !p.served && !p.drain) then
    match putAside s k b i none with
    | some s1 => (true, .next s1)
    | none => (false, .next s)
  else (false, .next s)

/-! ### Issue -/

/-- A block of a context issues the instruction it has fetched, once nothing it names is still to be written; otherwise it waits in the
dependency table, or issue stalls (R101, R163, R164); one that names an unbound tile faults at once (R166). System code does not wait for the
user block's instructions. -/
def issue (k : BKey) (b : Block) (i : Instr) (s : State) : Bool × Out :=
  let s1 := settleWhere s k fun e => hazard k i e || loadsTile k i e || (Instr.arrives i && barWaits e)
  match s1.block? k with
  | none => (true, .next s1)
  | some b1 =>
    if b1.ended.isSome then (true, .next s1)
    else if s1.pending k (hazard k i) || (b1.sys.isNone && s1.issueStalls k b1 i) then (false, .next s1)
    else if b1.sys.isNone && b1.mustWait k i && (Instr.tilesOf i k).all fun t => (b1.gt t).isSome then
      if i.waitsInTable then holdInstr k b1 i s1 else (false, .next s1)
    else match (if i.binds then some s1
        else if b1.expandFits (s1.core k.core).win b1 (Instr.tilesOf i k) then freshSlots k i.tileDests s1 else none) with
      | none => (false, .next s1)
      | some s2 => match exec i s2 with
        | .next s3 => if moved k b (.next s3) then (true, .next s3) else awaitReply k b1 i s3
        | o => (true, o)

/-- The block fetches the word at its PC, decodes it in full and issues it; a word that is no instruction traps ILLEGAL with the word
in its record (R52, R53, R98, R102). -/
def fetchIssue (k : BKey) (b : Block) (s : State) : Bool × Out :=
  match fetchWord s k b b.pc.toNat with
  | .wait s1 => (false, .next s1)
  | .bad s1 f => (true, trapOut s1 k b f)
  | .ok s1 w => match decodeTile w with
    | .error _ => (true, trapOut s1 k b { FaultInfo.plain causeIllegal with aux := BitVec.ofNat 64 w })
    | .ok i => issue k b i s1

/-- A sleeping instruction goes on. -/
def sleepTurn (k : BKey) (s : State) : Sleep → Out
  | .waitv .. => execWaitvRound k s
  | .barw .. => execBarwWake k s
  | .mvwait .. => execMvwaitWake k s
  | .sweep .. => execSweepRound k s

/-- A sleeper's turn moved the block: a WAITV that ends a round unmet has not moved. -/
def Sleep.movedTo (b : Block) (x : Option Block) : Bool :=
  match x with
  | none => true
  | some x => x ≠ b && match x.sleep with | some (.waitv w) => !w.holds.isEmpty | _ => true

/-- The outcome changed the state. -/
def changed (s : State) (o : Out) : Bool := match o with | .next s1 => s1 ≠ s | _ => true

/-- A block's turn but for its waiting instructions: it retires when it has ended; at a boundary a pending part it has accepted runs, then a
deadline or cancel diverts it, then a budget overrun kills it; asleep it goes on; otherwise it issues its next instruction (R119, R136,
R137, R139, R196). The flag says whether it moved. -/
def boundaryTurn (k : BKey) (s : State) : Bool × Out :=
  match s.block? k with
  | none => (false, .next s)
  | some b =>
    if b.ended.isSome then
      let o := execRetirement k s
      (match o with | .next s1 => (s1.block? k).isNone | _ => true, o)
    else if b.acceptedPart.any b.partRuns then (changed s (execGmmaPart k s), execGmmaPart k s)
    else if s.divertDue b then (changed s (execDiversion k s), execDiversion k s)
    else if s.overrunDue b then (true, execBudgetOverrun k s)
    else match b.sleep with
      | some z =>
        let o := sleepTurn k s z
        (match o with | .next s1 => Sleep.movedTo b (s1.block? k) | _ => true, o)
      | none => fetchIssue k b s

/-- Superseded slots that nothing uses any longer are freed, and loans that they needed go back (R163, R165); a GMMA whose parts have all read the
shared operand no longer uses its slot (R196). -/
def freeUnused (s : State) (k : BKey) (b : Block) : State :=
  if b.superseded.isEmpty && b.readers.isEmpty then s
  else s.setBlock k (s.settleLoans k { b with readers := b.readers.filter fun p => s.partLeft p.1 }.freeSlots)

/-- A held instruction's access has still to be placed. -/
def Held.unplaced (h : Held) : Bool := h.instr.accesses && !h.queued

/-- Served postings of a block whose accesses have all been made since: they hold a context's fields no longer (R87, R317). -/
def State.dropServed (s : State) (k : BKey) : State :=
  let mine (p : HvPost) : Bool := p.who = some k && p.served
  if !s.hvPosts.any mine then s
  else match s.block? k with
    | some b =>
      if (b.held.any Held.unplaced) || b.evq.any fun e => e.units.any fun u => !u.done then s
      else { s with hvPosts := s.hvPosts.filter fun p => !mine p }
    | none => s

/-- A turn that moved a block, with its served postings dropped. -/
def dropAfter (k : BKey) (r : Bool × Out) : Bool × Out :=
  match r with
  | (true, .next s) => (true, .next (s.dropServed k))
  | r => r

/-- A block's turn: a waiting instruction that can run does so, unless a stop is due that a GMMA of the block does not hold up, or a system
routine runs; otherwise the block goes on itself. -/
def blockTurn (k : BKey) (s : State) : Bool × Out :=
  match s.block? k with
  | none => (false, .next s)
  | some b =>
    let s1 := freeUnused s k b
    dropAfter k (if b.held.isEmpty || b.sys.isSome || (s.stopDue b && !s.partDue k b && !s.leadDue k b) then boundaryTurn k s1
      else match heldTurn k s1 b.held with
        | (false, .next s2) => boundaryTurn k s2
        | r => r)

/-! ## A relay core's turn (R293, R294) -/

/-- A relay core fetches the word at its pc and runs it: a word of custom-0 that R293 does not define is an illegal instruction; a
word of the RV64 base is refused by name, since the spec does not describe the base. -/
def relayTurn (r : Nat) (s : State) : Bool × Out :=
  if h : r < 8 then
    let c := s.relays[r]
    if c.halted then (false, .next s)
    else
      let w := c.imem.readLE c.pc.toNat 4
      match decodeRelay w with
      | .ok i =>
        let o := exec i s
        (match o with | .next s1 => !s1.relays[r].asleep | _ => true, o)
      | .error .relayBase => (true, .refused .relayBaseWord)
      | .error _ => (true, .next { s with relays := s.relays.set r (c.exception 2 w) })
  else (false, .next s)

/-! ## Turns -/

/-- The context at whose core a step is one of its block's own: a part, a wake, a diversion, a micro-op, a message, its
retirement. A stopped block takes none (R342, R349). -/
def Instr.ofBlock : Instr → Option BKey
  | .gmmaPart k | .waitvRound k | .barwWake k | .mvwaitWake k | .diversion k | .budgetOverrun k | .microOp k _ | .retirement k
  | .tileTransfer k _ => some k
  | _ => none

/-- An agent's turn; a block that a debugger holds stopped does not move (R342). -/
def agentTurn (g : Agent) (s : State) : Bool × Out :=
  let s1 := { s with active := g }
  if s.halted then (false, .next s1)
  else match g with
    | .block k => if s.stopped.contains k then (false, .next s1) else blockTurn k s1
    | .relay r => relayTurn r s1

/-- A constructor that is a step of the device, not a word. -/
def Instr.isEvent (i : Instr) : Bool := (encodeTile i).isNone && (encodeRelay i).isNone

/-- Steps of the MGC, which goes on when the dies have halted (R329). -/
def Instr.mgcEvent : Instr → Bool
  | .packageReset | .sensorRead _ | .thermalTrip | .tripClear | .thermalHalt | .ptpSync _ | .holdover _ => true
  | _ => false

/-- What a turn of the schedule does. -/
def runTurn (t : Turn) (s : State) : Out :=
  match t with
  | .agent g => (agentTurn g s).2
  | .event i => if Instr.isEvent i && (!s.halted || Instr.mgcEvent i) && !(Instr.ofBlock i).any s.stopped.contains then exec i s else .next s
  | .tick ns => .next (s.tick ns)
  | .bar port off v => .next (barWrite port off v s)
  | .barRead port off => .next (barRead port off s)
  | .host a bytes => .next (hostStore a bytes s)
  | .stop k => .next { s with stopped := k :: s.stopped }
  | .cont k => .next { s with stopped := s.stopped.filter fun x => x ≠ k }
  | .forgetHandle ctx n => .next (s.setCtx ctx { s.ctx ctx with hcache := (s.ctx ctx).hcache.eraseIdx n })
  | .forgetPage n => .next { s with tlb := s.tlb.eraseIdx n }

/-! ## When no turn is left (log 1) -/

/-- Events of a die that its engines' queues name. -/
def dieEvents (s : State) (die : Nat) : List (State → Out) :=
  let d := s.die die
  ((List.range d.link.length).flatMap fun i => [execXcpyCopy die i, execXcpyFlag die i])
    ++ (d.bind.flatMap fun c => [execTransform c.ctx c.q, execRedist c.ctx c.q, execCompress c.ctx c.q, execDecompress c.ctx c.q,
        execRecode c.ctx c.q, execResample c.ctx c.q, execQuant c.ctx c.q])
    ++ ((List.range d.bind.length).flatMap fun i => [execCode die i, execBinderyCompletionRecord die i])
    ++ [execMark die, execMoveReport die, execMoveClaim die, execMkfreeEvent die, execSlotRound die]
    ++ (List.range d.quar.length).map fun i => execQuarantineEnd die i

/-- Events of the Dispatcher. -/
def dispatchEvents (s : State) : List (State → Out) :=
  (s.launches.flatMap fun l => [execLaunchCompletionRecord l.num, execLaunchDeadline l.num])
    ++ (s.graphs.flatMap fun g => [execGraphDeadline g.num, execEndNode g.num 0]
      ++ ((0 :: g.nodes.map fun p => p.1).flatMap fun n => [execKernelNode g.num n, execCopyNode g.num n, execCondNode g.num n,
          execLoopNode g.num n, execWaitNode g.num n, execSignalNode g.num n, execEndNode g.num n, execFaultHoldExpiry g.num n]))
    ++ (if s.launches.isEmpty then [] else
      (s.ctxs.flatMap fun p => p.2.part.flatMap fun c => (List.range 4).map fun n => execLaunchChoice { core := c, slot := n }))

/-- Events of a host port. -/
def portEvents (s : State) (port : Nat) : List (State → Out) :=
  let p := s.port port
  (if p.pending.isEmpty then [] else [execFreply port, execCtxset port, execPart port, execCancel port, execInval port,
      execDrover port, execHostHinv port, execPinwin port])
    ++ (if p.mail? then [execSense port, execLogread port, execUpdate port, execAttest port, execSetparam port,
      execMoncfg port, execMonread port, execResync port, execTestinj port] else [])

/-- Messages between blocks. -/
def messageEvents (s : State) : List (State → Out) :=
  s.blocks.flatMap fun p => (List.range p.2.msgs.length).map fun i => execTileTransfer p.1 i

/-- Queued accesses and points of blocks: a store that is buffered drains in time (R143). -/
def queueEvents (s : State) : List (State → Out) :=
  (s.blocks.flatMap fun p => p.2.evq.flatMap fun e => match e.kind with
    | .acqPoint | .relPoint => [takePoint e.kind p.1 e.id]
    | _ => (List.range e.units.length).map fun u => takeUnit e.kind p.1 e.id u)
    ++ (((s.saved.map fun (x : Saved) => x.evq) ++ s.late).flatMap fun q => (q.filter fun e => e.kind = .relPoint).map fun e =>
      takePoint e.kind { core := 0, slot := 0 } e.id)

/-- Events that may be enabled. -/
def idleEvents (s : State) : List (State → Out) :=
  queueEvents s ++ messageEvents s ++ dieEvents s 0 ++ dieEvents s 1 ++ dispatchEvents s ++ portEvents s 0 ++ portEvents s 1

/-- Two states that differ in the monitors alone: a poll that finds nothing has changed no more. -/
def onlySampled (s s1 : State) : Bool :=
  { s1 with die0 := { s1.die0 with monitors := s.die0.monitors }, die1 := { s1.die1 with monitors := s.die1.monitors } } = s

/-- The first event of a list that changes the state. -/
def firstEvent (s : State) : List (State → Out) → Option State
  | [] => none
  | i :: is => match i s with
    | .next s1 => if onlySampled s s1 then firstEvent s is else some s1
    | _ => firstEvent s is

/-- The first block of a list that moves; a stalled one leaves what its turn did (a posting, a handle read). -/
def firstBlock (s : State) : List BKey → Out
  | [] => .next (s.tick 1)
  | k :: ks => match agentTurn (.block k) s with
    | (true, o) => o
    | (false, .next s1) => firstBlock s1 ks
    | (false, o) => o

/-- The agent that moves by default is stalled: an enabled event happens, or another block moves, or 1 ns passes. -/
def idle (s : State) : Out :=
  if s.halted then .next s
  else match firstEvent s (idleEvents s) with
    | some s1 => .next s1
    | none => firstBlock s (s.blocks.map fun p => p.1)

/-- A turn took the block that moves back in its code: it may loop. -/
def State.loopsBack (s s1 : State) : Bool :=
  match s.active with
  | .block k => (match s.block? k, s1.block? k with
    | some b, some x => x.pc < b.pc
    | _, _ => false)
  | .relay _ => false

/-- The default agent's turn. A block goes back in its code once what is queued has been performed as far as it can be, so that its stores drain
while it loops (R143). -/
def defaultTurn (s : State) : Out :=
  match agentTurn s.active s with
  | (true, .next s1) =>
    if s.loopsBack s1 then (match firstEvent s (queueEvents s) with | some s2 => .next s2 | none => .next s1) else .next s1
  | (true, o) => o
  | (false, .next s1) => idle s1
  | (false, o) => o

/-! ## Placing a word for the next step -/

/-- Where `placeTile` puts its tables and code (log 1). -/
def placeRoot : Nat := 0x10000
def placeMid : Nat := 0x11000
def placeTable : Nat := 0x12000
def placeCode : Nat := 0x20000

/-- The context number, launch number and PC that `placeTile` uses. -/
def placePc : Nat := 64
def placeKey : BKey := { core := 0, slot := 0 }

/-- The words that `placeTile` writes: one page table level that points to the next, one leaf that maps the first 512 GiB to
themselves, the code handle, and the word. -/
def placeWords (w : Nat) : List (Nat × Nat) :=
  [(placeRoot, placeMid / 4096 * 2 ^ 10 + 1), (placeMid, 0xDF),
    (placeTable + 64, 2 ^ 63 + placeCode), (placeTable + 72, 2 ^ 46 + 2 ^ 44 + 0x1000), (placeTable + 80, 0), (placeTable + 88, 0),
    (placeCode + placePc, w)]

/-- The context that `placeTile` sets up: its page table, three handles, core 0, and the code handle in core 0's cache. -/
def placeCtx : Ctx :=
  { Ctx.empty with
    htb := BitVec.ofNat 64 placeTable
    htn := 3
    xroot := BitVec.ofNat 64 (0xA * 2 ^ 60 + placeRoot / 4096)
    part := [0]
    hcache := [(0, 1, parseHandle (2 ^ 63 + placeCode) (2 ^ 46 + 2 ^ 44 + 0x1000) 0 0)] }

/-- The launch that `placeTile` sets up: one block, its code section the word alone. -/
def placeLaunch : Launch :=
  { num := 0
    man := { parseManifest (List.replicate 128 0) with coderef := mkRef 1 0, deadline := noDeadline }
    entry := BitVec.ofNat 32 placePc
    wrapup := none
    codeOff := placePc
    codeLen := 8
    coop := false
    windows := List.replicate 8 none
    begun := [0]
    reruns := []
    valid := []
    fcause := 0
    fblk := none
    nflt := 0
    admitted := 0
    waitingSince := 0
    key := none
    tk := 0
    mapped := false
    ready := true
    status := 0
    node := none }

/-- Places a tile-instruction word: what the host's writes, CTXSET and PART, and the Dispatcher's admission and DSPCH would have set
up for a launch whose kernel is that word, its one block in context 0 of core 0 about to issue it (log 1). -/
def placeTile (w : Nat) (s : State) : State :=
  let words := placeWords w
  let hit (line : Nat) : Bool := words.any fun p => p.1 / 128 = line
  let s1 : State := { s with
    mem := words.foldl (fun m p => m.writeLE p.1 8 p.2) s.mem
    marks := s.marks.filter fun p => !hit p.1
    eccLines := s.eccLines.filter fun l => !hit l
    coded := s.coded.filter fun p => !words.any fun x => x.1 / 512 = p.1
    launches := placeLaunch :: s.launches.filter fun l => l.num ≠ 0
    schedule := []
    active := .block placeKey
    stopped := []
    halted := false }
  let s2 := s1.mapDir fun ds => ds.filter fun d => d.ctx ≠ 0
  (s2.setCtx 0 placeCtx).setBlock placeKey (startBlock placeLaunch 0 0 s.dtime)

/-- Places a relay-core word in the instruction memory of relay core 0 at its pc. -/
def placeRelay (w : Nat) (s : State) : State :=
  let c := s.relays[0]
  { s with
    relays := s.relays.set 0 { c with imem := c.imem.writeLE c.pc.toNat 4 w, halted := false }
    schedule := []
    active := .relay 0
    halted := false }

end Sys2Proof.Machine
end

