-- ==== Sys2Proof/Machine/Step.lean ====
section
/-! DEFINITION. One step of the package: the next turn of the schedule, or, when none is left, the turn of the agent that moves by
default (log 1). -/

namespace Sys2Proof.Machine

/-- One step. -/
def step (s : State) : Host.Outcome State Fault Refusal :=
  match s.schedule with
  | t :: ts => runTurn t { s with schedule := ts }
  | [] => defaultTurn s

/-- The state with an instruction placed where the next step fetches: a relay-core word of 32 bits, or a tile-instruction word of
64 bits. -/
def State.withFetchWord (s : State) (nbits w : Nat) : State :=
  if nbits = 32 then placeRelay (w % 2 ^ 32) s else placeTile (w % 2 ^ 64) s

end Sys2Proof.Machine
end

