-- ==== Sys2Proof/Laws/PerInstr.lean ====
section
/-! SUPPORT. One law per constructor: the word of a well-formed instruction decodes to it, with every operand at every value the
encoding admits. -/

namespace Sys2Proof.Laws

/-! ### Fields of a word -/

theorem fin_eq {n : Nat} [NeZero n] {lo w : Nat} {x : Fin n} (h : w / 2 ^ lo % n = x.val) : fin n lo w = x := by
  apply Fin.ext; simpa [fin, Fin.ofNat] using h

theorem bv_eq {n lo w : Nat} {x : BitVec n} (h : w / 2 ^ lo % 2 ^ n = x.toNat) : bv n lo w = x := by
  apply BitVec.eq_of_toNat_eq; simpa [bv] using h

theorem bit_eq {lo w : Nat} {x : Bool} (h : w / 2 ^ lo % 2 = x.toNat) : bit lo w = x := by
  cases x <;> simp_all [bit]

theorem finish_ok (i : Instr) (h : i.wellFormed = true) : finish 0 false (some i) = .ok i := by
  unfold Instr.wellFormed at h
  rw [Bool.and_eq_true] at h
  simp [finish, h.1, h.2]

theorem Cc.code_lt (x : Cc) : x.code < 8 := by cases x <;> decide
theorem Cc.ofCode_code (x : Cc) : Cc.ofCode x.code = some x := by cases x <;> rfl
theorem Rnd.code_lt (x : Rnd) : x.code < 8 := by cases x <;> decide
theorem Rnd.ofCode_code (x : Rnd) : Rnd.ofCode x.code = some x := by cases x <;> rfl
theorem Lay.code_lt (x : Lay) : x.code < 8 := by cases x <;> decide
theorem Lay.ofCode_code (x : Lay) : Lay.ofCode x.code = some x := by cases x <;> rfl
theorem Home.code_lt (x : Home) : x.code < 2 := by cases x <;> decide
theorem Home.ofCode_code (x : Home) : Home.ofCode x.code = some x := by cases x <;> rfl
theorem Efmt.code_lt (x : Efmt) : x.code < 32 := by cases x <;> decide
theorem Efmt.ofCode_code (x : Efmt) : Efmt.ofCode x.code = some x := by cases x <;> rfl
theorem AOp.code_lt (x : AOp) : x.code < 16 := by cases x <;> decide
theorem AOp.ofCode_code (x : AOp) : AOp.ofCode x.code = some x := by cases x <;> rfl
theorem Scope.code_lt (x : Scope) : x.code < 8 := by cases x <;> decide
theorem Scope.ofCode_code (x : Scope) : Scope.ofCode x.code = some x := by cases x <;> rfl
theorem MemOrd.str_lt (x : MemOrd) : x.strCode < 4 := by cases x <;> simp [MemOrd.strCode]
theorem MemOrd.scope_lt (x : MemOrd) : x.scopeCode < 8 := by
  cases x with
  | weak => decide
  | strong s => exact Scope.code_lt s
  | acq s => exact Scope.code_lt s
  | rel s => exact Scope.code_lt s
theorem MemOrd.ofCodes_codes (x : MemOrd) : MemOrd.ofCodes x.strCode x.scopeCode = some x := by
  cases x with
  | weak => rfl
  | strong s => cases s <;> rfl
  | acq s => cases s <;> rfl
  | rel s => cases s <;> rfl
theorem fenceScope_code (x : Scope) : fenceScope 1 x.code = some x := by cases x <;> rfl

theorem maskBits_lt (m : Option MReg) : maskBits m < 16 := by cases m with | none => exact Nat.zero_lt_succ _ | some m => exact m.isLt
theorem maskOn_lt (m : Option MReg) : maskOn m < 2 := by cases m <;> simp [maskOn]

/-- The mask fields of an encoded mask operand. -/
theorem mask_eq {lk lm w : Nat} {m : Option MReg} (hk : w / 2 ^ lk % 2 = maskOn m) (hm : w / 2 ^ lm % 16 = maskBits m) :
    maskRsv lk lm w = 0 ∧ maskOf lk lm w = m := by
  cases m with
  | none => simp [maskRsv, maskOf, bit, fld, hk, maskOn]; exact hm
  | some m => simp [maskRsv, maskOf, bit, hk, maskOn]; exact fin_eq hm

theorem coreBits_lt (c : Option CoreSel) : coreBits c < 8 := by cases c with | none => exact Nat.zero_lt_succ _ | some c => exact c.isLt
theorem coreOn_lt (c : Option CoreSel) : coreOn c < 2 := by cases c <;> simp [coreOn]

/-- The fields of an encoded matrix operand. -/
theorem src_eq {lt lx lc w : Nat} {x : TSrc} (ht : w / 2 ^ lt % 64 = x.t.val) (hx : w / 2 ^ lx % 2 = coreOn x.core)
    (hc : w / 2 ^ lc % 8 = coreBits x.core) : srcRsv lx lc w = 0 ∧ srcOf lt lx lc w = x := by
  obtain ⟨t, core⟩ := x
  have e : fin 64 lt w = t := fin_eq ht
  cases core with
  | none => simp [srcRsv, srcOf, bit, fld, hx, coreOn, e]; exact hc
  | some c => simp [srcRsv, srcOf, bit, hx, coreOn, e]; exact fin_eq hc

/-! ### Words by the places of their fields -/

theorem layout0 {maj mn v0 v1 v2 v3 w : Nat} (ma : maj < 128) (mi : mn < 32) (h0 : v0 < 8) (h1 : v1 < 32) (h2 : v2 < 32) (h3 : v3 < 4294967296)
    (hw : word maj mn [(39, v0), (47, v1), (42, v2), (0, v3)] = w) :
    fld 57 7 w = maj ∧ fld 52 5 w = mn ∧ fld 39 3 w = v0 ∧ fld 47 5 w = v1 ∧ fld 42 5 w = v2 ∧ fld 0 32 w = v3 ∧ fld 32 7 w = 0 := by
  simp only [word, packFields, Nat.reducePow] at hw
  simp only [fld, Nat.reducePow]
  refine ⟨?_, ?_, ?_, ?_, ?_, ?_, ?_⟩
  all_goals omega

theorem layout1 {maj mn v0 w : Nat} (ma : maj < 128) (mi : mn < 32) (h0 : v0 < 4294967296)
    (hw : word maj mn [(0, v0)] = w) :
    fld 57 7 w = maj ∧ fld 52 5 w = mn ∧ fld 0 32 w = v0 ∧ fld 32 20 w = 0 := by
  simp only [word, packFields, Nat.reducePow] at hw
  simp only [fld, Nat.reducePow]
  refine ⟨?_, ?_, ?_, ?_⟩
  all_goals omega

theorem layout2 {maj mn  w : Nat} (ma : maj < 128) (mi : mn < 32)
    (hw : word maj mn [] = w) :
    fld 57 7 w = maj ∧ fld 52 5 w = mn ∧ fld 0 52 w = 0 := by
  simp only [word, packFields, Nat.reducePow] at hw
  simp only [fld, Nat.reducePow]
  refine ⟨?_, ?_, ?_⟩
  all_goals omega

theorem layout3 {maj mn v0 v1 w : Nat} (ma : maj < 128) (mi : mn < 32) (h0 : v0 < 32) (h1 : v1 < 4294967296)
    (hw : word maj mn [(47, v0), (0, v1)] = w) :
    fld 57 7 w = maj ∧ fld 52 5 w = mn ∧ fld 47 5 w = v0 ∧ fld 0 32 w = v1 ∧ fld 32 15 w = 0 := by
  simp only [word, packFields, Nat.reducePow] at hw
  simp only [fld, Nat.reducePow]
  refine ⟨?_, ?_, ?_, ?_, ?_⟩
  all_goals omega

theorem layout4 {maj mn v0 w : Nat} (ma : maj < 128) (mi : mn < 32) (h0 : v0 < 65536)
    (hw : word maj mn [(0, v0)] = w) :
    fld 57 7 w = maj ∧ fld 52 5 w = mn ∧ fld 0 16 w = v0 ∧ fld 16 36 w = 0 := by
  simp only [word, packFields, Nat.reducePow] at hw
  simp only [fld, Nat.reducePow]
  refine ⟨?_, ?_, ?_, ?_⟩
  all_goals omega

theorem layout5 {maj mn v0 v1 w : Nat} (ma : maj < 128) (mi : mn < 32) (h0 : v0 < 32) (h1 : v1 < 4096)
    (hw : word maj mn [(47, v0), (0, v1)] = w) :
    fld 57 7 w = maj ∧ fld 52 5 w = mn ∧ fld 47 5 w = v0 ∧ fld 0 12 w = v1 ∧ fld 12 35 w = 0 := by
  simp only [word, packFields, Nat.reducePow] at hw
  simp only [fld, Nat.reducePow]
  refine ⟨?_, ?_, ?_, ?_, ?_⟩
  all_goals omega

theorem layout6 {maj mn v0 v1 v2 v3 w : Nat} (ma : maj < 128) (mi : mn < 32) (h0 : v0 < 32) (h1 : v1 < 32) (h2 : v2 < 32) (h3 : v3 < 4294967296)
    (hw : word maj mn [(47, v0), (32, v1), (42, v2), (0, v3)] = w) :
    fld 57 7 w = maj ∧ fld 52 5 w = mn ∧ fld 47 5 w = v0 ∧ fld 32 5 w = v1 ∧ fld 42 5 w = v2 ∧ fld 0 32 w = v3 ∧ fld 37 5 w = 0 := by
  simp only [word, packFields, Nat.reducePow] at hw
  simp only [fld, Nat.reducePow]
  refine ⟨?_, ?_, ?_, ?_, ?_, ?_, ?_⟩
  all_goals omega

theorem layout7 {maj mn v0 w : Nat} (ma : maj < 128) (mi : mn < 32) (h0 : v0 < 32)
    (hw : word maj mn [(47, v0)] = w) :
    fld 57 7 w = maj ∧ fld 52 5 w = mn ∧ fld 47 5 w = v0 ∧ fld 0 47 w = 0 := by
  simp only [word, packFields, Nat.reducePow] at hw
  simp only [fld, Nat.reducePow]
  refine ⟨?_, ?_, ?_, ?_⟩
  all_goals omega

theorem layout8 {maj mn v0 v1 w : Nat} (ma : maj < 128) (mi : mn < 32) (h0 : v0 < 32) (h1 : v1 < 16)
    (hw : word maj mn [(47, v0), (42, v1)] = w) :
    fld 57 7 w = maj ∧ fld 52 5 w = mn ∧ fld 47 5 w = v0 ∧ fld 42 4 w = v1 ∧ fld 0 42 w = 0 ∧ fld 46 1 w = 0 := by
  simp only [word, packFields, Nat.reducePow] at hw
  simp only [fld, Nat.reducePow]
  refine ⟨?_, ?_, ?_, ?_, ?_, ?_⟩
  all_goals omega

theorem layout9 {maj mn v0 v1 v2 w : Nat} (ma : maj < 128) (mi : mn < 32) (h0 : v0 < 32) (h1 : v1 < 32) (h2 : v2 < 32)
    (hw : word maj mn [(47, v0), (42, v1), (37, v2)] = w) :
    fld 57 7 w = maj ∧ fld 52 5 w = mn ∧ fld 47 5 w = v0 ∧ fld 42 5 w = v1 ∧ fld 37 5 w = v2 ∧ fld 0 37 w = 0 := by
  simp only [word, packFields, Nat.reducePow] at hw
  simp only [fld, Nat.reducePow]
  refine ⟨?_, ?_, ?_, ?_, ?_, ?_⟩
  all_goals omega

theorem layout10 {maj mn v0 v1 w : Nat} (ma : maj < 128) (mi : mn < 32) (h0 : v0 < 32) (h1 : v1 < 32)
    (hw : word maj mn [(47, v0), (42, v1)] = w) :
    fld 57 7 w = maj ∧ fld 52 5 w = mn ∧ fld 47 5 w = v0 ∧ fld 42 5 w = v1 ∧ fld 0 42 w = 0 := by
  simp only [word, packFields, Nat.reducePow] at hw
  simp only [fld, Nat.reducePow]
  refine ⟨?_, ?_, ?_, ?_, ?_⟩
  all_goals omega

theorem layout11 {maj mn v0 v1 v2 v3 w : Nat} (ma : maj < 128) (mi : mn < 32) (h0 : v0 < 32) (h1 : v1 < 32) (h2 : v2 < 32) (h3 : v3 < 32)
    (hw : word maj mn [(47, v0), (42, v1), (37, v2), (32, v3)] = w) :
    fld 57 7 w = maj ∧ fld 52 5 w = mn ∧ fld 47 5 w = v0 ∧ fld 42 5 w = v1 ∧ fld 37 5 w = v2 ∧ fld 32 5 w = v3 ∧ fld 0 32 w = 0 := by
  simp only [word, packFields, Nat.reducePow] at hw
  simp only [fld, Nat.reducePow]
  refine ⟨?_, ?_, ?_, ?_, ?_, ?_, ?_⟩
  all_goals omega

theorem layout12 {maj mn v0 v1 v2 v3 v4 w : Nat} (ma : maj < 128) (mi : mn < 32) (h0 : v0 < 32) (h1 : v1 < 32) (h2 : v2 < 64) (h3 : v3 < 64) (h4 : v4 < 2)
    (hw : word maj mn [(47, v0), (42, v1), (0, v2), (6, v3), (12, v4)] = w) :
    fld 57 7 w = maj ∧ fld 52 5 w = mn ∧ fld 47 5 w = v0 ∧ fld 42 5 w = v1 ∧ fld 0 6 w = v2 ∧ fld 6 6 w = v3 ∧ fld 12 1 w = v4 ∧ fld 13 29 w = 0 := by
  simp only [word, packFields, Nat.reducePow] at hw
  simp only [fld, Nat.reducePow]
  refine ⟨?_, ?_, ?_, ?_, ?_, ?_, ?_, ?_⟩
  all_goals omega

theorem layout13 {maj mn v0 v1 v2 v3 w : Nat} (ma : maj < 128) (mi : mn < 32) (h0 : v0 < 32) (h1 : v1 < 32) (h2 : v2 < 64) (h3 : v3 < 64)
    (hw : word maj mn [(47, v0), (42, v1), (0, v2), (6, v3)] = w) :
    fld 57 7 w = maj ∧ fld 52 5 w = mn ∧ fld 47 5 w = v0 ∧ fld 42 5 w = v1 ∧ fld 0 6 w = v2 ∧ fld 6 6 w = v3 ∧ fld 12 30 w = 0 := by
  simp only [word, packFields, Nat.reducePow] at hw
  simp only [fld, Nat.reducePow]
  refine ⟨?_, ?_, ?_, ?_, ?_, ?_, ?_⟩
  all_goals omega

theorem layout14 {maj mn v0 v1 v2 w : Nat} (ma : maj < 128) (mi : mn < 32) (h0 : v0 < 32) (h1 : v1 < 32) (h2 : v2 < 4294967296)
    (hw : word maj mn [(47, v0), (42, v1), (0, v2)] = w) :
    fld 57 7 w = maj ∧ fld 52 5 w = mn ∧ fld 47 5 w = v0 ∧ fld 42 5 w = v1 ∧ fld 0 32 w = v2 ∧ fld 32 10 w = 0 := by
  simp only [word, packFields, Nat.reducePow] at hw
  simp only [fld, Nat.reducePow]
  refine ⟨?_, ?_, ?_, ?_, ?_, ?_⟩
  all_goals omega

theorem layout15 {maj mn v0 v1 v2 w : Nat} (ma : maj < 128) (mi : mn < 32) (h0 : v0 < 32) (h1 : v1 < 32) (h2 : v2 < 64)
    (hw : word maj mn [(47, v0), (42, v1), (0, v2)] = w) :
    fld 57 7 w = maj ∧ fld 52 5 w = mn ∧ fld 47 5 w = v0 ∧ fld 42 5 w = v1 ∧ fld 0 6 w = v2 ∧ fld 6 36 w = 0 := by
  simp only [word, packFields, Nat.reducePow] at hw
  simp only [fld, Nat.reducePow]
  refine ⟨?_, ?_, ?_, ?_, ?_, ?_⟩
  all_goals omega

theorem layout16 {maj mn v0 v1 v2 w : Nat} (ma : maj < 128) (mi : mn < 32) (h0 : v0 < 16) (h1 : v1 < 32) (h2 : v2 < 32)
    (hw : word maj mn [(47, v0), (42, v1), (37, v2)] = w) :
    fld 57 7 w = maj ∧ fld 52 5 w = mn ∧ fld 47 4 w = v0 ∧ fld 42 5 w = v1 ∧ fld 37 5 w = v2 ∧ fld 1 36 w = 0 ∧ fld 51 1 w = 0 ∧ fld 0 1 w = 0 := by
  simp only [word, packFields, Nat.reducePow] at hw
  simp only [fld, Nat.reducePow]
  refine ⟨?_, ?_, ?_, ?_, ?_, ?_, ?_, ?_⟩
  all_goals omega

theorem layout17 {maj mn v0 v1 v2 w : Nat} (ma : maj < 128) (mi : mn < 32) (h0 : v0 < 16) (h1 : v1 < 32) (h2 : v2 < 2)
    (hw : word maj mn [(47, v0), (42, v1), (0, v2)] = w) :
    fld 57 7 w = maj ∧ fld 52 5 w = mn ∧ fld 47 4 w = v0 ∧ fld 42 5 w = v1 ∧ fld 0 1 w = v2 ∧ fld 1 41 w = 0 ∧ fld 51 1 w = 0 := by
  simp only [word, packFields, Nat.reducePow] at hw
  simp only [fld, Nat.reducePow]
  refine ⟨?_, ?_, ?_, ?_, ?_, ?_, ?_⟩
  all_goals omega

theorem layout18 {maj mn v0 v1 v2 w : Nat} (ma : maj < 128) (mi : mn < 32) (h0 : v0 < 16) (h1 : v1 < 16) (h2 : v2 < 32)
    (hw : word maj mn [(47, v0), (42, v1), (37, v2)] = w) :
    fld 57 7 w = maj ∧ fld 52 5 w = mn ∧ fld 47 4 w = v0 ∧ fld 42 4 w = v1 ∧ fld 37 5 w = v2 ∧ fld 0 37 w = 0 ∧ fld 46 1 w = 0 ∧ fld 51 1 w = 0 := by
  simp only [word, packFields, Nat.reducePow] at hw
  simp only [fld, Nat.reducePow]
  refine ⟨?_, ?_, ?_, ?_, ?_, ?_, ?_, ?_⟩
  all_goals omega

theorem layout19 {maj mn v0 v1 v2 w : Nat} (ma : maj < 128) (mi : mn < 32) (h0 : v0 < 16) (h1 : v1 < 16) (h2 : v2 < 4294967296)
    (hw : word maj mn [(47, v0), (42, v1), (0, v2)] = w) :
    fld 57 7 w = maj ∧ fld 52 5 w = mn ∧ fld 47 4 w = v0 ∧ fld 42 4 w = v1 ∧ fld 0 32 w = v2 ∧ fld 32 10 w = 0 ∧ fld 46 1 w = 0 ∧ fld 51 1 w = 0 := by
  simp only [word, packFields, Nat.reducePow] at hw
  simp only [fld, Nat.reducePow]
  refine ⟨?_, ?_, ?_, ?_, ?_, ?_, ?_, ?_⟩
  all_goals omega

theorem layout20 {maj mn v0 v1 w : Nat} (ma : maj < 128) (mi : mn < 32) (h0 : v0 < 32) (h1 : v1 < 16)
    (hw : word maj mn [(47, v0), (42, v1)] = w) :
    fld 57 7 w = maj ∧ fld 52 5 w = mn ∧ fld 47 5 w = v0 ∧ fld 42 4 w = v1 ∧ fld 1 41 w = 0 ∧ fld 46 1 w = 0 ∧ fld 0 1 w = 0 := by
  simp only [word, packFields, Nat.reducePow] at hw
  simp only [fld, Nat.reducePow]
  refine ⟨?_, ?_, ?_, ?_, ?_, ?_, ?_⟩
  all_goals omega

theorem layout21 {maj mn v0 v1 v2 w : Nat} (ma : maj < 128) (mi : mn < 32) (h0 : v0 < 32) (h1 : v1 < 16) (h2 : v2 < 2)
    (hw : word maj mn [(47, v0), (42, v1), (0, v2)] = w) :
    fld 57 7 w = maj ∧ fld 52 5 w = mn ∧ fld 47 5 w = v0 ∧ fld 42 4 w = v1 ∧ fld 0 1 w = v2 ∧ fld 1 41 w = 0 ∧ fld 46 1 w = 0 := by
  simp only [word, packFields, Nat.reducePow] at hw
  simp only [fld, Nat.reducePow]
  refine ⟨?_, ?_, ?_, ?_, ?_, ?_, ?_⟩
  all_goals omega

theorem layout22 {maj mn v0 v1 v2 v3 v4 w : Nat} (ma : maj < 128) (mi : mn < 32) (h0 : v0 < 32) (h1 : v1 < 16) (h2 : v2 < 4) (h3 : v3 < 8) (h4 : v4 < 16777216)
    (hw : word maj mn [(47, v0), (43, v1), (38, v2), (40, v3), (0, v4)] = w) :
    fld 57 7 w = maj ∧ fld 52 5 w = mn ∧ fld 47 5 w = v0 ∧ fld 43 4 w = v1 ∧ fld 38 2 w = v2 ∧ fld 40 3 w = v3 ∧ fld 0 24 w = v4 ∧ fld 24 14 w = 0 := by
  simp only [word, packFields, Nat.reducePow] at hw
  simp only [fld, Nat.reducePow]
  refine ⟨?_, ?_, ?_, ?_, ?_, ?_, ?_, ?_⟩
  all_goals omega

theorem layout23 {maj mn v0 v1 v2 v3 v4 v5 w : Nat} (ma : maj < 128) (mi : mn < 32) (h0 : v0 < 64) (h1 : v1 < 256) (h2 : v2 < 256) (h3 : v3 < 32) (h4 : v4 < 2) (h5 : v5 < 8)
    (hw : word maj mn [(46, v0), (27, v1), (19, v2), (36, v3), (35, v4), (16, v5)] = w) :
    fld 57 7 w = maj ∧ fld 52 5 w = mn ∧ fld 46 6 w = v0 ∧ fld 27 8 w = v1 ∧ fld 19 8 w = v2 ∧ fld 36 5 w = v3 ∧ fld 35 1 w = v4 ∧ fld 16 3 w = v5 ∧ fld 0 16 w = 0 ∧ fld 41 5 w = 0 := by
  simp only [word, packFields, Nat.reducePow] at hw
  simp only [fld, Nat.reducePow]
  refine ⟨?_, ?_, ?_, ?_, ?_, ?_, ?_, ?_, ?_, ?_⟩
  all_goals omega

theorem layout24 {maj mn v0 v1 v2 v3 v4 w : Nat} (ma : maj < 128) (mi : mn < 32) (h0 : v0 < 64) (h1 : v1 < 32) (h2 : v2 < 32) (h3 : v3 < 2) (h4 : v4 < 8)
    (hw : word maj mn [(46, v0), (41, v1), (36, v2), (35, v3), (16, v4)] = w) :
    fld 57 7 w = maj ∧ fld 52 5 w = mn ∧ fld 46 6 w = v0 ∧ fld 41 5 w = v1 ∧ fld 36 5 w = v2 ∧ fld 35 1 w = v3 ∧ fld 16 3 w = v4 ∧ fld 0 16 w = 0 ∧ fld 19 16 w = 0 := by
  simp only [word, packFields, Nat.reducePow] at hw
  simp only [fld, Nat.reducePow]
  refine ⟨?_, ?_, ?_, ?_, ?_, ?_, ?_, ?_, ?_⟩
  all_goals omega

theorem layout25 {maj mn v0 v1 v2 v3 w : Nat} (ma : maj < 128) (mi : mn < 32) (h0 : v0 < 64) (h1 : v1 < 256) (h2 : v2 < 256) (h3 : v3 < 32)
    (hw : word maj mn [(46, v0), (27, v1), (19, v2), (41, v3)] = w) :
    fld 57 7 w = maj ∧ fld 52 5 w = mn ∧ fld 46 6 w = v0 ∧ fld 27 8 w = v1 ∧ fld 19 8 w = v2 ∧ fld 41 5 w = v3 ∧ fld 0 19 w = 0 ∧ fld 35 6 w = 0 := by
  simp only [word, packFields, Nat.reducePow] at hw
  simp only [fld, Nat.reducePow]
  refine ⟨?_, ?_, ?_, ?_, ?_, ?_, ?_, ?_⟩
  all_goals omega

theorem layout26 {maj mn v0 v1 w : Nat} (ma : maj < 128) (mi : mn < 32) (h0 : v0 < 64) (h1 : v1 < 8)
    (hw : word maj mn [(46, v0), (16, v1)] = w) :
    fld 57 7 w = maj ∧ fld 52 5 w = mn ∧ fld 46 6 w = v0 ∧ fld 16 3 w = v1 ∧ fld 0 16 w = 0 ∧ fld 19 27 w = 0 := by
  simp only [word, packFields, Nat.reducePow] at hw
  simp only [fld, Nat.reducePow]
  refine ⟨?_, ?_, ?_, ?_, ?_, ?_⟩
  all_goals omega

theorem layout27 {maj mn v0 w : Nat} (ma : maj < 128) (mi : mn < 32) (h0 : v0 < 64)
    (hw : word maj mn [(46, v0)] = w) :
    fld 57 7 w = maj ∧ fld 52 5 w = mn ∧ fld 46 6 w = v0 ∧ fld 0 46 w = 0 := by
  simp only [word, packFields, Nat.reducePow] at hw
  simp only [fld, Nat.reducePow]
  refine ⟨?_, ?_, ?_, ?_⟩
  all_goals omega

theorem layout28 {maj mn v0 v1 v2 w : Nat} (ma : maj < 128) (mi : mn < 32) (h0 : v0 < 32) (h1 : v1 < 64) (h2 : v2 < 256)
    (hw : word maj mn [(46, v0), (40, v1), (6, v2)] = w) :
    fld 57 7 w = maj ∧ fld 52 5 w = mn ∧ fld 46 5 w = v0 ∧ fld 40 6 w = v1 ∧ fld 6 8 w = v2 ∧ fld 0 6 w = 0 ∧ fld 14 26 w = 0 ∧ fld 51 1 w = 0 := by
  simp only [word, packFields, Nat.reducePow] at hw
  simp only [fld, Nat.reducePow]
  refine ⟨?_, ?_, ?_, ?_, ?_, ?_, ?_, ?_⟩
  all_goals omega

theorem layout29 {maj mn v0 v1 w : Nat} (ma : maj < 128) (mi : mn < 32) (h0 : v0 < 64) (h1 : v1 < 32)
    (hw : word maj mn [(46, v0), (40, v1)] = w) :
    fld 57 7 w = maj ∧ fld 52 5 w = mn ∧ fld 46 6 w = v0 ∧ fld 40 5 w = v1 ∧ fld 0 40 w = 0 ∧ fld 45 1 w = 0 := by
  simp only [word, packFields, Nat.reducePow] at hw
  simp only [fld, Nat.reducePow]
  refine ⟨?_, ?_, ?_, ?_, ?_, ?_⟩
  all_goals omega

theorem layout30 {maj mn v0 v1 v2 v3 w : Nat} (ma : maj < 128) (mi : mn < 32) (h0 : v0 < 64) (h1 : v1 < 64) (h2 : v2 < 16) (h3 : v3 < 2)
    (hw : word maj mn [(46, v0), (40, v1), (24, v2), (23, v3)] = w) :
    fld 57 7 w = maj ∧ fld 52 5 w = mn ∧ fld 46 6 w = v0 ∧ fld 40 6 w = v1 ∧ fld 24 4 w = v2 ∧ fld 23 1 w = v3 ∧ fld 0 23 w = 0 ∧ fld 28 12 w = 0 := by
  simp only [word, packFields, Nat.reducePow] at hw
  simp only [fld, Nat.reducePow]
  refine ⟨?_, ?_, ?_, ?_, ?_, ?_, ?_, ?_⟩
  all_goals omega

theorem layout31 {maj mn v0 v1 v2 w : Nat} (ma : maj < 128) (mi : mn < 32) (h0 : v0 < 32) (h1 : v1 < 32) (h2 : v2 < 16)
    (hw : word maj mn [(47, v0), (42, v1), (0, v2)] = w) :
    fld 57 7 w = maj ∧ fld 52 5 w = mn ∧ fld 47 5 w = v0 ∧ fld 42 5 w = v1 ∧ fld 0 4 w = v2 ∧ fld 5 37 w = 0 ∧ fld 4 1 w = 0 := by
  simp only [word, packFields, Nat.reducePow] at hw
  simp only [fld, Nat.reducePow]
  refine ⟨?_, ?_, ?_, ?_, ?_, ?_, ?_⟩
  all_goals omega

theorem layout32 {maj mn v0 v1 v2 w : Nat} (ma : maj < 128) (mi : mn < 32) (h0 : v0 < 32) (h1 : v1 < 32) (h2 : v2 < 2)
    (hw : word maj mn [(47, v0), (42, v1), (4, v2)] = w) :
    fld 57 7 w = maj ∧ fld 52 5 w = mn ∧ fld 47 5 w = v0 ∧ fld 42 5 w = v1 ∧ fld 4 1 w = v2 ∧ fld 0 4 w = 0 ∧ fld 5 37 w = 0 := by
  simp only [word, packFields, Nat.reducePow] at hw
  simp only [fld, Nat.reducePow]
  refine ⟨?_, ?_, ?_, ?_, ?_, ?_, ?_⟩
  all_goals omega

theorem layout33 {maj mn v0 v1 v2 v3 v4 v5 v6 w : Nat} (ma : maj < 128) (mi : mn < 32) (h0 : v0 < 64) (h1 : v1 < 16) (h2 : v2 < 32) (h3 : v3 < 2) (h4 : v4 < 4) (h5 : v5 < 8) (h6 : v6 < 1048576)
    (hw : word maj mn [(46, v0), (42, v1), (37, v2), (25, v3), (26, v4), (28, v5), (0, v6)] = w) :
    fld 57 7 w = maj ∧ fld 52 5 w = mn ∧ fld 46 6 w = v0 ∧ fld 42 4 w = v1 ∧ fld 37 5 w = v2 ∧ fld 25 1 w = v3 ∧ fld 26 2 w = v4 ∧ fld 28 3 w = v5 ∧ fld 0 20 w = v6 ∧ fld 20 5 w = 0 ∧ fld 31 6 w = 0 := by
  simp only [word, packFields, Nat.reducePow] at hw
  simp only [fld, Nat.reducePow]
  refine ⟨?_, ?_, ?_, ?_, ?_, ?_, ?_, ?_, ?_, ?_, ?_⟩
  all_goals omega

theorem layout34 {maj mn v0 v1 v2 v3 v4 v5 w : Nat} (ma : maj < 128) (mi : mn < 32) (h0 : v0 < 64) (h1 : v1 < 16) (h2 : v2 < 32) (h3 : v3 < 4) (h4 : v4 < 8) (h5 : v5 < 1048576)
    (hw : word maj mn [(46, v0), (42, v1), (37, v2), (26, v3), (28, v4), (0, v5)] = w) :
    fld 57 7 w = maj ∧ fld 52 5 w = mn ∧ fld 46 6 w = v0 ∧ fld 42 4 w = v1 ∧ fld 37 5 w = v2 ∧ fld 26 2 w = v3 ∧ fld 28 3 w = v4 ∧ fld 0 20 w = v5 ∧ fld 20 6 w = 0 ∧ fld 31 6 w = 0 := by
  simp only [word, packFields, Nat.reducePow] at hw
  simp only [fld, Nat.reducePow]
  refine ⟨?_, ?_, ?_, ?_, ?_, ?_, ?_, ?_, ?_, ?_⟩
  all_goals omega

theorem layout35 {maj mn v0 v1 v2 v3 v4 v5 v6 w : Nat} (ma : maj < 128) (mi : mn < 32) (h0 : v0 < 64) (h1 : v1 < 16) (h2 : v2 < 32) (h3 : v3 < 64) (h4 : v4 < 4) (h5 : v5 < 8) (h6 : v6 < 1048576)
    (hw : word maj mn [(46, v0), (42, v1), (37, v2), (31, v3), (26, v4), (28, v5), (0, v6)] = w) :
    fld 57 7 w = maj ∧ fld 52 5 w = mn ∧ fld 46 6 w = v0 ∧ fld 42 4 w = v1 ∧ fld 37 5 w = v2 ∧ fld 31 6 w = v3 ∧ fld 26 2 w = v4 ∧ fld 28 3 w = v5 ∧ fld 0 20 w = v6 ∧ fld 20 6 w = 0 := by
  simp only [word, packFields, Nat.reducePow] at hw
  simp only [fld, Nat.reducePow]
  refine ⟨?_, ?_, ?_, ?_, ?_, ?_, ?_, ?_, ?_, ?_⟩
  all_goals omega

theorem layout36 {maj mn v0 v1 v2 v3 w : Nat} (ma : maj < 128) (mi : mn < 32) (h0 : v0 < 64) (h1 : v1 < 8) (h2 : v2 < 32) (h3 : v3 < 1048576)
    (hw : word maj mn [(46, v0), (42, v1), (37, v2), (0, v3)] = w) :
    fld 57 7 w = maj ∧ fld 52 5 w = mn ∧ fld 46 6 w = v0 ∧ fld 42 3 w = v1 ∧ fld 37 5 w = v2 ∧ fld 0 20 w = v3 ∧ fld 20 17 w = 0 ∧ fld 45 1 w = 0 := by
  simp only [word, packFields, Nat.reducePow] at hw
  simp only [fld, Nat.reducePow]
  refine ⟨?_, ?_, ?_, ?_, ?_, ?_, ?_, ?_⟩
  all_goals omega

theorem layout37 {maj mn v0 v1 v2 w : Nat} (ma : maj < 128) (mi : mn < 32) (h0 : v0 < 32) (h1 : v1 < 8) (h2 : v2 < 1048576)
    (hw : word maj mn [(46, v0), (42, v1), (0, v2)] = w) :
    fld 57 7 w = maj ∧ fld 52 5 w = mn ∧ fld 46 5 w = v0 ∧ fld 42 3 w = v1 ∧ fld 0 20 w = v2 ∧ fld 20 22 w = 0 ∧ fld 45 1 w = 0 ∧ fld 51 1 w = 0 := by
  simp only [word, packFields, Nat.reducePow] at hw
  simp only [fld, Nat.reducePow]
  refine ⟨?_, ?_, ?_, ?_, ?_, ?_, ?_, ?_⟩
  all_goals omega

theorem layout38 {maj mn v0 v1 v2 w : Nat} (ma : maj < 128) (mi : mn < 32) (h0 : v0 < 16) (h1 : v1 < 32) (h2 : v2 < 1048576)
    (hw : word maj mn [(42, v0), (37, v1), (0, v2)] = w) :
    fld 57 7 w = maj ∧ fld 52 5 w = mn ∧ fld 42 4 w = v0 ∧ fld 37 5 w = v1 ∧ fld 0 20 w = v2 ∧ fld 20 17 w = 0 ∧ fld 46 6 w = 0 := by
  simp only [word, packFields, Nat.reducePow] at hw
  simp only [fld, Nat.reducePow]
  refine ⟨?_, ?_, ?_, ?_, ?_, ?_, ?_⟩
  all_goals omega

theorem layout39 {maj mn v0 v1 v2 v3 v4 v5 v6 w : Nat} (ma : maj < 128) (mi : mn < 32) (h0 : v0 < 32) (h1 : v1 < 16) (h2 : v2 < 16) (h3 : v3 < 16) (h4 : v4 < 32) (h5 : v5 < 4) (h6 : v6 < 8)
    (hw : word maj mn [(47, v0), (43, v1), (39, v2), (35, v3), (30, v4), (25, v5), (27, v6)] = w) :
    fld 57 7 w = maj ∧ fld 52 5 w = mn ∧ fld 47 5 w = v0 ∧ fld 43 4 w = v1 ∧ fld 39 4 w = v2 ∧ fld 35 4 w = v3 ∧ fld 30 5 w = v4 ∧ fld 25 2 w = v5 ∧ fld 27 3 w = v6 ∧ fld 0 25 w = 0 := by
  simp only [word, packFields, Nat.reducePow] at hw
  simp only [fld, Nat.reducePow]
  refine ⟨?_, ?_, ?_, ?_, ?_, ?_, ?_, ?_, ?_, ?_⟩
  all_goals omega

theorem layout40 {maj mn v0 v1 v2 v3 v4 v5 v6 w : Nat} (ma : maj < 128) (mi : mn < 32) (h0 : v0 < 64) (h1 : v1 < 64) (h2 : v2 < 2) (h3 : v3 < 8) (h4 : v4 < 64) (h5 : v5 < 2) (h6 : v6 < 8)
    (hw : word maj mn [(46, v0), (40, v1), (33, v2), (30, v3), (34, v4), (29, v5), (26, v6)] = w) :
    fld 57 7 w = maj ∧ fld 52 5 w = mn ∧ fld 46 6 w = v0 ∧ fld 40 6 w = v1 ∧ fld 33 1 w = v2 ∧ fld 30 3 w = v3 ∧ fld 34 6 w = v4 ∧ fld 29 1 w = v5 ∧ fld 26 3 w = v6 ∧ fld 0 26 w = 0 := by
  simp only [word, packFields, Nat.reducePow] at hw
  simp only [fld, Nat.reducePow]
  refine ⟨?_, ?_, ?_, ?_, ?_, ?_, ?_, ?_, ?_, ?_⟩
  all_goals omega

theorem layout41 {maj mn v0 v1 v2 v3 v4 v5 v6 v7 v8 w : Nat} (ma : maj < 128) (mi : mn < 32) (h0 : v0 < 64) (h1 : v1 < 64) (h2 : v2 < 2) (h3 : v3 < 8) (h4 : v4 < 64) (h5 : v5 < 2) (h6 : v6 < 8) (h7 : v7 < 64) (h8 : v8 < 64)
    (hw : word maj mn [(46, v0), (40, v1), (33, v2), (30, v3), (34, v4), (29, v5), (26, v6), (20, v7), (14, v8)] = w) :
    fld 57 7 w = maj ∧ fld 52 5 w = mn ∧ fld 46 6 w = v0 ∧ fld 40 6 w = v1 ∧ fld 33 1 w = v2 ∧ fld 30 3 w = v3 ∧ fld 34 6 w = v4 ∧ fld 29 1 w = v5 ∧ fld 26 3 w = v6 ∧ fld 20 6 w = v7 ∧ fld 14 6 w = v8 ∧ fld 0 14 w = 0 := by
  simp only [word, packFields, Nat.reducePow] at hw
  simp only [fld, Nat.reducePow]
  refine ⟨?_, ?_, ?_, ?_, ?_, ?_, ?_, ?_, ?_, ?_, ?_, ?_⟩
  all_goals omega

theorem layout42 {maj mn v0 v1 v2 v3 v4 v5 w : Nat} (ma : maj < 128) (mi : mn < 32) (h0 : v0 < 64) (h1 : v1 < 64) (h2 : v2 < 64) (h3 : v3 < 2) (h4 : v4 < 8) (h5 : v5 < 16)
    (hw : word maj mn [(46, v0), (40, v1), (34, v2), (29, v3), (26, v4), (10, v5)] = w) :
    fld 57 7 w = maj ∧ fld 52 5 w = mn ∧ fld 46 6 w = v0 ∧ fld 40 6 w = v1 ∧ fld 34 6 w = v2 ∧ fld 29 1 w = v3 ∧ fld 26 3 w = v4 ∧ fld 10 4 w = v5 ∧ fld 0 10 w = 0 ∧ fld 14 12 w = 0 ∧ fld 30 3 w = 0 ∧ fld 33 1 w = 0 := by
  simp only [word, packFields, Nat.reducePow] at hw
  simp only [fld, Nat.reducePow]
  refine ⟨?_, ?_, ?_, ?_, ?_, ?_, ?_, ?_, ?_, ?_, ?_, ?_⟩
  all_goals omega

theorem layout43 {maj mn v0 v1 v2 v3 v4 v5 v6 w : Nat} (ma : maj < 128) (mi : mn < 32) (h0 : v0 < 64) (h1 : v1 < 64) (h2 : v2 < 32) (h3 : v3 < 8) (h4 : v4 < 2) (h5 : v5 < 16) (h6 : v6 < 2)
    (hw : word maj mn [(46, v0), (40, v1), (14, v2), (20, v3), (19, v4), (24, v5), (23, v6)] = w) :
    fld 57 7 w = maj ∧ fld 52 5 w = mn ∧ fld 46 6 w = v0 ∧ fld 40 6 w = v1 ∧ fld 14 5 w = v2 ∧ fld 20 3 w = v3 ∧ fld 19 1 w = v4 ∧ fld 24 4 w = v5 ∧ fld 23 1 w = v6 ∧ fld 0 14 w = 0 ∧ fld 28 12 w = 0 := by
  simp only [word, packFields, Nat.reducePow] at hw
  simp only [fld, Nat.reducePow]
  refine ⟨?_, ?_, ?_, ?_, ?_, ?_, ?_, ?_, ?_, ?_, ?_⟩
  all_goals omega

theorem layout44 {maj mn v0 v1 v2 v3 v4 v5 v6 w : Nat} (ma : maj < 128) (mi : mn < 32) (h0 : v0 < 64) (h1 : v1 < 64) (h2 : v2 < 32) (h3 : v3 < 8) (h4 : v4 < 2) (h5 : v5 < 16) (h6 : v6 < 2)
    (hw : word maj mn [(46, v0), (40, v1), (14, v2), (20, v3), (6, v4), (24, v5), (23, v6)] = w) :
    fld 57 7 w = maj ∧ fld 52 5 w = mn ∧ fld 46 6 w = v0 ∧ fld 40 6 w = v1 ∧ fld 14 5 w = v2 ∧ fld 20 3 w = v3 ∧ fld 6 1 w = v4 ∧ fld 24 4 w = v5 ∧ fld 23 1 w = v6 ∧ fld 0 6 w = 0 ∧ fld 7 7 w = 0 ∧ fld 19 1 w = 0 ∧ fld 28 12 w = 0 := by
  simp only [word, packFields, Nat.reducePow] at hw
  simp only [fld, Nat.reducePow]
  refine ⟨?_, ?_, ?_, ?_, ?_, ?_, ?_, ?_, ?_, ?_, ?_, ?_, ?_⟩
  all_goals omega

theorem layout45 {maj mn v0 w : Nat} (ma : maj < 128) (mi : mn < 32) (h0 : v0 < 32)
    (hw : word maj mn [(42, v0)] = w) :
    fld 57 7 w = maj ∧ fld 52 5 w = mn ∧ fld 42 5 w = v0 ∧ fld 0 42 w = 0 ∧ fld 47 5 w = 0 := by
  simp only [word, packFields, Nat.reducePow] at hw
  simp only [fld, Nat.reducePow]
  refine ⟨?_, ?_, ?_, ?_, ?_⟩
  all_goals omega

theorem layout46 {maj mn v0 v1 v2 v3 v4 v5 v6 w : Nat} (ma : maj < 128) (mi : mn < 32) (h0 : v0 < 64) (h1 : v1 < 64) (h2 : v2 < 64) (h3 : v3 < 8) (h4 : v4 < 2) (h5 : v5 < 16) (h6 : v6 < 2)
    (hw : word maj mn [(46, v0), (40, v1), (34, v2), (20, v3), (19, v4), (24, v5), (23, v6)] = w) :
    fld 57 7 w = maj ∧ fld 52 5 w = mn ∧ fld 46 6 w = v0 ∧ fld 40 6 w = v1 ∧ fld 34 6 w = v2 ∧ fld 20 3 w = v3 ∧ fld 19 1 w = v4 ∧ fld 24 4 w = v5 ∧ fld 23 1 w = v6 ∧ fld 0 19 w = 0 ∧ fld 28 6 w = 0 := by
  simp only [word, packFields, Nat.reducePow] at hw
  simp only [fld, Nat.reducePow]
  refine ⟨?_, ?_, ?_, ?_, ?_, ?_, ?_, ?_, ?_, ?_, ?_⟩
  all_goals omega

theorem layout47 {maj mn v0 v1 v2 v3 v4 v5 v6 v7 w : Nat} (ma : maj < 128) (mi : mn < 32) (h0 : v0 < 64) (h1 : v1 < 64) (h2 : v2 < 64) (h3 : v3 < 64) (h4 : v4 < 8) (h5 : v5 < 2) (h6 : v6 < 16) (h7 : v7 < 2)
    (hw : word maj mn [(46, v0), (40, v1), (34, v2), (28, v3), (20, v4), (19, v5), (24, v6), (23, v7)] = w) :
    fld 57 7 w = maj ∧ fld 52 5 w = mn ∧ fld 46 6 w = v0 ∧ fld 40 6 w = v1 ∧ fld 34 6 w = v2 ∧ fld 28 6 w = v3 ∧ fld 20 3 w = v4 ∧ fld 19 1 w = v5 ∧ fld 24 4 w = v6 ∧ fld 23 1 w = v7 ∧ fld 0 19 w = 0 := by
  simp only [word, packFields, Nat.reducePow] at hw
  simp only [fld, Nat.reducePow]
  refine ⟨?_, ?_, ?_, ?_, ?_, ?_, ?_, ?_, ?_, ?_, ?_⟩
  all_goals omega

theorem layout48 {maj mn v0 v1 v2 v3 v4 w : Nat} (ma : maj < 128) (mi : mn < 32) (h0 : v0 < 64) (h1 : v1 < 64) (h2 : v2 < 2) (h3 : v3 < 16) (h4 : v4 < 2)
    (hw : word maj mn [(46, v0), (40, v1), (19, v2), (24, v3), (23, v4)] = w) :
    fld 57 7 w = maj ∧ fld 52 5 w = mn ∧ fld 46 6 w = v0 ∧ fld 40 6 w = v1 ∧ fld 19 1 w = v2 ∧ fld 24 4 w = v3 ∧ fld 23 1 w = v4 ∧ fld 0 19 w = 0 ∧ fld 20 3 w = 0 ∧ fld 28 12 w = 0 := by
  simp only [word, packFields, Nat.reducePow] at hw
  simp only [fld, Nat.reducePow]
  refine ⟨?_, ?_, ?_, ?_, ?_, ?_, ?_, ?_, ?_, ?_⟩
  all_goals omega

theorem layout49 {maj mn v0 v1 v2 v3 v4 v5 v6 w : Nat} (ma : maj < 128) (mi : mn < 32) (h0 : v0 < 16) (h1 : v1 < 64) (h2 : v2 < 64) (h3 : v3 < 32) (h4 : v4 < 256) (h5 : v5 < 16) (h6 : v6 < 2)
    (hw : word maj mn [(46, v0), (40, v1), (34, v2), (14, v3), (6, v4), (24, v5), (23, v6)] = w) :
    fld 57 7 w = maj ∧ fld 52 5 w = mn ∧ fld 46 4 w = v0 ∧ fld 40 6 w = v1 ∧ fld 34 6 w = v2 ∧ fld 14 5 w = v3 ∧ fld 6 8 w = v4 ∧ fld 24 4 w = v5 ∧ fld 23 1 w = v6 ∧ fld 0 6 w = 0 ∧ fld 19 4 w = 0 ∧ fld 28 6 w = 0 ∧ fld 50 2 w = 0 := by
  simp only [word, packFields, Nat.reducePow] at hw
  simp only [fld, Nat.reducePow]
  refine ⟨?_, ?_, ?_, ?_, ?_, ?_, ?_, ?_, ?_, ?_, ?_, ?_, ?_⟩
  all_goals omega

theorem layout50 {maj mn v0 v1 v2 v3 v4 w : Nat} (ma : maj < 128) (mi : mn < 32) (h0 : v0 < 64) (h1 : v1 < 64) (h2 : v2 < 64) (h3 : v3 < 16) (h4 : v4 < 2)
    (hw : word maj mn [(46, v0), (40, v1), (34, v2), (24, v3), (23, v4)] = w) :
    fld 57 7 w = maj ∧ fld 52 5 w = mn ∧ fld 46 6 w = v0 ∧ fld 40 6 w = v1 ∧ fld 34 6 w = v2 ∧ fld 24 4 w = v3 ∧ fld 23 1 w = v4 ∧ fld 0 23 w = 0 ∧ fld 28 6 w = 0 := by
  simp only [word, packFields, Nat.reducePow] at hw
  simp only [fld, Nat.reducePow]
  refine ⟨?_, ?_, ?_, ?_, ?_, ?_, ?_, ?_, ?_⟩
  all_goals omega

theorem layout51 {maj mn v0 v1 v2 v3 v4 w : Nat} (ma : maj < 128) (mi : mn < 32) (h0 : v0 < 64) (h1 : v1 < 64) (h2 : v2 < 256) (h3 : v3 < 16) (h4 : v4 < 2)
    (hw : word maj mn [(46, v0), (40, v1), (6, v2), (24, v3), (23, v4)] = w) :
    fld 57 7 w = maj ∧ fld 52 5 w = mn ∧ fld 46 6 w = v0 ∧ fld 40 6 w = v1 ∧ fld 6 8 w = v2 ∧ fld 24 4 w = v3 ∧ fld 23 1 w = v4 ∧ fld 0 6 w = 0 ∧ fld 14 9 w = 0 ∧ fld 28 12 w = 0 := by
  simp only [word, packFields, Nat.reducePow] at hw
  simp only [fld, Nat.reducePow]
  refine ⟨?_, ?_, ?_, ?_, ?_, ?_, ?_, ?_, ?_, ?_⟩
  all_goals omega

theorem layout52 {maj mn v0 v1 v2 v3 v4 w : Nat} (ma : maj < 128) (mi : mn < 32) (h0 : v0 < 64) (h1 : v1 < 64) (h2 : v2 < 32) (h3 : v3 < 16) (h4 : v4 < 2)
    (hw : word maj mn [(46, v0), (40, v1), (34, v2), (24, v3), (23, v4)] = w) :
    fld 57 7 w = maj ∧ fld 52 5 w = mn ∧ fld 46 6 w = v0 ∧ fld 40 6 w = v1 ∧ fld 34 5 w = v2 ∧ fld 24 4 w = v3 ∧ fld 23 1 w = v4 ∧ fld 0 23 w = 0 ∧ fld 28 6 w = 0 ∧ fld 39 1 w = 0 := by
  simp only [word, packFields, Nat.reducePow] at hw
  simp only [fld, Nat.reducePow]
  refine ⟨?_, ?_, ?_, ?_, ?_, ?_, ?_, ?_, ?_, ?_⟩
  all_goals omega

theorem layout53 {maj mn v0 v1 v2 v3 v4 v5 w : Nat} (ma : maj < 128) (mi : mn < 32) (h0 : v0 < 64) (h1 : v1 < 64) (h2 : v2 < 64) (h3 : v3 < 32) (h4 : v4 < 16) (h5 : v5 < 2)
    (hw : word maj mn [(46, v0), (40, v1), (34, v2), (28, v3), (24, v4), (23, v5)] = w) :
    fld 57 7 w = maj ∧ fld 52 5 w = mn ∧ fld 46 6 w = v0 ∧ fld 40 6 w = v1 ∧ fld 34 6 w = v2 ∧ fld 28 5 w = v3 ∧ fld 24 4 w = v4 ∧ fld 23 1 w = v5 ∧ fld 0 23 w = 0 ∧ fld 33 1 w = 0 := by
  simp only [word, packFields, Nat.reducePow] at hw
  simp only [fld, Nat.reducePow]
  refine ⟨?_, ?_, ?_, ?_, ?_, ?_, ?_, ?_, ?_, ?_⟩
  all_goals omega

theorem layout54 {maj mn v0 v1 v2 v3 v4 v5 w : Nat} (ma : maj < 128) (mi : mn < 32) (h0 : v0 < 64) (h1 : v1 < 64) (h2 : v2 < 8) (h3 : v3 < 2) (h4 : v4 < 16) (h5 : v5 < 2)
    (hw : word maj mn [(46, v0), (40, v1), (20, v2), (19, v3), (24, v4), (23, v5)] = w) :
    fld 57 7 w = maj ∧ fld 52 5 w = mn ∧ fld 46 6 w = v0 ∧ fld 40 6 w = v1 ∧ fld 20 3 w = v2 ∧ fld 19 1 w = v3 ∧ fld 24 4 w = v4 ∧ fld 23 1 w = v5 ∧ fld 0 19 w = 0 ∧ fld 28 12 w = 0 := by
  simp only [word, packFields, Nat.reducePow] at hw
  simp only [fld, Nat.reducePow]
  refine ⟨?_, ?_, ?_, ?_, ?_, ?_, ?_, ?_, ?_, ?_⟩
  all_goals omega

theorem layout55 {maj mn v0 v1 v2 v3 v4 v5 w : Nat} (ma : maj < 128) (mi : mn < 32) (h0 : v0 < 64) (h1 : v1 < 64) (h2 : v2 < 64) (h3 : v3 < 256) (h4 : v4 < 16) (h5 : v5 < 2)
    (hw : word maj mn [(46, v0), (28, v1), (40, v2), (6, v3), (24, v4), (23, v5)] = w) :
    fld 57 7 w = maj ∧ fld 52 5 w = mn ∧ fld 46 6 w = v0 ∧ fld 28 6 w = v1 ∧ fld 40 6 w = v2 ∧ fld 6 8 w = v3 ∧ fld 24 4 w = v4 ∧ fld 23 1 w = v5 ∧ fld 0 6 w = 0 ∧ fld 14 9 w = 0 ∧ fld 34 6 w = 0 := by
  simp only [word, packFields, Nat.reducePow] at hw
  simp only [fld, Nat.reducePow]
  refine ⟨?_, ?_, ?_, ?_, ?_, ?_, ?_, ?_, ?_, ?_, ?_⟩
  all_goals omega

theorem layout56 {maj mn v0 v1 v2 v3 v4 v5 w : Nat} (ma : maj < 128) (mi : mn < 32) (h0 : v0 < 64) (h1 : v1 < 64) (h2 : v2 < 64) (h3 : v3 < 2) (h4 : v4 < 16) (h5 : v5 < 2)
    (hw : word maj mn [(46, v0), (40, v1), (34, v2), (6, v3), (24, v4), (23, v5)] = w) :
    fld 57 7 w = maj ∧ fld 52 5 w = mn ∧ fld 46 6 w = v0 ∧ fld 40 6 w = v1 ∧ fld 34 6 w = v2 ∧ fld 6 1 w = v3 ∧ fld 24 4 w = v4 ∧ fld 23 1 w = v5 ∧ fld 0 6 w = 0 ∧ fld 14 9 w = 0 ∧ fld 28 6 w = 0 ∧ fld 7 7 w = 0 := by
  simp only [word, packFields, Nat.reducePow] at hw
  simp only [fld, Nat.reducePow]
  refine ⟨?_, ?_, ?_, ?_, ?_, ?_, ?_, ?_, ?_, ?_, ?_, ?_⟩
  all_goals omega

theorem layout57 {maj mn v0 v1 v2 v3 v4 w : Nat} (ma : maj < 128) (mi : mn < 32) (h0 : v0 < 64) (h1 : v1 < 64) (h2 : v2 < 2) (h3 : v3 < 16) (h4 : v4 < 2)
    (hw : word maj mn [(46, v0), (40, v1), (6, v2), (24, v3), (23, v4)] = w) :
    fld 57 7 w = maj ∧ fld 52 5 w = mn ∧ fld 46 6 w = v0 ∧ fld 40 6 w = v1 ∧ fld 6 1 w = v2 ∧ fld 24 4 w = v3 ∧ fld 23 1 w = v4 ∧ fld 0 6 w = 0 ∧ fld 14 9 w = 0 ∧ fld 28 12 w = 0 ∧ fld 7 7 w = 0 := by
  simp only [word, packFields, Nat.reducePow] at hw
  simp only [fld, Nat.reducePow]
  refine ⟨?_, ?_, ?_, ?_, ?_, ?_, ?_, ?_, ?_, ?_, ?_⟩
  all_goals omega

theorem layout58 {maj mn v0 v1 v2 w : Nat} (ma : maj < 128) (mi : mn < 32) (h0 : v0 < 16) (h1 : v1 < 16) (h2 : v2 < 16)
    (hw : word maj mn [(46, v0), (40, v1), (34, v2)] = w) :
    fld 57 7 w = maj ∧ fld 52 5 w = mn ∧ fld 46 4 w = v0 ∧ fld 40 4 w = v1 ∧ fld 34 4 w = v2 ∧ fld 0 34 w = 0 ∧ fld 38 2 w = 0 ∧ fld 44 2 w = 0 ∧ fld 50 2 w = 0 := by
  simp only [word, packFields, Nat.reducePow] at hw
  simp only [fld, Nat.reducePow]
  refine ⟨?_, ?_, ?_, ?_, ?_, ?_, ?_, ?_, ?_⟩
  all_goals omega

theorem layout59 {maj mn v0 v1 w : Nat} (ma : maj < 128) (mi : mn < 32) (h0 : v0 < 16) (h1 : v1 < 16)
    (hw : word maj mn [(46, v0), (40, v1)] = w) :
    fld 57 7 w = maj ∧ fld 52 5 w = mn ∧ fld 46 4 w = v0 ∧ fld 40 4 w = v1 ∧ fld 0 40 w = 0 ∧ fld 44 2 w = 0 ∧ fld 50 2 w = 0 := by
  simp only [word, packFields, Nat.reducePow] at hw
  simp only [fld, Nat.reducePow]
  refine ⟨?_, ?_, ?_, ?_, ?_, ?_, ?_⟩
  all_goals omega

theorem layout60 {maj mn v0 v1 w : Nat} (ma : maj < 128) (mi : mn < 32) (h0 : v0 < 32) (h1 : v1 < 16)
    (hw : word maj mn [(46, v0), (40, v1)] = w) :
    fld 57 7 w = maj ∧ fld 52 5 w = mn ∧ fld 46 5 w = v0 ∧ fld 40 4 w = v1 ∧ fld 0 40 w = 0 ∧ fld 44 2 w = 0 ∧ fld 51 1 w = 0 := by
  simp only [word, packFields, Nat.reducePow] at hw
  simp only [fld, Nat.reducePow]
  refine ⟨?_, ?_, ?_, ?_, ?_, ?_, ?_⟩
  all_goals omega

theorem layout61 {maj mn v0 v1 v2 v3 v4 v5 v6 w : Nat} (ma : maj < 128) (mi : mn < 32) (h0 : v0 < 16) (h1 : v1 < 32) (h2 : v2 < 16) (h3 : v3 < 32) (h4 : v4 < 4) (h5 : v5 < 8) (h6 : v6 < 16777216)
    (hw : word maj mn [(24, v0), (47, v1), (43, v2), (33, v3), (38, v4), (40, v5), (0, v6)] = w) :
    fld 57 7 w = maj ∧ fld 52 5 w = mn ∧ fld 24 4 w = v0 ∧ fld 47 5 w = v1 ∧ fld 43 4 w = v2 ∧ fld 33 5 w = v3 ∧ fld 38 2 w = v4 ∧ fld 40 3 w = v5 ∧ fld 0 24 w = v6 ∧ fld 28 5 w = 0 := by
  simp only [word, packFields, Nat.reducePow] at hw
  simp only [fld, Nat.reducePow]
  refine ⟨?_, ?_, ?_, ?_, ?_, ?_, ?_, ?_, ?_, ?_⟩
  all_goals omega

theorem layout62 {maj mn v0 v1 v2 v3 v4 v5 v6 w : Nat} (ma : maj < 128) (mi : mn < 32) (h0 : v0 < 32) (h1 : v1 < 16) (h2 : v2 < 32) (h3 : v3 < 32) (h4 : v4 < 4) (h5 : v5 < 8) (h6 : v6 < 16777216)
    (hw : word maj mn [(47, v0), (43, v1), (33, v2), (28, v3), (38, v4), (40, v5), (0, v6)] = w) :
    fld 57 7 w = maj ∧ fld 52 5 w = mn ∧ fld 47 5 w = v0 ∧ fld 43 4 w = v1 ∧ fld 33 5 w = v2 ∧ fld 28 5 w = v3 ∧ fld 38 2 w = v4 ∧ fld 40 3 w = v5 ∧ fld 0 24 w = v6 ∧ fld 24 4 w = 0 := by
  simp only [word, packFields, Nat.reducePow] at hw
  simp only [fld, Nat.reducePow]
  refine ⟨?_, ?_, ?_, ?_, ?_, ?_, ?_, ?_, ?_, ?_⟩
  all_goals omega

theorem layout63 {maj mn v0 v1 w : Nat} (ma : maj < 128) (mi : mn < 32) (h0 : v0 < 4) (h1 : v1 < 8)
    (hw : word maj mn [(38, v0), (40, v1)] = w) :
    fld 57 7 w = maj ∧ fld 52 5 w = mn ∧ fld 38 2 w = v0 ∧ fld 40 3 w = v1 ∧ fld 0 38 w = 0 ∧ fld 43 9 w = 0 := by
  simp only [word, packFields, Nat.reducePow] at hw
  simp only [fld, Nat.reducePow]
  refine ⟨?_, ?_, ?_, ?_, ?_, ?_⟩
  all_goals omega

theorem layout64 {maj mn v0 v1 w : Nat} (ma : maj < 128) (mi : mn < 32) (h0 : v0 < 16) (h1 : v1 < 512)
    (hw : word maj mn [(48, v0), (30, v1)] = w) :
    fld 57 7 w = maj ∧ fld 52 5 w = mn ∧ fld 48 4 w = v0 ∧ fld 30 9 w = v1 ∧ fld 0 30 w = 0 ∧ fld 39 9 w = 0 := by
  simp only [word, packFields, Nat.reducePow] at hw
  simp only [fld, Nat.reducePow]
  refine ⟨?_, ?_, ?_, ?_, ?_, ?_⟩
  all_goals omega

theorem layout65 {maj mn v0 v1 w : Nat} (ma : maj < 128) (mi : mn < 32) (h0 : v0 < 32) (h1 : v1 < 16)
    (hw : word maj mn [(25, v0), (48, v1)] = w) :
    fld 57 7 w = maj ∧ fld 52 5 w = mn ∧ fld 25 5 w = v0 ∧ fld 48 4 w = v1 ∧ fld 0 25 w = 0 ∧ fld 30 18 w = 0 := by
  simp only [word, packFields, Nat.reducePow] at hw
  simp only [fld, Nat.reducePow]
  refine ⟨?_, ?_, ?_, ?_, ?_, ?_⟩
  all_goals omega

theorem layout66 {maj mn v0 v1 v2 w : Nat} (ma : maj < 128) (mi : mn < 32) (h0 : v0 < 64) (h1 : v1 < 8) (h2 : v2 < 16)
    (hw : word maj mn [(42, v0), (39, v1), (48, v2)] = w) :
    fld 57 7 w = maj ∧ fld 52 5 w = mn ∧ fld 42 6 w = v0 ∧ fld 39 3 w = v1 ∧ fld 48 4 w = v2 ∧ fld 0 39 w = 0 := by
  simp only [word, packFields, Nat.reducePow] at hw
  simp only [fld, Nat.reducePow]
  refine ⟨?_, ?_, ?_, ?_, ?_, ?_⟩
  all_goals omega

theorem layout67 {maj mn v0 v1 v2 v3 w : Nat} (ma : maj < 128) (mi : mn < 32) (h0 : v0 < 32) (h1 : v1 < 4096) (h2 : v2 < 4) (h3 : v3 < 8)
    (hw : word maj mn [(47, v0), (13, v1), (25, v2), (27, v3)] = w) :
    fld 57 7 w = maj ∧ fld 52 5 w = mn ∧ fld 47 5 w = v0 ∧ fld 13 12 w = v1 ∧ fld 25 2 w = v2 ∧ fld 27 3 w = v3 ∧ fld 0 13 w = 0 ∧ fld 30 17 w = 0 := by
  simp only [word, packFields, Nat.reducePow] at hw
  simp only [fld, Nat.reducePow]
  refine ⟨?_, ?_, ?_, ?_, ?_, ?_, ?_, ?_⟩
  all_goals omega

theorem layout68 {maj mn v0 v1 w : Nat} (ma : maj < 128) (mi : mn < 32) (h0 : v0 < 32) (h1 : v1 < 32)
    (hw : word maj mn [(47, v0), (30, v1)] = w) :
    fld 57 7 w = maj ∧ fld 52 5 w = mn ∧ fld 47 5 w = v0 ∧ fld 30 5 w = v1 ∧ fld 0 30 w = 0 ∧ fld 35 12 w = 0 := by
  simp only [word, packFields, Nat.reducePow] at hw
  simp only [fld, Nat.reducePow]
  refine ⟨?_, ?_, ?_, ?_, ?_, ?_⟩
  all_goals omega

theorem layout69 {maj mn v0 v1 v2 v3 w : Nat} (ma : maj < 128) (mi : mn < 32) (h0 : v0 < 32) (h1 : v1 < 32) (h2 : v2 < 4) (h3 : v3 < 8)
    (hw : word maj mn [(47, v0), (30, v1), (25, v2), (27, v3)] = w) :
    fld 57 7 w = maj ∧ fld 52 5 w = mn ∧ fld 47 5 w = v0 ∧ fld 30 5 w = v1 ∧ fld 25 2 w = v2 ∧ fld 27 3 w = v3 ∧ fld 0 25 w = 0 ∧ fld 35 12 w = 0 := by
  simp only [word, packFields, Nat.reducePow] at hw
  simp only [fld, Nat.reducePow]
  refine ⟨?_, ?_, ?_, ?_, ?_, ?_, ?_, ?_⟩
  all_goals omega

theorem layout70 {maj mn v0 v1 v2 w : Nat} (ma : maj < 128) (mi : mn < 32) (h0 : v0 < 32) (h1 : v1 < 16) (h2 : v2 < 32)
    (hw : word maj mn [(47, v0), (43, v1), (30, v2)] = w) :
    fld 57 7 w = maj ∧ fld 52 5 w = mn ∧ fld 47 5 w = v0 ∧ fld 43 4 w = v1 ∧ fld 30 5 w = v2 ∧ fld 0 30 w = 0 ∧ fld 35 8 w = 0 := by
  simp only [word, packFields, Nat.reducePow] at hw
  simp only [fld, Nat.reducePow]
  refine ⟨?_, ?_, ?_, ?_, ?_, ?_, ?_⟩
  all_goals omega

theorem layout71 {maj mn v0 v1 w : Nat} (ma : maj < 128) (mi : mn < 32) (h0 : v0 < 32) (h1 : v1 < 16)
    (hw : word maj mn [(47, v0), (43, v1)] = w) :
    fld 57 7 w = maj ∧ fld 52 5 w = mn ∧ fld 47 5 w = v0 ∧ fld 43 4 w = v1 ∧ fld 0 43 w = 0 := by
  simp only [word, packFields, Nat.reducePow] at hw
  simp only [fld, Nat.reducePow]
  refine ⟨?_, ?_, ?_, ?_, ?_⟩
  all_goals omega

theorem layout72 {maj mn v0 v1 v2 v3 v4 v5 w : Nat} (ma : maj < 128) (mi : mn < 32) (h0 : v0 < 32) (h1 : v1 < 16) (h2 : v2 < 16) (h3 : v3 < 32) (h4 : v4 < 4) (h5 : v5 < 8)
    (hw : word maj mn [(47, v0), (43, v1), (35, v2), (30, v3), (25, v4), (27, v5)] = w) :
    fld 57 7 w = maj ∧ fld 52 5 w = mn ∧ fld 47 5 w = v0 ∧ fld 43 4 w = v1 ∧ fld 35 4 w = v2 ∧ fld 30 5 w = v3 ∧ fld 25 2 w = v4 ∧ fld 27 3 w = v5 ∧ fld 0 25 w = 0 ∧ fld 39 4 w = 0 := by
  simp only [word, packFields, Nat.reducePow] at hw
  simp only [fld, Nat.reducePow]
  refine ⟨?_, ?_, ?_, ?_, ?_, ?_, ?_, ?_, ?_, ?_⟩
  all_goals omega

end Sys2Proof.Laws

namespace Sys2Proof.Laws.RoundTrip

/-- The word of an instruction decodes to it: a tile-instruction word, or a relay-core word (R28 to R46, R293). -/
def Statement (i : Instr) : Prop :=
  i.wellFormed = true → (∀ w, encodeTile i = some w → decodeTile w = .ok i) ∧ (∀ w, encodeRelay i = some w → decodeRelay w = .ok i)

/-- An instruction with no word. -/
theorem wordless (i : Instr) (ht : encodeTile i = none) (hr : encodeRelay i = none) : Statement i := by
  intro _
  exact ⟨fun w h => absurd (ht.symm.trans h) (by simp), fun w h => absurd (hr.symm.trans h) (by simp)⟩

/-- An instruction with a tile-instruction word only. -/
theorem tile (i : Instr) (hr : encodeRelay i = none) (h : i.wellFormed = true → ∀ w, encodeTile i = some w → decodeTile w = .ok i) :
    Statement i := fun hi => ⟨h hi, fun w hw => absurd (hr.symm.trans hw) (by simp)⟩

theorem swr_register (x0 : SReg) (x1 : BitVec 12) (h : (Instr.swr x0 x1).wellFormed = true) :
    x1.toNat ≠ 0x102 ∧ x1.toNat ≠ 0x103 := by
  replace h : (true && swrReg x1) = true := h
  rw [Bool.true_and] at h
  constructor <;> intro e
  · have : x1 = 0x102 := BitVec.eq_of_toNat_eq e
    subst this; exact absurd h (by decide)
  · have : x1 = 0x103 := BitVec.eq_of_toNat_eq e
    subst this; exact absurd h (by decide)

theorem cIf x0 x1 x2 x3 : Statement (.cIf x0 x1 x2 x3) := by
  refine tile _ rfl fun hwf w hw => ?_
  obtain ⟨m1, m2, f39, f47, f42, f0, z0⟩ := layout0 (by decide) (by decide) (Cc.code_lt x0) x1.isLt x2.isLt x3.isLt (Option.some.inj hw)
  rw [decodeTile, m1, m2]
  change finish (fld 32 7 w) false ((Cc.ofCode (fld 39 3 w)).bind fun x0 => some (.cIf x0 (fin 32 47 w) (fin 32 42 w) (bv 32 0 w))) = _
  simp only [z0, f39, Cc.ofCode_code, fin_eq (x := x1) f47, fin_eq (x := x2) f42, bv_eq (x := x3) f0, Option.bind_some]
  exact finish_ok _ hwf

theorem cElse x0 : Statement (.cElse x0) := by
  refine tile _ rfl fun hwf w hw => ?_
  obtain ⟨m1, m2, f0, z0⟩ := layout1 (by decide) (by decide) x0.isLt (Option.some.inj hw)
  rw [decodeTile, m1, m2]
  change finish (fld 32 20 w) false (some (.cElse (bv 32 0 w))) = _
  simp only [z0, bv_eq (x := x0) f0]
  exact finish_ok _ hwf

theorem endif : Statement (.endif) := by
  refine tile _ rfl fun hwf w hw => ?_
  obtain ⟨m1, m2, z0⟩ := layout2 (by decide) (by decide)  (Option.some.inj hw)
  rw [decodeTile, m1, m2]
  change finish (fld 0 52 w) false (some .endif) = _
  simp only [z0]
  exact finish_ok _ hwf

theorem loop x0 : Statement (.loop x0) := by
  refine tile _ rfl fun hwf w hw => ?_
  obtain ⟨m1, m2, f0, z0⟩ := layout1 (by decide) (by decide) x0.isLt (Option.some.inj hw)
  rw [decodeTile, m1, m2]
  change finish (fld 32 20 w) false (some (.loop (bv 32 0 w))) = _
  simp only [z0, bv_eq (x := x0) f0]
  exact finish_ok _ hwf

theorem loopc x0 x1 : Statement (.loopc x0 x1) := by
  refine tile _ rfl fun hwf w hw => ?_
  obtain ⟨m1, m2, f47, f0, z0⟩ := layout3 (by decide) (by decide) x0.isLt x1.isLt (Option.some.inj hw)
  rw [decodeTile, m1, m2]
  change finish (fld 32 15 w) false (some (.loopc (fin 32 47 w) (bv 32 0 w))) = _
  simp only [z0, fin_eq (x := x0) f47, bv_eq (x := x1) f0]
  exact finish_ok _ hwf

theorem endl x0 x1 : Statement (.endl x0 x1) := by
  refine tile _ rfl fun hwf w hw => ?_
  obtain ⟨m1, m2, f47, f0, z0⟩ := layout3 (by decide) (by decide) x0.isLt x1.isLt (Option.some.inj hw)
  rw [decodeTile, m1, m2]
  change finish (fld 32 15 w) false (some (.endl (fin 32 47 w) (bv 32 0 w))) = _
  simp only [z0, fin_eq (x := x0) f47, bv_eq (x := x1) f0]
  exact finish_ok _ hwf

theorem brk x0 x1 x2 x3 : Statement (.brk x0 x1 x2 x3) := by
  refine tile _ rfl fun hwf w hw => ?_
  obtain ⟨m1, m2, f39, f47, f42, f0, z0⟩ := layout0 (by decide) (by decide) (Cc.code_lt x0) x1.isLt x2.isLt x3.isLt (Option.some.inj hw)
  rw [decodeTile, m1, m2]
  change finish (fld 32 7 w) false ((Cc.ofCode (fld 39 3 w)).bind fun x0 => some (.brk x0 (fin 32 47 w) (fin 32 42 w) (bv 32 0 w))) = _
  simp only [z0, f39, Cc.ofCode_code, fin_eq (x := x1) f47, fin_eq (x := x2) f42, bv_eq (x := x3) f0, Option.bind_some]
  exact finish_ok _ hwf

theorem cont x0 x1 x2 x3 : Statement (.cont x0 x1 x2 x3) := by
  refine tile _ rfl fun hwf w hw => ?_
  obtain ⟨m1, m2, f39, f47, f42, f0, z0⟩ := layout0 (by decide) (by decide) (Cc.code_lt x0) x1.isLt x2.isLt x3.isLt (Option.some.inj hw)
  rw [decodeTile, m1, m2]
  change finish (fld 32 7 w) false ((Cc.ofCode (fld 39 3 w)).bind fun x0 => some (.cont x0 (fin 32 47 w) (fin 32 42 w) (bv 32 0 w))) = _
  simp only [z0, f39, Cc.ofCode_code, fin_eq (x := x1) f47, fin_eq (x := x2) f42, bv_eq (x := x3) f0, Option.bind_some]
  exact finish_ok _ hwf

theorem call x0 : Statement (.call x0) := by
  refine tile _ rfl fun hwf w hw => ?_
  obtain ⟨m1, m2, f0, z0⟩ := layout1 (by decide) (by decide) x0.isLt (Option.some.inj hw)
  rw [decodeTile, m1, m2]
  change finish (fld 32 20 w) false (some (.call (bv 32 0 w))) = _
  simp only [z0, bv_eq (x := x0) f0]
  exact finish_ok _ hwf

theorem calli x0 x1 : Statement (.calli x0 x1) := by
  refine tile _ rfl fun hwf w hw => ?_
  obtain ⟨m1, m2, f47, f0, z0⟩ := layout3 (by decide) (by decide) x0.isLt x1.isLt (Option.some.inj hw)
  rw [decodeTile, m1, m2]
  change finish (fld 32 15 w) false (some (.calli (fin 32 47 w) (bv 32 0 w))) = _
  simp only [z0, fin_eq (x := x0) f47, bv_eq (x := x1) f0]
  exact finish_ok _ hwf

theorem ret : Statement (.ret) := by
  refine tile _ rfl fun hwf w hw => ?_
  obtain ⟨m1, m2, z0⟩ := layout2 (by decide) (by decide)  (Option.some.inj hw)
  rw [decodeTile, m1, m2]
  change finish (fld 0 52 w) false (some .ret) = _
  simp only [z0]
  exact finish_ok _ hwf

theorem exit : Statement (.exit) := by
  refine tile _ rfl fun hwf w hw => ?_
  obtain ⟨m1, m2, z0⟩ := layout2 (by decide) (by decide)  (Option.some.inj hw)
  rw [decodeTile, m1, m2]
  change finish (fld 0 52 w) false (some .exit) = _
  simp only [z0]
  exact finish_ok _ hwf

theorem trap x0 : Statement (.trap x0) := by
  refine tile _ rfl fun hwf w hw => ?_
  obtain ⟨m1, m2, f0, z0⟩ := layout4 (by decide) (by decide) x0.isLt (Option.some.inj hw)
  rw [decodeTile, m1, m2]
  change finish (fld 16 36 w) false (some (.trap (bv 16 0 w))) = _
  simp only [z0, bv_eq (x := x0) f0]
  exact finish_ok _ hwf

theorem nop : Statement (.nop) := by
  refine tile _ rfl fun hwf w hw => ?_
  obtain ⟨m1, m2, z0⟩ := layout2 (by decide) (by decide)  (Option.some.inj hw)
  rw [decodeTile, m1, m2]
  change finish (fld 0 52 w) false (some .nop) = _
  simp only [z0]
  exact finish_ok _ hwf

theorem yield : Statement (.yield) := by
  refine tile _ rfl fun hwf w hw => ?_
  obtain ⟨m1, m2, z0⟩ := layout2 (by decide) (by decide)  (Option.some.inj hw)
  rw [decodeTile, m1, m2]
  change finish (fld 0 52 w) false (some .yield) = _
  simp only [z0]
  exact finish_ok _ hwf

theorem srd x0 x1 : Statement (.srd x0 x1) := by
  refine tile _ rfl fun hwf w hw => ?_
  obtain ⟨m1, m2, f47, f0, z0⟩ := layout5 (by decide) (by decide) x0.isLt x1.isLt (Option.some.inj hw)
  rw [decodeTile, m1, m2]
  change finish (fld 12 35 w) false (some (.srd (fin 32 47 w) (bv 12 0 w))) = _
  simp only [z0, fin_eq (x := x0) f47, bv_eq (x := x1) f0]
  exact finish_ok _ hwf

theorem swr x0 x1 : Statement (.swr x0 x1) := by
  refine tile _ rfl fun hwf w hw => ?_
  replace hw : word 0x01 4 [(42, x0.val), (0, x1.toNat)] = w := Option.some.inj hw
  simp only [word, packFields, Nat.reducePow, Nat.reduceMul] at hw
  have b0 := x0.isLt
  have b1 := x1.isLt
  have m1 : fld 57 7 w = 1 := by simp only [fld, Nat.reducePow]; omega
  have m2 : fld 52 5 w = 4 := by simp only [fld, Nat.reducePow]; omega
  have r0 : fld 12 30 w = 0 := by simp only [fld, Nat.reducePow]; omega
  have r1 : fld 47 5 w = 0 := by simp only [fld, Nat.reducePow]; omega
  have e0 : fin 32 42 w = x0 := fin_eq (by simp only [Nat.reducePow]; omega)
  have e1 : bv 12 0 w = x1 := bv_eq (by simp only [Nat.reducePow]; omega)
  have e2 : fld 0 12 w = x1.toNat := by simp only [fld, Nat.reducePow]; omega
  have k := swr_register x0 x1 hwf
  rw [decodeTile, m1, m2]
  change finish (fld 12 30 w + fld 47 5 w) false (some (if fld 0 12 w = 0x102 then .hinv (fin 32 42 w)
    else if fld 0 12 w = 0x103 then .xroot (fin 32 42 w) else .swr (fin 32 42 w) (bv 12 0 w))) = _
  rw [r0, r1, e0, e1, e2, if_neg k.1, if_neg k.2]
  exact finish_ok _ hwf

theorem hinv x0 : Statement (.hinv x0) := by
  refine tile _ rfl fun hwf w hw => ?_
  replace hw : word 0x01 4 [(42, x0.val), (0, 0x102)] = w := Option.some.inj hw
  simp only [word, packFields, Nat.reducePow, Nat.reduceMul] at hw
  have b0 := x0.isLt
  have m1 : fld 57 7 w = 1 := by simp only [fld, Nat.reducePow]; omega
  have m2 : fld 52 5 w = 4 := by simp only [fld, Nat.reducePow]; omega
  have r0 : fld 12 30 w = 0 := by simp only [fld, Nat.reducePow]; omega
  have r1 : fld 47 5 w = 0 := by simp only [fld, Nat.reducePow]; omega
  have e0 : fin 32 42 w = x0 := fin_eq (by simp only [Nat.reducePow]; omega)
  have e2 : fld 0 12 w = 0x102 := by simp only [fld, Nat.reducePow]; omega
  rw [decodeTile, m1, m2]
  change finish (fld 12 30 w + fld 47 5 w) false (some (if fld 0 12 w = 0x102 then .hinv (fin 32 42 w)
    else if fld 0 12 w = 0x103 then .xroot (fin 32 42 w) else .swr (fin 32 42 w) (bv 12 0 w))) = _
  rw [r0, r1, e0, e2]
  exact finish_ok _ hwf

theorem xroot x0 : Statement (.xroot x0) := by
  refine tile _ rfl fun hwf w hw => ?_
  replace hw : word 0x01 4 [(42, x0.val), (0, 0x103)] = w := Option.some.inj hw
  simp only [word, packFields, Nat.reducePow, Nat.reduceMul] at hw
  have b0 := x0.isLt
  have m1 : fld 57 7 w = 1 := by simp only [fld, Nat.reducePow]; omega
  have m2 : fld 52 5 w = 4 := by simp only [fld, Nat.reducePow]; omega
  have r0 : fld 12 30 w = 0 := by simp only [fld, Nat.reducePow]; omega
  have r1 : fld 47 5 w = 0 := by simp only [fld, Nat.reducePow]; omega
  have e0 : fin 32 42 w = x0 := fin_eq (by simp only [Nat.reducePow]; omega)
  have e2 : fld 0 12 w = 0x103 := by simp only [fld, Nat.reducePow]; omega
  rw [decodeTile, m1, m2]
  change finish (fld 12 30 w + fld 47 5 w) false (some (if fld 0 12 w = 0x102 then .hinv (fin 32 42 w)
    else if fld 0 12 w = 0x103 then .xroot (fin 32 42 w) else .swr (fin 32 42 w) (bv 12 0 w))) = _
  rw [r0, r1, e0, e2]
  exact finish_ok _ hwf

theorem capq x0 x1 x2 x3 : Statement (.capq x0 x1 x2 x3) := by
  refine tile _ rfl fun hwf w hw => ?_
  obtain ⟨m1, m2, f47, f32, f42, f0, z0⟩ := layout6 (by decide) (by decide) x0.isLt x1.isLt x2.isLt x3.isLt (Option.some.inj hw)
  rw [decodeTile, m1, m2]
  change finish (fld 37 5 w) false (some (.capq (fin 32 47 w) (fin 32 32 w) (fin 32 42 w) (bv 32 0 w))) = _
  simp only [z0, fin_eq (x := x0) f47, fin_eq (x := x1) f32, fin_eq (x := x2) f42, bv_eq (x := x3) f0]
  exact finish_ok _ hwf

theorem lwid x0 : Statement (.lwid x0) := by
  refine tile _ rfl fun hwf w hw => ?_
  obtain ⟨m1, m2, f47, z0⟩ := layout7 (by decide) (by decide) x0.isLt (Option.some.inj hw)
  rw [decodeTile, m1, m2]
  change finish (fld 0 47 w) false (some (.lwid (fin 32 47 w))) = _
  simp only [z0, fin_eq (x := x0) f47]
  exact finish_ok _ hwf

theorem publish x0 x1 : Statement (.publish x0 x1) := by
  refine tile _ rfl fun hwf w hw => ?_
  obtain ⟨m1, m2, f47, f42, z0, z1⟩ := layout8 (by decide) (by decide) x0.isLt x1.isLt (Option.some.inj hw)
  rw [decodeTile, m1, m2]
  change finish (fld 0 42 w + fld 46 1 w) false (some (.publish (fin 32 47 w) (fin 16 42 w))) = _
  simp only [z0, z1, fin_eq (x := x0) f47, fin_eq (x := x1) f42, Nat.add_zero]
  exact finish_ok _ hwf

theorem valid x0 : Statement (.valid x0) := by
  refine tile _ rfl fun hwf w hw => ?_
  cases x0 with
  | none =>
    replace hw : word 0x01 8 [] = w := Option.some.inj hw
    subst hw; rfl
  | full =>
    replace hw : word 0x01 8 [(16, 2)] = w := Option.some.inj hw
    subst hw; rfl
  | partImm f =>
    replace hw : word 0x01 8 [(16, 1), (0, f.toNat)] = w := Option.some.inj hw
    simp only [word, packFields, Nat.reducePow, Nat.reduceMul] at hw
    have b0 := f.isLt
    have m1 : fld 57 7 w = 1 := by simp only [fld, Nat.reducePow]; omega
    have m2 : fld 52 5 w = 8 := by simp only [fld, Nat.reducePow]; omega
    have r0 : fld 47 5 w = 0 := by simp only [fld, Nat.reducePow]; omega
    have r1 : fld 32 10 w = 0 := by simp only [fld, Nat.reducePow]; omega
    have r2 : fld 19 13 w = 0 := by simp only [fld, Nat.reducePow]; omega
    have r3 : fld 42 5 w = 0 := by simp only [fld, Nat.reducePow]; omega
    have k : fld 16 2 w = 1 := by simp only [fld, Nat.reducePow]; omega
    have s0 : bit 18 w = false := bit_eq (x := false) (by simp only [Nat.reducePow, Bool.toNat_false]; omega)
    have e0 : bv 16 0 w = f := bv_eq (by simp only [Nat.reducePow]; omega)
    rw [decodeTile, m1, m2]
    change decValid w = _
    simp only [decValid, k, s0, r0, r1, r2, r3, e0, Nat.add_zero, Bool.false_eq_true, if_false]
    exact finish_ok _ hwf
  | partReg a =>
    replace hw : word 0x01 8 [(42, a.val), (18, 1), (16, 1)] = w := Option.some.inj hw
    simp only [word, packFields, Nat.reducePow, Nat.reduceMul] at hw
    have b0 := a.isLt
    have m1 : fld 57 7 w = 1 := by simp only [fld, Nat.reducePow]; omega
    have m2 : fld 52 5 w = 8 := by simp only [fld, Nat.reducePow]; omega
    have r0 : fld 47 5 w = 0 := by simp only [fld, Nat.reducePow]; omega
    have r1 : fld 32 10 w = 0 := by simp only [fld, Nat.reducePow]; omega
    have r2 : fld 19 13 w = 0 := by simp only [fld, Nat.reducePow]; omega
    have r3 : fld 0 16 w = 0 := by simp only [fld, Nat.reducePow]; omega
    have k : fld 16 2 w = 1 := by simp only [fld, Nat.reducePow]; omega
    have s0 : bit 18 w = true := bit_eq (x := true) (by simp only [Nat.reducePow, Bool.toNat_true]; omega)
    have e0 : fin 32 42 w = a := fin_eq (by simp only [Nat.reducePow]; omega)
    rw [decodeTile, m1, m2]
    change decValid w = _
    simp only [decValid, k, s0, r0, r1, r2, r3, e0, Nat.add_zero, if_true]
    exact finish_ok _ hwf

theorem wrapend : Statement (.wrapend) := by
  refine tile _ rfl fun hwf w hw => ?_
  obtain ⟨m1, m2, z0⟩ := layout2 (by decide) (by decide)  (Option.some.inj hw)
  rw [decodeTile, m1, m2]
  change finish (fld 0 52 w) false (some .wrapend) = _
  simp only [z0]
  exact finish_ok _ hwf

theorem eret : Statement (.eret) := by
  refine tile _ rfl fun hwf w hw => ?_
  obtain ⟨m1, m2, z0⟩ := layout2 (by decide) (by decide)  (Option.some.inj hw)
  rw [decodeTile, m1, m2]
  change finish (fld 0 52 w) false (some .eret) = _
  simp only [z0]
  exact finish_ok _ hwf

theorem savectx : Statement (.savectx) := by
  refine tile _ rfl fun hwf w hw => ?_
  obtain ⟨m1, m2, z0⟩ := layout2 (by decide) (by decide)  (Option.some.inj hw)
  rw [decodeTile, m1, m2]
  change finish (fld 0 52 w) false (some .savectx) = _
  simp only [z0]
  exact finish_ok _ hwf

theorem loadctx : Statement (.loadctx) := by
  refine tile _ rfl fun hwf w hw => ?_
  obtain ⟨m1, m2, z0⟩ := layout2 (by decide) (by decide)  (Option.some.inj hw)
  rw [decodeTile, m1, m2]
  change finish (fld 0 52 w) false (some .loadctx) = _
  simp only [z0]
  exact finish_ok _ hwf

theorem add x0 x1 x2 : Statement (.add x0 x1 x2) := by
  refine tile _ rfl fun hwf w hw => ?_
  obtain ⟨m1, m2, f47, f42, f37, z0⟩ := layout9 (by decide) (by decide) x0.isLt x1.isLt x2.isLt (Option.some.inj hw)
  rw [decodeTile, m1, m2]
  change finish (fld 0 37 w) false (some (.add (fin 32 47 w) (fin 32 42 w) (fin 32 37 w))) = _
  simp only [z0, fin_eq (x := x0) f47, fin_eq (x := x1) f42, fin_eq (x := x2) f37]
  exact finish_ok _ hwf

theorem sub x0 x1 x2 : Statement (.sub x0 x1 x2) := by
  refine tile _ rfl fun hwf w hw => ?_
  obtain ⟨m1, m2, f47, f42, f37, z0⟩ := layout9 (by decide) (by decide) x0.isLt x1.isLt x2.isLt (Option.some.inj hw)
  rw [decodeTile, m1, m2]
  change finish (fld 0 37 w) false (some (.sub (fin 32 47 w) (fin 32 42 w) (fin 32 37 w))) = _
  simp only [z0, fin_eq (x := x0) f47, fin_eq (x := x1) f42, fin_eq (x := x2) f37]
  exact finish_ok _ hwf

theorem mul x0 x1 x2 : Statement (.mul x0 x1 x2) := by
  refine tile _ rfl fun hwf w hw => ?_
  obtain ⟨m1, m2, f47, f42, f37, z0⟩ := layout9 (by decide) (by decide) x0.isLt x1.isLt x2.isLt (Option.some.inj hw)
  rw [decodeTile, m1, m2]
  change finish (fld 0 37 w) false (some (.mul (fin 32 47 w) (fin 32 42 w) (fin 32 37 w))) = _
  simp only [z0, fin_eq (x := x0) f47, fin_eq (x := x1) f42, fin_eq (x := x2) f37]
  exact finish_ok _ hwf

theorem mulh x0 x1 x2 : Statement (.mulh x0 x1 x2) := by
  refine tile _ rfl fun hwf w hw => ?_
  obtain ⟨m1, m2, f47, f42, f37, z0⟩ := layout9 (by decide) (by decide) x0.isLt x1.isLt x2.isLt (Option.some.inj hw)
  rw [decodeTile, m1, m2]
  change finish (fld 0 37 w) false (some (.mulh (fin 32 47 w) (fin 32 42 w) (fin 32 37 w))) = _
  simp only [z0, fin_eq (x := x0) f47, fin_eq (x := x1) f42, fin_eq (x := x2) f37]
  exact finish_ok _ hwf

theorem mulhu x0 x1 x2 : Statement (.mulhu x0 x1 x2) := by
  refine tile _ rfl fun hwf w hw => ?_
  obtain ⟨m1, m2, f47, f42, f37, z0⟩ := layout9 (by decide) (by decide) x0.isLt x1.isLt x2.isLt (Option.some.inj hw)
  rw [decodeTile, m1, m2]
  change finish (fld 0 37 w) false (some (.mulhu (fin 32 47 w) (fin 32 42 w) (fin 32 37 w))) = _
  simp only [z0, fin_eq (x := x0) f47, fin_eq (x := x1) f42, fin_eq (x := x2) f37]
  exact finish_ok _ hwf

theorem div x0 x1 x2 : Statement (.div x0 x1 x2) := by
  refine tile _ rfl fun hwf w hw => ?_
  obtain ⟨m1, m2, f47, f42, f37, z0⟩ := layout9 (by decide) (by decide) x0.isLt x1.isLt x2.isLt (Option.some.inj hw)
  rw [decodeTile, m1, m2]
  change finish (fld 0 37 w) false (some (.div (fin 32 47 w) (fin 32 42 w) (fin 32 37 w))) = _
  simp only [z0, fin_eq (x := x0) f47, fin_eq (x := x1) f42, fin_eq (x := x2) f37]
  exact finish_ok _ hwf

theorem divu x0 x1 x2 : Statement (.divu x0 x1 x2) := by
  refine tile _ rfl fun hwf w hw => ?_
  obtain ⟨m1, m2, f47, f42, f37, z0⟩ := layout9 (by decide) (by decide) x0.isLt x1.isLt x2.isLt (Option.some.inj hw)
  rw [decodeTile, m1, m2]
  change finish (fld 0 37 w) false (some (.divu (fin 32 47 w) (fin 32 42 w) (fin 32 37 w))) = _
  simp only [z0, fin_eq (x := x0) f47, fin_eq (x := x1) f42, fin_eq (x := x2) f37]
  exact finish_ok _ hwf

theorem rem x0 x1 x2 : Statement (.rem x0 x1 x2) := by
  refine tile _ rfl fun hwf w hw => ?_
  obtain ⟨m1, m2, f47, f42, f37, z0⟩ := layout9 (by decide) (by decide) x0.isLt x1.isLt x2.isLt (Option.some.inj hw)
  rw [decodeTile, m1, m2]
  change finish (fld 0 37 w) false (some (.rem (fin 32 47 w) (fin 32 42 w) (fin 32 37 w))) = _
  simp only [z0, fin_eq (x := x0) f47, fin_eq (x := x1) f42, fin_eq (x := x2) f37]
  exact finish_ok _ hwf

theorem remu x0 x1 x2 : Statement (.remu x0 x1 x2) := by
  refine tile _ rfl fun hwf w hw => ?_
  obtain ⟨m1, m2, f47, f42, f37, z0⟩ := layout9 (by decide) (by decide) x0.isLt x1.isLt x2.isLt (Option.some.inj hw)
  rw [decodeTile, m1, m2]
  change finish (fld 0 37 w) false (some (.remu (fin 32 47 w) (fin 32 42 w) (fin 32 37 w))) = _
  simp only [z0, fin_eq (x := x0) f47, fin_eq (x := x1) f42, fin_eq (x := x2) f37]
  exact finish_ok _ hwf

theorem and x0 x1 x2 : Statement (.and x0 x1 x2) := by
  refine tile _ rfl fun hwf w hw => ?_
  obtain ⟨m1, m2, f47, f42, f37, z0⟩ := layout9 (by decide) (by decide) x0.isLt x1.isLt x2.isLt (Option.some.inj hw)
  rw [decodeTile, m1, m2]
  change finish (fld 0 37 w) false (some (.and (fin 32 47 w) (fin 32 42 w) (fin 32 37 w))) = _
  simp only [z0, fin_eq (x := x0) f47, fin_eq (x := x1) f42, fin_eq (x := x2) f37]
  exact finish_ok _ hwf

theorem or x0 x1 x2 : Statement (.or x0 x1 x2) := by
  refine tile _ rfl fun hwf w hw => ?_
  obtain ⟨m1, m2, f47, f42, f37, z0⟩ := layout9 (by decide) (by decide) x0.isLt x1.isLt x2.isLt (Option.some.inj hw)
  rw [decodeTile, m1, m2]
  change finish (fld 0 37 w) false (some (.or (fin 32 47 w) (fin 32 42 w) (fin 32 37 w))) = _
  simp only [z0, fin_eq (x := x0) f47, fin_eq (x := x1) f42, fin_eq (x := x2) f37]
  exact finish_ok _ hwf

theorem xor x0 x1 x2 : Statement (.xor x0 x1 x2) := by
  refine tile _ rfl fun hwf w hw => ?_
  obtain ⟨m1, m2, f47, f42, f37, z0⟩ := layout9 (by decide) (by decide) x0.isLt x1.isLt x2.isLt (Option.some.inj hw)
  rw [decodeTile, m1, m2]
  change finish (fld 0 37 w) false (some (.xor (fin 32 47 w) (fin 32 42 w) (fin 32 37 w))) = _
  simp only [z0, fin_eq (x := x0) f47, fin_eq (x := x1) f42, fin_eq (x := x2) f37]
  exact finish_ok _ hwf

theorem sll x0 x1 x2 : Statement (.sll x0 x1 x2) := by
  refine tile _ rfl fun hwf w hw => ?_
  obtain ⟨m1, m2, f47, f42, f37, z0⟩ := layout9 (by decide) (by decide) x0.isLt x1.isLt x2.isLt (Option.some.inj hw)
  rw [decodeTile, m1, m2]
  change finish (fld 0 37 w) false (some (.sll (fin 32 47 w) (fin 32 42 w) (fin 32 37 w))) = _
  simp only [z0, fin_eq (x := x0) f47, fin_eq (x := x1) f42, fin_eq (x := x2) f37]
  exact finish_ok _ hwf

theorem srl x0 x1 x2 : Statement (.srl x0 x1 x2) := by
  refine tile _ rfl fun hwf w hw => ?_
  obtain ⟨m1, m2, f47, f42, f37, z0⟩ := layout9 (by decide) (by decide) x0.isLt x1.isLt x2.isLt (Option.some.inj hw)
  rw [decodeTile, m1, m2]
  change finish (fld 0 37 w) false (some (.srl (fin 32 47 w) (fin 32 42 w) (fin 32 37 w))) = _
  simp only [z0, fin_eq (x := x0) f47, fin_eq (x := x1) f42, fin_eq (x := x2) f37]
  exact finish_ok _ hwf

theorem sra x0 x1 x2 : Statement (.sra x0 x1 x2) := by
  refine tile _ rfl fun hwf w hw => ?_
  obtain ⟨m1, m2, f47, f42, f37, z0⟩ := layout9 (by decide) (by decide) x0.isLt x1.isLt x2.isLt (Option.some.inj hw)
  rw [decodeTile, m1, m2]
  change finish (fld 0 37 w) false (some (.sra (fin 32 47 w) (fin 32 42 w) (fin 32 37 w))) = _
  simp only [z0, fin_eq (x := x0) f47, fin_eq (x := x1) f42, fin_eq (x := x2) f37]
  exact finish_ok _ hwf

theorem slt x0 x1 x2 : Statement (.slt x0 x1 x2) := by
  refine tile _ rfl fun hwf w hw => ?_
  obtain ⟨m1, m2, f47, f42, f37, z0⟩ := layout9 (by decide) (by decide) x0.isLt x1.isLt x2.isLt (Option.some.inj hw)
  rw [decodeTile, m1, m2]
  change finish (fld 0 37 w) false (some (.slt (fin 32 47 w) (fin 32 42 w) (fin 32 37 w))) = _
  simp only [z0, fin_eq (x := x0) f47, fin_eq (x := x1) f42, fin_eq (x := x2) f37]
  exact finish_ok _ hwf

theorem sltu x0 x1 x2 : Statement (.sltu x0 x1 x2) := by
  refine tile _ rfl fun hwf w hw => ?_
  obtain ⟨m1, m2, f47, f42, f37, z0⟩ := layout9 (by decide) (by decide) x0.isLt x1.isLt x2.isLt (Option.some.inj hw)
  rw [decodeTile, m1, m2]
  change finish (fld 0 37 w) false (some (.sltu (fin 32 47 w) (fin 32 42 w) (fin 32 37 w))) = _
  simp only [z0, fin_eq (x := x0) f47, fin_eq (x := x1) f42, fin_eq (x := x2) f37]
  exact finish_ok _ hwf

theorem min x0 x1 x2 : Statement (.min x0 x1 x2) := by
  refine tile _ rfl fun hwf w hw => ?_
  obtain ⟨m1, m2, f47, f42, f37, z0⟩ := layout9 (by decide) (by decide) x0.isLt x1.isLt x2.isLt (Option.some.inj hw)
  rw [decodeTile, m1, m2]
  change finish (fld 0 37 w) false (some (.min (fin 32 47 w) (fin 32 42 w) (fin 32 37 w))) = _
  simp only [z0, fin_eq (x := x0) f47, fin_eq (x := x1) f42, fin_eq (x := x2) f37]
  exact finish_ok _ hwf

theorem max x0 x1 x2 : Statement (.max x0 x1 x2) := by
  refine tile _ rfl fun hwf w hw => ?_
  obtain ⟨m1, m2, f47, f42, f37, z0⟩ := layout9 (by decide) (by decide) x0.isLt x1.isLt x2.isLt (Option.some.inj hw)
  rw [decodeTile, m1, m2]
  change finish (fld 0 37 w) false (some (.max (fin 32 47 w) (fin 32 42 w) (fin 32 37 w))) = _
  simp only [z0, fin_eq (x := x0) f47, fin_eq (x := x1) f42, fin_eq (x := x2) f37]
  exact finish_ok _ hwf

theorem clz x0 x1 : Statement (.clz x0 x1) := by
  refine tile _ rfl fun hwf w hw => ?_
  obtain ⟨m1, m2, f47, f42, z0⟩ := layout10 (by decide) (by decide) x0.isLt x1.isLt (Option.some.inj hw)
  rw [decodeTile, m1, m2]
  change finish (fld 0 42 w) false (some (.clz (fin 32 47 w) (fin 32 42 w))) = _
  simp only [z0, fin_eq (x := x0) f47, fin_eq (x := x1) f42]
  exact finish_ok _ hwf

theorem popc x0 x1 : Statement (.popc x0 x1) := by
  refine tile _ rfl fun hwf w hw => ?_
  obtain ⟨m1, m2, f47, f42, z0⟩ := layout10 (by decide) (by decide) x0.isLt x1.isLt (Option.some.inj hw)
  rw [decodeTile, m1, m2]
  change finish (fld 0 42 w) false (some (.popc (fin 32 47 w) (fin 32 42 w))) = _
  simp only [z0, fin_eq (x := x0) f47, fin_eq (x := x1) f42]
  exact finish_ok _ hwf

theorem sel x0 x1 x2 x3 : Statement (.sel x0 x1 x2 x3) := by
  refine tile _ rfl fun hwf w hw => ?_
  obtain ⟨m1, m2, f47, f42, f37, f32, z0⟩ := layout11 (by decide) (by decide) x0.isLt x1.isLt x2.isLt x3.isLt (Option.some.inj hw)
  rw [decodeTile, m1, m2]
  change finish (fld 0 32 w) false (some (.sel (fin 32 47 w) (fin 32 42 w) (fin 32 37 w) (fin 32 32 w))) = _
  simp only [z0, fin_eq (x := x0) f47, fin_eq (x := x1) f42, fin_eq (x := x2) f37, fin_eq (x := x3) f32]
  exact finish_ok _ hwf

theorem bfx x0 x1 x2 x3 x4 : Statement (.bfx x0 x1 x2 x3 x4) := by
  refine tile _ rfl fun hwf w hw => ?_
  obtain ⟨m1, m2, f47, f42, f0, f6, f12, z0⟩ := layout12 (by decide) (by decide) x0.isLt x1.isLt x2.isLt x3.isLt x4.toNat_lt (Option.some.inj hw)
  rw [decodeTile, m1, m2]
  change finish (fld 13 29 w) false (some (.bfx (fin 32 47 w) (fin 32 42 w) (fin 64 0 w) (fin 64 6 w) (bit 12 w))) = _
  simp only [z0, fin_eq (x := x0) f47, fin_eq (x := x1) f42, fin_eq (x := x2) f0, fin_eq (x := x3) f6, bit_eq f12]
  exact finish_ok _ hwf

theorem bfi x0 x1 x2 x3 : Statement (.bfi x0 x1 x2 x3) := by
  refine tile _ rfl fun hwf w hw => ?_
  obtain ⟨m1, m2, f47, f42, f0, f6, z0⟩ := layout13 (by decide) (by decide) x0.isLt x1.isLt x2.isLt x3.isLt (Option.some.inj hw)
  rw [decodeTile, m1, m2]
  change finish (fld 12 30 w) false (some (.bfi (fin 32 47 w) (fin 32 42 w) (fin 64 0 w) (fin 64 6 w))) = _
  simp only [z0, fin_eq (x := x0) f47, fin_eq (x := x1) f42, fin_eq (x := x2) f0, fin_eq (x := x3) f6]
  exact finish_ok _ hwf

theorem addi x0 x1 x2 : Statement (.addi x0 x1 x2) := by
  refine tile _ rfl fun hwf w hw => ?_
  obtain ⟨m1, m2, f47, f42, f0, z0⟩ := layout14 (by decide) (by decide) x0.isLt x1.isLt x2.isLt (Option.some.inj hw)
  rw [decodeTile, m1, m2]
  change finish (fld 32 10 w) false (some (.addi (fin 32 47 w) (fin 32 42 w) (bv 32 0 w))) = _
  simp only [z0, fin_eq (x := x0) f47, fin_eq (x := x1) f42, bv_eq (x := x2) f0]
  exact finish_ok _ hwf

theorem andi x0 x1 x2 : Statement (.andi x0 x1 x2) := by
  refine tile _ rfl fun hwf w hw => ?_
  obtain ⟨m1, m2, f47, f42, f0, z0⟩ := layout14 (by decide) (by decide) x0.isLt x1.isLt x2.isLt (Option.some.inj hw)
  rw [decodeTile, m1, m2]
  change finish (fld 32 10 w) false (some (.andi (fin 32 47 w) (fin 32 42 w) (bv 32 0 w))) = _
  simp only [z0, fin_eq (x := x0) f47, fin_eq (x := x1) f42, bv_eq (x := x2) f0]
  exact finish_ok _ hwf

theorem ori x0 x1 x2 : Statement (.ori x0 x1 x2) := by
  refine tile _ rfl fun hwf w hw => ?_
  obtain ⟨m1, m2, f47, f42, f0, z0⟩ := layout14 (by decide) (by decide) x0.isLt x1.isLt x2.isLt (Option.some.inj hw)
  rw [decodeTile, m1, m2]
  change finish (fld 32 10 w) false (some (.ori (fin 32 47 w) (fin 32 42 w) (bv 32 0 w))) = _
  simp only [z0, fin_eq (x := x0) f47, fin_eq (x := x1) f42, bv_eq (x := x2) f0]
  exact finish_ok _ hwf

theorem xori x0 x1 x2 : Statement (.xori x0 x1 x2) := by
  refine tile _ rfl fun hwf w hw => ?_
  obtain ⟨m1, m2, f47, f42, f0, z0⟩ := layout14 (by decide) (by decide) x0.isLt x1.isLt x2.isLt (Option.some.inj hw)
  rw [decodeTile, m1, m2]
  change finish (fld 32 10 w) false (some (.xori (fin 32 47 w) (fin 32 42 w) (bv 32 0 w))) = _
  simp only [z0, fin_eq (x := x0) f47, fin_eq (x := x1) f42, bv_eq (x := x2) f0]
  exact finish_ok _ hwf

theorem slli x0 x1 x2 : Statement (.slli x0 x1 x2) := by
  refine tile _ rfl fun hwf w hw => ?_
  obtain ⟨m1, m2, f47, f42, f0, z0⟩ := layout15 (by decide) (by decide) x0.isLt x1.isLt x2.isLt (Option.some.inj hw)
  rw [decodeTile, m1, m2]
  change finish (fld 6 36 w) false (some (.slli (fin 32 47 w) (fin 32 42 w) (fin 64 0 w))) = _
  simp only [z0, fin_eq (x := x0) f47, fin_eq (x := x1) f42, fin_eq (x := x2) f0]
  exact finish_ok _ hwf

theorem srli x0 x1 x2 : Statement (.srli x0 x1 x2) := by
  refine tile _ rfl fun hwf w hw => ?_
  obtain ⟨m1, m2, f47, f42, f0, z0⟩ := layout15 (by decide) (by decide) x0.isLt x1.isLt x2.isLt (Option.some.inj hw)
  rw [decodeTile, m1, m2]
  change finish (fld 6 36 w) false (some (.srli (fin 32 47 w) (fin 32 42 w) (fin 64 0 w))) = _
  simp only [z0, fin_eq (x := x0) f47, fin_eq (x := x1) f42, fin_eq (x := x2) f0]
  exact finish_ok _ hwf

theorem srai x0 x1 x2 : Statement (.srai x0 x1 x2) := by
  refine tile _ rfl fun hwf w hw => ?_
  obtain ⟨m1, m2, f47, f42, f0, z0⟩ := layout15 (by decide) (by decide) x0.isLt x1.isLt x2.isLt (Option.some.inj hw)
  rw [decodeTile, m1, m2]
  change finish (fld 6 36 w) false (some (.srai (fin 32 47 w) (fin 32 42 w) (fin 64 0 w))) = _
  simp only [z0, fin_eq (x := x0) f47, fin_eq (x := x1) f42, fin_eq (x := x2) f0]
  exact finish_ok _ hwf

theorem li x0 x1 : Statement (.li x0 x1) := by
  refine tile _ rfl fun hwf w hw => ?_
  obtain ⟨m1, m2, f47, f0, z0⟩ := layout3 (by decide) (by decide) x0.isLt x1.isLt (Option.some.inj hw)
  rw [decodeTile, m1, m2]
  change finish (fld 32 15 w) false (some (.li (fin 32 47 w) (bv 32 0 w))) = _
  simp only [z0, fin_eq (x := x0) f47, bv_eq (x := x1) f0]
  exact finish_ok _ hwf

theorem lih x0 x1 : Statement (.lih x0 x1) := by
  refine tile _ rfl fun hwf w hw => ?_
  obtain ⟨m1, m2, f47, f0, z0⟩ := layout3 (by decide) (by decide) x0.isLt x1.isLt (Option.some.inj hw)
  rw [decodeTile, m1, m2]
  change finish (fld 32 15 w) false (some (.lih (fin 32 47 w) (bv 32 0 w))) = _
  simp only [z0, fin_eq (x := x0) f47, bv_eq (x := x1) f0]
  exact finish_ok _ hwf

theorem refmk x0 x1 x2 : Statement (.refmk x0 x1 x2) := by
  refine tile _ rfl fun hwf w hw => ?_
  obtain ⟨m1, m2, f47, f42, f37, z0, z1, z2⟩ := layout16 (by decide) (by decide) x0.isLt x1.isLt x2.isLt (Option.some.inj hw)
  rw [decodeTile, m1, m2]
  change (if bit 0 w = true then _ else _) = _
  rw [bit_eq (x := false) z2]
  change finish (fld 1 36 w + fld 51 1 w) false (some (.refmk (fin 16 47 w) (fin 32 42 w) (fin 32 37 w))) = _
  simp only [z0, z1, fin_eq (x := x0) f47, fin_eq (x := x1) f42, fin_eq (x := x2) f37, Nat.add_zero]
  exact finish_ok _ hwf

theorem refmkW x0 x1 : Statement (.refmkW x0 x1) := by
  refine tile _ rfl fun hwf w hw => ?_
  obtain ⟨m1, m2, f47, f42, f0, z0, z1⟩ := layout17 (by decide) (by decide) x0.isLt x1.isLt (by decide) (Option.some.inj hw)
  rw [decodeTile, m1, m2]
  change (if bit 0 w = true then _ else _) = _
  rw [bit_eq (x := true) f0]
  change finish (fld 1 41 w + fld 51 1 w) false (some (.refmkW (fin 16 47 w) (fin 32 42 w))) = _
  simp only [z0, z1, fin_eq (x := x0) f47, fin_eq (x := x1) f42, Nat.add_zero]
  exact finish_ok _ hwf

theorem refadd x0 x1 x2 : Statement (.refadd x0 x1 x2) := by
  refine tile _ rfl fun hwf w hw => ?_
  obtain ⟨m1, m2, f47, f42, f37, z0, z1, z2⟩ := layout18 (by decide) (by decide) x0.isLt x1.isLt x2.isLt (Option.some.inj hw)
  rw [decodeTile, m1, m2]
  change finish (fld 0 37 w + fld 46 1 w + fld 51 1 w) false (some (.refadd (fin 16 47 w) (fin 16 42 w) (fin 32 37 w))) = _
  simp only [z0, z1, z2, fin_eq (x := x0) f47, fin_eq (x := x1) f42, fin_eq (x := x2) f37, Nat.add_zero]
  exact finish_ok _ hwf

theorem refaddImm x0 x1 x2 : Statement (.refaddImm x0 x1 x2) := by
  refine tile _ rfl fun hwf w hw => ?_
  obtain ⟨m1, m2, f47, f42, f0, z0, z1, z2⟩ := layout19 (by decide) (by decide) x0.isLt x1.isLt x2.isLt (Option.some.inj hw)
  rw [decodeTile, m1, m2]
  change finish (fld 32 10 w + fld 46 1 w + fld 51 1 w) false (some (.refaddImm (fin 16 47 w) (fin 16 42 w) (bv 32 0 w))) = _
  simp only [z0, z1, z2, fin_eq (x := x0) f47, fin_eq (x := x1) f42, bv_eq (x := x2) f0, Nat.add_zero]
  exact finish_ok _ hwf

theorem refh x0 x1 : Statement (.refh x0 x1) := by
  refine tile _ rfl fun hwf w hw => ?_
  obtain ⟨m1, m2, f47, f42, z0, z1⟩ := layout8 (by decide) (by decide) x0.isLt x1.isLt (Option.some.inj hw)
  rw [decodeTile, m1, m2]
  change finish (fld 0 42 w + fld 46 1 w) false (some (.refh (fin 32 47 w) (fin 16 42 w))) = _
  simp only [z0, z1, fin_eq (x := x0) f47, fin_eq (x := x1) f42, Nat.add_zero]
  exact finish_ok _ hwf

theorem refoff x0 x1 : Statement (.refoff x0 x1) := by
  refine tile _ rfl fun hwf w hw => ?_
  obtain ⟨m1, m2, f47, f42, z0, z1, z2⟩ := layout20 (by decide) (by decide) x0.isLt x1.isLt (Option.some.inj hw)
  rw [decodeTile, m1, m2]
  change (if bit 0 w = true then _ else _) = _
  rw [bit_eq (x := false) z2]
  change finish (fld 1 41 w + fld 46 1 w) false (some (.refoff (fin 32 47 w) (fin 16 42 w))) = _
  simp only [z0, z1, fin_eq (x := x0) f47, fin_eq (x := x1) f42, Nat.add_zero]
  exact finish_ok _ hwf

theorem refoffW x0 x1 : Statement (.refoffW x0 x1) := by
  refine tile _ rfl fun hwf w hw => ?_
  obtain ⟨m1, m2, f47, f42, f0, z0, z1⟩ := layout21 (by decide) (by decide) x0.isLt x1.isLt (by decide) (Option.some.inj hw)
  rw [decodeTile, m1, m2]
  change (if bit 0 w = true then _ else _) = _
  rw [bit_eq (x := true) f0]
  change finish (fld 1 41 w + fld 46 1 w) false (some (.refoffW (fin 32 47 w) (fin 16 42 w))) = _
  simp only [z0, z1, fin_eq (x := x0) f47, fin_eq (x := x1) f42, Nat.add_zero]
  exact finish_ok _ hwf

theorem ldB x0 x1 x2 x3 : Statement (.ldB x0 x1 x2 x3) := by
  refine tile _ rfl fun hwf w hw => ?_
  obtain ⟨m1, m2, f47, f43, f38, f40, f0, z0⟩ := layout22 (by decide) (by decide) x0.isLt x1.isLt (MemOrd.str_lt x2) (MemOrd.scope_lt x2) x3.isLt (Option.some.inj hw)
  rw [decodeTile, m1, m2]
  change finish (fld 24 14 w) false ((MemOrd.ofCodes (fld 38 2 w) (fld 40 3 w)).bind fun x2 => some (.ldB (fin 32 47 w) (fin 16 43 w) x2 (bv 24 0 w))) = _
  simp only [z0, fin_eq (x := x0) f47, fin_eq (x := x1) f43, f38, f40, MemOrd.ofCodes_codes, bv_eq (x := x3) f0, Option.bind_some]
  exact finish_ok _ hwf

theorem ldH x0 x1 x2 x3 : Statement (.ldH x0 x1 x2 x3) := by
  refine tile _ rfl fun hwf w hw => ?_
  obtain ⟨m1, m2, f47, f43, f38, f40, f0, z0⟩ := layout22 (by decide) (by decide) x0.isLt x1.isLt (MemOrd.str_lt x2) (MemOrd.scope_lt x2) x3.isLt (Option.some.inj hw)
  rw [decodeTile, m1, m2]
  change finish (fld 24 14 w) false ((MemOrd.ofCodes (fld 38 2 w) (fld 40 3 w)).bind fun x2 => some (.ldH (fin 32 47 w) (fin 16 43 w) x2 (bv 24 0 w))) = _
  simp only [z0, fin_eq (x := x0) f47, fin_eq (x := x1) f43, f38, f40, MemOrd.ofCodes_codes, bv_eq (x := x3) f0, Option.bind_some]
  exact finish_ok _ hwf

theorem ldW x0 x1 x2 x3 : Statement (.ldW x0 x1 x2 x3) := by
  refine tile _ rfl fun hwf w hw => ?_
  obtain ⟨m1, m2, f47, f43, f38, f40, f0, z0⟩ := layout22 (by decide) (by decide) x0.isLt x1.isLt (MemOrd.str_lt x2) (MemOrd.scope_lt x2) x3.isLt (Option.some.inj hw)
  rw [decodeTile, m1, m2]
  change finish (fld 24 14 w) false ((MemOrd.ofCodes (fld 38 2 w) (fld 40 3 w)).bind fun x2 => some (.ldW (fin 32 47 w) (fin 16 43 w) x2 (bv 24 0 w))) = _
  simp only [z0, fin_eq (x := x0) f47, fin_eq (x := x1) f43, f38, f40, MemOrd.ofCodes_codes, bv_eq (x := x3) f0, Option.bind_some]
  exact finish_ok _ hwf

theorem ldD x0 x1 x2 x3 : Statement (.ldD x0 x1 x2 x3) := by
  refine tile _ rfl fun hwf w hw => ?_
  obtain ⟨m1, m2, f47, f43, f38, f40, f0, z0⟩ := layout22 (by decide) (by decide) x0.isLt x1.isLt (MemOrd.str_lt x2) (MemOrd.scope_lt x2) x3.isLt (Option.some.inj hw)
  rw [decodeTile, m1, m2]
  change finish (fld 24 14 w) false ((MemOrd.ofCodes (fld 38 2 w) (fld 40 3 w)).bind fun x2 => some (.ldD (fin 32 47 w) (fin 16 43 w) x2 (bv 24 0 w))) = _
  simp only [z0, fin_eq (x := x0) f47, fin_eq (x := x1) f43, f38, f40, MemOrd.ofCodes_codes, bv_eq (x := x3) f0, Option.bind_some]
  exact finish_ok _ hwf

theorem ldq x0 x1 x2 x3 : Statement (.ldq x0 x1 x2 x3) := by
  refine tile _ rfl fun hwf w hw => ?_
  obtain ⟨m1, m2, f47, f43, f38, f40, f0, z0⟩ := layout22 (by decide) (by decide) x0.isLt x1.isLt (MemOrd.str_lt x2) (MemOrd.scope_lt x2) x3.isLt (Option.some.inj hw)
  rw [decodeTile, m1, m2]
  change finish (fld 24 14 w) false ((MemOrd.ofCodes (fld 38 2 w) (fld 40 3 w)).bind fun x2 => some (.ldq (fin 32 47 w) (fin 16 43 w) x2 (bv 24 0 w))) = _
  simp only [z0, fin_eq (x := x0) f47, fin_eq (x := x1) f43, f38, f40, MemOrd.ofCodes_codes, bv_eq (x := x3) f0, Option.bind_some]
  exact finish_ok _ hwf

theorem stB x0 x1 x2 x3 : Statement (.stB x0 x1 x2 x3) := by
  refine tile _ rfl fun hwf w hw => ?_
  obtain ⟨m1, m2, f47, f43, f38, f40, f0, z0⟩ := layout22 (by decide) (by decide) x0.isLt x1.isLt (MemOrd.str_lt x2) (MemOrd.scope_lt x2) x3.isLt (Option.some.inj hw)
  rw [decodeTile, m1, m2]
  change finish (fld 24 14 w) false ((MemOrd.ofCodes (fld 38 2 w) (fld 40 3 w)).bind fun x2 => some (.stB (fin 32 47 w) (fin 16 43 w) x2 (bv 24 0 w))) = _
  simp only [z0, fin_eq (x := x0) f47, fin_eq (x := x1) f43, f38, f40, MemOrd.ofCodes_codes, bv_eq (x := x3) f0, Option.bind_some]
  exact finish_ok _ hwf

theorem stH x0 x1 x2 x3 : Statement (.stH x0 x1 x2 x3) := by
  refine tile _ rfl fun hwf w hw => ?_
  obtain ⟨m1, m2, f47, f43, f38, f40, f0, z0⟩ := layout22 (by decide) (by decide) x0.isLt x1.isLt (MemOrd.str_lt x2) (MemOrd.scope_lt x2) x3.isLt (Option.some.inj hw)
  rw [decodeTile, m1, m2]
  change finish (fld 24 14 w) false ((MemOrd.ofCodes (fld 38 2 w) (fld 40 3 w)).bind fun x2 => some (.stH (fin 32 47 w) (fin 16 43 w) x2 (bv 24 0 w))) = _
  simp only [z0, fin_eq (x := x0) f47, fin_eq (x := x1) f43, f38, f40, MemOrd.ofCodes_codes, bv_eq (x := x3) f0, Option.bind_some]
  exact finish_ok _ hwf

theorem stW x0 x1 x2 x3 : Statement (.stW x0 x1 x2 x3) := by
  refine tile _ rfl fun hwf w hw => ?_
  obtain ⟨m1, m2, f47, f43, f38, f40, f0, z0⟩ := layout22 (by decide) (by decide) x0.isLt x1.isLt (MemOrd.str_lt x2) (MemOrd.scope_lt x2) x3.isLt (Option.some.inj hw)
  rw [decodeTile, m1, m2]
  change finish (fld 24 14 w) false ((MemOrd.ofCodes (fld 38 2 w) (fld 40 3 w)).bind fun x2 => some (.stW (fin 32 47 w) (fin 16 43 w) x2 (bv 24 0 w))) = _
  simp only [z0, fin_eq (x := x0) f47, fin_eq (x := x1) f43, f38, f40, MemOrd.ofCodes_codes, bv_eq (x := x3) f0, Option.bind_some]
  exact finish_ok _ hwf

theorem stD x0 x1 x2 x3 : Statement (.stD x0 x1 x2 x3) := by
  refine tile _ rfl fun hwf w hw => ?_
  obtain ⟨m1, m2, f47, f43, f38, f40, f0, z0⟩ := layout22 (by decide) (by decide) x0.isLt x1.isLt (MemOrd.str_lt x2) (MemOrd.scope_lt x2) x3.isLt (Option.some.inj hw)
  rw [decodeTile, m1, m2]
  change finish (fld 24 14 w) false ((MemOrd.ofCodes (fld 38 2 w) (fld 40 3 w)).bind fun x2 => some (.stD (fin 32 47 w) (fin 16 43 w) x2 (bv 24 0 w))) = _
  simp only [z0, fin_eq (x := x0) f47, fin_eq (x := x1) f43, f38, f40, MemOrd.ofCodes_codes, bv_eq (x := x3) f0, Option.bind_some]
  exact finish_ok _ hwf

theorem stq x0 x1 x2 x3 : Statement (.stq x0 x1 x2 x3) := by
  refine tile _ rfl fun hwf w hw => ?_
  obtain ⟨m1, m2, f47, f43, f38, f40, f0, z0⟩ := layout22 (by decide) (by decide) x0.isLt x1.isLt (MemOrd.str_lt x2) (MemOrd.scope_lt x2) x3.isLt (Option.some.inj hw)
  rw [decodeTile, m1, m2]
  change finish (fld 24 14 w) false ((MemOrd.ofCodes (fld 38 2 w) (fld 40 3 w)).bind fun x2 => some (.stq (fin 32 47 w) (fin 16 43 w) x2 (bv 24 0 w))) = _
  simp only [z0, fin_eq (x := x0) f47, fin_eq (x := x1) f43, f38, f40, MemOrd.ofCodes_codes, bv_eq (x := x3) f0, Option.bind_some]
  exact finish_ok _ hwf

theorem tbind x0 x1 x2 x3 x4 x5 : Statement (.tbind x0 x1 x2 x3 x4 x5) := by
  refine tile _ rfl fun hwf w hw => ?_
  obtain ⟨m1, m2, f46, f27, f19, f36, f35, f16, z0, z1⟩ := layout23 (by decide) (by decide) x0.isLt x1.isLt x2.isLt (Efmt.code_lt x3) (Home.code_lt x4) (Lay.code_lt x5) (Option.some.inj hw)
  rw [decodeTile, m1, m2]
  change finish (fld 0 16 w + fld 41 5 w) false ((Efmt.ofCode (fld 36 5 w)).bind fun x3 => (Home.ofCode (fld 35 1 w)).bind fun x4 => (Lay.ofCode (fld 16 3 w)).bind fun x5 => some (.tbind (fin 64 46 w) (fin 256 27 w) (fin 256 19 w) x3 x4 x5)) = _
  simp only [z0, z1, fin_eq (x := x0) f46, fin_eq (x := x1) f27, fin_eq (x := x2) f19, f36, Efmt.ofCode_code, f35, Home.ofCode_code, f16, Lay.ofCode_code, Nat.add_zero, Option.bind_some]
  exact finish_ok _ hwf

theorem tbindMn x0 x1 x2 x3 x4 : Statement (.tbindMn x0 x1 x2 x3 x4) := by
  refine tile _ rfl fun hwf w hw => ?_
  obtain ⟨m1, m2, f46, f41, f36, f35, f16, z0, z1⟩ := layout24 (by decide) (by decide) x0.isLt x1.isLt (Efmt.code_lt x2) (Home.code_lt x3) (Lay.code_lt x4) (Option.some.inj hw)
  rw [decodeTile, m1, m2]
  change finish (fld 0 16 w + fld 19 16 w) false ((Efmt.ofCode (fld 36 5 w)).bind fun x2 => (Home.ofCode (fld 35 1 w)).bind fun x3 => (Lay.ofCode (fld 16 3 w)).bind fun x4 => some (.tbindMn (fin 64 46 w) (fin 32 41 w) x2 x3 x4)) = _
  simp only [z0, z1, fin_eq (x := x0) f46, fin_eq (x := x1) f41, f36, Efmt.ofCode_code, f35, Home.ofCode_code, f16, Lay.ofCode_code, Nat.add_zero, Option.bind_some]
  exact finish_ok _ hwf

theorem tbindMk x0 x1 x2 x3 x4 : Statement (.tbindMk x0 x1 x2 x3 x4) := by
  refine tile _ rfl fun hwf w hw => ?_
  obtain ⟨m1, m2, f46, f41, f36, f35, f16, z0, z1⟩ := layout24 (by decide) (by decide) x0.isLt x1.isLt (Efmt.code_lt x2) (Home.code_lt x3) (Lay.code_lt x4) (Option.some.inj hw)
  rw [decodeTile, m1, m2]
  change finish (fld 0 16 w + fld 19 16 w) false ((Efmt.ofCode (fld 36 5 w)).bind fun x2 => (Home.ofCode (fld 35 1 w)).bind fun x3 => (Lay.ofCode (fld 16 3 w)).bind fun x4 => some (.tbindMk (fin 64 46 w) (fin 32 41 w) x2 x3 x4)) = _
  simp only [z0, z1, fin_eq (x := x0) f46, fin_eq (x := x1) f41, f36, Efmt.ofCode_code, f35, Home.ofCode_code, f16, Lay.ofCode_code, Nat.add_zero, Option.bind_some]
  exact finish_ok _ hwf

theorem tbindKn x0 x1 x2 x3 x4 : Statement (.tbindKn x0 x1 x2 x3 x4) := by
  refine tile _ rfl fun hwf w hw => ?_
  obtain ⟨m1, m2, f46, f41, f36, f35, f16, z0, z1⟩ := layout24 (by decide) (by decide) x0.isLt x1.isLt (Efmt.code_lt x2) (Home.code_lt x3) (Lay.code_lt x4) (Option.some.inj hw)
  rw [decodeTile, m1, m2]
  change finish (fld 0 16 w + fld 19 16 w) false ((Efmt.ofCode (fld 36 5 w)).bind fun x2 => (Home.ofCode (fld 35 1 w)).bind fun x3 => (Lay.ofCode (fld 16 3 w)).bind fun x4 => some (.tbindKn (fin 64 46 w) (fin 32 41 w) x2 x3 x4)) = _
  simp only [z0, z1, fin_eq (x := x0) f46, fin_eq (x := x1) f41, f36, Efmt.ofCode_code, f35, Home.ofCode_code, f16, Lay.ofCode_code, Nat.add_zero, Option.bind_some]
  exact finish_ok _ hwf

theorem tview x0 x1 x2 x3 : Statement (.tview x0 x1 x2 x3) := by
  refine tile _ rfl fun hwf w hw => ?_
  obtain ⟨m1, m2, f46, f27, f19, f41, z0, z1⟩ := layout25 (by decide) (by decide) x0.isLt x1.isLt x2.isLt x3.isLt (Option.some.inj hw)
  rw [decodeTile, m1, m2]
  change finish (fld 0 19 w + fld 35 6 w) false (some (.tview (fin 64 46 w) (fin 256 27 w) (fin 256 19 w) (fin 32 41 w))) = _
  simp only [z0, z1, fin_eq (x := x0) f46, fin_eq (x := x1) f27, fin_eq (x := x2) f19, fin_eq (x := x3) f41, Nat.add_zero]
  exact finish_ok _ hwf

theorem tlay x0 x1 : Statement (.tlay x0 x1) := by
  refine tile _ rfl fun hwf w hw => ?_
  obtain ⟨m1, m2, f46, f16, z0, z1⟩ := layout26 (by decide) (by decide) x0.isLt (Lay.code_lt x1) (Option.some.inj hw)
  rw [decodeTile, m1, m2]
  change finish (fld 0 16 w + fld 19 27 w) false ((Lay.ofCode (fld 16 3 w)).bind fun x1 => some (.tlay (fin 64 46 w) x1)) = _
  simp only [z0, z1, fin_eq (x := x0) f46, f16, Lay.ofCode_code, Nat.add_zero, Option.bind_some]
  exact finish_ok _ hwf

theorem tunbind x0 : Statement (.tunbind x0) := by
  refine tile _ rfl fun hwf w hw => ?_
  obtain ⟨m1, m2, f46, z0⟩ := layout27 (by decide) (by decide) x0.isLt (Option.some.inj hw)
  rw [decodeTile, m1, m2]
  change finish (fld 0 46 w) false (some (.tunbind (fin 64 46 w))) = _
  simp only [z0, fin_eq (x := x0) f46]
  exact finish_ok _ hwf

theorem tdesc x0 x1 x2 : Statement (.tdesc x0 x1 x2) := by
  refine tile _ rfl fun hwf w hw => ?_
  obtain ⟨m1, m2, f46, f40, f6, z0, z1, z2⟩ := layout28 (by decide) (by decide) x0.isLt x1.isLt x2.isLt (Option.some.inj hw)
  rw [decodeTile, m1, m2]
  change finish (fld 0 6 w + fld 14 26 w + fld 51 1 w) false (some (.tdesc (fin 32 46 w) (fin 64 40 w) (fin 256 6 w))) = _
  simp only [z0, z1, z2, fin_eq (x := x0) f46, fin_eq (x := x1) f40, fin_eq (x := x2) f6, Nat.add_zero]
  exact finish_ok _ hwf

theorem tzero x0 : Statement (.tzero x0) := by
  refine tile _ rfl fun hwf w hw => ?_
  obtain ⟨m1, m2, f46, z0⟩ := layout27 (by decide) (by decide) x0.isLt (Option.some.inj hw)
  rw [decodeTile, m1, m2]
  change finish (fld 0 46 w) false (some (.tzero (fin 64 46 w))) = _
  simp only [z0, fin_eq (x := x0) f46]
  exact finish_ok _ hwf

theorem tfill x0 x1 : Statement (.tfill x0 x1) := by
  refine tile _ rfl fun hwf w hw => ?_
  obtain ⟨m1, m2, f46, f40, z0, z1⟩ := layout29 (by decide) (by decide) x0.isLt x1.isLt (Option.some.inj hw)
  rw [decodeTile, m1, m2]
  change finish (fld 0 40 w + fld 45 1 w) false (some (.tfill (fin 64 46 w) (fin 32 40 w))) = _
  simp only [z0, z1, fin_eq (x := x0) f46, fin_eq (x := x1) f40, Nat.add_zero]
  exact finish_ok _ hwf

theorem tcpyt x0 x1 x2 : Statement (.tcpyt x0 x1 x2) := by
  refine tile _ rfl fun hwf w hw => ?_
  obtain ⟨m1, m2, f46, f40, f24, f23, z0, z1⟩ := layout30 (by decide) (by decide) x0.isLt x1.isLt (maskBits_lt x2) (maskOn_lt x2) (Option.some.inj hw)
  have e2 := mask_eq (m := x2) f23 f24
  rw [decodeTile, m1, m2]
  change finish (fld 0 23 w + fld 28 12 w + maskRsv 23 24 w) false (some (.tcpyt (fin 64 46 w) (fin 64 40 w) (maskOf 23 24 w))) = _
  simp only [z0, z1, fin_eq (x := x0) f46, fin_eq (x := x1) f40, e2.1, e2.2, Nat.add_zero]
  exact finish_ok _ hwf

theorem tsettle x0 : Statement (.tsettle x0) := by
  refine tile _ rfl fun hwf w hw => ?_
  obtain ⟨m1, m2, f46, z0⟩ := layout27 (by decide) (by decide) x0.isLt (Option.some.inj hw)
  rw [decodeTile, m1, m2]
  change finish (fld 0 46 w) false (some (.tsettle (fin 64 46 w))) = _
  simp only [z0, fin_eq (x := x0) f46]
  exact finish_ok _ hwf

theorem tstat x0 x1 x2 : Statement (.tstat x0 x1 x2) := by
  refine tile _ rfl fun hwf w hw => ?_
  obtain ⟨m1, m2, f46, f40, f6, z0, z1, z2⟩ := layout28 (by decide) (by decide) x0.isLt x1.isLt x2.isLt (Option.some.inj hw)
  rw [decodeTile, m1, m2]
  change finish (fld 0 6 w + fld 14 26 w + fld 51 1 w) false (some (.tstat (fin 32 46 w) (fin 64 40 w) (fin 256 6 w))) = _
  simp only [z0, z1, z2, fin_eq (x := x0) f46, fin_eq (x := x1) f40, fin_eq (x := x2) f6, Nat.add_zero]
  exact finish_ok _ hwf

theorem shape x0 x1 x2 x3 : Statement (.shape x0 x1 x2 x3) := by
  refine tile _ rfl fun hwf w hw => ?_
  obtain ⟨m1, m2, f47, f42, f37, f32, z0⟩ := layout11 (by decide) (by decide) x0.isLt x1.isLt x2.isLt x3.isLt (Option.some.inj hw)
  rw [decodeTile, m1, m2]
  change finish (fld 0 32 w) false (some (.shape (fin 32 47 w) (fin 32 42 w) (fin 32 37 w) (fin 32 32 w))) = _
  simp only [z0, fin_eq (x := x0) f47, fin_eq (x := x1) f42, fin_eq (x := x2) f37, fin_eq (x := x3) f32]
  exact finish_ok _ hwf

theorem shq x0 x1 x2 : Statement (.shq x0 x1 x2) := by
  refine tile _ rfl fun hwf w hw => ?_
  obtain ⟨m1, m2, f47, f42, f0, z0, z1⟩ := layout31 (by decide) (by decide) x0.isLt x1.isLt x2.isLt (Option.some.inj hw)
  rw [decodeTile, m1, m2]
  change (if bit 4 w = true then _ else _) = _
  rw [bit_eq (x := false) z1]
  change finish (fld 5 37 w) false (some (.shq (fin 32 47 w) (fin 32 42 w) (fin 16 0 w))) = _
  simp only [z0, fin_eq (x := x0) f47, fin_eq (x := x1) f42, fin_eq (x := x2) f0]
  exact finish_ok _ hwf

theorem shqAdv x0 x1 : Statement (.shqAdv x0 x1) := by
  refine tile _ rfl fun hwf w hw => ?_
  obtain ⟨m1, m2, f47, f42, f4, z0, z1⟩ := layout32 (by decide) (by decide) x0.isLt x1.isLt (by decide) (Option.some.inj hw)
  rw [decodeTile, m1, m2]
  change (if bit 4 w = true then _ else _) = _
  rw [bit_eq (x := true) f4]
  change finish (fld 0 4 w + fld 5 37 w) false (some (.shqAdv (fin 32 47 w) (fin 32 42 w))) = _
  simp only [z0, z1, fin_eq (x := x0) f47, fin_eq (x := x1) f42, Nat.add_zero]
  exact finish_ok _ hwf

theorem tld x0 x1 x2 x3 x4 x5 : Statement (.tld x0 x1 x2 x3 x4 x5) := by
  refine tile _ rfl fun hwf w hw => ?_
  obtain ⟨m1, m2, f46, f42, f37, f25, f26, f28, f0, z0, z1⟩ := layout33 (by decide) (by decide) x0.isLt x1.isLt x2.isLt x3.toNat_lt (MemOrd.str_lt x4) (MemOrd.scope_lt x4) x5.isLt (Option.some.inj hw)
  rw [decodeTile, m1, m2]
  change finish (fld 20 5 w + fld 31 6 w) false ((MemOrd.ofCodes (fld 26 2 w) (fld 28 3 w)).bind fun x4 => some (.tld (fin 64 46 w) (fin 16 42 w) (fin 32 37 w) (bit 25 w) x4 (bv 20 0 w))) = _
  simp only [z0, z1, fin_eq (x := x0) f46, fin_eq (x := x1) f42, fin_eq (x := x2) f37, bit_eq f25, f26, f28, MemOrd.ofCodes_codes, bv_eq (x := x5) f0, Nat.add_zero, Option.bind_some]
  exact finish_ok _ hwf

theorem tst x0 x1 x2 x3 x4 : Statement (.tst x0 x1 x2 x3 x4) := by
  refine tile _ rfl fun hwf w hw => ?_
  obtain ⟨m1, m2, f46, f42, f37, f26, f28, f0, z0, z1⟩ := layout34 (by decide) (by decide) x0.isLt x1.isLt x2.isLt (MemOrd.str_lt x3) (MemOrd.scope_lt x3) x4.isLt (Option.some.inj hw)
  rw [decodeTile, m1, m2]
  change finish (fld 20 6 w + fld 31 6 w) false ((MemOrd.ofCodes (fld 26 2 w) (fld 28 3 w)).bind fun x3 => some (.tst (fin 64 46 w) (fin 16 42 w) (fin 32 37 w) x3 (bv 20 0 w))) = _
  simp only [z0, z1, fin_eq (x := x0) f46, fin_eq (x := x1) f42, fin_eq (x := x2) f37, f26, f28, MemOrd.ofCodes_codes, bv_eq (x := x4) f0, Nat.add_zero, Option.bind_some]
  exact finish_ok _ hwf

theorem tldg x0 x1 x2 x3 x4 x5 : Statement (.tldg x0 x1 x2 x3 x4 x5) := by
  refine tile _ rfl fun hwf w hw => ?_
  obtain ⟨m1, m2, f46, f42, f37, f31, f26, f28, f0, z0⟩ := layout35 (by decide) (by decide) x0.isLt x1.isLt x2.isLt x3.isLt (MemOrd.str_lt x4) (MemOrd.scope_lt x4) x5.isLt (Option.some.inj hw)
  rw [decodeTile, m1, m2]
  change finish (fld 20 6 w) false ((MemOrd.ofCodes (fld 26 2 w) (fld 28 3 w)).bind fun x4 => some (.tldg (fin 64 46 w) (fin 16 42 w) (fin 32 37 w) (fin 64 31 w) x4 (bv 20 0 w))) = _
  simp only [z0, fin_eq (x := x0) f46, fin_eq (x := x1) f42, fin_eq (x := x2) f37, fin_eq (x := x3) f31, f26, f28, MemOrd.ofCodes_codes, bv_eq (x := x5) f0, Option.bind_some]
  exact finish_ok _ hwf

theorem tsts x0 x1 x2 x3 x4 x5 : Statement (.tsts x0 x1 x2 x3 x4 x5) := by
  refine tile _ rfl fun hwf w hw => ?_
  obtain ⟨m1, m2, f46, f42, f37, f31, f26, f28, f0, z0⟩ := layout35 (by decide) (by decide) x0.isLt x1.isLt x2.isLt x3.isLt (MemOrd.str_lt x4) (MemOrd.scope_lt x4) x5.isLt (Option.some.inj hw)
  rw [decodeTile, m1, m2]
  change finish (fld 20 6 w) false ((MemOrd.ofCodes (fld 26 2 w) (fld 28 3 w)).bind fun x4 => some (.tsts (fin 64 46 w) (fin 16 42 w) (fin 32 37 w) (fin 64 31 w) x4 (bv 20 0 w))) = _
  simp only [z0, fin_eq (x := x0) f46, fin_eq (x := x1) f42, fin_eq (x := x2) f37, fin_eq (x := x3) f31, f26, f28, MemOrd.ofCodes_codes, bv_eq (x := x5) f0, Option.bind_some]
  exact finish_ok _ hwf

theorem tldd x0 x1 x2 x3 x4 : Statement (.tldd x0 x1 x2 x3 x4) := by
  refine tile _ rfl fun hwf w hw => ?_
  obtain ⟨m1, m2, f46, f42, f37, f26, f28, f0, z0, z1⟩ := layout34 (by decide) (by decide) x0.isLt x1.isLt x2.isLt (MemOrd.str_lt x3) (MemOrd.scope_lt x3) x4.isLt (Option.some.inj hw)
  rw [decodeTile, m1, m2]
  change finish (fld 20 6 w + fld 31 6 w) false ((MemOrd.ofCodes (fld 26 2 w) (fld 28 3 w)).bind fun x3 => some (.tldd (fin 64 46 w) (fin 16 42 w) (fin 32 37 w) x3 (bv 20 0 w))) = _
  simp only [z0, z1, fin_eq (x := x0) f46, fin_eq (x := x1) f42, fin_eq (x := x2) f37, f26, f28, MemOrd.ofCodes_codes, bv_eq (x := x4) f0, Nat.add_zero, Option.bind_some]
  exact finish_ok _ hwf

theorem tstd x0 x1 x2 x3 x4 : Statement (.tstd x0 x1 x2 x3 x4) := by
  refine tile _ rfl fun hwf w hw => ?_
  obtain ⟨m1, m2, f46, f42, f37, f26, f28, f0, z0, z1⟩ := layout34 (by decide) (by decide) x0.isLt x1.isLt x2.isLt (MemOrd.str_lt x3) (MemOrd.scope_lt x3) x4.isLt (Option.some.inj hw)
  rw [decodeTile, m1, m2]
  change finish (fld 20 6 w + fld 31 6 w) false ((MemOrd.ofCodes (fld 26 2 w) (fld 28 3 w)).bind fun x3 => some (.tstd (fin 64 46 w) (fin 16 42 w) (fin 32 37 w) x3 (bv 20 0 w))) = _
  simp only [z0, z1, fin_eq (x := x0) f46, fin_eq (x := x1) f42, fin_eq (x := x2) f37, f26, f28, MemOrd.ofCodes_codes, bv_eq (x := x4) f0, Nat.add_zero, Option.bind_some]
  exact finish_ok _ hwf

theorem pld x0 x1 x2 x3 : Statement (.pld x0 x1 x2 x3) := by
  refine tile _ rfl fun hwf w hw => ?_
  obtain ⟨m1, m2, f46, f42, f37, f0, z0, z1⟩ := layout36 (by decide) (by decide) x0.isLt x1.isLt x2.isLt x3.isLt (Option.some.inj hw)
  rw [decodeTile, m1, m2]
  change finish (fld 20 17 w + fld 45 1 w) false (some (.pld (fin 64 46 w) (fin 8 42 w) (fin 32 37 w) (bv 20 0 w))) = _
  simp only [z0, z1, fin_eq (x := x0) f46, fin_eq (x := x1) f42, fin_eq (x := x2) f37, bv_eq (x := x3) f0, Nat.add_zero]
  exact finish_ok _ hwf

theorem plds x0 x1 x2 : Statement (.plds x0 x1 x2) := by
  refine tile _ rfl fun hwf w hw => ?_
  obtain ⟨m1, m2, f46, f42, f0, z0, z1, z2⟩ := layout37 (by decide) (by decide) x0.isLt x1.isLt x2.isLt (Option.some.inj hw)
  rw [decodeTile, m1, m2]
  change finish (fld 20 22 w + fld 45 1 w + fld 51 1 w) false (some (.plds (fin 32 46 w) (fin 8 42 w) (bv 20 0 w))) = _
  simp only [z0, z1, z2, fin_eq (x := x0) f46, fin_eq (x := x1) f42, bv_eq (x := x2) f0, Nat.add_zero]
  exact finish_ok _ hwf

theorem tprf x0 x1 x2 : Statement (.tprf x0 x1 x2) := by
  refine tile _ rfl fun hwf w hw => ?_
  obtain ⟨m1, m2, f42, f37, f0, z0, z1⟩ := layout38 (by decide) (by decide) x0.isLt x1.isLt x2.isLt (Option.some.inj hw)
  rw [decodeTile, m1, m2]
  change finish (fld 20 17 w + fld 46 6 w) false (some (.tprf (fin 16 42 w) (fin 32 37 w) (bv 20 0 w))) = _
  simp only [z0, z1, fin_eq (x := x0) f42, fin_eq (x := x1) f37, bv_eq (x := x2) f0, Nat.add_zero]
  exact finish_ok _ hwf

theorem xcpy x0 x1 x2 x3 x4 x5 : Statement (.xcpy x0 x1 x2 x3 x4 x5) := by
  refine tile _ rfl fun hwf w hw => ?_
  obtain ⟨m1, m2, f47, f43, f39, f35, f30, f25, f27, z0⟩ := layout39 (by decide) (by decide) x0.isLt x1.isLt x2.isLt x3.isLt x4.isLt (MemOrd.str_lt x5) (MemOrd.scope_lt x5) (Option.some.inj hw)
  rw [decodeTile, m1, m2]
  change finish (fld 0 25 w) false ((MemOrd.ofCodes (fld 25 2 w) (fld 27 3 w)).bind fun x5 => some (.xcpy (fin 32 47 w) (fin 16 43 w) (fin 16 39 w) (fin 16 35 w) (fin 32 30 w) x5)) = _
  simp only [z0, fin_eq (x := x0) f47, fin_eq (x := x1) f43, fin_eq (x := x2) f39, fin_eq (x := x3) f35, fin_eq (x := x4) f30, f25, f27, MemOrd.ofCodes_codes, Option.bind_some]
  exact finish_ok _ hwf

theorem xcpyCopy x0 x1 : Statement (.xcpyCopy x0 x1) := wordless _ rfl rfl

theorem xcpyFlag x0 x1 : Statement (.xcpyFlag x0 x1) := wordless _ rfl rfl

theorem tmma x0 x1 x2 : Statement (.tmma x0 x1 x2) := by
  refine tile _ rfl fun hwf w hw => ?_
  obtain ⟨m1, m2, f46, f40, f33, f30, f34, f29, f26, z0⟩ := layout40 (by decide) (by decide) x0.isLt x1.t.isLt (coreOn_lt x1.core) (coreBits_lt x1.core) x2.t.isLt (coreOn_lt x2.core) (coreBits_lt x2.core) (Option.some.inj hw)
  have e1 := src_eq (x := x1) f40 f33 f30
  have e2 := src_eq (x := x2) f34 f29 f26
  rw [decodeTile, m1, m2]
  change finish (fld 0 26 w + srcRsv 33 30 w + srcRsv 29 26 w) false (some (.tmma (fin 64 46 w) (srcOf 40 33 30 w) (srcOf 34 29 26 w))) = _
  simp only [z0, fin_eq (x := x0) f46, e1.1, e1.2, e2.1, e2.2, Nat.add_zero]
  exact finish_ok _ hwf

theorem tmmas x0 x1 x2 x3 x4 : Statement (.tmmas x0 x1 x2 x3 x4) := by
  refine tile _ rfl fun hwf w hw => ?_
  obtain ⟨m1, m2, f46, f40, f33, f30, f34, f29, f26, f20, f14, z0⟩ := layout41 (by decide) (by decide) x0.isLt x1.t.isLt (coreOn_lt x1.core) (coreBits_lt x1.core) x2.t.isLt (coreOn_lt x2.core) (coreBits_lt x2.core) x3.isLt x4.isLt (Option.some.inj hw)
  have e1 := src_eq (x := x1) f40 f33 f30
  have e2 := src_eq (x := x2) f34 f29 f26
  rw [decodeTile, m1, m2]
  change finish (fld 0 14 w + srcRsv 33 30 w + srcRsv 29 26 w) false (some (.tmmas (fin 64 46 w) (srcOf 40 33 30 w) (srcOf 34 29 26 w) (fin 64 20 w) (fin 64 14 w))) = _
  simp only [z0, fin_eq (x := x0) f46, e1.1, e1.2, e2.1, e2.2, fin_eq (x := x3) f20, fin_eq (x := x4) f14, Nat.add_zero]
  exact finish_ok _ hwf

theorem tmmax x0 x1 x2 : Statement (.tmmax x0 x1 x2) := by
  refine tile _ rfl fun hwf w hw => ?_
  obtain ⟨m1, m2, f46, f40, f33, f30, f34, f29, f26, z0⟩ := layout40 (by decide) (by decide) x0.isLt x1.t.isLt (coreOn_lt x1.core) (coreBits_lt x1.core) x2.t.isLt (coreOn_lt x2.core) (coreBits_lt x2.core) (Option.some.inj hw)
  have e1 := src_eq (x := x1) f40 f33 f30
  have e2 := src_eq (x := x2) f34 f29 f26
  rw [decodeTile, m1, m2]
  change finish (fld 0 26 w + srcRsv 33 30 w + srcRsv 29 26 w) false (some (.tmmax (fin 64 46 w) (srcOf 40 33 30 w) (srcOf 34 29 26 w))) = _
  simp only [z0, fin_eq (x := x0) f46, e1.1, e1.2, e2.1, e2.2, Nat.add_zero]
  exact finish_ok _ hwf

theorem gmma x0 x1 x2 x3 : Statement (.gmma x0 x1 x2 x3) := by
  refine tile _ rfl fun hwf w hw => ?_
  obtain ⟨m1, m2, f46, f40, f34, f29, f26, f10, z0, z1, z2, z3⟩ := layout42 (by decide) (by decide) x0.isLt x1.isLt x2.t.isLt (coreOn_lt x2.core) (coreBits_lt x2.core) x3.isLt (Option.some.inj hw)
  have e2 := src_eq (x := x2) f34 f29 f26
  rw [decodeTile, m1, m2]
  change finish (fld 0 10 w + fld 14 12 w + fld 30 3 w + srcRsv 29 26 w) (bit 33 w) (some (.gmma (fin 64 46 w) (fin 64 40 w) (srcOf 34 29 26 w) (fin 16 10 w))) = _
  simp only [z0, z1, z2, fin_eq (x := x0) f46, fin_eq (x := x1) f40, e2.1, e2.2, fin_eq (x := x3) f10, bit_eq (x := false) z3, Nat.add_zero]
  exact finish_ok _ hwf

theorem gmmaPart x0 : Statement (.gmmaPart x0) := wordless _ rfl rfl

theorem tacz x0 : Statement (.tacz x0) := by
  refine tile _ rfl fun hwf w hw => ?_
  obtain ⟨m1, m2, f46, z0⟩ := layout27 (by decide) (by decide) x0.isLt (Option.some.inj hw)
  rw [decodeTile, m1, m2]
  change finish (fld 0 46 w) false (some (.tacz (fin 64 46 w))) = _
  simp only [z0, fin_eq (x := x0) f46]
  exact finish_ok _ hwf

theorem tacv x0 x1 x2 x3 x4 x5 : Statement (.tacv x0 x1 x2 x3 x4 x5) := by
  refine tile _ rfl fun hwf w hw => ?_
  obtain ⟨m1, m2, f46, f40, f14, f20, f19, f24, f23, z0, z1⟩ := layout43 (by decide) (by decide) x0.isLt x1.isLt (Efmt.code_lt x2) (Rnd.code_lt x3) x4.toNat_lt (maskBits_lt x5) (maskOn_lt x5) (Option.some.inj hw)
  have e5 := mask_eq (m := x5) f23 f24
  rw [decodeTile, m1, m2]
  change finish (fld 0 14 w + fld 28 12 w + maskRsv 23 24 w) false ((Efmt.ofCode (fld 14 5 w)).bind fun x2 => (Rnd.ofCode (fld 20 3 w)).bind fun x3 => some (.tacv (fin 64 46 w) (fin 64 40 w) x2 x3 (bit 19 w) (maskOf 23 24 w))) = _
  simp only [z0, z1, fin_eq (x := x0) f46, fin_eq (x := x1) f40, f14, Efmt.ofCode_code, f20, Rnd.ofCode_code, bit_eq f19, e5.1, e5.2, Nat.add_zero, Option.bind_some]
  exact finish_ok _ hwf

theorem tacq x0 x1 x2 x3 x4 x5 : Statement (.tacq x0 x1 x2 x3 x4 x5) := by
  refine tile _ rfl fun hwf w hw => ?_
  obtain ⟨m1, m2, f46, f40, f14, f20, f6, f24, f23, z0, z1, z2, z3⟩ := layout44 (by decide) (by decide) x0.isLt x1.isLt (Efmt.code_lt x2) (Rnd.code_lt x3) x4.toNat_lt (maskBits_lt x5) (maskOn_lt x5) (Option.some.inj hw)
  have e5 := mask_eq (m := x5) f23 f24
  rw [decodeTile, m1, m2]
  change finish (fld 0 6 w + fld 7 7 w + fld 19 1 w + fld 28 12 w + maskRsv 23 24 w) false ((Efmt.ofCode (fld 14 5 w)).bind fun x2 => (Rnd.ofCode (fld 20 3 w)).bind fun x3 => some (.tacq (fin 64 46 w) (fin 64 40 w) x2 x3 (bit 6 w) (maskOf 23 24 w))) = _
  simp only [z0, z1, z2, z3, fin_eq (x := x0) f46, fin_eq (x := x1) f40, f14, Efmt.ofCode_code, f20, Rnd.ofCode_code, bit_eq f6, e5.1, e5.2, Nat.add_zero, Option.bind_some]
  exact finish_ok _ hwf

theorem mslt x0 : Statement (.mslt x0) := by
  refine tile _ rfl fun hwf w hw => ?_
  obtain ⟨m1, m2, f42, z0, z1⟩ := layout45 (by decide) (by decide) x0.isLt (Option.some.inj hw)
  rw [decodeTile, m1, m2]
  change finish (fld 0 42 w + fld 47 5 w) false (some (.mslt (fin 32 42 w))) = _
  simp only [z0, z1, fin_eq (x := x0) f42, Nat.add_zero]
  exact finish_ok _ hwf

theorem tadd x0 x1 x2 x3 x4 x5 : Statement (.tadd x0 x1 x2 x3 x4 x5) := by
  refine tile _ rfl fun hwf w hw => ?_
  obtain ⟨m1, m2, f46, f40, f34, f20, f19, f24, f23, z0, z1⟩ := layout46 (by decide) (by decide) x0.isLt x1.isLt x2.isLt (Rnd.code_lt x3) x4.toNat_lt (maskBits_lt x5) (maskOn_lt x5) (Option.some.inj hw)
  have e5 := mask_eq (m := x5) f23 f24
  rw [decodeTile, m1, m2]
  change finish (fld 0 19 w + fld 28 6 w + maskRsv 23 24 w) false ((Rnd.ofCode (fld 20 3 w)).bind fun x3 => some (.tadd (fin 64 46 w) (fin 64 40 w) (fin 64 34 w) x3 (bit 19 w) (maskOf 23 24 w))) = _
  simp only [z0, z1, fin_eq (x := x0) f46, fin_eq (x := x1) f40, fin_eq (x := x2) f34, f20, Rnd.ofCode_code, bit_eq f19, e5.1, e5.2, Nat.add_zero, Option.bind_some]
  exact finish_ok _ hwf

theorem tsub x0 x1 x2 x3 x4 x5 : Statement (.tsub x0 x1 x2 x3 x4 x5) := by
  refine tile _ rfl fun hwf w hw => ?_
  obtain ⟨m1, m2, f46, f40, f34, f20, f19, f24, f23, z0, z1⟩ := layout46 (by decide) (by decide) x0.isLt x1.isLt x2.isLt (Rnd.code_lt x3) x4.toNat_lt (maskBits_lt x5) (maskOn_lt x5) (Option.some.inj hw)
  have e5 := mask_eq (m := x5) f23 f24
  rw [decodeTile, m1, m2]
  change finish (fld 0 19 w + fld 28 6 w + maskRsv 23 24 w) false ((Rnd.ofCode (fld 20 3 w)).bind fun x3 => some (.tsub (fin 64 46 w) (fin 64 40 w) (fin 64 34 w) x3 (bit 19 w) (maskOf 23 24 w))) = _
  simp only [z0, z1, fin_eq (x := x0) f46, fin_eq (x := x1) f40, fin_eq (x := x2) f34, f20, Rnd.ofCode_code, bit_eq f19, e5.1, e5.2, Nat.add_zero, Option.bind_some]
  exact finish_ok _ hwf

theorem tmul x0 x1 x2 x3 x4 x5 : Statement (.tmul x0 x1 x2 x3 x4 x5) := by
  refine tile _ rfl fun hwf w hw => ?_
  obtain ⟨m1, m2, f46, f40, f34, f20, f19, f24, f23, z0, z1⟩ := layout46 (by decide) (by decide) x0.isLt x1.isLt x2.isLt (Rnd.code_lt x3) x4.toNat_lt (maskBits_lt x5) (maskOn_lt x5) (Option.some.inj hw)
  have e5 := mask_eq (m := x5) f23 f24
  rw [decodeTile, m1, m2]
  change finish (fld 0 19 w + fld 28 6 w + maskRsv 23 24 w) false ((Rnd.ofCode (fld 20 3 w)).bind fun x3 => some (.tmul (fin 64 46 w) (fin 64 40 w) (fin 64 34 w) x3 (bit 19 w) (maskOf 23 24 w))) = _
  simp only [z0, z1, fin_eq (x := x0) f46, fin_eq (x := x1) f40, fin_eq (x := x2) f34, f20, Rnd.ofCode_code, bit_eq f19, e5.1, e5.2, Nat.add_zero, Option.bind_some]
  exact finish_ok _ hwf

theorem tfma x0 x1 x2 x3 x4 x5 x6 : Statement (.tfma x0 x1 x2 x3 x4 x5 x6) := by
  refine tile _ rfl fun hwf w hw => ?_
  obtain ⟨m1, m2, f46, f40, f34, f28, f20, f19, f24, f23, z0⟩ := layout47 (by decide) (by decide) x0.isLt x1.isLt x2.isLt x3.isLt (Rnd.code_lt x4) x5.toNat_lt (maskBits_lt x6) (maskOn_lt x6) (Option.some.inj hw)
  have e6 := mask_eq (m := x6) f23 f24
  rw [decodeTile, m1, m2]
  change finish (fld 0 19 w + maskRsv 23 24 w) false ((Rnd.ofCode (fld 20 3 w)).bind fun x4 => some (.tfma (fin 64 46 w) (fin 64 40 w) (fin 64 34 w) (fin 64 28 w) x4 (bit 19 w) (maskOf 23 24 w))) = _
  simp only [z0, fin_eq (x := x0) f46, fin_eq (x := x1) f40, fin_eq (x := x2) f34, fin_eq (x := x3) f28, f20, Rnd.ofCode_code, bit_eq f19, e6.1, e6.2, Nat.add_zero, Option.bind_some]
  exact finish_ok _ hwf

theorem tmin x0 x1 x2 x3 x4 x5 : Statement (.tmin x0 x1 x2 x3 x4 x5) := by
  refine tile _ rfl fun hwf w hw => ?_
  obtain ⟨m1, m2, f46, f40, f34, f20, f19, f24, f23, z0, z1⟩ := layout46 (by decide) (by decide) x0.isLt x1.isLt x2.isLt (Rnd.code_lt x3) x4.toNat_lt (maskBits_lt x5) (maskOn_lt x5) (Option.some.inj hw)
  have e5 := mask_eq (m := x5) f23 f24
  rw [decodeTile, m1, m2]
  change finish (fld 0 19 w + fld 28 6 w + maskRsv 23 24 w) false ((Rnd.ofCode (fld 20 3 w)).bind fun x3 => some (.tmin (fin 64 46 w) (fin 64 40 w) (fin 64 34 w) x3 (bit 19 w) (maskOf 23 24 w))) = _
  simp only [z0, z1, fin_eq (x := x0) f46, fin_eq (x := x1) f40, fin_eq (x := x2) f34, f20, Rnd.ofCode_code, bit_eq f19, e5.1, e5.2, Nat.add_zero, Option.bind_some]
  exact finish_ok _ hwf

theorem tmax x0 x1 x2 x3 x4 x5 : Statement (.tmax x0 x1 x2 x3 x4 x5) := by
  refine tile _ rfl fun hwf w hw => ?_
  obtain ⟨m1, m2, f46, f40, f34, f20, f19, f24, f23, z0, z1⟩ := layout46 (by decide) (by decide) x0.isLt x1.isLt x2.isLt (Rnd.code_lt x3) x4.toNat_lt (maskBits_lt x5) (maskOn_lt x5) (Option.some.inj hw)
  have e5 := mask_eq (m := x5) f23 f24
  rw [decodeTile, m1, m2]
  change finish (fld 0 19 w + fld 28 6 w + maskRsv 23 24 w) false ((Rnd.ofCode (fld 20 3 w)).bind fun x3 => some (.tmax (fin 64 46 w) (fin 64 40 w) (fin 64 34 w) x3 (bit 19 w) (maskOf 23 24 w))) = _
  simp only [z0, z1, fin_eq (x := x0) f46, fin_eq (x := x1) f40, fin_eq (x := x2) f34, f20, Rnd.ofCode_code, bit_eq f19, e5.1, e5.2, Nat.add_zero, Option.bind_some]
  exact finish_ok _ hwf

theorem tabs x0 x1 x2 x3 : Statement (.tabs x0 x1 x2 x3) := by
  refine tile _ rfl fun hwf w hw => ?_
  obtain ⟨m1, m2, f46, f40, f19, f24, f23, z0, z1, z2⟩ := layout48 (by decide) (by decide) x0.isLt x1.isLt x2.toNat_lt (maskBits_lt x3) (maskOn_lt x3) (Option.some.inj hw)
  have e3 := mask_eq (m := x3) f23 f24
  rw [decodeTile, m1, m2]
  change finish (fld 0 19 w + fld 20 3 w + fld 28 12 w + maskRsv 23 24 w) false (some (.tabs (fin 64 46 w) (fin 64 40 w) (bit 19 w) (maskOf 23 24 w))) = _
  simp only [z0, z1, z2, fin_eq (x := x0) f46, fin_eq (x := x1) f40, bit_eq f19, e3.1, e3.2, Nat.add_zero]
  exact finish_ok _ hwf

theorem tneg x0 x1 x2 x3 : Statement (.tneg x0 x1 x2 x3) := by
  refine tile _ rfl fun hwf w hw => ?_
  obtain ⟨m1, m2, f46, f40, f19, f24, f23, z0, z1, z2⟩ := layout48 (by decide) (by decide) x0.isLt x1.isLt x2.toNat_lt (maskBits_lt x3) (maskOn_lt x3) (Option.some.inj hw)
  have e3 := mask_eq (m := x3) f23 f24
  rw [decodeTile, m1, m2]
  change finish (fld 0 19 w + fld 20 3 w + fld 28 12 w + maskRsv 23 24 w) false (some (.tneg (fin 64 46 w) (fin 64 40 w) (bit 19 w) (maskOf 23 24 w))) = _
  simp only [z0, z1, z2, fin_eq (x := x0) f46, fin_eq (x := x1) f40, bit_eq f19, e3.1, e3.2, Nat.add_zero]
  exact finish_ok _ hwf

theorem tcvt x0 x1 x2 x3 x4 x5 : Statement (.tcvt x0 x1 x2 x3 x4 x5) := by
  refine tile _ rfl fun hwf w hw => ?_
  obtain ⟨m1, m2, f46, f40, f14, f20, f19, f24, f23, z0, z1⟩ := layout43 (by decide) (by decide) x0.isLt x1.isLt (Efmt.code_lt x2) (Rnd.code_lt x3) x4.toNat_lt (maskBits_lt x5) (maskOn_lt x5) (Option.some.inj hw)
  have e5 := mask_eq (m := x5) f23 f24
  rw [decodeTile, m1, m2]
  change finish (fld 0 14 w + fld 28 12 w + maskRsv 23 24 w) false ((Efmt.ofCode (fld 14 5 w)).bind fun x2 => (Rnd.ofCode (fld 20 3 w)).bind fun x3 => some (.tcvt (fin 64 46 w) (fin 64 40 w) x2 x3 (bit 19 w) (maskOf 23 24 w))) = _
  simp only [z0, z1, fin_eq (x := x0) f46, fin_eq (x := x1) f40, f14, Efmt.ofCode_code, f20, Rnd.ofCode_code, bit_eq f19, e5.1, e5.2, Nat.add_zero, Option.bind_some]
  exact finish_ok _ hwf

theorem tcmp x0 x1 x2 x3 x4 x5 : Statement (.tcmp x0 x1 x2 x3 x4 x5) := by
  refine tile _ rfl fun hwf w hw => ?_
  obtain ⟨m1, m2, f46, f40, f34, f14, f6, f24, f23, z0, z1, z2, z3⟩ := layout49 (by decide) (by decide) x0.isLt x1.isLt x2.isLt (Efmt.code_lt x3) x4.isLt (maskBits_lt x5) (maskOn_lt x5) (Option.some.inj hw)
  have e5 := mask_eq (m := x5) f23 f24
  rw [decodeTile, m1, m2]
  change finish (fld 0 6 w + fld 19 4 w + fld 28 6 w + fld 50 2 w + maskRsv 23 24 w) false ((Efmt.ofCode (fld 14 5 w)).bind fun x3 => some (.tcmp (fin 16 46 w) (fin 64 40 w) (fin 64 34 w) x3 (fin 256 6 w) (maskOf 23 24 w))) = _
  simp only [z0, z1, z2, z3, fin_eq (x := x0) f46, fin_eq (x := x1) f40, fin_eq (x := x2) f34, f14, Efmt.ofCode_code, fin_eq (x := x4) f6, e5.1, e5.2, Nat.add_zero, Option.bind_some]
  exact finish_ok _ hwf

theorem tsel x0 x1 x2 x3 : Statement (.tsel x0 x1 x2 x3) := by
  refine tile _ rfl fun hwf w hw => ?_
  obtain ⟨m1, m2, f46, f40, f34, f24, f23, z0, z1⟩ := layout50 (by decide) (by decide) x0.isLt x1.isLt x2.isLt (maskBits_lt x3) (maskOn_lt x3) (Option.some.inj hw)
  have e3 := mask_eq (m := x3) f23 f24
  rw [decodeTile, m1, m2]
  change finish (fld 0 23 w + fld 28 6 w + maskRsv 23 24 w) false (some (.tsel (fin 64 46 w) (fin 64 40 w) (fin 64 34 w) (maskOf 23 24 w))) = _
  simp only [z0, z1, fin_eq (x := x0) f46, fin_eq (x := x1) f40, fin_eq (x := x2) f34, e3.1, e3.2, Nat.add_zero]
  exact finish_ok _ hwf

theorem tand x0 x1 x2 x3 : Statement (.tand x0 x1 x2 x3) := by
  refine tile _ rfl fun hwf w hw => ?_
  obtain ⟨m1, m2, f46, f40, f34, f24, f23, z0, z1⟩ := layout50 (by decide) (by decide) x0.isLt x1.isLt x2.isLt (maskBits_lt x3) (maskOn_lt x3) (Option.some.inj hw)
  have e3 := mask_eq (m := x3) f23 f24
  rw [decodeTile, m1, m2]
  change finish (fld 0 23 w + fld 28 6 w + maskRsv 23 24 w) false (some (.tand (fin 64 46 w) (fin 64 40 w) (fin 64 34 w) (maskOf 23 24 w))) = _
  simp only [z0, z1, fin_eq (x := x0) f46, fin_eq (x := x1) f40, fin_eq (x := x2) f34, e3.1, e3.2, Nat.add_zero]
  exact finish_ok _ hwf

theorem tor x0 x1 x2 x3 : Statement (.tor x0 x1 x2 x3) := by
  refine tile _ rfl fun hwf w hw => ?_
  obtain ⟨m1, m2, f46, f40, f34, f24, f23, z0, z1⟩ := layout50 (by decide) (by decide) x0.isLt x1.isLt x2.isLt (maskBits_lt x3) (maskOn_lt x3) (Option.some.inj hw)
  have e3 := mask_eq (m := x3) f23 f24
  rw [decodeTile, m1, m2]
  change finish (fld 0 23 w + fld 28 6 w + maskRsv 23 24 w) false (some (.tor (fin 64 46 w) (fin 64 40 w) (fin 64 34 w) (maskOf 23 24 w))) = _
  simp only [z0, z1, fin_eq (x := x0) f46, fin_eq (x := x1) f40, fin_eq (x := x2) f34, e3.1, e3.2, Nat.add_zero]
  exact finish_ok _ hwf

theorem txor x0 x1 x2 x3 : Statement (.txor x0 x1 x2 x3) := by
  refine tile _ rfl fun hwf w hw => ?_
  obtain ⟨m1, m2, f46, f40, f34, f24, f23, z0, z1⟩ := layout50 (by decide) (by decide) x0.isLt x1.isLt x2.isLt (maskBits_lt x3) (maskOn_lt x3) (Option.some.inj hw)
  have e3 := mask_eq (m := x3) f23 f24
  rw [decodeTile, m1, m2]
  change finish (fld 0 23 w + fld 28 6 w + maskRsv 23 24 w) false (some (.txor (fin 64 46 w) (fin 64 40 w) (fin 64 34 w) (maskOf 23 24 w))) = _
  simp only [z0, z1, fin_eq (x := x0) f46, fin_eq (x := x1) f40, fin_eq (x := x2) f34, e3.1, e3.2, Nat.add_zero]
  exact finish_ok _ hwf

theorem tnot x0 x1 x2 : Statement (.tnot x0 x1 x2) := by
  refine tile _ rfl fun hwf w hw => ?_
  obtain ⟨m1, m2, f46, f40, f24, f23, z0, z1⟩ := layout30 (by decide) (by decide) x0.isLt x1.isLt (maskBits_lt x2) (maskOn_lt x2) (Option.some.inj hw)
  have e2 := mask_eq (m := x2) f23 f24
  rw [decodeTile, m1, m2]
  change finish (fld 0 23 w + fld 28 12 w + maskRsv 23 24 w) false (some (.tnot (fin 64 46 w) (fin 64 40 w) (maskOf 23 24 w))) = _
  simp only [z0, z1, fin_eq (x := x0) f46, fin_eq (x := x1) f40, e2.1, e2.2, Nat.add_zero]
  exact finish_ok _ hwf

theorem tshl x0 x1 x2 x3 : Statement (.tshl x0 x1 x2 x3) := by
  refine tile _ rfl fun hwf w hw => ?_
  obtain ⟨m1, m2, f46, f40, f6, f24, f23, z0, z1, z2⟩ := layout51 (by decide) (by decide) x0.isLt x1.isLt x2.isLt (maskBits_lt x3) (maskOn_lt x3) (Option.some.inj hw)
  have e3 := mask_eq (m := x3) f23 f24
  rw [decodeTile, m1, m2]
  change finish (fld 0 6 w + fld 14 9 w + fld 28 12 w + maskRsv 23 24 w) false (some (.tshl (fin 64 46 w) (fin 64 40 w) (fin 256 6 w) (maskOf 23 24 w))) = _
  simp only [z0, z1, z2, fin_eq (x := x0) f46, fin_eq (x := x1) f40, fin_eq (x := x2) f6, e3.1, e3.2, Nat.add_zero]
  exact finish_ok _ hwf

theorem tshr x0 x1 x2 x3 : Statement (.tshr x0 x1 x2 x3) := by
  refine tile _ rfl fun hwf w hw => ?_
  obtain ⟨m1, m2, f46, f40, f6, f24, f23, z0, z1, z2⟩ := layout51 (by decide) (by decide) x0.isLt x1.isLt x2.isLt (maskBits_lt x3) (maskOn_lt x3) (Option.some.inj hw)
  have e3 := mask_eq (m := x3) f23 f24
  rw [decodeTile, m1, m2]
  change finish (fld 0 6 w + fld 14 9 w + fld 28 12 w + maskRsv 23 24 w) false (some (.tshr (fin 64 46 w) (fin 64 40 w) (fin 256 6 w) (maskOf 23 24 w))) = _
  simp only [z0, z1, z2, fin_eq (x := x0) f46, fin_eq (x := x1) f40, fin_eq (x := x2) f6, e3.1, e3.2, Nat.add_zero]
  exact finish_ok _ hwf

theorem tbsh x0 x1 x2 x3 : Statement (.tbsh x0 x1 x2 x3) := by
  refine tile _ rfl fun hwf w hw => ?_
  obtain ⟨m1, m2, f46, f40, f34, f24, f23, z0, z1, z2⟩ := layout52 (by decide) (by decide) x0.isLt x1.isLt x2.isLt (maskBits_lt x3) (maskOn_lt x3) (Option.some.inj hw)
  have e3 := mask_eq (m := x3) f23 f24
  rw [decodeTile, m1, m2]
  change finish (fld 0 23 w + fld 28 6 w + fld 39 1 w + maskRsv 23 24 w) false (some (.tbsh (fin 64 46 w) (fin 64 40 w) (fin 32 34 w) (maskOf 23 24 w))) = _
  simp only [z0, z1, z2, fin_eq (x := x0) f46, fin_eq (x := x1) f40, fin_eq (x := x2) f34, e3.1, e3.2, Nat.add_zero]
  exact finish_ok _ hwf

theorem tfsh x0 x1 x2 x3 x4 : Statement (.tfsh x0 x1 x2 x3 x4) := by
  refine tile _ rfl fun hwf w hw => ?_
  obtain ⟨m1, m2, f46, f40, f34, f28, f24, f23, z0, z1⟩ := layout53 (by decide) (by decide) x0.isLt x1.isLt x2.isLt x3.isLt (maskBits_lt x4) (maskOn_lt x4) (Option.some.inj hw)
  have e4 := mask_eq (m := x4) f23 f24
  rw [decodeTile, m1, m2]
  change finish (fld 0 23 w + fld 33 1 w + maskRsv 23 24 w) false (some (.tfsh (fin 64 46 w) (fin 64 40 w) (fin 64 34 w) (fin 32 28 w) (maskOf 23 24 w))) = _
  simp only [z0, z1, fin_eq (x := x0) f46, fin_eq (x := x1) f40, fin_eq (x := x2) f34, fin_eq (x := x3) f28, e4.1, e4.2, Nat.add_zero]
  exact finish_ok _ hwf

theorem trcp x0 x1 x2 : Statement (.trcp x0 x1 x2) := by
  refine tile _ rfl fun hwf w hw => ?_
  obtain ⟨m1, m2, f46, f40, f24, f23, z0, z1⟩ := layout30 (by decide) (by decide) x0.isLt x1.isLt (maskBits_lt x2) (maskOn_lt x2) (Option.some.inj hw)
  have e2 := mask_eq (m := x2) f23 f24
  rw [decodeTile, m1, m2]
  change finish (fld 0 23 w + fld 28 12 w + maskRsv 23 24 w) false (some (.trcp (fin 64 46 w) (fin 64 40 w) (maskOf 23 24 w))) = _
  simp only [z0, z1, fin_eq (x := x0) f46, fin_eq (x := x1) f40, e2.1, e2.2, Nat.add_zero]
  exact finish_ok _ hwf

theorem trsq x0 x1 x2 : Statement (.trsq x0 x1 x2) := by
  refine tile _ rfl fun hwf w hw => ?_
  obtain ⟨m1, m2, f46, f40, f24, f23, z0, z1⟩ := layout30 (by decide) (by decide) x0.isLt x1.isLt (maskBits_lt x2) (maskOn_lt x2) (Option.some.inj hw)
  have e2 := mask_eq (m := x2) f23 f24
  rw [decodeTile, m1, m2]
  change finish (fld 0 23 w + fld 28 12 w + maskRsv 23 24 w) false (some (.trsq (fin 64 46 w) (fin 64 40 w) (maskOf 23 24 w))) = _
  simp only [z0, z1, fin_eq (x := x0) f46, fin_eq (x := x1) f40, e2.1, e2.2, Nat.add_zero]
  exact finish_ok _ hwf

theorem trcpn x0 x1 x2 x3 : Statement (.trcpn x0 x1 x2 x3) := by
  refine tile _ rfl fun hwf w hw => ?_
  obtain ⟨m1, m2, f46, f40, f34, f24, f23, z0, z1⟩ := layout50 (by decide) (by decide) x0.isLt x1.isLt x2.isLt (maskBits_lt x3) (maskOn_lt x3) (Option.some.inj hw)
  have e3 := mask_eq (m := x3) f23 f24
  rw [decodeTile, m1, m2]
  change finish (fld 0 23 w + fld 28 6 w + maskRsv 23 24 w) false (some (.trcpn (fin 64 46 w) (fin 64 40 w) (fin 64 34 w) (maskOf 23 24 w))) = _
  simp only [z0, z1, fin_eq (x := x0) f46, fin_eq (x := x1) f40, fin_eq (x := x2) f34, e3.1, e3.2, Nat.add_zero]
  exact finish_ok _ hwf

theorem trsqn x0 x1 x2 x3 : Statement (.trsqn x0 x1 x2 x3) := by
  refine tile _ rfl fun hwf w hw => ?_
  obtain ⟨m1, m2, f46, f40, f34, f24, f23, z0, z1⟩ := layout50 (by decide) (by decide) x0.isLt x1.isLt x2.isLt (maskBits_lt x3) (maskOn_lt x3) (Option.some.inj hw)
  have e3 := mask_eq (m := x3) f23 f24
  rw [decodeTile, m1, m2]
  change finish (fld 0 23 w + fld 28 6 w + maskRsv 23 24 w) false (some (.trsqn (fin 64 46 w) (fin 64 40 w) (fin 64 34 w) (maskOf 23 24 w))) = _
  simp only [z0, z1, fin_eq (x := x0) f46, fin_eq (x := x1) f40, fin_eq (x := x2) f34, e3.1, e3.2, Nat.add_zero]
  exact finish_ok _ hwf

theorem texp2 x0 x1 x2 : Statement (.texp2 x0 x1 x2) := by
  refine tile _ rfl fun hwf w hw => ?_
  obtain ⟨m1, m2, f46, f40, f24, f23, z0, z1⟩ := layout30 (by decide) (by decide) x0.isLt x1.isLt (maskBits_lt x2) (maskOn_lt x2) (Option.some.inj hw)
  have e2 := mask_eq (m := x2) f23 f24
  rw [decodeTile, m1, m2]
  change finish (fld 0 23 w + fld 28 12 w + maskRsv 23 24 w) false (some (.texp2 (fin 64 46 w) (fin 64 40 w) (maskOf 23 24 w))) = _
  simp only [z0, z1, fin_eq (x := x0) f46, fin_eq (x := x1) f40, e2.1, e2.2, Nat.add_zero]
  exact finish_ok _ hwf

theorem tlog2 x0 x1 x2 : Statement (.tlog2 x0 x1 x2) := by
  refine tile _ rfl fun hwf w hw => ?_
  obtain ⟨m1, m2, f46, f40, f24, f23, z0, z1⟩ := layout30 (by decide) (by decide) x0.isLt x1.isLt (maskBits_lt x2) (maskOn_lt x2) (Option.some.inj hw)
  have e2 := mask_eq (m := x2) f23 f24
  rw [decodeTile, m1, m2]
  change finish (fld 0 23 w + fld 28 12 w + maskRsv 23 24 w) false (some (.tlog2 (fin 64 46 w) (fin 64 40 w) (maskOf 23 24 w))) = _
  simp only [z0, z1, fin_eq (x := x0) f46, fin_eq (x := x1) f40, e2.1, e2.2, Nat.add_zero]
  exact finish_ok _ hwf

theorem tsumr x0 x1 x2 x3 x4 : Statement (.tsumr x0 x1 x2 x3 x4) := by
  refine tile _ rfl fun hwf w hw => ?_
  obtain ⟨m1, m2, f46, f40, f20, f19, f24, f23, z0, z1⟩ := layout54 (by decide) (by decide) x0.isLt x1.isLt (Rnd.code_lt x2) x3.toNat_lt (maskBits_lt x4) (maskOn_lt x4) (Option.some.inj hw)
  have e4 := mask_eq (m := x4) f23 f24
  rw [decodeTile, m1, m2]
  change finish (fld 0 19 w + fld 28 12 w + maskRsv 23 24 w) false ((Rnd.ofCode (fld 20 3 w)).bind fun x2 => some (.tsumr (fin 64 46 w) (fin 64 40 w) x2 (bit 19 w) (maskOf 23 24 w))) = _
  simp only [z0, z1, fin_eq (x := x0) f46, fin_eq (x := x1) f40, f20, Rnd.ofCode_code, bit_eq f19, e4.1, e4.2, Nat.add_zero, Option.bind_some]
  exact finish_ok _ hwf

theorem tmaxr x0 x1 x2 : Statement (.tmaxr x0 x1 x2) := by
  refine tile _ rfl fun hwf w hw => ?_
  obtain ⟨m1, m2, f46, f40, f24, f23, z0, z1⟩ := layout30 (by decide) (by decide) x0.isLt x1.isLt (maskBits_lt x2) (maskOn_lt x2) (Option.some.inj hw)
  have e2 := mask_eq (m := x2) f23 f24
  rw [decodeTile, m1, m2]
  change finish (fld 0 23 w + fld 28 12 w + maskRsv 23 24 w) false (some (.tmaxr (fin 64 46 w) (fin 64 40 w) (maskOf 23 24 w))) = _
  simp only [z0, z1, fin_eq (x := x0) f46, fin_eq (x := x1) f40, e2.1, e2.2, Nat.add_zero]
  exact finish_ok _ hwf

theorem topk x0 x1 x2 x3 x4 : Statement (.topk x0 x1 x2 x3 x4) := by
  refine tile _ rfl fun hwf w hw => ?_
  obtain ⟨m1, m2, f46, f28, f40, f6, f24, f23, z0, z1, z2⟩ := layout55 (by decide) (by decide) x0.isLt x1.isLt x2.isLt x3.isLt (maskBits_lt x4) (maskOn_lt x4) (Option.some.inj hw)
  have e4 := mask_eq (m := x4) f23 f24
  rw [decodeTile, m1, m2]
  change finish (fld 0 6 w + fld 14 9 w + fld 34 6 w + maskRsv 23 24 w) false (some (.topk (fin 64 46 w) (fin 64 28 w) (fin 64 40 w) (fin 256 6 w) (maskOf 23 24 w))) = _
  simp only [z0, z1, z2, fin_eq (x := x0) f46, fin_eq (x := x1) f28, fin_eq (x := x2) f40, fin_eq (x := x3) f6, e4.1, e4.2, Nat.add_zero]
  exact finish_ok _ hwf

theorem tsortr x0 x1 x2 x3 : Statement (.tsortr x0 x1 x2 x3) := by
  refine tile _ rfl fun hwf w hw => ?_
  have b0 := x0.isLt
  have b1 := x1.isLt
  have b3 := x3.toNat_lt
  cases x2 with
  | none =>
    replace hw : word 0x53 3 [(46, x0.val), (40, x1.val), (6, x3.toNat)] = w := Option.some.inj hw
    simp only [word, packFields, Nat.reducePow, Nat.reduceMul] at hw
    have m1 : fld 57 7 w = 0x53 := by simp only [fld, Nat.reducePow]; omega
    have m2 : fld 52 5 w = 3 := by simp only [fld, Nat.reducePow]; omega
    have r0 : fld 0 6 w = 0 := by simp only [fld, Nat.reducePow]; omega
    have r1 : fld 14 9 w = 0 := by simp only [fld, Nat.reducePow]; omega
    have r2 : fld 24 4 w = 0 := by simp only [fld, Nat.reducePow]; omega
    have r3 : fld 34 6 w = 0 := by simp only [fld, Nat.reducePow]; omega
    have r4 : fld 8 6 w = 0 := by simp only [fld, Nat.reducePow]; omega
    have r5 : fld 28 6 w = 0 := by simp only [fld, Nat.reducePow]; omega
    have s0 : bit 23 w = false := bit_eq (x := false) (by simp only [Nat.reducePow, Bool.toNat_false]; omega)
    have s1 : bit 7 w = false := bit_eq (x := false) (by simp only [Nat.reducePow, Bool.toNat_false]; omega)
    have e0 : fin 64 46 w = x0 := fin_eq (by simp only [Nat.reducePow]; omega)
    have e1 : fin 64 40 w = x1 := fin_eq (by simp only [Nat.reducePow]; omega)
    have e3 : bit 6 w = x3 := bit_eq (by simp only [Nat.reducePow]; omega)
    rw [decodeTile, m1, m2]
    change decTsortr w = _
    simp only [decTsortr, r0, r1, r2, r3, r4, r5, s0, s1, e0, e1, e3, Nat.add_zero, bne_self_eq_false, Bool.or_self,
      Bool.false_eq_true, if_false]
    exact finish_ok _ hwf
  | some tc =>
    replace hw : word 0x53 3 [(46, x0.val), (40, x1.val), (28, tc.val), (7, 1), (6, x3.toNat)] = w := Option.some.inj hw
    simp only [word, packFields, Nat.reducePow, Nat.reduceMul] at hw
    have b2 := tc.isLt
    have m1 : fld 57 7 w = 0x53 := by simp only [fld, Nat.reducePow]; omega
    have m2 : fld 52 5 w = 3 := by simp only [fld, Nat.reducePow]; omega
    have r0 : fld 0 6 w = 0 := by simp only [fld, Nat.reducePow]; omega
    have r1 : fld 14 9 w = 0 := by simp only [fld, Nat.reducePow]; omega
    have r2 : fld 24 4 w = 0 := by simp only [fld, Nat.reducePow]; omega
    have r3 : fld 34 6 w = 0 := by simp only [fld, Nat.reducePow]; omega
    have r4 : fld 8 6 w = 0 := by simp only [fld, Nat.reducePow]; omega
    have s0 : bit 23 w = false := bit_eq (x := false) (by simp only [Nat.reducePow, Bool.toNat_false]; omega)
    have s1 : bit 7 w = true := bit_eq (x := true) (by simp only [Nat.reducePow, Bool.toNat_true]; omega)
    have e0 : fin 64 46 w = x0 := fin_eq (by simp only [Nat.reducePow]; omega)
    have e1 : fin 64 40 w = x1 := fin_eq (by simp only [Nat.reducePow]; omega)
    have e2 : fin 64 28 w = tc := fin_eq (by simp only [Nat.reducePow]; omega)
    have e3 : bit 6 w = x3 := bit_eq (by simp only [Nat.reducePow]; omega)
    rw [decodeTile, m1, m2]
    change decTsortr w = _
    simp only [decTsortr, r0, r1, r2, r3, r4, s0, s1, e0, e1, e2, e3, Nat.add_zero, bne_self_eq_false, Bool.or_self, if_true]
    exact finish_ok _ hwf

theorem tscanr x0 x1 x2 x3 x4 : Statement (.tscanr x0 x1 x2 x3 x4) := by
  refine tile _ rfl fun hwf w hw => ?_
  replace hw : word 0x53 4 [(46, x0.val), (40, x1.val), (20, x3.code), (19, x4.toNat), (6, x2.code)] = w := Option.some.inj hw
  simp only [word, packFields, Nat.reducePow, Nat.reduceMul] at hw
  have b0 := x0.isLt
  have b1 := x1.isLt
  have b3 := Rnd.code_lt x3
  have b4 := x4.toNat_lt
  have b2 : x2.code < 3 := by cases x2 <;> decide
  have m1 : fld 57 7 w = 0x53 := by simp only [fld, Nat.reducePow]; omega
  have m2 : fld 52 5 w = 4 := by simp only [fld, Nat.reducePow]; omega
  have r0 : fld 0 6 w = 0 := by simp only [fld, Nat.reducePow]; omega
  have r1 : fld 8 11 w = 0 := by simp only [fld, Nat.reducePow]; omega
  have r2 : fld 24 16 w = 0 := by simp only [fld, Nat.reducePow]; omega
  have s0 : bit 23 w = false := bit_eq (x := false) (by simp only [Nat.reducePow, Bool.toNat_false]; omega)
  have k : fld 6 2 w = x2.code := by simp only [fld, Nat.reducePow]; omega
  have e0 : fin 64 46 w = x0 := fin_eq (by simp only [Nat.reducePow]; omega)
  have e1 : fin 64 40 w = x1 := fin_eq (by simp only [Nat.reducePow]; omega)
  have e3 : fld 20 3 w = x3.code := by simp only [fld, Nat.reducePow]; omega
  have e4 : bit 19 w = x4 := bit_eq (by simp only [Nat.reducePow]; omega)
  rw [decodeTile, m1, m2]
  change decTscanr w = _
  simp only [decTscanr, r0, r1, r2, s0, k, e0, e1, e3, e4, Rnd.ofCode_code, Nat.add_zero, Option.bind_some]
  cases x2 <;> exact finish_ok _ hwf

theorem tperm x0 x1 x2 x3 x4 : Statement (.tperm x0 x1 x2 x3 x4) := by
  refine tile _ rfl fun hwf w hw => ?_
  obtain ⟨m1, m2, f46, f40, f34, f6, f24, f23, z0, z1, z2, z3⟩ := layout56 (by decide) (by decide) x0.isLt x1.isLt x2.isLt x3.toNat_lt (maskBits_lt x4) (maskOn_lt x4) (Option.some.inj hw)
  have e4 := mask_eq (m := x4) f23 f24
  rw [decodeTile, m1, m2]
  change finish (fld 0 6 w + fld 14 9 w + fld 28 6 w + maskRsv 23 24 w) (fld 7 7 w != 0) (some (.tperm (fin 64 46 w) (fin 64 40 w) (fin 64 34 w) (bit 6 w) (maskOf 23 24 w))) = _
  simp only [z0, z1, z2, fin_eq (x := x0) f46, fin_eq (x := x1) f40, fin_eq (x := x2) f34, bit_eq f6, e4.1, e4.2, z3, Nat.add_zero, bne_self_eq_false]
  exact finish_ok _ hwf

theorem tbcast x0 x1 x2 x3 : Statement (.tbcast x0 x1 x2 x3) := by
  refine tile _ rfl fun hwf w hw => ?_
  obtain ⟨m1, m2, f46, f40, f6, f24, f23, z0, z1, z2, z3⟩ := layout57 (by decide) (by decide) x0.isLt x1.isLt x2.toNat_lt (maskBits_lt x3) (maskOn_lt x3) (Option.some.inj hw)
  have e3 := mask_eq (m := x3) f23 f24
  rw [decodeTile, m1, m2]
  change finish (fld 0 6 w + fld 14 9 w + fld 28 12 w + maskRsv 23 24 w) (fld 7 7 w != 0) (some (.tbcast (fin 64 46 w) (fin 64 40 w) (bit 6 w) (maskOf 23 24 w))) = _
  simp only [z0, z1, z2, fin_eq (x := x0) f46, fin_eq (x := x1) f40, bit_eq f6, e3.1, e3.2, z3, Nat.add_zero, bne_self_eq_false]
  exact finish_ok _ hwf

theorem mand x0 x1 x2 : Statement (.mand x0 x1 x2) := by
  refine tile _ rfl fun hwf w hw => ?_
  obtain ⟨m1, m2, f46, f40, f34, z0, z1, z2, z3⟩ := layout58 (by decide) (by decide) x0.isLt x1.isLt x2.isLt (Option.some.inj hw)
  rw [decodeTile, m1, m2]
  change finish (fld 0 34 w + fld 38 2 w + fld 44 2 w + fld 50 2 w) false (some (.mand (fin 16 46 w) (fin 16 40 w) (fin 16 34 w))) = _
  simp only [z0, z1, z2, z3, fin_eq (x := x0) f46, fin_eq (x := x1) f40, fin_eq (x := x2) f34, Nat.add_zero]
  exact finish_ok _ hwf

theorem mor x0 x1 x2 : Statement (.mor x0 x1 x2) := by
  refine tile _ rfl fun hwf w hw => ?_
  obtain ⟨m1, m2, f46, f40, f34, z0, z1, z2, z3⟩ := layout58 (by decide) (by decide) x0.isLt x1.isLt x2.isLt (Option.some.inj hw)
  rw [decodeTile, m1, m2]
  change finish (fld 0 34 w + fld 38 2 w + fld 44 2 w + fld 50 2 w) false (some (.mor (fin 16 46 w) (fin 16 40 w) (fin 16 34 w))) = _
  simp only [z0, z1, z2, z3, fin_eq (x := x0) f46, fin_eq (x := x1) f40, fin_eq (x := x2) f34, Nat.add_zero]
  exact finish_ok _ hwf

theorem mnot x0 x1 : Statement (.mnot x0 x1) := by
  refine tile _ rfl fun hwf w hw => ?_
  obtain ⟨m1, m2, f46, f40, z0, z1, z2⟩ := layout59 (by decide) (by decide) x0.isLt x1.isLt (Option.some.inj hw)
  rw [decodeTile, m1, m2]
  change finish (fld 0 40 w + fld 44 2 w + fld 50 2 w) false (some (.mnot (fin 16 46 w) (fin 16 40 w))) = _
  simp only [z0, z1, z2, fin_eq (x := x0) f46, fin_eq (x := x1) f40, Nat.add_zero]
  exact finish_ok _ hwf

theorem mcnt x0 x1 : Statement (.mcnt x0 x1) := by
  refine tile _ rfl fun hwf w hw => ?_
  obtain ⟨m1, m2, f46, f40, z0, z1, z2⟩ := layout60 (by decide) (by decide) x0.isLt x1.isLt (Option.some.inj hw)
  rw [decodeTile, m1, m2]
  change finish (fld 0 40 w + fld 44 2 w + fld 51 1 w) false (some (.mcnt (fin 32 46 w) (fin 16 40 w))) = _
  simp only [z0, z1, z2, fin_eq (x := x0) f46, fin_eq (x := x1) f40, Nat.add_zero]
  exact finish_ok _ hwf

theorem map x0 x2 x3 x4 : Statement (.map x0 x2 x3 x4) := by
  refine tile _ rfl fun hwf w hw => ?_
  have b0 := x0.isLt
  have b2 := x2.isLt
  have b4 := maskBits_lt x4
  have b5 := maskOn_lt x4
  cases x3 with
  | i1 a =>
    replace hw : word 0x54 0 [(46, x0.val), (37, x2.val), (0, insBits (.i1 a)), (10, maskOn x4), (6, maskBits x4)] = w := Option.some.inj hw
    simp only [word, packFields, insBits, Nat.reducePow, Nat.reduceMul] at hw
    have ba := a.isLt
    have m1 : fld 57 7 w = 0x54 := by simp only [fld, Nat.reducePow]; omega
    have m2 : fld 52 5 w = 0 := by simp only [fld, Nat.reducePow]; omega
    have n0 : fld 11 2 w = 0 := by simp only [fld, Nat.reducePow]; omega
    have r0 : fld 13 18 w = 0 := by simp only [fld, Nat.reducePow]; omega
    have r1 : fld 0 6 w = 0 := by simp only [fld, Nat.reducePow]; omega
    have e0 : fin 64 46 w = x0 := fin_eq (by simp only [Nat.reducePow]; omega)
    have e2 : fin 512 37 w = x2 := fin_eq (by simp only [Nat.reducePow]; omega)
    have e4 := mask_eq (lk := 10) (lm := 6) (w := w) (m := x4) (by simp only [Nat.reducePow]; omega) (by simp only [Nat.reducePow]; omega)
    have ea : fin 64 31 w = a := fin_eq (by simp only [Nat.reducePow]; omega)
    rw [decodeTile, m1, m2]
    change decMap false false w (fun td _ fn ins m => .map td fn ins m) = _
    simp only [decMap, n0, r0, r1, e0, e2, e4.1, e4.2, ea, Nat.add_zero, if_false, Bool.false_eq_true]
    exact finish_ok _ hwf
  | i2 a b =>
    replace hw : word 0x54 0 [(46, x0.val), (37, x2.val), (0, insBits (.i2 a b)), (10, maskOn x4), (6, maskBits x4)] = w := Option.some.inj hw
    simp only [word, packFields, insBits, Nat.reducePow, Nat.reduceMul] at hw
    have ba := a.isLt
    have bb := b.isLt
    have m1 : fld 57 7 w = 0x54 := by simp only [fld, Nat.reducePow]; omega
    have m2 : fld 52 5 w = 0 := by simp only [fld, Nat.reducePow]; omega
    have n0 : fld 11 2 w = 1 := by simp only [fld, Nat.reducePow]; omega
    have r0 : fld 13 12 w = 0 := by simp only [fld, Nat.reducePow]; omega
    have r1 : fld 0 6 w = 0 := by simp only [fld, Nat.reducePow]; omega
    have e0 : fin 64 46 w = x0 := fin_eq (by simp only [Nat.reducePow]; omega)
    have e2 : fin 512 37 w = x2 := fin_eq (by simp only [Nat.reducePow]; omega)
    have e4 := mask_eq (lk := 10) (lm := 6) (w := w) (m := x4) (by simp only [Nat.reducePow]; omega) (by simp only [Nat.reducePow]; omega)
    have ea : fin 64 31 w = a := fin_eq (by simp only [Nat.reducePow]; omega)
    have eb : fin 64 25 w = b := fin_eq (by simp only [Nat.reducePow]; omega)
    rw [decodeTile, m1, m2]
    change decMap false false w (fun td _ fn ins m => .map td fn ins m) = _
    simp only [decMap, n0, r0, r1, e0, e2, e4.1, e4.2, ea, eb, Nat.add_zero, if_false, Bool.false_eq_true]
    exact finish_ok _ hwf
  | i3 a b c =>
    replace hw : word 0x54 0 [(46, x0.val), (37, x2.val), (0, insBits (.i3 a b c)), (10, maskOn x4), (6, maskBits x4)] = w := Option.some.inj hw
    simp only [word, packFields, insBits, Nat.reducePow, Nat.reduceMul] at hw
    have ba := a.isLt
    have bb := b.isLt
    have bc := c.isLt
    have m1 : fld 57 7 w = 0x54 := by simp only [fld, Nat.reducePow]; omega
    have m2 : fld 52 5 w = 0 := by simp only [fld, Nat.reducePow]; omega
    have n0 : fld 11 2 w = 2 := by simp only [fld, Nat.reducePow]; omega
    have r0 : fld 13 6 w = 0 := by simp only [fld, Nat.reducePow]; omega
    have r1 : fld 0 6 w = 0 := by simp only [fld, Nat.reducePow]; omega
    have e0 : fin 64 46 w = x0 := fin_eq (by simp only [Nat.reducePow]; omega)
    have e2 : fin 512 37 w = x2 := fin_eq (by simp only [Nat.reducePow]; omega)
    have e4 := mask_eq (lk := 10) (lm := 6) (w := w) (m := x4) (by simp only [Nat.reducePow]; omega) (by simp only [Nat.reducePow]; omega)
    have ea : fin 64 31 w = a := fin_eq (by simp only [Nat.reducePow]; omega)
    have eb : fin 64 25 w = b := fin_eq (by simp only [Nat.reducePow]; omega)
    have ec : fin 64 19 w = c := fin_eq (by simp only [Nat.reducePow]; omega)
    rw [decodeTile, m1, m2]
    change decMap false false w (fun td _ fn ins m => .map td fn ins m) = _
    simp only [decMap, n0, r0, r1, e0, e2, e4.1, e4.2, ea, eb, ec, Nat.add_zero, if_false, Bool.false_eq_true]
    exact finish_ok _ hwf
  | i4 a b c d =>
    replace hw : word 0x54 0 [(46, x0.val), (37, x2.val), (0, insBits (.i4 a b c d)), (10, maskOn x4), (6, maskBits x4)] = w := Option.some.inj hw
    simp only [word, packFields, insBits, Nat.reducePow, Nat.reduceMul] at hw
    have ba := a.isLt
    have bb := b.isLt
    have bc := c.isLt
    have bd := d.isLt
    have m1 : fld 57 7 w = 0x54 := by simp only [fld, Nat.reducePow]; omega
    have m2 : fld 52 5 w = 0 := by simp only [fld, Nat.reducePow]; omega
    have n0 : fld 11 2 w = 3 := by simp only [fld, Nat.reducePow]; omega
    have r1 : fld 0 6 w = 0 := by simp only [fld, Nat.reducePow]; omega
    have e0 : fin 64 46 w = x0 := fin_eq (by simp only [Nat.reducePow]; omega)
    have e2 : fin 512 37 w = x2 := fin_eq (by simp only [Nat.reducePow]; omega)
    have e4 := mask_eq (lk := 10) (lm := 6) (w := w) (m := x4) (by simp only [Nat.reducePow]; omega) (by simp only [Nat.reducePow]; omega)
    have ea : fin 64 31 w = a := fin_eq (by simp only [Nat.reducePow]; omega)
    have eb : fin 64 25 w = b := fin_eq (by simp only [Nat.reducePow]; omega)
    have ec : fin 64 19 w = c := fin_eq (by simp only [Nat.reducePow]; omega)
    have ed : fin 64 13 w = d := fin_eq (by simp only [Nat.reducePow]; omega)
    rw [decodeTile, m1, m2]
    change decMap false false w (fun td _ fn ins m => .map td fn ins m) = _
    simp only [decMap, n0, r1, e0, e2, e4.1, e4.2, ea, eb, ec, ed, Nat.add_zero, if_false, Bool.false_eq_true]
    exact finish_ok _ hwf

theorem map2 x0 x1 x2 x3 x4 : Statement (.map2 x0 x1 x2 x3 x4) := by
  refine tile _ rfl fun hwf w hw => ?_
  have b0 := x0.isLt
  have b2 := x2.isLt
  have b4 := maskBits_lt x4
  have b5 := maskOn_lt x4
  have b1 := x1.isLt
  cases x3 with
  | i1 a =>
    replace hw : word 0x54 1 [(46, x0.val), (37, x2.val), (0, insBits (.i1 a)), (10, maskOn x4), (6, maskBits x4), (0, x1.val)] = w := Option.some.inj hw
    simp only [word, packFields, insBits, Nat.reducePow, Nat.reduceMul] at hw
    have ba := a.isLt
    have m1 : fld 57 7 w = 0x54 := by simp only [fld, Nat.reducePow]; omega
    have m2 : fld 52 5 w = 1 := by simp only [fld, Nat.reducePow]; omega
    have n0 : fld 11 2 w = 0 := by simp only [fld, Nat.reducePow]; omega
    have r0 : fld 13 18 w = 0 := by simp only [fld, Nat.reducePow]; omega
    have e0 : fin 64 46 w = x0 := fin_eq (by simp only [Nat.reducePow]; omega)
    have e1 : fin 64 0 w = x1 := fin_eq (by simp only [Nat.reducePow]; omega)
    have e2 : fin 512 37 w = x2 := fin_eq (by simp only [Nat.reducePow]; omega)
    have e4 := mask_eq (lk := 10) (lm := 6) (w := w) (m := x4) (by simp only [Nat.reducePow]; omega) (by simp only [Nat.reducePow]; omega)
    have ea : fin 64 31 w = a := fin_eq (by simp only [Nat.reducePow]; omega)
    rw [decodeTile, m1, m2]
    change decMap true false w (fun td td2 fn ins m => .map2 td td2 fn ins m) = _
    simp only [decMap, n0, r0, e0, e1, e2, e4.1, e4.2, ea, Nat.add_zero, if_true]
    exact finish_ok _ hwf
  | i2 a b =>
    replace hw : word 0x54 1 [(46, x0.val), (37, x2.val), (0, insBits (.i2 a b)), (10, maskOn x4), (6, maskBits x4), (0, x1.val)] = w := Option.some.inj hw
    simp only [word, packFields, insBits, Nat.reducePow, Nat.reduceMul] at hw
    have ba := a.isLt
    have bb := b.isLt
    have m1 : fld 57 7 w = 0x54 := by simp only [fld, Nat.reducePow]; omega
    have m2 : fld 52 5 w = 1 := by simp only [fld, Nat.reducePow]; omega
    have n0 : fld 11 2 w = 1 := by simp only [fld, Nat.reducePow]; omega
    have r0 : fld 13 12 w = 0 := by simp only [fld, Nat.reducePow]; omega
    have e0 : fin 64 46 w = x0 := fin_eq (by simp only [Nat.reducePow]; omega)
    have e1 : fin 64 0 w = x1 := fin_eq (by simp only [Nat.reducePow]; omega)
    have e2 : fin 512 37 w = x2 := fin_eq (by simp only [Nat.reducePow]; omega)
    have e4 := mask_eq (lk := 10) (lm := 6) (w := w) (m := x4) (by simp only [Nat.reducePow]; omega) (by simp only [Nat.reducePow]; omega)
    have ea : fin 64 31 w = a := fin_eq (by simp only [Nat.reducePow]; omega)
    have eb : fin 64 25 w = b := fin_eq (by simp only [Nat.reducePow]; omega)
    rw [decodeTile, m1, m2]
    change decMap true false w (fun td td2 fn ins m => .map2 td td2 fn ins m) = _
    simp only [decMap, n0, r0, e0, e1, e2, e4.1, e4.2, ea, eb, Nat.add_zero, if_true]
    exact finish_ok _ hwf
  | i3 a b c =>
    replace hw : word 0x54 1 [(46, x0.val), (37, x2.val), (0, insBits (.i3 a b c)), (10, maskOn x4), (6, maskBits x4), (0, x1.val)] = w := Option.some.inj hw
    simp only [word, packFields, insBits, Nat.reducePow, Nat.reduceMul] at hw
    have ba := a.isLt
    have bb := b.isLt
    have bc := c.isLt
    have m1 : fld 57 7 w = 0x54 := by simp only [fld, Nat.reducePow]; omega
    have m2 : fld 52 5 w = 1 := by simp only [fld, Nat.reducePow]; omega
    have n0 : fld 11 2 w = 2 := by simp only [fld, Nat.reducePow]; omega
    have r0 : fld 13 6 w = 0 := by simp only [fld, Nat.reducePow]; omega
    have e0 : fin 64 46 w = x0 := fin_eq (by simp only [Nat.reducePow]; omega)
    have e1 : fin 64 0 w = x1 := fin_eq (by simp only [Nat.reducePow]; omega)
    have e2 : fin 512 37 w = x2 := fin_eq (by simp only [Nat.reducePow]; omega)
    have e4 := mask_eq (lk := 10) (lm := 6) (w := w) (m := x4) (by simp only [Nat.reducePow]; omega) (by simp only [Nat.reducePow]; omega)
    have ea : fin 64 31 w = a := fin_eq (by simp only [Nat.reducePow]; omega)
    have eb : fin 64 25 w = b := fin_eq (by simp only [Nat.reducePow]; omega)
    have ec : fin 64 19 w = c := fin_eq (by simp only [Nat.reducePow]; omega)
    rw [decodeTile, m1, m2]
    change decMap true false w (fun td td2 fn ins m => .map2 td td2 fn ins m) = _
    simp only [decMap, n0, r0, e0, e1, e2, e4.1, e4.2, ea, eb, ec, Nat.add_zero, if_true]
    exact finish_ok _ hwf
  | i4 a b c d =>
    replace hw : word 0x54 1 [(46, x0.val), (37, x2.val), (0, insBits (.i4 a b c d)), (10, maskOn x4), (6, maskBits x4), (0, x1.val)] = w := Option.some.inj hw
    simp only [word, packFields, insBits, Nat.reducePow, Nat.reduceMul] at hw
    have ba := a.isLt
    have bb := b.isLt
    have bc := c.isLt
    have bd := d.isLt
    have m1 : fld 57 7 w = 0x54 := by simp only [fld, Nat.reducePow]; omega
    have m2 : fld 52 5 w = 1 := by simp only [fld, Nat.reducePow]; omega
    have n0 : fld 11 2 w = 3 := by simp only [fld, Nat.reducePow]; omega
    have e0 : fin 64 46 w = x0 := fin_eq (by simp only [Nat.reducePow]; omega)
    have e1 : fin 64 0 w = x1 := fin_eq (by simp only [Nat.reducePow]; omega)
    have e2 : fin 512 37 w = x2 := fin_eq (by simp only [Nat.reducePow]; omega)
    have e4 := mask_eq (lk := 10) (lm := 6) (w := w) (m := x4) (by simp only [Nat.reducePow]; omega) (by simp only [Nat.reducePow]; omega)
    have ea : fin 64 31 w = a := fin_eq (by simp only [Nat.reducePow]; omega)
    have eb : fin 64 25 w = b := fin_eq (by simp only [Nat.reducePow]; omega)
    have ec : fin 64 19 w = c := fin_eq (by simp only [Nat.reducePow]; omega)
    have ed : fin 64 13 w = d := fin_eq (by simp only [Nat.reducePow]; omega)
    rw [decodeTile, m1, m2]
    change decMap true false w (fun td td2 fn ins m => .map2 td td2 fn ins m) = _
    simp only [decMap, n0, e0, e1, e2, e4.1, e4.2, ea, eb, ec, ed, Nat.add_zero, if_true]
    exact finish_ok _ hwf

theorem reduce x0 x2 x3 x4 : Statement (.reduce x0 x2 x3 x4) := by
  refine tile _ rfl fun hwf w hw => ?_
  have b0 := x0.isLt
  have b2 := x2.isLt
  have b4 := maskBits_lt x4
  have b5 := maskOn_lt x4
  cases x3 with
  | i1 a =>
    replace hw : word 0x54 2 [(46, x0.val), (37, x2.val), (0, insBits (.i1 a)), (10, maskOn x4), (6, maskBits x4)] = w := Option.some.inj hw
    simp only [word, packFields, insBits, Nat.reducePow, Nat.reduceMul] at hw
    have ba := a.isLt
    have m1 : fld 57 7 w = 0x54 := by simp only [fld, Nat.reducePow]; omega
    have m2 : fld 52 5 w = 2 := by simp only [fld, Nat.reducePow]; omega
    have n0 : fld 11 2 w = 0 := by simp only [fld, Nat.reducePow]; omega
    have r0 : fld 13 18 w = 0 := by simp only [fld, Nat.reducePow]; omega
    have r1 : fld 0 6 w = 0 := by simp only [fld, Nat.reducePow]; omega
    have e0 : fin 64 46 w = x0 := fin_eq (by simp only [Nat.reducePow]; omega)
    have e2 : fin 512 37 w = x2 := fin_eq (by simp only [Nat.reducePow]; omega)
    have e4 := mask_eq (lk := 10) (lm := 6) (w := w) (m := x4) (by simp only [Nat.reducePow]; omega) (by simp only [Nat.reducePow]; omega)
    have ea : fin 64 31 w = a := fin_eq (by simp only [Nat.reducePow]; omega)
    rw [decodeTile, m1, m2]
    change decMap false true w (fun td _ fn ins m => .reduce td fn ins m) = _
    simp only [decMap, n0, r0, r1, e0, e2, e4.1, e4.2, ea, Nat.add_zero, if_false, Bool.false_eq_true]
    exact finish_ok _ hwf
  | i2 a b =>
    replace hw : word 0x54 2 [(46, x0.val), (37, x2.val), (0, insBits (.i2 a b)), (10, maskOn x4), (6, maskBits x4)] = w := Option.some.inj hw
    simp only [word, packFields, insBits, Nat.reducePow, Nat.reduceMul] at hw
    have ba := a.isLt
    have bb := b.isLt
    have m1 : fld 57 7 w = 0x54 := by simp only [fld, Nat.reducePow]; omega
    have m2 : fld 52 5 w = 2 := by simp only [fld, Nat.reducePow]; omega
    have n0 : fld 11 2 w = 1 := by simp only [fld, Nat.reducePow]; omega
    have r0 : fld 13 12 w = 0 := by simp only [fld, Nat.reducePow]; omega
    have r1 : fld 0 6 w = 0 := by simp only [fld, Nat.reducePow]; omega
    have e0 : fin 64 46 w = x0 := fin_eq (by simp only [Nat.reducePow]; omega)
    have e2 : fin 512 37 w = x2 := fin_eq (by simp only [Nat.reducePow]; omega)
    have e4 := mask_eq (lk := 10) (lm := 6) (w := w) (m := x4) (by simp only [Nat.reducePow]; omega) (by simp only [Nat.reducePow]; omega)
    have ea : fin 64 31 w = a := fin_eq (by simp only [Nat.reducePow]; omega)
    have eb : fin 64 25 w = b := fin_eq (by simp only [Nat.reducePow]; omega)
    rw [decodeTile, m1, m2]
    change decMap false true w (fun td _ fn ins m => .reduce td fn ins m) = _
    simp only [decMap, n0, r0, r1, e0, e2, e4.1, e4.2, ea, eb, Nat.add_zero, if_false, Bool.false_eq_true]
    exact finish_ok _ hwf
  | i3 a b c =>
    simp [Instr.wellFormed, Instr.limitsKept] at hwf
  | i4 a b c d =>
    simp [Instr.wellFormed, Instr.limitsKept] at hwf

theorem reduce2 x0 x1 x2 x3 x4 : Statement (.reduce2 x0 x1 x2 x3 x4) := by
  refine tile _ rfl fun hwf w hw => ?_
  have b0 := x0.isLt
  have b2 := x2.isLt
  have b4 := maskBits_lt x4
  have b5 := maskOn_lt x4
  have b1 := x1.isLt
  cases x3 with
  | i1 a =>
    replace hw : word 0x54 3 [(46, x0.val), (37, x2.val), (0, insBits (.i1 a)), (10, maskOn x4), (6, maskBits x4), (0, x1.val)] = w := Option.some.inj hw
    simp only [word, packFields, insBits, Nat.reducePow, Nat.reduceMul] at hw
    have ba := a.isLt
    have m1 : fld 57 7 w = 0x54 := by simp only [fld, Nat.reducePow]; omega
    have m2 : fld 52 5 w = 3 := by simp only [fld, Nat.reducePow]; omega
    have n0 : fld 11 2 w = 0 := by simp only [fld, Nat.reducePow]; omega
    have r0 : fld 13 18 w = 0 := by simp only [fld, Nat.reducePow]; omega
    have e0 : fin 64 46 w = x0 := fin_eq (by simp only [Nat.reducePow]; omega)
    have e1 : fin 64 0 w = x1 := fin_eq (by simp only [Nat.reducePow]; omega)
    have e2 : fin 512 37 w = x2 := fin_eq (by simp only [Nat.reducePow]; omega)
    have e4 := mask_eq (lk := 10) (lm := 6) (w := w) (m := x4) (by simp only [Nat.reducePow]; omega) (by simp only [Nat.reducePow]; omega)
    have ea : fin 64 31 w = a := fin_eq (by simp only [Nat.reducePow]; omega)
    rw [decodeTile, m1, m2]
    change decMap true true w (fun td td2 fn ins m => .reduce2 td td2 fn ins m) = _
    simp only [decMap, n0, r0, e0, e1, e2, e4.1, e4.2, ea, Nat.add_zero, if_true]
    exact finish_ok _ hwf
  | i2 a b =>
    replace hw : word 0x54 3 [(46, x0.val), (37, x2.val), (0, insBits (.i2 a b)), (10, maskOn x4), (6, maskBits x4), (0, x1.val)] = w := Option.some.inj hw
    simp only [word, packFields, insBits, Nat.reducePow, Nat.reduceMul] at hw
    have ba := a.isLt
    have bb := b.isLt
    have m1 : fld 57 7 w = 0x54 := by simp only [fld, Nat.reducePow]; omega
    have m2 : fld 52 5 w = 3 := by simp only [fld, Nat.reducePow]; omega
    have n0 : fld 11 2 w = 1 := by simp only [fld, Nat.reducePow]; omega
    have r0 : fld 13 12 w = 0 := by simp only [fld, Nat.reducePow]; omega
    have e0 : fin 64 46 w = x0 := fin_eq (by simp only [Nat.reducePow]; omega)
    have e1 : fin 64 0 w = x1 := fin_eq (by simp only [Nat.reducePow]; omega)
    have e2 : fin 512 37 w = x2 := fin_eq (by simp only [Nat.reducePow]; omega)
    have e4 := mask_eq (lk := 10) (lm := 6) (w := w) (m := x4) (by simp only [Nat.reducePow]; omega) (by simp only [Nat.reducePow]; omega)
    have ea : fin 64 31 w = a := fin_eq (by simp only [Nat.reducePow]; omega)
    have eb : fin 64 25 w = b := fin_eq (by simp only [Nat.reducePow]; omega)
    rw [decodeTile, m1, m2]
    change decMap true true w (fun td td2 fn ins m => .reduce2 td td2 fn ins m) = _
    simp only [decMap, n0, r0, e0, e1, e2, e4.1, e4.2, ea, eb, Nat.add_zero, if_true]
    exact finish_ok _ hwf
  | i3 a b c =>
    simp [Instr.wellFormed, Instr.limitsKept] at hwf
  | i4 a b c d =>
    simp [Instr.wellFormed, Instr.limitsKept] at hwf

theorem atomW x0 x1 x2 x3 x4 x5 : Statement (.atomW x0 x1 x2 x3 x4 x5) := by
  refine tile _ rfl fun hwf w hw => ?_
  obtain ⟨m1, m2, f24, f47, f43, f33, f38, f40, f0, z0⟩ := layout61 (by decide) (by decide) (AOp.code_lt x0) x1.isLt x2.isLt x3.isLt (MemOrd.str_lt x4) (MemOrd.scope_lt x4) x5.isLt (Option.some.inj hw)
  rw [decodeTile, m1, m2]
  change finish (fld 28 5 w) false ((AOp.ofCode (fld 24 4 w)).bind fun x0 => (MemOrd.ofCodes (fld 38 2 w) (fld 40 3 w)).bind fun x4 => some (.atomW x0 (fin 32 47 w) (fin 16 43 w) (fin 32 33 w) x4 (bv 24 0 w))) = _
  simp only [z0, f24, AOp.ofCode_code, fin_eq (x := x1) f47, fin_eq (x := x2) f43, fin_eq (x := x3) f33, f38, f40, MemOrd.ofCodes_codes, bv_eq (x := x5) f0, Option.bind_some]
  exact finish_ok _ hwf

theorem atomD x0 x1 x2 x3 x4 x5 : Statement (.atomD x0 x1 x2 x3 x4 x5) := by
  refine tile _ rfl fun hwf w hw => ?_
  obtain ⟨m1, m2, f24, f47, f43, f33, f38, f40, f0, z0⟩ := layout61 (by decide) (by decide) (AOp.code_lt x0) x1.isLt x2.isLt x3.isLt (MemOrd.str_lt x4) (MemOrd.scope_lt x4) x5.isLt (Option.some.inj hw)
  rw [decodeTile, m1, m2]
  change finish (fld 28 5 w) false ((AOp.ofCode (fld 24 4 w)).bind fun x0 => (MemOrd.ofCodes (fld 38 2 w) (fld 40 3 w)).bind fun x4 => some (.atomD x0 (fin 32 47 w) (fin 16 43 w) (fin 32 33 w) x4 (bv 24 0 w))) = _
  simp only [z0, f24, AOp.ofCode_code, fin_eq (x := x1) f47, fin_eq (x := x2) f43, fin_eq (x := x3) f33, f38, f40, MemOrd.ofCodes_codes, bv_eq (x := x5) f0, Option.bind_some]
  exact finish_ok _ hwf

theorem casW x0 x1 x2 x3 x4 x5 : Statement (.casW x0 x1 x2 x3 x4 x5) := by
  refine tile _ rfl fun hwf w hw => ?_
  obtain ⟨m1, m2, f47, f43, f33, f28, f38, f40, f0, z0⟩ := layout62 (by decide) (by decide) x0.isLt x1.isLt x2.isLt x3.isLt (MemOrd.str_lt x4) (MemOrd.scope_lt x4) x5.isLt (Option.some.inj hw)
  rw [decodeTile, m1, m2]
  change finish (fld 24 4 w) false ((MemOrd.ofCodes (fld 38 2 w) (fld 40 3 w)).bind fun x4 => some (.casW (fin 32 47 w) (fin 16 43 w) (fin 32 33 w) (fin 32 28 w) x4 (bv 24 0 w))) = _
  simp only [z0, fin_eq (x := x0) f47, fin_eq (x := x1) f43, fin_eq (x := x2) f33, fin_eq (x := x3) f28, f38, f40, MemOrd.ofCodes_codes, bv_eq (x := x5) f0, Option.bind_some]
  exact finish_ok _ hwf

theorem casD x0 x1 x2 x3 x4 x5 : Statement (.casD x0 x1 x2 x3 x4 x5) := by
  refine tile _ rfl fun hwf w hw => ?_
  obtain ⟨m1, m2, f47, f43, f33, f28, f38, f40, f0, z0⟩ := layout62 (by decide) (by decide) x0.isLt x1.isLt x2.isLt x3.isLt (MemOrd.str_lt x4) (MemOrd.scope_lt x4) x5.isLt (Option.some.inj hw)
  rw [decodeTile, m1, m2]
  change finish (fld 24 4 w) false ((MemOrd.ofCodes (fld 38 2 w) (fld 40 3 w)).bind fun x4 => some (.casD (fin 32 47 w) (fin 16 43 w) (fin 32 33 w) (fin 32 28 w) x4 (bv 24 0 w))) = _
  simp only [z0, fin_eq (x := x0) f47, fin_eq (x := x1) f43, fin_eq (x := x2) f33, fin_eq (x := x3) f28, f38, f40, MemOrd.ofCodes_codes, bv_eq (x := x5) f0, Option.bind_some]
  exact finish_ok _ hwf

theorem cas16 x0 x1 x2 x3 x4 x5 : Statement (.cas16 x0 x1 x2 x3 x4 x5) := by
  refine tile _ rfl fun hwf w hw => ?_
  obtain ⟨m1, m2, f47, f43, f33, f28, f38, f40, f0, z0⟩ := layout62 (by decide) (by decide) x0.isLt x1.isLt x2.isLt x3.isLt (MemOrd.str_lt x4) (MemOrd.scope_lt x4) x5.isLt (Option.some.inj hw)
  rw [decodeTile, m1, m2]
  change finish (fld 24 4 w) false ((MemOrd.ofCodes (fld 38 2 w) (fld 40 3 w)).bind fun x4 => some (.cas16 (fin 32 47 w) (fin 16 43 w) (fin 32 33 w) (fin 32 28 w) x4 (bv 24 0 w))) = _
  simp only [z0, fin_eq (x := x0) f47, fin_eq (x := x1) f43, fin_eq (x := x2) f33, fin_eq (x := x3) f28, f38, f40, MemOrd.ofCodes_codes, bv_eq (x := x5) f0, Option.bind_some]
  exact finish_ok _ hwf

theorem lda x0 x1 x2 x3 : Statement (.lda x0 x1 x2 x3) := by
  refine tile _ rfl fun hwf w hw => ?_
  obtain ⟨m1, m2, f47, f43, f38, f40, f0, z0⟩ := layout22 (by decide) (by decide) x0.isLt x1.isLt (MemOrd.str_lt x2) (MemOrd.scope_lt x2) x3.isLt (Option.some.inj hw)
  rw [decodeTile, m1, m2]
  change finish (fld 24 14 w) false ((MemOrd.ofCodes (fld 38 2 w) (fld 40 3 w)).bind fun x2 => some (.lda (fin 32 47 w) (fin 16 43 w) x2 (bv 24 0 w))) = _
  simp only [z0, fin_eq (x := x0) f47, fin_eq (x := x1) f43, f38, f40, MemOrd.ofCodes_codes, bv_eq (x := x3) f0, Option.bind_some]
  exact finish_ok _ hwf

theorem stl x0 x1 x2 x3 : Statement (.stl x0 x1 x2 x3) := by
  refine tile _ rfl fun hwf w hw => ?_
  obtain ⟨m1, m2, f47, f43, f38, f40, f0, z0⟩ := layout22 (by decide) (by decide) x0.isLt x1.isLt (MemOrd.str_lt x2) (MemOrd.scope_lt x2) x3.isLt (Option.some.inj hw)
  rw [decodeTile, m1, m2]
  change finish (fld 24 14 w) false ((MemOrd.ofCodes (fld 38 2 w) (fld 40 3 w)).bind fun x2 => some (.stl (fin 32 47 w) (fin 16 43 w) x2 (bv 24 0 w))) = _
  simp only [z0, fin_eq (x := x0) f47, fin_eq (x := x1) f43, f38, f40, MemOrd.ofCodes_codes, bv_eq (x := x3) f0, Option.bind_some]
  exact finish_ok _ hwf

theorem fence x0 : Statement (.fence x0) := by
  refine tile _ rfl fun hwf w hw => ?_
  obtain ⟨m1, m2, f38, f40, z0, z1⟩ := layout63 (by decide) (by decide) (by decide) (Scope.code_lt x0) (Option.some.inj hw)
  rw [decodeTile, m1, m2]
  change finish (fld 0 38 w + fld 43 9 w) false ((fenceScope (fld 38 2 w) (fld 40 3 w)).bind fun x0 => some (.fence x0)) = _
  simp only [z0, z1, f38, f40, fenceScope_code, Nat.add_zero, Option.bind_some]
  exact finish_ok _ hwf

theorem waitv x0 x1 x2 x3 x4 x5 : Statement (.waitv x0 x1 x2 x3 x4 x5) := by
  refine tile _ rfl fun hwf w hw => ?_
  obtain ⟨m1, m2, f47, f43, f33, f28, f38, f40, f0, z0⟩ := layout62 (by decide) (by decide) x0.isLt x1.isLt x2.isLt x3.isLt (MemOrd.str_lt x4) (MemOrd.scope_lt x4) x5.isLt (Option.some.inj hw)
  rw [decodeTile, m1, m2]
  change finish (fld 24 4 w) false ((MemOrd.ofCodes (fld 38 2 w) (fld 40 3 w)).bind fun x4 => some (.waitv (fin 32 47 w) (fin 16 43 w) (fin 32 33 w) (fin 32 28 w) x4 (bv 24 0 w))) = _
  simp only [z0, fin_eq (x := x0) f47, fin_eq (x := x1) f43, fin_eq (x := x2) f33, fin_eq (x := x3) f28, f38, f40, MemOrd.ofCodes_codes, bv_eq (x := x5) f0, Option.bind_some]
  exact finish_ok _ hwf

theorem waitvRound x0 : Statement (.waitvRound x0) := wordless _ rfl rfl

theorem bari x0 x1 : Statement (.bari x0 x1) := by
  refine tile _ rfl fun hwf w hw => ?_
  obtain ⟨m1, m2, f48, f30, z0, z1⟩ := layout64 (by decide) (by decide) x0.isLt x1.isLt (Option.some.inj hw)
  rw [decodeTile, m1, m2]
  change finish (fld 0 30 w + fld 39 9 w) false (some (.bari (fin 16 48 w) (fin 512 30 w))) = _
  simp only [z0, z1, fin_eq (x := x0) f48, fin_eq (x := x1) f30, Nat.add_zero]
  exact finish_ok _ hwf

theorem bara x0 x1 : Statement (.bara x0 x1) := by
  refine tile _ rfl fun hwf w hw => ?_
  obtain ⟨m1, m2, f48, f30, z0, z1⟩ := layout64 (by decide) (by decide) x0.isLt x1.isLt (Option.some.inj hw)
  rw [decodeTile, m1, m2]
  change finish (fld 0 30 w + fld 39 9 w) false (some (.bara (fin 16 48 w) (fin 512 30 w))) = _
  simp only [z0, z1, fin_eq (x := x0) f48, fin_eq (x := x1) f30, Nat.add_zero]
  exact finish_ok _ hwf

theorem barw x0 x1 : Statement (.barw x0 x1) := by
  refine tile _ rfl fun hwf w hw => ?_
  obtain ⟨m1, m2, f25, f48, z0, z1⟩ := layout65 (by decide) (by decide) x0.isLt x1.isLt (Option.some.inj hw)
  rw [decodeTile, m1, m2]
  change finish (fld 0 25 w + fld 30 18 w) false (some (.barw (fin 32 25 w) (fin 16 48 w))) = _
  simp only [z0, z1, fin_eq (x := x0) f25, fin_eq (x := x1) f48, Nat.add_zero]
  exact finish_ok _ hwf

theorem barwWake x0 : Statement (.barwWake x0) := wordless _ rfl rfl

theorem bart x0 x1 : Statement (.bart x0 x1) := by
  refine tile _ rfl fun hwf w hw => ?_
  obtain ⟨m1, m2, f25, f48, z0, z1⟩ := layout65 (by decide) (by decide) x0.isLt x1.isLt (Option.some.inj hw)
  rw [decodeTile, m1, m2]
  change finish (fld 0 25 w + fld 30 18 w) false (some (.bart (fin 32 25 w) (fin 16 48 w))) = _
  simp only [z0, z1, fin_eq (x := x0) f25, fin_eq (x := x1) f48, Nat.add_zero]
  exact finish_ok _ hwf

theorem tsend x0 x1 x2 : Statement (.tsend x0 x1 x2) := by
  refine tile _ rfl fun hwf w hw => ?_
  obtain ⟨m1, m2, f42, f39, f48, z0⟩ := layout66 (by decide) (by decide) x0.isLt x1.isLt x2.isLt (Option.some.inj hw)
  rw [decodeTile, m1, m2]
  change finish (fld 0 39 w) false (some (.tsend (fin 64 42 w) (fin 8 39 w) (fin 16 48 w))) = _
  simp only [z0, fin_eq (x := x0) f42, fin_eq (x := x1) f39, fin_eq (x := x2) f48]
  exact finish_ok _ hwf

theorem trecv x0 x1 x2 : Statement (.trecv x0 x1 x2) := by
  refine tile _ rfl fun hwf w hw => ?_
  obtain ⟨m1, m2, f42, f39, f48, z0⟩ := layout66 (by decide) (by decide) x0.isLt x1.isLt x2.isLt (Option.some.inj hw)
  rw [decodeTile, m1, m2]
  change finish (fld 0 39 w) false (some (.trecv (fin 64 42 w) (fin 8 39 w) (fin 16 48 w))) = _
  simp only [z0, fin_eq (x := x0) f42, fin_eq (x := x1) f39, fin_eq (x := x2) f48]
  exact finish_ok _ hwf

theorem tileTransfer x0 x1 : Statement (.tileTransfer x0 x1) := wordless _ rfl rfl

theorem enq x0 x1 x2 : Statement (.enq x0 x1 x2) := by
  refine tile _ rfl fun hwf w hw => ?_
  obtain ⟨m1, m2, f47, f13, f25, f27, z0, z1⟩ := layout67 (by decide) (by decide) x0.isLt x1.isLt (MemOrd.str_lt x2) (MemOrd.scope_lt x2) (Option.some.inj hw)
  rw [decodeTile, m1, m2]
  change finish (fld 0 13 w + fld 30 17 w) false ((MemOrd.ofCodes (fld 25 2 w) (fld 27 3 w)).bind fun x2 => some (.enq (fin 32 47 w) (bv 12 13 w) x2)) = _
  simp only [z0, z1, fin_eq (x := x0) f47, bv_eq (x := x1) f13, f25, f27, MemOrd.ofCodes_codes, Nat.add_zero, Option.bind_some]
  exact finish_ok _ hwf

theorem transform x0 x1 : Statement (.transform x0 x1) := wordless _ rfl rfl

theorem redist x0 x1 : Statement (.redist x0 x1) := wordless _ rfl rfl

theorem compress x0 x1 : Statement (.compress x0 x1) := wordless _ rfl rfl

theorem decompress x0 x1 : Statement (.decompress x0 x1) := wordless _ rfl rfl

theorem recode x0 x1 : Statement (.recode x0 x1) := wordless _ rfl rfl

theorem resample x0 x1 : Statement (.resample x0 x1) := wordless _ rfl rfl

theorem quant x0 x1 : Statement (.quant x0 x1) := wordless _ rfl rfl

theorem binderyCompletionRecord x0 x1 : Statement (.binderyCompletionRecord x0 x1) := wordless _ rfl rfl

theorem move x0 x1 x2 x3 x4 x5 : Statement (.move x0 x1 x2 x3 x4 x5) := by
  refine tile _ rfl fun hwf w hw => ?_
  obtain ⟨m1, m2, f47, f43, f39, f35, f30, f25, f27, z0⟩ := layout39 (by decide) (by decide) x0.isLt x1.isLt x2.isLt x3.isLt x4.isLt (MemOrd.str_lt x5) (MemOrd.scope_lt x5) (Option.some.inj hw)
  rw [decodeTile, m1, m2]
  change finish (fld 0 25 w) false ((MemOrd.ofCodes (fld 25 2 w) (fld 27 3 w)).bind fun x5 => some (.move (fin 32 47 w) (fin 16 43 w) (fin 16 39 w) (fin 16 35 w) (fin 32 30 w) x5)) = _
  simp only [z0, fin_eq (x := x0) f47, fin_eq (x := x1) f43, fin_eq (x := x2) f39, fin_eq (x := x3) f35, fin_eq (x := x4) f30, f25, f27, MemOrd.ofCodes_codes, Option.bind_some]
  exact finish_ok _ hwf

theorem moveClaim x0 : Statement (.moveClaim x0) := wordless _ rfl rfl

theorem mark x0 : Statement (.mark x0) := wordless _ rfl rfl

theorem moveReport x0 : Statement (.moveReport x0) := wordless _ rfl rfl

theorem mvq x0 x1 : Statement (.mvq x0 x1) := by
  refine tile _ rfl fun hwf w hw => ?_
  obtain ⟨m1, m2, f47, f30, z0, z1⟩ := layout68 (by decide) (by decide) x0.isLt x1.isLt (Option.some.inj hw)
  rw [decodeTile, m1, m2]
  change finish (fld 0 30 w + fld 35 12 w) false (some (.mvq (fin 32 47 w) (fin 32 30 w))) = _
  simp only [z0, z1, fin_eq (x := x0) f47, fin_eq (x := x1) f30, Nat.add_zero]
  exact finish_ok _ hwf

theorem mvwait x0 x1 x2 : Statement (.mvwait x0 x1 x2) := by
  refine tile _ rfl fun hwf w hw => ?_
  obtain ⟨m1, m2, f47, f30, f25, f27, z0, z1⟩ := layout69 (by decide) (by decide) x0.isLt x1.isLt (MemOrd.str_lt x2) (MemOrd.scope_lt x2) (Option.some.inj hw)
  rw [decodeTile, m1, m2]
  change finish (fld 0 25 w + fld 35 12 w) false ((MemOrd.ofCodes (fld 25 2 w) (fld 27 3 w)).bind fun x2 => some (.mvwait (fin 32 47 w) (fin 32 30 w) x2)) = _
  simp only [z0, z1, fin_eq (x := x0) f47, fin_eq (x := x1) f30, f25, f27, MemOrd.ofCodes_codes, Nat.add_zero, Option.bind_some]
  exact finish_ok _ hwf

theorem mvwaitWake x0 : Statement (.mvwaitWake x0) := wordless _ rfl rfl

theorem sweep x0 x1 x2 : Statement (.sweep x0 x1 x2) := by
  refine tile _ rfl fun hwf w hw => ?_
  obtain ⟨m1, m2, f47, f43, f30, z0, z1⟩ := layout70 (by decide) (by decide) x0.isLt x1.isLt x2.isLt (Option.some.inj hw)
  rw [decodeTile, m1, m2]
  change finish (fld 0 30 w + fld 35 8 w) false (some (.sweep (fin 32 47 w) (fin 16 43 w) (fin 32 30 w))) = _
  simp only [z0, z1, fin_eq (x := x0) f47, fin_eq (x := x1) f43, fin_eq (x := x2) f30, Nat.add_zero]
  exact finish_ok _ hwf

theorem mkq x0 x1 : Statement (.mkq x0 x1) := by
  refine tile _ rfl fun hwf w hw => ?_
  obtain ⟨m1, m2, f47, f43, z0⟩ := layout71 (by decide) (by decide) x0.isLt x1.isLt (Option.some.inj hw)
  rw [decodeTile, m1, m2]
  change finish (fld 0 43 w) false (some (.mkq (fin 32 47 w) (fin 16 43 w))) = _
  simp only [z0, fin_eq (x := x0) f47, fin_eq (x := x1) f43]
  exact finish_ok _ hwf

theorem mkfree x0 x1 x2 x3 x4 : Statement (.mkfree x0 x1 x2 x3 x4) := by
  refine tile _ rfl fun hwf w hw => ?_
  obtain ⟨m1, m2, f47, f43, f35, f30, f25, f27, z0, z1⟩ := layout72 (by decide) (by decide) x0.isLt x1.isLt x2.isLt x3.isLt (MemOrd.str_lt x4) (MemOrd.scope_lt x4) (Option.some.inj hw)
  rw [decodeTile, m1, m2]
  change finish (fld 0 25 w + fld 39 4 w) false ((MemOrd.ofCodes (fld 25 2 w) (fld 27 3 w)).bind fun x4 => some (.mkfree (fin 32 47 w) (fin 16 43 w) (fin 16 35 w) (fin 32 30 w) x4)) = _
  simp only [z0, z1, fin_eq (x := x0) f47, fin_eq (x := x1) f43, fin_eq (x := x2) f35, fin_eq (x := x3) f30, f25, f27, MemOrd.ofCodes_codes, Nat.add_zero, Option.bind_some]
  exact finish_ok _ hwf

theorem mkfreeEvent x0 : Statement (.mkfreeEvent x0) := wordless _ rfl rfl

theorem quarantineEnd x0 x1 : Statement (.quarantineEnd x0 x1) := wordless _ rfl rfl

theorem read x0 x1 x2 : Statement (.read x0 x1 x2) := wordless _ rfl rfl

theorem drain x0 x1 x2 : Statement (.drain x0 x1 x2) := wordless _ rfl rfl

theorem perform x0 x1 x2 : Statement (.perform x0 x1 x2) := wordless _ rfl rfl

theorem acquirePoint x0 x1 : Statement (.acquirePoint x0 x1) := wordless _ rfl rfl

theorem releasePoint x0 x1 : Statement (.releasePoint x0 x1) := wordless _ rfl rfl

theorem expand x0 : Statement (.expand x0) := wordless _ rfl rfl

theorem code x0 x1 : Statement (.code x0 x1) := wordless _ rfl rfl

theorem microOp x0 x1 : Statement (.microOp x0 x1) := wordless _ rfl rfl

theorem logicalTimeAdvance x0 : Statement (.logicalTimeAdvance x0) := wordless _ rfl rfl

theorem slotRound x0 : Statement (.slotRound x0) := wordless _ rfl rfl

theorem rampInterval x0 x1 : Statement (.rampInterval x0 x1) := wordless _ rfl rfl

theorem diversion x0 : Statement (.diversion x0) := wordless _ rfl rfl

theorem budgetOverrun x0 : Statement (.budgetOverrun x0) := wordless _ rfl rfl

theorem retirement x0 : Statement (.retirement x0) := wordless _ rfl rfl

theorem launchCompletionRecord x0 : Statement (.launchCompletionRecord x0) := wordless _ rfl rfl

theorem launchDeadline x0 : Statement (.launchDeadline x0) := wordless _ rfl rfl

theorem sealWrite x0 x1 : Statement (.sealWrite x0 x1) := wordless _ rfl rfl

theorem lineRecall x0 : Statement (.lineRecall x0) := wordless _ rfl rfl

theorem rfetch x0 x1 : Statement (.rfetch x0 x1) := by
  refine fun hwf => ⟨fun w hw => absurd (show none = some w from hw) (by simp), fun w hw => ?_⟩
  replace hw : 0x0B + x0.val * 2 ^ 7 + x1.val * 2 ^ 15 = w := Option.some.inj hw
  simp only [Nat.reducePow, Nat.reduceMul] at hw
  have b0 := x0.isLt
  have b1 := x1.isLt
  have m0 : fld 0 7 w = 0x0B := by simp only [fld, Nat.reducePow]; omega
  have m1 : fld 25 7 w = 0 := by simp only [fld, Nat.reducePow]; omega
  have m2 : fld 12 3 w = 0 := by simp only [fld, Nat.reducePow]; omega
  have e0 : fin 32 7 w = x0 := fin_eq (by simp only [Nat.reducePow]; omega)
  have e1 : fin 32 15 w = x1 := fin_eq (by simp only [Nat.reducePow]; omega)
  have e2 : fld 20 5 w = 0 := by simp only [fld, Nat.reducePow]; omega
  simp [decodeRelay, m0, m1, m2, e0, e1, e2]

theorem bxtr x0 x1 x2 : Statement (.bxtr x0 x1 x2) := by
  refine fun hwf => ⟨fun w hw => absurd (show none = some w from hw) (by simp), fun w hw => ?_⟩
  replace hw : 0x0B + x0.val * 2 ^ 7 + 1 * 2 ^ 12 + x1.val * 2 ^ 15 + x2.val * 2 ^ 20 = w := Option.some.inj hw
  simp only [Nat.reducePow, Nat.reduceMul] at hw
  have b0 := x0.isLt
  have b1 := x1.isLt
  have b2 := x2.isLt
  have m0 : fld 0 7 w = 0x0B := by simp only [fld, Nat.reducePow]; omega
  have m1 : fld 25 7 w = 0 := by simp only [fld, Nat.reducePow]; omega
  have m2 : fld 12 3 w = 1 := by simp only [fld, Nat.reducePow]; omega
  have e0 : fin 32 7 w = x0 := fin_eq (by simp only [Nat.reducePow]; omega)
  have e1 : fin 32 15 w = x1 := fin_eq (by simp only [Nat.reducePow]; omega)
  have e2 : fin 32 20 w = x2 := fin_eq (by simp only [Nat.reducePow]; omega)
  simp [decodeRelay, m0, m1, m2, e0, e1, e2]

theorem swaitq x0 x1 : Statement (.swaitq x0 x1) := by
  refine fun hwf => ⟨fun w hw => absurd (show none = some w from hw) (by simp), fun w hw => ?_⟩
  replace hw : 0x0B + x0.val * 2 ^ 7 + 2 * 2 ^ 12 + x1.val * 2 ^ 15 = w := Option.some.inj hw
  simp only [Nat.reducePow, Nat.reduceMul] at hw
  have b0 := x0.isLt
  have b1 := x1.isLt
  have m0 : fld 0 7 w = 0x0B := by simp only [fld, Nat.reducePow]; omega
  have m1 : fld 25 7 w = 0 := by simp only [fld, Nat.reducePow]; omega
  have m2 : fld 12 3 w = 2 := by simp only [fld, Nat.reducePow]; omega
  have e0 : fin 32 7 w = x0 := fin_eq (by simp only [Nat.reducePow]; omega)
  have e1 : fin 32 15 w = x1 := fin_eq (by simp only [Nat.reducePow]; omega)
  have e2 : fld 20 5 w = 0 := by simp only [fld, Nat.reducePow]; omega
  simp [decodeRelay, m0, m1, m2, e0, e1, e2]

theorem dspch x0 x1 x2 : Statement (.dspch x0 x1 x2) := by
  refine fun hwf => ⟨fun w hw => absurd (show none = some w from hw) (by simp), fun w hw => ?_⟩
  replace hw : 0x0B + x0.val * 2 ^ 7 + 3 * 2 ^ 12 + x1.val * 2 ^ 15 + x2.val * 2 ^ 20 = w := Option.some.inj hw
  simp only [Nat.reducePow, Nat.reduceMul] at hw
  have b0 := x0.isLt
  have b1 := x1.isLt
  have b2 := x2.isLt
  have m0 : fld 0 7 w = 0x0B := by simp only [fld, Nat.reducePow]; omega
  have m1 : fld 25 7 w = 0 := by simp only [fld, Nat.reducePow]; omega
  have m2 : fld 12 3 w = 3 := by simp only [fld, Nat.reducePow]; omega
  have e0 : fin 32 7 w = x0 := fin_eq (by simp only [Nat.reducePow]; omega)
  have e1 : fin 32 15 w = x1 := fin_eq (by simp only [Nat.reducePow]; omega)
  have e2 : fin 32 20 w = x2 := fin_eq (by simp only [Nat.reducePow]; omega)
  simp [decodeRelay, m0, m1, m2, e0, e1, e2]

theorem launchChoice x0 : Statement (.launchChoice x0) := wordless _ rfl rfl

theorem systemModeRequest x0 x1 : Statement (.systemModeRequest x0 x1) := wordless _ rfl rfl

theorem kernelNode x0 x1 : Statement (.kernelNode x0 x1) := wordless _ rfl rfl

theorem copyNode x0 x1 : Statement (.copyNode x0 x1) := wordless _ rfl rfl

theorem condNode x0 x1 : Statement (.condNode x0 x1) := wordless _ rfl rfl

theorem loopNode x0 x1 : Statement (.loopNode x0 x1) := wordless _ rfl rfl

theorem waitNode x0 x1 : Statement (.waitNode x0 x1) := wordless _ rfl rfl

theorem signalNode x0 x1 : Statement (.signalNode x0 x1) := wordless _ rfl rfl

theorem endNode x0 x1 : Statement (.endNode x0 x1) := wordless _ rfl rfl

theorem graphDeadline x0 : Statement (.graphDeadline x0) := wordless _ rfl rfl

theorem faultHoldExpiry x0 x1 : Statement (.faultHoldExpiry x0 x1) := wordless _ rfl rfl

theorem rescueSlice x0 x1 x2 x3 : Statement (.rescueSlice x0 x1 x2 x3) := wordless _ rfl rfl

theorem rescueSliceEnd x0 : Statement (.rescueSliceEnd x0) := wordless _ rfl rfl

theorem relayEccHalt x0 : Statement (.relayEccHalt x0) := wordless _ rfl rfl

theorem queuePoison x0 : Statement (.queuePoison x0) := wordless _ rfl rfl

theorem ctxset x0 : Statement (.ctxset x0) := wordless _ rfl rfl

theorem part x0 : Statement (.part x0) := wordless _ rfl rfl

theorem cancel x0 : Statement (.cancel x0) := wordless _ rfl rfl

theorem inval x0 : Statement (.inval x0) := wordless _ rfl rfl

theorem freply x0 : Statement (.freply x0) := wordless _ rfl rfl

theorem drover x0 : Statement (.drover x0) := wordless _ rfl rfl

theorem hostHinv x0 : Statement (.hostHinv x0) := wordless _ rfl rfl

theorem pinwin x0 : Statement (.pinwin x0) := wordless _ rfl rfl

theorem hostMemRead x0 x1 x2 : Statement (.hostMemRead x0 x1 x2) := wordless _ rfl rfl

theorem hostMemWrite x0 x1 x2 : Statement (.hostMemWrite x0 x1 x2) := wordless _ rfl rfl

theorem sense x0 : Statement (.sense x0) := wordless _ rfl rfl

theorem logread x0 : Statement (.logread x0) := wordless _ rfl rfl

theorem update x0 : Statement (.update x0) := wordless _ rfl rfl

theorem attest x0 : Statement (.attest x0) := wordless _ rfl rfl

theorem setparam x0 : Statement (.setparam x0) := wordless _ rfl rfl

theorem moncfg x0 : Statement (.moncfg x0) := wordless _ rfl rfl

theorem monread x0 : Statement (.monread x0) := wordless _ rfl rfl

theorem resync x0 : Statement (.resync x0) := wordless _ rfl rfl

theorem testinj x0 : Statement (.testinj x0) := wordless _ rfl rfl

theorem sensorRead x0 : Statement (.sensorRead x0) := wordless _ rfl rfl

theorem thermalTrip : Statement (.thermalTrip) := wordless _ rfl rfl

theorem tripClear : Statement (.tripClear) := wordless _ rfl rfl

theorem thermalHalt : Statement (.thermalHalt) := wordless _ rfl rfl

theorem ptpSync x0 : Statement (.ptpSync x0) := wordless _ rfl rfl

theorem holdover x0 : Statement (.holdover x0) := wordless _ rfl rfl

theorem packageReset : Statement (.packageReset) := wordless _ rfl rfl

theorem surpriseLinkLoss x0 : Statement (.surpriseLinkLoss x0) := wordless _ rfl rfl

theorem deviceUnreachable x0 : Statement (.deviceUnreachable x0) := wordless _ rfl rfl

theorem patrolScrub : Statement (.patrolScrub) := wordless _ rfl rfl

theorem relayCoreReload x0 : Statement (.relayCoreReload x0) := wordless _ rfl rfl

theorem hfqh x0 x1 : Statement (.hfqh x0 x1) := wordless _ rfl rfl

theorem domainBringUp x0 x1 x2 : Statement (.domainBringUp x0 x1 x2) := wordless _ rfl rfl

end Sys2Proof.Laws.RoundTrip
end

