-- ==== Sys2Proof/Safety.lean ====
section
/-! DEFINITION. The words that claims about the package use: what counts as a safe run, which block moves, what it means for an
instruction to complete, and which parts of the state an instruction leaves alone. -/

namespace Sys2Proof.Machine

/-! ## Safe runs -/

/-- A step ended well: it answered a next state. -/
def Answers (o : Out) : Prop := ∃ t, o = .next t

/-- The memory has its canonical form: rising addresses, no byte listed that reads as an unlisted one does. -/
def MemoryWf (s : State) : Prop := Memory.wf s.mem = true

/-- Memory reads at every address as before. -/
def SameBytes (s t : State) : Prop := ∀ a, t.mem.read a = s.mem.read a

/-- Memory reads as before outside a list of home addresses. -/
def SameBytesBut (s t : State) (ps : List Nat) : Prop := ∀ a, a ∉ ps → t.mem.read a = s.mem.read a

/-! ## Moving and completing -/

/-- The block of context k moves, and it is b. -/
structure Moves (s : State) (k : BKey) (b : Block) : Prop where
  turn : s.active = .block k
  here : s.block? k = some b

/-- Relay core i moves, and it is r. -/
structure RelayMoves (s : State) (i : Fin 8) (r : Relay) : Prop where
  turn : s.active = .relay i.val
  here : s.relays[i] = r

/-- Block k moves, and the queued events that an instruction waits for have been performed: that left state s1 with the block b, which
still runs. -/
structure Settled (s : State) (k : BKey) (p : Ev → Bool) (s1 : State) (b : Block) : Prop where
  turn : s.active = .block k
  present : (s.block? k).isSome = true
  after : settleWhere s k p = s1
  here : s1.block? k = some b
  clear : b.evq.any p = false
  running : b.ended = none

/-- Block k moves, and what its accesses to the bytes of a reach wait for (R106) has been performed: that left s1 with the block b. -/
def SettledFor (s : State) (k : BKey) (strong : Bool) (r : Reach) (s1 : State) (b : Block) : Prop :=
  ∃ b0, s.block? k = some b0 ∧ Settled s k (Ev.precedes strong s (r.now s k b0)) s1 b

/-- The meaning of an instruction answers a next state, and that state meets a description. -/
def Completes (i : Instr) (s : State) (p : State → Prop) : Prop := ∃ t, exec i s = .next t ∧ p t

/-- The meaning of an instruction answers the state in which the block has taken a trap (R134). -/
def Traps (i : Instr) (s : State) (k : BKey) (b : Block) (f : FaultInfo) : Prop := exec i s = .next (takeTrap s k b f)

/-! ## Frames -/

/-- The step changed the block of context k alone, into b'; no byte of memory changed. -/
structure OnlyBlock (s t : State) (k : BKey) (b' : Block) : Prop where
  here : t.block? k = some b'
  others : ∀ k', k' ≠ k → t.block? k' = s.block? k'
  rest : t = { s with blocks := t.blocks }
  bytes : SameBytes s t

/-- What reading tiles leaves behind: armed errors that have fired, which the MGC has logged and counted (R324, R325), and the monitors'
samples of what was expanded (R327). -/
structure Noted (s t : State) : Prop where
  cores : ∀ c, t.core c = { s.core c with armed := (t.core c).armed }
  dies : ∀ d, t.die d = { s.die d with monitors := (t.die d).monitors }
  mgc : t.mgc = { s.mgc with log := t.mgc.log, errors := t.mgc.errors }

/-- What the checks of accesses leave behind as well: handle caches, and poisoned lines of a demotion that have found their home. -/
structure Checked (s t : State) : Prop extends Noted s t where
  ctxs : ∀ n, t.ctx n = { s.ctx n with hcache := (t.ctx n).hcache, lostLines := (t.ctx n).lostLines }

/-- The step changed the block of context k, into b', and what the checks of an access leave behind: `Checked`, TLB entries, pinned lines,
poisoned lines, and the counters behind queued events and free values. No byte of memory changed. -/
structure AccessOnly (s t : State) (k : BKey) (b' : Block) : Prop where
  here : t.block? k = some b'
  others : ∀ k', k' ≠ k → t.block? k' = s.block? k'
  rest : t = { s with blocks := t.blocks, ctxs := t.ctxs, eccLines := t.eccLines, cores := t.cores, evSeq := t.evSeq,
                      freeCount := t.freeCount, tlb := t.tlb, pins := t.pins, die0 := t.die0, die1 := t.die1, mgc := t.mgc }
  checked : Checked s t
  bytes : SameBytes s t

/-- Beside its blocks, the step changed nothing but what reading tiles leaves behind, and the number of the next free slot. -/
structure TilesOnly (s t : State) : Prop where
  rest : t = { s with blocks := t.blocks, cores := t.cores, freeCount := t.freeCount, die0 := t.die0, die1 := t.die1, mgc := t.mgc }
  noted : Noted s t

/-- The step changed the block of context k into b' and no other block; no byte of memory changed. What else changed a claim says. -/
structure BlockNow (s t : State) (k : BKey) (b' : Block) : Prop where
  here : t.block? k = some b'
  others : ∀ k', k' ≠ k → t.block? k' = s.block? k'
  bytes : SameBytes s t

/-! ## Windows of tiles -/

/-- A used tile whose window lies in its storage, and whose storage holds all its elements. -/
structure Tile.Fits (x : Tile) : Prop where
  size : x.elems.size = x.srows * x.scols
  rows : x.wrow0 + x.wrows ≤ x.srows
  cols : x.wcol0 + x.wcols ≤ x.scols

/-- Tile td is a destination of the lane engine: bound, of home `s`, its window d in its storage. -/
structure Dest (b : Block) (td : TReg) (d : Tile) : Prop where
  use : b.useTile td = .ok d
  fits : d.Fits
  home : d.home = .s

/-- Tile t is a source x of the lane engine beside a destination d: bound, of home `s`, with a window of the same rows and columns. -/
structure Operand (s : State) (k : BKey) (b : Block) (d : Tile) (t : TReg) (x : Tile) : Prop where
  use : s.source k b t = .ok x
  home : x.home = .s
  rows : x.wrows = d.wrows
  cols : x.wcols = d.wcols

/-- SEED before draw n of an instruction (R67): only `.rsr` draws. -/
def seedAt (mode : Rnd) (seed : W64) : Nat → W64
  | 0 => seed
  | n + 1 => (drawFor mode (seedAt mode seed n)).2

/-- Draw n of an instruction. -/
def drawAt (mode : Rnd) (seed : W64) (n : Nat) : Nat := (drawFor mode (seedAt mode seed n)).1

/-- (i, j) is an element of the window. -/
def Tile.Has (x : Tile) (i j : Nat) : Prop := i < x.wrows ∧ j < x.wcols

/-- A tile apart from its slot and whether it is compressed there: what an expansion leaves as it is (R177, R205). -/
def Tile.value0 (x : Tile) : Tile := { x with cmp := false, raw := [], phys := 0 }

/-- How a mask controls a write: it chooses the elements written, and then no line is cleared (`keeps`, R94), and it is poisoned (`bad`),
which poisons the whole window (R207). -/
structure MaskUse where
  keeps : Bool
  bad : Bool

/-- No mask controls the write. -/
def MaskUse.none : MaskUse := { keeps := false, bad := false }

/-- The mask of a form chooses the elements it writes. -/
def Block.writes (b : Block) (mask : Option MReg) : MaskUse := { keeps := mask.isSome, bad := (b.maskPoison mask).isSome }

/-- The mask of a form chooses what it reads, and the whole window is written. -/
def Block.reads (b : Block) (mask : Option MReg) : MaskUse := { keeps := false, bad := (b.maskPoison mask).isSome }

/-- Every tile but some is as it was, apart from its slot. -/
def OtherTiles (b b' : Block) (written : List TReg) : Prop := ∀ t, t ∉ written → (b'.gt t).map Tile.value0 = (b.gt t).map Tile.value0

/-- Tile y in block b' is tile x of block b with its window written: where `on` holds, the elements are those of r, and the others stay
(R94, R207); a line is poisoned afterwards if a poisoned element (`bad`) was written to it, if the controlling mask was poisoned
and the window touches it, or if it was poisoned and the write was masked or left an element of the binding there. STATUS has the bits of
`fl` beside those it had; SEED becomes `seed` (R67); the binding's link and window, every other tile but its slot, and every other
register stay. -/
structure ElementWrite (b b' : Block) (td : TReg) (x y : Tile) (on : Nat → Nat → Bool) (r : Nat → Nat → Nat)
    (bad : Nat → Nat → Bool) (mp : MaskUse) (fl : Nat → Prop) (seed : W64) : Prop where
  pc : b'.pc = b.pc + 8
  bound : b'.gt td = some y
  inside : ∀ i j, x.Has i j → y.elems.getD (x.index i j) 0 = if on i j then r i j else x.get i j
  outside : ∀ n, (∀ i j, x.Has i j → n ≠ x.index i j) → y.elems[n]? = x.elems[n]?
  poison : ∀ l, l ∈ y.poison ↔ (∃ i j, x.Has i j ∧ on i j = true ∧ bad i j = true ∧ l ∈ x.lines i j)
    ∨ (mp.bad = true ∧ ∃ i j, x.Has i j ∧ l ∈ x.lines i j)
    ∨ (l ∈ x.poison ∧ (mp.keeps = true ∨ ∃ p q, p < x.brows ∧ q < x.bcols ∧ l ∈ x.linesAt p q
        ∧ ¬ ∃ i j, x.Has i j ∧ on i j = true ∧ x.wrow0 + i = p ∧ x.wcol0 + j = q))
  flags : ∀ n, b'.status.getLsbD n = true ↔ b.status.getLsbD n = true ∨ fl n
  seed : b'.seed = seed
  scales : x.fmt.block = 0 → y.scales = x.scales ∧ y.tscale = x.tscale
  binding : ∀ z, b.gt td = some z →
    y = { z with
      cmp := false
      raw := []
      tscale := y.tscale
      elems := y.elems
      scales := y.scales
      poison := y.poison
      origin := y.origin
      phys := y.phys
      unwritten := false }
  tiles : OtherTiles b b' [td]
  rest : b' = { b with pc := b'.pc, t := b'.t, deps := b'.deps, status := b'.status, seed := b'.seed, superseded := b'.superseded }

/-- Flag n is raised by a written element that no poison reaches (R69, R95). -/
def raised (x : Tile) (on : Nat → Nat → Bool) (r : Nat → Nat → Nat × W64) (bad : Nat → Nat → Bool) (mp : MaskUse) (n : Nat) : Prop :=
  mp.bad = false ∧ ∃ i j, x.Has i j ∧ on i j = true ∧ bad i j = false ∧ (r i j).2.getLsbD n = true

/-- The step wrote the window of tile td of block k as `ElementWrite` says; beside the block, only what reading tiles leaves behind
changed. -/
def WindowResult (s : State) (k : BKey) (b : Block) (td : TReg) (x : Tile) (on : Nat → Nat → Bool) (r : Nat → Nat → Nat)
    (bad : Nat → Nat → Bool) (mp : MaskUse) (fl : Nat → Prop) (seed : W64) (t : State) : Prop :=
  ∃ b' y, BlockNow s t k b' ∧ TilesOnly s t ∧ ElementWrite b b' td x y on r bad mp fl seed

/-- The window takes elements that a function of a draw and the coordinates gives, in row-major order, with their flags (R67, R69). -/
def ElementResult (s : State) (k : BKey) (b : Block) (td : TReg) (x : Tile) (on : Nat → Nat → Bool) (mode : Rnd)
    (f : Nat → Nat → Nat → Nat × W64) (bad : Nat → Nat → Bool) (mp : MaskUse) (t : State) : Prop :=
  let r (i j : Nat) := f (drawAt mode b.seed (i * x.wcols + j)) i j
  WindowResult s k b td x on (fun i j => (r i j).1) bad mp (raised x on r bad mp) (seedAt mode b.seed (x.wrows * x.wcols)) t

/-- Column p comes before column q in the order of a row (R221, R223): a NaN ranks lowest, equal values keep their columns' order. -/
def ranksBefore (f : Efmt) (desc : Bool) (v : Nat → Nat) (p q : Nat) : Prop :=
  let above (x y : Nat) : Prop := if desc then Val.higher (f.decode (v x)) (f.decode (v y)) = true
    else Val.higher (f.decode (v y)) (f.decode (v x)) = true
  above p q ∨ (¬ above q p ∧ p < q)

/-- js are the first n of a row's columns in rank order, or all of them when there are fewer. -/
structure Ranked (f : Efmt) (desc : Bool) (v : Nat → Nat) (cols : List Nat) (n : Nat) (js : List Nat) : Prop where
  length : js.length = min n cols.length
  from_ : ∀ j ∈ js, j ∈ cols
  order : js.Pairwise (ranksBefore f desc v)
  first : ∀ j ∈ cols, j ∉ js → ∀ p ∈ js, ranksBefore f desc v p j

/-- The block goes on with tiles, poison and flags changed as far as the claim says, and nothing else (beside what reading tiles leaves
behind). -/
structure TileFrame (s t : State) (k : BKey) (b b' : Block) (written : List TReg) : Prop where
  now : BlockNow s t k b'
  state : TilesOnly s t
  pc : b'.pc = b.pc + 8
  tiles : OtherTiles b b' written
  rest : b' = { b with pc := b'.pc, t := b'.t, deps := b'.deps, status := b'.status, seed := b'.seed, superseded := b'.superseded }

/-! ## Engine commands -/

/-- The core that a queue's translations are done from: that of its oldest command. -/
def queueCore (s : State) (ctx q : Nat) : Nat :=
  (((s.die0.bind ++ s.die1.bind).find? fun c => c.ctx = ctx && c.q = q).map fun c => c.core).getD 0

/-- The command at the head of queue q of a context can be taken, with its words read: the checks of the descriptor leave s1, the
command's ordering allows it, no older command of the queue is in flight, and an engine is free (R111, R255, R256, R259). -/
structure Takes (s s1 : State) (ctx q : Nat) (d : QDesc) (c : BindCmd) : Prop where
  desc : ∃ s0 ps, queueAt s { ctx := ctx, core := queueCore s ctx q, who := none } q Need.readWrite = .ok s0 d
    ∧ ringBytes s0 { ctx := ctx, core := c.core, who := none } Need.load (d.slot d.head) 64 = .ok s1 ps ∧ ps.any s1.eccAt = false
    ∧ c.words = (List.range 8).map fun i => BitVec.ofNat 64 (leNat (((s1.readHomes ps).drop (8 * i)).take 8))
  valid : d.valid = true
  pending : d.head ≠ d.tail
  stub : ∃ c0, ((s.die0.bind ++ s.die1.bind).find? fun c => c.ctx = ctx && c.q = q && !c.taken && c.pos = d.head) = some c0
    ∧ c = { c0 with taken := true, words := c.words, recd := false }
  point : s1.waitsPoint c.acq = false ∧ s1.waitsRelease c.rel = false
  idle : s.atWork ctx q (fun _ => true) = []
  alone : s1.takenOf d.die ctx q = []
  engine : (s1.die d.die).enginesBusy < 4
  zero : fld 9 7 (c.w 0) = 0

/-- The command left its ring as c2, and is in flight: HEAD has moved on, it stands last among the commands of the queue's die, and no
other byte of memory has changed since s2. -/
structure Taken (s2 t : State) (d : QDesc) (c2 : BindCmd) : Prop where
  queue : (t.die d.die).bind = ((s2.die d.die).bind.filter fun x => x.id ≠ c2.id) ++ [c2]
  other : ∀ n, (n = 0 ↔ d.die ≠ 0) → t.die n = s2.die n
  head : t.mem.readLE (d.at_ + 24) 4 = (d.head + 1) % 2 ^ 32
  bytes : SameBytesBut s2 t ((List.range 4).map (d.at_ + 24 + ·))
  blocks : t.blocks = s2.blocks

/-! ## Host commands and the mailbox -/

/-- c stands at the head of a port's ring (R316). -/
structure AtHead (s : State) (port : Nat) (c : HostCmd) : Prop where
  named : port < 2
  up : (s.port port).down = false
  head : ∃ n rest, (s.port port).pending = n :: rest ∧ c = s.hostCmd port n

/-- From u on, command c has only been completed: its word 7 is STATUS with DONE, the head has passed it, and the relay cores see an event
(R295, R314, R316). -/
structure Answered (u t : State) (port : Nat) (c : HostCmd) (status : Nat) : Prop where
  word : t.mem.readLE ((u.port port).cmdPlace c.pos + 56) 8 = status + 256
  bytes : SameBytesBut u t ((List.range 8).map ((u.port port).cmdPlace c.pos + 56 + ·))
  head : (u.port port).done = [] → c.pos = (u.port port).hcrh.toNat → (t.port port).hcrh = (u.port port).hcrh + 1
  event : t.internal = u.internal ++ [ievHost]
  rest : t = { u with mem := t.mem, internal := t.internal, port0 := t.port0, port1 := t.port1 }

/-- The host has started mailbox command `op` at a port, and its zero bits are 0 (R325). -/
structure Mailed (s : State) (port op : Nat) : Prop where
  named : port < 2
  up : (s.port port).down = false
  go : (s.port port).mbox.readLE 0xFF8 8 = 1
  op : (s.port port).mailOp = op
  zero : fld 8 56 ((s.port port).mailW 0) = 0

/-- From u on, the MGC has only answered the mailbox command of a port: STATUS, the data, and the word that started it is 0 (R325; the
data's offset is the model's, log 24). -/
structure Responded (u t : State) (port status : Nat) (data : List Byte) : Prop where
  status : (t.port port).mbox.read 0x800 = BitVec.ofNat 8 status
  data : ∀ i, i < data.length → i < 0x7F0 → (t.port port).mbox.read (0x808 + i) = data.getD i 0
  go : (t.port port).mbox.readLE 0xFF8 8 = 0
  kept : ∀ a, a < 0x800 → (t.port port).mbox.read a = (u.port port).mbox.read a
  bytes : t.mem = u.mem
  rest : t = { u with port0 := t.port0, port1 := t.port1 }

/-! ## Results in registers -/

/-- b' is b with s[d] written (s0 discards it) and the next word to issue; every other register, and everything else of the block, is
unchanged. -/
structure ScalarWrite (b b' : Block) (d : SReg) (v : W64) (p : Bool) : Prop where
  pc : b'.pc = b.pc + 8
  value : ∀ r, b'.gs r = if r = d ∧ r ≠ 0 then v else b.gs r
  poison : ∀ r, b'.ps r = if r = d ∧ r ≠ 0 then p else b.ps r
  rest : b' = { b with pc := b'.pc, s := b'.s, sp := b'.sp }

/-- A result in s[d], with its poison, and nothing else. -/
def ScalarResult (s : State) (k : BKey) (b : Block) (d : SReg) (v : W64) (p : Bool) (t : State) : Prop :=
  ∃ b', OnlyBlock s t k b' ∧ ScalarWrite b b' d v p

/-- b' is b with a[d] written and the next word to issue; the origin record of the file may fill. -/
structure RefWrite (b b' : Block) (d : ARef) (v : W64) (p : Bool) (o : Option Origin) : Prop where
  pc : b'.pc = b.pc + 8
  value : ∀ r, b'.ga r = if r = d then v else b.ga r
  poison : ∀ r, b'.pa r = if r = d then p else b.pa r
  origin : b'.origin = o
  rest : b' = { b with pc := b'.pc, a := b'.a, ap := b'.ap, origin := b'.origin }

/-- The origin record of the scalar and reference file after an instruction that may be its first poisoning, with cause BOUND, address 0
and this PC (R97, R149). -/
def Block.boundOrigin (b : Block) (first : Bool) : Option Origin :=
  match b.origin with
  | some o => some o
  | none => if first then some { cause := causeBound, addr := 0, pc := b.pc, dev := 0 } else none

/-- A result in a[d], with its poison, and nothing else. -/
def RefResult (s : State) (k : BKey) (b : Block) (d : ARef) (v : W64) (p : Bool) (o : Option Origin) (t : State) : Prop :=
  ∃ b', OnlyBlock s t k b' ∧ RefWrite b b' d v p o

/-- The block goes on at a PC, with nothing else changed. -/
def GoesTo (s : State) (k : BKey) (b : Block) (pc : W32) (t : State) : Prop := OnlyBlock s t k { b with pc := pc }

/-- The word at PC + 8 × off is fetched and decodes to an instruction of a kind (R122, R124). -/
def TargetIs (s : State) (k : BKey) (b : Block) (off : W32) (p : Instr → Prop) : Prop :=
  ∃ s1 w i, fetchWord s k b ((b.pc.toNat : Int) + 8 * off.toInt) = .ok s1 w ∧ decodeTile w = .ok i ∧ p i

/-- The condition of a control word (R123). -/
def condition (cc : Cc) (x y : W64) : Bool :=
  match cc with
  | .eq => x == y
  | .ne => x != y
  | .lt => x.slt y
  | .ge => y.sle x
  | .ltu => x.ult y
  | .geu => y.ule x

end Sys2Proof.Machine
end

