-- ==== Sys2Proof/Certificates/Slice0/Obligations.lean ====
section
/-! DEFINITION. The statements about the package that are put to proof. Each docstring names the rules it follows; where a clause rests on
a choice of the model it names the log entry. -/

open Sys2Proof Sys2Proof.Machine

/-! ### Integer instructions -/

/-- R145, R146, R147: the integer instructions: sums, logic, shifts, compares, products, division (which never traps), counts, selection, bit
fields and the immediate forms; the poison of every input that is read reaches the result, s0 discards it (R30), and no flag or other
register changes. -/
def Obligations.IntegerInstructions : Prop :=
  (∀ (s : State) (k : BKey) (b : Block) (d x y : SReg), Moves s k b →
    let r (v : W64) := ScalarResult s k b d v (b.ps x || b.ps y)
    let m := b.gs x
    let n := b.gs y
    Completes (.add d x y) s (r (m + n)) ∧ Completes (.sub d x y) s (r (m - n)) ∧ Completes (.mul d x y) s (r (m * n))
      ∧ Completes (.and d x y) s (r (m &&& n)) ∧ Completes (.or d x y) s (r (m ||| n)) ∧ Completes (.xor d x y) s (r (m ^^^ n))
      ∧ Completes (.sll d x y) s (r (m <<< (n &&& 63))) ∧ Completes (.srl d x y) s (r (m >>> (n &&& 63)))
      ∧ Completes (.sra d x y) s (r (m.sshiftRight (n &&& 63).toNat))
      ∧ Completes (.slt d x y) s (r (if m.slt n then 1 else 0)) ∧ Completes (.sltu d x y) s (r (if m.ult n then 1 else 0))
      ∧ Completes (.min d x y) s (r (if m.sle n then m else n)) ∧ Completes (.max d x y) s (r (if m.sle n then n else m)))
  ∧ (∀ (s : State) (k : BKey) (b : Block) (d x y : SReg), Moves s k b →
    let r (v : W64) := ScalarResult s k b d v (b.ps x || b.ps y)
    let m := b.gs x
    let n := b.gs y
    let overflow := m.toInt = -(2 ^ 63) ∧ n.toInt = -1
    (∃ v, Completes (.mulh d x y) s (r v) ∧ v.toInt = m.toInt * n.toInt / 2 ^ 64)
      ∧ (∃ v, Completes (.mulhu d x y) s (r v) ∧ v.toNat = m.toNat * n.toNat / 2 ^ 64)
      ∧ (∃ v, Completes (.div d x y) s (r v) ∧ (n = 0 → v.toInt = -1) ∧ (overflow → v.toInt = -(2 ^ 63))
          ∧ (n ≠ 0 → ¬ overflow → v.toInt = m.toInt.tdiv n.toInt))
      ∧ (∃ v, Completes (.divu d x y) s (r v) ∧ (n = 0 → v.toNat = 2 ^ 64 - 1) ∧ (n ≠ 0 → v.toNat = m.toNat / n.toNat))
      ∧ (∃ v, Completes (.rem d x y) s (r v) ∧ (n = 0 → v = m) ∧ (overflow → v = 0)
          ∧ (n ≠ 0 → v.toInt = m.toInt - n.toInt * m.toInt.tdiv n.toInt))
      ∧ (∃ v, Completes (.remu d x y) s (r v) ∧ (n = 0 → v = m) ∧ (n ≠ 0 → v.toNat = m.toNat % n.toNat)))
  ∧ (∀ (s : State) (k : BKey) (b : Block) (d x y c : SReg) (lo len1 : Fin 64) (sgn : Bool), Moves s k b → lo.val + len1.val < 64 →
    let one (v : W64) := ScalarResult s k b d v (b.ps x)
    let m := b.gs x
    (∃ v, Completes (.clz d x) s (one v) ∧ v.toNat ≤ 64 ∧ m.toNat < 2 ^ (64 - v.toNat) ∧ (m ≠ 0 → 2 ^ (63 - v.toNat) ≤ m.toNat))
      ∧ (∃ v, Completes (.popc d x) s (one v) ∧ v.toNat = (List.range 64).countP m.getLsbD)
      ∧ Completes (.sel d x y c) s (ScalarResult s k b d (if b.gs c ≠ 0 then m else b.gs y) (b.ps x || b.ps y || b.ps c))
      ∧ (∃ v, Completes (.bfx d x lo len1 sgn) s (one v) ∧ ∀ i, i < 64 → v.getLsbD i =
          if i ≤ len1.val then m.getLsbD (lo.val + i) else sgn && m.getLsbD (lo.val + len1.val))
      ∧ (∃ v, Completes (.bfi d x lo len1) s (ScalarResult s k b d v (b.ps d || b.ps x)) ∧ ∀ i, i < 64 → v.getLsbD i =
          if lo.val ≤ i ∧ i ≤ lo.val + len1.val then m.getLsbD (i - lo.val) else (b.gs d).getLsbD i))
  ∧ (∀ (s : State) (k : BKey) (b : Block) (d x : SReg) (imm : W32) (n : Fin 64), Moves s k b →
    let one (v : W64) := ScalarResult s k b d v (b.ps x)
    let m := b.gs x
    let i : W64 := imm.signExtend 64
    Completes (.addi d x imm) s (one (m + i)) ∧ Completes (.andi d x imm) s (one (m &&& i)) ∧ Completes (.ori d x imm) s (one (m ||| i))
      ∧ Completes (.xori d x imm) s (one (m ^^^ i)) ∧ Completes (.slli d x n) s (one (m <<< n.val))
      ∧ Completes (.srli d x n) s (one (m >>> n.val)) ∧ Completes (.srai d x n) s (one (m.sshiftRight n.val))
      ∧ Completes (.li d imm) s (ScalarResult s k b d i false)
      ∧ Completes (.lih d imm) s (ScalarResult s k b d (imm ++ (b.gs d).setWidth 32) (b.ps d)))

/-! ### References -/

/-- R149: forming and moving references checks no handle; an index or offset that does not fit, in operands that are not poisoned, poisons the
result with origin cause BOUND, address 0 and this PC, if no poisoning came before (R97). -/
def Obligations.References : Prop :=
  ∀ (s : State) (k : BKey) (b : Block) (d x : ARef) (e y z : SReg) (imm : W32), Moves s k b →
    let r (h off : Int) (bad input : Bool) :=
      RefResult s k b d (BitVec.ofInt 64 (h % 2 ^ 20 * 2 ^ 44 + off % 2 ^ 44)) (bad || input) (b.boundOrigin (bad && !input))
    let h : Int := (b.ga x).toNat / 2 ^ 44
    let off : Int := (b.ga x).toNat % 2 ^ 44
    let moved (n : Int) (input : Bool) := r h (off + n) (decide (off + n < 0) || decide (2 ^ 44 ≤ off + n)) input
    Completes (.refmk d y z) s
        (r (b.gs y).toNat (b.gs z).toNat (decide (2 ^ 20 ≤ (b.gs y).toNat) || decide (2 ^ 44 ≤ (b.gs z).toNat)) (b.ps y || b.ps z))
      ∧ Completes (.refmkW d y) s (RefResult s k b d (b.gs y) (b.ps y) b.origin)
      ∧ Completes (.refadd d x y) s (moved (b.gs y).toInt (b.pa x || b.ps y))
      ∧ Completes (.refaddImm d x imm) s (moved imm.toInt (b.pa x))
      ∧ Completes (.refh e x) s (ScalarResult s k b e (b.ga x >>> 44) (b.pa x))
      ∧ Completes (.refoff e x) s (ScalarResult s k b e (b.ga x &&& 0xFFFFFFFFFFF) (b.pa x))
      ∧ Completes (.refoffW e x) s (ScalarResult s k b e (b.ga x) (b.pa x))

/-! ### Control -/

/-- R123: the words of structured control flow, once the word at PC + 8 × off is of the kind that R122 requires and the scalars they read are
not poisoned: where the PC goes, and that nothing else changes but the count of an ENDL; a poisoned one traps POISON. -/
def Obligations.StructuredControl : Prop :=
  ∀ (s : State) (k : BKey) (b : Block) (cc : Cc) (x y : SReg) (off : W32), Moves s k b →
    let past := b.pc + 8 * (off + 1)
    let next := b.pc + 8
    let jumps (pc : W32) (t : State) := AccessOnly s t k { b with pc := pc }
    let c := condition cc (b.gs x) (b.gs y)
    let clean := b.ps x = false ∧ b.ps y = false
    let endl := TargetIs s k b off fun i => ∃ a o, i = .endl a o
    let poison (i : Instr) := ∃ s1, SameBytes s s1 ∧ s1.block? k = some b
      ∧ exec i s = .next (takeTrap s1 k b (FaultInfo.poisoned b.origin 0 none))
    (0 < off.toInt → clean → TargetIs s k b off (fun i => i = .endif ∨ ∃ o, i = .cElse o) →
        Completes (.cIf cc x y off) s (jumps (if c then next else past)))
      ∧ (0 < off.toInt → ¬ clean → (TargetIs s k b off (fun i => i = .endif ∨ ∃ o, i = .cElse o) → poison (.cIf cc x y off))
        ∧ (endl → poison (.brk cc x y off) ∧ poison (.cont cc x y off)))
      ∧ (b.ps x = true → (0 < off.toInt → endl → poison (.loopc x off))
        ∧ (off.toInt < 0 → TargetIs s k b off (fun i => ∃ o, i = .loopc x o) → poison (.endl x off)))
      ∧ (0 < off.toInt → TargetIs s k b off (fun i => i = .endif) → Completes (.cElse off) s (jumps past))
      ∧ Completes .endif s (GoesTo s k b next)
      ∧ (0 < off.toInt → endl → Completes (.loop off) s (jumps next))
      ∧ (0 < off.toInt → endl → b.ps x = false → Completes (.loopc x off) s (jumps (if b.gs x = 0 then past else next)))
      ∧ (0 < off.toInt → endl → clean → Completes (.brk cc x y off) s (jumps (if c then past else next)))
      ∧ (0 < off.toInt → endl → clean → Completes (.cont cc x y off) s (jumps (if c then b.pc + 8 * off else next)))
      ∧ (off.toInt < 0 → TargetIs s k b off (fun i => ∃ o, i = .loop o) → Completes (.endl 0 off) s (jumps past))
      ∧ (off.toInt < 0 → x ≠ 0 → b.ps x = false → TargetIs s k b off (fun i => ∃ o, i = .loopc x o) →
          Completes (.endl x off) s fun t => ∃ b', AccessOnly s t k b' ∧ b'.gs x = b.gs x - 1 ∧ (∀ r, r ≠ x → b'.gs r = b.gs r)
            ∧ b'.sp = b.sp &&& ~~~ BitVec.twoPow 32 x.val ∧ b'.pc = (if b.gs x = 1 then next else past)
            ∧ b' = { b with pc := b'.pc, s := b'.s, sp := b'.sp })

/-- R53, R125: CALL and CALLI push PC + 8 on the call stack of 16, RET pops it. A push onto a full stack, before any table is looked at, and
a pop from an empty one trap ILLEGAL; an index beyond its table traps BOUND with FLT3 the index. -/
def Obligations.CallsAndReturns : Prop :=
  ∀ (s : State) (k : BKey) (b : Block) (x : SReg) (off : W32), Moves s k b → off.toInt < 0 →
    (b.calls.length < 16 →
        Completes (.call off) s fun t => OnlyBlock s t k { b with pc := b.pc + 8 * off, calls := (b.pc + 8) :: b.calls })
      ∧ (16 ≤ b.calls.length → Traps (.call off) s k b (wordFault 0x01 (.call off)))
      ∧ (∀ pc rest, b.calls = pc :: rest → Completes .ret s fun t => OnlyBlock s t k { b with pc := pc, calls := rest })
      ∧ (b.calls = [] → Traps .ret s k b (wordFault 0x01 .ret))
      ∧ (16 ≤ b.calls.length → Traps (.calli x off) s k b (wordFault 0x01 (.calli x off)))
      ∧ (∀ s1 n, fetchWord s k b ((b.pc.toNat : Int) + 8 * off.toInt) = .ok s1 n → 1 ≤ n → n ≤ 256 →
          (b.calls.length < 16 → b.ps x = false → n ≤ (b.gs x).toNat →
            exec (.calli x off) s = .next (takeTrap s1 k b { FaultInfo.plain 0x03 with aux := b.gs x }))
          ∧ ∀ s2 e, (b.gs x).toNat < n → b.calls.length < 16 → b.ps x = false →
            fetchWord s1 k b ((b.pc.toNat : Int) + 8 * (off.toInt + 1 + (b.gs x).toNat)) = .ok s2 e →
            Completes (.calli x off) s fun t =>
              AccessOnly s t k { b with pc := b.pc + 8 * off + 8 * BitVec.ofNat 32 e, calls := (b.pc + 8) :: b.calls })

/-- R126, R135, R138: EXIT ends the block with its validity, with NONE in wrap-up; WRAPEND with its validity; VALID sets it, a poisoned scalar
NONE; NOP and YIELD only move on (YIELD's 64 cycles are timing). An ended block has retired once R119 holds. -/
def Obligations.EndsAndValidity : Prop :=
  ∀ (s : State) (k : BKey) (b : Block) (v : ValidArg), Moves s k b →
    Completes .exit s (fun t => OnlyBlock s t k { b with ended := some (if b.status.getLsbD 8 then .none else b.validity, 0) })
      ∧ Completes .wrapend s (fun t => OnlyBlock s t k { b with ended := some (b.validity, 0) })
      ∧ Completes (.valid v) s (fun t => OnlyBlock s t k { b with pc := b.pc + 8, validity :=
          match v with
          | .none => .none
          | .full => .full
          | .partImm f => .part f
          | .partReg x => if b.ps x then .none else .part (BitVec.ofNat 16 (min (b.gs x).toNat 65535)) })
      ∧ Completes .nop s (GoesTo s k b (b.pc + 8)) ∧ Completes .yield s (GoesTo s k b (b.pc + 8))

/-! ### Traps -/

/-- R96, R98, R127, R134, R135, R141, R202: TRAP takes the trap SOFTWARE: in user mode it writes FLT0 to FLT3 and ends the block with NONE,
while registers, tiles, queued accesses and memory stay; in system mode the routine ends and its block is killed with cause PREEMPT. A
poisoned request scalar of SHAPE, operand of SWR, command scalar of ENQ, origin scalar of TVIEW and table address of MSLT trap POISON with
the origin record; the system-only words and registers trap PRIV in user mode. -/
def Obligations.TrapsAndPrivilege : Prop :=
  (∀ (s : State) (k : BKey) (b : Block) (code : BitVec 16), Moves s k b →
    let ends (t : State) (b' : Block) (cause : Nat) (pc : W32) : Prop := t.block? k = some b' ∧ SameBytes s t
      ∧ b'.flt.flt0.toNat = cause * 2 ^ 56 + pc.toNat ∧ b'.flt.flt1 = 0 ∧ b'.flt.flt2 = 0 ∧ b'.ended = some (.none, cause)
    (b.sys = none → Completes (.trap code) s fun t => ∃ b', ends t b' 0x14 b.pc ∧ b'.flt.flt3 = code.setWidth 64
      ∧ b' = { b with
        flt := b'.flt
        ended := b'.ended
        trapTime := s.dtime
        sleep := none
        parts := []
        arrived := b'.arrived
        doneBar := b'.doneBar
        donePhase := b'.donePhase })
      ∧ ∀ m, b.sys = some m → Completes (.trap code) s fun t => ∃ b', ends t b' 0x16 m.userPc ∧ b'.flt.flt3 = 0 ∧ b'.sys = none
        ∧ b'.s = b.s ∧ b'.sp = b.sp ∧ b'.a = b.a ∧ b'.ap = b.ap ∧ b'.t = b.t ∧ b'.m = b.m
        ∧ b'.evq = (match s.saved.find? fun x => x.launch = b.launch && x.blklin = b.blklin with | some x => keptOf x.evq | none => []) ++ b.keptEvents
        ∧ ∀ x ∈ t.saved, ¬ (x.launch = b.launch ∧ x.blklin = b.blklin))
  ∧ (∀ (s s1 : State) (k : BKey) (b b1 : Block) (x y z : SReg) (r : BitVec 12) (sh : ShReg) (q : BitVec 12) (d : SReg) (ord : MemOrd)
      (td : TReg) (rows cols : Fin 256) (tile : Tile), Moves s k b →
    let f := FaultInfo.poisoned b.origin 0 none
    let g := FaultInfo.poisoned b1.origin 0 none
    ((b.ps x || b.ps y || b.ps z) = true → Traps (.shape sh x y z) s k b f)
      ∧ (b.ps x = true → (swrReg r = true → r.toNat < 0x100 ∨ b.status.getLsbD 9 = true → Traps (.swr x r) s k b f)
        ∧ (b.useTile td = .ok tile → Traps (.tview td rows cols x) s k b f))
      ∧ (SettledFor s k true (enqBytes q.toNat) s1 b1 → (∃ n, 8 ≤ n ∧ n < 16 ∧ b1.ps (Fin.ofNat 32 n) = true) →
        exec (.enq d q ord) s = .next (takeTrap s1 k b1 g))
      ∧ (SettledFor s k true (msltBytes x) s1 b1 → b1.status.getLsbD 9 = true → b1.ps x = true → exec (.mslt x) s = .next (takeTrap s1 k b1 g))
      ∧ f.cause = 0x08 ∧ ∀ o, b.origin = some o → f.ocause = o.cause ∧ f.aux = o.pc.setWidth 64 ∧ (f.addr.map fun p => p.2) = some o.addr)
  ∧ (∀ (s : State) (k : BKey) (b : Block) (x : SReg) (r : BitVec 12), Moves s k b → b.status.getLsbD 9 = false →
    let p (i : Instr) := Traps i s k b { FaultInfo.plain 0x02 with aux := BitVec.ofNat 64 ((encodeTile i).getD 0) }
    p .eret ∧ p .savectx ∧ p .loadctx ∧ p (.hinv x) ∧ p (.xroot x)
      ∧ (0x100 ≤ r.toNat → (srdReg r = true → p (.srd x r)) ∧ (swrReg r = true → p (.swr x r))) ∧ (b.evq = [] → b.ended = none → p (.mslt x)))

/-! ### Special registers -/

/-- R127 to R130: SRD of a user register, or in system mode of any register of the table but HINV, answers its value, never poisoned, and
changes no other state; of HINV, and of a number that no row names, it traps ILLEGAL in either mode. CAPQ writes the capability's value to
s[d] and then 0 to s[c], an index that the MX2 does not know giving 0 and 1; LWID writes the lane width. -/
def Obligations.SpecialRegisterReads : Prop :=
  (∀ (s : State) (k : BKey) (b : Block) (d : SReg) (r : BitVec 12), Moves s k b →
    let n := r.toNat
    let listed := n ≤ 0x008 ∨ (0x010 ≤ n ∧ n ≤ 0x015) ∨ (0x020 ≤ n ∧ n ≤ 0x023) ∨ (0x030 ≤ n ∧ n ≤ 0x032)
      ∨ n = 0x100 ∨ n = 0x101 ∨ n = 0x103 ∨ n = 0x104
    (¬ listed → Traps (.srd d r) s k b (wordFault 0x01 (.srd d r)))
    ∧ (listed → n < 0x100 ∨ b.status.getLsbD 9 = true → ∃ v, Completes (.srd d r) s (ScalarResult s k b d v false)
      ∧ (r = 0x002 → v = BitVec.ofNat 64 b.launch) ∧ (r = 0x003 → v = BitVec.ofNat 64 (k.core % 8))
      ∧ (r = 0x004 → v = BitVec.ofNat 64 (if s.clusters = 0 then 0 else k.core / 8 % s.clusters))
      ∧ (r = 0x005 → v = if k.core / 8 < s.clusters then 0 else 1)
      ∧ (r = 0x006 → v = s.devid.setWidth 64) ∧ (r = 0x008 → v = 4096) ∧ (r = 0x010 → v = BitVec.ofNat 64 s.dtime)
      ∧ (r = 0x013 → b.status.getLsbD 8 = true → v = BitVec.ofNat 64 (b.wbend - s.dtime))
      ∧ (r = 0x014 → v = b.wpc.setWidth 64) ∧ (r = 0x015 → v = BitVec.ofNat 64 (b.wcause % 256))
      ∧ (r = 0x020 → v = b.flt.flt0) ∧ (r = 0x021 → v = b.flt.flt1) ∧ (r = 0x022 → v = b.flt.flt2) ∧ (r = 0x023 → v = b.flt.flt3)
      ∧ (r = 0x030 → v = b.status) ∧ (r = 0x031 → v = b.gang) ∧ (r = 0x032 → v = b.seed)
      ∧ (r = 0x100 → v = (s.ctx (s.ctxNumOf b)).htb) ∧ (r = 0x101 → v = (s.ctx (s.ctxNumOf b)).htn)
      ∧ (r = 0x103 → v = (s.ctx (s.ctxNumOf b)).xroot) ∧ (r = 0x104 → v = s.saveaOf k)
      ∧ (∀ l, s.launchOf b = some l →
          let nx := l.man.gx + 1
          let ny := l.man.gy + 1
          (r = 0x000 → v = BitVec.ofNat 64 (b.blklin % nx + 2 ^ 32 * (b.blklin / nx % ny % 2 ^ 16) + 2 ^ 48 * (b.blklin / nx / ny % 2 ^ 16)))
          ∧ (r = 0x001 → v = BitVec.ofNat 64 (l.man.gx + l.man.gy * 2 ^ 32 + l.man.gz * 2 ^ 48))
          ∧ (r = 0x007 → v = BitVec.ofNat 64 l.man.ctx) ∧ (r = 0x011 → v = BitVec.ofNat 64 l.man.deadline)
          ∧ (r = 0x012 → v.toInt = if l.man.deadline = 2 ^ 64 - 1 then 2 ^ 63 - 1
              else max (-(2 ^ 63)) (min (2 ^ 63 - 1) ((l.man.deadline : Int) - s.dtime)))
          ∧ (r = 0x013 → b.status.getLsbD 8 = false → v = BitVec.ofNat 64 l.man.budget))))
  ∧ (∀ (s : State) (k : BKey) (b : Block) (d c a : SReg) (imm : W32), Moves s k b →
    Completes (.lwid d) s (ScalarResult s k b d 4096 false)
      ∧ ∃ v miss, (let i := (b.gs a + imm.setWidth 64).toNat
          (i = 0x00 → v = 0x0100) ∧ (i = 0x01 → v = 4096) ∧ (i = 0x02 → v = BitVec.ofNat 64 s.clusters) ∧ (i = 0x03 → v = 8)
          ∧ (i = 0x04 → v = 2) ∧ (i = 0x05 → v = 4) ∧ (i = 0x06 → v = 192) ∧ (i = 0x07 → v = 1572864) ∧ (i = 0x08 → v = 24)
          ∧ (i = 0x09 → v = 65536) ∧ (i = 0x0A → v = 32) ∧ (i = 0x0B → v = 134217728) ∧ (i = 0x0C → v = 128)
          ∧ (i = 0x0D → v = 768000000000) ∧ (i = 0x0E → v = BitVec.ofNat 64 s.secondTier) ∧ (i = 0x0F → v = BitVec.ofNat 64 s.domain)
          ∧ (i = 0x10 → v = 0x07F843FE) ∧ (i = 0x11 → v = 0x7F) ∧ (i = 0x12 → v = 8) ∧ (i = 0x13 → v = 1048576)
          ∧ (i = 0x14 → v = 16) ∧ (i = 0x15 → v = 16) ∧ (i = 0x16 → v = BitVec.ofNat 64 s.dstate)
          ∧ (i ≤ 0x16 → miss = 0) ∧ (0x17 ≤ i → v = 0 ∧ miss = 1))
        ∧ Completes (.capq d c a imm) s fun t => ∃ b', OnlyBlock s t k b' ∧ b'.pc = b.pc + 8
          ∧ (∀ r, b'.gs r = if r = 0 then 0 else if r = c then miss else if r = d then v else b.gs r)
          ∧ (∀ r, b'.ps r = if r = 0 then false else if r = c ∨ r = d then b.ps a else b.ps r)
          ∧ b' = { b with pc := b'.pc, s := b'.s, sp := b'.sp })

/-- R6, R79, R86, R87, R92, R127, R128: SWR writes the RW and W1C fields of a register and ignores the rest; in system mode it reaches HTB,
HTN and SAVEA; of a register whose fields are all RO, and of a number that no row names, it traps ILLEGAL in either mode. HINV drops one
entry or all of the context from every core's handle cache, and XROOT, once nothing of the context is outstanding, writes the root, dropping
the translations of its tags when these stay. -/
def Obligations.SpecialRegisterWrites : Prop :=
  (∀ (s : State) (k : BKey) (b : Block) (a : SReg), Moves s k b → b.ps a = false →
    let v := b.gs a
    let block (r : BitVec 12) (b' : Block) := Completes (.swr a r) s fun t => OnlyBlock s t k { b' with pc := b.pc + 8 }
    let c := s.ctx (s.ctxNumOf b)
    let ctx (r : BitVec 12) (c' : Ctx) := Completes (.swr a r) s fun t => BlockNow s t k { b with pc := b.pc + 8 }
      ∧ t.ctx (s.ctxNumOf b) = c' ∧ (∀ n, n ≠ s.ctxNumOf b → t.ctx n = s.ctx n)
      ∧ t = { s with blocks := t.blocks, ctxs := t.ctxs }
    block 0x030 { b with status := b.status &&& ~~~ (v &&& 0xFF) } ∧ block 0x031 { b with gang := v &&& 0xFF }
      ∧ block 0x032 { b with seed := v }
      ∧ (b.status.getLsbD 9 = true → ctx 0x100 { c with htb := v &&& 0x00FFFFFFFFFFF000 } ∧ ctx 0x101 { c with htn := v &&& 0x1FFFFF }
        ∧ Completes (.swr a 0x104) s fun t => BlockNow s t k { b with pc := b.pc + 8 }
          ∧ t.saveaOf k = v &&& 0x00FFFFFFFFFFFF80 ∧ (∀ k', k' ≠ k → t.saveaOf k' = s.saveaOf k')
          ∧ t = { s with blocks := t.blocks, savea := t.savea }))
  ∧ (∀ (s : State) (k : BKey) (b : Block) (a : SReg) (r : BitVec 12), Moves s k b →
    r ∉ ([0x030, 0x031, 0x032, 0x100, 0x101, 0x102, 0x103, 0x104] : List (BitVec 12)) → Traps (.swr a r) s k b (wordFault 0x01 (.swr a r)))
  ∧ (∀ (s : State) (k : BKey) (b : Block) (a : SReg), Moves s k b → b.ps a = false → b.status.getLsbD 9 = true →
    let v := b.gs a
    let n := s.ctxNumOf b
    let c := s.ctx n
    let vmid := fld 44 14 c.hroot.toNat
    let asid := fld 44 16 c.xroot.toNat
    let frame (t : State) := BlockNow s t k { b with pc := b.pc + 8 } ∧ (∀ m, m ≠ n → t.ctx m = s.ctx m)
      ∧ t = { s with blocks := t.blocks, ctxs := t.ctxs, tlb := t.tlb, pins := t.pins }
    Completes (.hinv a) s (fun t => frame t ∧ t.tlb = s.tlb ∧ ∃ hs, t.ctx n = { c with hcache := hs }
        ∧ ∀ core h e, (core, h, e) ∈ hs ↔ v.getLsbD 63 = false ∧ h ≠ v.toNat % 2 ^ 20 ∧ (core, h, e) ∈ c.hcache)
      ∧ (s.ctxBusy n = false → s.ctxHeld n (some k) = false → Completes (.xroot a) s fun t => frame t ∧ t.ctx n = { c with xroot := v }
        ∧ ∀ e, e ∈ t.tlb ↔ e ∈ s.tlb ∧ (fld 44 16 v.toNat = asid → ¬ (e.vmid = vmid ∧ e.asid = asid))))

/-! ### The lane engine -/

/-- R206, R207, R210: the element arithmetic of tiles of one window and one arithmetic format; an element of TADD, …, TNEG is its operation on
the elements of the sources, rounded under the draws of R67. -/
def Obligations.ElementArithmetic : Prop :=
  ∀ (s : State) (k : BKey) (b : Block) (td ta tb tc : TReg) (d x y z : Tile) (rnd : Rnd) (sat : Bool) (mask : Option MReg),
    Moves s k b → Dest b td d → d.fmt.arith = true → Operand s k b d ta x → x.fmt = d.fmt →
    let on := b.active mask d.wcols
    let run (op : EOp) (m : Rnd) (bad : Nat → Nat → Bool) :=
      ElementResult s k b td d on m (fun n i j => op.run d.fmt m sat n (x.get i j) (y.get i j) (z.get i j)) bad (b.writes mask)
    let one (op : EOp) := ElementResult s k b td d on .rne (fun n i j => op.run d.fmt .rne sat n (x.get i j) 0 0) x.poisoned (b.writes mask)
    let two (op : EOp) := ElementResult s k b td d on rnd (fun n i j => op.run d.fmt rnd sat n (x.get i j) (y.get i j) 0)
      (fun i j => x.poisoned i j || y.poisoned i j) (b.writes mask)
    Completes (.tabs td ta sat mask) s (one .abs) ∧ Completes (.tneg td ta sat mask) s (one .neg)
      ∧ (Operand s k b d tb y → y.fmt = d.fmt →
        Completes (.tadd td ta tb rnd sat mask) s (two .add) ∧ Completes (.tsub td ta tb rnd sat mask) s (two .sub)
          ∧ Completes (.tmul td ta tb rnd sat mask) s (two .mul) ∧ Completes (.tmin td ta tb rnd sat mask) s (two .min)
          ∧ Completes (.tmax td ta tb rnd sat mask) s (two .max)
          ∧ (Operand s k b d tc z → z.fmt = d.fmt → Completes (.tfma td ta tb tc rnd sat mask) s
              (run .fma rnd fun i j => x.poisoned i j || y.poisoned i j || z.poisoned i j)))

/-- R64, R65, R68, R206, R210: an integer element operation takes the exact result and wraps it to the width, or with sat clamps it to the
range and raises OVF where it had to. In a floating-point format a NaN among the operands read gives the canonical NaN; a sum of opposite
infinities and a product 0 × ∞ give it with NVL; an infinite result of any other operation is that infinity, or with sat the largest value
of its sign with OVF (never of ABS and NEG, which are exact); and MIN and MAX put −0 below +0. -/
def Obligations.ElementValues : Prop :=
  (∀ (op : EOp) (f : Efmt) (rnd : Rnd) (n a b c : Nat), f.isInt = true →
    let exact := match op with
      | .add => f.int a + f.int b
      | .sub => f.int a - f.int b
      | .mul => f.int a * f.int b
      | .fma => f.int a * f.int b + f.int c
      | .min => min (f.int a) (f.int b)
      | .max => max (f.int a) (f.int b)
      | .abs => (f.int a).natAbs
      | .neg => -f.int a
    let lo := f.intRange.1
    let hi := f.intRange.2
    ((op.run f rnd false n a b c).1 : Int) = exact % 2 ^ f.bits
      ∧ ((op.run f rnd true n a b c).1 : Int) = max lo (min hi exact) % 2 ^ f.bits
      ∧ ((op.run f rnd true n a b c).2 &&& flOVF ≠ 0 ↔ exact < lo ∨ hi < exact))
  ∧ (∀ (f : Efmt) (p : FloatFmt) (rnd : Rnd) (sat : Bool) (n a b c : Nat), f = .fp32 ∨ f = .fp16 ∨ f = .bf16 → f.float? = some p →
    let A := f.decode a
    let B := f.decode b
    let C := f.decode c
    let run (op : EOp) := op.run f rnd sat n a b c
    let invalid : Nat × W64 := (f.nanBits, flNVL)
    let inf (u : Bool) : Nat × W64 := if sat then (p.maxBits u, flOVF) else (p.infBits u, 0)
    let infinite (v : Val) : Prop := v = .inf false ∨ v = .inf true
    let numbers := A.isNan = false ∧ B.isNan = false
    let w := A.sign != B.sign
    (A.isNan = true → ∀ op, (run op).1 = f.nanBits ∧ (op ≠ .fma → (run op).2 = 0))
      ∧ (B.isNan = true → ∀ op, op ≠ .abs → op ≠ .neg → (run op).1 = f.nanBits ∧ (op ≠ .fma → (run op).2 = 0))
      ∧ (C.isNan = true → (run .fma).1 = f.nanBits)
      ∧ (∀ u, A = .inf u → run .abs = (p.infBits false, 0) ∧ run .neg = (p.infBits (!u), 0))
      ∧ (numbers → (∀ u, (A = .inf u ∧ B ≠ .inf (!u)) ∨ (B = .inf u ∧ A ≠ .inf (!u)) → run .add = inf u)
        ∧ (∀ u, (A = .inf u ∧ B ≠ .inf u) ∨ (B = .inf (!u) ∧ A ≠ .inf (!u)) → run .sub = inf u)
        ∧ (∀ u, A = .inf u → (B = .inf (!u) → run .add = invalid) ∧ (B = .inf u → run .sub = invalid))
        ∧ ((infinite A ∧ B.isZero = true) ∨ (A.isZero = true ∧ infinite B) → run .mul = invalid ∧ run .fma = invalid)
        ∧ ((infinite A ∧ B.isZero = false) ∨ (A.isZero = false ∧ infinite B) → run .mul = inf w
          ∧ (C.isNan = false → C ≠ .inf (!w) → run .fma = inf w) ∧ (C = .inf (!w) → run .fma = invalid))
        ∧ (¬ infinite A → ¬ infinite B → ∀ u, C = .inf u → run .fma = inf u)
        ∧ (A = .inf true ∨ B = .inf true → run .min = inf true) ∧ (A = .inf false ∨ B = .inf false → run .max = inf false))
      ∧ (∀ t u e e', A = .fin t 0 e → B = .fin u 0 e' →
          (f.decode (EOp.run .min f rnd sat n a b c).1).sign = (t || u) ∧ (f.decode (EOp.run .max f rnd sat n a b c).1).sign = (t && u)))

/-- R206, R214, R215: bitwise logic of encodings, and shifts of integer encodings, arithmetic to the right for the signed formats. A window of
w-bit elements is one string, element i × C + j its bits [kw + w − 1 : kw]; TBSH shifts it left by a signed count, TFSH takes the window's
length of bits from a place in the string of two windows; bits from outside are 0. -/
def Obligations.BitwiseElements : Prop :=
  (∀ (s : State) (k : BKey) (b : Block) (td ta tb : TReg) (d x y : Tile) (n : Fin 256) (mask : Option MReg),
    Moves s k b → Dest b td d → d.fmt.plain = true → Operand s k b d ta x → x.fmt = d.fmt →
    let w := d.fmt.bits
    let one (f : Nat → Nat) := ElementResult s k b td d (b.active mask d.wcols) .rne (fun _ i j => (f (x.get i j), 0)) x.poisoned (b.writes mask)
    let two (f : Nat → Nat → Nat) := ElementResult s k b td d (b.active mask d.wcols) .rne (fun _ i j => (f (x.get i j) (y.get i j), 0))
      (fun i j => x.poisoned i j || y.poisoned i j) (b.writes mask)
    Completes (.tnot td ta mask) s (one fun v => 2 ^ w - 1 - v % 2 ^ w)
      ∧ (Operand s k b d tb y → y.fmt = d.fmt → Completes (.tand td ta tb mask) s (two fun u v => u &&& v)
          ∧ Completes (.tor td ta tb mask) s (two fun u v => u ||| v) ∧ Completes (.txor td ta tb mask) s (two fun u v => u ^^^ v))
      ∧ (d.fmt.isInt = true → Completes (.tshl td ta n mask) s (one fun v => v * 2 ^ n.val % 2 ^ w)
          ∧ Completes (.tshr td ta n mask) s (one fun v => bitsOf w (d.fmt.int v / 2 ^ n.val))))
  ∧ (∀ (s : State) (k : BKey) (b : Block) (td ta tb : TReg) (d x y : Tile) (c : SReg),
    Moves s k b → Dest b td d → d.fmt.plain = true → Operand s k b d ta x → x.fmt = d.fmt → b.ps c = false →
    x.poison = [] → y.poison = [] →
    let w := d.fmt.bits
    let len := d.wrows * d.wcols * w
    let bit (t : Tile) (n : Int) : Bool :=
      0 ≤ n && n < len && (t.get (n.toNat / w / d.wcols) (n.toNat / w % d.wcols)).testBit (n.toNat % w)
    let result (q : Int → Bool) (t : State) := ∃ v : Nat → Nat → Nat,
      ElementResult s k b td d (fun _ _ => true) .rne (fun _ i j => (v i j, 0)) (fun _ _ => false) .none t
        ∧ ∀ i j, d.Has i j → v i j < 2 ^ w ∧ ∀ n, n < w → (v i j).testBit n = q (((i * d.wcols + j) * w + n : Nat) : Int)
    Completes (.tbsh td ta c none) s (result fun n => bit x (n - (b.gs c).toInt))
      ∧ (Operand s k b d tb y → y.fmt = d.fmt →
          Completes (.tfsh td ta tb c none) s (result fun n => bit x (n + (b.gs c).toNat) || bit y (n + (b.gs c).toNat - len))))

/-- R216, R217, R218: the special functions on FP32, FP16 and BF16 tiles of one window. Their special cases; and for a finite nonzero x the
formulas: x′ is x cut to 13 significant bits, TRCP and TRSQ round 1 / x′ and 1 / √x′ (a value that lies between n and n + 1 units is rounded as
n + ½, where n has 100 bits), TRCPN and TRSQN round y + y × e once, and TEXP2 of an integer and TLOG2 of a power of two round the exact value. -/
def Obligations.SpecialFunctions : Prop :=
  (∀ (s : State) (k : BKey) (b : Block) (td ta tb : TReg) (d x y : Tile) (mask : Option MReg),
    Moves s k b → Dest b td d → d.fmt.special = true → Operand s k b d ta x → x.fmt = d.fmt →
    let on := b.active mask d.wcols
    let one (op : SFun) := ElementResult s k b td d on .rne (fun _ i j => op.run d.fmt (x.get i j) 0) x.poisoned (b.writes mask)
    let two (op : SFun) := ElementResult s k b td d on .rne (fun _ i j => op.run d.fmt (x.get i j) (y.get i j))
      (fun i j => x.poisoned i j || y.poisoned i j) (b.writes mask)
    Completes (.trcp td ta mask) s (one .rcp) ∧ Completes (.trsq td ta mask) s (one .rsq) ∧ Completes (.texp2 td ta mask) s (one .exp2)
      ∧ Completes (.tlog2 td ta mask) s (one .log2)
      ∧ (Operand s k b d tb y → y.fmt = d.fmt → Completes (.trcpn td ta tb mask) s (two .rcpn)
          ∧ Completes (.trsqn td ta tb mask) s (two .rsqn)))
  ∧ (∀ (f : Efmt) (p : FloatFmt) (x y : Nat), f.special = true → f.float? = some p → y < 2 ^ f.bits →
    let X := f.decode x
    let Y := f.decode y
    let r (op : SFun) := op.run f x y
    let round (v : Val) := f.round .rne false 0 v
    let zero (u : Bool) : Nat × W64 := (u.toNat * 2 ^ (p.ebits + p.fbits), 0)
    let inf (u : Bool) : Nat × W64 := (p.infBits u, 0)
    let nan : Nat × W64 := (p.nanBits, 0)
    let invalid : Nat × W64 := (p.nanBits, flNVL)
    let number := Y.isNan = false
    (X.isNan = true → r .rcp = nan ∧ r .rsq = nan ∧ r .exp2 = nan ∧ r .log2 = nan)
      ∧ (X.isNan = true ∨ Y.isNan = true → r .rcpn = nan ∧ r .rsqn = nan)
      ∧ (∀ u e, X = .fin u 0 e → r .rcp = inf u ∧ r .rsq = inf u ∧ r .exp2 = (p.bias * 2 ^ p.fbits, 0) ∧ r .log2 = inf true
        ∧ (number → r .rcpn = inf u ∧ r .rsqn = inf u))
      ∧ (∀ u, X = .inf u → r .rcp = zero u ∧ r .exp2 = (if u then zero false else inf false) ∧ (number → r .rcpn = zero u)
        ∧ (u = false → r .rsq = zero false ∧ r .log2 = inf false ∧ (number → r .rsqn = zero false)))
      ∧ (X = .inf true ∨ (∃ m e, X = .fin true (m + 1) e) → r .rsq = invalid ∧ r .log2 = invalid ∧ (number → r .rsqn = invalid))
      ∧ ∀ s m e, X = .fin s m e → 0 < m →
        let signed (t : Bool) (n : Nat) : Int := if t then -(n : Int) else n
        (Y.isZero = true ∨ Y = .inf false ∨ Y = .inf true → r .rcpn = (y, 0) ∧ (s = false → r .rsqn = (y, 0)))
        ∧ (∀ t n g, Y = .fin t n g → 0 < n →
            let z := min g (e + 2 * g)
            let v := 2 * signed t n * 2 ^ (g - z).toNat - signed s m * signed t n ^ 2 * 2 ^ (e + 2 * g - z).toNat
            let z' := min g (e + 3 * g)
            let v' := 3 * signed t n * 2 ^ (g - z').toNat - signed s m * signed t n ^ 3 * 2 ^ (e + 3 * g - z').toNat
            r .rcpn = round (.fin (v < 0) v.natAbs z) ∧ (s = false → r .rsqn = round (.fin (v' < 0) v'.natAbs (z' - 1))))
        ∧ (∀ c d : Nat, c * 2 ^ d ≤ m → m < (c + 1) * 2 ^ d → c < 2 ^ 13 → d = 0 ∨ 2 ^ 12 ≤ c →
            (∃ n j : Nat, 2 ^ 100 ≤ n ∧ n * c ≤ 2 ^ j ∧ 2 ^ j < (n + 1) * c
              ∧ r .rcp = round (if n * c = 2 ^ j then .fin s n (-(e + d) - j) else .fin s (2 * n + 1) (-(e + d) - j - 1)))
            ∧ (s = false → ∃ (n j : Nat) (q : Int), 2 ^ 100 ≤ n ∧ n * n * c ≤ 2 ^ j ∧ 2 ^ j < (n + 1) * (n + 1) * c ∧ (j : Int) = -(2 * q + (e + d))
              ∧ r .rsq = round (if n * n * c = 2 ^ j then .fin false n q else .fin false (2 * n + 1) (q - 1))))
        ∧ (∀ i : Int, i ≠ 0 → s = decide (i < 0) → m * 2 ^ e.toNat = i.natAbs * 2 ^ (-e).toNat → r .exp2 = round (.fin false 1 i))
        ∧ (∀ l : Nat, m = 2 ^ l → s = false → r .log2 = round (.fin (e + l < 0) (e + l).natAbs 0)))

/-- R211, R212, R213, R207: conversion to the destination's format, with scales; comparison into a mask, whose bits outside the active window
are 0; and selection by the bits of a mask. The values: an integer wraps or clamps, a value is rounded to an integer in its mode and clamped, NaN
and infinities as R64 and R65 say; and each predicate of two values. -/
def Obligations.ConversionComparisonSelection : Prop :=
  (∀ (s : State) (k : BKey) (b : Block) (td ta tb : TReg) (d x y : Tile) (rnd : Rnd) (sat : Bool) (mask : Option MReg) (md m : MReg)
      (pred : Fin 256), Moves s k b → Dest b td d → Operand s k b d ta x →
    Completes (.tcvt td ta d.fmt rnd sat mask) s (ElementResult s k b td d (b.active mask d.wcols) rnd
        (fun n i j => convert x.fmt d.fmt rnd sat n (x.value true i j) (x.fmt.int (x.get i j))) x.poisoned (b.writes mask))
      ∧ (Operand s k b d tb y → y.fmt = x.fmt →
        (x.fmt.arith = true → Completes (.tcmp md ta tb x.fmt pred mask) s fun t => ∃ b' r, BlockNow s t k b'
          ∧ TilesOnly s t ∧ b'.gm md = r ∧ (∀ m', m' ≠ md → b'.gm m' = b.gm m')
          ∧ (∀ i j, d.Has i j → r.bits.getLsbD (i * d.wcols + j)
              = (b.active mask d.wcols i j && predHolds pred.val (x.fmt.decode (x.get i j)) (x.fmt.decode (y.get i j))))
          ∧ (∀ n, d.wrows * d.wcols ≤ n → r.bits.getLsbD n = false)
          ∧ (r.poison = true ↔ (b.reads mask).bad = true
              ∨ ∃ i j, d.Has i j ∧ b.active mask d.wcols i j = true ∧ (x.poisoned i j || y.poisoned i j) = true)
          ∧ b'.pc = b.pc + 8 ∧ OtherTiles b b' []
          ∧ b' = { b with pc := b'.pc, m := b'.m, t := b'.t, deps := b'.deps, superseded := b'.superseded })
        ∧ (x.fmt = d.fmt → d.fmt.plain = true → let bit (i j : Nat) := (b.gm m).bits.getLsbD (i * d.wcols + j)
          Completes (.tsel td ta tb (some m)) s (ElementResult s k b td d (fun _ _ => true) .rne
            (fun _ i j => (if bit i j then x.get i j else y.get i j, 0))
            (fun i j => if bit i j then x.poisoned i j else y.poisoned i j) (b.reads (some m)))))
      ∧ Traps (.tsel td ta tb none) s k b (wordFault 0x01 (.tsel td ta tb none)))
  ∧ (∀ (src dst : Efmt) (rnd : Rnd) (sat : Bool) (n : Nat) (v : Fv) (i : Int),
    let r := convert src dst rnd sat n v i
    let lo := dst.intRange.1
    let hi := dst.intRange.2
    let clamped (q : Int) : Prop := (r.1 : Int) = max lo (min hi q) % 2 ^ dst.bits
    let inside (q : Int) : Prop := lo ≤ q ∧ q ≤ hi
    (src.isInt = true → dst.isInt = true → (sat = false → (r.1 : Int) = i % 2 ^ dst.bits ∧ r.2 = 0)
        ∧ (sat = true → clamped i ∧ (inside i → r.2 = 0) ∧ (¬ inside i → r.2 = flOVF)))
      ∧ (src.isInt = false → dst.isInt = true → (v.1 = .nan → r = (0, v.2 ||| flNVL))
        ∧ (∀ u, v.1 = .inf u → clamped (if u then lo else hi) ∧ r.2 = v.2 ||| flOVF)
        ∧ ∀ s m e, v.1 = .fin s m e →
          let den : Nat := 2 ^ (-e).toNat
          let num : Nat := m * 2 ^ e.toNat
          let x : Int := if s then -(num : Int) else num
          ∃ q : Int, (match rnd with
              | .rne => 2 * (x - q * den).natAbs ≤ den ∧ (2 * (x - q * den).natAbs = den → q % 2 = 0)
              | .rz => q = x.tdiv den
              | .rdn => q * den ≤ x ∧ x < (q + 1) * den
              | .rup => (q - 1) * den < x ∧ x ≤ q * den
              | .rsr => q = (if s then -1 else 1) * ((num / den + (if n < num % den * 65536 / den then 1 else 0) : Nat) : Int))
            ∧ clamped q ∧ r.2 = v.2 ||| (if lo ≤ q ∧ q ≤ hi then 0 else flOVF ||| flINX) ||| (if q * den = x then 0 else flINX))
      ∧ (∀ p, src.isInt = false → dst.float? = some p →
        (v.1 = .nan → r = (p.nanBits, v.2 ||| if p.special = .none then flNVL else 0))
        ∧ ∀ u, v.1 = .inf u → r = match p.special with
          | .ieee => if sat then (p.maxBits u, v.2 ||| flOVF) else (p.infBits u, v.2)
          | .nanOnly => if sat then (p.maxBits u, v.2 ||| flOVF) else (p.nanBits, v.2 ||| flNVL)
          | .none => (p.maxBits u, v.2 ||| flOVF)))
  ∧ (∀ x y : Val,
    let holds (n : Nat) : Prop := predHolds n x y = true
    (x.isNan = true ∨ y.isNan = true → holds 1 ∧ holds 6 ∧ ¬ holds 0 ∧ ¬ holds 2 ∧ ¬ holds 3 ∧ ¬ holds 4 ∧ ¬ holds 5 ∧ ¬ holds 7)
      ∧ (x.isNan = false → y.isNan = false → ¬ holds 6 ∧ holds 7 ∧ (holds 1 ↔ ¬ holds 0) ∧ (holds 3 ↔ holds 2 ∨ holds 0)
        ∧ (holds 5 ↔ holds 4 ∨ holds 0) ∧ (∀ u v, x = .inf u → y = .inf v → (holds 0 ↔ u = v) ∧ (holds 2 ↔ u = true ∧ v = false)
            ∧ (holds 4 ↔ u = false ∧ v = true))
        ∧ (∀ u s m e, x = .inf u → y = .fin s m e → ¬ holds 0 ∧ (holds 2 ↔ u = true) ∧ (holds 4 ↔ u = false))
        ∧ (∀ u s m e, x = .fin s m e → y = .inf u → ¬ holds 0 ∧ (holds 2 ↔ u = false) ∧ (holds 4 ↔ u = true))
        ∧ ∀ s m e t n g, x = .fin s m e → y = .fin t n g →
          let a := scaled s m e (min e g)
          let b := scaled t n g (min e g)
          (holds 0 ↔ a = b) ∧ (holds 2 ↔ a < b) ∧ (holds 4 ↔ b < a)))

/-- R219, R220: a row's active elements are summed exactly and rounded once, or their largest is taken; a scan does so for the columns up to
each, or before each. A poisoned element poisons what it contributes to. The sum of integers wraps or clamps; in a floating-point format NaN and
infinities decide first, an exact zero has the sign of R68, and no element gives +0. -/
def Obligations.RowFolds : Prop :=
  (∀ (s : State) (k : BKey) (b : Block) (td ta : TReg) (d x : Tile) (kind : Scan) (rnd : Rnd) (sat : Bool) (mask : Option MReg),
    Moves s k b → Dest b td d → s.source k b ta = .ok x → x.home = .s → x.fmt = d.fmt → d.fmt.arith = true → x.wrows = d.wrows →
    let cols (i : Nat) := (List.range x.wcols).filter fun j => b.active mask x.wcols i j
    let fold (m : Rnd) (f : Nat → List Nat → Nat × W64) := ElementResult s k b td d (fun _ _ => true) m
      (fun n i _ => f n ((cols i).map (x.get i))) (fun i _ => (cols i).any (x.poisoned i)) (b.reads mask)
    (d.wcols = 1 → Completes (.tsumr td ta rnd sat mask) s (fold rnd fun n vs => sumRow d.fmt rnd sat n vs)
        ∧ Completes (.tmaxr td ta mask) s (fold .rne fun _ vs => (maxRow d.fmt vs, 0)))
      ∧ (x.wcols = d.wcols → let upTo (j : Nat) := List.range (if kind = .exc then j else j + 1)
        Completes (.tscanr td ta kind rnd sat) s (ElementResult s k b td d (fun _ _ => true) rnd
          (fun n i j => let vs := (upTo j).map (x.get i)
            if kind = .max then
              (if d.fmt.isInt then (maxRow d.fmt vs, 0) else d.fmt.round rnd sat n (d.fmt.decode (maxRow d.fmt vs)))
            else sumRow d.fmt rnd sat n vs)
          (fun i j => (upTo j).any (x.poisoned i)) .none)))
  ∧ (∀ (f : Efmt) (rnd : Rnd) (sat : Bool) (n : Nat) (vs : List Nat), f.isInt = true →
    let sum := (vs.map f.int).foldl (· + ·) 0
    let lo := f.intRange.1
    let hi := f.intRange.2
    let r := sumRow f rnd sat n vs
    (sat = false → (r.1 : Int) = sum % 2 ^ f.bits ∧ r.2 = 0)
      ∧ (sat = true → (r.1 : Int) = max lo (min hi sum) % 2 ^ f.bits ∧ r.2 = if lo ≤ sum ∧ sum ≤ hi then 0 else flOVF))
  ∧ (∀ (f : Efmt) (p : FloatFmt) (rnd : Rnd) (sat : Bool) (n : Nat) (vs : List Nat), f.special = true → f.float? = some p →
    let V := vs.map f.decode
    let r := sumRow f rnd sat n vs
    let zero (u : Bool) : Nat × W64 := (u.toNat * 2 ^ (p.ebits + p.fbits), 0)
    ((∃ v ∈ V, v.isNan = true) → r = (p.nanBits, 0))
      ∧ ((∀ v ∈ V, v.isNan = false) →
        (.inf false ∈ V → .inf true ∈ V → r = (p.nanBits, flNVL))
        ∧ (∀ u, .inf u ∈ V → .inf (!u) ∉ V → r = if sat then (p.maxBits u, flOVF) else (p.infBits u, 0))
        ∧ (V = [] → r = zero false)
        ∧ (.inf false ∉ V → .inf true ∉ V → V ≠ [] → ∀ z : Int, (∀ s m e, .fin s m e ∈ V → z ≤ e) →
          let sum := (V.map fun v => match v with | .fin s m e => scaled s m e z | _ => 0).foldl (· + ·) 0
          (sum ≠ 0 → r = f.round rnd sat n (.fin (sum < 0) sum.natAbs z))
          ∧ (sum = 0 → (∀ u, (∀ v ∈ V, v.isZero = true ∧ v.sign = u) → r = zero u)
            ∧ ((¬ ∃ u, ∀ v ∈ V, v.isZero = true ∧ v.sign = u) → r = zero (rnd = .rdn))))))

/-- R221, R222, R223: TOPK writes the n highest active elements of each row, in rank order, and their columns, with 0 and 0xFFFFFFFF beyond the
row's active elements; TSORTR writes each row in rank order, and the columns to a second tile when it names one. -/
def Obligations.RankedRows : Prop :=
  ∀ (s : State) (k : BKey) (b : Block) (td tc ta : TReg) (d c x : Tile) (n : Fin 256) (desc : Bool) (mask : Option MReg),
    Moves s k b → Dest b td d → Dest b tc c → td ≠ tc → s.source k b ta = .ok x → x.home = .s → x.fmt = d.fmt → d.fmt.arith = true →
    c.fmt.index = true → c.wrows = d.wrows → c.wcols = d.wcols → x.wrows = d.wrows →
    let active (i : Nat) := (List.range x.wcols).filter fun j => b.active mask x.wcols i j
    let value (i : Nat) (js : List Nat) (q : Nat) : Nat := match js[q]? with
      | some j => x.fmt.canon (x.get i j)
      | none => 0
    (d.wcols = n.val → n.val ≤ x.wcols → Completes (.topk td tc ta n mask) s fun t => ∃ b' y z, TileFrame s t k b b' [td, tc]
        ∧ b'.gt td = some y ∧ b'.gt tc = some z ∧ ∀ i, i < d.wrows → ∃ js, Ranked x.fmt true (x.get i) (active i) n.val js
          ∧ ∀ q, q < n.val → y.elems.getD (d.index i q) 0 = value i js q ∧ z.elems.getD (c.index i q) 0 = (js[q]?).getD 0xFFFFFFFF)
      ∧ (x.wcols = d.wcols →
        Completes (.tsortr td ta none desc) s (fun t => ∃ b' y, TileFrame s t k b b' [td] ∧ b'.gt td = some y
            ∧ ∀ i, i < d.wrows → ∃ js, Ranked x.fmt desc (x.get i) (List.range x.wcols) x.wcols js
              ∧ ∀ q, q < x.wcols → y.elems.getD (d.index i q) 0 = value i js q)
          ∧ Completes (.tsortr td ta (some tc) desc) s fun t => ∃ b' y z, TileFrame s t k b b' [td, tc] ∧ b'.gt td = some y
            ∧ b'.gt tc = some z ∧ ∀ i, i < d.wrows → ∃ js, Ranked x.fmt desc (x.get i) (List.range x.wcols) x.wcols js
              ∧ ∀ q, q < x.wcols → y.elems.getD (d.index i q) 0 = value i js q ∧ z.elems.getD (c.index i q) 0 = (js[q]?).getD 0)

/-- R97, R207, R224, R225: TPERM takes each active element from the row or column that the index tile names, an index outside the source's
window being clamped and raising CLMP; in a block-scaled format no index may be outside and, along the block axis, whole blocks move. TBCAST
repeats one row or column. Logic of whole masks with the poison of the operands, and the record of the first poisoned one unless the mask
was poisoned already, and the count of the bits of a mask; nothing else changes but, at MCNT of a poisoned mask, the origin record of the
scalars. -/
def Obligations.PermutationsAndMasks : Prop :=
  (∀ (s : State) (k : BKey) (b : Block) (td ta tb : TReg) (d x y : Tile) (col : Bool) (mask : Option MReg),
    Moves s k b → Dest b td d → s.source k b ta = .ok x → x.home = .s → x.fmt = d.fmt →
    let on := b.active mask d.wcols
    let once (i j : Nat) : Nat × Nat := if col then (i, 0) else (0, j)
    (d.fmt.plain = true → (if col then x.wcols = 1 ∧ x.wrows = d.wrows else x.wrows = 1 ∧ x.wcols = d.wcols) →
      Completes (.tbcast td ta col mask) s (ElementResult s k b td d on .rne (fun _ i j => (x.get (once i j).1 (once i j).2, 0))
        (fun i j => x.poisoned (once i j).1 (once i j).2) (b.writes mask)))
    ∧ (s.source k b tb = .ok y → y.home = .s → y.fmt.index = true →
      (if col then x.wrows = d.wrows ∧ y.wrows = 1 ∧ y.wcols = d.wcols else x.wcols = d.wcols ∧ y.wcols = 1 ∧ y.wrows = d.wrows) →
      let n := if col then d.wcols else d.wrows
      let limit := if col then x.wcols else x.wrows
      let idx (q : Nat) : Int := y.fmt.int (if col then y.get 0 q else y.get q 0)
      let out (q : Nat) : Prop := idx q < 0 ∨ (limit : Int) ≤ idx q
      let place (q : Nat) : Nat := if idx q < 0 then 0 else min (idx q).toNat (limit - 1)
      let from_ (i j : Nat) : Nat × Nat := if col then (i, place j) else (place i, j)
      (d.fmt.block ≠ 0 → d.lay.colwise = x.lay.colwise ∧ (∀ q, q < n → ¬ out q)
        ∧ ((col != d.lay.colwise) = true → wholeBlocks ((List.range n).map idx) d.fmt.block = true)) →
      Completes (.tperm td ta tb col mask) s (WindowResult s k b td d (b.active mask (if d.wcols = 1 then x.wcols else d.wcols)) (fun i j => x.get (from_ i j).1 (from_ i j).2)
        (fun i j => x.poisoned (from_ i j).1 (from_ i j).2 || (d.fmt.block != 0 && x.blockPoisoned (from_ i j).1 (from_ i j).2)
          || (if col then y.poisoned 0 j else y.poisoned i 0))
        (b.writes mask) (fun m => flCLMP.getLsbD m = true ∧ ∃ q, q < n ∧ out q) b.seed)))
  ∧ (∀ (s : State) (k : BKey) (b : Block) (md ma mb : MReg) (d : SReg), Moves s k b →
    let result (v : BitVec 65536) (p : Bool) (o : Option Origin) (t : State) := ∃ b', OnlyBlock s t k b' ∧ b'.pc = b.pc + 8
      ∧ (∀ m, b'.gm m = if m = md then { bits := v, poison := p, origin := if p && (b.gm md).poison then (b.gm md).origin else o } else b.gm m) ∧ b' = { b with pc := b'.pc, m := b'.m, deps := b'.deps }
    let x := b.gm ma
    let y := b.gm mb
    let o := if x.poison then x.origin else if y.poison then y.origin else none
    Completes (.mand md ma mb) s (result (x.bits &&& y.bits) (x.poison || y.poison) o)
      ∧ Completes (.mor md ma mb) s (result (x.bits ||| y.bits) (x.poison || y.poison) o)
      ∧ Completes (.mnot md ma) s (result (~~~ x.bits) x.poison (if x.poison then x.origin else none))
      ∧ Completes (.mcnt d ma) s fun t => ∃ b' v, OnlyBlock s t k b' ∧ v.toNat = (List.range 65536).countP x.bits.getLsbD
        ∧ b'.pc = b.pc + 8 ∧ (∀ r, b'.gs r = if r = d ∧ r ≠ 0 then v else b.gs r)
        ∧ (∀ r, b'.ps r = if r = d ∧ r ≠ 0 then x.poison else b.ps r)
        ∧ b'.origin = (match b.origin with | some o => some o | none => if x.poison ∧ d ≠ 0 then x.origin else none)
        ∧ b' = { b with pc := b'.pc, s := b'.s, sp := b'.sp, origin := b'.origin, deps := b'.deps })

/-! ### Shapes, bindings and windows -/

/-- R157, R158, R159: SHAPE grants a record for a request and writes the grant to its scalars; SHQ reads a field of a record; SHQ.ADV moves to
the next strip, or rewinds. A zero or oversized request, and an advance of an invalid record, trap SHAPE. -/
def Obligations.ShapeRecords : Prop :=
  ∀ (s : State) (k : BKey) (b : Block) (sh : ShReg) (x y z d : SReg) (f : Fin 16), Moves s k b →
    let m := (b.gs x).toNat
    let n := (b.gs y).toNat
    let kk := (b.gs z).toNat
    let r := b.gsh sh
    let trap (i : Instr) := Traps i s k b (FaultInfo.plain 0x0D)
    let left := r.ktot - (r.kpos + r.kcur)
    (b.ps x = false → b.ps y = false → b.ps z = false →
        (0 < m ∧ m < 2 ^ 32 ∧ 0 < n ∧ n < 2 ^ 32 ∧ kk < 2 ^ 32 → Completes (.shape sh x y z) s fun t => ∃ b' g, OnlyBlock s t k b'
          ∧ g.gn = min n 256 ∧ g.gm = min (min m 256) (32768 / g.gn) ∧ (kk = 0 → g.gk = 0)
          ∧ (kk ≤ min 256 (32768 / max g.gm g.gn) → g.gk = kk)
          ∧ (min 256 (32768 / max g.gm g.gn) < kk → g.gk = min 256 (32768 / max g.gm g.gn) / 32 * 32)
          ∧ g = { gm := g.gm, gn := g.gn, gk := g.gk, kcur := g.gk, v := true, ktot := kk, kpos := 0 } ∧ b'.pc = b.pc + 8
          ∧ (∀ q, b'.gsh q = if q = sh then g else b.gsh q)
          ∧ (∀ q, b'.gs q = if q = 0 then 0 else if q = z then BitVec.ofNat 64 g.gk else if q = y then BitVec.ofNat 64 g.gn
              else if q = x then BitVec.ofNat 64 g.gm else b.gs q)
          ∧ (∀ q, b'.ps q = if q = 0 then false else if q = z ∨ q = y ∨ q = x then false else b.ps q)
          ∧ b' = { b with pc := b'.pc, s := b'.s, sp := b'.sp, sh := b'.sh })
        ∧ (m = 0 ∨ n = 0 ∨ 2 ^ 32 ≤ m ∨ 2 ^ 32 ≤ n ∨ 2 ^ 32 ≤ kk → trap (.shape sh x y z)))
      ∧ (∃ v, Completes (.shq d sh f) s (ScalarResult s k b d v false) ∧ (r.v = false → v = 0) ∧ (r.v = true →
          (f = 0 → v = BitVec.ofNat 64 r.gm) ∧ (f = 1 → v = BitVec.ofNat 64 r.gn) ∧ (f = 2 → v = BitVec.ofNat 64 r.gk)
          ∧ (f = 3 → v = BitVec.ofNat 64 r.kcur) ∧ (f = 4 → v = BitVec.ofNat 64 r.ktot) ∧ (f = 5 → v = BitVec.ofNat 64 r.kpos)
          ∧ (f = 6 → r.gk ≠ 0 → v = BitVec.ofNat 64 ((r.ktot - r.kpos + r.gk - 1) / r.gk))))
      ∧ (r.v = true → r.gk ≠ 0 → Completes (.shqAdv d sh) s fun t => ∃ b' r', OnlyBlock s t k b' ∧ b'.pc = b.pc + 8
          ∧ r' = (if left = 0 then { r with kpos := 0, kcur := min r.gk r.ktot }
              else { r with kpos := r.kpos + r.kcur, kcur := min r.gk left })
          ∧ (∀ q, b'.gsh q = if q = sh then r' else b.gsh q)
          ∧ (∀ q, b'.gs q = if q = 0 then 0 else if q = d then (if left = 0 then 0 else BitVec.ofNat 64 r'.kcur) else b.gs q)
          ∧ (∀ q, b'.ps q = if q = 0 ∨ q = d then false else b.ps q) ∧ b' = { b with pc := b'.pc, s := b'.s, sp := b'.sp, sh := b'.sh })
      ∧ (r.v = false ∨ r.gk = 0 → trap (.shqAdv d sh))

/-- R155, R160, R161, R165, R167: a bind makes a tile of zeros, unit scales and no poison, with the whole extent as its window, when its
extent is legal and the stores have room, counting the shares that it borrows, which have room for the old slots still in use too; a
K-linked bind notes its shape record. TUNBIND frees the name, and traps SHAPE on a tile that is too shallow for its strip. -/
def Obligations.Binding : Prop :=
  ∀ (s : State) (k : BKey) (b : Block) (td : TReg) (rows cols : Fin 256) (fmt : Efmt) (home : Home) (lay : Lay) (sh : ShReg), Moves s k b →
    let r := b.gsh sh
    let fresh (link : Option (ShReg × Bool)) (m n : Nat) (y : Tile) := y.link = link ∧ y.home = home ∧ y.lay = lay ∧ y.fmt = fmt
      ∧ y.brows = m ∧ y.bcols = n ∧ y.srows = m ∧ y.scols = n ∧ y.wrow0 = 0 ∧ y.wcol0 = 0 ∧ y.wrows = m ∧ y.wcols = n ∧ y.cmp = false
      ∧ y.raw = [] ∧ y.unwritten = false
      ∧ y.elems = Array.replicate (m * n) 0 ∧ (∀ i : Nat, ∀ v, y.scales[i]? = some v → v = fmt.unitScale) ∧ y.poison = [] ∧ y.origin = none
      ∧ y.tscale = (if fmt = .ks4 then 0x3F800000 else 0)
    let bound (i : Instr) (link : Option (ShReg × Bool)) (m n : Nat) := (home = .s → elementPlaneBytes fmt lay m n ≤ 131072) →
      (fmt.block ≠ 0 → blockAxis lay m n % fmt.block = 0) →
      let u := (b.usageBut (some td)).add (Tile.bound link home lay fmt m n 0).usage
      (∃ ls, borrow u (s.core k.core).win b.loans (s.lendable k.core) = some ls
        ∧ (u.add (b.supersede td).oldUsage).fits (s.core k.core).win (ls.length + 1) = true) →
      Completes i s fun t => ∃ b' y, BlockNow s t k b' ∧ t = { s with blocks := t.blocks, freeCount := s.freeCount + 1 }
        ∧ b'.gt td = some y ∧ fresh link m n y ∧ (∀ u, u ≠ td → b'.gt u = b.gt u)
        ∧ b' = { b with pc := b.pc + 8, t := b'.t, loans := b'.loans, superseded := (b.supersede td).superseded }
    bound (.tbind td rows cols fmt home lay) none (rows.val + 1) (cols.val + 1)
      ∧ (r.v = true → bound (.tbindMn td sh fmt home lay) none r.gm r.gn)
      ∧ (r.v = true → r.gk ≠ 0 → bound (.tbindMk td sh fmt home lay) (some (sh, false)) r.gm r.gk
          ∧ bound (.tbindKn td sh fmt home lay) (some (sh, true)) r.gk r.gn)
      ∧ (∀ f, b.gt td ≠ none → b.useTile td = .error f → Traps (.tunbind td) s k b f)
      ∧ ((∀ f, b.useTile td = .error f → b.gt td = none) → Completes (.tunbind td) s fun t => ∃ b', OnlyBlock s t k b' ∧ b'.gt td = none
          ∧ (∀ u, u ≠ td → b'.gt u = b.gt u)
          ∧ b' = { b with pc := b.pc + 8, t := b'.t, loans := b'.loans, superseded := (b.supersede td).superseded })

/-- R161, R162: TVIEW sets the window inside the bound extent, at whole blocks, and clears the link; TLAY changes the layout of a tile of home
s in a fresh slot, once its share has room for it, keeps its elements and scales, and poisons the lines of the new layout that hold a poisoned
element; accumulators keep the row layout. That the TLAY of an accumulator clears a link too (R161; R162 says that it changes nothing) is the
model's choice (log 13). -/
def Obligations.WindowsAndLayouts : Prop :=
  ∀ (s : State) (k : BKey) (b : Block) (td : TReg) (rows cols : Fin 256) (a : SReg) (lay : Lay) (x : Tile),
    Moves s k b → b.useTile td = .ok x →
    let br := if x.link.isSome then x.wrows else x.brows
    let bc := if x.link.isSome then x.wcols else x.bcols
    let r0 := (b.gs a).toNat / 256 % 256
    let c0 := (b.gs a).toNat % 256
    let whole : Prop := x.fmt.block = 0 ∨ (if x.lay = .col then r0 % x.fmt.block = 0 ∧ (rows.val + 1) % x.fmt.block = 0
      else c0 % x.fmt.block = 0 ∧ (cols.val + 1) % x.fmt.block = 0)
    (b.ps a = false → r0 + rows.val + 1 ≤ br → c0 + cols.val + 1 ≤ bc → whole → Completes (.tview td rows cols a) s fun t => ∃ b',
        OnlyBlock s t k b' ∧ (∀ u, u ≠ td → b'.gt u = b.gt u) ∧ b' = { b with pc := b.pc + 8, t := b'.t }
        ∧ b'.gt td = some { x with
            link := none
            brows := br
            bcols := bc
            wrow0 := r0
            wcol0 := c0
            wrows := rows.val + 1
            wcols := cols.val + 1 })
      ∧ (x.home = .s → (x.fmt.block ≠ 0 → lay.colwise = x.lay.colwise) →
        (∀ b1 : Block, b1 = (b.supersede td).putT td (some { x.unlink.relaid lay with
            phys := s.freeCount
            unwritten := false }) →
          ((b1.usageBut none).add b1.oldUsage).fits (s.core k.core).win (b.loans.length + 1) = true) →
        Completes (.tlay td lay) s fun t => ∃ b' y,
        BlockNow s t k b' ∧ t = { s with blocks := t.blocks, freeCount := s.freeCount + 1 } ∧ b'.gt td = some y
        ∧ (∀ u, u ≠ td → b'.gt u = b.gt u)
        ∧ b' = { b with pc := b.pc + 8, t := b'.t, deps := b'.deps, loans := b'.loans, superseded := (b.supersede td).superseded }
        ∧ (∀ l, l ∈ y.poison ↔ ∃ i j m, i < br ∧ j < bc ∧ l ∈ y.linesAt i j ∧ m ∈ x.linesAt i j ∧ m ∈ x.poison)
        ∧ y = { x with
            link := none
            brows := br
            bcols := bc
            lay := lay
            cmp := false
            raw := []
            poison := y.poison
            phys := y.phys
            unwritten := false })
      ∧ (x.home = .a → (lay = .row → Completes (.tlay td lay) s fun t => ∃ b', OnlyBlock s t k b' ∧ b'.gt td = some { x with
            link := none
            brows := br
            bcols := bc }
          ∧ (∀ u, u ≠ td → b'.gt u = b.gt u) ∧ b' = { b with pc := b.pc + 8, t := b'.t, deps := b'.deps })
        ∧ (lay ≠ .row → Traps (.tlay td lay) s k b (FaultInfo.atTile 0x13 td 0 0)))

/-- R169: TZERO fills the window with zeros, TFILL of a plain format with the low bits of a scalar, poisoned when the scalar is; TCPYT copies a
window of the same format element by element, and to itself only moves on; TSETTLE, once no older slot of the tile is in use, leaves the
tile uncompressed. -/
def Obligations.FillsAndCopies : Prop :=
  ∀ (s : State) (k : BKey) (b : Block) (td ta : TReg) (a : SReg) (x y : Tile) (mask : Option MReg),
    Moves s k b → b.useTile td = .ok x → x.Fits →
    let fill (v : Nat) (bad : Bool) := WindowResult s k b td x (fun _ _ => true) (fun _ _ => v) (fun _ _ => bad) .none (fun _ => False) b.seed
    Completes (.tzero td) s (fill 0 false)
      ∧ (x.fmt.block = 0 → Completes (.tfill td a) s (fill ((b.gs a).toNat % 2 ^ x.fmt.bits) (b.ps a)))
      ∧ (s.source k b ta = .ok y → td ≠ ta → y.fmt = x.fmt → x.fmt.block = 0 → y.wrows = x.wrows → y.wcols = x.wcols →
        Completes (.tcpyt td ta mask) s (WindowResult s k b td x (b.active mask x.wcols) y.get y.poisoned (b.writes mask)
          (fun _ => False) b.seed))
      ∧ (s.source k b td = .ok y → x.fmt.block = 0 → Completes (.tcpyt td td mask) s fun t => TileFrame s t k b { b with
          pc := b.pc + 8
          deps := ((t.block? k).getD b).deps } [])
      ∧ (∀ s1 b1, Settled s k (writesTile td) s1 b1 → b1.useTile td = .ok y → (∀ p ∈ b1.superseded, p.1 ≠ td) →
        Completes (.tsettle td) s fun t => ∃ b' z, BlockNow s1 t k b' ∧ TilesOnly s1 t
        ∧ b'.gt td = some z ∧ z.cmp = false ∧ z.elems = y.elems ∧ z.scales = y.scales ∧ z.poison = y.poison
        ∧ (∀ u, u ≠ td → b'.gt u = b1.gt u)
        ∧ b' = { b1 with pc := b1.pc + 8, t := b'.t, deps := b'.deps, superseded := b'.superseded })

/-- R154, R170: TDESC reads a word of a descriptor, 0 for an unbound name; TSTAT counts poisoned lines, finds the first poisoned element of the
window (all ones without one), reads the cause of the origin record, and reads the share and what is used of it. -/
def Obligations.DescriptorReads : Prop :=
  ∀ (s s1 : State) (k : BKey) (b0 b : Block) (d : SReg) (ta : TReg) (n : Fin 256), Moves s k b0 → Settled s k (writesTile ta) s1 b →
    let one (i : Instr) (v : Nat) := Completes i s (ScalarResult s1 k b d (BitVec.ofNat 64 v) false)
    (b.gt ta = none → one (.tdesc d ta n) 0)
      ∧ (3 ≤ n.val → ∃ v, Completes (.tstat d ta n) s (ScalarResult s k b0 d (BitVec.ofNat 64 v) false) ∧ (n = 3 → v = 48) ∧ (n = 4 → v = (1572864 - (s.core k.core).win) / 512 * 128)
          ∧ (n = 5 → v = 16384) ∧ (n = 6 → v = (List.finRange 64).countP fun u => (b0.gt u).isSome) ∧ (n = 7 → v = (b0.usageBut none).bytes) ∧ (8 ≤ n.val → v = b0.loans.length))
      ∧ ∀ x, b.useTile ta = .ok x →
        (∃ v, one (.tdesc d ta n) v ∧
          (n = 0 → x.link = none → v = 2 ^ 63 + x.lsh.val * 2 ^ 57 + x.cmp.toNat * 2 ^ 56 + Home.code x.home * 2 ^ 55 + x.lay.code * 2 ^ 52
            + x.fmt.code * 2 ^ 47 + (x.brows - 1) * 2 ^ 39 + (x.bcols - 1) * 2 ^ 31)
          ∧ (n = 1 → v = x.wrow0 * 2 ^ 56 + x.wcol0 * 2 ^ 48 + (x.wrows - 1) * 2 ^ 40 + (x.wcols - 1) * 2 ^ 32 + x.tscale.toNat)
          ∧ (n = 2 → v = x.ebytes * 2 ^ 32 + x.sbytes))
        ∧ (n.val ≤ 2 → ∃ v, one (.tstat d ta n) v
          ∧ (n = 0 → x.brows = x.srows → x.bcols = x.scols → v = x.poison.length)
          ∧ (n = 1 → (v = 2 ^ 64 - 1 ∧ ∀ i j, x.Has i j → x.poisoned i j = false)
              ∨ ∃ i j, x.Has i j ∧ x.poisoned i j = true ∧ v = i * 256 + j
                ∧ ∀ i' j', x.Has i' j' → x.poisoned i' j' = true → i < i' ∨ (i = i' ∧ j ≤ j'))
          ∧ (n = 2 → v = match x.origin with | some o => o.cause | none => 0))

/-! ### Scalar memory -/

/-- R97, R104, R112, R150, R151, R152, R241: a load whose checks pass queues one access of its width, weak as a Read and otherwise as a
Perform: one unit for s[d], or two halves for the pair s[d], s[d+1]; no register and no byte changes yet. A load that meets a fault does not
trap but poisons its destination with zero, fills a clear origin record, and goes on; a poisoned reference traps POISON. LDA is performed at
the home. -/
def Obligations.ScalarLoads : Prop :=
  ∀ (s s1 : State) (k : BKey) (b : Block) (d : SReg) (a : ARef) (ord : MemOrd) (disp : BitVec 24), Moves s k b →
    let image := b.ga a
    let off : Int := refOff image + disp.toInt
    let load (i : Instr) (n : Nat) (pair home : Bool) :=
      (b.pa a = true → Traps i s k b (FaultInfo.poisoned b.origin a.val none))
      ∧ (b.pa a = false → ∀ h im ps, locate s (s.envOf k b) (refH image) off n (n != 1) Need.load = .ok s1 (h, im, ps) →
        let unit (at_ len : Nat) : EvUnit := EvUnit.load (im + BitVec.ofNat 64 at_) ((ps.drop at_).take len) [.reg at_]
        Completes i s fun t => ∃ e,
        AccessOnly s t k { b with
          pc := b.pc + 8
          evq := b.evq ++ [e] }
        ∧ e = { e with
          kind := if ord = .weak then .read else .perform
          pc := b.pc
          ord := ord
          rmw := none
          atHome := home
          dest := if pair then .pair d else .scalar d
          ref := some (a, image, disp.toInt)
          units := if pair then [unit 0 8, unit 8 8] else [unit 0 n]
          clmp := false
          pwb := false }
        ∧ ps.length = n)
      ∧ (b.pa a = false → ∀ f, locate s (s.envOf k b) (refH image) off n (n != 1) Need.load = .bad s1 f → ∃ b', exec i s = .next (s1.setBlock k b')
        ∧ b'.pc = b.pc + 8 ∧ (∀ r, b'.gs r = if r ≠ 0 ∧ (r = d ∨ pair ∧ r = d + 1) then 0 else b.gs r)
        ∧ (∀ r, b'.ps r = if r ≠ 0 ∧ (r = d ∨ pair ∧ r = d + 1) then true else b.ps r)
        ∧ b'.origin = (if d = 0 ∧ pair = false then b.origin else some (b.origin.getD {
          cause := f.cause
          addr := (f.addr.map fun p => p.2).getD 0
          pc := b.pc
          dev := f.dev }))
        ∧ b' = { b with pc := b'.pc, s := b'.s, sp := b'.sp, origin := b'.origin })
    load (.ldB d a ord disp) 1 false false ∧ load (.ldH d a ord disp) 2 false false ∧ load (.ldW d a ord disp) 4 false false
      ∧ load (.ldD d a ord disp) 8 false false ∧ load (.ldq d a ord disp) 16 true false ∧ load (.lda d a ord disp) 8 false true

/-- R104, R150, R151, R152, R153, R241: a store whose checks pass queues its bytes, little-endian, for the places found: a strong one as a
Perform, a weak one as a Drain where the chase of its reference ended; no byte of memory changes yet. Without a chase no reference register
changes. A fault traps with the reference register in its record. -/
def Obligations.ScalarStores : Prop :=
  ∀ (s s1 : State) (k : BKey) (b : Block) (d : SReg) (a : ARef) (ord : MemOrd) (disp : BitVec 24), Moves s k b → b.pa a = false →
    b.ps d = false →
    let image := b.ga a
    let off : Int := refOff image + disp.toInt
    let env := s.envOf k b
    let data (n : Nat) := if n = 16 then leBytes 8 (b.gs d).toNat ++ leBytes 8 (b.gs (d + 1)).toNat else leBytes n (b.gs d).toNat
    let store (i : Instr) (n : Nat) (home : Bool) := (n = 16 → b.ps (d + 1) = false) →
      (∀ h im ps, locate s env (refH image) off n (n != 1) Need.store = .ok s1 (h, im, ps) → ∀ us s2 chased,
        (if ord = .weak then chaseStore s1 env n (scalarUnits im ps n (n = 16) (data n)) = .ok s2 (us, chased)
          else us = scalarUnits im ps n (n = 16) (data n) ∧ s2 = s1 ∧ chased = none) →
        Completes i s fun t => ∃ b' e, BlockNow s t k b' ∧ b'.evq = b.evq ++ [e] ∧ b' = { b with pc := b.pc + 8, evq := b'.evq, a := b'.a, ap := b'.ap }
          ∧ (chased = none → b'.a = b.a ∧ b'.ap = b.ap) ∧ (∀ r, r ≠ a → b'.ga r = b.ga r)
          ∧ e.kind = (if ord = .weak then .drain else .perform) ∧ e.pc = b.pc ∧ e.ord = ord ∧ e.rmw = none ∧ e.atHome = home ∧ e.dest = .none
          ∧ e.units = us ∧ (us.flatMap fun u => u.data) = data n)
      ∧ (∀ f, locate s env (refH image) off n (n != 1) Need.store = .bad s1 f → exec i s = .next (takeTrap s1 k b { f with aref := a.val }))
    store (.stB d a ord disp) 1 false ∧ store (.stH d a ord disp) 2 false ∧ store (.stW d a ord disp) 4 false
      ∧ store (.stD d a ord disp) 8 false ∧ store (.stq d a ord disp) 16 false ∧ store (.stl d a ord disp) 8 true

/-- R81, R151: an access with a HIDX of 0 or beyond the table meets HANDLE, one outside the bound BOUND, one whose virtual address is no
multiple of its width ALIGN; the rights come before the bound. -/
def Obligations.AccessChecks : Prop :=
  ∀ (s s1 : State) (e : Env) (h : Nat) (off : Int) (n : Nat) (al : Bool) (need : Need) (he : HEntry), h < 2 ^ 20 →
    let image := mkRef h (off % 2 ^ 44).toNat
    (h = 0 ∨ (s.ctx e.ctx).handles ≤ h → locate s e h off n al need = .bad s (FaultInfo.atRef 0x05 image))
      ∧ (h ≠ 0 → h < (s.ctx e.ctx).handles → (s.ctx e.ctx).badRoot = false → readHandle s e image = .ok s1 he →
        (s1.entryValid (s1.ctx e.ctx) he = false → locate s e h off n al need = .bad s1 (FaultInfo.atRef 0x05 image))
        ∧ (s1.entryValid (s1.ctx e.ctx) he = true →
          (he.grants need = false → locate s e h off n al need = .bad s1 (FaultInfo.atRef 0x04 image))
          ∧ (he.grants need = true → corepinReach (s1.ctx e.ctx) e.core he = true →
            (off < 0 ∨ (he.bound : Int) < off + n → locate s e h off n al need = .bad s1 (FaultInfo.atRef 0x03 image))
            ∧ (0 ≤ off → off + n ≤ he.bound → al = true → (he.base + off.toNat) % n ≠ 0 →
                locate s e h off n al need = .bad s1 (FaultInfo.atVA 0x0C (he.base + off.toNat))))))

/-! ### Queued accesses -/

/-- R105, R106, R111, R112, R114, R117: a load unit whose waits are satisfied, which forwards from no store, takes the bytes at its home,
and a scalar load of one unit then writes them, zero-extended, to its register and leaves the queue; no byte changes, and a Perform expands
the coded blocks that it reads. A store unit whose waits are satisfied writes its bytes at their homes, each coded block expanded first, and
a store of one unit then leaves the queue; every other byte stays. A point of an engine command whose waits are satisfied leaves the queue;
Expand makes a coded block raw and changes no byte. -/
def Obligations.QueuedAccesses : Prop :=
  (∀ (s s1 : State) (k : BKey) (b : Block) (e : Ev) (u : EvUnit) (d : SReg) (bs : List Byte), s.block? k = some b →
    (b.evq.find? fun x => x.id = e.id) = some e → e.units = [u] → s.unitEnabled k b e.id 0 = true → e.dest = .scalar d → e.rmw = none →
    u.data = [] → u.bad = none → u.zero = false → forwardFrom s b e u = none →
    readUnit s { s.envOf k b with drain := e.buffered } e.need u.image u.place = .ok s1 (none, bs) → e.clmp = false → e.pwb = false →
    e.chased = none →
    let done (t : State) := AccessOnly s t k { b.putS d (BitVec.ofNat 64 (leNat bs)) false with
      evq := b.evq.filter fun x => x.id ≠ e.id }
    (e.kind = .read → Completes (.read k e.id 0) s done)
      ∧ (e.kind = .perform → Completes (.perform k e.id 0) s fun t =>
        done { t with coded := s.coded } ∧ ∀ p ∈ u.now s1, kvGet (p / 512) t.coded = none))
  ∧ (∀ (s s1 : State) (k : BKey) (b : Block) (e : Ev) (u : EvUnit) (ps : List Nat), s.block? k = some b →
    (b.evq.find? fun x => x.id = e.id) = some e → e.units = [u] → s.unitEnabled k b e.id 0 = true → e.dest = .none → e.rmw = none →
    u.data ≠ [] → u.mask = [] → u.data.length = ps.length → ps.Nodup → u.bad = none → u.zero = false →
    chaseAll s { s.envOf k b with drain := e.buffered } e.need u.image u.image u.place = .ok s1 (none, ps) → e.clmp = false → e.pwb = false → e.chased = none →
    let done (t : State) := t.block? k = some { b with evq := b.evq.filter fun x => x.id ≠ e.id }
      ∧ (∀ k', k' ≠ k → t.block? k' = s.block? k') ∧ t.readHomes ps = u.data ∧ SameBytesBut s t ps
      ∧ (∀ p ∈ ps, kvGet (p / 512) t.coded = none)
    (e.kind = .drain → Completes (.drain k e.id 0) s done) ∧ (e.kind = .perform → Completes (.perform k e.id 0) s done))
  ∧ (∀ (s : State) (k : BKey) (b : Block) (e : Ev) (pa : Nat), s.block? k = some b →
    Completes (.expand pa) s (fun t => kvGet (pa / 512) t.coded = none ∧ SameBytes s t ∧ t = { s with coded := t.coded }
        ∧ ∀ n, n ≠ pa / 512 → kvGet n t.coded = kvGet n s.coded)
      ∧ ((b.evq.find? fun x => x.id = e.id) = some e → pointEnabled b.evq e.id s.engineBusy = true →
        (e.engine = none → k ∉ s.stopped) →
        let gone (t : State) := OnlyBlock s t k { b with evq := b.evq.filter fun x => x.id ≠ e.id }
        (e.kind = .acqPoint → Completes (.acquirePoint k e.id) s gone) ∧ (e.kind = .relPoint → Completes (.releasePoint k e.id) s gone)))

/-- R104, R236, R238, R239, R240: ATOM and CAS whose checks pass queue one Perform with the operation; the Perform reads the old value into the
destination and stores the new one at once, CAS only where the old value is the expected one. The Perform of an ATOM or CAS writes the old
value to s[d] and, where the operation stores, the new value at the homes of its bytes; every other byte stays. The integer operations of
R238 wrap at the width. -/
def Obligations.AtomicOperations : Prop :=
  (∀ (s s1 : State) (k : BKey) (b : Block) (op : AOp) (d x y : SReg) (a : ARef) (ord : MemOrd) (disp : BitVec 24), Moves s k b →
    b.pa a = false → b.ps x = false →
    let image := b.ga a
    let off : Int := refOff image + disp.toInt
    let pairOf (r : SReg) : Nat := (b.gs r).toNat + 2 ^ 64 * (b.gs (r + 1)).toNat
    let queued (i : Instr) (n : Nat) (dest : EvDest) (rmw : RmwOp) :=
      (∀ h im ps, locate s (s.envOf k b) (refH image) off n true Need.atomic = .ok s1 (h, im, ps) → Completes i s fun t => ∃ e u,
        AccessOnly s t k { b with
          pc := b.pc + 8
          evq := b.evq ++ [e] }
        ∧ e.kind = .perform ∧ e.pc = b.pc ∧ e.ord = ord ∧ e.rmw = some rmw ∧ e.dest = dest ∧ e.units = [u] ∧ u.place = ps ∧ u.image = im)
      ∧ ∀ f, locate s (s.envOf k b) (refH image) off n true Need.atomic = .bad s1 f →
          exec i s = .next (takeTrap s1 k b { f with aref := a.val })
    queued (.atomW op d a x ord disp) 4 (.scalar d) (.atom op (b.gs x)) ∧ queued (.atomD op d a x ord disp) 8 (.scalar d) (.atom op (b.gs x))
      ∧ (b.ps y = false → queued (.casW d a x y ord disp) 4 (.scalar d) (.cas (b.gs x).toNat (b.gs y).toNat)
        ∧ queued (.casD d a x y ord disp) 8 (.scalar d) (.cas (b.gs x).toNat (b.gs y).toNat)
        ∧ (b.ps (x + 1) = false → b.ps (y + 1) = false → queued (.cas16 d a x y ord disp) 16 (.pair d) (.cas (pairOf x) (pairOf y)))))
  ∧ ((∀ (s s1 : State) (k : BKey) (b : Block) (e : Ev) (u : EvUnit) (d : SReg) (op : RmwOp) (ps : List Nat), s.block? k = some b →
    (b.evq.find? fun x => x.id = e.id) = some e → e.units = [u] → s.unitEnabled k b e.id 0 = true → e.kind = .perform → e.dest = .scalar d →
    e.rmw = some op → u.bad = none → u.zero = false → ps.Nodup → (ps.any fun p => s1.eccAt p) = false → ps.length = 4 ∨ ps.length = 8 →
    chaseAll s { s.envOf k b with drain := e.buffered } e.need u.image u.image u.place = .ok s1 (none, ps) → e.clmp = false → e.pwb = false → e.chased = none →
    let old := leNat (s.readHomes ps)
    Completes (.perform k e.id 0) s fun t =>
      t.block? k = some { b.putS d (BitVec.ofNat 64 old) false with
        evq := b.evq.filter fun x => x.id ≠ e.id }
      ∧ (∀ k', k' ≠ k → t.block? k' = s.block? k') ∧ SameBytesBut s t ps
      ∧ leNat (t.readHomes ps) = (match op.store ps.length old with
        | some v => v % 2 ^ (8 * ps.length)
        | none => old))
  ∧ ∀ (w v : Nat) (o : W64), w = 4 ∨ w = 8 → v < 2 ^ (8 * w) →
    let m := 2 ^ (8 * w)
    let n := o.toNat % m
    let sto (op : AOp) (r : Nat) := (RmwOp.atom op o).store w v = some r
    sto .add ((v + n) % m) ∧ sto .umin (min v n) ∧ sto .umax (max v n) ∧ sto .and (v &&& n) ∧ sto .or (v ||| n) ∧ sto .xor (v ^^^ n)
      ∧ sto .xchg n ∧ sto .incw (if n ≤ v then 0 else v + 1)
      ∧ sto .smin (if signedOf (8 * w) v ≤ signedOf (8 * w) n then v else n) ∧ sto .smax (if signedOf (8 * w) v ≤ signedOf (8 * w) n then n else v)
      ∧ ∀ x y, (RmwOp.cas x y).store w v = if v = x % m then some (y % m) else none)

/-! ### Tile memory -/

/-- R96, R111, R173, R174, R177, R181: TLD and TLDG, TST and TSTS whose checks pass queue one access of the tile's window: its units, with an
acquire point before or a release point after it; no byte of memory and no element has changed yet (a tile that a store expands
keeps its value), and of the rest of the state nothing but what the checks leave behind (`AccessOnly`). The index rows of TLDG and TSTS come
from their index tile. -/
def Obligations.TileAccesses : Prop :=
  ∀ (s s1 s2 : State) (k : BKey) (b : Block) (td tx : TReg) (a : ARef) (r : SReg) (kc : Bool) (ord : MemOrd) (disp : BitVec 20) (x : Tile)
      (h : HEntry) (us : List EvUnit), Moves s k b → b.pa a = false → b.ps r = false →
    let env := s.envOf k b
    let plan (h : HEntry) (row : Nat → Int) : Plan := {
      x := x
      h := h
      hidx := refH (b.ga a)
      base := 0
      limit := h.bound
      e := refOff (b.ga a) + disp.toInt
      tensor := b.tensor r x
      row := row }
    let strong := Machine.MemOrd.isStrong ord
    let queued (load : Bool) (units : List EvUnit) (t : State) := ∃ b' e, AccessOnly s t k b' ∧ e.tile = some td ∧ e.pc = b.pc ∧ e.units = units
      ∧ e.dest = (if load then .tile td else .none) ∧ e.kind = (if strong then .perform else if load then .read else .drain)
      ∧ (units ≠ [] → ∃ p q, b'.evq = b.evq ++ p ++ [e] ++ q ∧ (p ≠ [] ↔ Machine.MemOrd.isAcq ord = true) ∧ (q ≠ [] ↔ Machine.MemOrd.isRel ord = true)
        ∧ (∀ v ∈ p, v.kind = .acqPoint) ∧ (∀ v ∈ q, v.kind = .relPoint))
      ∧ OtherTiles b b' []
      ∧ b' = { b with pc := b.pc + 8, evq := b'.evq, t := b'.t, deps := b'.deps, status := b'.status, superseded := b'.superseded }
    let collect (s : State) (us : List EvUnit) (g : Group) : Res (List EvUnit) :=
      (loadUnit (s.envOf k b) Need.load s g).andThen fun s u => .ok s (us ++ [u])
    let load (i : Instr) (row : Nat → Int) := b.useTile td = .ok x → checkHandle s env (plan (parseHandle 0 0 0 0) row).lowest Need.load = .ok s1 h →
      let as := ((plan h row).all true strong).1
      resFold collect s1 [] (groupAccesses strong as) = .ok s2 us → Completes i s (queued true (us ++ zeroUnit as ++ badUnits as))
    let store (i : Instr) (row : Nat → Int) := s.source k b td = .ok x →
      checkHandle s env (plan (parseHandle 0 0 0 0) row).lowest Need.store = .ok s1 h →
      let as := ((plan h row).all false strong).1
      poisonedData x as = none → placeStore ((s1.fired k [x]).envOf k b) Need.store (s1.fired k [x]) [] (groupAccesses strong as) = .ok s2 (us, none) →
      Completes i s (queued false us)
    load (.tld td a r kc ord disp) (fun u => u) ∧ store (.tst td a r ord disp) (fun u => u)
      ∧ ∀ rows, indexRows s k b tx x.memRows = .ok rows →
        load (.tldg td a r tx ord disp) (fun u => rows.getD u 0) ∧ store (.tsts td a r tx ord disp) (fun u => rows.getD u 0)

/-- R174, R175: without row and column limits, the element of memory coordinates (u, v) of a byte-wide plain format lies, inside the bound, at
offset + row × stride + v × bytes; beyond the bound a load reads zero and a store writes nothing. -/
def Obligations.TileAddresses : Prop :=
  ∀ (p : Plan) (load : Bool) (i j n : Nat), p.x.fmt.bits = 8 * n → 0 < n → p.x.fmt ≠ .a56 → p.tensor.vr = 0 → p.tensor.vc = 0 →
    (∀ u, 0 ≤ p.row u) →
    let c := p.x.memCoord i j
    let at_ : Int := p.e + p.row c.1 * p.tensor.stride + (c.2 * n : Nat)
    let a := (p.elem load i j).1
    c = (if p.x.lay = .col then (j, i) else (i, j)) ∧ a.cell = (i, j) ∧ a.data = p.x.get i j ∧ a.width = 8 * n ∧ a.bit = 0
      ∧ (0 ≤ at_ → at_ + n ≤ p.limit → a.target = .bytes p.h (p.image at_) (p.image at_) n)
      ∧ (at_ < 0 ∨ (p.limit : Int) < at_ + n → a.target = if load then .zero else .drop)

/-- R128, R183, R184, R185: TLDD and TSTD whose owner table can be read, is well formed and names what it owns queue one access of the tile's
window. PLD queues a load of a tile of a plain format from a bound window, PLDS one of eight bytes, or writes 0 and sets PWB when they lie
beyond the window; both trap PARAM on an unbound window. TPRF changes nothing a program sees. -/
def Obligations.DistributedAndParameterAccesses : Prop :=
  (∀ (s r0 s0 s1 s2 s3 s4 : State) (k : BKey) (b0 b : Block) (td : TReg) (a : ARef) (r : SReg) (ord : MemOrd) (disp : BitVec 20) (x : Tile) (h : HEntry)
      (im : W64) (ps : List Nat) (c : Option W64) (bs : List Byte) (as : List Access) (cl : Bool) (us : List EvUnit),
    SettledFor s k (Machine.MemOrd.isAcq ord || Machine.MemOrd.isStrong ord) (tableHeader a disp) r0 b0 → SettledFor r0 k (Machine.MemOrd.isAcq ord || Machine.MemOrd.isStrong ord) (tableEntries td a r disp) s0 b → b.pa a = false → b.ps r = false →
    let env := s0.envOf k b
    let off : Int := refOff (b.ga a) + disp.toInt
    let v := (b.gs r).toNat
    locate s0 env (refH (b.ga a)) off 32 false Need.load = .ok s1 (h, im, ps) → readUnit s1 env Need.load im ps = .ok s2 (c, bs) →
    (parseOwner bs).malformed x = false →
    let plan (load : Bool) := ownerPlan load env (if load then Need.load else Need.store) (b.ga a) disp.toInt (parseOwner bs) x
      (v % 2 ^ 32) (v / 2 ^ 32) s2 = .ok s3 (as, cl)
    let collect (s : State) (us : List EvUnit) (g : Group) : Res (List EvUnit) :=
      (loadUnit (s.envOf k b) Need.load s g).andThen fun s u => .ok s (us ++ [u])
    let queued (units : List EvUnit) (t : State) := ∃ b' e, BlockNow s0 t k b' ∧ e.tile = some td ∧ e.pc = b.pc ∧ e.units = units
      ∧ (units ≠ [] → e ∈ b'.evq) ∧ OtherTiles b b' []
      ∧ b' = { b with pc := b.pc + 8, evq := b'.evq, t := b'.t, deps := b'.deps, status := b'.status, superseded := b'.superseded }
    (b.useTile td = .ok x → plan true → resFold collect s3 [] (groupAccesses (Machine.MemOrd.isStrong ord) as) = .ok s4 us →
        Completes (.tldd td a r ord disp) s (queued (us ++ zeroUnit as ++ badUnits as)))
      ∧ (s0.source k b td = .ok x → plan false → poisonedData x as = none →
        placeStore ((s3.fired k [x]).envOf k b) Need.store (s3.fired k [x]) [] (groupAccesses (Machine.MemOrd.isStrong ord) as) = .ok s4 (us, none) →
        Completes (.tstd td a r ord disp) s (queued us)))
  ∧ (∀ (s s1 s2 : State) (k : BKey) (b : Block) (td : TReg) (w : WinReg) (d r : SReg) (a : ARef) (disp : BitVec 20) (x : Tile) (image : W64)
      (len : Nat) (h : HEntry) (us : List EvUnit), Moves s k b →
    let env := s.envOf k b
    let p (h : HEntry) : Plan := {
      x := x
      h := h
      hidx := refH image
      base := refOff image
      limit := len
      e := disp.toInt
      tensor := b.tensor r x
      row := fun u => u }
    let as := (((p h).all true false).1).map Access.rebound
    let collect (s : State) (us : List EvUnit) (g : Group) : Res (List EvUnit) :=
      (loadUnit (s.envOf k b) Need.load s g).andThen fun s u => .ok s (us ++ [u])
    (b.pa a = false → b.ps r = false → Completes (.tprf a r disp) s (GoesTo s k b (b.pc + 8)))
      ∧ (s.window b w = none → Traps (.plds d w disp) s k b { FaultInfo.plain 0x0B with aref := w.val }
        ∧ (b.useTile td = .ok x → Traps (.pld td w r disp) s k b { FaultInfo.plain 0x0B with aref := w.val }))
      ∧ (s.window b w = some (image, len) →
        (disp.toInt < 0 ∨ (len : Int) < disp.toInt + 8 → Completes (.plds d w disp) s fun t => ∃ b', OnlyBlock s t k b' ∧ b'.pc = b.pc + 8
          ∧ (∀ q, b'.gs q = if q = 0 ∨ q = d then 0 else b.gs q) ∧ (∀ q, b'.ps q = if q = 0 ∨ q = d then false else b.ps q)
          ∧ b'.status = b.status ||| 1 ∧ b' = { b with pc := b'.pc, s := b'.s, sp := b'.sp, status := b'.status, deps := b'.deps })
        ∧ (0 ≤ disp.toInt → disp.toInt + 8 ≤ len → ∀ he im ps,
          locate s env (refH image) (refOff image + disp.toInt) 8 false Need.load = .ok s1 (he, im, ps) → Completes (.plds d w disp) s fun t => ∃ e,
            AccessOnly s t k ((b.enqueue e).issuedAs (some e.id) 0) ∧ (b.issuedAs (some e.id) 0).pc = b.pc + 8
            ∧ e.kind = .read ∧ e.dest = .scalar d ∧ (e.units.flatMap fun u => u.place) = ps)
        ∧ (b.useTile td = .ok x → b.ps r = false → x.fmt.block = 0 →
          checkHandle s env (p (parseHandle 0 0 0 0)).lowest Need.load = .ok s1 h →
          resFold collect s1 [] (groupAccesses false as) = .ok s2 us → Completes (.pld td w r disp) s fun t => ∃ b' e, BlockNow s t k b'
            ∧ e.kind = .read ∧ e.dest = .tile td ∧ e.pc = b.pc ∧ e.units = us ++ zeroUnit as ++ badUnits as
            ∧ (e.units ≠ [] → b'.evq = b.evq ++ [e]) ∧ b'.t = b.t
            ∧ b' = { b with pc := b.pc + 8, evq := b'.evq, deps := b'.deps, status := b'.status })))

/-! ### The matrix engine -/

/-- R70, R71, R190, R193, R194, R195: a product whose tiles pass the checks writes each accumulator of its window with what the group loop of
R70 leaves, and raises the flags of elements that no poisoned operand reaches; a poisoned row, column, accumulator or scale poisons the
elements it reaches. Beside the window and flags nothing of the block changes. The order of a product's checks on the tiles it has read: the
homes, the formats of both operands, then the shapes; each names its cause and the tile at fault. -/
def Obligations.Products : Prop :=
  (∀ (s : State) (k : BKey) (b : Block) (td tsa tsb : TReg) (oa ob : TSrc) (d x y sa sb : Tile), Moves s k b → s.accumulator k b td = .ok d →
    d.Fits → operandTile s k b oa = .ok x → operandTile s k b ob = .ok y →
    let row (i : Nat) := (List.range x.wcols).any fun n => x.poisoned i n
    let col (j : Nat) := (List.range x.wcols).any fun n => y.poisoned n j
    let result (sc : Option (Tile × Tile)) (more : Nat → Nat → Bool) (t : State) :=
      let f (i j : Nat) := productElem x y sc (d.get i j) i j
      let bad (i j : Nat) := d.poisoned i j || row i || col j || more i j
      WindowResult s k b td d (fun _ _ => true) (fun i j => (f i j).1) bad .none (raised d (fun _ _ => true) f bad .none) b.seed t
    (ownBound b k [td] [oa, ob] [] = none →
      (productFault .dense td oa.t ob.t d x y = none → Completes (.tmma td oa ob) s (result none fun _ _ => false))
      ∧ (productFault .block td oa.t ob.t d x y = none → x.lay ≠ .col → y.lay = .col →
          Completes (.tmmax td oa ob) s (result none fun _ _ => false)))
    ∧ (ownBound b k [td] [oa, ob] [tsa, tsb] = none → productFault .scaled td oa.t ob.t d x y = none → s.source k b tsa = .ok sa →
        s.source k b tsb = .ok sb → scaleFault tsa tsb d x sa sb = none →
        Completes (.tmmas td oa ob tsa tsb) s (result (some (sa, sb)) fun i j => (List.range sa.wcols).any (sa.poisoned i)
          || (List.range sb.wrows).any fun g => sb.poisoned g (j / 128))))
  ∧ (∀ (p : Product) (td ta tb : TReg) (d x y : Tile),
    let at_ (cause : Nat) (t : TReg) := productFault p td ta tb d x y = some (FaultInfo.atTile cause t 0 0)
    let ok (f : Efmt) : Bool := match p with
      | .dense => Efmt.denseFloat f || Efmt.denseInt f
      | .scaled => Efmt.denseFloat f
      | .block => f.block != 0
    (d.home = .s → at_ 0x13 td)
      ∧ (d.home = .a → (x.home = .a → at_ 0x13 ta)
        ∧ (x.home = .s → (y.home = .a → at_ 0x13 tb)
          ∧ (y.home = .s → (ok x.fmt = false → at_ 0x13 ta)
            ∧ (ok x.fmt = true → (ok y.fmt = false ∨ Efmt.denseInt x.fmt ≠ Efmt.denseInt y.fmt → at_ 0x13 tb)
              ∧ (ok y.fmt = true → Efmt.denseInt x.fmt = Efmt.denseInt y.fmt → (x.wrows ≠ d.wrows → at_ 0x0D ta)
                ∧ (x.wrows = d.wrows → (y.wcols ≠ d.wcols ∨ x.wcols ≠ y.wrows → at_ 0x0D tb)
                  ∧ (y.wcols = d.wcols → x.wcols = y.wrows → productFault p td ta tb d x y = none))))))))

/-- R196, R197, R250: GMMA of a complete gang, its older strong events and tile writers done, runs the lead's part at once, leaves a part for
every other member, and arrives on its barrier; a member that sleeps in BARW on the barrier runs its oldest part the same way, once the shared
operand has been read and no older instruction of its own waits. Here no armed error is met, the barrier expects more arrivals, and the names of
the parts that are pending are older than the next one. -/
def Obligations.GangedProducts : Prop :=
  ∀ (s0 s : State) (k : BKey) (b : Block) (td ta : TReg) (ob : TSrc) (bar : BReg) (p : GPart) (d x y : Tile), b.useTile td = .ok d → d.Fits →
    (∀ c, (s.core c).armed = []) → (∀ q ∈ s.blocks, ∀ g ∈ q.2.parts, g.id < s.evSeq) →
    let more (n : BReg) := (s.barSet k)[n.val].a + 1 ≠ (s.barSet k)[n.val].e
    let ran (td : TReg) (n : BReg) (t : State) := SameBytes s t ∧ (t.barSet k)[n.val].a = (s.barSet k)[n.val].a + 1
      ∧ ∃ b' z, t.block? k = some b' ∧ b'.gt td = some z ∧ (∀ u, u ≠ td → b'.gt u = b.gt u) ∧ b'.arrived.getLsbD n.val = true
        ∧ ∀ i j, d.Has i j → z.elems.getD (d.index i j) 0 = (productElem x y none (d.get i j) i j).1
    (Settled s0 k barWaits s b → partTiles s k b td ta ob none = .ok (d, x, y) → gangOk s k b = true → more bar →
        Completes (.gmma td ta ob bar) s0 fun t => ran td bar t ∧ (∃ b', t.block? k = some b' ∧ b'.pc = b.pc + 8)
        ∧ ∀ c, c < 8 → b.gang.getLsbD c = true → c ≠ coreInCluster k.core → ∃ q q' g, s.block? (partnerKey k c) = some q
          ∧ t.block? (partnerKey k c) = some q' ∧ q'.parts = q.parts ++ [g] ∧ g.td = td ∧ g.ta = ta ∧ g.b = ob ∧ g.bar = bar
          ∧ g.lead = coreInCluster k.core ∧ g.id = s.evSeq ∧ g.ready = true)
      ∧ (settleWhere s0 k barWaits = s → s.pending k barWaits = false → s.block? k = some b → b.acceptedPart = some p → b.partRuns p = true → p.td = td → more p.bar →
        p.badLines = [] →
        partTiles (s.setBlock k { b with parts := b.parts.erase p }) k { b with parts := b.parts.erase p } p.td p.ta p.b p.snap = .ok (d, x, y) →
        Completes (.gmmaPart k) s0 fun t => ran td p.bar t ∧ ∃ b', t.block? k = some b' ∧ b'.parts = b.parts.erase p ∧ b'.pc = b.pc)

/-- R200: TACZ zeros an accumulator window, TACV rounds accumulators into a plain format of the tile store, TACQ puts the exact value of a plain
format into accumulators or adds it to them. -/
def Obligations.AccumulatorMoves : Prop :=
  ∀ (s : State) (k : BKey) (b : Block) (td ta : TReg) (d x : Tile) (rnd : Rnd) (sat add : Bool) (mask : Option MReg),
    Moves s k b → d.Fits →
    let on := b.active mask d.wcols
    (b.useTile td = .ok d → d.home = .a → Completes (.tacz td) s (WindowResult s k b td d (fun _ _ => true) (fun _ _ => 0) (fun _ _ => false) .none
        (fun _ => False) b.seed))
      ∧ (s.source k b ta = .ok x → x.wrows = d.wrows → x.wcols = d.wcols →
        (b.useTile td = .ok d → d.home = .s → x.home = .a → d.fmt.block = 0 → Completes (.tacv td ta d.fmt rnd sat mask) s (ElementResult s k b td d on rnd
          (fun n i j => d.fmt.round rnd sat n (Efmt.a56.decode (x.get i j))) x.poisoned (b.writes mask)))
        ∧ ((if add then s.accumulator k b td else b.useTile td) = .ok d → d.home = .a → x.home = .s → x.fmt.block = 0 →
          Completes (.tacq td ta x.fmt rnd add mask) s (ElementResult s k b td d on rnd
            (fun n i j =>
              let v := x.fmt.decode (x.get i j)
              let sum := if add then (Efmt.a56.decode (d.get i j)).add rnd v else (v, 0)
              ((Efmt.a56.round rnd false n sum.1).1, sum.2 ||| (Efmt.a56.round rnd false n sum.1).2))
            (fun i j => add && d.poisoned i j || x.poisoned i j) (b.writes mask))))

/-- R141, R164, R202, R204: MSLT in system mode reads 64 entries at an aligned, populated physical address, and the table takes effect with the
next round; a set reserved bit traps FORMAT. The ramp limiter lets an interval issue at most the last interval's micro-ops and fillers and
one step more, and fills up when demand falls, so that the sum falls by at most one step; a micro-op of an entry whose instruction has
completed moves the entry on, and frees one that is done once no waiting entry lists it (that it does so one state a turn is the model's choice,
log 12). -/
def Obligations.MatrixSlotsAndRamp : Prop :=
  (∀ (s s1 : State) (k : BKey) (b : Block) (a : SReg) (die : Nat), SettledFor s k true (msltBytes a) s1 b → b.status.getLsbD 9 = true → b.ps a = false →
    let pa := (b.gs a).toNat
    let d := s1.dieOf k.core
    let word (n : Nat) := s1.mem.readLE (pa + 8 * n) 8
    let free (w : Nat) : Prop := w / 2 ^ 16 % 2 ^ 47 = 0
    let good : Prop := pa % 128 = 0 ∧ pa < 2 ^ 56 ∧ ∀ n, n < 4 → (∃ sp, s1.spaceOf (pa + 128 * n) = some sp ∧ sp ≠ 3)
      ∧ s1.eccAt (pa + 128 * n) = false
    (pa % 128 ≠ 0 → exec (.mslt a) s = .next (takeTrap s1 k b (FaultInfo.atVA 0x0C pa)))
      ∧ (good → (∀ n, n < 64 → free (word n)) → Completes (.mslt a) s fun t => BlockNow s1 t k { b with pc := b.pc + 8 }
        ∧ ∃ tab, (t.die d).nextSlots = some tab ∧ (t.die d).slots = (s1.die d).slots ∧ tab.length = 64
          ∧ ∀ n, n < 64 → tab[n]? = some ((word n).testBit 63, word n % 2 ^ 16))
      ∧ (good → (∃ n, n < 64 ∧ ¬ free (word n)) → exec (.mslt a) s = .next (takeTrap s1 k b (FaultInfo.plain 0x13)))
      ∧ (∀ tab, (s.die die).nextSlots = some tab → Completes (.slotRound die) s fun t => t = s.setDie die { s.die die with
          slots := tab
          nextSlots := none }))
  ∧ (∀ (s : State) (die demand : Nat) (k : BKey) (b : Block) (n : Nat) (e : DepEntry),
    let d := s.die die
    let peak := 2250 * (8 * s.clusters)
    let step := peak / 2 ^ (4 - min (s.mgc.params.getD 0 1) 3)
    let before := d.rampI + d.rampF
    Completes (.rampInterval die demand) s (fun t => ∃ i f, t = monitorSample (s.setDie die { d with
          rampI := i
          rampF := f }) die 8 f
        ∧ i ≤ demand ∧ i ≤ peak ∧ i ≤ before + step ∧ (i = demand ∨ i = peak ∨ i = before + step) ∧ before ≤ i + f + step
        ∧ (f ≠ 0 → i + f + step = before))
      ∧ (s.block? k = some b → b.deps[n]? = some e → b.completed e = true → e.state ≠ 0 → Completes (.microOp k n) s (OnlyBlock s · k { b with
          deps := if e.state = 3 then if b.freeEntry n then b.deps.set n DepEntry.free else b.deps
            else b.deps.set n { e with state := e.state + 1 } })))

/-! ### Barriers, messages, fences and waits -/

/-- R247, R248, R250: BARI sets E and drops the arrivals counted, BARA arrives and completes the phase when A reaches E, BARW returns at once
when the phase it arrived in is done and sleeps otherwise, BARW_WAKE returns after a completion, BART reports and changes nothing else. -/
def Obligations.ClusterBarriers : Prop :=
  ∀ (s s1 : State) (k : BKey) (b : Block) (n : BReg) (cnt : Fin 512) (d : SReg) (m : BReg) (ph : BitVec 16) (p : Ev → Bool), Settled s k p s1 b →
    let x := (s1.barSet k)[n.val]
    let e := if x.e = 0 then cnt.val else x.e
    let word (done : Bool) (flags : Nat) : W64 := BitVec.ofNat 64 (x.phase.toNat * 2 ^ 32 + done.toNat * 2 ^ 16 + flags)
    let report := x.lcause * 2 ^ 8 + x.lfc * 2 + x.lf.toNat
    let still (p : Block) : Block := { p with
      arrived := 0
      doneBar := 0
      donePhase := Vector.replicate 16 0
      sleep := none }
    let others (t : State) : Prop := (∀ k', k' ≠ k → (t.block? k').map still = (s1.block? k').map still)
      ∧ t = { s1 with blocks := t.blocks, bars := t.bars, saved := t.saved }
    (p = Ev.strong → Completes (.bari n cnt) s fun t => SameBytes s1 t ∧ (t.barSet k)[n.val] = { x with
            e := cnt.val
            a := 0
            f := false
            fc := 0
            fcause := 0 }
        ∧ (∀ q, q ≠ n → (t.barSet k)[q.val] = (s1.barSet k)[q.val])
        ∧ (∃ b', t.block? k = some b' ∧ b' = { b with pc := b.pc + 8, arrived := b'.arrived } ∧ b'.arrived.getLsbD n.val = false)
        ∧ others t ∧ ∀ k', ¬ sameSet k k' = true → t.block? k' = s1.block? k')
      ∧ (p = barWaits → Completes (.bara n cnt) s fun t => SameBytes s1 t ∧ others t ∧ (∃ b', t.block? k = some b' ∧ still b' = { still b with pc := b.pc + 8 })
        ∧ (∀ q, q ≠ n → (t.barSet k)[q.val] = (s1.barSet k)[q.val])
        ∧ (cnt.val = e → x.a + 1 ≠ e → (t.barSet k)[n.val] = { x with e := e, a := x.a + 1 }
            ∧ ∃ b', t.block? k = some b' ∧ b'.arrived.getLsbD n.val = true)
        ∧ (cnt.val ≠ e → x.a + 1 ≠ e → (t.barSet k)[n.val].a = x.a + 1 ∧ (t.barSet k)[n.val].f = true
            ∧ (x.f = false → (t.barSet k)[n.val].fcause = 0x0D ∧ (t.barSet k)[n.val].fc = coreInCluster k.core))
        ∧ (cnt.val = e → x.a + 1 = e → (t.barSet k)[n.val] = { x with
              e := e
              a := 0
              phase := x.phase + 1
              lf := x.f
              lfc := x.fc
              lcause := x.fcause
              f := false
              fc := 0
              fcause := 0 }
            ∧ ∃ b', t.block? k = some b' ∧ b'.arrived.getLsbD n.val = false ∧ b'.doneBar.getLsbD n.val = true))
      ∧ (p = Ev.strong → b.doneBar.getLsbD n.val = true → Completes (.barw d n) s fun t => ∃ b', OnlyBlock s1 t k b' ∧ b'.pc = b.pc + 8
          ∧ b'.doneBar = b.doneBar &&& ~~~ BitVec.twoPow 16 n.val
          ∧ (∀ r, b'.gs r = if r = 0 then 0 else if r = d then word true (if x.phase.toNat = b.donePhase[n.val] then report else 0) else b.gs r)
          ∧ b' = { b with pc := b'.pc, s := b'.s, sp := b'.sp, doneBar := b'.doneBar, sleep := none })
      ∧ (p = Ev.strong → b.doneBar.getLsbD n.val = false → Completes (.barw d n) s fun t => OnlyBlock s1 t k { b with sleep := some (.barw d n none) })
      ∧ (p = Ev.strong → Completes (.bart d n) s (ScalarResult s1 k b d (word (b.doneBar.getLsbD n.val) report) false))
      ∧ ∀ b2, s1.block? k = some b2 → b2.sleep = some (.barw d n (some ph)) → b2.acceptedPart = none → Completes (.barwWake k) s1 fun t =>
          ∃ b', OnlyBlock s1 t k b' ∧ b'.pc = b2.pc + 8 ∧ b'.sleep = none ∧ b'.doneBar = b2.doneBar &&& ~~~ BitVec.twoPow 16 n.val
            ∧ ∀ r, b'.gs r = if r = 0 then 0 else if r = d then word true (if x.phase = ph then report else 0) else b2.gs r

/-- R161, R163, R190, R252, R253, R254: TSEND and TRECV to a partner take the next position of their channel and an entry, and wait with the
extent and the slot that their tile had at issue; TILE_TRANSFER gives the sender's window to the receiver's slot, element by element with its
poison, and both instructions are done. The slot is that of the name, or an earlier one, whose write changes no name. -/
def Obligations.TileMessages : Prop :=
  ∀ (s s1 : State) (k : BKey) (b p : Block) (td : TReg) (c : CoreSel) (g : BReg) (x : Tile),
    (Settled s k (writesTile td) s1 b → b.useTile td = .ok x → partnerCheck s1 k b c.val = .ok p →
      let ch : Fin 128 := Fin.ofNat 128 (16 * c.val + g.val)
      let posted (send : Bool) (t : State) := ∃ b' m, BlockNow s1 t k b' ∧ t = { s1 with blocks := t.blocks, evSeq := t.evSeq }
        ∧ b'.msgs = b.msgs ++ [m] ∧ m.send = send ∧ m.tile = td ∧ m.core = c ∧ m.tag = g ∧ m.pc = b.pc ∧ m.snap = x
        ∧ m.pos = (if send then b.sendPos[ch.val] else b.recvPos[ch.val]).toNat
        ∧ (∀ q : Fin 128, b'.sendPos[q.val] = if send ∧ q = ch then b.sendPos[q.val] + 1 else b.sendPos[q.val])
        ∧ (∀ q : Fin 128, b'.recvPos[q.val] = if ¬ send ∧ q = ch then b.recvPos[q.val] + 1 else b.recvPos[q.val])
        ∧ (b.deps.length < 32 → ∃ d, b'.deps = b.deps ++ [d] ∧ d.pc = b.pc ∧ d.name = some m.id)
        ∧ b' = { b with pc := b.pc + 8, msgs := b'.msgs, sendPos := b'.sendPos, recvPos := b'.recvPos, deps := b'.deps }
      Completes (.tsend td c g) s (posted true) ∧ Completes (.trecv td c g) s (posted false))
    ∧ ∀ (n ri : Nat) (m r : Msg), s.block? k = some b → b.msgs[n]? = some m → m.send = true →
        k ∉ s.stopped → partnerKey k m.core.val ∉ s.stopped → s.partner? k b m.core.val = some p → partnerKey k m.core.val ≠ k → matchingRecv k m p = some (ri, r) →
        let src := m.snap
        let dst := (p.dropMsg ri).version r.tile r.snap
        src.fmt.block = 0 → dst.Fits → src.fmt = dst.fmt → src.wrows = dst.wrows → src.wcols = dst.wcols →
        Completes (.tileTransfer k n) s fun t => SameBytes s t
          ∧ (∃ b', t.block? k = some b' ∧ b' = { b with msgs := b.msgs.erase m, superseded := b'.superseded, loans := b'.loans })
          ∧ ∃ p', t.block? (partnerKey k m.core.val) = some p'
            ∧ p' = { p with msgs := p.msgs.eraseIdx ri, t := p'.t, superseded := p'.superseded, loans := p'.loans }
            ∧ (∀ u, u ≠ r.tile → p'.gt u = p.gt u)
            ∧ (∀ z, p.gt r.tile = some z → (z.phys ≠ r.snap.phys → p'.t = p.t) ∧ (z.phys = r.snap.phys → ∃ y, p'.gt r.tile = some y
              ∧ (∀ i j, dst.Has i j → y.elems.getD (dst.index i j) 0 = src.get i j)
              ∧ ∀ l, (∃ i j, dst.Has i j ∧ src.poisoned i j = true ∧ l ∈ dst.lines i j) → l ∈ y.poison))

/-- R106, R153, R242, R243, R244, R245: FENCE goes on once every older event has been performed. WAITV of a well-formed operand whose table and
entries pass their checks copies its watch table and begins its first round with the read of entry 0; a sleeping WAITV goes on with the read
of the next entry. The last read of a round ends the WAITV when the condition is met or the round began at or after the wake-by time: it
writes the mask of the entries that held, with bit 16 when the condition is not met, and goes on; otherwise the WAITV sleeps until a next
round. A read that fails a check traps with its cause and the entry's number, and an ill-formed operand traps FORMAT. -/
def Obligations.FencesAndWaits : Prop :=
  let holds (w : Wait) (v : W64) (q : W64 × W64) : Bool :=
    if w.cmp = 0 then decide (v = q.2) else if w.cmp = 1 then decide (v ≠ q.2) else decide (q.2.toNat ≤ v.toNat)
  let met (w : Wait) (hs : List Bool) : Bool := if w.all then hs.all id else hs.any id
  let late (w : Wait) (now : Nat) : Bool := if w.holds = [] then w.wakeBy != 0 && decide (w.wakeBy.toNat ≤ now) else w.final
  -- the entry of number w.holds.length of WAITV w, which block b runs, is read in state u: it held or not (`h`)
  let round (s0 u : State) (k : BKey) (b : Block) (w : Wait) (h : Bool) (t : State) : Prop :=
    let hs := w.holds ++ [h]
    -- the read, a Perform, expands a coded block
    let only (b' : Block) := AccessOnly s0 { t with coded := s0.coded } k b'
    (hs.length < w.table.length → only { b with sleep := some (.waitv { w with holds := hs, final := late w u.dtime }) })
      ∧ (hs.length = w.table.length → met w hs = false → late w u.dtime = false →
        only { b with sleep := some (.waitv { w with holds := [], final := false }) })
      ∧ (hs.length = w.table.length → met w hs = true ∨ late w u.dtime = true → ∃ b' v, only b' ∧ b'.pc = b.pc + 8
        ∧ (∀ i, i < hs.length → i < 16 → v.getLsbD i = hs.getD i false) ∧ (hs.length ≤ 16 → v.getLsbD 16 = !met w hs ∧ v.toNat < 2 ^ 17)
        ∧ (∀ r, b'.gs r = if r = 0 then 0 else if r = w.d then v else b.gs r)
        ∧ (w.fix = none → b'.a = b.a ∧ b'.ap = b.ap) ∧ (∀ f, w.fix = some f → ∀ r, r ≠ f.1 → b'.ga r = b.ga r)
        ∧ b' = { b with pc := b'.pc, sleep := none, s := b'.s, sp := b'.sp, a := b'.a, ap := b'.ap })
  (∀ (s s1 s2 : State) (k : BKey) (b : Block) (sc : Scope) (w : Wait) (q : W64 × W64) (v : W64) (f : FaultInfo),
    (Settled s k (fun _ => true) s1 b → Completes (.fence sc) s (GoesTo s1 k b (b.pc + 8)))
    ∧ (s.block? k = some b → b.sleep = some (.waitv w) → w.table[w.holds.length]? = some q →
      (strongRead s (s.envOf k b) q.1 = .ok s2 v → Completes (.waitvRound k) s (round s s k b w (holds w v q)))
      ∧ (strongRead s (s.envOf k b) q.1 = .bad s2 f →
        exec (.waitvRound k) s = .next (takeTrap s2 k { b with sleep := none } { f with aux := BitVec.ofNat 64 w.holds.length }))))
  ∧ (∀ (s s0 s1 s2 s3 s4 s5 s6 : State) (k : BKey) (b0 b : Block) (d x y : SReg) (a : ARef) (ord : MemOrd) (disp : BitVec 24) (h : HEntry)
      (ps : List Nat) (ch : Option W64) (bs : List Byte) (v0 : W64),
    SettledFor s k true (watchTable a x disp) s0 b0 → SettledFor s0 k true (watchWords a x disp) s1 b → b.pa a = false → b.ps x = false →
    b.ps y = false →
    let w := (b.gs x).toNat
    let n : Nat := w % 2 ^ 5
    let cmp : Nat := w / 2 ^ 9 % 4
    let good : Prop := 1 ≤ n ∧ n ≤ 16 ∧ cmp ≠ 3 ∧ w / 2 ^ 5 % 8 = 0 ∧ w / 2 ^ 11 = 0
    let off : Int := refOff (b.ga a) + disp.toInt
    let im := mkRef (refH (b.ga a)) (off % 2 ^ 44).toNat
    let env := s1.envOf k b
    (¬ good → exec (.waitv d a x y ord disp) s = .next (takeTrap s1 k b (FaultInfo.plain 0x13)))
      ∧ (good → checkHandle s1 env im Need.load = .ok s2 h → 0 ≤ off → off + (16 * n : Nat) ≤ h.bound → (h.base + off.toNat) % 8 = 0 →
        placeBytes s2 env h im Need.load 2 (16 * n) = .ok s3 ps → (readUnit s3 env (Need.load.scalar 8) im ps).sampled env (s3.unitHops ps) = .ok s4 (ch, bs) →
        checkTable s4 env (parseTable n bs) 0 = .ok s5 () →
        let w0 : Wait := {
          d := d
          cmp := cmp
          all := w.testBit 8
          wakeBy := if y = 0 then 0 else b.gs y
          table := parseTable n bs
          acq := (match ord with | .acq _ => true | _ => false)
          window := s5.mgc.params.getD 4 0
          due := s5.dtime + s5.mgc.params.getD 4 0
          fix := ch.map fun r => (a, b.ga a, disp.toInt, baleSize h.mcls, r)
          final := false
          holds := [] }
        let asleep : Block := { b with sleep := some (.waitv w0) }
        let u := s5.setBlock k asleep
        (∀ q, (parseTable n bs)[0]? = some q → strongRead u (u.envOf k asleep) q.1 = .ok s6 v0 →
          Completes (.waitv d a x y ord disp) s (round s1 u k b w0 (holds w0 v0 q)))
        ∧ ∀ i, i < n → ∃ q : W64 × W64, (parseTable n bs)[i]? = some q ∧ q.1 = BitVec.ofNat 64 (leNat ((bs.drop (16 * i)).take 8))
          ∧ q.2 = BitVec.ofNat 64 (leNat ((bs.drop (16 * i + 8)).take 8))))

/-! ### System routines and code objects -/

/-- R119, R139, R140, R141: SAVECTX, once the queue has been performed and no part of the lead's products is pending, writes the save area
at SAVEA and nothing else, and empties the queue; LOADCTX, once the routine's own accesses have been performed, takes the registers from the
area of the block it resumes; the record that a save leaves and the events that a load takes from it are the model's choice (log 27); ERET
frees the context of a saved block, lets a block in place go on in user mode at its PC, and diverts a resumed one that a stop has reached,
with WPC its PC. -/
def Obligations.SystemRoutines : Prop :=
  ∀ (s : State) (k : BKey) (b : Block) (m : SysMode), Moves s k b → b.sys = some m → b.ended = none →
    let pa := (s.saveaOf k).toNat
    let word (t : State) (off : Nat) := t.mem.readLE (pa + off) 8
    let saved (t : State) (pc : W32) (b : Block) := word t 0x10 = pc.toNat ∧ (∀ r : SReg, word t (0x40 + 8 * r.val) = (b.gs r).toNat)
      ∧ (∀ r : ARef, word t (0x140 + 8 * r.val) = (b.ga r).toNat)
    (b.evq = [] → s.maySave k b = true → s.armedIn k b = [] → s.populated pa (saveArea s k b m.userPc).length = true →
        Completes .savectx s fun t => t.block? k = some { b with
              pc := b.pc + 8
              sys := some { m with saved := true }
              evq := []
              held := []
              superseded := []
              msgs := []
              parts := [] }
          ∧ (∀ k', k' ≠ k → t.block? k' = s.block? k') ∧ saved t m.userPc b
          ∧ SameBytesBut s t ((List.range (saveArea s k b m.userPc).length).map (pa + ·))
          ∧ ∃ x ∈ t.saved, x.launch = b.launch ∧ x.blklin = b.blklin ∧ x.savea = s.saveaOf k ∧ x.key = k)
      ∧ (∀ (sa s2 : State) (c : Block) (loans : List Nat) (es : List Ev), settle s k = sa → sa.block? k = some c → c.ended = none →
        c.loadWaits = false →
        let x := sa.recordOf k c m
        let pa := (sa.saveaOf k).toNat
        let head := sa.mem.readN pa 0x21C0
        let total := fieldAt head 8 8
        let good (n : Nat) : Prop := sa.populated pa n = true ∧ ∀ i, i < (n + 127) / 128 → sa.eccAt (pa + 128 * i) = false
        let lanes := (fieldAt head 0 8).testBit 16
        good 0x24000 → good total → total = endOfTiles ((List.range 64).map fun n => savedTile head x n 0) (0x24000 + if lanes then 4096 else 0) →
        fieldAt head 0 8 % 2 ^ 16 = 1 → (lanes = true → fieldAt head 4 4 = 4096) →
        borrow (headerNeeds head) (sa.core k.core).win c.loans ((sa.lendable k.core).filter fun c => c ≠ k.slot) = some loans → x.parts = [] →
        let b1 : Block := { loadArea (sa.mem.readN pa total) sa c x with
          loans := loans
          sys := some { m with
            loaded := true
            saved := false
            userPc := BitVec.ofNat 32 (word sa 0x10)
            resume := some x.id } }
        let s0 := loadBarriers sa k c (sa.mem.readN pa 0x3C0) x
        let s1 : State := { s0 with
          saved := s0.saved.filter fun y => y.id ≠ x.id
          freeCount := sa.freeCount + 64 + x.superseded.length }
        (b1.inWrap = false ∨ sa.dtime < word sa 0x1E8) → replaceEvents (s1.envOf k b1) s1 b1.evq = .ok s2 es →
        (∀ m ∈ x.msgs, ∃ p, s2.block? (partnerKey k m.core.val) = some p ∧ p.launch = word sa 0x20 ∧ partnerKey k m.core.val ≠ k) →
        Completes .loadctx s fun t => ∃ b', BlockNow s2 t k b' ∧ b'.pc = c.pc + 8 ∧ b'.evq = es
          ∧ (∀ r : SReg, r ≠ 0 → (b'.gs r).toNat = word sa (0x40 + 8 * r.val))
          ∧ (∀ r : ARef, (b'.ga r).toNat = word sa (0x140 + 8 * r.val)) ∧ b'.gang.toNat = word sa 0x1D8 % 2 ^ 8 ∧ b'.seed.toNat = word sa 0x1D0
          ∧ b'.wcause = word sa 0x1F8 % 2 ^ 8 ∧ b'.loans = loans ∧ b'.sys = b1.sys)
      ∧ (m.saved = false → m.loaded = true →
        (m.resume.isSome && (s.setBlock k (b.leaveSystem m)).divertDue (b.leaveSystem m)) = false → Completes .eret s fun t => OnlyBlock s t k { b with
            sys := none
            pc := m.userPc
            status := b.status &&& ~~~ (0x200 : W64) })
      ∧ (m.saved = false → m.loaded = true → m.resume.isSome = true → (s.setBlock k (b.leaveSystem m)).divertDue (b.leaveSystem m) = true → Completes .eret s fun t => ∃ b', t.block? k = some b' ∧ SameBytes s t ∧ b'.wpc = m.userPc
          ∧ (b'.wcause = 0x11 ∨ b'.wcause = 0x17) ∧ b'.validity = .none ∧ b'.sys = none)
      ∧ (m.saved = true ∨ m.loaded = false → b.evq = [] → (s.core k.core).staged = none → Completes .eret s fun t => t.block? k = none
          ∧ (∀ k', k' ≠ k → t.block? k' = s.block? k') ∧ SameBytes s t)

/-- R139, R141, R310: a request takes the block of a context, at a boundary and not in system mode, into the named routine in system mode,
with SAVEA set (log 9), a SWEEP in progress completing first; a rescue slice resumes a saved block of lower priority of the waiter's job
once its inversion window has ended, for 20 µs, and its end takes the rescued context into the routine again. -/
def Obligations.SystemModeRequests : Prop :=
  ∀ (s s1 : State) (k tgt : BKey) (b : Block) (req : SysReq) (off len id : Nat) (x : Saved) (w : Wait) (r : Rescue), s.block? k = some b →
    (req.resume = none → b.sys = none → b.ended = none → s.partDue k b = false → s.leadDue k b = false → (∀ d n p, b.sleep ≠ some (.barw d n (some p))) →
        s.divertDue b = false →
        routineCode s (s.ctxNumOf b) req.code = .ok s1 (off, len) → Completes (.systemModeRequest k req) s fun t => BlockNow (s.withdraw b.held) t k { b.endEarly with
              pc := req.entry
              held := b.held.map fun h => { h with given := false }
              status := b.status ||| 0x200
              sleep := none
              sys := some {
                code := req.code
                codeOff := off
                codeLen := len
                userPc := b.endEarly.pc
                loaded := true
                saved := false
                resume := none } }
          ∧ t.saveaOf k = req.savea &&& 0x00FFFFFFFFFFFF80)
      ∧ ((s.saved.find? fun y => y.id = id) = some x → s.sliceEarly k = false → b.sleep = some (.waitv w) → w.due < s.dtime →
        s.rescuable k x = true →
        (∃ c m, (resumeSaved s tgt req id).block? tgt = some c ∧ c.sys = some m ∧ m.resume = some id) → Completes (.rescueSlice k id tgt req) s fun t =>
          t.blocks = (resumeSaved s tgt req id).blocks ∧ t.mem = (resumeSaved s tgt req id).mem ∧ kvGet k t.rescued = some (s.dtime + w.window)
          ∧ t.rescues = (resumeSaved s tgt req id).rescues ++ [{
            waiter := k
            target := tgt
            ends := s.dtime + 20000 }])
      ∧ (s.rescues.find? (fun r => decide (r.ends ≤ s.dtime) || (s.waiting? r.waiter).isNone) = some r → r.target = k → b.sys = none → b.ended = none →
        s.partDue k b = false → s.leadDue k b = false → (∀ d n p, b.sleep ≠ some (.barw d n (some p))) → s.divertDue b = false →
        routineCode s (s.ctxNumOf b) req.code = .ok s1 (off, len) → Completes (.rescueSliceEnd req) s fun t => t.rescues = s.rescues.erase r
          ∧ ∃ b' m, BlockNow (s.withdraw b.held) t k b' ∧ b'.sys = some m ∧ b'.pc = req.entry ∧ m.userPc = b.endEarly.pc)

/-- R96, R132: PUBLISH, its older events performed, reads the object behind a reference and answers 0, or the first offence as its reason in
bits 63:56 and its offset in bits 31:0. An object that passes has its length L as PUBLEN and the PUB flag set, one that does not has the flag
cleared; no other byte changes. A memory fault of its reads traps with its cause, and a poisoned reference traps POISON. -/
def Obligations.Publishing : Prop :=
  ∀ (s s1 s2 s3 s4 s5 s6 : State) (k : BKey) (b : Block) (d : SReg) (a : ARef) (bs : List Byte) (h h' : HEntry) (im im' : W64)
      (c c' : Option W64) (ps ps' qs qs' : List Nat) (f : FaultInfo), Settled s k (fun _ => true) s1 b →
    let e := s1.envOf k b
    let at_ (s : State) (off n : Nat) := locate s e (refH (b.ga a)) ((refOff (b.ga a) : Int) + off) n false Need.readWrite
    let flags (pub : Nat) := leBytes 2 (fieldAt bs 6 2 / 2 * 2 + pub)
    let answer (v : W64) (ps : List Nat) (t : State) := ∃ b', t.block? k = some b' ∧ ScalarWrite b b' d v false
      ∧ (∀ k', k' ≠ k → t.block? k' = s1.block? k') ∧ SameBytesBut s1 t ps
    (b.pa a = true → exec (.publish d a) s = .next (takeTrap s1 k b (FaultInfo.poisoned b.origin a.val none)))
      ∧ (b.pa a = false →
        (readObject s1 e (b.ga a) = .bad s2 f → exec (.publish d a) s = .next (takeTrap s2 k b { f with aref := a.val }))
        ∧ (readObject s1 e (b.ga a) = .ok s2 bs →
          (checkObject bs = none → at_ s2 48 8 = .ok s3 (h, im, ps) → chaseAll s3 e Need.readWrite im im ps = .ok s4 (c, qs) →
            at_ (s4.writeHomes qs (leBytes 8 (fieldAt bs 8 8))) 6 2 = .ok s5 (h', im', ps') →
            chaseAll s5 e Need.readWrite im' im' ps' = .ok s6 (c', qs') → Completes (.publish d a) s fun t => answer 0 (qs ++ qs') t
              ∧ (qs'.Nodup → qs'.length = 2 → t.readHomes qs' = flags 1)
              ∧ ((qs ++ qs').Nodup → qs.length = 8 → t.readHomes qs = leBytes 8 (fieldAt bs 8 8)))
          ∧ (∀ off reason, checkObject bs = some (off, reason) → at_ s2 6 2 = .ok s5 (h', im', ps') →
            chaseAll s5 e Need.readWrite im' im' ps' = .ok s6 (c', qs') → Completes (.publish d a) s fun t =>
              answer (BitVec.ofNat 64 (reason % 256 * 2 ^ 56 + off % 2 ^ 32)) qs' t
              ∧ (qs'.Nodup → qs'.length = 2 → t.readHomes qs' = flags 0))))

/-! ### Lane functions -/

/-- R227, R228, R229: MAP runs its function on the lanes of each row and writes the latch to the first destination and q0 to the second in the
active elements; REDUCE folds each row from left to right with one call for each active column after the first, in the draws' order; flags
are those of the lanes that ran, and none under a poisoned mask; SEED has passed every draw. -/
def Obligations.LaneFunctionCalls : Prop :=
  ∀ (s s1 : State) (k : BKey) (b : Block) (td td2 ta tb : TReg) (d d2 x y : Tile) (fn : Fin 512) (ins : Ins) (mask : Option MReg)
      (ws : List LaneWord) (tile : TReg → Tile), Moves s k b → Dest b td d → d.fmt.lane = true → Dest b td2 d2 → d2.fmt.lane = true → td ≠ td2 →
    d2.wrows = d.wrows → d2.wcols = d.wcols →
    let nd := ws.countP drawsWord
    let draws (n : Nat) : List Nat := (List.range nd).map fun q => drawAt .rsr b.seed (n * nd + q)
    ((∀ t ∈ insList ins, Operand s1 k b d t (tile t) ∧ (tile t).fmt.lane = true) →
      let start (i j : Nat) := LaneSt.start ((insList ins).zipIdx.map fun p => laneIn (tile p.1) p.2 i j) (b.active mask d.wcols i j)
        (draws (i * d.wcols + j))
      let lane (i j : Nat) : LaneSt := ((laneCall (laneConsts b) ws ((List.range d.wcols).map (start i)))[j]?).getD (start i j)
      let fl (n : Nat) : Prop := b.maskPoison mask = none ∧ ∃ i j, d.Has i j ∧ (lane i j).flags.getLsbD n = true
      let seed := seedAt .rsr b.seed (d.wrows * d.wcols * nd)
      (laneFn s k b (.map td fn ins mask) fn.val = .ok s1 ws → Completes (.map td fn ins mask) s
          (WindowResult s1 k b td d (b.active mask d.wcols) (fun i j => (lane i j).out0.1 % 2 ^ d.fmt.bits)
            (fun i j => (lane i j).out0.2.isSome) (b.writes mask) fl seed))
        ∧ (laneFn s k b (.map2 td td2 fn ins mask) fn.val = .ok s1 ws → Completes (.map2 td td2 fn ins mask) s fun t => ∃ b' p q,
            TileFrame s1 t k b b' [td, td2] ∧ b'.gt td = some p ∧ b'.gt td2 = some q ∧ b'.seed = seed
            ∧ (∀ n, b'.status.getLsbD n = true ↔ b.status.getLsbD n = true ∨ fl n)
            ∧ ∀ i j, d.Has i j →
              p.elems.getD (d.index i j) 0 = (if b.active mask d.wcols i j then (lane i j).out0.1 % 2 ^ d.fmt.bits else d.get i j)
              ∧ q.elems.getD (d2.index i j) 0 = (if b.active mask d.wcols i j then (lane i j).out1.1 % 2 ^ d2.fmt.bits else d2.get i j)))
    ∧ ((ins = .i1 ta ∨ (ins = .i2 ta tb ∧ s1.source k b tb = .ok y ∧ y.home = .s ∧ y.fmt.lane = true ∧ y.wrows = x.wrows ∧ y.wcols = x.wcols)) →
      s1.source k b ta = .ok x → x.home = .s → x.fmt.lane = true → x.wrows = d.wrows → d.wcols = 1 →
      let cols (i : Nat) := (List.range x.wcols).filter fun j => b.active mask x.wcols i j
      let before (i : Nat) : Nat := ((List.range i).map fun r => (cols r).length - 1).sum
      let e3 (i j : Nat) : LVal := if ins = .i1 ta then (0, none) else laneIn y 1 i j
      let call (two : Bool) (i : Nat) (a : LVal × LVal × W64) (c : Nat × Nat) : LVal × LVal × W64 :=
        let l0 := LaneSt.start [a.1, laneIn x 0 i c.1, a.2.1, e3 i c.1] true (draws (before i + c.2))
        let l := (laneCall (laneConsts b) ws [l0]).headD l0
        (l.out0, if two then l.out1 else a.2.1, a.2.2 ||| l.flags)
      let fold (two : Bool) (i : Nat) : LVal × LVal × W64 := match cols i with
        | [] => ((0, none), (0, none), 0)
        | j :: js => js.zipIdx.foldl (call two i) (laneIn x 0 i j, (0, none), 0)
      let seed := seedAt .rsr b.seed (before d.wrows * nd)
      (laneFn s k b (.reduce td fn ins mask) fn.val = .ok s1 ws → Completes (.reduce td fn ins mask) s
          (WindowResult s1 k b td d (fun _ _ => true) (fun i _ => (fold false i).1.1 % 2 ^ d.fmt.bits)
            (fun i _ => (fold false i).1.2.isSome) (b.reads mask)
            (fun n => b.maskPoison mask = none ∧ ∃ i, i < d.wrows ∧ (fold false i).2.2.getLsbD n = true) seed))
        ∧ (laneFn s k b (.reduce2 td td2 fn ins mask) fn.val = .ok s1 ws → Completes (.reduce2 td td2 fn ins mask) s fun t => ∃ b' p q,
            TileFrame s1 t k b b' [td, td2] ∧ b'.gt td = some p ∧ b'.gt td2 = some q ∧ b'.seed = seed
            ∧ (∀ n, b'.status.getLsbD n = true ↔ b.status.getLsbD n = true
              ∨ b.maskPoison mask = none ∧ ∃ i, i < d.wrows ∧ (fold true i).2.2.getLsbD n = true)
            ∧ ∀ i, i < d.wrows → p.elems.getD (d.index i 0) 0 = (fold true i).1.1 % 2 ^ d.fmt.bits
              ∧ q.elems.getD (d2.index i 0) 0 = (fold true i).2.1.1 % 2 ^ d2.fmt.bits))

/-! ### Engines and their queues -/

/-- R105, R106, R111, R164, R171, R186, R187: XCPY that passes its checks, its older acquires performed, puts its command on the link queue
of the core's die and answers 0, or 1 when the queue holds 256; the engine reads the next bytes in one step and writes them in a later one,
those that meet no fault, and posts the command's first fault (that it goes on in rising order, a free number of bytes at a time, is the
model's choice, logs 2 and 34); once all are copied the flag takes 1, or 1 + 2^32 after a fault, in one event, and the command leaves. -/
def Obligations.LinkCopies : Prop :=
  ∀ (s0 s s1 s2 : State) (k : BKey) (b : Block) (d n : SReg) (dst src flag : ARef) (ord : MemOrd) (die idx : Nat) (c : LinkCmd) (image : W64)
      (r : List (Option Byte) × Option FaultInfo) (fault : Option FaultInfo) (l : HEntry × W64 × List Nat) (im : Option W64) (ps : List Nat),
    (Settled s0 k Ev.acquires s b → (∀ r ∈ [dst, src, flag], b.pa r = false) → b.ps n = false →
      xcpyCheck s (s.envOf k b) b dst src flag (b.gs n).toNat = .ok s1 () →
      let q := (s1.die (s1.dieOf k.core)).link
      let answers (v : W64) (b' : Block) : Prop := b'.pc = b.pc + 8 ∧ (∀ r, b'.gs r = if r ≠ 0 ∧ r = d then v else b.gs r)
        ∧ (∀ r, b'.ps r = if r ≠ 0 ∧ r = d then false else b.ps r)
      (256 ≤ q.length → Completes (.xcpy d dst src flag n ord) s0 fun t => ∃ b', OnlyBlock s1 t k b' ∧ answers 1 b'
          ∧ b' = { b with pc := b'.pc, s := b'.s, sp := b'.sp, deps := b'.deps })
        ∧ (q.length < 256 → Completes (.xcpy d dst src flag n ord) s0 fun t => ∃ b' c, BlockNow s1 t k b'
          ∧ (t.die (s1.dieOf k.core)).link = q ++ [c] ∧ c.dst = b.ga dst ∧ c.src = b.ga src ∧ c.flag = some (b.ga flag)
          ∧ c.n = (b.gs n).toNat ∧ c.next = 0 ∧ c.ctx = s1.ctxNumOf b ∧ c.core = k.core ∧ c.copied = false ∧ c.failed = false ∧ answers 0 b'
          ∧ b'.evq.length = b.evq.length + (match ord with | .acq _ => 1 | .rel _ => 1 | _ => 0)
          ∧ b' = { b with pc := b'.pc, s := b'.s, sp := b'.sp, evq := b'.evq, deps := b'.deps }))
    ∧ ((s.die die).link[idx]? = some c → (∀ (i j : Nat) (x y : LinkCmd), (s.die die).link[i]? = some x → (s.die die).link[j]? = some y → x.id = y.id → i = j) →
      let e : Env := { ctx := c.ctx, core := c.core, who := none }
      let older := (s.die die).link.take idx
      let piece := c.piece s.freeCount
      let places := (List.range c.buffer.length).map (c.next + ·)
      let need := Need.store.scalar 8
      -- from u on, the command became x, and its first fault f was posted
      let goes (u t : State) (f : Option FaultInfo) (x : LinkCmd) : Prop :=
        let first := if c.failed then none else f
        t.mem = (match first with
            | some f => (postCtxFault u c.ctx (c.src318 f) f.cause f.where_ c.ident).mem
            | none => u.mem)
          ∧ t.blocks = u.blocks ∧ ∀ i, (t.die die).link[i]? = if i = idx then some { x with
              held := false
              failed := c.failed || f.isSome
              cause := match first with
                | some f => f.cause
                | none => c.cause } else (u.die die).link[i]?
      (∀ i, piece[i]? = if i < piece.length then some (c.next + i) else none) ∧ (c.next < c.n → piece ≠ [])
      ∧ (c.copied = false → s.waitsPoint c.acq = false → s.waitsRelease c.rel = false →
        (c.buffer = [] → s.linkWaits older (c.dataHomes s piece.length) = false → engineRead e c.src s piece = .ok s1 r →
          Completes (.xcpyCopy die idx) s fun t => goes s1.bumpFree t r.2 { c with
            buffer := r.1
            copied := decide (r.1 = []) })
        ∧ (c.buffer ≠ [] → engineReady e c.dst s places = .ok s1 () → engineWrite e c.dst s1 c.next c.buffer = .ok s2 fault →
          Completes (.xcpyCopy die idx) s fun t => goes s2 t fault { c with
            next := c.next + c.buffer.length
            buffer := []
            copied := decide (c.n ≤ c.next + c.buffer.length) }))
      ∧ (c.copied = true → s.waitsPoint c.rel = false → s.linkWaits older (c.flagHomes s) = false → c.node = none → c.flag = some image →
        locate s e (refH image) (refOff image) 8 true need = .ok s1 l → chaseAll s1 e need l.2.1 l.2.1 l.2.2 = .ok s2 (im, ps) →
        ps.any s2.eccAt = false → ps.Nodup → ps.length = 8 → Completes (.xcpyFlag die idx) s fun t => SameBytesBut s2 t ps ∧ t.blocks = s2.blocks
          ∧ leNat (t.readHomes ps) = (leNat (s2.readHomes ps) + if c.failed then 1 + 2 ^ 32 else 1) % 2 ^ 64
          ∧ (t.die die).link = (s2.die die).link.filter fun x => x.id ≠ c.id))

/-- R106, R256, R258, R259, R278: ENQ, what it waits for done, to no queue of its context faults HANDLE with the queue's number; to a full ring it
answers 1; otherwise s8 to s15 are in the ring's next slot, where a waymark has led, TAIL has advanced, the command waits on the queue's die,
and the answer is 0. -/
def Obligations.EnqueuedCommands : Prop :=
  ∀ (s s0 s1 s2 : State) (k : BKey) (b : Block) (d : SReg) (q : BitVec 12) (ord : MemOrd) (c : QDesc) (ps : List Nat),
    SettledFor s k true (enqBytes q.toNat) s0 b → (∀ r ∈ enqRegs, b.ps r = false) →
    let e := s0.envOf k b
    let tail := (List.range 4).map (c.at_ + 16 + ·)
    let noQueue (u : State) : Prop := exec (.enq d q ord) s = .next (takeTrap u k b { FaultInfo.plain causeHandle with aux := q.setWidth 64 })
    (min (fld 0 13 (s0.ctx e.ctx).bqn.toNat) 4096 ≤ q.toNat → noQueue s0)
      ∧ (queueAt s0 e q.toNat Need.readWrite = .ok s1 c →
        (c.valid = false → noQueue s1)
        ∧ (c.valid = true → 2 ^ c.log2n ≤ c.count → Completes (.enq d q ord) s (ScalarResult s1 k b d 1 false))
        ∧ (c.valid = true → c.count < 2 ^ c.log2n → ringBytes s1 e Need.store (c.slot c.tail) 64 = .ok s2 ps → ps.any s2.eccAt = false →
          ps.length = 64 → ps.Nodup → (∀ p ∈ ps, p ∉ tail) → Completes (.enq d q ord) s fun t => ∃ b' x, BlockNow { s2 with mem := t.mem } t k b'
            ∧ t.readHomes ps = enqRegs.flatMap (fun r => leBytes 8 (b.gs r).toNat)
            ∧ t.mem.readLE (c.at_ + 16) 4 = (c.tail + 1) % 2 ^ 32 ∧ SameBytesBut s2 t (ps ++ tail)
            ∧ (t.die c.die).bind = (s2.die c.die).bind ++ [x] ∧ x.words = enqRegs.map b.gs ∧ x.ctx = e.ctx ∧ x.q = q.toNat ∧ x.pos = c.tail
            ∧ x.taken = false ∧ x.parts = 0 ∧ x.codes = [] ∧ b'.pc = b.pc + 8 ∧ (∀ r, b'.gs r = if r ≠ 0 ∧ r = d then 0 else b.gs r)
            ∧ (∀ r, b'.ps r = if r ≠ 0 ∧ r = d then false else b.ps r)
            ∧ b' = { b with pc := b'.pc, s := b'.s, sp := b'.sp, evq := b'.evq }))

/-- R105, R255, R260, R262 to R264, R267, R268, R270, R271: a free engine takes the command at the head of its queue, and starts it. A field
outside its limits is BADCMD and touches nothing; a check that fails ends it with status 1 and its cause; otherwise a range command goes on
to one Code event for each block, RESAMPLE to one read for each sample, and the others to their units, elements or blocks, which later turns
do one by one. RESAMPLE answers BUSY, ACTIVE, LIVE or EARLY in this order. A turn of an engine that finds nothing to take makes the next
access of the command at work: a read keeps what it found, and the write that ends a part counts it. The order of a command's checks, an
undefined OP taken by TRANSFORM, and the parts in rising order are the model's choices (logs 18 and 34). -/
def Obligations.BinderyCommands : Prop :=
  (∀ (s s1 s2 s3 : State) (ctx q : Nat) (d : QDesc) (c : BindCmd) (f : FaultInfo) (bs bs' : List Byte) (o : QuantOp) (h : HEntry),
    Takes s s1 ctx q d c →
    let e : Env := { ctx := ctx, core := c.core, who := none }
    let image := BitVec.ofNat 64 (c.w 2)
    let ends (i : Instr) (u : State) (x : BindCmd) := Completes i s fun t => Taken u t d x
    let status (i : Instr) (n : Nat) := ends i s1 { c with status := n }
    let failed (i : Instr) (u : State) (f : FaultInfo) := ends i u { c with
      status := 1
      cause := f.cause
      addr := faultVA u e f }
    let noWork (mask : Nat) : Prop := mask < c.arg ∨ c.w 3 % 512 ≠ 0 ∨ c.w 4 ≠ 0 ∨ c.w 5 ≠ 0 ∨ c.w 6 ≠ 0 ∨ c.w 7 ≠ 0
    let range (i : Instr) (mask : Nat) : Prop := (noWork mask → status i 2)
      ∧ (¬ noWork mask → (checkHandle s1 e image Need.readWrite = .bad s2 f → failed i s2 f)
        ∧ (checkHandle s1 e image Need.readWrite = .ok s2 h →
          (h.ce = false ∨ (h.base + refOff image) % 512 ≠ 0 → ends i s2 { c with status := 2 })
          ∧ (h.ce = true → (h.base + refOff image) % 512 = 0 →
            (h.bound < refOff image + c.w 3 → failed i s2 (FaultInfo.atRef causeBound image))
            ∧ (refOff image + c.w 3 ≤ h.bound → c.op = 5 → (s2.codeClass d.die h.ccls).active = c.arg → ends i s2 { c with status := 4 })
            ∧ (refOff image + c.w 3 ≤ h.bound → (c.op = 5 → (s2.codeClass d.die h.ccls).active ≠ c.arg) → ends i s2 { c with
                codes := (List.range (c.w 3 / 512)).map fun n => image + BitVec.ofNat 64 (512 * n) }))))
    ((c.op = 0 ∨ 7 < c.op) → status (.transform ctx q) 2)
      ∧ (c.op = 1 → (transformBad c (Efmt.ofCode (fld 32 5 (c.w 4))) = true → status (.transform ctx q) 2)
        ∧ (transformBad c (Efmt.ofCode (fld 32 5 (c.w 4))) = false → ends (.transform ctx q) s1 { c with parts := c.transform.length }))
      ∧ (c.op = 2 →
        let rows := fld 0 32 (c.w 5)
        let cols := fld 32 32 (c.w 5)
        let bad : Prop := c.arg ≠ 0 ∨ c.w 6 ≠ 0 ∨ c.w 7 ≠ 0 ∨ rows = 0 ∨ cols = 0
        let a := parseOwner bs
        let z := parseOwner bs'
        let inside (o : Owner) : Prop := fld 0 32 (c.w 4) + rows ≤ o.nbr * o.br ∧ fld 32 32 (c.w 4) + cols ≤ o.nbc * o.bc
        let fit : Prop := a.unfit = false ∧ z.unfit = false ∧ a.efmt = z.efmt ∧ inside a ∧ inside z
        (bad → status (.redist ctx q) 2)
          ∧ (¬ bad → (readRef s1 e image 0 32 false Need.load = .bad s2 f → failed (.redist ctx q) s2 f)
            ∧ (readRef s1 e image 0 32 false Need.load = .ok s2 bs → bs.length = 32 →
              (readRef s2 e (BitVec.ofNat 64 (c.w 3)) 0 32 false Need.load = .bad s3 f → failed (.redist ctx q) s3 f)
              ∧ (readRef s2 e (BitVec.ofNat 64 (c.w 3)) 0 32 false Need.load = .ok s3 bs' →
                (¬ fit → ends (.redist ctx q) s3 { c with status := 2 })
                ∧ (fit → ends (.redist ctx q) s3 { c with
                  parts := rows * cols
                  head := bs ++ bs' })))))
      ∧ (c.op = 3 → range (.compress ctx q) 0) ∧ (c.op = 4 → range (.decompress ctx q) 0) ∧ (c.op = 5 → range (.recode ctx q) 3)
      ∧ (c.op = 6 → let k := fld 0 3 c.arg
        let x := s1.codeClass d.die k
        let bad : Prop := fld 3 1 c.arg ≠ 0 ∨ fld 6 10 c.arg ≠ 0 ∨ refOff image % 512 ≠ 0 ∨ c.w 3 % 512 ≠ 0 ∨ c.w 4 = 0 ∨ 65535 < c.w 4
        let early : Prop := ∃ u, x.frozenAt = some u ∧ s1.dtime < u + s1.mgc.params.getD 2 0
        (bad → status (.resample ctx q) 2) ∧ (¬ bad → (x.learning = true → status (.resample ctx q) 6)
          ∧ (x.learning = false → (fld 4 2 c.arg = x.active → status (.resample ctx q) 4)
            ∧ (fld 4 2 c.arg ≠ x.active → (s1.liveCount d.die k (fld 4 2 c.arg) ≠ 0 → status (.resample ctx q) 3)
              ∧ (s1.liveCount d.die k (fld 4 2 c.arg) = 0 → (early → status (.resample ctx q) 5)
                ∧ (¬ early → (checkHandle s1 e image Need.load = .bad s2 f → failed (.resample ctx q) s2 f)
                  ∧ (checkHandle s1 e image Need.load = .ok s2 h →
                    (h.bound < refOff image + c.w 3 → failed (.resample ctx q) s2 (FaultInfo.atRef causeBound image))
                    ∧ (refOff image + c.w 3 ≤ h.bound → ends (.resample ctx q) (s2.setClass d.die k { x with learning := true }) { c with
                      parts := min (c.w 4) (c.w 3 / 512)
                      learns := some (k, fld 4 2 c.arg) }))))))))
      ∧ (c.op = 7 → (quantOp c = none → status (.quant ctx q) 2)
        ∧ (quantOp c = some o → (o.sf ≠ .ks4 → ends (.quant ctx q) s1 { c with parts := o.blocks + if o.df = .ks4 then 1 else 0 })
          ∧ (o.sf = .ks4 →
            let at_ : Int := quantTAt o.rows o.cols o.ss .ks4
            (readRef s1 e o.src at_ 4 false Need.load = .bad s2 f → failed (.quant ctx q) s2 f)
              ∧ (readRef s1 e o.src at_ 4 false Need.load = .ok s2 bs → ends (.quant ctx q) s2 { c with
                parts := o.blocks
                head := bs })))))
  ∧ (∀ (s s1 : State) (ctx q die : Nat) (d : QDesc) (c : BindCmd) (step : PartStep), c.taken = true → c.ctx = ctx → c.q = q → c.at_ < c.parts →
    (∀ ops : Nat → Bool, ops c.op = true → s.atWork ctx q ops = [(die, c)]) →
    queueAt s { ctx := ctx, core := queueCore s ctx q, who := none } q Need.readWrite = .ok s d → d.head = d.tail →
    s.bumpFree.engineWaits die c (partHomes s.bumpFree c.env c c.at_) = false → enginePart s.bumpFree c.env c c.at_ = .ok s1 step →
    let becomes (i : Instr) (x : BindCmd) := Completes i s fun t => t.mem = s1.mem ∧ t.blocks = s1.blocks
      ∧ (t.die die).bind = (s1.die die).bind.map fun y => if y.id = c.id then x else y
    let works (i : Instr) (whole : Bool) : Prop :=
      (∀ bs, step = .read bs → becomes i { c with got := c.got ++ [bs] })
      ∧ ∀ n m, step = .done n m → becomes i { c with
        at_ := c.at_ + 1
        got := []
        cnt1 := if whole && c.at_ + 1 = c.parts then fld 16 16 (c.w 4) * fld 0 16 (c.w 4) else c.cnt1 + n
        cnt2 := c.cnt2 + m }
    (c.op = 1 → works (.transform ctx q) true) ∧ (c.op = 2 → works (.redist ctx q) false) ∧ (c.op = 6 → works (.resample ctx q) false)
      ∧ (c.op = 7 → works (.quant ctx q) false))

/-- R111, R261, R265 to R269: a Code event that waits for no older command codes one block under the class's active table, expands it for
DECOMPRESS, and counts it; a finished RESAMPLE freezes the table it learned, the code lengths of a prefix code (in a turn of its record
event, which is the model's choice, log 18); a finished command writes words 1 to 3 of its record, once no older command has still to access
these bytes, then, after its release point, word 0, and leaves. -/
def Obligations.BinderyEvents : Prop :=
  ∀ (s s1 s2 : State) (die idx p : Nat) (c : BindCmd) (im : W64) (rest : List W64) (l : HEntry × W64 × List Nat) (y : Option W64)
      (ps : List Nat), (s.die die).inFlight[idx]? = some c →
    let e : Env := { ctx := c.ctx, core := c.core, who := none }
    let now (u t : State) (f : BindCmd → BindCmd) : Prop := t.mem = u.mem ∧ t.blocks = u.blocks ∧ ∀ x ∈ (t.die die).bind, x.id = c.id → x = f { c with
      codes := rest }
    let left (u t : State) : Prop := (t.die die).bind = (u.die die).bind.filter fun x => x.id ≠ c.id
    let image := BitVec.ofNat 64 (c.w 1)
    let fault : Bool := c.status = 1
    (c.codes = im :: rest → s.engineWaits die c (rangeHomes s e im 512) = false →
        locate s e (refH im) (refOff im) 512 false Need.readWrite = .ok s1 l →
        chaseAll s1 e Need.readWrite im im l.2.2 = .ok s2 (y, (List.range 512).map (p + ·)) → p % 512 = 0 →
        ((List.range 512).map (p + ·)).any s2.eccAt = false →
      let x := s2.codeClass (s2.homeDieOf p) l.1.ccls
      let n := codedLines ((x.slots[x.active]?).getD []) (s2.mem.readN p 512)
      let was := kvGet (p / 512) s2.coded
      let others (t : State) : Prop := ∀ q, q ≠ p / 512 → kvGet q t.coded = kvGet q s2.coded
      let recodes (i : Instr) : Prop := Completes i s fun t => others t
        ∧ kvGet (p / 512) t.coded = (n.map fun n => {
          cls := l.1.ccls
          gen := x.active
          lines := n })
        ∧ now s2 t fun z => { z with
          cnt1 := c.cnt1 + 1
          cnt2 := c.cnt2 + if n = none then 1 else 0 }
      (c.op = 3 → was = none → recodes (.code die idx))
        ∧ (c.op = 4 → was ≠ none → Completes (.code die idx) s fun t => others t ∧ kvGet (p / 512) t.coded = none
          ∧ now s2 t fun z => { z with cnt1 := c.cnt1 + 1 })
        ∧ (c.op = 4 → was = none → Completes (.code die idx) s fun t => others t ∧ kvGet (p / 512) t.coded = none ∧ now s2 t fun z => z)
        ∧ (c.op = 5 → ∀ o, was = some o → (o.gen = c.arg → recodes (.code die idx))
          ∧ (o.gen ≠ c.arg → Completes (.code die idx) s fun t => others t ∧ kvGet (p / 512) t.coded = some o
            ∧ now s2 t fun z => { z with cnt1 := c.cnt1 + 1 })))
    ∧ (c.codes = [] → c.parts ≤ c.at_ →
      (∀ cls slot, c.learns = some (cls, slot) → cls < (s.die die).classes.length → slot < ((s.codeClass die cls).slots).length →
        Completes (.binderyCompletionRecord die idx) s fun t => t.mem = s.mem ∧ (
            let z := t.codeClass die cls
            z.active = slot ∧ z.learning = false ∧ z.frozenAt = some s.dtime ∧ ∃ code, z.slots[slot]? = some code ∧ code.length = 256
              ∧ (∀ n ∈ code, n ≤ 12) ∧ ((code.filter fun n => n ≠ 0).map fun n => 2 ^ (12 - n)).sum ≤ 2 ^ 12))
      ∧ (c.learns = none →
        (image = 0 → s.waitsPoint c.rel = false → Completes (.binderyCompletionRecord die idx) s fun t => left s t ∧ t.mem = s.mem)
        ∧ (image ≠ 0 → s.engineWaits die c (recordHomes s c) = false →
          locate s e (refH image) (refOff image) 32 true Need.store = .ok s1 l →
          chaseAll s1 e Need.store l.2.1 l.2.1 l.2.2 = .ok s2 (y, ps) → ps.length = 32 → ps.Nodup →
          (c.recd = false → Completes (.binderyCompletionRecord die idx) s fun t => SameBytesBut s2 t (ps.drop 8) ∧ t.blocks = s2.blocks
            ∧ t.readHomes (ps.drop 8) = leBytes 8 c.cnt1 ++ leBytes 8 c.cnt2 ++ leBytes 8 (if fault then c.addr.toNat else s.dtime)
            ∧ (t.die die).bind = (s2.die die).bind.map fun x => if x.id = c.id then { c with recd := true } else x)
          ∧ (c.recd = true → s.waitsPoint c.rel = false → Completes (.binderyCompletionRecord die idx) s fun t => left s2 t
            ∧ SameBytesBut s2 t (ps.take 8) ∧ t.blocks = s2.blocks
            ∧ leNat (t.readHomes (ps.take 8)) = fld 32 32 (c.w 0) * 2 ^ 32 + (if fault then c.cause % 256 else 0) * 2 ^ 24 + c.op * 2 ^ 16
              + c.status % 256 * 2 ^ 8 + 1))))

/-! ### Movable bales and the Drover -/

/-- R106, R282, R285, R286, R287, R288: MOVE and MKFREE that pass their checks, their older acquires performed, put their command on the
Drover queue of the core's die, a MOVE with the die's next number, and answer the number or 0; a full queue, whose running command counts
too (the model's reading, log 19), answers 0 or 1 and takes nothing. MVQ and MVWAIT answer a move's state word, MVWAIT once it has ended;
SWEEP begins, and a block in the middle of it examines a word a turn, rewrites it when it has moved, and at the end answers the words it
looked at and rewrote; MKQ answers a line's waymark, or its bale's entry. -/
def Obligations.DroverCommands : Prop :=
  ∀ (s s0 s1 s2 s3 : State) (k : BKey) (b : Block) (d n : SReg) (src dst rcd : ARef) (ord : MemOrd) (hs hd h : HEntry) (size p : Nat),
    b.ps n = false → b.pa src = false → b.pa dst = false → b.pa rcd = false →
    let v := b.gs n
    let e := s.envOf k b
    let placed (u t : State) (num op : Nat) (r1 : W64) (dref : W64) (answer : Nat) : Prop := ∃ b' c, BlockNow u t k b' ∧ ScalarWrite b { b' with
          evq := b.evq } d (BitVec.ofNat 64 answer) false
      ∧ (t.die (u.dieOf k.core)).dqueue = (u.die (u.dieOf k.core)).dqueue ++ [c] ∧ c.num = num ∧ c.op = op ∧ c.tag = v.setWidth 32
      ∧ c.ctx = u.ctxNumOf b ∧ c.src = r1 ∧ c.dst = dref ∧ c.recd = b.ga rcd
    (∀ sa, Settled sa k Ev.acquires s b → moveChecks s e (b.ga src) (b.ga dst) (b.ga rcd) (src.val, dst.val, rcd.val) = .ok s1 (hs, hd, size) →
      let q := s1.die (s1.dieOf k.core)
      let num := s1.dieOf k.core * 2 ^ 31 + q.seqNo
      let full : Prop := 1024 ≤ q.droverCmds.length ∨ 256 ≤ q.droverCmds.countP fun c => c.ctx = s1.ctxNumOf b
      (full → Completes (.move d src dst rcd n ord) sa (ScalarResult s1 k b d 0 false))
        ∧ (¬ full → Completes (.move d src dst rcd n ord) sa fun t => placed s1 t num 0x10 (b.ga src) (b.ga dst) num
          ∧ (t.die (s1.dieOf k.core)).seqNo = nextSeq q.seqNo ∧ (t.die (s1.dieOf k.core)).moves.getLast? = some {
            num := num
            ctx := s1.ctxNumOf b
            lines := 0
            status := 0
            state := 1 }))
    ∧ (∀ sa, Settled sa k Ev.acquires s b → freeChecks s e (b.ga src) (b.ga rcd) (src.val, 0, rcd.val) = .ok s1 size →
      let q := s1.die (s1.dieOf k.core)
      let full : Prop := 1024 ≤ q.droverCmds.length ∨ 256 ≤ q.droverCmds.countP fun c => c.ctx = s1.ctxNumOf b
      (full → Completes (.mkfree d src rcd n ord) sa (ScalarResult s1 k b d 1 false))
        ∧ (¬ full → Completes (.mkfree d src rcd n ord) sa fun t => placed s1 t 0 0x11 (b.ga src) 0 0))
    ∧ (Moves s k b → let m := (s.die (v.toNat / 2 ^ 31 % 2)).moves.find? fun m => m.num = v.toNat && m.ctx = s.ctxNumOf b
      let word (x : Option MoveRec) : Nat := match x with
        | none => 0
        | some m => m.lines % 2 ^ 24 * 2 ^ 24 + (if m.state = 3 ∨ m.state = 4 then m.status % 256 * 2 ^ 16 else 0) + m.state
      let done : Prop := word m % 8 = 0 ∨ word m % 8 = 3 ∨ word m % 8 = 4
      Completes (.mvq d n) s (ScalarResult s k b d (BitVec.ofNat 64 (word m)) false)
        ∧ (done → Completes (.mvwait d n ord) s (ScalarResult s k b d (BitVec.ofNat 64 (word m)) false))
        ∧ (¬ done → Completes (.mvwait d n ord) s fun t => OnlyBlock s t k { b with sleep := some (.mvwait d v) })
        ∧ (b.sleep = some (.mvwait d v) → done → Completes (.mvwaitWake k) s fun t => ∃ b', OnlyBlock s t k b'
          ∧ ScalarWrite { b with sleep := none } b' d (BitVec.ofNat 64 (word m)) false))
    ∧ (SettledFor s k true (sweptBytes src n) s0 b →
      let m := min v.toNat (2 ^ 24)
      (refOff (b.ga src) % 8 = 0 → v.toNat % 8 = 0 → checkHandle s0 (s0.envOf k b) (b.ga src) Need.readWrite = .ok s1 h →
        (m = 0 → Completes (.sweep d src n) s (ScalarResult s1 k b d 0 false))
        ∧ (m ≠ 0 → Completes (.sweep d src n) s fun t => BlockNow s1 t k { b with sleep := some (.sweep d src (b.ga src) m 0 0) }))
      ∧ (refOff (b.ga src) % 8 ≠ 0 ∨ v.toNat % 8 ≠ 0 → exec (.sweep d src n) s = .next (takeTrap s0 k b
            { FaultInfo.atRef causeAlign (b.ga src) with aref := src.val })))
    ∧ (∀ (image : W64) (len next count : Nat) (l : HEntry × W64 × List Nat) (y : Option W64) (ps : List Nat), s.block? k = some b →
      b.sleep = some (.sweep d src image len next count) → next < len →
      locate s e (refH image) ((refOff image : Int) + next) 8 true (Need.readWrite.scalar 8) = .ok s1 l →
      chaseAll s1 e (Need.readWrite.scalar 8) l.2.1 l.2.1 l.2.2 = .ok s2 (y, ps) → ps.any s2.eccAt = false → ps.Nodup → ps.length = 8 →
      let word := BitVec.ofNat 64 (leNat (s2.readHomes ps))
      let moved := finalRef s2 e word
      let total := count + if moved = word then 0 else 1
      ∃ t b', execSweepRound k s = .next t ∧ t.block? k = some b' ∧ (∀ k', k' ≠ k → t.block? k' = s2.block? k')
        ∧ SameBytesBut s2 t (if moved = word then [] else ps) ∧ leNat (t.readHomes ps) = moved.toNat
        ∧ (next + 8 < len → b' = { b with sleep := some (.sweep d src image len (next + 8) total) })
        ∧ (len ≤ next + 8 → ScalarWrite { b with sleep := none } b' d (BitVec.ofNat 64 ((next + 8) / 8 * 2 ^ 32 + total)) false))
    ∧ (Moves s k b → d.val % 2 = 0 → checkHandle s e (b.ga src) Need.load = .ok s1 h → refOff (b.ga src) < h.bound →
      placeRaw s1 e h (b.ga src) Need.load = .ok s3 p → Completes (.mkq d src) s fun t => ∃ b' w0 w1, BlockNow s3 t k b' ∧ b'.pc = b.pc + 8
        ∧ (∀ r, b'.gs r = if r = 0 then 0 else if r = d + 1 then w1 else if r = d then w0 else b.gs r) ∧ b' = { b with
          pc := b'.pc
          s := b'.s
          sp := b'.sp }
        ∧ (∀ x, s3.markAt p = some x → w0.getLsbD 3 = true ∧ w0.toNat / 2 ^ 48 = x.gen % 2 ^ 16 ∧ w0.toNat / 2 ^ 16 % 2 ^ 32 = x.mnum % 2 ^ 32
          ∧ w0.toNat / 16 % 4 = x.hop % 4 ∧ (w0.toNat % 4 ≠ 3 → w1 = x.newref))
        ∧ (s3.markAt p = none → w0.getLsbD 3 = false ∧ (h.mcls = 0 → w0 = 0 ∧ w1 = 0)
          ∧ ∀ x, baleSize h.mcls ≠ 0 → s3.dirOf e.ctx (refH (b.ga src)) (refOff (b.ga src)) = some x → x.num < 2 ^ 32 → w0.toNat = x.num * 2 ^ 16
            + match x.state with
              | .moving => 1
              | .marked => 2
              | .quarantined => 3))

/-- R113, R115, R275, R278, R282, R284, R288: the Drover takes a MOVE at the head of its queue, refusing it by a STATUS or entering its bale
in the directory as moving; it marks one line after another, the new line taking the old one's 128 bytes and its error and the old one
becoming a waymark; a move whose lines are all marked marks its bale and gives its handle the new GEN, and only then ends with a record.
That the checks of R282 are made again at the claim, with these statuses, that a refused command leaves a running one to report, and that an
error moves with its line are the model's readings (log 19). An MKFREE of a marked bale quarantines it, and its end makes the bale's lines
zero and no waymarks. -/
def Obligations.DroverEvents : Prop :=
  ∀ (s s1 s2 s3 : State) (die idx : Nat) (c : DroverCmd) (rest : List DroverCmd) (r : RunningMove) (f : FaultInfo) (hs hd : HEntry)
      (size : Nat) (ps pd : List Nat) (x : DirEntry) (q : Quarantine), die < 2 →
    let e := droverEnv s die c
    let cmds (t : State) := (t.die die).dqueue = rest
    let refused (u : State) (status : Nat) (i : Instr) := Completes i s fun t => cmds t ∧ t.mem = u.mem ∧ t.directory = u.directory
      ∧ ∃ y, (t.die die).running = some y ∧ y.cmd = c ∧ y.status = status ∧ y.lines = y.line
    let key := (c.ctx, refH c.src, refOff c.src / size)
    ((s.die die).running = none → (s.die die).dqueue = c :: rest → s.waitsPoint c.acq = false → s.waitsRelease c.rel = false →
      (c.op ≠ 0x10 → c.op ≠ 0x11 → refused s 2 (.moveClaim die))
      ∧ (c.op = 0x10 → (moveChecks s e c.src c.dst c.recd (0, 0, 0) = .bad s1 f →
          refused s1 (if f.cause = causeFormat ∨ f.cause = causeAlign then 2 else 1) (.moveClaim die))
        ∧ (moveChecks s e c.src c.dst c.recd (0, 0, 0) = .ok s1 (hs, hd, size) → walkPages s1 e hs Need.load c.src (size / 4096) = .ok s2 ps →
          walkPages s2 e hd Need.store c.dst (size / 4096) = .ok s3 pd →
          let busy : Prop := s3.baleState c.ctx key.2.1 key.2.2 ≠ none ∨ s3.baleState c.ctx (refH c.dst) (refOff c.dst / size) ≠ none
            ∨ s3.baleNamed c.ctx (refH c.dst) (refOff c.dst / size) = true
          let depth := s3.baleDepth c.ctx key.2.1 key.2.2 16 + 1
          let shared : Prop := ∃ p ∈ ps, p ∈ pd
          (busy → refused s3 8 (.moveClaim die)) ∧ (¬ busy → (shared → refused s3 2 (.moveClaim die))
            ∧ (¬ shared → (3 < depth → refused s3 9 (.moveClaim die))
              ∧ (depth ≤ 3 → (16384 ≤ (s3.die die).dir.length → refused s3 10 (.moveClaim die))
                ∧ ((s3.die die).dir.length < 16384 → Completes (.moveClaim die) s fun t => cmds t ∧ t.mem = s3.mem ∧ ∃ y z,
                  (t.die die).running = some y ∧ y.cmd = c ∧ y.status = 0 ∧ y.line = 0 ∧ y.lines = size / 128 ∧ y.srcPages = ps
                  ∧ y.dstPages = pd ∧ y.depth = depth ∧ (t.die die).dir = (s3.die die).dir ++ [z] ∧ (z.ctx, z.srcH, z.srcK) = key
                  ∧ z.dstH = refH c.dst ∧ z.dstK = refOff c.dst / size ∧ z.state = .moving ∧ z.num = c.num ∧ z.pages = ps))))))
      ∧ (c.op = 0x11 → c.dst = 0 → freeChecks s e c.src c.recd (0, 0, 0) = .ok s1 size →
        let bale := s1.directory.find? fun x => x.ctx = key.1 && x.srcH = key.2.1 && x.srcK = key.2.2 && x.state = .marked
        (bale = none ∨ s1.baleNamed key.1 key.2.1 key.2.2 = true → refused s1 11 (.mkfreeEvent die))
        ∧ (bale = some x → s1.baleNamed key.1 key.2.1 key.2.2 = false → s1.holdsPages x.pages = false → Completes (.mkfreeEvent die) s fun t =>
            cmds t ∧ t.mem = s1.mem ∧ (∀ y ∈ t.directory, (y.ctx, y.srcH, y.srcK) = key → y.state = .quarantined)
            ∧ (t.die die).quar = (s1.die die).quar ++ [{
              cmd := c
              ctx := c.ctx
              h := refH c.src
              k := refOff c.src / size
              size := size
              ends := s1.dtime + s1.mgc.params.getD 1 0
              cleared := false
              recd := false }])))
    ∧ ((s.die die).running = some r → (r.line < r.lines →
        let old := lineHome r.srcPages r.line
        let new := lineHome r.dstPages r.line
        let line (p : Nat) := (List.range 128).map (p + ·)
        old % 128 = 0 → new % 128 = 0 → old ≠ new → s.armedAt old = false → s.armedAt new = false →
        Completes (.mark die) s fun t => (∀ i, i < 128 → t.mem.read (new + i) = s.mem.read (old + i))
          ∧ (∀ i, i < 128 → t.mem.read (old + i) = 0) ∧ SameBytesBut s t (line old ++ line new)
          ∧ t.eccAt new = s.eccAt old ∧ t.eccAt old = false ∧ t.markAt old = some {
            newref := mkRef (refH r.cmd.dst) (refOff r.cmd.dst + 128 * r.line)
            home := new
            gen := r.gen
            hop := r.depth
            mnum := r.cmd.num }
          ∧ t.blocks = s.blocks ∧ ∃ y, (t.die die).running = some y ∧ y.line = r.line + 1 ∧ y.cmd = r.cmd ∧ y.status = r.status)
      ∧ (r.lines ≤ r.line → s.unmarked r = true → Completes (.moveReport die) s fun t => t.blocks = s.blocks
          ∧ (t.die die).running = (s.die die).running
          ∧ (∀ y ∈ t.directory, y.ctx = r.cmd.ctx → y.srcH = refH r.cmd.src → y.srcK = refOff r.cmd.src / (128 * r.lines) → y.state = .marked)
          ∧ ∀ a n, stage2 s r.cmd.ctx ((s.ctx r.cmd.ctx).entryAddr (refH r.cmd.src)) { Need.none with rd := true } = .ok a n →
              t.mem.readLE (a + 22) 2 = r.gen % 65536 ∧ SameBytesBut s t [a + 22, a + 23])
      ∧ (r.lines ≤ r.line → s.unmarked r = false → r.recd = false → droverRecord s die r.cmd false r.status r.cause r.lines r.eccLines r.addr s.dtime = .ok s1 false →
        Completes (.moveReport die) s fun t => (t.die die).running = some { r with recd := true } ∧ t.blocks = s1.blocks ∧ t.mem = s1.mem
          ∧ t.directory = s1.directory)
      ∧ (r.lines ≤ r.line → s.unmarked r = false → r.recd = true → s.waitsPoint r.cmd.rel = false →
        droverRecord s die r.cmd true r.status r.cause r.lines r.eccLines r.addr s.dtime = .ok s1 true → Completes (.moveReport die) s fun t => (t.die die).running = none ∧ t.blocks = s1.blocks
          ∧ SameBytes s1 t ∧ t.directory = s1.directory ∧ ∀ y ∈ (t.die die).moves, y.num = r.cmd.num →
            y.state = (if r.cmd.op = 0x10 ∧ r.status = 0 then 3 else 4) ∧ y.status = r.status))
    ∧ ((s.die die).quar[idx]? = some q →
      (q.cleared = false → q.ends ≤ s.dtime →
        let pages := (s.directory.filter fun x => x.ctx = q.ctx && x.srcH = q.h && x.srcK = q.k).flatMap fun x => x.pages
        let inside (a : Nat) : Prop := a / 4096 * 4096 ∈ pages
        Completes (.quarantineEnd die idx) s fun t => (∀ y ∈ t.directory, ¬ (y.ctx = q.ctx ∧ y.srcH = q.h ∧ y.srcK = q.k))
          ∧ (∀ a, inside a → t.markAt a = none)
          ∧ (∀ a, (inside a → t.mem.read a = 0) ∧ (¬ inside a → t.mem.read a = s.mem.read a))
          ∧ (t.die die).quar[idx]? = some { q with
            cleared := true
            ends := s.dtime })
      ∧ (q.cleared = true → q.recd = false → droverRecord s die q.cmd false 0 0 (q.size / 128) 0 0 q.ends = .ok s1 false →
        Completes (.quarantineEnd die idx) s fun t => (t.die die).quar = (s1.die die).quar.set idx { q with recd := true } ∧ t.mem = s1.mem)
      ∧ (q.cleared = true → q.recd = true → s.waitsPoint q.cmd.rel = false →
        droverRecord s die q.cmd true 0 0 (q.size / 128) 0 0 q.ends = .ok s1 true → Completes (.quarantineEnd die idx) s fun t => (t.die die).quar = (s1.die die).quar.eraseIdx idx ∧ t.mem = s1.mem))

/-! ### Events of blocks, launches and graphs -/

/-- R119, R136, R137, R143, R286, R301, R305: a diversion takes a block that a deadline or a cancel has reached to its wrap-up, or ends it
with NONE when its kernel has none, once what has begun is done, its SWEEP completed early; a block that overruns its wrap-up budget dies
with cause DEADLINE; an ended block leaves its context once nothing of it is pending, and its launch counts it. -/
def Obligations.BlockEvents : Prop :=
  ∀ (s s1 : State) (k : BKey) (b0 b : Block) (l : Launch) (core : Nat) (v : Validity) (cause : Nat), s.block? k = some b → s.launchOf b = some l →
    let z := b.endEarly
    let kept (b' : Block) : Prop := ∀ u, (b.gt u = none → b'.gt u = none) ∧ ∀ x, b.gt u = some x → x.unwritten = false → b'.gt u = some x
    (core < s.coreCount → Completes (.logicalTimeAdvance core) s fun t => t = { s with cores := t.cores }
        ∧ ∀ c, t.core c = if c = core then { s.core core with logical := (s.core core).logical + 1 } else s.core c)
      ∧ (s1.block? k = some b0 → s1.divertDue b0 = true → settleWhere s1 k Ev.begun = s → s.divertDue b = true → s.stopWaits k b = false →
        (∀ p ∈ s.blocks, p.2.parts = []) → (∀ h ∈ b.held, h.begun = false) → Completes (.diversion k) s1 fun t => ∃ b', BlockNow s t k b' ∧ b'.wpc = z.discardPc
          ∧ b'.wcause = (if s.expired l.man then 0x11 else 0x17) ∧ b'.evq = z.keptEvents ∧ kept b'
          ∧ (∀ w, l.wrapup = some w → b'.pc = w ∧ b'.ended = none ∧ b'.status = b.status ||| 0x100 ∧ b'.wbend = s.dtime + l.man.budget)
          ∧ (l.wrapup = none → b'.ended = some (.none, 0) ∧ b'.pc = z.pc ∧ b'.status = b.status)
          ∧ b' = { z with
            pc := b'.pc
            t := b'.t
            status := b'.status
            wpc := b'.wpc
            wcause := b'.wcause
            wbend := b'.wbend
            validity := .none
            calls := []
            evq := b'.evq
            held := []
            superseded := []
            msgs := []
            parts := []
            sleep := none
            deps := b'.deps
            loans := b'.loans
            sendPos := b'.sendPos
            recvPos := b'.recvPos
            ended := b'.ended })
      ∧ (b.status.getLsbD 8 = true → b.wbend ≤ s.dtime → b.ended = none → b.sys = none → Completes (.budgetOverrun k) s fun t => ∃ b',
          t.block? k = some b' ∧ SameBytes s t ∧ b'.ended = some (.none, 0x11) ∧ b'.flt.flt0.toNat = 0x11 * 2 ^ 56 + z.discardPc.toNat
          ∧ b'.gs = z.gs ∧ b'.ga = b.ga ∧ kept b' ∧ b'.evq = z.keptEvents)
      ∧ (b.ended = some (v, cause) → b.evq = [] → b.msgs = [] → b.held = [] → (s.core k.core).staged = none →
        (cause = 0 → Completes (.retirement k) s fun t => t.block? k = none ∧ SameBytes s t ∧ ∃ l', t.launch? b.launch = some l'
            ∧ kvGet b.blklin l'.valid = some v ∧ l'.nflt = l.nflt ∧ l'.reruns = l.reruns)
          ∧ (cause ≠ 0 → l.man.fltref = 0 → l.man.fpol ≠ 2 → Completes (.retirement k) s fun t => t.block? k = none ∧ ∃ l',
            t.launch? b.launch = some l' ∧ l'.nflt = l.nflt + 1 ∧ l'.fcause = (if l.fblk.isSome then l.fcause else cause)
            ∧ l'.fblk = some (l.fblk.getD b.blklin)
            ∧ (let again : Prop := l.man.fpol = 1 ∧ b.attempt = 0 ∧ l.status = 0 ∧ ¬ (b.status.getLsbD 8 = true ∧ cause = 0x11)
              (again → l'.reruns = l.reruns ++ [(b.blklin, k)] ∧ l'.valid = l.valid)
                ∧ (¬ again → l'.reruns = l.reruns ∧ kvGet b.blklin l'.valid = some .none))))

/-- R121, R298, R300, R301, R303: the launch of the highest priority, and of those the smallest key, starts its lowest block in a free context,
with its registers as R121 gives them; a deadline ends a launch with EXPIRED; a launch with nothing left to run writes its record and
leaves. -/
def Obligations.LaunchEvents : Prop :=
  ∀ (s s2 : State) (k : BKey) (l : Launch) (n cause : Nat),
    ((s.core k.core).staged = none → s.block? k = none → k.core < s.coreCount → k.slot < 4 → (∀ x ∈ s.launches, x.key ≠ none) → l ∈ s.launches →
      s.mayUse k l = true → (∀ x ∈ s.launches, s.mayUse k x = true → x = l ∨ s.effectivePrio x < s.effectivePrio l
        ∨ (s.effectivePrio x = s.effectivePrio l ∧ l.key.getD 0 < x.key.getD 0)) →
      l.reruns = [] → l.coop = false → l.begun.Pairwise (· < ·) → s.launch? l.num = some l →
      placeBlock s l (firstGap 0 l.begun) 0 k = .ok s2 () → Completes (.launchChoice k) s fun t => ∃ b l', t.block? k = some b
        ∧ b.launch = l.num ∧ b.blklin ∉ l.begun ∧ (∀ m, m < b.blklin → m ∈ l.begun) ∧ b.pc = l.entry ∧ b.status = 0 ∧ b.gang = 0
        ∧ b.seed = l.man.mseed ^^^ BitVec.ofNat 64 (b.blklin * 0xD1B54A32D192ED03) ∧ (∀ r, b.gs r = 0 ∧ b.ps r = false)
        ∧ (∀ r : ARef, l.man.abind.getLsbD r.val = false → b.ga r = 0 ∧ b.pa r = false) ∧ (∀ u, b.gt u = none)
        ∧ (∀ m, (b.gm m).bits = 0 ∧ (b.gm m).poison = false) ∧ b.flt = FaultRecord.zero ∧ b.validity = .full ∧ b.calls = []
        ∧ t.launch? l.num = some l' ∧ b.blklin ∈ l'.begun ∧ l'.waitingSince = s.dtime)
    ∧ (s.launch? n = some l → s.expired l.man = true → l.over = false → Completes (.launchDeadline n) s fun t => t.blocks = s.blocks ∧ t.mem = s.mem
        ∧ t.launch? n = some { l with
          status := if l.status = 0 then 0x26 else l.status
          reruns := [] }
        ∧ (∀ c m x y, (t.core c).staged = some (m, x, y) → m ≠ n))
    ∧ (s.launch? n = some l → s.mayRecord l = true → l.man.vmap = 0 → l.node = none →
        writeLaunchRec (s.setLaunch { l with mapped := true }) l.man l.record = .ok s2 cause →
        Completes (.launchCompletionRecord n) s fun t => t.mem = s2.mem ∧ t.blocks = s2.blocks ∧ t.launch? n = none)

/-- R304, R307, R308, R309: what a node of each kind does once completions have reached it: it admits a launch, places a copy, takes one of
two ways, runs its body, waits for a word, adds to one, or ends the graph; a deadline ends a graph, and a hold that passes spills its queue.
That a copy goes to the link queue of die 0, and that a node's accesses are made from core 0, is the model's choice (log 25). -/
def Obligations.GraphNodes : Prop :=
  ∀ (s s1 s2 : State) (n i : Nat) (g : Graph) (x : NodeSt) (bs : List Byte) (l : Launch) (p : W64), s.graph? n = some g →
    let e := dispEnv g.man.ctx
    let runs (type_ : Nat) : Prop := g.ending = false ∧ g.ready = true ∧ s.frozenQueue n = false ∧ g.node i = x ∧ x.running = true
      ∧ x.type_ = type_
    let went (nexts : List Nat) (t : State) : Prop := ∃ g', t.graph? n = some g' ∧ (g'.node i).running = false ∧ g'.ending = false
      ∧ (∀ q, q ≠ i → (g'.node q).preds = (g.node q).preds + nexts.count q)
    let plain (nexts : List Nat) : Prop := (∀ q ∈ nexts, q ≠ nextBody) ∧ i ∉ nexts
    let real (nexts : List Nat) := nexts.filter fun q => q ≠ nextNone
    (runs 1 → x.launch = none → readRef s e x.refA 0 128 false Need.load = .ok s1 bs → (s1.ctx (parseManifest bs).ctx).handles ≠ 0 →
        admitLaunch s1 bs (parseManifest bs) (some (n, i)) = .ok s2 (.ok l) → s2.tableFull = false → s2.graph? n = some g →
        Completes (.kernelNode n i) s fun t => ∃ g' num, t.graph? n = some g' ∧ (g'.node i).launch = some num ∧ g'.kernels = g.kernels + 1
          ∧ t.launches = s2.launches ++ [{ l with num := num }])
      ∧ (runs 2 → (s.die0.link.find? fun c => c.node = some (n, i)) = none → copyRefused s e x = .ok s1 none → s1.die0.link.length < 256 →
        Completes (.copyNode n i) s fun t => ∃ c, t.die0.link = s1.die0.link ++ [c] ∧ c.src = x.refA ∧ c.dst = x.valB ∧ c.n = x.valC.toNat
          ∧ c.node = some (n, i) ∧ c.flag = none ∧ c.copied = false)
      ∧ (runs 3 → readPredicate s g x.refA = .ok s1 p → s1.graph? n = some g →
        let nexts := [if p ≠ 0 then x.next0 else x.next1]
        plain nexts → Completes (.condNode n i) s (went (real nexts)))
      ∧ (runs 4 → let body := x.valB.toNat % 2 ^ 16
        (x.runs = 0 → body ≠ i → Completes (.loopNode n i) s fun t => ∃ g', t.graph? n = some g' ∧ (g'.node i).runs = 1
            ∧ (g'.node body).preds = (g.node body).preds + 1 ∧ (g'.node body).owner = some i)
          ∧ (x.runs ≠ 0 → x.atEnd = false → exec (.loopNode n i) s = .next s)
          ∧ (x.runs ≠ 0 → x.atEnd = true → readPredicate s g x.refA = .ok s1 p → s1.graph? n = some g →
            let again : Prop := p ≠ 0 ∧ (x.valC = 0 ∨ x.runs < x.valC.toNat)
            (again → body ≠ i → Completes (.loopNode n i) s fun t => ∃ g', t.graph? n = some g' ∧ (g'.node i).runs = x.runs + 1
                ∧ (g'.node i).running = true)
              ∧ (¬ again → plain [x.next0] → Completes (.loopNode n i) s (went (real [x.next0])))))
      ∧ (runs 5 → readPredicate s g x.refA = .ok s1 p → s1.graph? n = some g →
        (x.valB.toNat ≤ p.toNat → plain [x.next0, x.next1] → Completes (.waitNode n i) s (went (real [x.next0, x.next1])))
          ∧ (p.toNat < x.valB.toNat → Completes (.waitNode n i) s fun t => ∃ g', t.graph? n = some g' ∧ (g'.node i).running = true))
      ∧ (runs 6 → strongAdd s e Need.atomic x.refA x.valB.toNat = .ok s1 () → s1.graph? n = some g → plain [x.next0, x.next1] →
        Completes (.signalNode n i) s fun t => went (real [x.next0, x.next1]) t ∧ t.mem = s1.mem)
      ∧ (runs 7 → writeLaunchRec s g.man
            { num := g.num, fcause := g.fcause, status := 0, full := g.kernels, part := 0, none_ := 0, fsum := 0, fblk := none, nflt := 0 }
              = .ok s1 0 → Completes (.endNode n i) s fun t => t.graph? n = none ∧ t.mem = s1.mem)
      ∧ (s.expired g.man = true → g.ending = false → s.graphBusy n = true → Completes (.graphDeadline n) s fun t => ∃ g', t.graph? n = some g'
          ∧ g'.ending = true ∧ g'.status = 0x26)
      ∧ (∀ u, (g.node i).hold = some u → u ≤ s.dtime → Completes (.faultHoldExpiry n i) s fun t => t.mem = s.mem ∧ t.blocks = s.blocks
          ∧ (∃ g', t.graph? n = some g' ∧ (g'.node i).spilled = true)
          ∧ ∀ q ∈ t.queues, n ∈ q.launches → q.slot = none)

/-! ### Launch lines and relay cores -/

/-- R20, R290 to R295, R315: a write of byte 127 that reaches the device seals a line whose expected parity it has, and one to a line in the
host's cache does at the recall; RFETCH, BXTR, SWAITQ and DSPCH answer in rd, where x0 discards, or take mcause 24 with their RCAUSE. The
model's choice are mepc, mtval and mtvec's low bits cleared (log 26), a sealed line answered before a pending event, and what DSPCH answers
of a cooperative launch or beside a re-run (log 25). -/
def Obligations.RelayWords : Prop :=
  ∀ (s s1 : State) (i : Fin 8) (r : Relay) (rd a c : XReg) (line : Fin 512) (v : Byte) (num : Nat) (l : Launch),
    let L := s.lines[line]
    let ok (u : State) (w : Nat) (m : List Byte) (t : State) : Prop := t = { u with relays := t.relays, lines := t.lines, internal := t.internal }
      ∧ (∀ j, j ≠ i → t.relays[j] = u.relays[j]) ∧ ∃ r', t.relays[i] = r' ∧ r'.pc = r.pc + 4 ∧ r'.asleep = false ∧ r'.mb = m
      ∧ (∀ n, r'.gx n = if n = 0 then 0 else if n = rd then BitVec.ofNat 64 w else r.gx n)
      ∧ r' = { r with x := r'.x, pc := r'.pc, mb := r'.mb, mbError := r'.mbError, asleep := r'.asleep }
    let only (u : State) (w : Nat) (m : List Byte) (t : State) : Prop := ok u w m t ∧ t.lines = u.lines ∧ t.internal = u.internal
    let fails (ins : Instr) (code : Nat) := Completes ins s fun t => t = { s with relays := t.relays } ∧ (∀ j, j ≠ i → t.relays[j] = s.relays[j])
      ∧ ∃ r', t.relays[i] = r' ∧ r'.mcause = 24 ∧ r'.rcause = BitVec.ofNat 64 code ∧ r'.mepc = r.pc ∧ r'.pc = r.mtvec &&& ~~~ (3 : W64)
        ∧ r'.mtval = BitVec.ofNat 64 ((encodeRelay ins).getD 0) ∧ r'.x = r.x
    Completes (.sealWrite line v) s (fun t => t = { s with lines := t.lines } ∧ (∀ n, n ≠ line → t.lines[n] = s.lines[n])
        ∧ t.lines[line].bytes = L.bytes.set 127 v ∧ t.lines[line].hostOwned = false ∧ t.lines[line].parity = L.parity
        ∧ (L.bytes.length = 128 → t.lines[line].sealed = (L.sealed || v.getLsbD 7 == L.parity)))
      ∧ (L.hostOwned = true → L.written = true → Completes (.lineRecall line) s fun t => t = { s with lines := t.lines }
          ∧ (∀ n, n ≠ line → t.lines[n] = s.lines[n]) ∧ t.lines[line].hostOwned = false
          ∧ t.lines[line].sealed = (L.sealed || (L.bytes.getD 127 0).getLsbD 7 == L.parity))
      ∧ (RelayMoves s i r →
        (512 ≤ (r.gx a).toNat → fails (.rfetch rd a) 0x40)
        ∧ ((r.gx a).toNat = line.val → s.tableError = false →
          let acked (u : State) (st : Nat) (t : State) : Prop := t.lines[line].parity = !L.parity ∧ t.lines[line].sealed = false
            ∧ t.lines[line].bytes = L.bytes.set 126 (BitVec.ofNat 8 (L.parity.toNat * 128 + st % 128)) ∧ ∀ n, n ≠ line → t.lines[n] = u.lines[n]
          (L.sealed = false → Completes (.rfetch rd a) s (only s 1 r.mb))
            ∧ (L.sealed = true → (L.bytes.getD 127 0).toNat % 128 ≠ 0x35 → Completes (.rfetch rd a) s fun t => ok s 2 L.bytes t ∧ acked s 0x22 t)
            ∧ (L.sealed = true → (L.bytes.getD 127 0).toNat % 128 = 0x35 →
              (∀ st, fetchManifest s L.bytes = .ok s1 (.refused st) →
                  Completes (.rfetch rd a) s fun t => ok s1 (3 + st * 2 ^ 8) L.bytes t ∧ acked s1 st t)
              ∧ (fetchManifest s L.bytes = .ok s1 .full → Completes (.rfetch rd a) s (only s1 4 L.bytes))
              ∧ (fetchManifest s L.bytes = .ok s1 (.admitted num) →
                  Completes (.rfetch rd a) s fun t => ok s1 (num * 2 ^ 32) L.bytes t ∧ acked s1 0 t)))
        ∧ (let o := (r.gx a).toNat
          let n := (r.gx c).toNat
          (n = 0 ∨ 64 < n ∨ 1024 < o + n → fails (.bxtr rd a c) 0x41)
            ∧ (1 ≤ n → n ≤ 64 → o + n ≤ 1024 → r.mbError = false →
              Completes (.bxtr rd a c) s (only s (leNat r.mb / 2 ^ o % 2 ^ n) r.mb)))
        ∧ ((∀ n : Fin 512, (r.gx a).getLsbD (n.val / 8) = true → s.lines[n].sealed = false) →
          (s.internal = [] → Completes (.swaitq rd a) s fun t => t.relays[i] = { r with asleep := true } ∧ t = { s with relays := t.relays })
            ∧ (∀ ev rest, s.internal = ev :: rest → Completes (.swaitq rd a) s fun t =>
              ok s (2 ^ 63 + (Config.eventCode ev).toNat) r.mb t ∧ t.internal = rest))
        ∧ (L.sealed = true → (r.gx a).getLsbD (line.val / 8) = true →
          (∀ n : Fin 512, n < line → (r.gx a).getLsbD (n.val / 8) = true → s.lines[n].sealed = false) →
          Completes (.swaitq rd a) s fun t => only s line.val r.mb t)
        ∧ (let w := (r.gx c).toNat
          let k : BKey := { core := w % 256, slot := w / 2 ^ 8 % 4 }
          let blk := w / 2 ^ 32
          s.tableError = false → (s.liveLaunch (r.gx a).toNat = none → fails (.dspch rd a c) 0x43)
            ∧ (s.liveLaunch (r.gx a).toNat = some l →
              (k.core ∉ (s.ctx l.man.ctx).part ∨ l.man.gridSize ≤ blk → fails (.dspch rd a c) 0x42)
              ∧ (k.core ∈ (s.ctx l.man.ctx).part → blk < l.man.gridSize → w.testBit 10 = true →
                ((s.core k.core).staged ≠ none ∨ l.coop = true → Completes (.dspch rd a c) s (only s 1 r.mb))
                  ∧ ((s.core k.core).staged = none → l.coop = false → Completes (.dspch rd a c) s fun t => (t.relays[i]).gx rd = 0
                    ∧ (t.relays[i]).pc = r.pc + 4 ∧ (t.core k.core).staged = some (l.num, blk, k.slot)))
              ∧ (k.core ∈ (s.ctx l.man.ctx).part → blk < l.man.gridSize → w.testBit 10 = false → l.reruns = [] →
                (s.contextFree k l = false ∨ s.rerunOn k.core = true → Completes (.dspch rd a c) s (only s 1 r.mb))
                  ∧ (s.contextFree k l = true → s.rerunOn k.core = false →
                    let started (u t : State) : Prop := (t.relays[i]).gx rd = 0 ∧ (t.relays[i]).pc = r.pc + 4 ∧ t.blocks = u.blocks
                    let ps := coopPlaces s l k blk
                    (l.coop = false → placeBlock s l blk 0 k = .ok s1 () → Completes (.dspch rd a c) s (started s1))
                      ∧ (l.coop = true → (l.begun ≠ [] ∨ ps.length < l.man.gridSize → Completes (.dspch rd a c) s (only s 1 r.mb))
                        ∧ (l.begun = [] → l.man.gridSize ≤ ps.length → placeEach l.num s ps = .ok s1 () →
                          Completes (.dspch rd a c) s (started s1))))))))

/-! ### The host and the management controller -/

/-- R84, R85, R87, R92, R304, R311, R316, R317: what each host command at the head of its ring does and the STATUS it completes with; a
command whose zero bits are not zero, or with an OP that is none, is BADCMD; PART waits for blocks on the cores that leave. That the CTXSET
row completes an undefined OP, and that the reserved bits of a CTXSET value are ignored, is the model's choice (log 21), and so is that a
full Drover queue counts the running command (log 19). -/
def Obligations.HostCommands : Prop :=
  ∀ (s s1 : State) (port : Nat) (c : HostCmd), AtHead s port c →
    let v := BitVec.ofNat 64 (c.w 2)
    let x := s.ctx c.ctx
    let done (i : Instr) (u : State) (status : Nat) := Completes i s fun t => Answered u t port c status
    let row (i : Instr) (op : Nat) (masks : List Nat) : Prop := c.op = op → c.clean masks = false → done i s 3
    let put (y : Ctx) (pins : List Pin) := Completes (.ctxset port) s fun t => ∃ u, Answered u t port c 0
      ∧ u = { s with ctxs := u.ctxs, pins := pins } ∧ u.ctx c.ctx = y ∧ ∀ n, n ≠ c.ctx → u.ctx n = s.ctx n
    let set (y : Ctx) := put y s.pins
    let others := s.pins.filter fun z => z.ctx ≠ c.ctx
    let busyB : Prop := ∃ z ∈ s.die0.bind ++ s.die1.bind, z.ctx = c.ctx
    let d := s.die (c.w 5)
    let core := c.w 1
    row (.ctxset port) 1 [ones 64, ones 64] ∧ row (.part port) 2 [ones 64, ones 64, ones 64] ∧ row (.cancel port) 3 [ones 3, ones 64]
      ∧ row (.inval port) 4 [ones 34 - 3 * 2 ^ 30, ones 64] ∧ row (.drover port) 6 [ones 64, ones 64, ones 64, ones 64, 1]
      ∧ row (.hostHinv port) 7 [ones 64] ∧ row (.pinwin port) 8 [ones 8, ones 64]
      ∧ (c.op = 0 ∨ 8 < c.op → done (.ctxset port) s 3)
      ∧ (c.op = 1 → c.clean [ones 64, ones 64] = true →
        (c.w 1 = 0 → put { x with htb := v &&& 0x00FFFFFFFFFFF000, hcache := [] } others)
        ∧ (c.w 1 = 1 → put { x with htn := v &&& 0x1FFFFF, hcache := [] } others)
        ∧ (c.w 1 = 2 → s1 = settleCtx s c.ctx → s1.ctxBusy c.ctx = false → s1.ctxHeld c.ctx none = false →
            Completes (.ctxset port) s fun t => ∃ u, Answered u t port c 0 ∧ u = { s1 with ctxs := u.ctxs, tlb := u.tlb }
              ∧ u.ctx c.ctx = { s1.ctx c.ctx with xroot := v } ∧ ∀ n, n ≠ c.ctx → u.ctx n = s1.ctx n)
        ∧ (c.w 1 = 3 → (s.ctxOccupied c.ctx = true ∨ s.ctxEngines c.ctx = true → done (.ctxset port) s 1)
          ∧ (s.ctxOccupied c.ctx = false → s.ctxEngines c.ctx = false → set { x with hroot := v &&& 0xF3FFFFFFFFFFFFFF }))
        ∧ (c.w 1 = 4 → (busyB → done (.ctxset port) s 1) ∧ (¬ busyB → set { x with bqb := v &&& 0x00FFFFFFFFFFF000 }))
        ∧ (c.w 1 = 5 → (busyB → done (.ctxset port) s 1) ∧ (¬ busyB → set { x with bqn := v &&& 0x1FFF }))
        ∧ (c.w 1 = 6 → set { x with cfqb := v &&& 0x00FFFFFFFFFFF00F })
        ∧ (c.w 1 = 7 → (c.w 2 < 2 ^ 32 → set { x with cfqh := v.setWidth 32 }) ∧ (2 ^ 32 ≤ c.w 2 → done (.ctxset port) s 3))
        ∧ (7 < c.w 1 → done (.ctxset port) s 3))
      ∧ (c.op = 2 → c.clean [ones 64, ones 64, ones 64] = true →
        ((∃ n ∈ c.cores, s.coreCount ≤ n) → done (.part port) s 3)
        ∧ ((∀ n ∈ c.cores, n < s.coreCount) → (∀ n ∈ x.part ++ x.leaving, n ∈ c.cores) → (∀ p ∈ s.blocks, s.ctxNumOf p.2 ≠ c.ctx) →
            Completes (.part port) s fun t => ∃ u, Answered u t port c 0 ∧ u.ctx c.ctx = { x with part := c.cores, leaving := [] }
              ∧ u.blocks = s.blocks ∧ u.mem = s.mem)
        ∧ (∀ k b, (∀ n ∈ c.cores, n < s.coreCount) → (k, b) ∈ s.blocks → s.ctxNumOf b = c.ctx → k.core ∈ x.part → k.core ∉ c.cores →
            Completes (.part port) s fun t => t.mem = s.mem ∧ t.blocks = s.blocks ∧ t.internal = s.internal ∧ t.port0 = s.port0
              ∧ t.port1 = s.port1 ∧ (t.ctx c.ctx).part = c.cores ∧ k.core ∈ (t.ctx c.ctx).leaving))
      ∧ (c.op = 3 → c.clean [ones 3, ones 64] = true →
        let width : Nat := if c.w 1 = 2 then 48 else if c.w 1 = 4 then 16 else 32
        (c.w 1 < 1 ∨ 4 < c.w 1 ∨ 2 ^ width ≤ c.w 2 → done (.cancel port) s 3)
        ∧ (1 ≤ c.w 1 → c.w 1 ≤ 4 → c.w 2 < 2 ^ width → (cancelLevel s c.ctx (c.w 1) v = none → done (.cancel port) s 2)
          ∧ (cancelLevel s c.ctx (c.w 1) v = some s1 → done (.cancel port) s1 0)
          ∧ (c.w 1 = 1 → ∀ l, s.launch? (c.w 2) = some l → l.over = false → Completes (.cancel port) s fun t => ∃ u, Answered u t port c 0
            ∧ u.launch? (c.w 2) = some { l with status := 0x24, reruns := [] }
            ∧ ∀ k b, s.block? k = some b → u.block? k = some (if b.launch = l.num then { b with cancelled := true } else b))))
      ∧ (c.op = 4 → c.clean [ones 34 - 3 * 2 ^ 30, ones 64] = true →
        ((c.w 1).testBit 33 = false → c.w 2 ≠ 0 → done (.inval port) s 3)
        ∧ ((c.w 1).testBit 33 = true ∨ c.w 2 = 0 →
          let vmid := fld 16 14 (c.w 1)
          let asid := fld 0 16 (c.w 1)
          let all := (c.w 1).testBit 32
          let hit := (s.ctxs.filter fun p => p.2.matches_ vmid asid all).map fun p => p.1
          s1 = hit.foldl settleCtx s → (∀ n ∈ hit, s1.ctxBusy n = false ∧ s1.ctxHeld n none = false) → Completes (.inval port) s fun t => ∃ u,
            Answered u t port c 0 ∧ u = { s1 with tlb := u.tlb } ∧ ∀ y, y ∈ u.tlb ↔ y ∈ s1.tlb
              ∧ ¬ (y.vmid = vmid ∧ (all = true ∨ y.asid = asid) ∧ ((c.w 1).testBit 33 = false
                ∨ (y.va < c.w 2 / 4096 * 4096 + 4096 ∧ c.w 2 / 4096 * 4096 < y.va + y.size)))))
      ∧ (c.op = 6 → c.clean [ones 64, ones 64, ones 64, ones 64, 1] = true → (d.droverFull (fld 16 16 (c.w 1)) = true → done (.drover port) s 4)
        ∧ (d.droverFull (fld 16 16 (c.w 1)) = false → Completes (.drover port) s fun t => ∃ u z, Answered u t port c 0
          ∧ (u.die (c.w 5)).dqueue = d.dqueue ++ [z] ∧ z.op = fld 0 16 (c.w 1) ∧ z.ctx = fld 16 16 (c.w 1) ∧ z.src.toNat = c.w 2 % 2 ^ 64
          ∧ z.dst.toNat = c.w 3 % 2 ^ 64 ∧ z.recd.toNat = c.w 4 % 2 ^ 64 ∧ u.mem = s.mem))
      ∧ (c.op = 7 → c.clean [ones 64] = true → Completes (.hostHinv port) s fun t => ∃ u, Answered u t port c 0
        ∧ u = { s with ctxs := u.ctxs, pins := u.pins } ∧ (∀ n, n ≠ c.ctx → u.ctx n = s.ctx n)
        ∧ (∀ z, z ∈ (u.ctx c.ctx).hcache ↔ z ∈ x.hcache ∧ (c.w 1).testBit 63 = false ∧ z.2.1 ≠ fld 0 20 (c.w 1))
        ∧ ∀ z, z ∈ u.pins ↔ z ∈ s.pins ∧ ¬ (z.ctx = c.ctx ∧ ((c.w 1).testBit 63 = true ∨ z.handle = fld 0 20 (c.w 1))))
      ∧ (c.op = 8 → c.clean [ones 8, ones 64] = true →
        let bad : Prop := 786432 < c.w 2 ∨ c.w 2 % 512 ≠ 0 ∨ core ∉ x.part
        (bad → done (.pinwin port) s 3) ∧ (¬ bad → (s.coreOccupied core = true → done (.pinwin port) s 1)
          ∧ (s.coreOccupied core = false → done (.pinwin port) (s.setCore core { s.core core with win := c.w 2 }) 0)))

/-- R100, R312 to R316, R318, R330: FREPLY is performed ahead of the commands before it and answers one waiting entry; host reads and writes
reach the HBM of the port's die and the launch window, and never a waymark or a quarantined bale; HFQH frees the ring; the relay core that
an error halts freezes its queues until it is reloaded, and a poisoned queue ends its launches with STATUS ECC. -/
def Obligations.HostAccesses : Prop :=
  ∀ (s : State) (port pa n : Nat) (bytes : List Byte) (c : HostCmd) (p : HvPost) (v : W32) (i : Fin 8) (q : Queue),
    port < 2 → (s.port port).down = false →
    (s.firstReply port (s.port port).pending = some c →
      (c.clean [ones 64, 1] = false → Completes (.freply port) s fun t => Answered s t port c 3)
      ∧ (c.clean [ones 64, 1] = true →
        let waiting := s.hvPosts.find? fun p => p.tag = BitVec.ofNat 64 (c.w 1) && p.posted && !p.declined && !p.served
        (waiting = none → Completes (.freply port) s fun t => Answered s t port c 2)
        ∧ (waiting = some p → c.w 2 = 0 → Completes (.freply port) s fun t => ∃ u, Answered u t port c 0 ∧ u = { s with hvPosts := u.hvPosts }
          ∧ (∀ y ∈ s.hvPosts, y ≠ p → y ∈ u.hvPosts) ∧ (p ∈ u.hvPosts → p = { p with served := true })
          ∧ ∀ y ∈ u.hvPosts, y ∈ s.hvPosts ∨ y = { p with served := true })
        ∧ (waiting = some p → c.w 2 = 1 → Completes (.freply port) s fun t => ∃ u, Answered u t port c 0 ∧ u = { s with hvPosts := u.hvPosts }
          ∧ { p with declined := true } ∈ u.hvPosts ∧ ∀ y, y ∈ s.hvPosts → y ≠ p → y ∈ u.hvPosts)))
    ∧ (let readable (a : Nat) : Prop := s.hdm port a = true ∧ s.markAt a = none ∧ s.quarantinedAt a = false
      Completes (.hostMemRead port pa n) s (fun t => t.hostRead.length = n
        ∧ t = { s with hostRead := t.hostRead, lines := t.lines, mgc := { s.mgc with log := t.mgc.log, errors := t.mgc.errors } }
        ∧ ((∀ j, j < n → s.eccAt (pa + j) = false) → t.mgc = s.mgc)
        ∧ ∀ j, j < n → (windowLine port (pa + j) = none → (readable (pa + j) → s.eccAt (pa + j) = false →
              t.hostRead[j]? = some (some (s.mem.read (pa + j))))
            ∧ (¬ readable (pa + j) ∨ s.eccAt (pa + j) = true → t.hostRead[j]? = some none))
          ∧ ∀ m, windowLine port (pa + j) = some m → t.hostRead[j]? = some (some (s.lines[m].bytes.getD ((pa + j) % 128) 0))
            ∧ t.lines[m].hostOwned = true)
      ∧ Completes (.hostMemWrite port pa bytes) s fun t => t.blocks = s.blocks ∧ (∀ j, j < bytes.length →
            (windowLine port (pa + j) = none → readable (pa + j) → t.mem.read (pa + j) = bytes.getD j 0)
            ∧ (windowLine port (pa + j) ≠ none ∨ ¬ readable (pa + j) → t.mem.read (pa + j) = s.mem.read (pa + j)))
          ∧ SameBytesBut s t ((List.range bytes.length).map (pa + ·)) ∧ t.relays = s.relays
          ∧ (∀ j m, j < bytes.length → windowLine port (pa + j) = some m → t.lines[m].hostOwned = true ∧ t.lines[m].sealed = s.lines[m].sealed
            ∧ t.lines[m].parity = s.lines[m].parity
            ∧ (s.lines[m].bytes.length = 128 → t.lines[m].bytes.getD ((pa + j) % 128) 0 = bytes.getD j 0))
          ∧ ∀ m : Fin 512, (∀ j, j < bytes.length → windowLine port (pa + j) ≠ some m) → t.lines[m] = s.lines[m])
    ∧ ((∀ x ∈ s.hvPosts, x.posted = true ∨ x.port ≠ port) → Completes (.hfqh port v) s fun t =>
        t = { s with port0 := t.port0, port1 := t.port1 } ∧ t.port port = { s.port port with hfqh := v })
    ∧ (Completes (.relayEccHalt i.val) s (fun t => t.relays[i] = { s.relays[i] with halted := true } ∧ (∀ j, j ≠ i → t.relays[j] = s.relays[j])
          ∧ (∀ x ∈ t.queues, x.owner = i.val → x.frozen = true) ∧ t.blocks = s.blocks ∧ t.mem = s.mem)
      ∧ (s.relays[i].halted = true → (∀ l ∈ s.launches, s.launchFrozen l = false) → Completes (.relayCoreReload i.val) s fun t =>
          t.relays[i].halted = false ∧ t.relays[i].imem = s.relays[i].imem ∧ (∀ x ∈ t.queues, x.owner = i.val → x.frozen = false)
          ∧ t.blocks = s.blocks ∧ t.mem = s.mem)
      ∧ ((s.queues.find? fun x => x.qid = q.qid) = some q → s.graphs = [] → Completes (.queuePoison q.qid) s fun t => t.mem = s.mem
          ∧ (∀ x ∈ t.queues, x.qid = q.qid → x.poisoned = true)
          ∧ ∀ m ∈ q.launches, ∀ l, s.launch? m = some l → l.over = false → ∃ l', t.launch? m = some l' ∧ l'.status = 0x25 ∧ l'.reruns = []))

/-- R202, R325, R326, R327, R328: what each mailbox command answers; zero bits that are not zero, and an OP that is none, answer 2; a
refused command answers 1 and changes nothing; MONREAD with clear empties the channel in the same step; RESYNC writes the summary to the
host's memory. The model's choice are LOGREAD's entry layout, the order of ATTEST's report, RESYNC's layout and the log kinds (log 24), and
what SETPARAM, MONCFG and MONREAD refuse (log 22). -/
def Obligations.MailboxCommands : Prop :=
  (∀ (s : State) (port : Nat), port < 2 → (s.port port).down = false → (s.port port).mbox.readLE 0xFF8 8 = 1 → fld 8 56 ((s.port port).mailW 0) ≠ 0 →
      let bad (i : Instr) (op : Nat) : Prop := (s.port port).mailOp = op → Completes i s fun t => Responded s t port 2 []
      bad (.sense port) 1 ∧ bad (.logread port) 2 ∧ bad (.update port) 3 ∧ bad (.attest port) 4 ∧ bad (.setparam port) 5 ∧ bad (.moncfg port) 6
        ∧ bad (.monread port) 7 ∧ bad (.resync port) 8 ∧ bad (.testinj port) 9)
  ∧ ∀ (s : State) (port op : Nat), Mailed s port op →
    let p := s.port port
    let w := p.mailW
    let answers (i : Instr) (u : State) (status : Nat) (data : List Byte) := Completes i s fun t => Responded u t port status data
    let refused (i : Instr) := answers i s 1 []
    let log (u t : State) (kind value : Nat) : Prop := ∃ e, t.mgc.log.getLast? = some e ∧ e.kind = kind ∧ e.value = value ∧ e.time = u.dtime
    let m := (s.die (w 1)).monitors.getD (w 2) Monitor.zero
    (op = 0 ∨ 9 < op → answers (.sense port) s 2 [])
      ∧ (op = 1 → answers (.sense port) s 0 (s.mgc.sensors.flatMap fun v => leBytes 4 v))
      ∧ (op = 2 → answers (.logread port) s 0 (((s.mgc.log.drop (w 1)).take 60).flatMap LogEntry.bytes))
      ∧ (op = 3 → let image := imageNumber (s.mem.readN (hostPA (w 1)) (w 2))
        let version := (Config.imageVersion image).toNat
        (Config.imageVerifies image = false ∨ version < s.mgc.rollback → refused (.update port))
          ∧ (Config.imageVerifies image = true → s.mgc.rollback ≤ version → Completes (.update port) s fun t => ∃ u, Responded u t port 0 []
            ∧ u.mem = s.mem ∧ log s u logUpdate version
            ∧ (s.mgc.booted = 0 → u.mgc = { s.mgc with bankB := (version, true), imageB := s.mem.readN (hostPA (w 1)) (w 2), log := u.mgc.log })
            ∧ (s.mgc.booted ≠ 0 → u.mgc = { s.mgc with bankA := (version, true), imageA := s.mem.readN (hostPA (w 1)) (w 2), log := u.mgc.log })))
      ∧ (op = 4 → Completes (.attest port) s fun t => ∃ u data, Responded u t port 0 data ∧ data.take 32 = p.mbox.readN 8 32
          ∧ (data.drop 32).take 96 = digest s.mgc.imageA ++ digest s.mgc.imageB ++ digest s.relayImage ∧ u.blocks = s.blocks
          ∧ (data.drop 128).take (8 * s.mgc.params.length) = (s.mgc.params.set 6 s.mgc.testMode.toNat).flatMap (fun v => leBytes 8 v) ∧ u.mem = s.mem)
      ∧ (op = 5 → (paramRange (w 1) = none → refused (.setparam port)) ∧ ∀ lo hi, paramRange (w 1) = some (lo, hi) →
          (w 2 < lo ∨ hi < w 2 → refused (.setparam port))
          ∧ (lo ≤ w 2 → w 2 ≤ hi → Completes (.setparam port) s fun t => ∃ u, Responded u t port 0 []
            ∧ u.mgc.params = s.mgc.params.set (w 1) (w 2) ∧ log s u logParam (w 1) ∧ u = { s with mgc := u.mgc }))
      ∧ (op = 6 → let bad : Prop := 2 ≤ w 1 ∨ 8 ≤ w 2 ∨ w 3 < 1 ∨ 9 < w 3 ∨ 15 < w 4
        (bad → refused (.moncfg port)) ∧ (¬ bad → Completes (.moncfg port) s fun t => ∃ u, Responded u t port 0 []
          ∧ (u.die (w 1)).monitors = (s.die (w 1)).monitors.set (w 2) { Monitor.zero with
            source := w 3
            shift := w 4 }))
      ∧ (op = 7 → (2 ≤ w 1 ∨ 8 ≤ w 2 → refused (.monread port)) ∧ (w 1 < 2 → w 2 < 8 → Completes (.monread port) s fun t => ∃ u,
          Responded u t port 0 (leBytes 4 m.min ++ leBytes 4 m.max ++ leBytes 8 m.count ++ m.bins.flatMap fun v => leBytes 4 v)
          ∧ ((w 3).testBit 0 = false → u = s) ∧ ((w 3).testBit 0 = true → (u.die (w 1)).monitors = (s.die (w 1)).monitors.set (w 2)
            { Monitor.zero with
              source := m.source
              shift := m.shift })))
      ∧ (op = 8 → Completes (.resync port) s fun t => ∃ u, Responded u t port 0 [] ∧ u = { s with mem := u.mem }
          ∧ u.mem.readN (hostPA (w 1)) (summary s).length = summary s
          ∧ SameBytesBut s u ((List.range (summary s).length).map (hostPA (w 1) + ·)))
      ∧ (op = 9 → let limit : Nat := if w 3 = 0 then 1572864 else 524288
        let bad : Prop := s.mgc.testMode = false ∨ 2 ≤ w 1 ∨ s.coreCount ≤ w 2 ∨ s.dieOf (w 2) ≠ w 1 ∨ 2 ≤ w 3 ∨ limit ≤ w 4
        (bad → refused (.testinj port)) ∧ (¬ bad → Completes (.testinj port) s fun t => ∃ u, Responded u t port 0 []
          ∧ u = { s with cores := u.cores } ∧ (w 3, w 4 / 128) ∈ (u.core (w 2)).armed
          ∧ ∀ x, x ≠ (w 3, w 4 / 128) → (x ∈ (u.core (w 2)).armed ↔ x ∈ (s.core (w 2)).armed)))

/-- R18, R319 to R325, R329, R330: sensors, the two clocks, the thermal halt, the locking and loss of device time, package reset, links and
devices that are lost, the scrubber, and the domain's bring-up. The model's choice are the numbers of the error counters (log 24), the slew
owed and the one step at the first lock (log 22), and what package reset clears of the state without a reset value (log 6). -/
def Obligations.PackageEvents : Prop :=
  ∀ (s : State) (readings members : List Nat) (offset : Int) (down : Bool) (p : Fin 8) (dev size : Nat),
    let mgc (t : State) : Prop := t = { s with mgc := t.mgc, slowClock := t.slowClock }
    Completes (.sensorRead readings) s (fun t => mgc t ∧ t.mgc = { s.mgc with sensors := readings.map fun v => v % 2 ^ 32 })
      ∧ Completes .thermalTrip s (fun t => mgc t ∧ t.slowClock = true ∧ t.mgc.log ≠ [])
      ∧ Completes .tripClear s (fun t => mgc t ∧ t.slowClock = false)
      ∧ Completes .thermalHalt s (fun t => t.halted = true ∧ t.port0.down = true ∧ t.port1.down = true ∧ t.mem = s.mem ∧ t.blocks = s.blocks)
      ∧ Completes (.ptpSync offset) s (fun t => t.dstate = 1 ∧ t.lockedOnce = true
          ∧ (let steps : Prop := s.lockedOnce = false ∧ 1000000 < offset ∧ s.launches = [] ∧ s.graphs = []
            (steps → (t.dtime : Int) = (s.dtime + offset) % 2 ^ 64 ∧ t.slewOwed = 0) ∧ (¬ steps → t.dtime = s.dtime ∧ t.slewOwed = offset))
          ∧ t.lastSync = t.dtime ∧ t.blocks = s.blocks ∧ t.mem = s.mem)
      ∧ (s.dstate = 1 → (down = true ∨ s.lastSync + 10000000000 ≤ s.dtime) → Completes (.holdover down) s fun t => t.dstate = 2
          ∧ t.dtime = s.dtime ∧ t.slewOwed = 0 ∧ t.mem = s.mem)
      ∧ Completes .packageReset s (fun t => t.blocks = [] ∧ t.launches = [] ∧ t.graphs = [] ∧ t.queues = [] ∧ t.saved = [] ∧ t.ctxs = State.reset.ctxs
          ∧ t.cores = State.reset.cores ∧ t.die0 = State.reset.die0 ∧ t.die1 = State.reset.die1 ∧ t.lines = State.reset.lines
          ∧ t.dtime = State.reset.dtime ∧ t.dstate = State.reset.dstate ∧ t.halted = false
          ∧ (let a := s.mgc.bankA
            let b := s.mgc.bankB
            let useB : Prop := b.2 = true ∧ (a.2 = false ∨ a.1 < b.1)
            (useB → t.mgc.booted = 1 ∧ t.mgc.rollback = max s.mgc.rollback b.1)
              ∧ (¬ useB → t.mgc.booted = 0 ∧ t.mgc.rollback = max s.mgc.rollback a.1))
          ∧ (t.mgc.testMode = true ↔ s.mgc.params.getD 6 0 = 1))
      ∧ Completes (.surpriseLinkLoss p.val) s (fun t => t = { s with linkLost := t.linkLost } ∧ t.linkLost[p] = true
          ∧ ∀ q, q ≠ p → t.linkLost[q] = s.linkLost[q])
      ∧ Completes (.deviceUnreachable dev) s (fun t => t = { s with remotes := t.remotes } ∧ ∀ r ∈ t.remotes, r.id = dev → r.reachable = false)
      ∧ Completes .patrolScrub s (fun t => t = { s with mgc := t.mgc, freeCount := t.freeCount } ∧ (1 < s.mgc.errors.length →
          t.mgc.errors.getD 0 0 = s.mgc.errors.getD 0 0 + Config.corrected s.freeCount
            ∧ t.mgc.errors.getD 1 0 = s.mgc.errors.getD 1 0 + s.eccLines.countP fun l => s.spaceOf (128 * l) = some 0))
      ∧ (size ≤ 2304 → members.eraseDups.length = size → dev ∈ members → (∀ m ∈ members, m < 4096) → Completes (.domainBringUp dev size members) s fun t => t = { s with devid := t.devid, domain := size, remotes := t.remotes }
          ∧ t.devid = BitVec.ofNat 12 dev ∧ (∀ r ∈ t.remotes, r.reachable = true ∧ r.id ∈ members ∧ r.id ≠ dev)
          ∧ ∀ m ∈ members, m ≠ dev → ∃ r ∈ t.remotes, r.id = m)

/-! ### The machine as a whole -/

/-- R76, R86, R88, R202, R248, R266, R290, R294, R314, R322, R323, R326: what package reset leaves in the registers that the spec gives reset
values, and that the reset memory is in canonical form. That all bytes of a launch line are 0 is the model's choice (logs 5, 6). -/
def Obligations.ResetState : Prop :=
  let s := State.reset
  let default : List Nat := [1, 1000000, 10000000, 100000, 20000, 0, 0]
  MemoryWf s ∧ s.blocks = [] ∧ s.launches = [] ∧ s.graphs = [] ∧ s.dtime = 0 ∧ s.dstate = 0 ∧ s.devid = 0 ∧ s.mgc.params = default
    ∧ (∀ n, let c := s.ctx n
      c.htb = 0 ∧ c.htn = 0 ∧ c.xroot = 0 ∧ c.hroot = 0 ∧ c.bqb = 0 ∧ c.bqn = 0 ∧ c.cfqb = 0 ∧ c.cfqh = 0 ∧ c.part = [])
    ∧ (∀ n, (s.core n).win = 0 ∧ (s.core n).staged = none) ∧ (∀ k (n : BReg), (s.barSet k)[n.val] = Barrier.zero)
    ∧ (∀ n : Fin 512, s.lines[n].parity = false ∧ s.lines[n].sealed = false ∧ s.lines[n].bytes = List.replicate 128 0)
    ∧ (∀ i : Fin 8, s.relays[i].rcause = 0)
    ∧ (∀ d, let x := s.die d
      x.slots = List.replicate 64 (false, 0) ∧ x.link = [] ∧ x.bind = [] ∧ x.dir = [] ∧ x.dqueue = []
        ∧ ∀ n, n < 8 → (s.codeClass d n).active = 0 ∧ (s.codeClass d n).slots[0]? = some (List.replicate 256 8))
    ∧ ∀ p, (s.port p).hcrb = 0 ∧ (s.port p).hcrt = 0 ∧ (s.port p).hcrh = 0 ∧ (s.port p).hfqb = 0 ∧ (s.port p).hfqt = 0 ∧ (s.port p).hfqh = 0

/-- R52, R53, R101, R102, R120, R143, R163 to R166: a step of a block context whose eight bytes at its PC decode to an instruction runs that
instruction, when nothing it names is still to be written, no older instruction waits, and its writes have slots; one that names an unbound tile
does not wait for the others. An access that waits for the hypervisor goes aside, or the step goes to another agent, and postings that have been
served are dropped. A block that a debugger holds stopped does not move (R342). A relay core's step runs the word at its pc, and a turn of the
schedule a step of the device. The schedule, and that a block's queued accesses are performed before it goes back in its code, are the model's
choice (log 1). -/
def Obligations.StepRunsDecoded : Prop :=
  ∀ (s s1 s2 s3 : State) (k : BKey) (b b2 : Block) (bs : List Byte) (i : Instr) (r : Fin 8) (ts : List Turn),
    (s.halted = false → k ∉ s.stopped → s.block? k = some b → b.ended = none → b.held = [] → b.superseded = [] → b.readers = [] →
      b.acceptedPart.any b.partRuns = false → s.divertDue b = false → s.overrunDue b = false → b.sleep = none → bs.length = 8 →
      decodeBytes bs = .ok (i, []) → s.active = .block k → fetchWord s k b b.pc.toNat = .ok s1 (leNat bs) →
      settleWhere s1 k (fun e => hazard k i e || loadsTile k i e || (Instr.arrives i && barWaits e)) = s2 →
      s2.block? k = some b2 → b2.ended = none → s2.pending k (hazard k i) = false → (b2.sys = none → s2.issueStalls k b2 i = false) →
      (b2.sys = none → b2.mustWait k i = true → ∃ t ∈ Instr.tilesOf i k, b2.gt t = none) →
      (if i.binds then s3 = s2
        else b2.expandFits (s2.core k.core).win b2 (Instr.tilesOf i k) = true ∧ freshSlots k i.tileDests s2 = some s3) →
      let next (u : State) : State := u.dropServed k
      let loops (u : State) : State := if s.loopsBack (next u) then (firstEvent s (queueEvents s)).getD (next u) else next u
      (s.schedule = [] → (∀ t, exec i s3 = .next t →
          (moved k b (.next t) = true → step s = .next (loops t))
            ∧ (moved k b (.next t) = false → ∀ v, (awaitReply k b2 i t = (true, .next v) → step s = .next (loops v))
              ∧ (awaitReply k b2 i t = (false, .next v) → step s = idle v)))
        ∧ ((∀ t, exec i s3 ≠ .next t) → step s = exec i s3))
      ∧ ∀ u : State, u.schedule = .agent (.block k) :: ts → s = { u with schedule := ts, active := .block k } →
        (∀ t, exec i s3 = .next t →
          (moved k b (.next t) = true → step u = .next (next t))
            ∧ (moved k b (.next t) = false → ∀ v, (awaitReply k b2 i t = (true, .next v) → step u = .next (next v))
              ∧ (awaitReply k b2 i t = (false, .next v) → step u = .next v)))
          ∧ ((∀ t, exec i s3 ≠ .next t) → step u = exec i s3))
    ∧ (s.halted = false → s.relays[r].halted = false → decodeRelay (s.relays[r].imem.readLE s.relays[r].pc.toNat 4) = .ok i →
      s.active = .relay r.val → ∀ u : State, u.schedule = .agent (.relay r.val) :: ts → s = { u with schedule := ts, active := .relay r.val } →
        step u = exec i s)
    ∧ (s.halted = false → Instr.isEvent i = true → (∀ c, Instr.ofBlock i = some c → c ∉ s.stopped) → s.schedule = .event i :: ts →
      step s = exec i { s with schedule := ts })
    ∧ (k ∈ s.stopped → s.schedule = .agent (.block k) :: ts → step s = .next { s with schedule := ts, active := .block k })

/-- R47, R55: words that the spec writes out decode to the instructions it gives them; the all-zero word is none. -/
def Obligations.DecodeSanity : Prop :=
  decodeTile 0x0210000000000000 = .ok .nop ∧ (∀ i, decodeTile 0 ≠ .ok i)
    ∧ decodeTile 0x0200000000000003 = .ok (.trap 3)
    ∧ decodeTile 0x0410000000000000 = .ok .savectx
    ∧ decodeTile 0x2420840000000008 = .ok (.refaddImm 1 1 8)
    ∧ decodeTile 0x26331A8000000000 = .ok (.ldD 6 3 (.acq .cl) 0)
    ∧ decodeTile 0x8A20C50000000040 = .ok (.tacq 3 5 .fp32 .rne true none)
    ∧ decodeTile 0xA800C00084000800 = .ok (.map 3 0 (.i2 1 2) none)
    ∧ decodeTile 0x700044A000000000 = .ok (.tld 1 1 5 false .weak 0)
    ∧ decodeTile 0xE0118B4200000000 = .ok (.atomD .add 3 1 1 (.strong .dev) 0)
    ∧ decodeTile 0xF252304000000000 = .ok (.mkfree 4 6 8 0 .weak)
    ∧ decodeRelay 0x00C5950B = .ok (.bxtr 10 11 12)
    ∧ decodeLane 0x1100C200 = .ok (.lfma .fp32 .rne false .x (.q 0) (.k 0) .x)

/-- R31 to R49, R293: no bit of an encoding is dropped: the word of every well-formed instruction decodes to it, with every operand at every
value. -/
def Obligations.EncodeDecode : Prop :=
  ∀ i, Laws.RoundTrip.Statement i

/-- R47 to R49, R53, R231 to R235: a lane-function word and the bits it is encoded in determine each other. -/
def Obligations.LaneEncodeDecode : Prop :=
  (∀ w : LaneWord, decodeLane (encodeLane w) = .ok w ∨ ∀ n, decodeLane n ≠ .ok w) ∧ ∀ (n : Nat) (w : LaneWord), n < 2 ^ 32 → decodeLane n = .ok w →
    encodeLane w = n

/-- R3, R5 (the form of memory is the model's): every step keeps the memory in its canonical form, so equal memories are equal data. -/
def Obligations.MemoryInvariant : Prop :=
  ∀ s t : State, MemoryWf s → step s = .next t → MemoryWf t
end

