-- ==== Sys2Proof/Laws/State.lean ====
section
/-! SUPPORT. One lemma per field per update of the state and of a block: what each named update leaves unchanged, and what it
writes. -/

namespace Sys2Proof.Machine

/-! ### State.setBlock -/

@[simp] theorem State.setBlock_mem (s : State) (k : BKey) (b : Block) : (s.setBlock k b).mem = s.mem := rfl
@[simp] theorem State.setBlock_marks (s : State) (k : BKey) (b : Block) : (s.setBlock k b).marks = s.marks := rfl
@[simp] theorem State.setBlock_eccLines (s : State) (k : BKey) (b : Block) : (s.setBlock k b).eccLines = s.eccLines := rfl
@[simp] theorem State.setBlock_coded (s : State) (k : BKey) (b : Block) : (s.setBlock k b).coded = s.coded := rfl
@[simp] theorem State.setBlock_tlb (s : State) (k : BKey) (b : Block) : (s.setBlock k b).tlb = s.tlb := rfl
@[simp] theorem State.setBlock_pins (s : State) (k : BKey) (b : Block) : (s.setBlock k b).pins = s.pins := rfl
@[simp] theorem State.setBlock_late (s : State) (k : BKey) (b : Block) : (s.setBlock k b).late = s.late := rfl
@[simp] theorem State.setBlock_ctxs (s : State) (k : BKey) (b : Block) : (s.setBlock k b).ctxs = s.ctxs := rfl
@[simp] theorem State.setBlock_cores (s : State) (k : BKey) (b : Block) : (s.setBlock k b).cores = s.cores := rfl
@[simp] theorem State.setBlock_savea (s : State) (k : BKey) (b : Block) : (s.setBlock k b).savea = s.savea := rfl
@[simp] theorem State.setBlock_bars (s : State) (k : BKey) (b : Block) : (s.setBlock k b).bars = s.bars := rfl
@[simp] theorem State.setBlock_barOwner (s : State) (k : BKey) (b : Block) : (s.setBlock k b).barOwner = s.barOwner := rfl
@[simp] theorem State.setBlock_die0 (s : State) (k : BKey) (b : Block) : (s.setBlock k b).die0 = s.die0 := rfl
@[simp] theorem State.setBlock_die1 (s : State) (k : BKey) (b : Block) : (s.setBlock k b).die1 = s.die1 := rfl
@[simp] theorem State.setBlock_lines (s : State) (k : BKey) (b : Block) : (s.setBlock k b).lines = s.lines := rfl
@[simp] theorem State.setBlock_relays (s : State) (k : BKey) (b : Block) : (s.setBlock k b).relays = s.relays := rfl
@[simp] theorem State.setBlock_launches (s : State) (k : BKey) (b : Block) : (s.setBlock k b).launches = s.launches := rfl
@[simp] theorem State.setBlock_tableError (s : State) (k : BKey) (b : Block) : (s.setBlock k b).tableError = s.tableError := rfl
@[simp] theorem State.setBlock_queues (s : State) (k : BKey) (b : Block) : (s.setBlock k b).queues = s.queues := rfl
@[simp] theorem State.setBlock_graphs (s : State) (k : BKey) (b : Block) : (s.setBlock k b).graphs = s.graphs := rfl
@[simp] theorem State.setBlock_saved (s : State) (k : BKey) (b : Block) : (s.setBlock k b).saved = s.saved := rfl
@[simp] theorem State.setBlock_estimates (s : State) (k : BKey) (b : Block) : (s.setBlock k b).estimates = s.estimates := rfl
@[simp] theorem State.setBlock_rescues (s : State) (k : BKey) (b : Block) : (s.setBlock k b).rescues = s.rescues := rfl
@[simp] theorem State.setBlock_rescued (s : State) (k : BKey) (b : Block) : (s.setBlock k b).rescued = s.rescued := rfl
@[simp] theorem State.setBlock_internal (s : State) (k : BKey) (b : Block) : (s.setBlock k b).internal = s.internal := rfl
@[simp] theorem State.setBlock_port0 (s : State) (k : BKey) (b : Block) : (s.setBlock k b).port0 = s.port0 := rfl
@[simp] theorem State.setBlock_port1 (s : State) (k : BKey) (b : Block) : (s.setBlock k b).port1 = s.port1 := rfl
@[simp] theorem State.setBlock_hvPosts (s : State) (k : BKey) (b : Block) : (s.setBlock k b).hvPosts = s.hvPosts := rfl
@[simp] theorem State.setBlock_hostRead (s : State) (k : BKey) (b : Block) : (s.setBlock k b).hostRead = s.hostRead := rfl
@[simp] theorem State.setBlock_mgc (s : State) (k : BKey) (b : Block) : (s.setBlock k b).mgc = s.mgc := rfl
@[simp] theorem State.setBlock_clusters (s : State) (k : BKey) (b : Block) : (s.setBlock k b).clusters = s.clusters := rfl
@[simp] theorem State.setBlock_expanders (s : State) (k : BKey) (b : Block) : (s.setBlock k b).expanders = s.expanders := rfl
@[simp] theorem State.setBlock_linkLost (s : State) (k : BKey) (b : Block) : (s.setBlock k b).linkLost = s.linkLost := rfl
@[simp] theorem State.setBlock_devid (s : State) (k : BKey) (b : Block) : (s.setBlock k b).devid = s.devid := rfl
@[simp] theorem State.setBlock_domain (s : State) (k : BKey) (b : Block) : (s.setBlock k b).domain = s.domain := rfl
@[simp] theorem State.setBlock_remotes (s : State) (k : BKey) (b : Block) : (s.setBlock k b).remotes = s.remotes := rfl
@[simp] theorem State.setBlock_dtime (s : State) (k : BKey) (b : Block) : (s.setBlock k b).dtime = s.dtime := rfl
@[simp] theorem State.setBlock_dstate (s : State) (k : BKey) (b : Block) : (s.setBlock k b).dstate = s.dstate := rfl
@[simp] theorem State.setBlock_lastSync (s : State) (k : BKey) (b : Block) : (s.setBlock k b).lastSync = s.lastSync := rfl
@[simp] theorem State.setBlock_slewOwed (s : State) (k : BKey) (b : Block) : (s.setBlock k b).slewOwed = s.slewOwed := rfl
@[simp] theorem State.setBlock_lockedOnce (s : State) (k : BKey) (b : Block) : (s.setBlock k b).lockedOnce = s.lockedOnce := rfl
@[simp] theorem State.setBlock_ptpDown (s : State) (k : BKey) (b : Block) : (s.setBlock k b).ptpDown = s.ptpDown := rfl
@[simp] theorem State.setBlock_slowClock (s : State) (k : BKey) (b : Block) : (s.setBlock k b).slowClock = s.slowClock := rfl
@[simp] theorem State.setBlock_halted (s : State) (k : BKey) (b : Block) : (s.setBlock k b).halted = s.halted := rfl
@[simp] theorem State.setBlock_schedule (s : State) (k : BKey) (b : Block) : (s.setBlock k b).schedule = s.schedule := rfl
@[simp] theorem State.setBlock_active (s : State) (k : BKey) (b : Block) : (s.setBlock k b).active = s.active := rfl
@[simp] theorem State.setBlock_stopped (s : State) (k : BKey) (b : Block) : (s.setBlock k b).stopped = s.stopped := rfl
@[simp] theorem State.setBlock_freeCount (s : State) (k : BKey) (b : Block) : (s.setBlock k b).freeCount = s.freeCount := rfl
@[simp] theorem State.setBlock_evSeq (s : State) (k : BKey) (b : Block) : (s.setBlock k b).evSeq = s.evSeq := rfl

/-! ### State.dropBlock -/

@[simp] theorem State.dropBlock_mem (s : State) (k : BKey) : (s.dropBlock k).mem = s.mem := rfl
@[simp] theorem State.dropBlock_marks (s : State) (k : BKey) : (s.dropBlock k).marks = s.marks := rfl
@[simp] theorem State.dropBlock_eccLines (s : State) (k : BKey) : (s.dropBlock k).eccLines = s.eccLines := rfl
@[simp] theorem State.dropBlock_coded (s : State) (k : BKey) : (s.dropBlock k).coded = s.coded := rfl
@[simp] theorem State.dropBlock_tlb (s : State) (k : BKey) : (s.dropBlock k).tlb = s.tlb := rfl
@[simp] theorem State.dropBlock_pins (s : State) (k : BKey) : (s.dropBlock k).pins = s.pins := rfl
@[simp] theorem State.dropBlock_late (s : State) (k : BKey) : (s.dropBlock k).late = s.late := rfl
@[simp] theorem State.dropBlock_ctxs (s : State) (k : BKey) : (s.dropBlock k).ctxs = s.ctxs := rfl
@[simp] theorem State.dropBlock_cores (s : State) (k : BKey) : (s.dropBlock k).cores = s.cores := rfl
@[simp] theorem State.dropBlock_savea (s : State) (k : BKey) : (s.dropBlock k).savea = s.savea := rfl
@[simp] theorem State.dropBlock_bars (s : State) (k : BKey) : (s.dropBlock k).bars = s.bars := rfl
@[simp] theorem State.dropBlock_barOwner (s : State) (k : BKey) : (s.dropBlock k).barOwner = s.barOwner := rfl
@[simp] theorem State.dropBlock_die0 (s : State) (k : BKey) : (s.dropBlock k).die0 = s.die0 := rfl
@[simp] theorem State.dropBlock_die1 (s : State) (k : BKey) : (s.dropBlock k).die1 = s.die1 := rfl
@[simp] theorem State.dropBlock_lines (s : State) (k : BKey) : (s.dropBlock k).lines = s.lines := rfl
@[simp] theorem State.dropBlock_relays (s : State) (k : BKey) : (s.dropBlock k).relays = s.relays := rfl
@[simp] theorem State.dropBlock_launches (s : State) (k : BKey) : (s.dropBlock k).launches = s.launches := rfl
@[simp] theorem State.dropBlock_tableError (s : State) (k : BKey) : (s.dropBlock k).tableError = s.tableError := rfl
@[simp] theorem State.dropBlock_queues (s : State) (k : BKey) : (s.dropBlock k).queues = s.queues := rfl
@[simp] theorem State.dropBlock_graphs (s : State) (k : BKey) : (s.dropBlock k).graphs = s.graphs := rfl
@[simp] theorem State.dropBlock_saved (s : State) (k : BKey) : (s.dropBlock k).saved = s.saved := rfl
@[simp] theorem State.dropBlock_estimates (s : State) (k : BKey) : (s.dropBlock k).estimates = s.estimates := rfl
@[simp] theorem State.dropBlock_rescues (s : State) (k : BKey) : (s.dropBlock k).rescues = s.rescues := rfl
@[simp] theorem State.dropBlock_rescued (s : State) (k : BKey) : (s.dropBlock k).rescued = s.rescued := rfl
@[simp] theorem State.dropBlock_internal (s : State) (k : BKey) : (s.dropBlock k).internal = s.internal := rfl
@[simp] theorem State.dropBlock_port0 (s : State) (k : BKey) : (s.dropBlock k).port0 = s.port0 := rfl
@[simp] theorem State.dropBlock_port1 (s : State) (k : BKey) : (s.dropBlock k).port1 = s.port1 := rfl
@[simp] theorem State.dropBlock_hvPosts (s : State) (k : BKey) : (s.dropBlock k).hvPosts = s.hvPosts := rfl
@[simp] theorem State.dropBlock_hostRead (s : State) (k : BKey) : (s.dropBlock k).hostRead = s.hostRead := rfl
@[simp] theorem State.dropBlock_mgc (s : State) (k : BKey) : (s.dropBlock k).mgc = s.mgc := rfl
@[simp] theorem State.dropBlock_clusters (s : State) (k : BKey) : (s.dropBlock k).clusters = s.clusters := rfl
@[simp] theorem State.dropBlock_expanders (s : State) (k : BKey) : (s.dropBlock k).expanders = s.expanders := rfl
@[simp] theorem State.dropBlock_linkLost (s : State) (k : BKey) : (s.dropBlock k).linkLost = s.linkLost := rfl
@[simp] theorem State.dropBlock_devid (s : State) (k : BKey) : (s.dropBlock k).devid = s.devid := rfl
@[simp] theorem State.dropBlock_domain (s : State) (k : BKey) : (s.dropBlock k).domain = s.domain := rfl
@[simp] theorem State.dropBlock_remotes (s : State) (k : BKey) : (s.dropBlock k).remotes = s.remotes := rfl
@[simp] theorem State.dropBlock_dtime (s : State) (k : BKey) : (s.dropBlock k).dtime = s.dtime := rfl
@[simp] theorem State.dropBlock_dstate (s : State) (k : BKey) : (s.dropBlock k).dstate = s.dstate := rfl
@[simp] theorem State.dropBlock_lastSync (s : State) (k : BKey) : (s.dropBlock k).lastSync = s.lastSync := rfl
@[simp] theorem State.dropBlock_slewOwed (s : State) (k : BKey) : (s.dropBlock k).slewOwed = s.slewOwed := rfl
@[simp] theorem State.dropBlock_lockedOnce (s : State) (k : BKey) : (s.dropBlock k).lockedOnce = s.lockedOnce := rfl
@[simp] theorem State.dropBlock_ptpDown (s : State) (k : BKey) : (s.dropBlock k).ptpDown = s.ptpDown := rfl
@[simp] theorem State.dropBlock_slowClock (s : State) (k : BKey) : (s.dropBlock k).slowClock = s.slowClock := rfl
@[simp] theorem State.dropBlock_halted (s : State) (k : BKey) : (s.dropBlock k).halted = s.halted := rfl
@[simp] theorem State.dropBlock_schedule (s : State) (k : BKey) : (s.dropBlock k).schedule = s.schedule := rfl
@[simp] theorem State.dropBlock_active (s : State) (k : BKey) : (s.dropBlock k).active = s.active := rfl
@[simp] theorem State.dropBlock_stopped (s : State) (k : BKey) : (s.dropBlock k).stopped = s.stopped := rfl
@[simp] theorem State.dropBlock_freeCount (s : State) (k : BKey) : (s.dropBlock k).freeCount = s.freeCount := rfl
@[simp] theorem State.dropBlock_evSeq (s : State) (k : BKey) : (s.dropBlock k).evSeq = s.evSeq := rfl

/-! ### State.setCtx -/

@[simp] theorem State.setCtx_mem (s : State) (n : Nat) (c : Ctx) : (s.setCtx n c).mem = s.mem := rfl
@[simp] theorem State.setCtx_marks (s : State) (n : Nat) (c : Ctx) : (s.setCtx n c).marks = s.marks := rfl
@[simp] theorem State.setCtx_eccLines (s : State) (n : Nat) (c : Ctx) : (s.setCtx n c).eccLines = s.eccLines := rfl
@[simp] theorem State.setCtx_coded (s : State) (n : Nat) (c : Ctx) : (s.setCtx n c).coded = s.coded := rfl
@[simp] theorem State.setCtx_tlb (s : State) (n : Nat) (c : Ctx) : (s.setCtx n c).tlb = s.tlb := rfl
@[simp] theorem State.setCtx_pins (s : State) (n : Nat) (c : Ctx) : (s.setCtx n c).pins = s.pins := rfl
@[simp] theorem State.setCtx_late (s : State) (n : Nat) (c : Ctx) : (s.setCtx n c).late = s.late := rfl
@[simp] theorem State.setCtx_blocks (s : State) (n : Nat) (c : Ctx) : (s.setCtx n c).blocks = s.blocks := rfl
@[simp] theorem State.setCtx_cores (s : State) (n : Nat) (c : Ctx) : (s.setCtx n c).cores = s.cores := rfl
@[simp] theorem State.setCtx_savea (s : State) (n : Nat) (c : Ctx) : (s.setCtx n c).savea = s.savea := rfl
@[simp] theorem State.setCtx_bars (s : State) (n : Nat) (c : Ctx) : (s.setCtx n c).bars = s.bars := rfl
@[simp] theorem State.setCtx_barOwner (s : State) (n : Nat) (c : Ctx) : (s.setCtx n c).barOwner = s.barOwner := rfl
@[simp] theorem State.setCtx_die0 (s : State) (n : Nat) (c : Ctx) : (s.setCtx n c).die0 = s.die0 := rfl
@[simp] theorem State.setCtx_die1 (s : State) (n : Nat) (c : Ctx) : (s.setCtx n c).die1 = s.die1 := rfl
@[simp] theorem State.setCtx_lines (s : State) (n : Nat) (c : Ctx) : (s.setCtx n c).lines = s.lines := rfl
@[simp] theorem State.setCtx_relays (s : State) (n : Nat) (c : Ctx) : (s.setCtx n c).relays = s.relays := rfl
@[simp] theorem State.setCtx_launches (s : State) (n : Nat) (c : Ctx) : (s.setCtx n c).launches = s.launches := rfl
@[simp] theorem State.setCtx_tableError (s : State) (n : Nat) (c : Ctx) : (s.setCtx n c).tableError = s.tableError := rfl
@[simp] theorem State.setCtx_queues (s : State) (n : Nat) (c : Ctx) : (s.setCtx n c).queues = s.queues := rfl
@[simp] theorem State.setCtx_graphs (s : State) (n : Nat) (c : Ctx) : (s.setCtx n c).graphs = s.graphs := rfl
@[simp] theorem State.setCtx_saved (s : State) (n : Nat) (c : Ctx) : (s.setCtx n c).saved = s.saved := rfl
@[simp] theorem State.setCtx_estimates (s : State) (n : Nat) (c : Ctx) : (s.setCtx n c).estimates = s.estimates := rfl
@[simp] theorem State.setCtx_rescues (s : State) (n : Nat) (c : Ctx) : (s.setCtx n c).rescues = s.rescues := rfl
@[simp] theorem State.setCtx_rescued (s : State) (n : Nat) (c : Ctx) : (s.setCtx n c).rescued = s.rescued := rfl
@[simp] theorem State.setCtx_internal (s : State) (n : Nat) (c : Ctx) : (s.setCtx n c).internal = s.internal := rfl
@[simp] theorem State.setCtx_port0 (s : State) (n : Nat) (c : Ctx) : (s.setCtx n c).port0 = s.port0 := rfl
@[simp] theorem State.setCtx_port1 (s : State) (n : Nat) (c : Ctx) : (s.setCtx n c).port1 = s.port1 := rfl
@[simp] theorem State.setCtx_hvPosts (s : State) (n : Nat) (c : Ctx) : (s.setCtx n c).hvPosts = s.hvPosts := rfl
@[simp] theorem State.setCtx_hostRead (s : State) (n : Nat) (c : Ctx) : (s.setCtx n c).hostRead = s.hostRead := rfl
@[simp] theorem State.setCtx_mgc (s : State) (n : Nat) (c : Ctx) : (s.setCtx n c).mgc = s.mgc := rfl
@[simp] theorem State.setCtx_clusters (s : State) (n : Nat) (c : Ctx) : (s.setCtx n c).clusters = s.clusters := rfl
@[simp] theorem State.setCtx_expanders (s : State) (n : Nat) (c : Ctx) : (s.setCtx n c).expanders = s.expanders := rfl
@[simp] theorem State.setCtx_linkLost (s : State) (n : Nat) (c : Ctx) : (s.setCtx n c).linkLost = s.linkLost := rfl
@[simp] theorem State.setCtx_devid (s : State) (n : Nat) (c : Ctx) : (s.setCtx n c).devid = s.devid := rfl
@[simp] theorem State.setCtx_domain (s : State) (n : Nat) (c : Ctx) : (s.setCtx n c).domain = s.domain := rfl
@[simp] theorem State.setCtx_remotes (s : State) (n : Nat) (c : Ctx) : (s.setCtx n c).remotes = s.remotes := rfl
@[simp] theorem State.setCtx_dtime (s : State) (n : Nat) (c : Ctx) : (s.setCtx n c).dtime = s.dtime := rfl
@[simp] theorem State.setCtx_dstate (s : State) (n : Nat) (c : Ctx) : (s.setCtx n c).dstate = s.dstate := rfl
@[simp] theorem State.setCtx_lastSync (s : State) (n : Nat) (c : Ctx) : (s.setCtx n c).lastSync = s.lastSync := rfl
@[simp] theorem State.setCtx_slewOwed (s : State) (n : Nat) (c : Ctx) : (s.setCtx n c).slewOwed = s.slewOwed := rfl
@[simp] theorem State.setCtx_lockedOnce (s : State) (n : Nat) (c : Ctx) : (s.setCtx n c).lockedOnce = s.lockedOnce := rfl
@[simp] theorem State.setCtx_ptpDown (s : State) (n : Nat) (c : Ctx) : (s.setCtx n c).ptpDown = s.ptpDown := rfl
@[simp] theorem State.setCtx_slowClock (s : State) (n : Nat) (c : Ctx) : (s.setCtx n c).slowClock = s.slowClock := rfl
@[simp] theorem State.setCtx_halted (s : State) (n : Nat) (c : Ctx) : (s.setCtx n c).halted = s.halted := rfl
@[simp] theorem State.setCtx_schedule (s : State) (n : Nat) (c : Ctx) : (s.setCtx n c).schedule = s.schedule := rfl
@[simp] theorem State.setCtx_active (s : State) (n : Nat) (c : Ctx) : (s.setCtx n c).active = s.active := rfl
@[simp] theorem State.setCtx_stopped (s : State) (n : Nat) (c : Ctx) : (s.setCtx n c).stopped = s.stopped := rfl
@[simp] theorem State.setCtx_freeCount (s : State) (n : Nat) (c : Ctx) : (s.setCtx n c).freeCount = s.freeCount := rfl
@[simp] theorem State.setCtx_evSeq (s : State) (n : Nat) (c : Ctx) : (s.setCtx n c).evSeq = s.evSeq := rfl

/-! ### State.setCore -/

@[simp] theorem State.setCore_mem (s : State) (n : Nat) (c : CoreSt) : (s.setCore n c).mem = s.mem := rfl
@[simp] theorem State.setCore_marks (s : State) (n : Nat) (c : CoreSt) : (s.setCore n c).marks = s.marks := rfl
@[simp] theorem State.setCore_eccLines (s : State) (n : Nat) (c : CoreSt) : (s.setCore n c).eccLines = s.eccLines := rfl
@[simp] theorem State.setCore_coded (s : State) (n : Nat) (c : CoreSt) : (s.setCore n c).coded = s.coded := rfl
@[simp] theorem State.setCore_tlb (s : State) (n : Nat) (c : CoreSt) : (s.setCore n c).tlb = s.tlb := rfl
@[simp] theorem State.setCore_pins (s : State) (n : Nat) (c : CoreSt) : (s.setCore n c).pins = s.pins := rfl
@[simp] theorem State.setCore_late (s : State) (n : Nat) (c : CoreSt) : (s.setCore n c).late = s.late := rfl
@[simp] theorem State.setCore_ctxs (s : State) (n : Nat) (c : CoreSt) : (s.setCore n c).ctxs = s.ctxs := rfl
@[simp] theorem State.setCore_blocks (s : State) (n : Nat) (c : CoreSt) : (s.setCore n c).blocks = s.blocks := rfl
@[simp] theorem State.setCore_savea (s : State) (n : Nat) (c : CoreSt) : (s.setCore n c).savea = s.savea := rfl
@[simp] theorem State.setCore_bars (s : State) (n : Nat) (c : CoreSt) : (s.setCore n c).bars = s.bars := rfl
@[simp] theorem State.setCore_barOwner (s : State) (n : Nat) (c : CoreSt) : (s.setCore n c).barOwner = s.barOwner := rfl
@[simp] theorem State.setCore_die0 (s : State) (n : Nat) (c : CoreSt) : (s.setCore n c).die0 = s.die0 := rfl
@[simp] theorem State.setCore_die1 (s : State) (n : Nat) (c : CoreSt) : (s.setCore n c).die1 = s.die1 := rfl
@[simp] theorem State.setCore_lines (s : State) (n : Nat) (c : CoreSt) : (s.setCore n c).lines = s.lines := rfl
@[simp] theorem State.setCore_relays (s : State) (n : Nat) (c : CoreSt) : (s.setCore n c).relays = s.relays := rfl
@[simp] theorem State.setCore_launches (s : State) (n : Nat) (c : CoreSt) : (s.setCore n c).launches = s.launches := rfl
@[simp] theorem State.setCore_tableError (s : State) (n : Nat) (c : CoreSt) : (s.setCore n c).tableError = s.tableError := rfl
@[simp] theorem State.setCore_queues (s : State) (n : Nat) (c : CoreSt) : (s.setCore n c).queues = s.queues := rfl
@[simp] theorem State.setCore_graphs (s : State) (n : Nat) (c : CoreSt) : (s.setCore n c).graphs = s.graphs := rfl
@[simp] theorem State.setCore_saved (s : State) (n : Nat) (c : CoreSt) : (s.setCore n c).saved = s.saved := rfl
@[simp] theorem State.setCore_estimates (s : State) (n : Nat) (c : CoreSt) : (s.setCore n c).estimates = s.estimates := rfl
@[simp] theorem State.setCore_rescues (s : State) (n : Nat) (c : CoreSt) : (s.setCore n c).rescues = s.rescues := rfl
@[simp] theorem State.setCore_rescued (s : State) (n : Nat) (c : CoreSt) : (s.setCore n c).rescued = s.rescued := rfl
@[simp] theorem State.setCore_internal (s : State) (n : Nat) (c : CoreSt) : (s.setCore n c).internal = s.internal := rfl
@[simp] theorem State.setCore_port0 (s : State) (n : Nat) (c : CoreSt) : (s.setCore n c).port0 = s.port0 := rfl
@[simp] theorem State.setCore_port1 (s : State) (n : Nat) (c : CoreSt) : (s.setCore n c).port1 = s.port1 := rfl
@[simp] theorem State.setCore_hvPosts (s : State) (n : Nat) (c : CoreSt) : (s.setCore n c).hvPosts = s.hvPosts := rfl
@[simp] theorem State.setCore_hostRead (s : State) (n : Nat) (c : CoreSt) : (s.setCore n c).hostRead = s.hostRead := rfl
@[simp] theorem State.setCore_mgc (s : State) (n : Nat) (c : CoreSt) : (s.setCore n c).mgc = s.mgc := rfl
@[simp] theorem State.setCore_clusters (s : State) (n : Nat) (c : CoreSt) : (s.setCore n c).clusters = s.clusters := rfl
@[simp] theorem State.setCore_expanders (s : State) (n : Nat) (c : CoreSt) : (s.setCore n c).expanders = s.expanders := rfl
@[simp] theorem State.setCore_linkLost (s : State) (n : Nat) (c : CoreSt) : (s.setCore n c).linkLost = s.linkLost := rfl
@[simp] theorem State.setCore_devid (s : State) (n : Nat) (c : CoreSt) : (s.setCore n c).devid = s.devid := rfl
@[simp] theorem State.setCore_domain (s : State) (n : Nat) (c : CoreSt) : (s.setCore n c).domain = s.domain := rfl
@[simp] theorem State.setCore_remotes (s : State) (n : Nat) (c : CoreSt) : (s.setCore n c).remotes = s.remotes := rfl
@[simp] theorem State.setCore_dtime (s : State) (n : Nat) (c : CoreSt) : (s.setCore n c).dtime = s.dtime := rfl
@[simp] theorem State.setCore_dstate (s : State) (n : Nat) (c : CoreSt) : (s.setCore n c).dstate = s.dstate := rfl
@[simp] theorem State.setCore_lastSync (s : State) (n : Nat) (c : CoreSt) : (s.setCore n c).lastSync = s.lastSync := rfl
@[simp] theorem State.setCore_slewOwed (s : State) (n : Nat) (c : CoreSt) : (s.setCore n c).slewOwed = s.slewOwed := rfl
@[simp] theorem State.setCore_lockedOnce (s : State) (n : Nat) (c : CoreSt) : (s.setCore n c).lockedOnce = s.lockedOnce := rfl
@[simp] theorem State.setCore_ptpDown (s : State) (n : Nat) (c : CoreSt) : (s.setCore n c).ptpDown = s.ptpDown := rfl
@[simp] theorem State.setCore_slowClock (s : State) (n : Nat) (c : CoreSt) : (s.setCore n c).slowClock = s.slowClock := rfl
@[simp] theorem State.setCore_halted (s : State) (n : Nat) (c : CoreSt) : (s.setCore n c).halted = s.halted := rfl
@[simp] theorem State.setCore_schedule (s : State) (n : Nat) (c : CoreSt) : (s.setCore n c).schedule = s.schedule := rfl
@[simp] theorem State.setCore_active (s : State) (n : Nat) (c : CoreSt) : (s.setCore n c).active = s.active := rfl
@[simp] theorem State.setCore_stopped (s : State) (n : Nat) (c : CoreSt) : (s.setCore n c).stopped = s.stopped := rfl
@[simp] theorem State.setCore_freeCount (s : State) (n : Nat) (c : CoreSt) : (s.setCore n c).freeCount = s.freeCount := rfl
@[simp] theorem State.setCore_evSeq (s : State) (n : Nat) (c : CoreSt) : (s.setCore n c).evSeq = s.evSeq := rfl

/-! ### State.setLaunch -/

@[simp] theorem State.setLaunch_mem (s : State) (l : Launch) : (s.setLaunch l).mem = s.mem := rfl
@[simp] theorem State.setLaunch_marks (s : State) (l : Launch) : (s.setLaunch l).marks = s.marks := rfl
@[simp] theorem State.setLaunch_eccLines (s : State) (l : Launch) : (s.setLaunch l).eccLines = s.eccLines := rfl
@[simp] theorem State.setLaunch_coded (s : State) (l : Launch) : (s.setLaunch l).coded = s.coded := rfl
@[simp] theorem State.setLaunch_tlb (s : State) (l : Launch) : (s.setLaunch l).tlb = s.tlb := rfl
@[simp] theorem State.setLaunch_pins (s : State) (l : Launch) : (s.setLaunch l).pins = s.pins := rfl
@[simp] theorem State.setLaunch_late (s : State) (l : Launch) : (s.setLaunch l).late = s.late := rfl
@[simp] theorem State.setLaunch_ctxs (s : State) (l : Launch) : (s.setLaunch l).ctxs = s.ctxs := rfl
@[simp] theorem State.setLaunch_blocks (s : State) (l : Launch) : (s.setLaunch l).blocks = s.blocks := rfl
@[simp] theorem State.setLaunch_cores (s : State) (l : Launch) : (s.setLaunch l).cores = s.cores := rfl
@[simp] theorem State.setLaunch_savea (s : State) (l : Launch) : (s.setLaunch l).savea = s.savea := rfl
@[simp] theorem State.setLaunch_bars (s : State) (l : Launch) : (s.setLaunch l).bars = s.bars := rfl
@[simp] theorem State.setLaunch_barOwner (s : State) (l : Launch) : (s.setLaunch l).barOwner = s.barOwner := rfl
@[simp] theorem State.setLaunch_die0 (s : State) (l : Launch) : (s.setLaunch l).die0 = s.die0 := rfl
@[simp] theorem State.setLaunch_die1 (s : State) (l : Launch) : (s.setLaunch l).die1 = s.die1 := rfl
@[simp] theorem State.setLaunch_lines (s : State) (l : Launch) : (s.setLaunch l).lines = s.lines := rfl
@[simp] theorem State.setLaunch_relays (s : State) (l : Launch) : (s.setLaunch l).relays = s.relays := rfl
@[simp] theorem State.setLaunch_tableError (s : State) (l : Launch) : (s.setLaunch l).tableError = s.tableError := rfl
@[simp] theorem State.setLaunch_queues (s : State) (l : Launch) : (s.setLaunch l).queues = s.queues := rfl
@[simp] theorem State.setLaunch_graphs (s : State) (l : Launch) : (s.setLaunch l).graphs = s.graphs := rfl
@[simp] theorem State.setLaunch_saved (s : State) (l : Launch) : (s.setLaunch l).saved = s.saved := rfl
@[simp] theorem State.setLaunch_estimates (s : State) (l : Launch) : (s.setLaunch l).estimates = s.estimates := rfl
@[simp] theorem State.setLaunch_rescues (s : State) (l : Launch) : (s.setLaunch l).rescues = s.rescues := rfl
@[simp] theorem State.setLaunch_rescued (s : State) (l : Launch) : (s.setLaunch l).rescued = s.rescued := rfl
@[simp] theorem State.setLaunch_internal (s : State) (l : Launch) : (s.setLaunch l).internal = s.internal := rfl
@[simp] theorem State.setLaunch_port0 (s : State) (l : Launch) : (s.setLaunch l).port0 = s.port0 := rfl
@[simp] theorem State.setLaunch_port1 (s : State) (l : Launch) : (s.setLaunch l).port1 = s.port1 := rfl
@[simp] theorem State.setLaunch_hvPosts (s : State) (l : Launch) : (s.setLaunch l).hvPosts = s.hvPosts := rfl
@[simp] theorem State.setLaunch_hostRead (s : State) (l : Launch) : (s.setLaunch l).hostRead = s.hostRead := rfl
@[simp] theorem State.setLaunch_mgc (s : State) (l : Launch) : (s.setLaunch l).mgc = s.mgc := rfl
@[simp] theorem State.setLaunch_clusters (s : State) (l : Launch) : (s.setLaunch l).clusters = s.clusters := rfl
@[simp] theorem State.setLaunch_expanders (s : State) (l : Launch) : (s.setLaunch l).expanders = s.expanders := rfl
@[simp] theorem State.setLaunch_linkLost (s : State) (l : Launch) : (s.setLaunch l).linkLost = s.linkLost := rfl
@[simp] theorem State.setLaunch_devid (s : State) (l : Launch) : (s.setLaunch l).devid = s.devid := rfl
@[simp] theorem State.setLaunch_domain (s : State) (l : Launch) : (s.setLaunch l).domain = s.domain := rfl
@[simp] theorem State.setLaunch_remotes (s : State) (l : Launch) : (s.setLaunch l).remotes = s.remotes := rfl
@[simp] theorem State.setLaunch_dtime (s : State) (l : Launch) : (s.setLaunch l).dtime = s.dtime := rfl
@[simp] theorem State.setLaunch_dstate (s : State) (l : Launch) : (s.setLaunch l).dstate = s.dstate := rfl
@[simp] theorem State.setLaunch_lastSync (s : State) (l : Launch) : (s.setLaunch l).lastSync = s.lastSync := rfl
@[simp] theorem State.setLaunch_slewOwed (s : State) (l : Launch) : (s.setLaunch l).slewOwed = s.slewOwed := rfl
@[simp] theorem State.setLaunch_lockedOnce (s : State) (l : Launch) : (s.setLaunch l).lockedOnce = s.lockedOnce := rfl
@[simp] theorem State.setLaunch_ptpDown (s : State) (l : Launch) : (s.setLaunch l).ptpDown = s.ptpDown := rfl
@[simp] theorem State.setLaunch_slowClock (s : State) (l : Launch) : (s.setLaunch l).slowClock = s.slowClock := rfl
@[simp] theorem State.setLaunch_halted (s : State) (l : Launch) : (s.setLaunch l).halted = s.halted := rfl
@[simp] theorem State.setLaunch_schedule (s : State) (l : Launch) : (s.setLaunch l).schedule = s.schedule := rfl
@[simp] theorem State.setLaunch_active (s : State) (l : Launch) : (s.setLaunch l).active = s.active := rfl
@[simp] theorem State.setLaunch_stopped (s : State) (l : Launch) : (s.setLaunch l).stopped = s.stopped := rfl
@[simp] theorem State.setLaunch_freeCount (s : State) (l : Launch) : (s.setLaunch l).freeCount = s.freeCount := rfl
@[simp] theorem State.setLaunch_evSeq (s : State) (l : Launch) : (s.setLaunch l).evSeq = s.evSeq := rfl

/-! ### State.setBarSet -/

@[simp] theorem State.setBarSet_mem (s : State) (k : BKey) (v : Vector Barrier 16) : (s.setBarSet k v).mem = s.mem := rfl
@[simp] theorem State.setBarSet_marks (s : State) (k : BKey) (v : Vector Barrier 16) : (s.setBarSet k v).marks = s.marks := rfl
@[simp] theorem State.setBarSet_eccLines (s : State) (k : BKey) (v : Vector Barrier 16) : (s.setBarSet k v).eccLines = s.eccLines := rfl
@[simp] theorem State.setBarSet_coded (s : State) (k : BKey) (v : Vector Barrier 16) : (s.setBarSet k v).coded = s.coded := rfl
@[simp] theorem State.setBarSet_tlb (s : State) (k : BKey) (v : Vector Barrier 16) : (s.setBarSet k v).tlb = s.tlb := rfl
@[simp] theorem State.setBarSet_pins (s : State) (k : BKey) (v : Vector Barrier 16) : (s.setBarSet k v).pins = s.pins := rfl
@[simp] theorem State.setBarSet_late (s : State) (k : BKey) (v : Vector Barrier 16) : (s.setBarSet k v).late = s.late := rfl
@[simp] theorem State.setBarSet_ctxs (s : State) (k : BKey) (v : Vector Barrier 16) : (s.setBarSet k v).ctxs = s.ctxs := rfl
@[simp] theorem State.setBarSet_blocks (s : State) (k : BKey) (v : Vector Barrier 16) : (s.setBarSet k v).blocks = s.blocks := rfl
@[simp] theorem State.setBarSet_cores (s : State) (k : BKey) (v : Vector Barrier 16) : (s.setBarSet k v).cores = s.cores := rfl
@[simp] theorem State.setBarSet_savea (s : State) (k : BKey) (v : Vector Barrier 16) : (s.setBarSet k v).savea = s.savea := rfl
@[simp] theorem State.setBarSet_barOwner (s : State) (k : BKey) (v : Vector Barrier 16) : (s.setBarSet k v).barOwner = s.barOwner := rfl
@[simp] theorem State.setBarSet_die0 (s : State) (k : BKey) (v : Vector Barrier 16) : (s.setBarSet k v).die0 = s.die0 := rfl
@[simp] theorem State.setBarSet_die1 (s : State) (k : BKey) (v : Vector Barrier 16) : (s.setBarSet k v).die1 = s.die1 := rfl
@[simp] theorem State.setBarSet_lines (s : State) (k : BKey) (v : Vector Barrier 16) : (s.setBarSet k v).lines = s.lines := rfl
@[simp] theorem State.setBarSet_relays (s : State) (k : BKey) (v : Vector Barrier 16) : (s.setBarSet k v).relays = s.relays := rfl
@[simp] theorem State.setBarSet_launches (s : State) (k : BKey) (v : Vector Barrier 16) : (s.setBarSet k v).launches = s.launches := rfl
@[simp] theorem State.setBarSet_tableError (s : State) (k : BKey) (v : Vector Barrier 16) : (s.setBarSet k v).tableError = s.tableError := rfl
@[simp] theorem State.setBarSet_queues (s : State) (k : BKey) (v : Vector Barrier 16) : (s.setBarSet k v).queues = s.queues := rfl
@[simp] theorem State.setBarSet_graphs (s : State) (k : BKey) (v : Vector Barrier 16) : (s.setBarSet k v).graphs = s.graphs := rfl
@[simp] theorem State.setBarSet_saved (s : State) (k : BKey) (v : Vector Barrier 16) : (s.setBarSet k v).saved = s.saved := rfl
@[simp] theorem State.setBarSet_estimates (s : State) (k : BKey) (v : Vector Barrier 16) : (s.setBarSet k v).estimates = s.estimates := rfl
@[simp] theorem State.setBarSet_rescues (s : State) (k : BKey) (v : Vector Barrier 16) : (s.setBarSet k v).rescues = s.rescues := rfl
@[simp] theorem State.setBarSet_rescued (s : State) (k : BKey) (v : Vector Barrier 16) : (s.setBarSet k v).rescued = s.rescued := rfl
@[simp] theorem State.setBarSet_internal (s : State) (k : BKey) (v : Vector Barrier 16) : (s.setBarSet k v).internal = s.internal := rfl
@[simp] theorem State.setBarSet_port0 (s : State) (k : BKey) (v : Vector Barrier 16) : (s.setBarSet k v).port0 = s.port0 := rfl
@[simp] theorem State.setBarSet_port1 (s : State) (k : BKey) (v : Vector Barrier 16) : (s.setBarSet k v).port1 = s.port1 := rfl
@[simp] theorem State.setBarSet_hvPosts (s : State) (k : BKey) (v : Vector Barrier 16) : (s.setBarSet k v).hvPosts = s.hvPosts := rfl
@[simp] theorem State.setBarSet_hostRead (s : State) (k : BKey) (v : Vector Barrier 16) : (s.setBarSet k v).hostRead = s.hostRead := rfl
@[simp] theorem State.setBarSet_mgc (s : State) (k : BKey) (v : Vector Barrier 16) : (s.setBarSet k v).mgc = s.mgc := rfl
@[simp] theorem State.setBarSet_clusters (s : State) (k : BKey) (v : Vector Barrier 16) : (s.setBarSet k v).clusters = s.clusters := rfl
@[simp] theorem State.setBarSet_expanders (s : State) (k : BKey) (v : Vector Barrier 16) : (s.setBarSet k v).expanders = s.expanders := rfl
@[simp] theorem State.setBarSet_linkLost (s : State) (k : BKey) (v : Vector Barrier 16) : (s.setBarSet k v).linkLost = s.linkLost := rfl
@[simp] theorem State.setBarSet_devid (s : State) (k : BKey) (v : Vector Barrier 16) : (s.setBarSet k v).devid = s.devid := rfl
@[simp] theorem State.setBarSet_domain (s : State) (k : BKey) (v : Vector Barrier 16) : (s.setBarSet k v).domain = s.domain := rfl
@[simp] theorem State.setBarSet_remotes (s : State) (k : BKey) (v : Vector Barrier 16) : (s.setBarSet k v).remotes = s.remotes := rfl
@[simp] theorem State.setBarSet_dtime (s : State) (k : BKey) (v : Vector Barrier 16) : (s.setBarSet k v).dtime = s.dtime := rfl
@[simp] theorem State.setBarSet_dstate (s : State) (k : BKey) (v : Vector Barrier 16) : (s.setBarSet k v).dstate = s.dstate := rfl
@[simp] theorem State.setBarSet_lastSync (s : State) (k : BKey) (v : Vector Barrier 16) : (s.setBarSet k v).lastSync = s.lastSync := rfl
@[simp] theorem State.setBarSet_slewOwed (s : State) (k : BKey) (v : Vector Barrier 16) : (s.setBarSet k v).slewOwed = s.slewOwed := rfl
@[simp] theorem State.setBarSet_lockedOnce (s : State) (k : BKey) (v : Vector Barrier 16) : (s.setBarSet k v).lockedOnce = s.lockedOnce := rfl
@[simp] theorem State.setBarSet_ptpDown (s : State) (k : BKey) (v : Vector Barrier 16) : (s.setBarSet k v).ptpDown = s.ptpDown := rfl
@[simp] theorem State.setBarSet_slowClock (s : State) (k : BKey) (v : Vector Barrier 16) : (s.setBarSet k v).slowClock = s.slowClock := rfl
@[simp] theorem State.setBarSet_halted (s : State) (k : BKey) (v : Vector Barrier 16) : (s.setBarSet k v).halted = s.halted := rfl
@[simp] theorem State.setBarSet_schedule (s : State) (k : BKey) (v : Vector Barrier 16) : (s.setBarSet k v).schedule = s.schedule := rfl
@[simp] theorem State.setBarSet_active (s : State) (k : BKey) (v : Vector Barrier 16) : (s.setBarSet k v).active = s.active := rfl
@[simp] theorem State.setBarSet_stopped (s : State) (k : BKey) (v : Vector Barrier 16) : (s.setBarSet k v).stopped = s.stopped := rfl
@[simp] theorem State.setBarSet_freeCount (s : State) (k : BKey) (v : Vector Barrier 16) : (s.setBarSet k v).freeCount = s.freeCount := rfl
@[simp] theorem State.setBarSet_evSeq (s : State) (k : BKey) (v : Vector Barrier 16) : (s.setBarSet k v).evSeq = s.evSeq := rfl

/-! ### State.bumpFree -/

@[simp] theorem State.bumpFree_mem (s : State) : (s.bumpFree).mem = s.mem := rfl
@[simp] theorem State.bumpFree_marks (s : State) : (s.bumpFree).marks = s.marks := rfl
@[simp] theorem State.bumpFree_eccLines (s : State) : (s.bumpFree).eccLines = s.eccLines := rfl
@[simp] theorem State.bumpFree_coded (s : State) : (s.bumpFree).coded = s.coded := rfl
@[simp] theorem State.bumpFree_tlb (s : State) : (s.bumpFree).tlb = s.tlb := rfl
@[simp] theorem State.bumpFree_pins (s : State) : (s.bumpFree).pins = s.pins := rfl
@[simp] theorem State.bumpFree_late (s : State) : (s.bumpFree).late = s.late := rfl
@[simp] theorem State.bumpFree_ctxs (s : State) : (s.bumpFree).ctxs = s.ctxs := rfl
@[simp] theorem State.bumpFree_blocks (s : State) : (s.bumpFree).blocks = s.blocks := rfl
@[simp] theorem State.bumpFree_cores (s : State) : (s.bumpFree).cores = s.cores := rfl
@[simp] theorem State.bumpFree_savea (s : State) : (s.bumpFree).savea = s.savea := rfl
@[simp] theorem State.bumpFree_bars (s : State) : (s.bumpFree).bars = s.bars := rfl
@[simp] theorem State.bumpFree_barOwner (s : State) : (s.bumpFree).barOwner = s.barOwner := rfl
@[simp] theorem State.bumpFree_die0 (s : State) : (s.bumpFree).die0 = s.die0 := rfl
@[simp] theorem State.bumpFree_die1 (s : State) : (s.bumpFree).die1 = s.die1 := rfl
@[simp] theorem State.bumpFree_lines (s : State) : (s.bumpFree).lines = s.lines := rfl
@[simp] theorem State.bumpFree_relays (s : State) : (s.bumpFree).relays = s.relays := rfl
@[simp] theorem State.bumpFree_launches (s : State) : (s.bumpFree).launches = s.launches := rfl
@[simp] theorem State.bumpFree_tableError (s : State) : (s.bumpFree).tableError = s.tableError := rfl
@[simp] theorem State.bumpFree_queues (s : State) : (s.bumpFree).queues = s.queues := rfl
@[simp] theorem State.bumpFree_graphs (s : State) : (s.bumpFree).graphs = s.graphs := rfl
@[simp] theorem State.bumpFree_saved (s : State) : (s.bumpFree).saved = s.saved := rfl
@[simp] theorem State.bumpFree_estimates (s : State) : (s.bumpFree).estimates = s.estimates := rfl
@[simp] theorem State.bumpFree_rescues (s : State) : (s.bumpFree).rescues = s.rescues := rfl
@[simp] theorem State.bumpFree_rescued (s : State) : (s.bumpFree).rescued = s.rescued := rfl
@[simp] theorem State.bumpFree_internal (s : State) : (s.bumpFree).internal = s.internal := rfl
@[simp] theorem State.bumpFree_port0 (s : State) : (s.bumpFree).port0 = s.port0 := rfl
@[simp] theorem State.bumpFree_port1 (s : State) : (s.bumpFree).port1 = s.port1 := rfl
@[simp] theorem State.bumpFree_hvPosts (s : State) : (s.bumpFree).hvPosts = s.hvPosts := rfl
@[simp] theorem State.bumpFree_hostRead (s : State) : (s.bumpFree).hostRead = s.hostRead := rfl
@[simp] theorem State.bumpFree_mgc (s : State) : (s.bumpFree).mgc = s.mgc := rfl
@[simp] theorem State.bumpFree_clusters (s : State) : (s.bumpFree).clusters = s.clusters := rfl
@[simp] theorem State.bumpFree_expanders (s : State) : (s.bumpFree).expanders = s.expanders := rfl
@[simp] theorem State.bumpFree_linkLost (s : State) : (s.bumpFree).linkLost = s.linkLost := rfl
@[simp] theorem State.bumpFree_devid (s : State) : (s.bumpFree).devid = s.devid := rfl
@[simp] theorem State.bumpFree_domain (s : State) : (s.bumpFree).domain = s.domain := rfl
@[simp] theorem State.bumpFree_remotes (s : State) : (s.bumpFree).remotes = s.remotes := rfl
@[simp] theorem State.bumpFree_dtime (s : State) : (s.bumpFree).dtime = s.dtime := rfl
@[simp] theorem State.bumpFree_dstate (s : State) : (s.bumpFree).dstate = s.dstate := rfl
@[simp] theorem State.bumpFree_lastSync (s : State) : (s.bumpFree).lastSync = s.lastSync := rfl
@[simp] theorem State.bumpFree_slewOwed (s : State) : (s.bumpFree).slewOwed = s.slewOwed := rfl
@[simp] theorem State.bumpFree_lockedOnce (s : State) : (s.bumpFree).lockedOnce = s.lockedOnce := rfl
@[simp] theorem State.bumpFree_ptpDown (s : State) : (s.bumpFree).ptpDown = s.ptpDown := rfl
@[simp] theorem State.bumpFree_slowClock (s : State) : (s.bumpFree).slowClock = s.slowClock := rfl
@[simp] theorem State.bumpFree_halted (s : State) : (s.bumpFree).halted = s.halted := rfl
@[simp] theorem State.bumpFree_schedule (s : State) : (s.bumpFree).schedule = s.schedule := rfl
@[simp] theorem State.bumpFree_active (s : State) : (s.bumpFree).active = s.active := rfl
@[simp] theorem State.bumpFree_stopped (s : State) : (s.bumpFree).stopped = s.stopped := rfl
@[simp] theorem State.bumpFree_evSeq (s : State) : (s.bumpFree).evSeq = s.evSeq := rfl

/-! ### State.setDie -/

@[simp] theorem State.setDie_mem (s : State) (d : Nat) (x : Die) : (s.setDie d x).mem = s.mem := by unfold State.setDie; split <;> rfl
@[simp] theorem State.setDie_marks (s : State) (d : Nat) (x : Die) : (s.setDie d x).marks = s.marks := by unfold State.setDie; split <;> rfl
@[simp] theorem State.setDie_eccLines (s : State) (d : Nat) (x : Die) : (s.setDie d x).eccLines = s.eccLines := by unfold State.setDie; split <;> rfl
@[simp] theorem State.setDie_coded (s : State) (d : Nat) (x : Die) : (s.setDie d x).coded = s.coded := by unfold State.setDie; split <;> rfl
@[simp] theorem State.setDie_tlb (s : State) (d : Nat) (x : Die) : (s.setDie d x).tlb = s.tlb := by unfold State.setDie; split <;> rfl
@[simp] theorem State.setDie_pins (s : State) (d : Nat) (x : Die) : (s.setDie d x).pins = s.pins := by unfold State.setDie; split <;> rfl
@[simp] theorem State.setDie_late (s : State) (d : Nat) (x : Die) : (s.setDie d x).late = s.late := by unfold State.setDie; split <;> rfl
@[simp] theorem State.setDie_ctxs (s : State) (d : Nat) (x : Die) : (s.setDie d x).ctxs = s.ctxs := by unfold State.setDie; split <;> rfl
@[simp] theorem State.setDie_blocks (s : State) (d : Nat) (x : Die) : (s.setDie d x).blocks = s.blocks := by unfold State.setDie; split <;> rfl
@[simp] theorem State.setDie_cores (s : State) (d : Nat) (x : Die) : (s.setDie d x).cores = s.cores := by unfold State.setDie; split <;> rfl
@[simp] theorem State.setDie_savea (s : State) (d : Nat) (x : Die) : (s.setDie d x).savea = s.savea := by unfold State.setDie; split <;> rfl
@[simp] theorem State.setDie_bars (s : State) (d : Nat) (x : Die) : (s.setDie d x).bars = s.bars := by unfold State.setDie; split <;> rfl
@[simp] theorem State.setDie_barOwner (s : State) (d : Nat) (x : Die) : (s.setDie d x).barOwner = s.barOwner := by unfold State.setDie; split <;> rfl
@[simp] theorem State.setDie_lines (s : State) (d : Nat) (x : Die) : (s.setDie d x).lines = s.lines := by unfold State.setDie; split <;> rfl
@[simp] theorem State.setDie_relays (s : State) (d : Nat) (x : Die) : (s.setDie d x).relays = s.relays := by unfold State.setDie; split <;> rfl
@[simp] theorem State.setDie_launches (s : State) (d : Nat) (x : Die) : (s.setDie d x).launches = s.launches := by unfold State.setDie; split <;> rfl
@[simp] theorem State.setDie_tableError (s : State) (d : Nat) (x : Die) : (s.setDie d x).tableError = s.tableError := by unfold State.setDie; split <;> rfl
@[simp] theorem State.setDie_queues (s : State) (d : Nat) (x : Die) : (s.setDie d x).queues = s.queues := by unfold State.setDie; split <;> rfl
@[simp] theorem State.setDie_graphs (s : State) (d : Nat) (x : Die) : (s.setDie d x).graphs = s.graphs := by unfold State.setDie; split <;> rfl
@[simp] theorem State.setDie_saved (s : State) (d : Nat) (x : Die) : (s.setDie d x).saved = s.saved := by unfold State.setDie; split <;> rfl
@[simp] theorem State.setDie_estimates (s : State) (d : Nat) (x : Die) : (s.setDie d x).estimates = s.estimates := by unfold State.setDie; split <;> rfl
@[simp] theorem State.setDie_rescues (s : State) (d : Nat) (x : Die) : (s.setDie d x).rescues = s.rescues := by unfold State.setDie; split <;> rfl
@[simp] theorem State.setDie_rescued (s : State) (d : Nat) (x : Die) : (s.setDie d x).rescued = s.rescued := by unfold State.setDie; split <;> rfl
@[simp] theorem State.setDie_internal (s : State) (d : Nat) (x : Die) : (s.setDie d x).internal = s.internal := by unfold State.setDie; split <;> rfl
@[simp] theorem State.setDie_port0 (s : State) (d : Nat) (x : Die) : (s.setDie d x).port0 = s.port0 := by unfold State.setDie; split <;> rfl
@[simp] theorem State.setDie_port1 (s : State) (d : Nat) (x : Die) : (s.setDie d x).port1 = s.port1 := by unfold State.setDie; split <;> rfl
@[simp] theorem State.setDie_hvPosts (s : State) (d : Nat) (x : Die) : (s.setDie d x).hvPosts = s.hvPosts := by unfold State.setDie; split <;> rfl
@[simp] theorem State.setDie_hostRead (s : State) (d : Nat) (x : Die) : (s.setDie d x).hostRead = s.hostRead := by unfold State.setDie; split <;> rfl
@[simp] theorem State.setDie_mgc (s : State) (d : Nat) (x : Die) : (s.setDie d x).mgc = s.mgc := by unfold State.setDie; split <;> rfl
@[simp] theorem State.setDie_clusters (s : State) (d : Nat) (x : Die) : (s.setDie d x).clusters = s.clusters := by unfold State.setDie; split <;> rfl
@[simp] theorem State.setDie_expanders (s : State) (d : Nat) (x : Die) : (s.setDie d x).expanders = s.expanders := by unfold State.setDie; split <;> rfl
@[simp] theorem State.setDie_linkLost (s : State) (d : Nat) (x : Die) : (s.setDie d x).linkLost = s.linkLost := by unfold State.setDie; split <;> rfl
@[simp] theorem State.setDie_devid (s : State) (d : Nat) (x : Die) : (s.setDie d x).devid = s.devid := by unfold State.setDie; split <;> rfl
@[simp] theorem State.setDie_domain (s : State) (d : Nat) (x : Die) : (s.setDie d x).domain = s.domain := by unfold State.setDie; split <;> rfl
@[simp] theorem State.setDie_remotes (s : State) (d : Nat) (x : Die) : (s.setDie d x).remotes = s.remotes := by unfold State.setDie; split <;> rfl
@[simp] theorem State.setDie_dtime (s : State) (d : Nat) (x : Die) : (s.setDie d x).dtime = s.dtime := by unfold State.setDie; split <;> rfl
@[simp] theorem State.setDie_dstate (s : State) (d : Nat) (x : Die) : (s.setDie d x).dstate = s.dstate := by unfold State.setDie; split <;> rfl
@[simp] theorem State.setDie_lastSync (s : State) (d : Nat) (x : Die) : (s.setDie d x).lastSync = s.lastSync := by unfold State.setDie; split <;> rfl
@[simp] theorem State.setDie_slewOwed (s : State) (d : Nat) (x : Die) : (s.setDie d x).slewOwed = s.slewOwed := by unfold State.setDie; split <;> rfl
@[simp] theorem State.setDie_lockedOnce (s : State) (d : Nat) (x : Die) : (s.setDie d x).lockedOnce = s.lockedOnce := by unfold State.setDie; split <;> rfl
@[simp] theorem State.setDie_ptpDown (s : State) (d : Nat) (x : Die) : (s.setDie d x).ptpDown = s.ptpDown := by unfold State.setDie; split <;> rfl
@[simp] theorem State.setDie_slowClock (s : State) (d : Nat) (x : Die) : (s.setDie d x).slowClock = s.slowClock := by unfold State.setDie; split <;> rfl
@[simp] theorem State.setDie_halted (s : State) (d : Nat) (x : Die) : (s.setDie d x).halted = s.halted := by unfold State.setDie; split <;> rfl
@[simp] theorem State.setDie_schedule (s : State) (d : Nat) (x : Die) : (s.setDie d x).schedule = s.schedule := by unfold State.setDie; split <;> rfl
@[simp] theorem State.setDie_active (s : State) (d : Nat) (x : Die) : (s.setDie d x).active = s.active := by unfold State.setDie; split <;> rfl
@[simp] theorem State.setDie_stopped (s : State) (d : Nat) (x : Die) : (s.setDie d x).stopped = s.stopped := by unfold State.setDie; split <;> rfl
@[simp] theorem State.setDie_freeCount (s : State) (d : Nat) (x : Die) : (s.setDie d x).freeCount = s.freeCount := by unfold State.setDie; split <;> rfl
@[simp] theorem State.setDie_evSeq (s : State) (d : Nat) (x : Die) : (s.setDie d x).evSeq = s.evSeq := by unfold State.setDie; split <;> rfl

/-! ### State.setPort -/

@[simp] theorem State.setPort_mem (s : State) (p : Nat) (x : Port) : (s.setPort p x).mem = s.mem := by unfold State.setPort; split <;> rfl
@[simp] theorem State.setPort_marks (s : State) (p : Nat) (x : Port) : (s.setPort p x).marks = s.marks := by unfold State.setPort; split <;> rfl
@[simp] theorem State.setPort_eccLines (s : State) (p : Nat) (x : Port) : (s.setPort p x).eccLines = s.eccLines := by unfold State.setPort; split <;> rfl
@[simp] theorem State.setPort_coded (s : State) (p : Nat) (x : Port) : (s.setPort p x).coded = s.coded := by unfold State.setPort; split <;> rfl
@[simp] theorem State.setPort_tlb (s : State) (p : Nat) (x : Port) : (s.setPort p x).tlb = s.tlb := by unfold State.setPort; split <;> rfl
@[simp] theorem State.setPort_pins (s : State) (p : Nat) (x : Port) : (s.setPort p x).pins = s.pins := by unfold State.setPort; split <;> rfl
@[simp] theorem State.setPort_late (s : State) (p : Nat) (x : Port) : (s.setPort p x).late = s.late := by unfold State.setPort; split <;> rfl
@[simp] theorem State.setPort_ctxs (s : State) (p : Nat) (x : Port) : (s.setPort p x).ctxs = s.ctxs := by unfold State.setPort; split <;> rfl
@[simp] theorem State.setPort_blocks (s : State) (p : Nat) (x : Port) : (s.setPort p x).blocks = s.blocks := by unfold State.setPort; split <;> rfl
@[simp] theorem State.setPort_cores (s : State) (p : Nat) (x : Port) : (s.setPort p x).cores = s.cores := by unfold State.setPort; split <;> rfl
@[simp] theorem State.setPort_savea (s : State) (p : Nat) (x : Port) : (s.setPort p x).savea = s.savea := by unfold State.setPort; split <;> rfl
@[simp] theorem State.setPort_bars (s : State) (p : Nat) (x : Port) : (s.setPort p x).bars = s.bars := by unfold State.setPort; split <;> rfl
@[simp] theorem State.setPort_barOwner (s : State) (p : Nat) (x : Port) : (s.setPort p x).barOwner = s.barOwner := by unfold State.setPort; split <;> rfl
@[simp] theorem State.setPort_die0 (s : State) (p : Nat) (x : Port) : (s.setPort p x).die0 = s.die0 := by unfold State.setPort; split <;> rfl
@[simp] theorem State.setPort_die1 (s : State) (p : Nat) (x : Port) : (s.setPort p x).die1 = s.die1 := by unfold State.setPort; split <;> rfl
@[simp] theorem State.setPort_lines (s : State) (p : Nat) (x : Port) : (s.setPort p x).lines = s.lines := by unfold State.setPort; split <;> rfl
@[simp] theorem State.setPort_relays (s : State) (p : Nat) (x : Port) : (s.setPort p x).relays = s.relays := by unfold State.setPort; split <;> rfl
@[simp] theorem State.setPort_launches (s : State) (p : Nat) (x : Port) : (s.setPort p x).launches = s.launches := by unfold State.setPort; split <;> rfl
@[simp] theorem State.setPort_tableError (s : State) (p : Nat) (x : Port) : (s.setPort p x).tableError = s.tableError := by unfold State.setPort; split <;> rfl
@[simp] theorem State.setPort_queues (s : State) (p : Nat) (x : Port) : (s.setPort p x).queues = s.queues := by unfold State.setPort; split <;> rfl
@[simp] theorem State.setPort_graphs (s : State) (p : Nat) (x : Port) : (s.setPort p x).graphs = s.graphs := by unfold State.setPort; split <;> rfl
@[simp] theorem State.setPort_saved (s : State) (p : Nat) (x : Port) : (s.setPort p x).saved = s.saved := by unfold State.setPort; split <;> rfl
@[simp] theorem State.setPort_estimates (s : State) (p : Nat) (x : Port) : (s.setPort p x).estimates = s.estimates := by unfold State.setPort; split <;> rfl
@[simp] theorem State.setPort_rescues (s : State) (p : Nat) (x : Port) : (s.setPort p x).rescues = s.rescues := by unfold State.setPort; split <;> rfl
@[simp] theorem State.setPort_rescued (s : State) (p : Nat) (x : Port) : (s.setPort p x).rescued = s.rescued := by unfold State.setPort; split <;> rfl
@[simp] theorem State.setPort_internal (s : State) (p : Nat) (x : Port) : (s.setPort p x).internal = s.internal := by unfold State.setPort; split <;> rfl
@[simp] theorem State.setPort_hvPosts (s : State) (p : Nat) (x : Port) : (s.setPort p x).hvPosts = s.hvPosts := by unfold State.setPort; split <;> rfl
@[simp] theorem State.setPort_hostRead (s : State) (p : Nat) (x : Port) : (s.setPort p x).hostRead = s.hostRead := by unfold State.setPort; split <;> rfl
@[simp] theorem State.setPort_mgc (s : State) (p : Nat) (x : Port) : (s.setPort p x).mgc = s.mgc := by unfold State.setPort; split <;> rfl
@[simp] theorem State.setPort_clusters (s : State) (p : Nat) (x : Port) : (s.setPort p x).clusters = s.clusters := by unfold State.setPort; split <;> rfl
@[simp] theorem State.setPort_expanders (s : State) (p : Nat) (x : Port) : (s.setPort p x).expanders = s.expanders := by unfold State.setPort; split <;> rfl
@[simp] theorem State.setPort_linkLost (s : State) (p : Nat) (x : Port) : (s.setPort p x).linkLost = s.linkLost := by unfold State.setPort; split <;> rfl
@[simp] theorem State.setPort_devid (s : State) (p : Nat) (x : Port) : (s.setPort p x).devid = s.devid := by unfold State.setPort; split <;> rfl
@[simp] theorem State.setPort_domain (s : State) (p : Nat) (x : Port) : (s.setPort p x).domain = s.domain := by unfold State.setPort; split <;> rfl
@[simp] theorem State.setPort_remotes (s : State) (p : Nat) (x : Port) : (s.setPort p x).remotes = s.remotes := by unfold State.setPort; split <;> rfl
@[simp] theorem State.setPort_dtime (s : State) (p : Nat) (x : Port) : (s.setPort p x).dtime = s.dtime := by unfold State.setPort; split <;> rfl
@[simp] theorem State.setPort_dstate (s : State) (p : Nat) (x : Port) : (s.setPort p x).dstate = s.dstate := by unfold State.setPort; split <;> rfl
@[simp] theorem State.setPort_lastSync (s : State) (p : Nat) (x : Port) : (s.setPort p x).lastSync = s.lastSync := by unfold State.setPort; split <;> rfl
@[simp] theorem State.setPort_slewOwed (s : State) (p : Nat) (x : Port) : (s.setPort p x).slewOwed = s.slewOwed := by unfold State.setPort; split <;> rfl
@[simp] theorem State.setPort_lockedOnce (s : State) (p : Nat) (x : Port) : (s.setPort p x).lockedOnce = s.lockedOnce := by unfold State.setPort; split <;> rfl
@[simp] theorem State.setPort_ptpDown (s : State) (p : Nat) (x : Port) : (s.setPort p x).ptpDown = s.ptpDown := by unfold State.setPort; split <;> rfl
@[simp] theorem State.setPort_slowClock (s : State) (p : Nat) (x : Port) : (s.setPort p x).slowClock = s.slowClock := by unfold State.setPort; split <;> rfl
@[simp] theorem State.setPort_halted (s : State) (p : Nat) (x : Port) : (s.setPort p x).halted = s.halted := by unfold State.setPort; split <;> rfl
@[simp] theorem State.setPort_schedule (s : State) (p : Nat) (x : Port) : (s.setPort p x).schedule = s.schedule := by unfold State.setPort; split <;> rfl
@[simp] theorem State.setPort_active (s : State) (p : Nat) (x : Port) : (s.setPort p x).active = s.active := by unfold State.setPort; split <;> rfl
@[simp] theorem State.setPort_stopped (s : State) (p : Nat) (x : Port) : (s.setPort p x).stopped = s.stopped := by unfold State.setPort; split <;> rfl
@[simp] theorem State.setPort_freeCount (s : State) (p : Nat) (x : Port) : (s.setPort p x).freeCount = s.freeCount := by unfold State.setPort; split <;> rfl
@[simp] theorem State.setPort_evSeq (s : State) (p : Nat) (x : Port) : (s.setPort p x).evSeq = s.evSeq := by unfold State.setPort; split <;> rfl

/-! ### Block.putS -/

@[simp] theorem Block.putS_pc (b : Block) (r : SReg) (v : W64) (p : Bool) : (b.putS r v p).pc = b.pc := by unfold Block.putS; split <;> rfl
@[simp] theorem Block.putS_a (b : Block) (r : SReg) (v : W64) (p : Bool) : (b.putS r v p).a = b.a := by unfold Block.putS; split <;> rfl
@[simp] theorem Block.putS_ap (b : Block) (r : SReg) (v : W64) (p : Bool) : (b.putS r v p).ap = b.ap := by unfold Block.putS; split <;> rfl
@[simp] theorem Block.putS_origin (b : Block) (r : SReg) (v : W64) (p : Bool) : (b.putS r v p).origin = b.origin := by unfold Block.putS; split <;> rfl
@[simp] theorem Block.putS_t (b : Block) (r : SReg) (v : W64) (p : Bool) : (b.putS r v p).t = b.t := by unfold Block.putS; split <;> rfl
@[simp] theorem Block.putS_sh (b : Block) (r : SReg) (v : W64) (p : Bool) : (b.putS r v p).sh = b.sh := by unfold Block.putS; split <;> rfl
@[simp] theorem Block.putS_m (b : Block) (r : SReg) (v : W64) (p : Bool) : (b.putS r v p).m = b.m := by unfold Block.putS; split <;> rfl
@[simp] theorem Block.putS_status (b : Block) (r : SReg) (v : W64) (p : Bool) : (b.putS r v p).status = b.status := by unfold Block.putS; split <;> rfl
@[simp] theorem Block.putS_gang (b : Block) (r : SReg) (v : W64) (p : Bool) : (b.putS r v p).gang = b.gang := by unfold Block.putS; split <;> rfl
@[simp] theorem Block.putS_seed (b : Block) (r : SReg) (v : W64) (p : Bool) : (b.putS r v p).seed = b.seed := by unfold Block.putS; split <;> rfl
@[simp] theorem Block.putS_flt (b : Block) (r : SReg) (v : W64) (p : Bool) : (b.putS r v p).flt = b.flt := by unfold Block.putS; split <;> rfl
@[simp] theorem Block.putS_wpc (b : Block) (r : SReg) (v : W64) (p : Bool) : (b.putS r v p).wpc = b.wpc := by unfold Block.putS; split <;> rfl
@[simp] theorem Block.putS_wcause (b : Block) (r : SReg) (v : W64) (p : Bool) : (b.putS r v p).wcause = b.wcause := by unfold Block.putS; split <;> rfl
@[simp] theorem Block.putS_wbend (b : Block) (r : SReg) (v : W64) (p : Bool) : (b.putS r v p).wbend = b.wbend := by unfold Block.putS; split <;> rfl
@[simp] theorem Block.putS_validity (b : Block) (r : SReg) (v : W64) (p : Bool) : (b.putS r v p).validity = b.validity := by unfold Block.putS; split <;> rfl
@[simp] theorem Block.putS_calls (b : Block) (r : SReg) (v : W64) (p : Bool) : (b.putS r v p).calls = b.calls := by unfold Block.putS; split <;> rfl
@[simp] theorem Block.putS_launch (b : Block) (r : SReg) (v : W64) (p : Bool) : (b.putS r v p).launch = b.launch := by unfold Block.putS; split <;> rfl
@[simp] theorem Block.putS_blklin (b : Block) (r : SReg) (v : W64) (p : Bool) : (b.putS r v p).blklin = b.blklin := by unfold Block.putS; split <;> rfl
@[simp] theorem Block.putS_arrived (b : Block) (r : SReg) (v : W64) (p : Bool) : (b.putS r v p).arrived = b.arrived := by unfold Block.putS; split <;> rfl
@[simp] theorem Block.putS_doneBar (b : Block) (r : SReg) (v : W64) (p : Bool) : (b.putS r v p).doneBar = b.doneBar := by unfold Block.putS; split <;> rfl
@[simp] theorem Block.putS_donePhase (b : Block) (r : SReg) (v : W64) (p : Bool) : (b.putS r v p).donePhase = b.donePhase := by unfold Block.putS; split <;> rfl
@[simp] theorem Block.putS_sendPos (b : Block) (r : SReg) (v : W64) (p : Bool) : (b.putS r v p).sendPos = b.sendPos := by unfold Block.putS; split <;> rfl
@[simp] theorem Block.putS_recvPos (b : Block) (r : SReg) (v : W64) (p : Bool) : (b.putS r v p).recvPos = b.recvPos := by unfold Block.putS; split <;> rfl
@[simp] theorem Block.putS_evq (b : Block) (r : SReg) (v : W64) (p : Bool) : (b.putS r v p).evq = b.evq := by unfold Block.putS; split <;> rfl
@[simp] theorem Block.putS_held (b : Block) (r : SReg) (v : W64) (p : Bool) : (b.putS r v p).held = b.held := by unfold Block.putS; split <;> rfl
@[simp] theorem Block.putS_superseded (b : Block) (r : SReg) (v : W64) (p : Bool) : (b.putS r v p).superseded = b.superseded := by unfold Block.putS; split <;> rfl
@[simp] theorem Block.putS_msgs (b : Block) (r : SReg) (v : W64) (p : Bool) : (b.putS r v p).msgs = b.msgs := by unfold Block.putS; split <;> rfl
@[simp] theorem Block.putS_parts (b : Block) (r : SReg) (v : W64) (p : Bool) : (b.putS r v p).parts = b.parts := by unfold Block.putS; split <;> rfl
@[simp] theorem Block.putS_readers (b : Block) (r : SReg) (v : W64) (p : Bool) : (b.putS r v p).readers = b.readers := by unfold Block.putS; split <;> rfl
@[simp] theorem Block.putS_sleep (b : Block) (r : SReg) (v : W64) (p : Bool) : (b.putS r v p).sleep = b.sleep := by unfold Block.putS; split <;> rfl
@[simp] theorem Block.putS_deps (b : Block) (r : SReg) (v : W64) (p : Bool) : (b.putS r v p).deps = b.deps := by unfold Block.putS; split <;> rfl
@[simp] theorem Block.putS_loans (b : Block) (r : SReg) (v : W64) (p : Bool) : (b.putS r v p).loans = b.loans := by unfold Block.putS; split <;> rfl
@[simp] theorem Block.putS_ended (b : Block) (r : SReg) (v : W64) (p : Bool) : (b.putS r v p).ended = b.ended := by unfold Block.putS; split <;> rfl
@[simp] theorem Block.putS_trapTime (b : Block) (r : SReg) (v : W64) (p : Bool) : (b.putS r v p).trapTime = b.trapTime := by unfold Block.putS; split <;> rfl
@[simp] theorem Block.putS_cancelled (b : Block) (r : SReg) (v : W64) (p : Bool) : (b.putS r v p).cancelled = b.cancelled := by unfold Block.putS; split <;> rfl
@[simp] theorem Block.putS_sys (b : Block) (r : SReg) (v : W64) (p : Bool) : (b.putS r v p).sys = b.sys := by unfold Block.putS; split <;> rfl
@[simp] theorem Block.putS_attempt (b : Block) (r : SReg) (v : W64) (p : Bool) : (b.putS r v p).attempt = b.attempt := by unfold Block.putS; split <;> rfl
@[simp] theorem Block.putS_started (b : Block) (r : SReg) (v : W64) (p : Bool) : (b.putS r v p).started = b.started := by unfold Block.putS; split <;> rfl

/-! ### Block.putA -/

@[simp] theorem Block.putA_pc (b : Block) (r : ARef) (v : W64) (p : Bool) : (b.putA r v p).pc = b.pc := rfl
@[simp] theorem Block.putA_s (b : Block) (r : ARef) (v : W64) (p : Bool) : (b.putA r v p).s = b.s := rfl
@[simp] theorem Block.putA_sp (b : Block) (r : ARef) (v : W64) (p : Bool) : (b.putA r v p).sp = b.sp := rfl
@[simp] theorem Block.putA_origin (b : Block) (r : ARef) (v : W64) (p : Bool) : (b.putA r v p).origin = b.origin := rfl
@[simp] theorem Block.putA_t (b : Block) (r : ARef) (v : W64) (p : Bool) : (b.putA r v p).t = b.t := rfl
@[simp] theorem Block.putA_sh (b : Block) (r : ARef) (v : W64) (p : Bool) : (b.putA r v p).sh = b.sh := rfl
@[simp] theorem Block.putA_m (b : Block) (r : ARef) (v : W64) (p : Bool) : (b.putA r v p).m = b.m := rfl
@[simp] theorem Block.putA_status (b : Block) (r : ARef) (v : W64) (p : Bool) : (b.putA r v p).status = b.status := rfl
@[simp] theorem Block.putA_gang (b : Block) (r : ARef) (v : W64) (p : Bool) : (b.putA r v p).gang = b.gang := rfl
@[simp] theorem Block.putA_seed (b : Block) (r : ARef) (v : W64) (p : Bool) : (b.putA r v p).seed = b.seed := rfl
@[simp] theorem Block.putA_flt (b : Block) (r : ARef) (v : W64) (p : Bool) : (b.putA r v p).flt = b.flt := rfl
@[simp] theorem Block.putA_wpc (b : Block) (r : ARef) (v : W64) (p : Bool) : (b.putA r v p).wpc = b.wpc := rfl
@[simp] theorem Block.putA_wcause (b : Block) (r : ARef) (v : W64) (p : Bool) : (b.putA r v p).wcause = b.wcause := rfl
@[simp] theorem Block.putA_wbend (b : Block) (r : ARef) (v : W64) (p : Bool) : (b.putA r v p).wbend = b.wbend := rfl
@[simp] theorem Block.putA_validity (b : Block) (r : ARef) (v : W64) (p : Bool) : (b.putA r v p).validity = b.validity := rfl
@[simp] theorem Block.putA_calls (b : Block) (r : ARef) (v : W64) (p : Bool) : (b.putA r v p).calls = b.calls := rfl
@[simp] theorem Block.putA_launch (b : Block) (r : ARef) (v : W64) (p : Bool) : (b.putA r v p).launch = b.launch := rfl
@[simp] theorem Block.putA_blklin (b : Block) (r : ARef) (v : W64) (p : Bool) : (b.putA r v p).blklin = b.blklin := rfl
@[simp] theorem Block.putA_arrived (b : Block) (r : ARef) (v : W64) (p : Bool) : (b.putA r v p).arrived = b.arrived := rfl
@[simp] theorem Block.putA_doneBar (b : Block) (r : ARef) (v : W64) (p : Bool) : (b.putA r v p).doneBar = b.doneBar := rfl
@[simp] theorem Block.putA_donePhase (b : Block) (r : ARef) (v : W64) (p : Bool) : (b.putA r v p).donePhase = b.donePhase := rfl
@[simp] theorem Block.putA_sendPos (b : Block) (r : ARef) (v : W64) (p : Bool) : (b.putA r v p).sendPos = b.sendPos := rfl
@[simp] theorem Block.putA_recvPos (b : Block) (r : ARef) (v : W64) (p : Bool) : (b.putA r v p).recvPos = b.recvPos := rfl
@[simp] theorem Block.putA_evq (b : Block) (r : ARef) (v : W64) (p : Bool) : (b.putA r v p).evq = b.evq := rfl
@[simp] theorem Block.putA_held (b : Block) (r : ARef) (v : W64) (p : Bool) : (b.putA r v p).held = b.held := rfl
@[simp] theorem Block.putA_superseded (b : Block) (r : ARef) (v : W64) (p : Bool) : (b.putA r v p).superseded = b.superseded := rfl
@[simp] theorem Block.putA_msgs (b : Block) (r : ARef) (v : W64) (p : Bool) : (b.putA r v p).msgs = b.msgs := rfl
@[simp] theorem Block.putA_parts (b : Block) (r : ARef) (v : W64) (p : Bool) : (b.putA r v p).parts = b.parts := rfl
@[simp] theorem Block.putA_readers (b : Block) (r : ARef) (v : W64) (p : Bool) : (b.putA r v p).readers = b.readers := rfl
@[simp] theorem Block.putA_sleep (b : Block) (r : ARef) (v : W64) (p : Bool) : (b.putA r v p).sleep = b.sleep := rfl
@[simp] theorem Block.putA_deps (b : Block) (r : ARef) (v : W64) (p : Bool) : (b.putA r v p).deps = b.deps := rfl
@[simp] theorem Block.putA_loans (b : Block) (r : ARef) (v : W64) (p : Bool) : (b.putA r v p).loans = b.loans := rfl
@[simp] theorem Block.putA_ended (b : Block) (r : ARef) (v : W64) (p : Bool) : (b.putA r v p).ended = b.ended := rfl
@[simp] theorem Block.putA_trapTime (b : Block) (r : ARef) (v : W64) (p : Bool) : (b.putA r v p).trapTime = b.trapTime := rfl
@[simp] theorem Block.putA_cancelled (b : Block) (r : ARef) (v : W64) (p : Bool) : (b.putA r v p).cancelled = b.cancelled := rfl
@[simp] theorem Block.putA_sys (b : Block) (r : ARef) (v : W64) (p : Bool) : (b.putA r v p).sys = b.sys := rfl
@[simp] theorem Block.putA_attempt (b : Block) (r : ARef) (v : W64) (p : Bool) : (b.putA r v p).attempt = b.attempt := rfl
@[simp] theorem Block.putA_started (b : Block) (r : ARef) (v : W64) (p : Bool) : (b.putA r v p).started = b.started := rfl

/-! ### Block.noteOrigin -/

@[simp] theorem Block.noteOrigin_pc (b : Block) (o : Option Origin) : (b.noteOrigin o).pc = b.pc := by unfold Block.noteOrigin; split <;> rfl
@[simp] theorem Block.noteOrigin_s (b : Block) (o : Option Origin) : (b.noteOrigin o).s = b.s := by unfold Block.noteOrigin; split <;> rfl
@[simp] theorem Block.noteOrigin_sp (b : Block) (o : Option Origin) : (b.noteOrigin o).sp = b.sp := by unfold Block.noteOrigin; split <;> rfl
@[simp] theorem Block.noteOrigin_a (b : Block) (o : Option Origin) : (b.noteOrigin o).a = b.a := by unfold Block.noteOrigin; split <;> rfl
@[simp] theorem Block.noteOrigin_ap (b : Block) (o : Option Origin) : (b.noteOrigin o).ap = b.ap := by unfold Block.noteOrigin; split <;> rfl
@[simp] theorem Block.noteOrigin_t (b : Block) (o : Option Origin) : (b.noteOrigin o).t = b.t := by unfold Block.noteOrigin; split <;> rfl
@[simp] theorem Block.noteOrigin_sh (b : Block) (o : Option Origin) : (b.noteOrigin o).sh = b.sh := by unfold Block.noteOrigin; split <;> rfl
@[simp] theorem Block.noteOrigin_m (b : Block) (o : Option Origin) : (b.noteOrigin o).m = b.m := by unfold Block.noteOrigin; split <;> rfl
@[simp] theorem Block.noteOrigin_status (b : Block) (o : Option Origin) : (b.noteOrigin o).status = b.status := by unfold Block.noteOrigin; split <;> rfl
@[simp] theorem Block.noteOrigin_gang (b : Block) (o : Option Origin) : (b.noteOrigin o).gang = b.gang := by unfold Block.noteOrigin; split <;> rfl
@[simp] theorem Block.noteOrigin_seed (b : Block) (o : Option Origin) : (b.noteOrigin o).seed = b.seed := by unfold Block.noteOrigin; split <;> rfl
@[simp] theorem Block.noteOrigin_flt (b : Block) (o : Option Origin) : (b.noteOrigin o).flt = b.flt := by unfold Block.noteOrigin; split <;> rfl
@[simp] theorem Block.noteOrigin_wpc (b : Block) (o : Option Origin) : (b.noteOrigin o).wpc = b.wpc := by unfold Block.noteOrigin; split <;> rfl
@[simp] theorem Block.noteOrigin_wcause (b : Block) (o : Option Origin) : (b.noteOrigin o).wcause = b.wcause := by unfold Block.noteOrigin; split <;> rfl
@[simp] theorem Block.noteOrigin_wbend (b : Block) (o : Option Origin) : (b.noteOrigin o).wbend = b.wbend := by unfold Block.noteOrigin; split <;> rfl
@[simp] theorem Block.noteOrigin_validity (b : Block) (o : Option Origin) : (b.noteOrigin o).validity = b.validity := by unfold Block.noteOrigin; split <;> rfl
@[simp] theorem Block.noteOrigin_calls (b : Block) (o : Option Origin) : (b.noteOrigin o).calls = b.calls := by unfold Block.noteOrigin; split <;> rfl
@[simp] theorem Block.noteOrigin_launch (b : Block) (o : Option Origin) : (b.noteOrigin o).launch = b.launch := by unfold Block.noteOrigin; split <;> rfl
@[simp] theorem Block.noteOrigin_blklin (b : Block) (o : Option Origin) : (b.noteOrigin o).blklin = b.blklin := by unfold Block.noteOrigin; split <;> rfl
@[simp] theorem Block.noteOrigin_arrived (b : Block) (o : Option Origin) : (b.noteOrigin o).arrived = b.arrived := by unfold Block.noteOrigin; split <;> rfl
@[simp] theorem Block.noteOrigin_doneBar (b : Block) (o : Option Origin) : (b.noteOrigin o).doneBar = b.doneBar := by unfold Block.noteOrigin; split <;> rfl
@[simp] theorem Block.noteOrigin_donePhase (b : Block) (o : Option Origin) : (b.noteOrigin o).donePhase = b.donePhase := by unfold Block.noteOrigin; split <;> rfl
@[simp] theorem Block.noteOrigin_sendPos (b : Block) (o : Option Origin) : (b.noteOrigin o).sendPos = b.sendPos := by unfold Block.noteOrigin; split <;> rfl
@[simp] theorem Block.noteOrigin_recvPos (b : Block) (o : Option Origin) : (b.noteOrigin o).recvPos = b.recvPos := by unfold Block.noteOrigin; split <;> rfl
@[simp] theorem Block.noteOrigin_evq (b : Block) (o : Option Origin) : (b.noteOrigin o).evq = b.evq := by unfold Block.noteOrigin; split <;> rfl
@[simp] theorem Block.noteOrigin_held (b : Block) (o : Option Origin) : (b.noteOrigin o).held = b.held := by unfold Block.noteOrigin; split <;> rfl
@[simp] theorem Block.noteOrigin_superseded (b : Block) (o : Option Origin) : (b.noteOrigin o).superseded = b.superseded := by unfold Block.noteOrigin; split <;> rfl
@[simp] theorem Block.noteOrigin_msgs (b : Block) (o : Option Origin) : (b.noteOrigin o).msgs = b.msgs := by unfold Block.noteOrigin; split <;> rfl
@[simp] theorem Block.noteOrigin_parts (b : Block) (o : Option Origin) : (b.noteOrigin o).parts = b.parts := by unfold Block.noteOrigin; split <;> rfl
@[simp] theorem Block.noteOrigin_readers (b : Block) (o : Option Origin) : (b.noteOrigin o).readers = b.readers := by unfold Block.noteOrigin; split <;> rfl
@[simp] theorem Block.noteOrigin_sleep (b : Block) (o : Option Origin) : (b.noteOrigin o).sleep = b.sleep := by unfold Block.noteOrigin; split <;> rfl
@[simp] theorem Block.noteOrigin_deps (b : Block) (o : Option Origin) : (b.noteOrigin o).deps = b.deps := by unfold Block.noteOrigin; split <;> rfl
@[simp] theorem Block.noteOrigin_loans (b : Block) (o : Option Origin) : (b.noteOrigin o).loans = b.loans := by unfold Block.noteOrigin; split <;> rfl
@[simp] theorem Block.noteOrigin_ended (b : Block) (o : Option Origin) : (b.noteOrigin o).ended = b.ended := by unfold Block.noteOrigin; split <;> rfl
@[simp] theorem Block.noteOrigin_trapTime (b : Block) (o : Option Origin) : (b.noteOrigin o).trapTime = b.trapTime := by unfold Block.noteOrigin; split <;> rfl
@[simp] theorem Block.noteOrigin_cancelled (b : Block) (o : Option Origin) : (b.noteOrigin o).cancelled = b.cancelled := by unfold Block.noteOrigin; split <;> rfl
@[simp] theorem Block.noteOrigin_sys (b : Block) (o : Option Origin) : (b.noteOrigin o).sys = b.sys := by unfold Block.noteOrigin; split <;> rfl
@[simp] theorem Block.noteOrigin_attempt (b : Block) (o : Option Origin) : (b.noteOrigin o).attempt = b.attempt := by unfold Block.noteOrigin; split <;> rfl
@[simp] theorem Block.noteOrigin_started (b : Block) (o : Option Origin) : (b.noteOrigin o).started = b.started := by unfold Block.noteOrigin; split <;> rfl

/-! ### Block.advance -/

@[simp] theorem Block.advance_s (b : Block) : (b.advance).s = b.s := rfl
@[simp] theorem Block.advance_sp (b : Block) : (b.advance).sp = b.sp := rfl
@[simp] theorem Block.advance_a (b : Block) : (b.advance).a = b.a := rfl
@[simp] theorem Block.advance_ap (b : Block) : (b.advance).ap = b.ap := rfl
@[simp] theorem Block.advance_origin (b : Block) : (b.advance).origin = b.origin := rfl
@[simp] theorem Block.advance_t (b : Block) : (b.advance).t = b.t := rfl
@[simp] theorem Block.advance_sh (b : Block) : (b.advance).sh = b.sh := rfl
@[simp] theorem Block.advance_m (b : Block) : (b.advance).m = b.m := rfl
@[simp] theorem Block.advance_status (b : Block) : (b.advance).status = b.status := rfl
@[simp] theorem Block.advance_gang (b : Block) : (b.advance).gang = b.gang := rfl
@[simp] theorem Block.advance_seed (b : Block) : (b.advance).seed = b.seed := rfl
@[simp] theorem Block.advance_flt (b : Block) : (b.advance).flt = b.flt := rfl
@[simp] theorem Block.advance_wpc (b : Block) : (b.advance).wpc = b.wpc := rfl
@[simp] theorem Block.advance_wcause (b : Block) : (b.advance).wcause = b.wcause := rfl
@[simp] theorem Block.advance_wbend (b : Block) : (b.advance).wbend = b.wbend := rfl
@[simp] theorem Block.advance_validity (b : Block) : (b.advance).validity = b.validity := rfl
@[simp] theorem Block.advance_calls (b : Block) : (b.advance).calls = b.calls := rfl
@[simp] theorem Block.advance_launch (b : Block) : (b.advance).launch = b.launch := rfl
@[simp] theorem Block.advance_blklin (b : Block) : (b.advance).blklin = b.blklin := rfl
@[simp] theorem Block.advance_arrived (b : Block) : (b.advance).arrived = b.arrived := rfl
@[simp] theorem Block.advance_doneBar (b : Block) : (b.advance).doneBar = b.doneBar := rfl
@[simp] theorem Block.advance_donePhase (b : Block) : (b.advance).donePhase = b.donePhase := rfl
@[simp] theorem Block.advance_sendPos (b : Block) : (b.advance).sendPos = b.sendPos := rfl
@[simp] theorem Block.advance_recvPos (b : Block) : (b.advance).recvPos = b.recvPos := rfl
@[simp] theorem Block.advance_evq (b : Block) : (b.advance).evq = b.evq := rfl
@[simp] theorem Block.advance_held (b : Block) : (b.advance).held = b.held := rfl
@[simp] theorem Block.advance_superseded (b : Block) : (b.advance).superseded = b.superseded := rfl
@[simp] theorem Block.advance_msgs (b : Block) : (b.advance).msgs = b.msgs := rfl
@[simp] theorem Block.advance_parts (b : Block) : (b.advance).parts = b.parts := rfl
@[simp] theorem Block.advance_readers (b : Block) : (b.advance).readers = b.readers := rfl
@[simp] theorem Block.advance_sleep (b : Block) : (b.advance).sleep = b.sleep := rfl
@[simp] theorem Block.advance_deps (b : Block) : (b.advance).deps = b.deps := rfl
@[simp] theorem Block.advance_loans (b : Block) : (b.advance).loans = b.loans := rfl
@[simp] theorem Block.advance_ended (b : Block) : (b.advance).ended = b.ended := rfl
@[simp] theorem Block.advance_trapTime (b : Block) : (b.advance).trapTime = b.trapTime := rfl
@[simp] theorem Block.advance_cancelled (b : Block) : (b.advance).cancelled = b.cancelled := rfl
@[simp] theorem Block.advance_sys (b : Block) : (b.advance).sys = b.sys := rfl
@[simp] theorem Block.advance_attempt (b : Block) : (b.advance).attempt = b.attempt := rfl
@[simp] theorem Block.advance_started (b : Block) : (b.advance).started = b.started := rfl

/-! ### Block.putT -/

@[simp] theorem Block.putT_pc (b : Block) (t : TReg) (x : Option Tile) : (b.putT t x).pc = b.pc := rfl
@[simp] theorem Block.putT_s (b : Block) (t : TReg) (x : Option Tile) : (b.putT t x).s = b.s := rfl
@[simp] theorem Block.putT_sp (b : Block) (t : TReg) (x : Option Tile) : (b.putT t x).sp = b.sp := rfl
@[simp] theorem Block.putT_a (b : Block) (t : TReg) (x : Option Tile) : (b.putT t x).a = b.a := rfl
@[simp] theorem Block.putT_ap (b : Block) (t : TReg) (x : Option Tile) : (b.putT t x).ap = b.ap := rfl
@[simp] theorem Block.putT_origin (b : Block) (t : TReg) (x : Option Tile) : (b.putT t x).origin = b.origin := rfl
@[simp] theorem Block.putT_sh (b : Block) (t : TReg) (x : Option Tile) : (b.putT t x).sh = b.sh := rfl
@[simp] theorem Block.putT_m (b : Block) (t : TReg) (x : Option Tile) : (b.putT t x).m = b.m := rfl
@[simp] theorem Block.putT_status (b : Block) (t : TReg) (x : Option Tile) : (b.putT t x).status = b.status := rfl
@[simp] theorem Block.putT_gang (b : Block) (t : TReg) (x : Option Tile) : (b.putT t x).gang = b.gang := rfl
@[simp] theorem Block.putT_seed (b : Block) (t : TReg) (x : Option Tile) : (b.putT t x).seed = b.seed := rfl
@[simp] theorem Block.putT_flt (b : Block) (t : TReg) (x : Option Tile) : (b.putT t x).flt = b.flt := rfl
@[simp] theorem Block.putT_wpc (b : Block) (t : TReg) (x : Option Tile) : (b.putT t x).wpc = b.wpc := rfl
@[simp] theorem Block.putT_wcause (b : Block) (t : TReg) (x : Option Tile) : (b.putT t x).wcause = b.wcause := rfl
@[simp] theorem Block.putT_wbend (b : Block) (t : TReg) (x : Option Tile) : (b.putT t x).wbend = b.wbend := rfl
@[simp] theorem Block.putT_validity (b : Block) (t : TReg) (x : Option Tile) : (b.putT t x).validity = b.validity := rfl
@[simp] theorem Block.putT_calls (b : Block) (t : TReg) (x : Option Tile) : (b.putT t x).calls = b.calls := rfl
@[simp] theorem Block.putT_launch (b : Block) (t : TReg) (x : Option Tile) : (b.putT t x).launch = b.launch := rfl
@[simp] theorem Block.putT_blklin (b : Block) (t : TReg) (x : Option Tile) : (b.putT t x).blklin = b.blklin := rfl
@[simp] theorem Block.putT_arrived (b : Block) (t : TReg) (x : Option Tile) : (b.putT t x).arrived = b.arrived := rfl
@[simp] theorem Block.putT_doneBar (b : Block) (t : TReg) (x : Option Tile) : (b.putT t x).doneBar = b.doneBar := rfl
@[simp] theorem Block.putT_donePhase (b : Block) (t : TReg) (x : Option Tile) : (b.putT t x).donePhase = b.donePhase := rfl
@[simp] theorem Block.putT_sendPos (b : Block) (t : TReg) (x : Option Tile) : (b.putT t x).sendPos = b.sendPos := rfl
@[simp] theorem Block.putT_recvPos (b : Block) (t : TReg) (x : Option Tile) : (b.putT t x).recvPos = b.recvPos := rfl
@[simp] theorem Block.putT_evq (b : Block) (t : TReg) (x : Option Tile) : (b.putT t x).evq = b.evq := rfl
@[simp] theorem Block.putT_held (b : Block) (t : TReg) (x : Option Tile) : (b.putT t x).held = b.held := rfl
@[simp] theorem Block.putT_superseded (b : Block) (t : TReg) (x : Option Tile) : (b.putT t x).superseded = b.superseded := rfl
@[simp] theorem Block.putT_msgs (b : Block) (t : TReg) (x : Option Tile) : (b.putT t x).msgs = b.msgs := rfl
@[simp] theorem Block.putT_parts (b : Block) (t : TReg) (x : Option Tile) : (b.putT t x).parts = b.parts := rfl
@[simp] theorem Block.putT_readers (b : Block) (t : TReg) (x : Option Tile) : (b.putT t x).readers = b.readers := rfl
@[simp] theorem Block.putT_sleep (b : Block) (t : TReg) (x : Option Tile) : (b.putT t x).sleep = b.sleep := rfl
@[simp] theorem Block.putT_deps (b : Block) (t : TReg) (x : Option Tile) : (b.putT t x).deps = b.deps := rfl
@[simp] theorem Block.putT_loans (b : Block) (t : TReg) (x : Option Tile) : (b.putT t x).loans = b.loans := rfl
@[simp] theorem Block.putT_ended (b : Block) (t : TReg) (x : Option Tile) : (b.putT t x).ended = b.ended := rfl
@[simp] theorem Block.putT_trapTime (b : Block) (t : TReg) (x : Option Tile) : (b.putT t x).trapTime = b.trapTime := rfl
@[simp] theorem Block.putT_cancelled (b : Block) (t : TReg) (x : Option Tile) : (b.putT t x).cancelled = b.cancelled := rfl
@[simp] theorem Block.putT_sys (b : Block) (t : TReg) (x : Option Tile) : (b.putT t x).sys = b.sys := rfl
@[simp] theorem Block.putT_attempt (b : Block) (t : TReg) (x : Option Tile) : (b.putT t x).attempt = b.attempt := rfl
@[simp] theorem Block.putT_started (b : Block) (t : TReg) (x : Option Tile) : (b.putT t x).started = b.started := rfl

/-! ### Block.putSh -/

@[simp] theorem Block.putSh_pc (b : Block) (r : ShReg) (x : ShapeRec) : (b.putSh r x).pc = b.pc := rfl
@[simp] theorem Block.putSh_s (b : Block) (r : ShReg) (x : ShapeRec) : (b.putSh r x).s = b.s := rfl
@[simp] theorem Block.putSh_sp (b : Block) (r : ShReg) (x : ShapeRec) : (b.putSh r x).sp = b.sp := rfl
@[simp] theorem Block.putSh_a (b : Block) (r : ShReg) (x : ShapeRec) : (b.putSh r x).a = b.a := rfl
@[simp] theorem Block.putSh_ap (b : Block) (r : ShReg) (x : ShapeRec) : (b.putSh r x).ap = b.ap := rfl
@[simp] theorem Block.putSh_origin (b : Block) (r : ShReg) (x : ShapeRec) : (b.putSh r x).origin = b.origin := rfl
@[simp] theorem Block.putSh_t (b : Block) (r : ShReg) (x : ShapeRec) : (b.putSh r x).t = b.t := rfl
@[simp] theorem Block.putSh_m (b : Block) (r : ShReg) (x : ShapeRec) : (b.putSh r x).m = b.m := rfl
@[simp] theorem Block.putSh_status (b : Block) (r : ShReg) (x : ShapeRec) : (b.putSh r x).status = b.status := rfl
@[simp] theorem Block.putSh_gang (b : Block) (r : ShReg) (x : ShapeRec) : (b.putSh r x).gang = b.gang := rfl
@[simp] theorem Block.putSh_seed (b : Block) (r : ShReg) (x : ShapeRec) : (b.putSh r x).seed = b.seed := rfl
@[simp] theorem Block.putSh_flt (b : Block) (r : ShReg) (x : ShapeRec) : (b.putSh r x).flt = b.flt := rfl
@[simp] theorem Block.putSh_wpc (b : Block) (r : ShReg) (x : ShapeRec) : (b.putSh r x).wpc = b.wpc := rfl
@[simp] theorem Block.putSh_wcause (b : Block) (r : ShReg) (x : ShapeRec) : (b.putSh r x).wcause = b.wcause := rfl
@[simp] theorem Block.putSh_wbend (b : Block) (r : ShReg) (x : ShapeRec) : (b.putSh r x).wbend = b.wbend := rfl
@[simp] theorem Block.putSh_validity (b : Block) (r : ShReg) (x : ShapeRec) : (b.putSh r x).validity = b.validity := rfl
@[simp] theorem Block.putSh_calls (b : Block) (r : ShReg) (x : ShapeRec) : (b.putSh r x).calls = b.calls := rfl
@[simp] theorem Block.putSh_launch (b : Block) (r : ShReg) (x : ShapeRec) : (b.putSh r x).launch = b.launch := rfl
@[simp] theorem Block.putSh_blklin (b : Block) (r : ShReg) (x : ShapeRec) : (b.putSh r x).blklin = b.blklin := rfl
@[simp] theorem Block.putSh_arrived (b : Block) (r : ShReg) (x : ShapeRec) : (b.putSh r x).arrived = b.arrived := rfl
@[simp] theorem Block.putSh_doneBar (b : Block) (r : ShReg) (x : ShapeRec) : (b.putSh r x).doneBar = b.doneBar := rfl
@[simp] theorem Block.putSh_donePhase (b : Block) (r : ShReg) (x : ShapeRec) : (b.putSh r x).donePhase = b.donePhase := rfl
@[simp] theorem Block.putSh_sendPos (b : Block) (r : ShReg) (x : ShapeRec) : (b.putSh r x).sendPos = b.sendPos := rfl
@[simp] theorem Block.putSh_recvPos (b : Block) (r : ShReg) (x : ShapeRec) : (b.putSh r x).recvPos = b.recvPos := rfl
@[simp] theorem Block.putSh_evq (b : Block) (r : ShReg) (x : ShapeRec) : (b.putSh r x).evq = b.evq := rfl
@[simp] theorem Block.putSh_held (b : Block) (r : ShReg) (x : ShapeRec) : (b.putSh r x).held = b.held := rfl
@[simp] theorem Block.putSh_superseded (b : Block) (r : ShReg) (x : ShapeRec) : (b.putSh r x).superseded = b.superseded := rfl
@[simp] theorem Block.putSh_msgs (b : Block) (r : ShReg) (x : ShapeRec) : (b.putSh r x).msgs = b.msgs := rfl
@[simp] theorem Block.putSh_parts (b : Block) (r : ShReg) (x : ShapeRec) : (b.putSh r x).parts = b.parts := rfl
@[simp] theorem Block.putSh_readers (b : Block) (r : ShReg) (x : ShapeRec) : (b.putSh r x).readers = b.readers := rfl
@[simp] theorem Block.putSh_sleep (b : Block) (r : ShReg) (x : ShapeRec) : (b.putSh r x).sleep = b.sleep := rfl
@[simp] theorem Block.putSh_deps (b : Block) (r : ShReg) (x : ShapeRec) : (b.putSh r x).deps = b.deps := rfl
@[simp] theorem Block.putSh_loans (b : Block) (r : ShReg) (x : ShapeRec) : (b.putSh r x).loans = b.loans := rfl
@[simp] theorem Block.putSh_ended (b : Block) (r : ShReg) (x : ShapeRec) : (b.putSh r x).ended = b.ended := rfl
@[simp] theorem Block.putSh_trapTime (b : Block) (r : ShReg) (x : ShapeRec) : (b.putSh r x).trapTime = b.trapTime := rfl
@[simp] theorem Block.putSh_cancelled (b : Block) (r : ShReg) (x : ShapeRec) : (b.putSh r x).cancelled = b.cancelled := rfl
@[simp] theorem Block.putSh_sys (b : Block) (r : ShReg) (x : ShapeRec) : (b.putSh r x).sys = b.sys := rfl
@[simp] theorem Block.putSh_attempt (b : Block) (r : ShReg) (x : ShapeRec) : (b.putSh r x).attempt = b.attempt := rfl
@[simp] theorem Block.putSh_started (b : Block) (r : ShReg) (x : ShapeRec) : (b.putSh r x).started = b.started := rfl

/-! ### Block.putM -/

@[simp] theorem Block.putM_pc (b : Block) (r : MReg) (x : Mask) : (b.putM r x).pc = b.pc := rfl
@[simp] theorem Block.putM_s (b : Block) (r : MReg) (x : Mask) : (b.putM r x).s = b.s := rfl
@[simp] theorem Block.putM_sp (b : Block) (r : MReg) (x : Mask) : (b.putM r x).sp = b.sp := rfl
@[simp] theorem Block.putM_a (b : Block) (r : MReg) (x : Mask) : (b.putM r x).a = b.a := rfl
@[simp] theorem Block.putM_ap (b : Block) (r : MReg) (x : Mask) : (b.putM r x).ap = b.ap := rfl
@[simp] theorem Block.putM_origin (b : Block) (r : MReg) (x : Mask) : (b.putM r x).origin = b.origin := rfl
@[simp] theorem Block.putM_t (b : Block) (r : MReg) (x : Mask) : (b.putM r x).t = b.t := rfl
@[simp] theorem Block.putM_sh (b : Block) (r : MReg) (x : Mask) : (b.putM r x).sh = b.sh := rfl
@[simp] theorem Block.putM_status (b : Block) (r : MReg) (x : Mask) : (b.putM r x).status = b.status := rfl
@[simp] theorem Block.putM_gang (b : Block) (r : MReg) (x : Mask) : (b.putM r x).gang = b.gang := rfl
@[simp] theorem Block.putM_seed (b : Block) (r : MReg) (x : Mask) : (b.putM r x).seed = b.seed := rfl
@[simp] theorem Block.putM_flt (b : Block) (r : MReg) (x : Mask) : (b.putM r x).flt = b.flt := rfl
@[simp] theorem Block.putM_wpc (b : Block) (r : MReg) (x : Mask) : (b.putM r x).wpc = b.wpc := rfl
@[simp] theorem Block.putM_wcause (b : Block) (r : MReg) (x : Mask) : (b.putM r x).wcause = b.wcause := rfl
@[simp] theorem Block.putM_wbend (b : Block) (r : MReg) (x : Mask) : (b.putM r x).wbend = b.wbend := rfl
@[simp] theorem Block.putM_validity (b : Block) (r : MReg) (x : Mask) : (b.putM r x).validity = b.validity := rfl
@[simp] theorem Block.putM_calls (b : Block) (r : MReg) (x : Mask) : (b.putM r x).calls = b.calls := rfl
@[simp] theorem Block.putM_launch (b : Block) (r : MReg) (x : Mask) : (b.putM r x).launch = b.launch := rfl
@[simp] theorem Block.putM_blklin (b : Block) (r : MReg) (x : Mask) : (b.putM r x).blklin = b.blklin := rfl
@[simp] theorem Block.putM_arrived (b : Block) (r : MReg) (x : Mask) : (b.putM r x).arrived = b.arrived := rfl
@[simp] theorem Block.putM_doneBar (b : Block) (r : MReg) (x : Mask) : (b.putM r x).doneBar = b.doneBar := rfl
@[simp] theorem Block.putM_donePhase (b : Block) (r : MReg) (x : Mask) : (b.putM r x).donePhase = b.donePhase := rfl
@[simp] theorem Block.putM_sendPos (b : Block) (r : MReg) (x : Mask) : (b.putM r x).sendPos = b.sendPos := rfl
@[simp] theorem Block.putM_recvPos (b : Block) (r : MReg) (x : Mask) : (b.putM r x).recvPos = b.recvPos := rfl
@[simp] theorem Block.putM_evq (b : Block) (r : MReg) (x : Mask) : (b.putM r x).evq = b.evq := rfl
@[simp] theorem Block.putM_held (b : Block) (r : MReg) (x : Mask) : (b.putM r x).held = b.held := rfl
@[simp] theorem Block.putM_superseded (b : Block) (r : MReg) (x : Mask) : (b.putM r x).superseded = b.superseded := rfl
@[simp] theorem Block.putM_msgs (b : Block) (r : MReg) (x : Mask) : (b.putM r x).msgs = b.msgs := rfl
@[simp] theorem Block.putM_parts (b : Block) (r : MReg) (x : Mask) : (b.putM r x).parts = b.parts := rfl
@[simp] theorem Block.putM_readers (b : Block) (r : MReg) (x : Mask) : (b.putM r x).readers = b.readers := rfl
@[simp] theorem Block.putM_sleep (b : Block) (r : MReg) (x : Mask) : (b.putM r x).sleep = b.sleep := rfl
@[simp] theorem Block.putM_deps (b : Block) (r : MReg) (x : Mask) : (b.putM r x).deps = b.deps := rfl
@[simp] theorem Block.putM_loans (b : Block) (r : MReg) (x : Mask) : (b.putM r x).loans = b.loans := rfl
@[simp] theorem Block.putM_ended (b : Block) (r : MReg) (x : Mask) : (b.putM r x).ended = b.ended := rfl
@[simp] theorem Block.putM_trapTime (b : Block) (r : MReg) (x : Mask) : (b.putM r x).trapTime = b.trapTime := rfl
@[simp] theorem Block.putM_cancelled (b : Block) (r : MReg) (x : Mask) : (b.putM r x).cancelled = b.cancelled := rfl
@[simp] theorem Block.putM_sys (b : Block) (r : MReg) (x : Mask) : (b.putM r x).sys = b.sys := rfl
@[simp] theorem Block.putM_attempt (b : Block) (r : MReg) (x : Mask) : (b.putM r x).attempt = b.attempt := rfl
@[simp] theorem Block.putM_started (b : Block) (r : MReg) (x : Mask) : (b.putM r x).started = b.started := rfl

/-! ### Block.raise -/

@[simp] theorem Block.raise_pc (b : Block) (f : W64) : (b.raise f).pc = b.pc := rfl
@[simp] theorem Block.raise_s (b : Block) (f : W64) : (b.raise f).s = b.s := rfl
@[simp] theorem Block.raise_sp (b : Block) (f : W64) : (b.raise f).sp = b.sp := rfl
@[simp] theorem Block.raise_a (b : Block) (f : W64) : (b.raise f).a = b.a := rfl
@[simp] theorem Block.raise_ap (b : Block) (f : W64) : (b.raise f).ap = b.ap := rfl
@[simp] theorem Block.raise_origin (b : Block) (f : W64) : (b.raise f).origin = b.origin := rfl
@[simp] theorem Block.raise_t (b : Block) (f : W64) : (b.raise f).t = b.t := rfl
@[simp] theorem Block.raise_sh (b : Block) (f : W64) : (b.raise f).sh = b.sh := rfl
@[simp] theorem Block.raise_m (b : Block) (f : W64) : (b.raise f).m = b.m := rfl
@[simp] theorem Block.raise_gang (b : Block) (f : W64) : (b.raise f).gang = b.gang := rfl
@[simp] theorem Block.raise_seed (b : Block) (f : W64) : (b.raise f).seed = b.seed := rfl
@[simp] theorem Block.raise_flt (b : Block) (f : W64) : (b.raise f).flt = b.flt := rfl
@[simp] theorem Block.raise_wpc (b : Block) (f : W64) : (b.raise f).wpc = b.wpc := rfl
@[simp] theorem Block.raise_wcause (b : Block) (f : W64) : (b.raise f).wcause = b.wcause := rfl
@[simp] theorem Block.raise_wbend (b : Block) (f : W64) : (b.raise f).wbend = b.wbend := rfl
@[simp] theorem Block.raise_validity (b : Block) (f : W64) : (b.raise f).validity = b.validity := rfl
@[simp] theorem Block.raise_calls (b : Block) (f : W64) : (b.raise f).calls = b.calls := rfl
@[simp] theorem Block.raise_launch (b : Block) (f : W64) : (b.raise f).launch = b.launch := rfl
@[simp] theorem Block.raise_blklin (b : Block) (f : W64) : (b.raise f).blklin = b.blklin := rfl
@[simp] theorem Block.raise_arrived (b : Block) (f : W64) : (b.raise f).arrived = b.arrived := rfl
@[simp] theorem Block.raise_doneBar (b : Block) (f : W64) : (b.raise f).doneBar = b.doneBar := rfl
@[simp] theorem Block.raise_donePhase (b : Block) (f : W64) : (b.raise f).donePhase = b.donePhase := rfl
@[simp] theorem Block.raise_sendPos (b : Block) (f : W64) : (b.raise f).sendPos = b.sendPos := rfl
@[simp] theorem Block.raise_recvPos (b : Block) (f : W64) : (b.raise f).recvPos = b.recvPos := rfl
@[simp] theorem Block.raise_evq (b : Block) (f : W64) : (b.raise f).evq = b.evq := rfl
@[simp] theorem Block.raise_held (b : Block) (f : W64) : (b.raise f).held = b.held := rfl
@[simp] theorem Block.raise_superseded (b : Block) (f : W64) : (b.raise f).superseded = b.superseded := rfl
@[simp] theorem Block.raise_msgs (b : Block) (f : W64) : (b.raise f).msgs = b.msgs := rfl
@[simp] theorem Block.raise_parts (b : Block) (f : W64) : (b.raise f).parts = b.parts := rfl
@[simp] theorem Block.raise_readers (b : Block) (f : W64) : (b.raise f).readers = b.readers := rfl
@[simp] theorem Block.raise_sleep (b : Block) (f : W64) : (b.raise f).sleep = b.sleep := rfl
@[simp] theorem Block.raise_deps (b : Block) (f : W64) : (b.raise f).deps = b.deps := rfl
@[simp] theorem Block.raise_loans (b : Block) (f : W64) : (b.raise f).loans = b.loans := rfl
@[simp] theorem Block.raise_ended (b : Block) (f : W64) : (b.raise f).ended = b.ended := rfl
@[simp] theorem Block.raise_trapTime (b : Block) (f : W64) : (b.raise f).trapTime = b.trapTime := rfl
@[simp] theorem Block.raise_cancelled (b : Block) (f : W64) : (b.raise f).cancelled = b.cancelled := rfl
@[simp] theorem Block.raise_sys (b : Block) (f : W64) : (b.raise f).sys = b.sys := rfl
@[simp] theorem Block.raise_attempt (b : Block) (f : W64) : (b.raise f).attempt = b.attempt := rfl
@[simp] theorem Block.raise_started (b : Block) (f : W64) : (b.raise f).started = b.started := rfl

/-! ### What each update writes -/

@[simp] theorem Block.advance_pc (b : Block) : b.advance.pc = b.pc + 8 := rfl
@[simp] theorem Block.raise_status (b : Block) (f : W64) : (b.raise f).status = b.status ||| f := rfl
@[simp] theorem State.bumpFree_freeCount (s : State) : s.bumpFree.freeCount = s.freeCount + 1 := rfl

/-! ### Keyed lists -/

section Keyed
variable {κ : Type} {α : Type} [DecidableEq κ]

@[simp] theorem kvGet_kvSet_same (ord : κ → Nat) (k : κ) (v : α) (l : List (κ × α)) : kvGet k (kvSet ord k v l) = some v := by
  induction l with
  | nil => simp [kvSet, kvGet]
  | cons p l ih =>
    obtain ⟨k', w⟩ := p
    simp only [kvSet]
    split
    · simp [kvGet]
    · split
      · simp [kvGet]
      · next h _ => simp [kvGet, h, ih]

theorem kvGet_kvSet_other (ord : κ → Nat) {k j : κ} (h : j ≠ k) (v : α) (l : List (κ × α)) :
    kvGet j (kvSet ord k v l) = kvGet j l := by
  induction l with
  | nil => simp [kvSet, kvGet, h.symm]
  | cons p l ih =>
    obtain ⟨k', w⟩ := p
    simp only [kvSet]
    split
    · next e => subst e; simp [kvGet, h.symm]
    · split
      · simp [kvGet, h.symm]
      · simp only [kvGet, ih]

theorem kvGet_kvDrop_other {k j : κ} (h : j ≠ k) (l : List (κ × α)) : kvGet j (kvDrop k l) = kvGet j l := by
  induction l with
  | nil => rfl
  | cons p l ih =>
    obtain ⟨k', w⟩ := p
    by_cases e : k' = k
    · subst e; simpa [kvDrop, kvGet, h.symm] using ih
    · by_cases e2 : k' = j
      · subst e2; simp [kvDrop, kvGet, h]
      · simpa [kvDrop, kvGet, e, e2, List.filter_cons] using ih

@[simp] theorem kvGet_kvDrop_same (k : κ) (l : List (κ × α)) : kvGet k (kvDrop k l) = none := by
  induction l with
  | nil => rfl
  | cons p l ih =>
    obtain ⟨k', w⟩ := p
    by_cases e : k' = k
    · simpa [kvDrop, List.filter_cons, e] using ih
    · simpa [kvDrop, List.filter_cons, e, kvGet] using ih

/-- A value that a key holds, written again, changes nothing but its own entry. -/
theorem kvSet_kvSet_same (ord : κ → Nat) (k : κ) (v w : α) (l : List (κ × α)) :
    kvSet ord k w (kvSet ord k v l) = kvSet ord k w l := by
  induction l with
  | nil => simp [kvSet]
  | cons p l ih =>
    obtain ⟨k', x⟩ := p
    simp only [kvSet]
    split
    · simp [kvSet]
    · split
      · simp [kvSet]
      · next h h2 => simp [kvSet, h, h2, ih]

end Keyed

/-! ### Blocks and contexts by number -/

@[simp] theorem State.block?_setBlock_same (s : State) (k : BKey) (b : Block) : (s.setBlock k b).block? k = some b := by
  simp [State.block?, State.setBlock]

theorem State.block?_setBlock_other (s : State) {k j : BKey} (h : j ≠ k) (b : Block) : (s.setBlock k b).block? j = s.block? j := by
  simp [State.block?, State.setBlock, kvGet_kvSet_other BKey.ord h]

@[simp] theorem State.setBlock_setBlock (s : State) (k : BKey) (b c : Block) : (s.setBlock k b).setBlock k c = s.setBlock k c := by
  simp [State.setBlock, kvSet_kvSet_same]

@[simp] theorem State.block?_setCtx (s : State) (n : Nat) (c : Ctx) (k : BKey) : (s.setCtx n c).block? k = s.block? k := rfl
@[simp] theorem State.block?_setCore (s : State) (n : Nat) (c : CoreSt) (k : BKey) : (s.setCore n c).block? k = s.block? k := rfl
@[simp] theorem State.block?_setLaunch (s : State) (l : Launch) (k : BKey) : (s.setLaunch l).block? k = s.block? k := rfl
@[simp] theorem State.block?_setBarSet (s : State) (j k : BKey) (v : Vector Barrier 16) : (s.setBarSet j v).block? k = s.block? k := rfl
@[simp] theorem State.block?_bumpFree (s : State) (k : BKey) : s.bumpFree.block? k = s.block? k := rfl
@[simp] theorem State.block?_dropBlock_same (s : State) (k : BKey) : (s.dropBlock k).block? k = none := by
  simp [State.block?, State.dropBlock]
@[simp] theorem State.ctx_setCtx_same (s : State) (n : Nat) (c : Ctx) : (s.setCtx n c).ctx n = c := by
  simp [State.ctx, State.setCtx]
theorem State.ctx_setCtx_other (s : State) {n m : Nat} (h : m ≠ n) (c : Ctx) : (s.setCtx n c).ctx m = s.ctx m := by
  simp [State.ctx, State.setCtx, kvGet_kvSet_other id h]
@[simp] theorem State.core_setCore_same (s : State) (n : Nat) (c : CoreSt) : (s.setCore n c).core n = c := by
  simp [State.core, State.setCore]
theorem State.core_setCore_other (s : State) {n m : Nat} (h : m ≠ n) (c : CoreSt) : (s.setCore n c).core m = s.core m := by
  simp [State.core, State.setCore, kvGet_kvSet_other id h]
@[simp] theorem State.ctx_setBlock (s : State) (k : BKey) (b : Block) (n : Nat) : (s.setBlock k b).ctx n = s.ctx n := rfl
@[simp] theorem State.core_setBlock (s : State) (k : BKey) (b : Block) (n : Nat) : (s.setBlock k b).core n = s.core n := rfl
@[simp] theorem State.launch?_setBlock (s : State) (k : BKey) (b : Block) (n : Nat) : (s.setBlock k b).launch? n = s.launch? n := rfl

/-! ### Registers -/

/-- A scalar read after a scalar write; a write to s0 is discarded and s0 reads 0 (R30). -/
theorem Block.gs_putS (b : Block) (d r : SReg) (v : W64) (p : Bool) :
    (b.putS d v p).gs r = if r = d && d ≠ 0 then v else b.gs r := by
  unfold Block.putS
  by_cases hd : d = 0
  · simp [hd]
  · by_cases hr : r = 0
    · have : (r = d) = False := by simp only [eq_iff_iff, iff_false]; rintro rfl; exact hd hr
      simp [Block.gs, hr, hd]
      intro h; exact absurd h.symm hd
    · by_cases e : r = d
      · subst e; simp [Block.gs, hr]
      · have : d.val ≠ r.val := fun h => e (Fin.ext h.symm)
        simp [Block.gs, hr, hd, e, this]

/-- The poison bit of a scalar after a scalar write (R94). -/
theorem Block.ps_putS (b : Block) (d r : SReg) (v : W64) (p : Bool) :
    (b.putS d v p).ps r = if r = d && d ≠ 0 then p else b.ps r := by
  unfold Block.putS
  by_cases hd : d = 0
  · simp [hd]
  · by_cases hr : r = 0
    · simp [Block.ps, hr, hd]
      intro h; exact absurd h.symm hd
    · have h32 : r.val < 32 := r.isLt
      by_cases e : r = d
      · subst e; cases p <;> simp [Block.ps, hr, h32]
      · have : r.val ≠ d.val := fun h => e (Fin.ext h)
        cases p <;> simp [Block.ps, hr, hd, e, this, h32]

/-- A reference register read after a reference write (R74). -/
theorem Block.ga_putA (b : Block) (d r : ARef) (v : W64) (p : Bool) : (b.putA d v p).ga r = if r = d then v else b.ga r := by
  by_cases e : r = d
  · subst e; simp [Block.ga, Block.putA]
  · have : d.val ≠ r.val := fun h => e (Fin.ext h.symm)
    simp [Block.ga, Block.putA, e, this]

/-- The poison bit of a reference register after a reference write. -/
theorem Block.pa_putA (b : Block) (d r : ARef) (v : W64) (p : Bool) : (b.putA d v p).pa r = if r = d then p else b.pa r := by
  have h16 : r.val < 16 := r.isLt
  by_cases e : r = d
  · subst e; cases p <;> simp [Block.pa, Block.putA, h16]
  · have : r.val ≠ d.val := fun h => e (Fin.ext h)
    cases p <;> simp [Block.pa, Block.putA, e, this, h16]

@[simp] theorem Block.gt_putT_same (b : Block) (t : TReg) (x : Option Tile) : (b.putT t x).gt t = x := by
  simp [Block.gt, Block.putT]

theorem Block.gt_putT_other (b : Block) {t u : TReg} (h : u ≠ t) (x : Option Tile) : (b.putT t x).gt u = b.gt u := by
  have : t.val ≠ u.val := fun e => h (Fin.ext e.symm)
  simp [Block.gt, Block.putT, this]

@[simp] theorem Block.gsh_putSh_same (b : Block) (r : ShReg) (x : ShapeRec) : (b.putSh r x).gsh r = x := by
  simp [Block.gsh, Block.putSh]

@[simp] theorem Block.gm_putM_same (b : Block) (r : MReg) (x : Mask) : (b.putM r x).gm r = x := by
  simp [Block.gm, Block.putM]

theorem Block.gm_putM_other (b : Block) {r u : MReg} (h : u ≠ r) (x : Mask) : (b.putM r x).gm u = b.gm u := by
  have : r.val ≠ u.val := fun e => h (Fin.ext e.symm)
  simp [Block.gm, Block.putM, this]

end Sys2Proof.Machine
end

