-- ==== Sys2Proof/Laws/Steps.lean ====
section
/-! SUPPORT. What the shared operations of the meanings do, said once: the block that moves, results in scalars and references, jumps, and
the parts of the state they leave alone. -/

namespace Sys2Proof.Machine

/-! ### The block that moves -/

theorem Moves.activeBlock {s : State} {k : BKey} {b : Block} (h : Moves s k b) : s.activeBlock = some (k, b) := by
  simp [State.activeBlock, h.turn, h.here]

/-- A meaning runs on the block that moves. -/
theorem Moves.onBlock {s : State} {k : BKey} {b : Block} (h : Moves s k b) (f : BKey → Block → Out) : onBlock s f = f k b := by
  simp [Machine.onBlock, h.activeBlock]

/-- A relay word runs on the relay core that moves. -/
theorem RelayMoves.onRelay {s : State} {i : Fin 8} {r : Relay} (h : RelayMoves s i r) (f : Fin 8 → Relay → Out) :
    onRelay s f = f i r := by
  simp [Machine.onRelay, h.turn, i.isLt, ← h.here]

/-- Writing one block leaves everything else. -/
theorem OnlyBlock.set (s : State) (k : BKey) (b : Block) : OnlyBlock s (s.setBlock k b) k b where
  here := State.block?_setBlock_same s k b
  others := fun _ h => State.block?_setBlock_other s h b
  rest := rfl
  bytes := fun _ => rfl

/-- A step that changed blocks only left nothing behind. -/
theorem OnlyBlock.checked {s t : State} {k : BKey} {b : Block} (h : OnlyBlock s t k b) : Checked s t where
  cores c := by rw [h.rest]; rfl
  dies d := by rw [h.rest]; rfl
  mgc := by rw [h.rest]
  ctxs n := by rw [h.rest]; rfl

theorem OnlyBlock.access {s t : State} {k : BKey} {b : Block} (h : OnlyBlock s t k b) : AccessOnly s t k b where
  here := h.here
  others := h.others
  rest := by rw [h.rest]
  checked := h.checked
  bytes := h.bytes

/-! ### Results -/

/-- A scalar is written and the PC moves on. -/
theorem ScalarWrite.of_putS (b : Block) (d : SReg) (v : W64) (p : Bool) : ScalarWrite b (b.putS d v p).advance d v p where
  pc := by simp [Block.advance]
  value r := by
    have := Block.gs_putS b d r v p
    simp only [Block.gs, Block.advance_s] at *
    rw [this]
    by_cases e : r = d <;> simp [e]
  poison r := by
    have := Block.ps_putS b d r v p
    simp only [Block.ps, Block.advance_sp] at *
    rw [this]
    by_cases e : r = d <;> simp [e]
  rest := by unfold Block.putS; split <;> rfl

/-- A scalar result in place, and nothing else. -/
theorem ScalarResult.of_putS (s : State) (k : BKey) (b : Block) (d : SReg) (v : W64) (p : Bool) :
    ScalarResult s k b d v p (s.setBlock k (b.putS d v p).advance) :=
  ⟨_, OnlyBlock.set s k _, ScalarWrite.of_putS b d v p⟩

/-- The shared operation of the integer instructions. -/
theorem Moves.scalarResult {s : State} {k : BKey} {b : Block} (h : Moves s k b) (d : SReg) (f : Block → W64) (p : Block → Bool) :
    ∃ t, scalarResult d f p s = .next t ∧ ScalarResult s k b d (f b) (p b) t :=
  ⟨_, h.onBlock _, ScalarResult.of_putS s k b d (f b) (p b)⟩

/-- A reference is written and the PC moves on. -/
theorem RefWrite.of_putRef (b : Block) (d : ARef) (v : W64) (input bad : Bool) :
    RefWrite b (b.putRef d v input bad).advance d v (input || bad)
      (b.boundOrigin (bad && !input)) where
  pc := by unfold Block.putRef; dsimp only; split <;> simp [Block.advance]
  value r := by
    have := Block.ga_putA b d r v (input || bad)
    unfold Block.putRef; dsimp only
    split <;> simpa [Block.ga] using this
  poison r := by
    have := Block.pa_putA b d r v (input || bad)
    unfold Block.putRef; dsimp only
    split <;> simpa [Block.pa] using this
  origin := by
    unfold Block.putRef; dsimp only
    split <;> cases ho : b.origin <;> simp [Block.noteOrigin, Block.boundOrigin, Block.putA, Block.advance, *]
  rest := by
    unfold Block.putRef; dsimp only
    split
    · unfold Block.noteOrigin; split <;> rfl
    · rfl

/-- The shared operation of the reference instructions. -/
theorem Moves.refResult {s : State} {k : BKey} {b : Block} (h : Moves s k b) (d : ARef) (v : Block → W64) (p bad : Block → Bool) :
    ∃ t, refResult d v p bad s = .next t ∧ RefResult s k b d (v b) (p b || bad b)
      (b.boundOrigin (bad b && !p b)) t :=
  ⟨_, h.onBlock _, _, OnlyBlock.set s k _, RefWrite.of_putRef b d (v b) (p b) (bad b)⟩

end Sys2Proof.Machine
end

