-- ==== Sys2Proof/Laws/Access.lean ====
section
/-! SUPPORT. What a check or a read of memory leaves behind when it goes on: handle caches, TLB entries, samples, and lines whose poison has
found its home. No byte of memory changes. -/

namespace Sys2Proof.Machine

/-- A check that went on changed handle caches, TLB entries, pinned lines, poisoned lines, samples and the number of the next free value alone. -/
structure Cached (s t : State) : Prop where
  rest : t = { s with ctxs := t.ctxs, eccLines := t.eccLines, tlb := t.tlb, pins := t.pins, freeCount := t.freeCount, die0 := t.die0, die1 := t.die1 }
  checked : Checked s t

theorem Checked.refl (s : State) : Checked s s where
  cores _ := rfl
  dies _ := rfl
  mgc := rfl
  ctxs _ := rfl

theorem Checked.trans {s t u : State} (h : Checked s t) (g : Checked t u) : Checked s u where
  cores c := by rw [g.cores c, h.cores c]
  dies d := by rw [g.dies d, h.dies d]
  mgc := by rw [g.mgc, h.mgc]
  ctxs n := by rw [g.ctxs n, h.ctxs n]

theorem Cached.refl (s : State) : Cached s s := ⟨rfl, Checked.refl s⟩
theorem Cached.trans {s t u : State} (h : Cached s t) (g : Cached t u) : Cached s u :=
  ⟨by rw [g.rest, h.rest], h.checked.trans g.checked⟩
theorem Cached.mem {s t : State} (h : Cached s t) : t.mem = s.mem := by rw [h.rest]
theorem Cached.blocks {s t : State} (h : Cached s t) : t.blocks = s.blocks := by rw [h.rest]

/-- A handle cache, and lines whose poison has found its home. -/
theorem Cached.setCtx (s : State) (n : Nat) (hs : List (Nat × Nat × HEntry)) (ls es : List Nat) :
    Cached s ({ s with eccLines := es }.setCtx n { s.ctx n with hcache := hs, lostLines := ls }) where
  rest := rfl
  checked := {
    cores := fun _ => rfl
    dies := fun _ => rfl
    mgc := rfl
    ctxs := fun m => by
      by_cases e : m = n
      · subst e; rw [State.ctx_setCtx_same]
      · rw [State.ctx_setCtx_other _ e]; rfl }

theorem tlbFill_cached (s : State) (e : Env) (va gpa pa size : Nat) (need : Need) : Cached s (s.tlbFill e va gpa pa size need) :=
  ⟨rfl, ⟨⟨fun _ => rfl, fun _ => rfl, rfl⟩, fun _ => rfl⟩⟩

theorem bumpFree_cached (s : State) : Cached s s.bumpFree := ⟨rfl, ⟨⟨fun _ => rfl, fun _ => rfl, rfl⟩, fun _ => rfl⟩⟩

/-- Samples of a die's monitors. -/
theorem Cached.setMonitors (s : State) (d : Nat) (ms : List Monitor) : Cached s (s.setDie d { s.die d with monitors := ms }) := by
  by_cases e : d = 0
  · subst e
    exact ⟨rfl, ⟨⟨fun _ => rfl, fun m => by by_cases h : m = 0 <;> simp [State.setDie, State.die, h], rfl⟩, fun _ => rfl⟩⟩
  · refine ⟨?_, ⟨⟨fun _ => ?_, fun m => ?_, ?_⟩, fun _ => ?_⟩⟩
    · simp [State.setDie, e]
    · simp [State.setDie, e, State.core]
    · by_cases h : m = 0 <;> simp [State.setDie, State.die, e, h]
    · simp [State.setDie, e]
    · simp [State.setDie, e, State.ctx]

theorem monitorSample_cached (s : State) (d n v : Nat) : Cached s (monitorSample s d n v) := by
  unfold monitorSample
  dsimp only
  split
  · exact Cached.setMonitors s d _
  · exact Cached.refl s

theorem Res.andThen_ok {α β : Type} {r : Res α} {f : State → α → Res β} {t : State} {b : β} (h : r.andThen f = .ok t b) :
    ∃ u a, r = .ok u a ∧ f u a = .ok t b := by
  cases r with
  | ok u a => exact ⟨u, a, rfl, h⟩
  | bad u e => cases h
  | wait u => cases h

theorem hvFault_ok {α : Type} {s t : State} {e : Env} {image : W64} {kind level gva gpa det : Nat} {a : α}
    (h : (hvFault s e image kind level gva gpa det : Res α) = .ok t a) : False := by
  unfold hvFault at h
  dsimp only at h
  split at h
  · split at h
    · cases h
    · split at h <;> cases h
  · cases h

theorem walk1_ok {s t : State} {e : Env} {image : W64} {va : Nat} {need : Need} {c32 : Bool} {p : Nat × Nat} :
    ∀ (level table : Nat), walk1 s e image va need c32 table level = .ok t p → t = s := by
  intro level
  induction level with
  | zero =>
    intro table h
    unfold walk1 at h; dsimp only at h
    split at h
    · cases h
    · exact (hvFault_ok h).elim
    · split at h
      · split at h
        · exact (hvFault_ok h).elim
        · cases h
      · split at h
        · cases h
        · split at h
          · cases h
          · cases h; rfl
          · cases h
  | succ l ih =>
    intro table h
    unfold walk1 at h; dsimp only at h
    split at h
    · cases h
    · exact (hvFault_ok h).elim
    · split at h
      · split at h
        · exact (hvFault_ok h).elim
        · cases h
      · split at h
        · cases h
        · split at h
          · cases h
          · cases h; rfl
          · exact ih _ h

theorem settleLost_cached (s : State) (ctx va pa : Nat) : Cached s (s.settleLost ctx va pa) := by
  unfold State.settleLost
  dsimp only
  split
  · exact Cached.refl s
  · exact Cached.setCtx s _ _ _ _

theorem translateTo_ok {s t : State} {e : Env} {image : W64} {va : Nat} {accepts : Nat → Bool} {need : Need} {c32 : Bool}
    {p : Nat} (h : translateTo s e image va accepts need c32 = .ok t p) : Cached s t := by
  unfold translateTo at h
  dsimp only at h
  split at h
  · cases h
  · split at h
    · split at h
      · split at h
        · exact (hvFault_ok h).elim
        · cases h
      · split at h
        · cases h; exact settleLost_cached _ _ _ _
        · split at h
          · exact (hvFault_ok h).elim
          · cases h
    · obtain ⟨u, g, h1, h2⟩ := Res.andThen_ok h
      have hu := walk1_ok _ _ h1
      subst hu
      split at h2
      · cases h2
      · exact (hvFault_ok h2).elim
      · split at h2
        · split at h2
          · exact (hvFault_ok h2).elim
          · cases h2
        · split at h2
          · cases h2; exact (tlbFill_cached _ _ _ _ _ _ _).trans (settleLost_cached _ _ _ _)
          · split at h2
            · exact (hvFault_ok h2).elim
            · cases h2

theorem readHandle_ok {s t : State} {e : Env} {image : W64} {x : HEntry} (h : readHandle s e image = .ok t x) : Cached s t := by
  unfold readHandle at h
  dsimp only at h
  split at h
  · cases h; exact Cached.refl _
  · split at h
    · cases h
    · exact (hvFault_ok h).elim
    · split at h
      · split at h
        · exact (hvFault_ok h).elim
        · cases h
      · split at h
        · cases h
        · cases h; exact Cached.setCtx s _ _ _ _

theorem checkHandle_ok {s t : State} {e : Env} {image : W64} {need : Need} {x : HEntry} (h : checkHandle s e image need = .ok t x) :
    Cached s t := by
  unfold checkHandle at h
  dsimp only at h
  split at h
  · cases h
  · split at h
    · exact (hvFault_ok h).elim
    · obtain ⟨u, g, h1, h2⟩ := Res.andThen_ok h
      split at h2
      · cases h2
      · split at h2
        · cases h2
        · cases h2; exact readHandle_ok h1

theorem placeRaw_ok {s t : State} {e : Env} {he : HEntry} {image : W64} {need : Need} {p : Nat}
    (h : placeRaw s e he image need = .ok t p) : Cached s t := by
  unfold placeRaw at h
  dsimp only at h
  split at h
  · cases h; exact Cached.refl _
  · split at h
    · split at h
      · split at h
        · cases h; exact Cached.refl _
        · cases h
      · cases h
    · exact translateTo_ok h

theorem placeByte_ok {s t : State} {e : Env} {he : HEntry} {image : W64} {need : Need} {p : Nat}
    (h : placeByte s e he image need = .ok t p) : Cached s t := by
  obtain ⟨u, g, h1, h2⟩ := Res.andThen_ok h
  split at h2
  · cases h2
  · cases h2; exact placeRaw_ok h1

theorem pinLine_cached (ctx handle : Nat) (s : State) (line : Nat) : Cached s (State.pinLine ctx handle s line) := by
  have pins (u : State) (ps : List Pin) : Cached u { u with pins := ps } := ⟨rfl, ⟨⟨fun _ => rfl, fun _ => rfl, rfl⟩, fun _ => rfl⟩⟩
  unfold State.pinLine
  split
  · exact Cached.refl s
  · dsimp only
    split
    · exact ((bumpFree_cached s).trans (pins _ _)).trans (monitorSample_cached _ _ _ _)
    · exact (bumpFree_cached s).trans (pins _ _)

theorem pinLines_cached (ctx handle : Nat) : ∀ (ls : List Nat) (s : State), Cached s (ls.foldl (State.pinLine ctx handle) s)
  | [], s => Cached.refl s
  | l :: ls, s => (pinLine_cached ctx handle s l).trans (pinLines_cached ctx handle ls _)

theorem notePins_cached (s : State) (e : Env) (h : HEntry) (image : W64) (pa m : Nat) : Cached s (s.notePins e h image pa m) := by
  unfold State.notePins
  split
  · exact Cached.refl s
  · exact pinLines_cached _ _ _ s

theorem placeBytes_ok {e : Env} {he : HEntry} {need : Need} :
    ∀ (fuel : Nat) {s t : State} {image : W64} {n : Nat} {ps : List Nat}, placeBytes s e he image need fuel n = .ok t ps → Cached s t := by
  intro fuel
  induction fuel with
  | zero => intro s t image n ps h; cases h; exact Cached.refl _
  | succ f ih =>
    intro s t image n ps h
    unfold placeBytes at h
    split at h
    · cases h; exact Cached.refl _
    · obtain ⟨u, g, h1, h2⟩ := Res.andThen_ok h
      obtain ⟨v, k, h3, h4⟩ := Res.andThen_ok h2
      cases h4
      exact (placeByte_ok h1).trans ((notePins_cached _ _ _ _ _ _).trans (ih h3))

theorem chase_ok {e : Env} {need : Need} {start : W64} :
    ∀ (n : Nat) {s t : State} {image : W64} {home : Nat} {r : W64 × Nat}, chase s e need start n image home = .ok t r → Cached s t := by
  intro n
  induction n with
  | zero => intro s t image home r h; unfold chase at h; split at h <;> cases h; exact Cached.refl _
  | succ m ih =>
    intro s t image home r h
    unfold chase at h
    split at h
    · cases h; exact Cached.refl _
    · obtain ⟨u, g, h1, h2⟩ := Res.andThen_ok h
      split at h2
      · cases h2
      · split at h2
        · cases h2
        · obtain ⟨v, k, h3, h4⟩ := Res.andThen_ok h2
          exact (checkHandle_ok h1).trans ((placeByte_ok h3).trans (ih h4))

theorem chaseAll_ok {e : Env} {need : Need} {start : W64} :
    ∀ (ps : List Nat) {s t : State} {image : W64} {r : Option W64 × List Nat}, chaseAll s e need start image ps = .ok t r → Cached s t := by
  intro ps
  induction ps with
  | nil => intro s t image r h; cases h; exact Cached.refl _
  | cons p ps ih =>
    intro s t image r h
    unfold chaseAll at h
    split at h
    · cases h
    · obtain ⟨u, g, h1, h2⟩ := Res.andThen_ok h
      obtain ⟨v, k, h3, h4⟩ := Res.andThen_ok h2
      cases h4
      exact (chase_ok _ h1).trans (ih h3)

/-- A unit that is read leaves the bytes. -/
theorem readUnit_ok {s t : State} {e : Env} {need : Need} {image : W64} {places : List Nat} {r : Option W64 × List Byte}
    (h : readUnit s e need image places = .ok t r) : Cached s t := by
  obtain ⟨u, g, h1, h2⟩ := Res.andThen_ok h
  split at h2
  · cases h2
  · cases h2; exact chaseAll_ok _ h1

/-- An access that passes its checks leaves the bytes. -/
theorem locate_ok {s t : State} {e : Env} {hx : Nat} {off : Int} {n : Nat} {align : Bool} {need : Need} {r : HEntry × W64 × List Nat}
    (h : locate s e hx off n align need = .ok t r) : Cached s t := by
  obtain ⟨u, g, h1, h2⟩ := Res.andThen_ok h
  split at h2
  · cases h2
  · split at h2
    · cases h2
    · obtain ⟨v, k, h3, h4⟩ := Res.andThen_ok h2
      cases h4
      exact (checkHandle_ok h1).trans (placeBytes_ok _ h3)

/-- An access that is sampled. -/
theorem sampled_ok {α : Type} {r : Res α} {e : Env} {hops : Nat} {t : State} {a : α} (h : r.sampled e hops = .ok t a) :
    ∃ u, r = .ok u a ∧ t = monitorSample u (u.dieOf e.core) 5 hops := by
  cases r with
  | ok u x => cases h; exact ⟨u, rfl, rfl⟩
  | bad u x => cases h
  | wait u => cases h

/-- Bytes read through a reference. -/
theorem readRef_ok {s t : State} {e : Env} {image : W64} {off : Int} {n : Nat} {align : Bool} {need : Need} {bs : List Byte}
    (h : readRef s e image off n align need = .ok t bs) : Cached s t := by
  obtain ⟨u, g, h1, h2⟩ := Res.andThen_ok h
  have read {v : State} {l : List Byte} (r : ((readUnit u e need g.2.1 g.2.2).andThen fun s r => Res.ok s r.2) = .ok v l) : Cached u v := by
    obtain ⟨w, k, h3, h4⟩ := Res.andThen_ok r
    cases h4
    exact readUnit_ok h3
  dsimp only at h2
  split at h2
  · exact (locate_ok h1).trans (read h2)
  · obtain ⟨v, h3, h4⟩ := sampled_ok h2
    subst h4
    exact ((locate_ok h1).trans (read h3)).trans (monitorSample_cached _ _ _ _)

/-- A fetched word. -/
theorem fetchWord_ok {s t : State} {k : BKey} {b : Block} {pc : Int} {w : Nat} (h : fetchWord s k b pc = .ok t w) : Cached s t := by
  unfold fetchWord at h
  split at h
  · cases h
  · split at h
    · cases h
    · obtain ⟨u, g, h1, h2⟩ := Res.andThen_ok h
      cases h2
      exact readRef_ok h1

/-- Writing one block after a check that went on. -/
theorem Cached.access {s t : State} (h : Cached s t) (k : BKey) (b : Block) : AccessOnly s (t.setBlock k b) k b where
  here := State.block?_setBlock_same t k b
  others j hj := by
    rw [State.block?_setBlock_other t hj b]
    simp only [State.block?, h.blocks]
  rest := by rw [h.rest]; rfl
  checked := h.checked.trans (OnlyBlock.set t k b).checked
  bytes a := by simp [h.mem]

end Sys2Proof.Machine
end

