-- ==== Sys2Proof/Laws/Exec.lean ====
section
/-! SUPPORT. One equation per constructor: what the dispatcher calls for it. -/

namespace Sys2Proof.Machine

theorem exec_cIf (cc : Cc) (a b : SReg) (off : W32) (s : State) : exec (.cIf cc a b off) s = execCIf cc a b off s := rfl
theorem exec_cElse (off : W32) (s : State) : exec (.cElse off) s = execCElse off s := rfl
theorem exec_endif (s : State) : exec .endif s = execEndif s := rfl
theorem exec_loop (off : W32) (s : State) : exec (.loop off) s = execLoop off s := rfl
theorem exec_loopc (a : SReg) (off : W32) (s : State) : exec (.loopc a off) s = execLoopc a off s := rfl
theorem exec_endl (a : SReg) (off : W32) (s : State) : exec (.endl a off) s = execEndl a off s := rfl
theorem exec_brk (cc : Cc) (a b : SReg) (off : W32) (s : State) : exec (.brk cc a b off) s = execBrk cc a b off s := rfl
theorem exec_cont (cc : Cc) (a b : SReg) (off : W32) (s : State) : exec (.cont cc a b off) s = execCont cc a b off s := rfl
theorem exec_call (off : W32) (s : State) : exec (.call off) s = execCall off s := rfl
theorem exec_calli (a : SReg) (off : W32) (s : State) : exec (.calli a off) s = execCalli a off s := rfl
theorem exec_ret (s : State) : exec .ret s = execRet s := rfl
theorem exec_exit (s : State) : exec .exit s = execExit s := rfl
theorem exec_trap (code : BitVec 16) (s : State) : exec (.trap code) s = execTrap code s := rfl
theorem exec_nop (s : State) : exec .nop s = execNop s := rfl
theorem exec_yield (s : State) : exec .yield s = execYield s := rfl
theorem exec_srd (d : SReg) (reg : BitVec 12) (s : State) : exec (.srd d reg) s = execSrd d reg s := rfl
theorem exec_swr (a : SReg) (reg : BitVec 12) (s : State) : exec (.swr a reg) s = execSwr a reg s := rfl
theorem exec_hinv (a : SReg) (s : State) : exec (.hinv a) s = execHinv a s := rfl
theorem exec_xroot (a : SReg) (s : State) : exec (.xroot a) s = execXroot a s := rfl
theorem exec_capq (d c a : SReg) (imm : W32) (s : State) : exec (.capq d c a imm) s = execCapq d c a imm s := rfl
theorem exec_lwid (d : SReg) (s : State) : exec (.lwid d) s = execLwid d s := rfl
theorem exec_publish (d : SReg) (aa : ARef) (s : State) : exec (.publish d aa) s = execPublish d aa s := rfl
theorem exec_valid (v : ValidArg) (s : State) : exec (.valid v) s = execValid v s := rfl
theorem exec_wrapend (s : State) : exec .wrapend s = execWrapend s := rfl
theorem exec_eret (s : State) : exec .eret s = execEret s := rfl
theorem exec_savectx (s : State) : exec .savectx s = execSavectx s := rfl
theorem exec_loadctx (s : State) : exec .loadctx s = execLoadctx s := rfl
theorem exec_add (d a b : SReg) (s : State) : exec (.add d a b) s = execAdd d a b s := rfl
theorem exec_sub (d a b : SReg) (s : State) : exec (.sub d a b) s = execSub d a b s := rfl
theorem exec_mul (d a b : SReg) (s : State) : exec (.mul d a b) s = execMul d a b s := rfl
theorem exec_mulh (d a b : SReg) (s : State) : exec (.mulh d a b) s = execMulh d a b s := rfl
theorem exec_mulhu (d a b : SReg) (s : State) : exec (.mulhu d a b) s = execMulhu d a b s := rfl
theorem exec_div (d a b : SReg) (s : State) : exec (.div d a b) s = execDiv d a b s := rfl
theorem exec_divu (d a b : SReg) (s : State) : exec (.divu d a b) s = execDivu d a b s := rfl
theorem exec_rem (d a b : SReg) (s : State) : exec (.rem d a b) s = execRem d a b s := rfl
theorem exec_remu (d a b : SReg) (s : State) : exec (.remu d a b) s = execRemu d a b s := rfl
theorem exec_and (d a b : SReg) (s : State) : exec (.and d a b) s = execAnd d a b s := rfl
theorem exec_or (d a b : SReg) (s : State) : exec (.or d a b) s = execOr d a b s := rfl
theorem exec_xor (d a b : SReg) (s : State) : exec (.xor d a b) s = execXor d a b s := rfl
theorem exec_sll (d a b : SReg) (s : State) : exec (.sll d a b) s = execSll d a b s := rfl
theorem exec_srl (d a b : SReg) (s : State) : exec (.srl d a b) s = execSrl d a b s := rfl
theorem exec_sra (d a b : SReg) (s : State) : exec (.sra d a b) s = execSra d a b s := rfl
theorem exec_slt (d a b : SReg) (s : State) : exec (.slt d a b) s = execSlt d a b s := rfl
theorem exec_sltu (d a b : SReg) (s : State) : exec (.sltu d a b) s = execSltu d a b s := rfl
theorem exec_min (d a b : SReg) (s : State) : exec (.min d a b) s = execMin d a b s := rfl
theorem exec_max (d a b : SReg) (s : State) : exec (.max d a b) s = execMax d a b s := rfl
theorem exec_clz (d a : SReg) (s : State) : exec (.clz d a) s = execClz d a s := rfl
theorem exec_popc (d a : SReg) (s : State) : exec (.popc d a) s = execPopc d a s := rfl
theorem exec_sel (d a b c : SReg) (s : State) : exec (.sel d a b c) s = execSel d a b c s := rfl
theorem exec_bfx (d a : SReg) (lo len1 : Fin 64) (sgn : Bool) (s : State) : exec (.bfx d a lo len1 sgn) s = execBfx d a lo len1 sgn s := rfl
theorem exec_bfi (d a : SReg) (lo len1 : Fin 64) (s : State) : exec (.bfi d a lo len1) s = execBfi d a lo len1 s := rfl
theorem exec_addi (d a : SReg) (imm : W32) (s : State) : exec (.addi d a imm) s = execAddi d a imm s := rfl
theorem exec_andi (d a : SReg) (imm : W32) (s : State) : exec (.andi d a imm) s = execAndi d a imm s := rfl
theorem exec_ori (d a : SReg) (imm : W32) (s : State) : exec (.ori d a imm) s = execOri d a imm s := rfl
theorem exec_xori (d a : SReg) (imm : W32) (s : State) : exec (.xori d a imm) s = execXori d a imm s := rfl
theorem exec_slli (d a : SReg) (n : Fin 64) (s : State) : exec (.slli d a n) s = execSlli d a n s := rfl
theorem exec_srli (d a : SReg) (n : Fin 64) (s : State) : exec (.srli d a n) s = execSrli d a n s := rfl
theorem exec_srai (d a : SReg) (n : Fin 64) (s : State) : exec (.srai d a n) s = execSrai d a n s := rfl
theorem exec_li (d : SReg) (imm : W32) (s : State) : exec (.li d imm) s = execLi d imm s := rfl
theorem exec_lih (d : SReg) (imm : W32) (s : State) : exec (.lih d imm) s = execLih d imm s := rfl
theorem exec_refmk (d : ARef) (a b : SReg) (s : State) : exec (.refmk d a b) s = execRefmk d a b s := rfl
theorem exec_refmkW (d : ARef) (a : SReg) (s : State) : exec (.refmkW d a) s = execRefmkW d a s := rfl
theorem exec_refadd (d a : ARef) (b : SReg) (s : State) : exec (.refadd d a b) s = execRefadd d a b s := rfl
theorem exec_refaddImm (d a : ARef) (imm : W32) (s : State) : exec (.refaddImm d a imm) s = execRefaddImm d a imm s := rfl
theorem exec_refh (d : SReg) (a : ARef) (s : State) : exec (.refh d a) s = execRefh d a s := rfl
theorem exec_refoff (d : SReg) (a : ARef) (s : State) : exec (.refoff d a) s = execRefoff d a s := rfl
theorem exec_refoffW (d : SReg) (a : ARef) (s : State) : exec (.refoffW d a) s = execRefoffW d a s := rfl
theorem exec_ldB (d : SReg) (aref : ARef) (ord : MemOrd) (disp : BitVec 24) (s : State) : exec (.ldB d aref ord disp) s = execLdB d aref ord disp s := rfl
theorem exec_ldH (d : SReg) (aref : ARef) (ord : MemOrd) (disp : BitVec 24) (s : State) : exec (.ldH d aref ord disp) s = execLdH d aref ord disp s := rfl
theorem exec_ldW (d : SReg) (aref : ARef) (ord : MemOrd) (disp : BitVec 24) (s : State) : exec (.ldW d aref ord disp) s = execLdW d aref ord disp s := rfl
theorem exec_ldD (d : SReg) (aref : ARef) (ord : MemOrd) (disp : BitVec 24) (s : State) : exec (.ldD d aref ord disp) s = execLdD d aref ord disp s := rfl
theorem exec_ldq (d : SReg) (aref : ARef) (ord : MemOrd) (disp : BitVec 24) (s : State) : exec (.ldq d aref ord disp) s = execLdq d aref ord disp s := rfl
theorem exec_stB (d : SReg) (aref : ARef) (ord : MemOrd) (disp : BitVec 24) (s : State) : exec (.stB d aref ord disp) s = execStB d aref ord disp s := rfl
theorem exec_stH (d : SReg) (aref : ARef) (ord : MemOrd) (disp : BitVec 24) (s : State) : exec (.stH d aref ord disp) s = execStH d aref ord disp s := rfl
theorem exec_stW (d : SReg) (aref : ARef) (ord : MemOrd) (disp : BitVec 24) (s : State) : exec (.stW d aref ord disp) s = execStW d aref ord disp s := rfl
theorem exec_stD (d : SReg) (aref : ARef) (ord : MemOrd) (disp : BitVec 24) (s : State) : exec (.stD d aref ord disp) s = execStD d aref ord disp s := rfl
theorem exec_stq (d : SReg) (aref : ARef) (ord : MemOrd) (disp : BitVec 24) (s : State) : exec (.stq d aref ord disp) s = execStq d aref ord disp s := rfl
theorem exec_tbind (td : TReg) (rows cols : Fin 256) (fmt : Efmt) (home : Home) (lay : Lay) (s : State) : exec (.tbind td rows cols fmt home lay) s = execTbind td rows cols fmt home lay s := rfl
theorem exec_tbindMn (td : TReg) (sh : ShReg) (fmt : Efmt) (home : Home) (lay : Lay) (s : State) : exec (.tbindMn td sh fmt home lay) s = execTbindMn td sh fmt home lay s := rfl
theorem exec_tbindMk (td : TReg) (sh : ShReg) (fmt : Efmt) (home : Home) (lay : Lay) (s : State) : exec (.tbindMk td sh fmt home lay) s = execTbindMk td sh fmt home lay s := rfl
theorem exec_tbindKn (td : TReg) (sh : ShReg) (fmt : Efmt) (home : Home) (lay : Lay) (s : State) : exec (.tbindKn td sh fmt home lay) s = execTbindKn td sh fmt home lay s := rfl
theorem exec_tview (td : TReg) (rows cols : Fin 256) (a : SReg) (s : State) : exec (.tview td rows cols a) s = execTview td rows cols a s := rfl
theorem exec_tlay (td : TReg) (lay : Lay) (s : State) : exec (.tlay td lay) s = execTlay td lay s := rfl
theorem exec_tunbind (td : TReg) (s : State) : exec (.tunbind td) s = execTunbind td s := rfl
theorem exec_tdesc (d : SReg) (ta : TReg) (w : Fin 256) (s : State) : exec (.tdesc d ta w) s = execTdesc d ta w s := rfl
theorem exec_tzero (td : TReg) (s : State) : exec (.tzero td) s = execTzero td s := rfl
theorem exec_tfill (td : TReg) (a : SReg) (s : State) : exec (.tfill td a) s = execTfill td a s := rfl
theorem exec_tcpyt (td ta : TReg) (mask : Option MReg) (s : State) : exec (.tcpyt td ta mask) s = execTcpyt td ta mask s := rfl
theorem exec_tsettle (td : TReg) (s : State) : exec (.tsettle td) s = execTsettle td s := rfl
theorem exec_tstat (d : SReg) (ta : TReg) (n : Fin 256) (s : State) : exec (.tstat d ta n) s = execTstat d ta n s := rfl
theorem exec_shape (d : ShReg) (a b c : SReg) (s : State) : exec (.shape d a b c) s = execShape d a b c s := rfl
theorem exec_shq (d : SReg) (a : ShReg) (f : Fin 16) (s : State) : exec (.shq d a f) s = execShq d a f s := rfl
theorem exec_shqAdv (d : SReg) (a : ShReg) (s : State) : exec (.shqAdv d a) s = execShqAdv d a s := rfl
theorem exec_tld (td : TReg) (aref : ARef) (b : SReg) (kc : Bool) (ord : MemOrd) (disp : BitVec 20) (s : State) : exec (.tld td aref b kc ord disp) s = execTld td aref b kc ord disp s := rfl
theorem exec_tst (td : TReg) (aref : ARef) (b : SReg) (ord : MemOrd) (disp : BitVec 20) (s : State) : exec (.tst td aref b ord disp) s = execTst td aref b ord disp s := rfl
theorem exec_tldg (td : TReg) (aref : ARef) (b : SReg) (tx : TReg) (ord : MemOrd) (disp : BitVec 20) (s : State) : exec (.tldg td aref b tx ord disp) s = execTldg td aref b tx ord disp s := rfl
theorem exec_tsts (td : TReg) (aref : ARef) (b : SReg) (tx : TReg) (ord : MemOrd) (disp : BitVec 20) (s : State) : exec (.tsts td aref b tx ord disp) s = execTsts td aref b tx ord disp s := rfl
theorem exec_tldd (td : TReg) (aref : ARef) (b : SReg) (ord : MemOrd) (disp : BitVec 20) (s : State) : exec (.tldd td aref b ord disp) s = execTldd td aref b ord disp s := rfl
theorem exec_tstd (td : TReg) (aref : ARef) (b : SReg) (ord : MemOrd) (disp : BitVec 20) (s : State) : exec (.tstd td aref b ord disp) s = execTstd td aref b ord disp s := rfl
theorem exec_pld (td : TReg) (win : WinReg) (b : SReg) (disp : BitVec 20) (s : State) : exec (.pld td win b disp) s = execPld td win b disp s := rfl
theorem exec_plds (d : SReg) (win : WinReg) (disp : BitVec 20) (s : State) : exec (.plds d win disp) s = execPlds d win disp s := rfl
theorem exec_tprf (aref : ARef) (b : SReg) (disp : BitVec 20) (s : State) : exec (.tprf aref b disp) s = execTprf aref b disp s := rfl
theorem exec_xcpy (d : SReg) (dst src flag : ARef) (b : SReg) (ord : MemOrd) (s : State) : exec (.xcpy d dst src flag b ord) s = execXcpy d dst src flag b ord s := rfl
theorem exec_xcpyCopy (die idx : Nat) (s : State) : exec (.xcpyCopy die idx) s = execXcpyCopy die idx s := rfl
theorem exec_xcpyFlag (die idx : Nat) (s : State) : exec (.xcpyFlag die idx) s = execXcpyFlag die idx s := rfl
theorem exec_tmma (td : TReg) (a b : TSrc) (s : State) : exec (.tmma td a b) s = execTmma td a b s := rfl
theorem exec_tmmas (td : TReg) (a b : TSrc) (tsa tsb : TReg) (s : State) : exec (.tmmas td a b tsa tsb) s = execTmmas td a b tsa tsb s := rfl
theorem exec_tmmax (td : TReg) (a b : TSrc) (s : State) : exec (.tmmax td a b) s = execTmmax td a b s := rfl
theorem exec_gmma (td ta : TReg) (b : TSrc) (bar : BReg) (s : State) : exec (.gmma td ta b bar) s = execGmma td ta b bar s := rfl
theorem exec_gmmaPart (k : BKey) (s : State) : exec (.gmmaPart k) s = execGmmaPart k s := rfl
theorem exec_tacz (td : TReg) (s : State) : exec (.tacz td) s = execTacz td s := rfl
theorem exec_tacv (td ta : TReg) (fmt : Efmt) (rnd : Rnd) (sat : Bool) (mask : Option MReg) (s : State) : exec (.tacv td ta fmt rnd sat mask) s = execTacv td ta fmt rnd sat mask s := rfl
theorem exec_tacq (td ta : TReg) (fmt : Efmt) (rnd : Rnd) (add : Bool) (mask : Option MReg) (s : State) : exec (.tacq td ta fmt rnd add mask) s = execTacq td ta fmt rnd add mask s := rfl
theorem exec_mslt (a : SReg) (s : State) : exec (.mslt a) s = execMslt a s := rfl
theorem exec_tadd (td ta tb : TReg) (rnd : Rnd) (sat : Bool) (mask : Option MReg) (s : State) : exec (.tadd td ta tb rnd sat mask) s = execTadd td ta tb rnd sat mask s := rfl
theorem exec_tsub (td ta tb : TReg) (rnd : Rnd) (sat : Bool) (mask : Option MReg) (s : State) : exec (.tsub td ta tb rnd sat mask) s = execTsub td ta tb rnd sat mask s := rfl
theorem exec_tmul (td ta tb : TReg) (rnd : Rnd) (sat : Bool) (mask : Option MReg) (s : State) : exec (.tmul td ta tb rnd sat mask) s = execTmul td ta tb rnd sat mask s := rfl
theorem exec_tfma (td ta tb tc : TReg) (rnd : Rnd) (sat : Bool) (mask : Option MReg) (s : State) : exec (.tfma td ta tb tc rnd sat mask) s = execTfma td ta tb tc rnd sat mask s := rfl
theorem exec_tmin (td ta tb : TReg) (rnd : Rnd) (sat : Bool) (mask : Option MReg) (s : State) : exec (.tmin td ta tb rnd sat mask) s = execTmin td ta tb rnd sat mask s := rfl
theorem exec_tmax (td ta tb : TReg) (rnd : Rnd) (sat : Bool) (mask : Option MReg) (s : State) : exec (.tmax td ta tb rnd sat mask) s = execTmax td ta tb rnd sat mask s := rfl
theorem exec_tabs (td ta : TReg) (sat : Bool) (mask : Option MReg) (s : State) : exec (.tabs td ta sat mask) s = execTabs td ta sat mask s := rfl
theorem exec_tneg (td ta : TReg) (sat : Bool) (mask : Option MReg) (s : State) : exec (.tneg td ta sat mask) s = execTneg td ta sat mask s := rfl
theorem exec_tcvt (td ta : TReg) (fmt : Efmt) (rnd : Rnd) (sat : Bool) (mask : Option MReg) (s : State) : exec (.tcvt td ta fmt rnd sat mask) s = execTcvt td ta fmt rnd sat mask s := rfl
theorem exec_tcmp (md : MReg) (ta tb : TReg) (fmt : Efmt) (pred : Fin 256) (mask : Option MReg) (s : State) : exec (.tcmp md ta tb fmt pred mask) s = execTcmp md ta tb fmt pred mask s := rfl
theorem exec_tsel (td ta tb : TReg) (mask : Option MReg) (s : State) : exec (.tsel td ta tb mask) s = execTsel td ta tb mask s := rfl
theorem exec_tand (td ta tb : TReg) (mask : Option MReg) (s : State) : exec (.tand td ta tb mask) s = execTand td ta tb mask s := rfl
theorem exec_tor (td ta tb : TReg) (mask : Option MReg) (s : State) : exec (.tor td ta tb mask) s = execTor td ta tb mask s := rfl
theorem exec_txor (td ta tb : TReg) (mask : Option MReg) (s : State) : exec (.txor td ta tb mask) s = execTxor td ta tb mask s := rfl
theorem exec_tnot (td ta : TReg) (mask : Option MReg) (s : State) : exec (.tnot td ta mask) s = execTnot td ta mask s := rfl
theorem exec_tshl (td ta : TReg) (n : Fin 256) (mask : Option MReg) (s : State) : exec (.tshl td ta n mask) s = execTshl td ta n mask s := rfl
theorem exec_tshr (td ta : TReg) (n : Fin 256) (mask : Option MReg) (s : State) : exec (.tshr td ta n mask) s = execTshr td ta n mask s := rfl
theorem exec_tbsh (td ta : TReg) (b : SReg) (mask : Option MReg) (s : State) : exec (.tbsh td ta b mask) s = execTbsh td ta b mask s := rfl
theorem exec_tfsh (td ta tb : TReg) (c : SReg) (mask : Option MReg) (s : State) : exec (.tfsh td ta tb c mask) s = execTfsh td ta tb c mask s := rfl
theorem exec_trcp (td ta : TReg) (mask : Option MReg) (s : State) : exec (.trcp td ta mask) s = execTrcp td ta mask s := rfl
theorem exec_trsq (td ta : TReg) (mask : Option MReg) (s : State) : exec (.trsq td ta mask) s = execTrsq td ta mask s := rfl
theorem exec_trcpn (td ta tb : TReg) (mask : Option MReg) (s : State) : exec (.trcpn td ta tb mask) s = execTrcpn td ta tb mask s := rfl
theorem exec_trsqn (td ta tb : TReg) (mask : Option MReg) (s : State) : exec (.trsqn td ta tb mask) s = execTrsqn td ta tb mask s := rfl
theorem exec_texp2 (td ta : TReg) (mask : Option MReg) (s : State) : exec (.texp2 td ta mask) s = execTexp2 td ta mask s := rfl
theorem exec_tlog2 (td ta : TReg) (mask : Option MReg) (s : State) : exec (.tlog2 td ta mask) s = execTlog2 td ta mask s := rfl
theorem exec_tsumr (td ta : TReg) (rnd : Rnd) (sat : Bool) (mask : Option MReg) (s : State) : exec (.tsumr td ta rnd sat mask) s = execTsumr td ta rnd sat mask s := rfl
theorem exec_tmaxr (td ta : TReg) (mask : Option MReg) (s : State) : exec (.tmaxr td ta mask) s = execTmaxr td ta mask s := rfl
theorem exec_topk (td tc ta : TReg) (k : Fin 256) (mask : Option MReg) (s : State) : exec (.topk td tc ta k mask) s = execTopk td tc ta k mask s := rfl
theorem exec_tsortr (td ta : TReg) (tc : Option TReg) (desc : Bool) (s : State) : exec (.tsortr td ta tc desc) s = execTsortr td ta tc desc s := rfl
theorem exec_tscanr (td ta : TReg) (kind : Scan) (rnd : Rnd) (sat : Bool) (s : State) : exec (.tscanr td ta kind rnd sat) s = execTscanr td ta kind rnd sat s := rfl
theorem exec_tperm (td ta tb : TReg) (col : Bool) (mask : Option MReg) (s : State) : exec (.tperm td ta tb col mask) s = execTperm td ta tb col mask s := rfl
theorem exec_tbcast (td ta : TReg) (col : Bool) (mask : Option MReg) (s : State) : exec (.tbcast td ta col mask) s = execTbcast td ta col mask s := rfl
theorem exec_mand (md ma mb : MReg) (s : State) : exec (.mand md ma mb) s = execMand md ma mb s := rfl
theorem exec_mor (md ma mb : MReg) (s : State) : exec (.mor md ma mb) s = execMor md ma mb s := rfl
theorem exec_mnot (md ma : MReg) (s : State) : exec (.mnot md ma) s = execMnot md ma s := rfl
theorem exec_mcnt (d : SReg) (ma : MReg) (s : State) : exec (.mcnt d ma) s = execMcnt d ma s := rfl
theorem exec_map (td : TReg) (fn : Fin 512) (ins : Ins) (mask : Option MReg) (s : State) : exec (.map td fn ins mask) s = execMap td fn ins mask s := rfl
theorem exec_map2 (td td2 : TReg) (fn : Fin 512) (ins : Ins) (mask : Option MReg) (s : State) : exec (.map2 td td2 fn ins mask) s = execMap2 td td2 fn ins mask s := rfl
theorem exec_reduce (td : TReg) (fn : Fin 512) (ins : Ins) (mask : Option MReg) (s : State) : exec (.reduce td fn ins mask) s = execReduce td fn ins mask s := rfl
theorem exec_reduce2 (td td2 : TReg) (fn : Fin 512) (ins : Ins) (mask : Option MReg) (s : State) : exec (.reduce2 td td2 fn ins mask) s = execReduce2 td td2 fn ins mask s := rfl
theorem exec_atomW (op : AOp) (d : SReg) (aref : ARef) (b : SReg) (ord : MemOrd) (disp : BitVec 24) (s : State) : exec (.atomW op d aref b ord disp) s = execAtomW op d aref b ord disp s := rfl
theorem exec_atomD (op : AOp) (d : SReg) (aref : ARef) (b : SReg) (ord : MemOrd) (disp : BitVec 24) (s : State) : exec (.atomD op d aref b ord disp) s = execAtomD op d aref b ord disp s := rfl
theorem exec_casW (d : SReg) (aref : ARef) (b c : SReg) (ord : MemOrd) (disp : BitVec 24) (s : State) : exec (.casW d aref b c ord disp) s = execCasW d aref b c ord disp s := rfl
theorem exec_casD (d : SReg) (aref : ARef) (b c : SReg) (ord : MemOrd) (disp : BitVec 24) (s : State) : exec (.casD d aref b c ord disp) s = execCasD d aref b c ord disp s := rfl
theorem exec_cas16 (d : SReg) (aref : ARef) (b c : SReg) (ord : MemOrd) (disp : BitVec 24) (s : State) : exec (.cas16 d aref b c ord disp) s = execCas16 d aref b c ord disp s := rfl
theorem exec_lda (d : SReg) (aref : ARef) (ord : MemOrd) (disp : BitVec 24) (s : State) : exec (.lda d aref ord disp) s = execLda d aref ord disp s := rfl
theorem exec_stl (d : SReg) (aref : ARef) (ord : MemOrd) (disp : BitVec 24) (s : State) : exec (.stl d aref ord disp) s = execStl d aref ord disp s := rfl
theorem exec_fence (sc : Scope) (s : State) : exec (.fence sc) s = execFence sc s := rfl
theorem exec_waitv (d : SReg) (aref : ARef) (b c : SReg) (ord : MemOrd) (disp : BitVec 24) (s : State) : exec (.waitv d aref b c ord disp) s = execWaitv d aref b c ord disp s := rfl
theorem exec_waitvRound (k : BKey) (s : State) : exec (.waitvRound k) s = execWaitvRound k s := rfl
theorem exec_bari (bar : BReg) (cnt : Fin 512) (s : State) : exec (.bari bar cnt) s = execBari bar cnt s := rfl
theorem exec_bara (bar : BReg) (cnt : Fin 512) (s : State) : exec (.bara bar cnt) s = execBara bar cnt s := rfl
theorem exec_barw (d : SReg) (bar : BReg) (s : State) : exec (.barw d bar) s = execBarw d bar s := rfl
theorem exec_barwWake (k : BKey) (s : State) : exec (.barwWake k) s = execBarwWake k s := rfl
theorem exec_bart (d : SReg) (bar : BReg) (s : State) : exec (.bart d bar) s = execBart d bar s := rfl
theorem exec_tsend (t : TReg) (core : CoreSel) (tag : BReg) (s : State) : exec (.tsend t core tag) s = execTsend t core tag s := rfl
theorem exec_trecv (t : TReg) (core : CoreSel) (tag : BReg) (s : State) : exec (.trecv t core tag) s = execTrecv t core tag s := rfl
theorem exec_tileTransfer (k : BKey) (idx : Nat) (s : State) : exec (.tileTransfer k idx) s = execTileTransfer k idx s := rfl
theorem exec_enq (d : SReg) (q : BitVec 12) (ord : MemOrd) (s : State) : exec (.enq d q ord) s = execEnq d q ord s := rfl
theorem exec_transform (ctx q : Nat) (s : State) : exec (.transform ctx q) s = execTransform ctx q s := rfl
theorem exec_redist (ctx q : Nat) (s : State) : exec (.redist ctx q) s = execRedist ctx q s := rfl
theorem exec_compress (ctx q : Nat) (s : State) : exec (.compress ctx q) s = execCompress ctx q s := rfl
theorem exec_decompress (ctx q : Nat) (s : State) : exec (.decompress ctx q) s = execDecompress ctx q s := rfl
theorem exec_recode (ctx q : Nat) (s : State) : exec (.recode ctx q) s = execRecode ctx q s := rfl
theorem exec_resample (ctx q : Nat) (s : State) : exec (.resample ctx q) s = execResample ctx q s := rfl
theorem exec_quant (ctx q : Nat) (s : State) : exec (.quant ctx q) s = execQuant ctx q s := rfl
theorem exec_binderyCompletionRecord (die idx : Nat) (s : State) : exec (.binderyCompletionRecord die idx) s = execBinderyCompletionRecord die idx s := rfl
theorem exec_move (d : SReg) (src dst recd : ARef) (b : SReg) (ord : MemOrd) (s : State) : exec (.move d src dst recd b ord) s = execMove d src dst recd b ord s := rfl
theorem exec_moveClaim (die : Nat) (s : State) : exec (.moveClaim die) s = execMoveClaim die s := rfl
theorem exec_mark (die : Nat) (s : State) : exec (.mark die) s = execMark die s := rfl
theorem exec_moveReport (die : Nat) (s : State) : exec (.moveReport die) s = execMoveReport die s := rfl
theorem exec_mvq (d b : SReg) (s : State) : exec (.mvq d b) s = execMvq d b s := rfl
theorem exec_mvwait (d b : SReg) (ord : MemOrd) (s : State) : exec (.mvwait d b ord) s = execMvwait d b ord s := rfl
theorem exec_mvwaitWake (k : BKey) (s : State) : exec (.mvwaitWake k) s = execMvwaitWake k s := rfl
theorem exec_sweep (d : SReg) (aa : ARef) (b : SReg) (s : State) : exec (.sweep d aa b) s = execSweep d aa b s := rfl
theorem exec_mkq (d : SReg) (aa : ARef) (s : State) : exec (.mkq d aa) s = execMkq d aa s := rfl
theorem exec_mkfree (d : SReg) (aa recd : ARef) (b : SReg) (ord : MemOrd) (s : State) : exec (.mkfree d aa recd b ord) s = execMkfree d aa recd b ord s := rfl
theorem exec_mkfreeEvent (die : Nat) (s : State) : exec (.mkfreeEvent die) s = execMkfreeEvent die s := rfl
theorem exec_quarantineEnd (die idx : Nat) (s : State) : exec (.quarantineEnd die idx) s = execQuarantineEnd die idx s := rfl
theorem exec_read (k : BKey) (ev u : Nat) (s : State) : exec (.read k ev u) s = execRead k ev u s := rfl
theorem exec_drain (k : BKey) (ev u : Nat) (s : State) : exec (.drain k ev u) s = execDrain k ev u s := rfl
theorem exec_perform (k : BKey) (ev u : Nat) (s : State) : exec (.perform k ev u) s = execPerform k ev u s := rfl
theorem exec_acquirePoint (k : BKey) (ev : Nat) (s : State) : exec (.acquirePoint k ev) s = execAcquirePoint k ev s := rfl
theorem exec_releasePoint (k : BKey) (ev : Nat) (s : State) : exec (.releasePoint k ev) s = execReleasePoint k ev s := rfl
theorem exec_expand (pa : Nat) (s : State) : exec (.expand pa) s = execExpand pa s := rfl
theorem exec_code (die idx : Nat) (s : State) : exec (.code die idx) s = execCode die idx s := rfl
theorem exec_microOp (k : BKey) (ent : Nat) (s : State) : exec (.microOp k ent) s = execMicroOp k ent s := rfl
theorem exec_logicalTimeAdvance (core : Nat) (s : State) : exec (.logicalTimeAdvance core) s = execLogicalTimeAdvance core s := rfl
theorem exec_slotRound (die : Nat) (s : State) : exec (.slotRound die) s = execSlotRound die s := rfl
theorem exec_rampInterval (die demand : Nat) (s : State) : exec (.rampInterval die demand) s = execRampInterval die demand s := rfl
theorem exec_diversion (k : BKey) (s : State) : exec (.diversion k) s = execDiversion k s := rfl
theorem exec_budgetOverrun (k : BKey) (s : State) : exec (.budgetOverrun k) s = execBudgetOverrun k s := rfl
theorem exec_retirement (k : BKey) (s : State) : exec (.retirement k) s = execRetirement k s := rfl
theorem exec_launchCompletionRecord (n : Nat) (s : State) : exec (.launchCompletionRecord n) s = execLaunchCompletionRecord n s := rfl
theorem exec_launchDeadline (n : Nat) (s : State) : exec (.launchDeadline n) s = execLaunchDeadline n s := rfl
theorem exec_sealWrite (line : Nat) (v : Byte) (s : State) : exec (.sealWrite line v) s = execSeal line v s := rfl
theorem exec_lineRecall (line : Nat) (s : State) : exec (.lineRecall line) s = execLineRecall line s := rfl
theorem exec_rfetch (rd rs1 : XReg) (s : State) : exec (.rfetch rd rs1) s = execRfetch rd rs1 s := rfl
theorem exec_bxtr (rd rs1 rs2 : XReg) (s : State) : exec (.bxtr rd rs1 rs2) s = execBxtr rd rs1 rs2 s := rfl
theorem exec_swaitq (rd rs1 : XReg) (s : State) : exec (.swaitq rd rs1) s = execSwaitq rd rs1 s := rfl
theorem exec_dspch (rd rs1 rs2 : XReg) (s : State) : exec (.dspch rd rs1 rs2) s = execDspch rd rs1 rs2 s := rfl
theorem exec_launchChoice (k : BKey) (s : State) : exec (.launchChoice k) s = execLaunchChoice k s := rfl
theorem exec_systemModeRequest (k : BKey) (req : SysReq) (s : State) : exec (.systemModeRequest k req) s = execSystemModeRequest k req s := rfl
theorem exec_kernelNode (g n : Nat) (s : State) : exec (.kernelNode g n) s = execKernelNode g n s := rfl
theorem exec_copyNode (g n : Nat) (s : State) : exec (.copyNode g n) s = execCopyNode g n s := rfl
theorem exec_condNode (g n : Nat) (s : State) : exec (.condNode g n) s = execCondNode g n s := rfl
theorem exec_loopNode (g n : Nat) (s : State) : exec (.loopNode g n) s = execLoopNode g n s := rfl
theorem exec_waitNode (g n : Nat) (s : State) : exec (.waitNode g n) s = execWaitNode g n s := rfl
theorem exec_signalNode (g n : Nat) (s : State) : exec (.signalNode g n) s = execSignalNode g n s := rfl
theorem exec_endNode (g n : Nat) (s : State) : exec (.endNode g n) s = execEndNode g n s := rfl
theorem exec_graphDeadline (g : Nat) (s : State) : exec (.graphDeadline g) s = execGraphDeadline g s := rfl
theorem exec_faultHoldExpiry (g n : Nat) (s : State) : exec (.faultHoldExpiry g n) s = execFaultHoldExpiry g n s := rfl
theorem exec_rescueSlice (k : BKey) (saved : Nat) (tgt : BKey) (req : SysReq) (s : State) : exec (.rescueSlice k saved tgt req) s = execRescueSlice k saved tgt req s := rfl
theorem exec_rescueSliceEnd (req : SysReq) (s : State) : exec (.rescueSliceEnd req) s = execRescueSliceEnd req s := rfl
theorem exec_relayEccHalt (r : Nat) (s : State) : exec (.relayEccHalt r) s = execRelayEccHalt r s := rfl
theorem exec_queuePoison (q : Nat) (s : State) : exec (.queuePoison q) s = execQueuePoison q s := rfl
theorem exec_ctxset (port : Nat) (s : State) : exec (.ctxset port) s = execCtxset port s := rfl
theorem exec_part (port : Nat) (s : State) : exec (.part port) s = execPart port s := rfl
theorem exec_cancel (port : Nat) (s : State) : exec (.cancel port) s = execCancel port s := rfl
theorem exec_inval (port : Nat) (s : State) : exec (.inval port) s = execInval port s := rfl
theorem exec_freply (port : Nat) (s : State) : exec (.freply port) s = execFreply port s := rfl
theorem exec_drover (port : Nat) (s : State) : exec (.drover port) s = execDrover port s := rfl
theorem exec_hostHinv (port : Nat) (s : State) : exec (.hostHinv port) s = execHostHinv port s := rfl
theorem exec_pinwin (port : Nat) (s : State) : exec (.pinwin port) s = execPinwin port s := rfl
theorem exec_hostMemRead (port pa n : Nat) (s : State) : exec (.hostMemRead port pa n) s = execHostMemRead port pa n s := rfl
theorem exec_hostMemWrite (port pa : Nat) (bytes : List Byte) (s : State) : exec (.hostMemWrite port pa bytes) s = execHostMemWrite port pa bytes s := rfl
theorem exec_sense (port : Nat) (s : State) : exec (.sense port) s = execSense port s := rfl
theorem exec_logread (port : Nat) (s : State) : exec (.logread port) s = execLogread port s := rfl
theorem exec_update (port : Nat) (s : State) : exec (.update port) s = execUpdate port s := rfl
theorem exec_attest (port : Nat) (s : State) : exec (.attest port) s = execAttest port s := rfl
theorem exec_setparam (port : Nat) (s : State) : exec (.setparam port) s = execSetparam port s := rfl
theorem exec_moncfg (port : Nat) (s : State) : exec (.moncfg port) s = execMoncfg port s := rfl
theorem exec_monread (port : Nat) (s : State) : exec (.monread port) s = execMonread port s := rfl
theorem exec_resync (port : Nat) (s : State) : exec (.resync port) s = execResync port s := rfl
theorem exec_testinj (port : Nat) (s : State) : exec (.testinj port) s = execTestinj port s := rfl
theorem exec_sensorRead (readings : List Nat) (s : State) : exec (.sensorRead readings) s = execSensorRead readings s := rfl
theorem exec_thermalTrip (s : State) : exec .thermalTrip s = execThermalTrip s := rfl
theorem exec_tripClear (s : State) : exec .tripClear s = execTripClear s := rfl
theorem exec_thermalHalt (s : State) : exec .thermalHalt s = execThermalHalt s := rfl
theorem exec_ptpSync (offset : Int) (s : State) : exec (.ptpSync offset) s = execPtpSync offset s := rfl
theorem exec_holdover (portDown : Bool) (s : State) : exec (.holdover portDown) s = execHoldover portDown s := rfl
theorem exec_packageReset (s : State) : exec .packageReset s = execPackageReset s := rfl
theorem exec_surpriseLinkLoss (p : Nat) (s : State) : exec (.surpriseLinkLoss p) s = execSurpriseLinkLoss p s := rfl
theorem exec_deviceUnreachable (dev : Nat) (s : State) : exec (.deviceUnreachable dev) s = execDeviceUnreachable dev s := rfl
theorem exec_patrolScrub (s : State) : exec .patrolScrub s = execPatrolScrub s := rfl
theorem exec_relayCoreReload (r : Nat) (s : State) : exec (.relayCoreReload r) s = execRelayCoreReload r s := rfl
theorem exec_hfqh (port : Nat) (v : W32) (s : State) : exec (.hfqh port v) s = execHfqh port v s := rfl
theorem exec_domainBringUp (id size : Nat) (members : List Nat) (s : State) : exec (.domainBringUp id size members) s = execDomainBringUp id size members s := rfl

end Sys2Proof.Machine
end

