-- ==== Sys2Proof/Laws/Memory.lean ====
section
/-! SUPPORT. Laws of memory: a read after a write, and the canonical form that every memory operation keeps. -/

namespace Sys2Proof.Machine

/-! ### Canonical form -/

/-- Every listed address is at least n. -/
def Memory.above (n : Nat) (m : Memory) : Prop := ∀ p ∈ m, n ≤ p.1

theorem Memory.wf_tail {p : Nat × Byte} {m : Memory} (h : Memory.wf (p :: m) = true) : Memory.wf m = true := by
  cases m with
  | nil => rfl
  | cons q m => simp only [Memory.wf, Bool.and_eq_true] at h; exact h.2

theorem Memory.wf_head {p : Nat × Byte} {m : Memory} (h : Memory.wf (p :: m) = true) : p.2 ≠ 0 := by
  cases m with
  | nil => simpa [Memory.wf] using h
  | cons q m => simp only [Memory.wf, Bool.and_eq_true, decide_eq_true_eq] at h; simpa using h.1.1

/-- The first address of a canonical memory lies below every other. -/
theorem Memory.wf_above {p : Nat × Byte} {m : Memory} (h : Memory.wf (p :: m) = true) : ∀ q ∈ m, p.1 < q.1 := by
  induction m generalizing p with
  | nil => simp
  | cons q m ih =>
    have h1 : p.1 < q.1 := by simp only [Memory.wf, Bool.and_eq_true, decide_eq_true_eq] at h; exact h.1.2
    intro r hr
    rcases List.mem_cons.mp hr with rfl | hr
    · exact h1
    · exact Nat.lt_trans h1 (ih (Memory.wf_tail h) r hr)

/-- What makes a list of cells canonical. -/
theorem Memory.wf_cons {p : Nat × Byte} {m : Memory} (h0 : p.2 ≠ 0) (hm : Memory.wf m = true) (hp : ∀ q ∈ m, p.1 < q.1) :
    Memory.wf (p :: m) = true := by
  cases m with
  | nil => simpa [Memory.wf] using h0
  | cons q m =>
    simp only [Memory.wf, Bool.and_eq_true, decide_eq_true_eq]
    exact ⟨⟨by simpa using h0, hp q (List.mem_cons_self ..)⟩, hm⟩

/-- Dropping cells keeps the canonical form. -/
theorem Memory.filter_wf (f : Nat × Byte → Bool) (m : Memory) (h : Memory.wf m = true) : Memory.wf (m.filter f) = true := by
  induction m with
  | nil => rfl
  | cons p m ih =>
    have ht := ih (Memory.wf_tail h)
    rw [List.filter_cons]
    split
    · exact Memory.wf_cons (Memory.wf_head h) ht fun q hq => Memory.wf_above h q ((List.mem_filter.mp hq).1)
    · exact ht

/-- Dropping an address keeps the canonical form. -/
theorem Memory.drop_wf (a : Nat) (m : Memory) (h : Memory.wf m = true) : Memory.wf (kvDrop a m) = true := Memory.filter_wf _ m h

/-- A cell that is left when an address is dropped was there. -/
theorem Memory.mem_drop {a : Nat} {m : Memory} {q : Nat × Byte} (h : q ∈ kvDrop a m) : q ∈ m := (List.mem_filter.mp h).1

/-- A listed address after a write is the address written or was listed before. -/
theorem Memory.mem_write {a : Nat} {b : Byte} {m : Memory} {q : Nat × Byte} (h : q ∈ Memory.write a b m) : q.1 = a ∨ q ∈ m := by
  induction m with
  | nil => simp only [Memory.write] at h; split at h <;> simp_all
  | cons p m ih =>
    obtain ⟨k, c⟩ := p
    simp only [Memory.write] at h
    split at h
    · split at h
      · rcases List.mem_cons.mp h with rfl | h
        · exact .inr (List.mem_cons_self ..)
        · exact .inr (List.mem_cons_of_mem _ (Memory.mem_drop h))
      · rcases List.mem_cons.mp h with rfl | h
        · exact .inl rfl
        · exact .inr h
    · split at h
      · split at h
        · exact .inr (List.mem_cons_of_mem _ (Memory.mem_drop h))
        · rcases List.mem_cons.mp h with rfl | h
          · exact .inl rfl
          · exact .inr (List.mem_cons_of_mem _ h)
      · rcases List.mem_cons.mp h with rfl | h
        · exact .inr (List.mem_cons_self ..)
        · exact (ih h).imp id (List.mem_cons_of_mem _)

/-- Writing a byte keeps the canonical form. -/
theorem Memory.write_wf (a : Nat) (b : Byte) (m : Memory) (h : Memory.wf m = true) : Memory.wf (Memory.write a b m) = true := by
  induction m with
  | nil =>
    simp only [Memory.write]
    split
    · rfl
    · next hb => simpa [Memory.wf] using hb
  | cons p m ih =>
    obtain ⟨k, c⟩ := p
    have hab := Memory.wf_above h
    simp only [Memory.write]
    split
    · next hlt =>
      split
      · exact Memory.wf_cons (Memory.wf_head h) (Memory.drop_wf a m (Memory.wf_tail h)) fun q hq => hab q (Memory.mem_drop hq)
      · next hb =>
        refine Memory.wf_cons hb h ?_
        intro q hq
        rcases List.mem_cons.mp hq with rfl | hq
        · exact hlt
        · exact Nat.lt_trans hlt (hab q hq)
    · split
      · next he =>
        subst he
        split
        · exact Memory.drop_wf _ m (Memory.wf_tail h)
        · next hb => exact Memory.wf_cons hb (Memory.wf_tail h) hab
      · next hn he =>
        refine Memory.wf_cons (Memory.wf_head h) (ih (Memory.wf_tail h)) ?_
        intro q hq
        rcases Memory.mem_write hq with hq | hq
        · simp only [hq]; omega
        · exact hab q hq

/-- Writing bytes keeps the canonical form. -/
theorem Memory.writeN_wf (m : Memory) (a : Nat) (bs : List Byte) (h : Memory.wf m = true) : Memory.wf (m.writeN a bs) = true := by
  induction bs generalizing m a with
  | nil => exact h
  | cons b bs ih => exact ih _ _ (Memory.write_wf a b m h)

/-- Writing a little-endian number keeps the canonical form. -/
theorem Memory.writeLE_wf (m : Memory) (a n v : Nat) (h : Memory.wf m = true) : Memory.wf (m.writeLE a n v) = true :=
  Memory.writeN_wf m a _ h

/-! ### Reads after writes -/

/-- A dropped address reads as zero. -/
@[simp] theorem Memory.read_drop_same (a : Nat) (m : Memory) : Memory.read (kvDrop a m) a = 0 := by
  induction m with
  | nil => rfl
  | cons p m ih =>
    by_cases h : p.1 = a
    · simpa [Memory.read, kvDrop, h] using ih
    · simpa [Memory.read, kvDrop, kvGet, h] using ih

/-- Dropping an address leaves every other byte. -/
theorem Memory.read_drop_other {a x : Nat} (m : Memory) (hx : x ≠ a) : Memory.read (kvDrop a m) x = m.read x := by
  induction m with
  | nil => rfl
  | cons p m ih =>
    by_cases h : p.1 = a
    · have e : a ≠ x := fun e => hx e.symm
      simpa [Memory.read, kvDrop, kvGet, h, e] using ih
    · by_cases e : p.1 = x
      · simp [Memory.read, kvDrop, kvGet, e, hx]
      · simpa [Memory.read, kvDrop, kvGet, h, e] using ih

/-- A byte read where it was written. -/
@[simp] theorem Memory.read_write_same (a : Nat) (b : Byte) (m : Memory) : (Memory.write a b m).read a = b := by
  induction m with
  | nil => simp only [Memory.write]; split <;> simp_all [Memory.read, kvGet]
  | cons p m ih =>
    obtain ⟨k, c⟩ := p
    simp only [Memory.write]
    split
    · next hlt =>
      split
      · next hb =>
        have : k ≠ a := by omega
        rw [hb]
        simpa [Memory.read, kvGet, this] using Memory.read_drop_same a m
      · simp [Memory.read, kvGet]
    · split
      · split
        · next hb => rw [hb]; exact Memory.read_drop_same a m
        · simp [Memory.read, kvGet]
      · next he =>
        have : k ≠ a := fun e => he e.symm
        simpa [Memory.read, kvGet, this] using ih

/-- Every other byte is unchanged by a write. -/
theorem Memory.read_write_other {a x : Nat} (b : Byte) (m : Memory) (hx : x ≠ a) : (Memory.write a b m).read x = m.read x := by
  have e : a ≠ x := fun e => hx e.symm
  induction m with
  | nil => simp only [Memory.write]; split <;> simp [Memory.read, kvGet, e]
  | cons p m ih =>
    obtain ⟨k, c⟩ := p
    simp only [Memory.write]
    split
    · split
      · have := Memory.read_drop_other m hx
        by_cases h : k = x
        · simp [Memory.read, kvGet, h]
        · simpa [Memory.read, kvGet, h] using this
      · simp [Memory.read, kvGet, e]
    · split
      · next he =>
        subst he
        split
        · have := Memory.read_drop_other m hx
          simpa [Memory.read, kvGet, e] using this
        · simp [Memory.read, kvGet, e]
      · by_cases h : k = x
        · simp [Memory.read, kvGet, h]
        · simpa [Memory.read, kvGet, h] using ih

/-- Bytes outside those written are unchanged. -/
theorem Memory.read_writeN_other (m : Memory) (a x : Nat) (bs : List Byte) (h : x < a ∨ a + bs.length ≤ x) :
    (m.writeN a bs).read x = m.read x := by
  induction bs generalizing m a with
  | nil => rfl
  | cons b bs ih =>
    simp only [List.length_cons] at h
    rw [Memory.writeN, ih _ _ (by omega), Memory.read_write_other _ _ (by omega)]

/-- The byte at each place written. -/
theorem Memory.read_writeN (m : Memory) (a : Nat) (bs : List Byte) (i : Nat) (h : i < bs.length) :
    (m.writeN a bs).read (a + i) = bs[i] := by
  induction bs generalizing m a i with
  | nil => simp at h
  | cons b bs ih =>
    rw [Memory.writeN]
    cases i with
    | zero =>
      rw [Memory.read_writeN_other _ _ _ _ (by omega)]
      simp
    | succ i =>
      have h2 : i < bs.length := by simpa using h
      have := ih (Memory.write a b m) (a + 1) i h2
      simpa [Nat.add_assoc, Nat.add_comm 1 i] using this

/-- Bytes read back where they were written. -/
theorem Memory.readN_writeN (m : Memory) (a : Nat) (bs : List Byte) :
    (m.writeN a bs).readN a bs.length = bs := by
  have key : ∀ (n i : Nat), i + n = bs.length → (m.writeN a bs).readN (a + i) n = bs.drop i := by
    intro n
    induction n with
    | zero => intro i hi; simp only [Nat.add_zero] at hi; simp [Memory.readN, hi]
    | succ n ih =>
      intro i hi
      have hlt : i < bs.length := by omega
      rw [Memory.readN, Memory.read_writeN m a bs i hlt, Nat.add_assoc, ih (i + 1) (by omega)]
      exact (List.drop_eq_getElem_cons hlt).symm
  simpa using key bs.length 0 (by omega)

/-- n bytes read hold n bytes. -/
@[simp] theorem Memory.readN_length (m : Memory) (a n : Nat) : (m.readN a n).length = n := by
  induction n generalizing a with
  | zero => rfl
  | succ n ih => simp [Memory.readN, ih]

/-- The bytes of a read from a place on. -/
theorem Memory.drop_readN (m : Memory) (a n i : Nat) : (m.readN a n).drop i = m.readN (a + i) (n - i) := by
  induction i generalizing a n with
  | zero => rfl
  | succ i ih =>
    cases n with
    | zero => simp [Memory.readN]
    | succ n => rw [Memory.readN, List.drop_succ_cons, ih, Nat.add_right_comm, Nat.add_assoc, Nat.succ_sub_succ_eq_sub]

/-- The first bytes of a read. -/
theorem Memory.take_readN (m : Memory) (a n i : Nat) (h : i ≤ n) : (m.readN a n).take i = m.readN a i := by
  induction i generalizing a n with
  | zero => rfl
  | succ i ih =>
    cases n with
    | zero => omega
    | succ n => rw [Memory.readN, List.take_succ_cons, ih _ _ (by omega), Memory.readN]

/-- A field of bytes that were read is the number at its place. -/
theorem fieldAt_readN (m : Memory) (a len off n : Nat) (h : off + n ≤ len) : fieldAt (m.readN a len) off n = m.readLE (a + off) n := by
  rw [fieldAt, Memory.drop_readN, Memory.take_readN _ _ _ _ (by omega), Memory.readLE]

/-! ### Little-endian numbers -/

@[simp] theorem leBytes_length (n v : Nat) : (leBytes n v).length = n := by
  induction n generalizing v with
  | zero => rfl
  | succ n ih => simp [leBytes, ih]

/-- The number of the bytes of a number. -/
theorem leNat_leBytes (n v : Nat) : leNat (leBytes n v) = v % 2 ^ (8 * n) := by
  induction n generalizing v with
  | zero => simp [leBytes, leNat, Nat.mod_one]
  | succ n ih =>
    have e : 2 ^ (8 * (n + 1)) = 256 * 2 ^ (8 * n) := by rw [Nat.mul_add, Nat.pow_add]; omega
    have d := Nat.mod_mul (x := v) (a := 256) (b := 2 ^ (8 * n))
    simp only [leBytes, leNat, ih, e]
    rw [d]
    simp [BitVec.toNat_ofNat]

/-- A number read back where it was written (R5). -/
theorem Memory.readLE_writeLE (m : Memory) (a n v : Nat) :
    (m.writeLE a n v).readLE a n = v % 2 ^ (8 * n) := by
  have h := Memory.readN_writeN m a (leBytes n v)
  rw [leBytes_length] at h
  rw [Memory.readLE, Memory.writeLE, h, leNat_leBytes]

/-- The memory of reset is canonical. -/
theorem State.reset_mem_wf : Memory.wf State.reset.mem = true := rfl

end Sys2Proof.Machine
end

