-- ==== Sys2Proof/Laws/Window.lean ====
section
/-! SUPPORT. What writing a window does, said once: the cells and draws of a window in row-major order, the elements written, the poison of
the lines, and the frame. -/

namespace Sys2Proof.Machine

/-! ### Cells and draws -/

theorem Tile.mem_coords (x : Tile) (p : Nat × Nat) : p ∈ x.coords ↔ x.Has p.1 p.2 := by
  obtain ⟨i, j⟩ := p
  simp [Tile.coords, Tile.Has]

theorem rowMajor_length (m w : Nat) : ((List.range m).flatMap fun i => (List.range w).map fun j => (i, j)).length = m * w := by
  induction m with
  | zero => simp
  | succ m ih => rw [List.range_succ, List.flatMap_append, List.length_append, ih]; simp [Nat.add_mul]

theorem rowMajor_get (m w : Nat) (n : Nat) (h : n < m * w) :
    ((List.range m).flatMap fun i => (List.range w).map fun j => (i, j))[n]? = some (n / w, n % w) := by
  have hw : 0 < w := by rcases Nat.eq_zero_or_pos w with e | e <;> simp_all
  induction m with
  | zero => simp at h
  | succ m ih =>
    rw [List.range_succ, List.flatMap_append, List.getElem?_append, rowMajor_length]
    split
    · exact ih ‹_›
    · rename_i hn
      have h1 : n - m * w < w := by rw [Nat.add_mul] at h; omega
      have h2 : n = m * w + (n - m * w) := by omega
      generalize n - m * w = q at h1 h2
      subst h2
      simp [h1, Nat.mul_comm m, Nat.mul_add_div hw, Nat.div_eq_of_lt h1, Nat.mod_eq_of_lt h1]

theorem Tile.coords_length (x : Tile) : x.coords.length = x.wrows * x.wcols := by
  exact rowMajor_length x.wrows x.wcols

/-- Window element (i, j) is element i × C + j in row-major order. -/
theorem Tile.mem_coords_zipIdx (x : Tile) (i j n : Nat) : ((i, j), n) ∈ x.coords.zipIdx ↔ x.Has i j ∧ n = i * x.wcols + j := by
  rw [List.mk_mem_zipIdx_iff_getElem?]
  constructor
  · intro h
    have hn : n < x.wrows * x.wcols := by
      have := (List.getElem?_eq_some_iff.mp h).1
      rwa [x.coords_length] at this
    have hw : 0 < x.wcols := by rcases Nat.eq_zero_or_pos x.wcols with e | e <;> simp_all
    rw [Tile.coords, rowMajor_get _ _ _ hn] at h
    simp only [Option.some.injEq, Prod.mk.injEq] at h
    obtain ⟨rfl, rfl⟩ := h
    exact ⟨⟨Nat.div_lt_of_lt_mul (by rwa [Nat.mul_comm] at hn), Nat.mod_lt _ hw⟩, (Nat.div_add_mod' n x.wcols).symm⟩
  · rintro ⟨⟨hi, hj⟩, rfl⟩
    have hn : i * x.wcols + j < x.wrows * x.wcols := by
      calc i * x.wcols + j < i * x.wcols + x.wcols := by omega
        _ = (i + 1) * x.wcols := by rw [Nat.add_mul]; omega
        _ ≤ x.wrows * x.wcols := Nat.mul_le_mul_right _ hi
    rw [Tile.coords, rowMajor_get _ _ _ hn]
    have : 0 < x.wcols := by omega
    simp [Nat.mul_comm i, Nat.mul_add_div this, Nat.div_eq_of_lt hj, Nat.mod_eq_of_lt hj]

/-- Window elements have places of their own in the contents. -/
theorem Tile.index_inj {x : Tile} (hf : x.Fits) {i j i' j' : Nat} (h : x.Has i j) (h' : x.Has i' j')
    (e : x.index i j = x.index i' j') : i = i' ∧ j = j' := by
  have := hf.cols
  obtain ⟨_, _⟩ := h
  obtain ⟨_, _⟩ := h'
  simp only [Tile.index] at e
  have hs : 0 < x.scols := by omega
  have a := congrArg (· % x.scols) e
  have b := congrArg (· / x.scols) e
  simp only [Nat.mul_comm _ x.scols, Nat.mul_add_mod, Nat.mul_add_div hs] at a b
  rw [Nat.mod_eq_of_lt (by omega), Nat.mod_eq_of_lt (by omega)] at a
  rw [Nat.div_eq_of_lt (by omega : x.wcol0 + j < _), Nat.div_eq_of_lt (by omega : x.wcol0 + j' < _)] at b
  omega

theorem Tile.index_lt {x : Tile} (hf : x.Fits) {i j : Nat} (h : x.Has i j) : x.index i j < x.elems.size := by
  have := hf.cols
  have hr := hf.rows
  obtain ⟨_, _⟩ := h
  rw [hf.size, Tile.index]
  calc (x.wrow0 + i) * x.scols + (x.wcol0 + j) < (x.wrow0 + i) * x.scols + x.scols := by omega
    _ = (x.wrow0 + i + 1) * x.scols := (Nat.succ_mul _ _).symm
    _ ≤ x.srows * x.scols := Nat.mul_le_mul_right _ (by omega)

theorem seedAt_succ (mode : Rnd) (seed : W64) (n : Nat) : seedAt mode seed (n + 1) = seedAt mode (drawFor mode seed).2 n := by
  induction n with
  | zero => rfl
  | succ n ih => rw [seedAt, ih, seedAt]

/-! ### The elements that a window computes -/

/-- What the cells of a list, numbered from n, write. -/
def cellsWritten (on : Nat → Nat → Bool) (mode : Rnd) (seed : W64) (bad : Nat → Nat → Bool) (f : Nat → Nat → Nat → Nat × W64)
    (cells : List ((Nat × Nat) × Nat)) : Written :=
  cells.filterMap fun c => if on c.1.1 c.1.2 then some (c.1, (f (drawAt mode seed c.2) c.1.1 c.1.2).1, bad c.1.1 c.1.2) else none

/-- The elements, flags and SEED of a window. -/
theorem runWindow_spec (cells : List (Nat × Nat)) (on : Nat → Nat → Bool) (mode : Rnd) (seed : W64) (srcs : List Src)
    (badMask : Bool) (f : Nat → Nat → Nat → Nat × W64) :
    let bad (i j : Nat) := srcs.any fun x => x.1 i j
    let r := runWindow cells on mode seed srcs badMask f
    r.1 = cellsWritten on mode seed bad f cells.zipIdx
      ∧ (∀ n, r.2.1.getLsbD n = true ↔ badMask = false ∧ ∃ c ∈ cells.zipIdx, on c.1.1 c.1.2 = true ∧ bad c.1.1 c.1.2 = false
          ∧ (f (drawAt mode seed c.2) c.1.1 c.1.2).2.getLsbD n = true)
      ∧ r.2.2 = seedAt mode seed cells.length := by
  intro bad r
  let one (acc : Written × W64 × W64) (c : Nat × Nat) : Written × W64 × W64 :=
    let (draw, seed1) := drawFor mode acc.2.2
    if on c.1 c.2 then
      let r := f draw c.1 c.2
      let p := srcs.any fun x => x.1 c.1 c.2
      ((c, r.1, p) :: acc.1, if p || badMask then acc.2.1 else acc.2.1 ||| r.2, seed1)
    else (acc.1, acc.2.1, seed1)
  have key : ∀ (cells : List (Nat × Nat)) (m : Nat) (ws : Written) (fl : W64),
      let t := cells.foldl one (ws, fl, seedAt mode seed m)
      t.1 = (cellsWritten on mode seed bad f (cells.zipIdx m)).reverse ++ ws
        ∧ (∀ n, t.2.1.getLsbD n = true ↔ fl.getLsbD n = true ∨ badMask = false ∧ ∃ c ∈ cells.zipIdx m, on c.1.1 c.1.2 = true
          ∧ bad c.1.1 c.1.2 = false ∧ (f (drawAt mode seed c.2) c.1.1 c.1.2).2.getLsbD n = true)
        ∧ t.2.2 = seedAt mode seed (m + cells.length) := by
    intro cells
    induction cells with
    | nil => intro m ws fl; simp [cellsWritten]
    | cons c cs ih =>
      intro m ws fl
      have hs : (drawFor mode (seedAt mode seed m)).2 = seedAt mode seed (m + 1) := rfl
      have hd : (drawFor mode (seedAt mode seed m)).1 = drawAt mode seed m := rfl
      by_cases hon : on c.1 c.2 = true
      · have step : one (ws, fl, seedAt mode seed m) c = ((c, (f (drawAt mode seed m) c.1 c.2).1, bad c.1 c.2) :: ws,
            (if bad c.1 c.2 || badMask then fl else fl ||| (f (drawAt mode seed m) c.1 c.2).2), seedAt mode seed (m + 1)) := by
          simp only [one, hon, if_true, hs, hd]; rfl
        obtain ⟨a, b, d⟩ := ih (m + 1) ((c, (f (drawAt mode seed m) c.1 c.2).1, bad c.1 c.2) :: ws)
          (if bad c.1 c.2 || badMask then fl else fl ||| (f (drawAt mode seed m) c.1 c.2).2)
        simp only [List.foldl_cons, step]
        refine ⟨by rw [a]; simp [cellsWritten, hon], fun n => ?_, by rw [d]; simp; congr 1; omega⟩
        rw [b n]
        simp only [List.zipIdx_cons, List.mem_cons, exists_eq_or_imp, hon, true_and]
        clear a b d ih
        cases bad c.1 c.2 <;> cases badMask <;> simp [or_assoc]
      · have step : one (ws, fl, seedAt mode seed m) c = (ws, fl, seedAt mode seed (m + 1)) := by
          simp only [one, hon]; rfl
        obtain ⟨a, b, d⟩ := ih (m + 1) ws fl
        simp only [List.foldl_cons, step]
        refine ⟨by rw [a]; simp [cellsWritten, hon], fun n => ?_, by rw [d]; simp; congr 1; omega⟩
        rw [b n]
        simp [List.zipIdx_cons, hon]
  obtain ⟨a, b, c⟩ := key cells 0 [] 0
  have hr : r = ((cells.foldl one ([], 0, seed)).1.reverse, (cells.foldl one ([], 0, seed)).2.1, (cells.foldl one ([], 0, seed)).2.2) := rfl
  simp only [seedAt] at a b c
  rw [hr]
  refine ⟨?_, fun n => by simpa using b n, by simpa using c⟩
  show List.reverse _ = _
  rw [a]; simp

/-- Each written cell is a window element that is active, with its own draw. -/
theorem mem_cellsWritten (x : Tile) (on : Nat → Nat → Bool) (mode : Rnd) (seed : W64) (bad : Nat → Nat → Bool)
    (f : Nat → Nat → Nat → Nat × W64) (w : (Nat × Nat) × Nat × Bool) :
    w ∈ cellsWritten on mode seed bad f x.coords.zipIdx ↔ x.Has w.1.1 w.1.2 ∧ on w.1.1 w.1.2 = true
      ∧ w.2 = ((f (drawAt mode seed (w.1.1 * x.wcols + w.1.2)) w.1.1 w.1.2).1, bad w.1.1 w.1.2) := by
  simp only [cellsWritten, List.mem_filterMap]
  constructor
  · rintro ⟨⟨⟨i, j⟩, n⟩, hc, h⟩
    obtain ⟨hm, rfl⟩ := (x.mem_coords_zipIdx i j n).mp hc
    dsimp only at h
    split at h
    · obtain rfl := Option.some.inj h
      exact ⟨hm, ‹_›, rfl⟩
    · cases h
  · obtain ⟨⟨i, j⟩, v⟩ := w
    rintro ⟨hm, ho, h⟩
    dsimp only at hm ho h
    exact ⟨((i, j), i * x.wcols + j), (x.mem_coords_zipIdx i j _).mpr ⟨hm, rfl⟩, by simp [ho, h]⟩

/-! ### Writing elements -/

theorem setAll_get (l : List (Nat × Nat)) (a : Array Nat) (n : Nat) :
    (l.foldl (fun a p => a.setIfInBounds p.1 p.2) a).size = a.size
      ∧ ((∀ p ∈ l, p.1 ≠ n) → (l.foldl (fun a p => a.setIfInBounds p.1 p.2) a)[n]? = a[n]?)
      ∧ (∀ v, n < a.size → (n, v) ∈ l → (∀ p ∈ l, p.1 = n → p.2 = v) →
          (l.foldl (fun a p => a.setIfInBounds p.1 p.2) a)[n]? = some v) := by
  induction l generalizing a with
  | nil => simp
  | cons q l ih =>
    obtain ⟨h1, h2, h3⟩ := ih (a.setIfInBounds q.1 q.2)
    refine ⟨by simpa using h1, fun h => ?_, fun v hn hv h => ?_⟩
    · rw [List.foldl_cons, h2 fun p hp => h p (by simp [hp])]
      exact Array.getElem?_setIfInBounds_ne (h q (by simp))
    · rw [List.foldl_cons]
      by_cases hl : (n, v) ∈ l
      · exact h3 v (by simpa using hn) hl fun p hp => h p (by simp [hp])
      · have hq : q = (n, v) := by simpa [hl, eq_comm] using hv
        subst hq
        rw [h2 fun p hp e => hl (by rw [← h p (by simp [hp]) e, ← e]; exact hp)]
        simp [hn]

theorem setAll_eq (ws : Written) (t : Tile) :
    ws.foldl (fun t w => t.set w.1.1 w.1.2 w.2.1) t
      = { t with elems := (ws.map fun w => (t.index w.1.1 w.1.2, w.2.1)).foldl (fun a p => a.setIfInBounds p.1 p.2) t.elems } := by
  induction ws generalizing t with
  | nil => rfl
  | cons w ws ih => rw [List.foldl_cons, ih]; rfl

/-! ### Poisoning lines -/

theorem mem_insertNat (n l : Nat) (xs : List Nat) : l ∈ insertNat n xs ↔ l = n ∨ l ∈ xs := by
  induction xs with
  | nil => simp [insertNat]
  | cons x xs ih =>
    unfold insertNat
    split
    · simp
    · split
      · simp_all
      · simp only [List.mem_cons, ih]; grind

theorem mem_insertAll (ls : List Nat) (l : Nat) (xs : List Nat) :
    l ∈ ls.foldl (fun p n => insertNat n p) xs ↔ l ∈ ls ∨ l ∈ xs := by
  induction ls generalizing xs with
  | nil => simp
  | cons n ls ih => rw [List.foldl_cons, ih, mem_insertNat, List.mem_cons]; grind

theorem Tile.mem_poisonLines (t : Tile) (ls : List Nat) (o : Option Origin) (l : Nat) :
    l ∈ (t.poisonLines ls o).poison ↔ l ∈ ls ∨ l ∈ t.poison := mem_insertAll ls l t.poison

/-- What poisoning changes in a tile. -/
theorem Tile.poisonLines_eq (t : Tile) (ls : List Nat) (o : Option Origin) :
    t.poisonLines ls o = { t with poison := (t.poisonLines ls o).poison, origin := (t.poisonLines ls o).origin } := rfl

theorem Tile.poisonWindow_spec (t : Tile) (o : Option Origin) :
    t.poisonWindow o = { t with poison := (t.poisonWindow o).poison, origin := (t.poisonWindow o).origin }
      ∧ ∀ l, l ∈ (t.poisonWindow o).poison ↔ (∃ i j, t.Has i j ∧ l ∈ t.lines i j) ∨ l ∈ t.poison := by
  have key : ∀ (cs : List (Nat × Nat)) (u : Tile), u = { t with poison := u.poison, origin := u.origin } →
      let v := cs.foldl (fun t p => t.poisonAt p.1 p.2 o) u
      v = { t with poison := v.poison, origin := v.origin }
        ∧ ∀ l, l ∈ v.poison ↔ (∃ c ∈ cs, l ∈ t.lines c.1 c.2) ∨ l ∈ u.poison := by
    intro cs
    induction cs with
    | nil => intro u h; exact ⟨h, by simp⟩
    | cons c cs ih =>
      intro u h
      have hl : u.lines c.1 c.2 = t.lines c.1 c.2 := by rw [h]; rfl
      obtain ⟨a, b⟩ := ih (u.poisonAt c.1 c.2 o) (by rw [Tile.poisonAt, Tile.poisonLines_eq, h])
      refine ⟨a, fun l => ?_⟩
      rw [List.foldl_cons, b l, Tile.poisonAt, Tile.mem_poisonLines, hl]
      simp only [List.mem_cons]
      constructor
      · rintro (⟨q, hq, h⟩ | h | h)
        · exact .inl ⟨q, .inr hq, h⟩
        · exact .inl ⟨c, .inl rfl, h⟩
        · exact .inr h
      · rintro (⟨q, rfl | hq, h⟩ | h)
        · exact .inr (.inl h)
        · exact .inl ⟨q, hq, h⟩
        · exact .inr (.inr h)
  obtain ⟨a, b⟩ := key t.coords t rfl
  refine ⟨a, fun l => ?_⟩
  rw [show t.poisonWindow o = t.coords.foldl (fun t p => t.poisonAt p.1 p.2 o) t from rfl, b l]
  simp only [Tile.mem_coords, Prod.exists]

theorem Tile.rewritePoison_spec (t : Tile) (masked : Bool) (ws : List ((Nat × Nat) × Bool)) (o : Option Origin) :
    t.rewritePoison masked ws o
        = { t with poison := (t.rewritePoison masked ws o).poison, origin := (t.rewritePoison masked ws o).origin }
      ∧ ∀ l, l ∈ (t.rewritePoison masked ws o).poison ↔ (∃ w ∈ ws, w.2 = true ∧ l ∈ t.lines w.1.1 w.1.2)
        ∨ (l ∈ t.poison ∧ (masked = true ∨ ∃ p q, p < t.brows ∧ q < t.bcols ∧ l ∈ t.linesAt p q
            ∧ ¬ ∃ w ∈ ws, t.wrow0 + w.1.1 = p ∧ t.wcol0 + w.1.2 = q)) := by
  unfold Tile.rewritePoison
  split
  · rename_i h
    simp only [Bool.and_eq_true, List.isEmpty_iff, Bool.not_eq_true', List.any_eq_false] at h
    refine ⟨rfl, fun l => ?_⟩
    rw [h.1]
    simp only [List.not_mem_nil, false_and, or_false, false_iff]
    rintro ⟨w, hw, h', _⟩
    exact h.2 w hw h'
  · refine ⟨rfl, fun l => ?_⟩
    cases masked with
    | true =>
      simp only [Tile.mem_poisonLines, List.mem_append, List.mem_filter, List.mem_flatMap, List.not_mem_nil, or_false, if_true, true_or,
        and_true]
      grind
    | false =>
      simp only [Bool.false_eq_true, false_or, if_false]
      simp only [Tile.mem_poisonLines, List.mem_append, List.mem_filter, List.mem_flatMap, List.not_mem_nil, or_false,
        Bool.not_eq_true', List.all_eq_false, List.mem_range, Bool.not_eq_true, Bool.or_eq_false_iff, Bool.not_eq_false',
        List.contains_iff_mem]
      constructor
      · rintro (⟨hl, p, hp, q, hq, h1, h2⟩ | ⟨w, ⟨hw, hb⟩, h⟩)
        · refine .inr ⟨hl, p, q, hp, hq, h1, ?_⟩
          rintro ⟨w, hw, rfl, rfl⟩
          exact Bool.false_ne_true (h2.symm.trans (List.contains_iff_mem.mpr (List.mem_map.mpr ⟨w, hw, rfl⟩)))
        · exact .inl ⟨w, hw, hb, h⟩
      · rintro (⟨w, hw, hb, h⟩ | ⟨hl, p, q, hp, hq, h1, h2⟩)
        · exact .inr ⟨w, ⟨hw, hb⟩, h⟩
        · refine .inl ⟨hl, p, hp, q, hq, h1, ?_⟩
          rw [Bool.eq_false_iff]
          intro hc
          obtain ⟨w, hw, e⟩ := List.mem_map.mp (List.contains_iff_mem.mp hc)
          simp only [Prod.mk.injEq] at e
          exact h2 ⟨w, hw, e.1, e.2⟩

/-! ### A window written -/

theorem Tile.poison_after {x t u : Tile}
    (h : t = { x with cmp := false, raw := [], elems := t.elems, poison := t.poison, origin := t.origin })
    (h2 : u = { t with poison := u.poison, origin := u.origin }) :
    u = { x with cmp := false, raw := [], elems := t.elems, poison := u.poison, origin := u.origin } := by
  cases u; cases t; cases x
  simp only [Tile.mk.injEq] at *
  simp_all

theorem Tile.writeAll_spec (x : Tile) (hf : x.Fits) (masked : Bool) (ws : Written) (o : Option Origin) (mp : Option (Option Origin))
    (on : Nat → Nat → Bool) (v : Nat → Nat → Nat) (bad : Nat → Nat → Bool)
    (hw : ∀ w, w ∈ ws ↔ x.Has w.1.1 w.1.2 ∧ on w.1.1 w.1.2 = true ∧ w.2 = (v w.1.1 w.1.2, bad w.1.1 w.1.2)) :
    let y := x.writeAll masked ws o mp
    y = { x with cmp := false, raw := [], elems := y.elems, poison := y.poison, origin := y.origin }
      ∧ (∀ i j, x.Has i j → y.elems.getD (x.index i j) 0 = if on i j then v i j else x.get i j)
      ∧ (∀ n, (∀ i j, x.Has i j → n ≠ x.index i j) → y.elems[n]? = x.elems[n]?)
      ∧ ∀ l, l ∈ y.poison ↔ (∃ i j, x.Has i j ∧ on i j = true ∧ bad i j = true ∧ l ∈ x.lines i j)
        ∨ (mp.isSome = true ∧ ∃ i j, x.Has i j ∧ l ∈ x.lines i j)
        ∨ (l ∈ x.poison ∧ (masked = true ∨ ∃ p q, p < x.brows ∧ q < x.bcols ∧ l ∈ x.linesAt p q
            ∧ ¬ ∃ i j, x.Has i j ∧ on i j = true ∧ x.wrow0 + i = p ∧ x.wcol0 + j = q)) := by
  intro y
  let t1 : Tile := ws.foldl (fun t w => t.set w.1.1 w.1.2 w.2.1) { x with cmp := false, raw := [] }
  let t2 := t1.rewritePoison masked (ws.map fun w => (w.1, w.2.2)) o
  have e1 : t1 = { x with cmp := false, raw := [], elems := t1.elems } := by
    show _ = _
    rw [show t1 = _ from setAll_eq ws _]
  have he : t1.elems = (ws.map fun w => (x.index w.1.1 w.1.2, w.2.1)).foldl (fun a p => a.setIfInBounds p.1 p.2) x.elems := by
    rw [show t1 = _ from setAll_eq ws _]; rfl
  obtain ⟨e2, p2⟩ := t1.rewritePoison_spec masked (ws.map fun w => (w.1, w.2.2)) o
  have hy : y = { x with cmp := false, raw := [], elems := t1.elems, poison := y.poison, origin := y.origin }
      ∧ ∀ l, l ∈ y.poison ↔ l ∈ t2.poison ∨ (mp.isSome = true ∧ ∃ i j, x.Has i j ∧ l ∈ x.lines i j) := by
    have e3 : t2 = { x with cmp := false, raw := [], elems := t1.elems, poison := t2.poison, origin := t2.origin } := by
      refine Tile.poison_after ?_ e2
      rw [e1]
    have ht : t2.elems = t1.elems := by rw [e3]
    have e3' : t2 = { x with cmp := false, raw := [], elems := t2.elems, poison := t2.poison, origin := t2.origin } := by rw [ht]; exact e3
    cases mp with
    | none =>
      have : y = t2 := rfl
      rw [this]
      exact ⟨e3, fun l => by simp⟩
    | some m =>
      have hq : ∃ q, y = t2.poisonWindow q := by cases o <;> exact ⟨_, rfl⟩
      obtain ⟨q, hq⟩ := hq
      obtain ⟨a, b⟩ := t2.poisonWindow_spec q
      rw [hq]
      refine ⟨(Tile.poison_after e3' a).trans (by rw [ht]), fun l => ?_⟩
      rw [b l]
      have h1 : ∀ i j, t2.Has i j ↔ x.Has i j := fun i j => by rw [e3]; exact Iff.rfl
      have h2 : ∀ i j, t2.lines i j = x.lines i j := fun i j => by rw [e3]; rfl
      simp only [h1, h2]
      grind
  have hget : ∀ n : Nat, y.elems[n]? = t1.elems[n]? := fun n => by rw [hy.1]
  refine ⟨?_, fun i j hij => ?_, fun n hn => ?_, fun l => ?_⟩
  · rw [hy.1]
  · have hlt := x.index_lt hf hij
    rw [Array.getD_eq_getD_getElem?, hget, he]
    have S := setAll_get (ws.map fun w => (x.index w.1.1 w.1.2, w.2.1)) x.elems (x.index i j)
    split
    · rename_i ho
      rw [S.2.2 (v i j) hlt]
      · rfl
      · exact List.mem_map.mpr ⟨((i, j), v i j, bad i j), (hw _).mpr ⟨hij, ho, rfl⟩, rfl⟩
      · intro p hp e
        obtain ⟨w, hw', rfl⟩ := List.mem_map.mp hp
        obtain ⟨h1, _, h3⟩ := (hw w).mp hw'
        obtain ⟨rfl, rfl⟩ := Tile.index_inj hf h1 hij e
        rw [h3]
    · rename_i ho
      rw [S.2.1]
      · rw [Tile.get, Array.getD_eq_getD_getElem?]
      · intro p hp e
        obtain ⟨w, hw', rfl⟩ := List.mem_map.mp hp
        obtain ⟨h1, h2, _⟩ := (hw w).mp hw'
        obtain ⟨rfl, rfl⟩ := Tile.index_inj hf h1 hij e
        exact ho h2
  · rw [hget, he]
    refine (setAll_get _ _ n).2.1 fun p hp e => ?_
    obtain ⟨w, hw', rfl⟩ := List.mem_map.mp hp
    exact hn _ _ ((hw w).mp hw').1 e.symm
  · rw [hy.2 l]
    have h2 : ∀ i j, t1.lines i j = x.lines i j := fun i j => by rw [e1]; rfl
    have h3 : ∀ p q, t1.linesAt p q = x.linesAt p q := fun i j => by rw [e1]; rfl
    have h4 : t1.poison = x.poison ∧ t1.brows = x.brows ∧ t1.bcols = x.bcols ∧ t1.wrow0 = x.wrow0 ∧ t1.wcol0 = x.wcol0 := by
      rw [e1]; exact ⟨rfl, rfl, rfl, rfl, rfl⟩
    have := p2 l
    rw [show (t1.rewritePoison masked (ws.map fun w => (w.1, w.2.2)) o) = t2 from rfl] at this
    rw [this]
    obtain ⟨h4a, h4b, h4c, h4d, h4e⟩ := h4
    simp only [h2, h3, h4a, h4b, h4c, h4d, h4e]
    have A : (∃ w ∈ ws.map (fun w => (w.1, w.2.2)), w.2 = true ∧ l ∈ x.lines w.1.1 w.1.2)
        ↔ ∃ i j, x.Has i j ∧ on i j = true ∧ bad i j = true ∧ l ∈ x.lines i j := by
      constructor
      · rintro ⟨w', hw', hb, hl⟩
        obtain ⟨w, hm, rfl⟩ := List.mem_map.mp hw'
        obtain ⟨g1, g2, g3⟩ := (hw w).mp hm
        exact ⟨_, _, g1, g2, by rw [g3] at hb; exact hb, hl⟩
      · rintro ⟨i, j, g1, g2, g3, hl⟩
        exact ⟨((i, j), bad i j), List.mem_map.mpr ⟨((i, j), v i j, bad i j), (hw _).mpr ⟨g1, g2, rfl⟩, rfl⟩, g3, hl⟩
    have B : ∀ p q, (∃ w ∈ ws.map (fun w => (w.1, w.2.2)), x.wrow0 + w.1.1 = p ∧ x.wcol0 + w.1.2 = q)
        ↔ ∃ i j, x.Has i j ∧ on i j = true ∧ x.wrow0 + i = p ∧ x.wcol0 + j = q := by
      intro p q
      constructor
      · rintro ⟨w', hw', e⟩
        obtain ⟨w, hm, rfl⟩ := List.mem_map.mp hw'
        obtain ⟨g1, g2, _⟩ := (hw w).mp hm
        exact ⟨_, _, g1, g2, e⟩
      · rintro ⟨i, j, g1, g2, e⟩
        exact ⟨((i, j), bad i j), List.mem_map.mpr ⟨((i, j), v i j, bad i j), (hw _).mpr ⟨g1, g2, rfl⟩, rfl⟩, e⟩
    rw [A]
    simp only [B]
    grind

/-! ### The frame -/

theorem Noted.refl (s : State) : Noted s s := ⟨fun _ => rfl, fun _ => rfl, rfl⟩

theorem Noted.trans {s t u : State} (h : Noted s t) (g : Noted t u) : Noted s u where
  cores c := by rw [g.cores c, h.cores c]
  dies d := by rw [g.dies d, h.dies d]
  mgc := by rw [g.mgc, h.mgc]

/-- Beside what reading tiles leaves behind, nothing changed, the blocks included. -/
structure Read (s t : State) : Prop where
  tiles : TilesOnly s t
  blocks : t.blocks = s.blocks

theorem Read.refl (s : State) : Read s s := ⟨⟨rfl, Noted.refl s⟩, rfl⟩

theorem Read.trans {s t u : State} (h : Read s t) (g : Read t u) : Read s u :=
  ⟨⟨by rw [g.tiles.rest, h.tiles.rest], h.tiles.noted.trans g.tiles.noted⟩, g.blocks.trans h.blocks⟩

/-- A step that changed only the MGC's log and counters. -/
theorem Read.mgc {s t : State} (h : t = { s with mgc := t.mgc }) (g : t.mgc = { s.mgc with log := t.mgc.log, errors := t.mgc.errors }) :
    Read s t where
  tiles := {
    rest := by rw [h]
    noted := {
      cores := fun c => by rw [h]; rfl
      dies := fun d => by rw [h]; rfl
      mgc := g } }
  blocks := by rw [h]

theorem noteError_read (s : State) (a : Nat) : Read s (noteError s a) := by
  unfold noteError countErrors logMgc
  generalize (logUncorrectable : Nat) = n
  dsimp only
  generalize List.drop _ _ = l
  exact Read.mgc rfl rfl

theorem bumpFree_read (s : State) : Read s s.bumpFree := ⟨⟨rfl, fun _ => rfl, fun _ => rfl, rfl⟩, rfl⟩

theorem setArmed_read (s : State) (n : Nat) (a : List (Nat × Nat)) : Read s (s.setCore n { s.core n with armed := a }) := by
  refine ⟨⟨rfl, fun c => ?_, fun _ => rfl, rfl⟩, rfl⟩
  by_cases e : c = n
  · subst e; rw [State.core_setCore_same]
  · rw [State.core_setCore_other _ e]

theorem setMonitors_read (s : State) (d : Nat) (ms : List Monitor) : Read s (s.setDie d { s.die d with monitors := ms }) := by
  by_cases e : d = 0
  · subst e
    exact ⟨⟨rfl, fun _ => rfl, fun m => by by_cases h : m = 0 <;> simp [State.setDie, State.die, h], rfl⟩, rfl⟩
  · refine ⟨⟨?_, fun _ => ?_, fun m => ?_, ?_⟩, ?_⟩
    · simp [State.setDie, e]
    · simp [State.setDie, e, State.core]
    · by_cases h : m = 0 <;> simp [State.setDie, State.die, e, h]
    · simp [State.setDie, e]
    · simp [State.setDie, e]

theorem monitorSample_read (s : State) (d n v : Nat) : Read s (monitorSample s d n v) := by
  unfold monitorSample
  dsimp only
  split
  · exact setMonitors_read s d _
  · exact Read.refl s

theorem foldl_read {α : Type} (f : State → α → State) (h : ∀ s a, Read s (f s a)) (l : List α) (s : State) : Read s (l.foldl f s) := by
  induction l generalizing s with
  | nil => exact Read.refl s
  | cons a l ih => exact (h s a).trans (ih _)

theorem fired_read (s : State) (k : BKey) (ts : List Tile) : Read s (s.fired k ts) := by
  unfold State.fired
  split
  · exact Read.refl s
  · exact (setArmed_read s _ _).trans (foldl_read _ (fun s _ => noteError_read s _) _ _)

/-- The block as an instruction runs on it whose compressed sources were expanded: its tiles are in other slots. -/
structure Expanded (b c : Block) : Prop where
  rest : c = { b with t := c.t, superseded := c.superseded }
  tiles : ∀ t, (c.gt t).map Tile.value0 = (b.gt t).map Tile.value0

theorem Expanded.refl (b : Block) : Expanded b b := ⟨rfl, fun _ => rfl⟩
theorem Expanded.trans {b c d : Block} (h : Expanded b c) (g : Expanded c d) : Expanded b d :=
  ⟨by rw [g.rest, h.rest], fun t => (g.tiles t).trans (h.tiles t)⟩

theorem Block.supersede_expanded (b : Block) (t : TReg) : Expanded b (b.supersede t) := by
  unfold Block.supersede
  split
  · split
    · exact ⟨rfl, fun _ => rfl⟩
    · exact Expanded.refl b
  · exact Expanded.refl b

theorem Block.putT_expanded {b : Block} {t : TReg} {x y : Tile} (h : b.gt t = some x) (e : y.value0 = x.value0) :
    Expanded b (b.putT t (some y)) := by
  refine ⟨rfl, fun u => ?_⟩
  by_cases hu : u = t
  · subst hu; rw [Block.gt_putT_same, h]; exact congrArg some e
  · rw [Block.gt_putT_other _ hu]

/-- The expansion of an instruction's sources (R205). -/
theorem expandFor_spec (s : State) (k : BKey) (b : Block) (ts : List TReg) :
    Read s (s.expandFor k b ts).1 ∧ Expanded b (s.expandFor k b ts).2 := by
  have key : ∀ (ts : List TReg) (p : State × Block), Read s p.1 → Expanded b p.2 →
      let q := ts.foldl (fun (p : State × Block) t => match p.2.gt t with
        | some x => if x.cmp then (p.1.bumpFree, (p.2.supersede t).putT t (some { x with
            cmp := false
            raw := []
            phys := p.1.freeCount })) else p
        | none => p) p
      Read s q.1 ∧ Expanded b q.2 := by
    intro ts
    induction ts with
    | nil => exact fun p h1 h2 => ⟨h1, h2⟩
    | cons t ts ih =>
      intro p h1 h2
      rw [List.foldl_cons]
      apply ih
      · split
        · split
          · exact h1.trans (bumpFree_read _)
          · exact h1
        · exact h1
      · split
        · rename_i x hx
          split
          · refine h2.trans ((p.2.supersede_expanded t).trans (Block.putT_expanded (x := x) ?_ rfl))
            unfold Block.supersede
            rw [hx]
            dsimp only
            split <;> exact hx
          · exact h2
        · exact h2
  exact key ts _ (monitorSample_read s _ _ _) (Expanded.refl b)

/-- An entry of the dependency table leaves everything else of the block. -/
theorem Block.enter_eq (b : Block) (d : DepEntry) : b.enter d = { b with deps := (b.enter d).deps } := by
  unfold Block.enter; split <;> rfl

theorem Block.issued_eq (b : Block) (td : TReg) : b.issued td = { b with deps := (b.issued td).deps, pc := b.pc + 8 } := by
  unfold Block.issued Block.issuedAs Block.advance
  rw [Block.enter_eq]

/-- A used tile is its binding, with the window of its link. -/
theorem Block.useTile_binding {b : Block} {t : TReg} {x : Tile} (h : b.useTile t = .ok x) :
    ∃ z, b.gt t = some z ∧ x = { z with wrow0 := x.wrow0, wcol0 := x.wcol0, wrows := x.wrows, wcols := x.wcols } := by
  unfold Block.useTile at h
  cases hz : b.gt t with
  | none => simp [hz] at h
  | some z =>
    refine ⟨z, rfl, ?_⟩
    simp only [hz] at h
    split at h
    · cases h; rfl
    · repeat' split at h
      all_goals first | (cases h; rfl) | cases h

/-- Writing a computed window to its tile (R94, R207): what every instruction on windows does with its results. -/
theorem windowResult_of {s s1 : State} {k : BKey} {b c : Block} {td : TReg} {x : Tile} (hx : b.useTile td = .ok x) (hf : x.Fits)
    (hs1 : Read s s1) (hc : Expanded b c) (mask : Option MReg) (masked : Bool) (srcs : List Src) (d : Tile)
    (hd : d = { x with scales := d.scales, tscale := d.tscale }) (hs : x.fmt.block = 0 → d = x)
    (r : Written × W64 × W64) (on : Nat → Nat → Bool) (v : Nat → Nat → Nat) (bad : Nat → Nat → Bool)
    (hw : ∀ w, w ∈ r.1 ↔ x.Has w.1.1 w.1.2 ∧ on w.1.1 w.1.2 = true ∧ w.2 = (v w.1.1 w.1.2, bad w.1.1 w.1.2)) :
    WindowResult s k b td x on v bad { keeps := masked, bad := (b.maskPoison mask).isSome } (fun n => r.2.1.getLsbD n = true) r.2.2
      (writeWindow s1 k c td d mask masked srcs r) := by
  obtain ⟨z, hz, hxz⟩ := Block.useTile_binding hx
  have hz' := hc.tiles td
  rw [hz] at hz'
  obtain ⟨z', hz1, hz2⟩ : ∃ z', c.gt td = some z' ∧ z'.value0 = z.value0 := by
    cases h : c.gt td with
    | none => simp [h] at hz'
    | some z' => exact ⟨z', rfl, by simpa [h] using hz'⟩
  have hmask : c.maskPoison mask = b.maskPoison mask := by rw [hc.rest]; rfl
  let o := firstOrigin (r.1.map fun w => w.1) srcs
  let y := d.writeAll masked r.1 o (b.maskPoison mask)
  have hfd : d.Fits := by
    constructor <;> rw [hd]
    · exact hf.size
    · exact hf.rows
    · exact hf.cols
  have H : ∀ i j, d.Has i j ↔ x.Has i j := fun i j => by rw [hd]; exact Iff.rfl
  have I : ∀ i j, d.index i j = x.index i j := fun i j => by rw [hd]; rfl
  have L : ∀ i j, d.lines i j = x.lines i j := fun i j => by rw [hd]; rfl
  have M : ∀ i j, d.linesAt i j = x.linesAt i j := fun i j => by rw [hd]; rfl
  have E : d.elems = x.elems ∧ d.poison = x.poison ∧ d.brows = x.brows ∧ d.bcols = x.bcols ∧ d.wrow0 = x.wrow0 ∧ d.wcol0 = x.wcol0 := by
    rw [hd]; exact ⟨rfl, rfl, rfl, rfl, rfl, rfl⟩
  obtain ⟨E1, E2, E3, E4, E5, E6⟩ := E
  obtain ⟨w1, w2, w3, w4⟩ := d.writeAll_spec hfd masked r.1 o (b.maskPoison mask) on v bad (by simpa only [H] using hw)
  simp only [H, I, L, M, E1, E2, E3, E4, E5, E6, Tile.get] at w2 w3 w4
  let y' : Tile := { z'.refill y with phys := z'.phys }
  let b1 : Block := c.putT td (some y')
  let b' : Block := (({ b1 with seed := r.2.2 } : Block).raiseFlags r.2.1).issued td
  have hb' : writeWindow s1 k c td d mask masked srcs r = s1.setBlock k b' := by
    unfold writeWindow Block.commitTile
    simp only [hz1, hmask]
    rfl
  rw [hb']
  have hR := hs1.tiles.rest
  have hI : b' = { ({ b1 with seed := r.2.2 } : Block).raiseFlags r.2.1 with deps := b'.deps, pc := c.pc + 8 } := Block.issued_eq _ td
  refine ⟨b', y', ⟨State.block?_setBlock_same _ _ _, fun k' hk => ?_, fun a => ?_⟩, ⟨?_, ?_⟩, ?_⟩
  · rw [State.block?_setBlock_other _ hk]; simp only [State.block?, hs1.blocks]
  · rw [State.setBlock_mem, hR]
  · show ({ s1 with blocks := _ } : State) = _
    rw [hR]
    rfl
  · exact ⟨hs1.tiles.noted.cores, hs1.tiles.noted.dies, hs1.tiles.noted.mgc⟩
  · refine ⟨?_, ?_, w2, w3, w4, fun n => ?_, ?_, fun h => ?_, fun z1 h => ?_, fun t ht => ?_, ?_⟩
    · rw [hI]; show c.pc + 8 = _; rw [hc.rest]
    · rw [hI]; exact Block.gt_putT_same _ _ _
    · rw [hI]; show (c.status ||| r.2.1).getLsbD n = true ↔ _; rw [hc.rest]; simp
    · rw [hI]; rfl
    · exact ⟨(congrArg Tile.scales w1).trans (by rw [hs h]), (congrArg Tile.tscale w1).trans (by rw [hs h])⟩
    · rw [hz] at h
      cases h
      have hc : y.cmp = false := congrArg Tile.cmp w1
      have hr : y.raw = [] := congrArg Tile.raw w1
      show y' = _
      simp only [y', Tile.refill, hc, hr]
      exact congrArg (fun q : Tile => { q with
        cmp := false
        raw := []
        tscale := y.tscale
        elems := y.elems
        scales := y.scales
        poison := y.poison
        origin := y.origin
        phys := z'.phys
        unwritten := false }) hz2
    · rw [← hc.tiles t]
      rw [hI]
      exact congrArg _ (Block.gt_putT_other _ (by simpa using ht) _)
    · have key : ∀ c : Block, c = { b with t := c.t, superseded := c.superseded } →
          let u := (({ c.putT td (some y') with seed := r.2.2 } : Block).raiseFlags r.2.1).issued td
          u = { b with pc := u.pc, t := u.t, deps := u.deps, status := u.status, seed := u.seed, superseded := u.superseded } := by
        intro c hc
        generalize c.t = q, c.superseded = p at hc
        subst hc
        intro u
        rw [show u = _ from Block.issued_eq _ td]
        rfl
      exact key _ hc.rest

/-! ### Instructions on windows -/

/-- A window that a function of draws and coordinates fills. -/
theorem elementResult_of {s s1 : State} {k : BKey} {b c : Block} {td : TReg} {x : Tile} (hx : b.useTile td = .ok x) (hf : x.Fits)
    (hs1 : Read s s1) (hc : Expanded b c) (mask : Option MReg) (masked : Bool) (srcs : List Src) (on : Nat → Nat → Bool) (mode : Rnd)
    (f : Nat → Nat → Nat → Nat × W64) :
    ElementResult s k b td x on mode f (fun i j => srcs.any fun c => c.1 i j) { keeps := masked, bad := (b.maskPoison mask).isSome }
      (writeWindow s1 k c td x mask masked srcs (runWindow x.coords on mode b.seed srcs (b.maskPoison mask).isSome f)) := by
  obtain ⟨r1, r2, r3⟩ := runWindow_spec x.coords on mode b.seed srcs (b.maskPoison mask).isSome f
  have h := windowResult_of (s := s) (k := k) hx hf hs1 hc mask masked srcs x rfl (fun _ => rfl)
    (runWindow x.coords on mode b.seed srcs (b.maskPoison mask).isSome f) on
    (fun i j => (f (drawAt mode b.seed (i * x.wcols + j)) i j).1) (fun i j => srcs.any fun c => c.1 i j)
    (fun w => by rw [r1]; exact mem_cellsWritten x on mode b.seed _ f w)
  unfold ElementResult
  rw [r3, x.coords_length] at h
  have e : (fun n => (runWindow x.coords on mode b.seed srcs (b.maskPoison mask).isSome f).2.1.getLsbD n = true)
      = raised x on (fun i j => f (drawAt mode b.seed (i * x.wcols + j)) i j) (fun i j => srcs.any fun c => c.1 i j)
          { keeps := masked, bad := (b.maskPoison mask).isSome } := by
    funext n
    rw [r2 n]
    apply propext
    constructor
    · rintro ⟨h0, ⟨⟨i, j⟩, m⟩, hm, h1, h2, h3⟩
      obtain ⟨hij, rfl⟩ := (x.mem_coords_zipIdx i j m).mp hm
      exact ⟨h0, i, j, hij, h1, h2, h3⟩
    · rintro ⟨h0, i, j, hij, h1, h2, h3⟩
      exact ⟨h0, ((i, j), i * x.wcols + j), (x.mem_coords_zipIdx i j _).mpr ⟨hij, rfl⟩, h1, h2, h3⟩
  rw [e] at h
  exact h

/-- The tiles of a destination and its sources. -/
theorem takeTiles_ok {s : State} {k : BKey} {b : Block} {t : TReg} {r : Bool} {ns : List (TReg × Bool)} {x : Tile} {xs : Named}
    (h : (if r then s.source k b t else b.useTile t) = .ok x) (hs : takeTiles s k b ns = .ok xs) :
    takeTiles s k b ((t, r) :: ns) = .ok ((t, x) :: xs) := by
  unfold takeTiles; simp only [h, hs]

/-- The meaning that the checks of a name list let through. -/
theorem withTiles_ok {s : State} {k : BKey} {b : Block} {names : List (TReg × Bool)} {check : Named → Option FaultInfo} {ts : Named}
    (ht : takeTiles s k b names = .ok ts) (hc : check ts = none) (f : State → Block → Named → Out) :
    ∃ s1 c, withTiles s k b names check f = f s1 c ts ∧ Read s s1 ∧ Expanded b c := by
  unfold withTiles; simp only [ht, hc]
  exact ⟨_, _, rfl, (fired_read s k _).trans (expandFor_spec _ k b _).1, (expandFor_spec _ k b _).2⟩

theorem firstFault_none (l : List (Bool × Nat × TReg)) (h : ∀ p ∈ l, p.1 = false) : firstFault l = none := by
  induction l with
  | nil => rfl
  | cons p l ih =>
    obtain ⟨a, c, t⟩ := p
    have := h (a, c, t) (by simp)
    dsimp only at this
    subst this
    exact ih fun q hq => h q (by simp [hq])

/-- The checks of R206 hold of a destination and its operands. -/
theorem tileChecks_none {ok : Efmt → Bool} {td : TReg} {d : Tile} {srcs : Named} (hd : d.home = .s) (hok : ok d.fmt = true)
    (hs : ∀ p ∈ srcs, p.2.home = .s ∧ p.2.fmt = d.fmt ∧ p.2.wrows = d.wrows ∧ p.2.wcols = d.wcols) :
    firstOf [homeFault ((td, d) :: srcs), formatsFault ok ((td, d) :: srcs), windowsFault ((td, d) :: srcs)] = none := by
  have h1 : homeFault ((td, d) :: srcs) = none := by
    refine firstFault_none _ fun p hp => ?_
    obtain ⟨q, hq, rfl⟩ := List.mem_map.mp hp
    rcases List.mem_cons.mp hq with rfl | hq
    · simp [hd]
    · simp [(hs q hq).1]
  have h2 : formatsFault ok ((td, d) :: srcs) = none := by
    refine firstFault_none _ fun p hp => ?_
    obtain ⟨q, hq, rfl⟩ := List.mem_map.mp hp
    rcases List.mem_cons.mp hq with rfl | hq
    · simp [hok]
    · simp [(hs q hq).2.1, hok]
  have h3 : windowsFault ((td, d) :: srcs) = none := by
    refine firstFault_none _ fun p hp => ?_
    obtain ⟨q, hq, rfl⟩ := List.mem_map.mp hp
    simp [Tile.sameWindow, (hs q hq).2.2]
  rw [h1, h2, h3]; rfl

/-- What an instruction on tiles of equal windows and one format does (R206). -/
theorem Moves.tileForm {s : State} {k : BKey} {b : Block} (h : Moves s k b) {td : TReg} {d : Tile} (hd : Dest b td d)
    {ok : Efmt → Bool} (hok : ok d.fmt = true) (as : List TReg) (srcs : Named)
    (ht : takeTiles s k b (as.map fun t => (t, true)) = .ok srcs)
    (hs : ∀ p ∈ srcs, p.2.home = .s ∧ p.2.fmt = d.fmt ∧ p.2.wrows = d.wrows ∧ p.2.wcols = d.wcols)
    (mask : Option MReg) (mode : Rnd) (f : Efmt → Nat → (Nat → Nat) → Nat × W64) :
    ∃ t, Machine.tileForm ok td as mask mode f s = .next t ∧ ElementResult s k b td d (b.active mask d.wcols) mode
      (fun draw i j => f d.fmt draw fun n => ((srcs.map fun p => p.2.get i j)[n]?).getD 0)
      (fun i j => srcs.any fun p => p.2.poisoned i j) (b.writes mask) t := by
  have hall : takeTiles s k b (destAndSources td as) = .ok ((td, d) :: srcs) := takeTiles_ok (by simpa using hd.use) ht
  obtain ⟨s1, c, e, hs1, hc⟩ := withTiles_ok hall (check := fun ts => firstOf [homeFault ts, formatsFault ok ts, windowsFault ts])
    (tileChecks_none hd.home hok hs) (fun s b ts => match ts with
        | [] => .next s
        | d :: srcs => elementwise s k b td d.2 mask mode (srcs.map fun p => p.2.src) fun draw i j =>
            f d.2.fmt draw fun n => ((srcs.map fun p => p.2.get i j)[n]?).getD 0)
  refine ⟨_, (h.onBlock _).trans e, ?_⟩
  have R := elementResult_of (s := s) (k := k) hd.use hd.fits hs1 hc mask mask.isSome (srcs.map fun p => p.2.src) (b.active mask d.wcols) mode
    (fun draw i j => f d.fmt draw fun n => ((srcs.map fun p => p.2.get i j)[n]?).getD 0)
  have hb : (fun i j => (srcs.map fun p => p.2.src).any fun c => c.1 i j) = fun i j => srcs.any fun p => p.2.poisoned i j := by
    funext i j; rw [List.any_map]; rfl
  rw [hb] at R
  have ha : c.active mask d.wcols = b.active mask d.wcols := by funext i j; rw [hc.rest]; rfl
  have hq : c.seed = b.seed := by rw [hc.rest]
  have hm : c.maskPoison mask = b.maskPoison mask := by rw [hc.rest]; rfl
  show ElementResult s k b td d _ mode _ _ _ (writeWindow s1 k c td d mask mask.isSome _
    (runWindow d.coords (c.active mask d.wcols) mode c.seed _ (c.maskPoison mask).isSome _))
  rw [ha, hq, hm]
  exact R

end Sys2Proof.Machine
end

