-- ==== Sys2Proof/Tests/Slice0.lean ====
section
/-! SUPPORT. Tests: ill-formed terms, decoded words, single steps on small states, and for every statement with hypotheses a state that meets
them. Expected results are the spec's worked examples and encodings, or computed by hand from its rules. -/

/- One test after another: each waits for the kernel to have checked what stands before it. -/
set_option Elab.async false

open Sys2Proof Sys2Proof.Machine

namespace Sys2Proof.Tests

/-! ### Static limits: a term that breaks each of them -/

/-- R55: a loop that counts s0, a register no read accepts, a bit field past bit 63, an odd pair. -/
theorem test_ill_control_and_scalar : Instr.wellFormed (.loopc 0 4) = false ∧ Instr.wellFormed (.srd 1 0x102) = false
    ∧ Instr.wellFormed (.swr 1 0x102) = false ∧ Instr.wellFormed (.bfx 1 2 60 4 false) = false ∧ Instr.wellFormed (.bfi 1 2 63 1) = false
    ∧ Instr.wellFormed (.ldq 3 1 .weak 0) = false ∧ Instr.wellFormed (.stq 5 1 .weak 0) = false ∧ Instr.wellFormed (.mkq 1 2) = false
    ∧ Instr.wellFormed (.cas16 2 1 4 7 (.strong .sys) 0) = false := by decide

/-- R43, R150, R241: strengths that an instruction does not accept. -/
theorem test_ill_strengths : Instr.wellFormed (.ldD 1 1 (.rel .dev) 0) = false ∧ Instr.wellFormed (.stD 1 1 (.acq .dev) 0) = false
    ∧ Instr.wellFormed (.tld 1 1 0 false (.rel .dev) 0) = false ∧ Instr.wellFormed (.tldg 1 1 0 2 (.rel .dev) 0) = false
    ∧ Instr.wellFormed (.tldd 1 1 1 (.rel .dev) 0) = false ∧ Instr.wellFormed (.tst 1 1 0 (.acq .dev) 0) = false
    ∧ Instr.wellFormed (.tsts 1 1 0 2 (.acq .dev) 0) = false ∧ Instr.wellFormed (.tstd 1 1 1 (.acq .dev) 0) = false
    ∧ Instr.wellFormed (.xcpy 1 1 2 3 4 (.strong .dev)) = false ∧ Instr.wellFormed (.enq 1 0 (.strong .dev)) = false
    ∧ Instr.wellFormed (.move 1 1 2 3 0 (.strong .dev)) = false ∧ Instr.wellFormed (.mkfree 1 1 2 0 (.strong .dev)) = false
    ∧ Instr.wellFormed (.mvwait 1 2 (.rel .dev)) = false ∧ Instr.wellFormed (.atomW .add 1 1 2 .weak 0) = false
    ∧ Instr.wellFormed (.atomD .fadd 1 1 2 (.strong .dev) 0) = false ∧ Instr.wellFormed (.casW 1 1 2 3 .weak 0) = false
    ∧ Instr.wellFormed (.lda 1 1 .weak 0) = false ∧ Instr.wellFormed (.stl 1 1 (.acq .dev) 0) = false
    ∧ Instr.wellFormed (.waitv 1 1 2 3 (.rel .dev) 0) = false := by decide

/-- R40, R155, R156, R159, R170, R199: counts, homes, sizes, selectors and formats out of range. -/
theorem test_ill_tiles : Instr.wellFormed (.bari 1 0) = false ∧ Instr.wellFormed (.bara 1 257) = false
    ∧ Instr.wellFormed (.tbind 1 255 255 .ui64 .s .row) = false ∧ Instr.wellFormed (.tbind 1 0 0 .a56 .s .row) = false
    ∧ Instr.wellFormed (.tbindMn 1 2 .fp32 .a .row) = false ∧ Instr.wellFormed (.tbindMk 1 2 .a56 .a .col) = false
    ∧ Instr.wellFormed (.tbindKn 1 2 .a56 .s .row) = false ∧ Instr.wellFormed (.tdesc 1 2 3) = false ∧ Instr.wellFormed (.tstat 1 2 9) = false
    ∧ Instr.wellFormed (.tstat 1 2 3) = false ∧ Instr.wellFormed (.shq 1 2 7) = false ∧ Instr.wellFormed (.plds 1 2 4) = false
    ∧ Instr.wellFormed (.tprf 1 0 0) = false ∧ Instr.wellFormed (.tcvt 1 2 .ks4 .rne false none) = false
    ∧ Instr.wellFormed (.tacv 1 2 .a56 .rne false none) = false ∧ Instr.wellFormed (.tacq 1 2 .a56 .rne false none) = false
    ∧ Instr.wellFormed (.tcmp 1 2 3 .a56 0 none) = false ∧ Instr.wellFormed (.tcmp 1 2 3 .fp32 8 none) = false
    ∧ Instr.wellFormed (.tsel 1 2 3 none) = false ∧ Instr.wellFormed (.topk 1 2 3 0 none) = false
    ∧ Instr.wellFormed (.reduce 1 0 (.i3 1 2 3) none) = false := by decide

/-- R52, R55: decoding refuses words with a nonzero reserved field, a reserved code, an unassigned opcode or a broken limit. -/
theorem test_decode_refuses : decodeTile 0x2000846000000001 = .error .reservedField ∧ decodeTile 0x2831108000000000 = .error .reservedCode
    ∧ decodeTile 0 = .error .unassignedMinor ∧ decodeTile 0x0050000000000006 = .error .staticLimit
    ∧ decodeTile 0xFE00000000000000 = .error .unassignedMajor := ⟨rfl, rfl, rfl, rfl, rfl⟩

/-! ### Decoded words -/


/-- R33, R45: format C, major 0x00. -/
theorem test_decode_control :
    decodeTile 0x0010898000000005 = .ok (.cIf .ge 1 2 5)
      ∧ decodeTile 0x0020000000000009 = .ok (.cElse 9)
      ∧ decodeTile 0x0030000000000000 = .ok .endif
      ∧ decodeTile 0x0040000000000007 = .ok (.loop 7)
      ∧ decodeTile 0x0052000000000006 = .ok (.loopc 4 6)
      ∧ decodeTile 0x00620000FFFFFFFA = .ok (.endl 4 0xFFFFFFFA)
      ∧ decodeTile 0x0071A60000000002 = .ok (.brk .ltu 3 9 2)
      ∧ decodeTile 0x0081A48000000002 = .ok (.cont .ne 3 9 2)
      ∧ decodeTile 0x00900000FFFFFFF0 = .ok (.call 0xFFFFFFF0)
      ∧ decodeTile 0x00A30000FFFFFFF2 = .ok (.calli 6 0xFFFFFFF2)
      ∧ decodeTile 0x00B0000000000000 = .ok .ret
      ∧ decodeTile 0x00C0000000000000 = .ok .exit :=
  ⟨rfl, rfl, rfl, rfl, rfl, rfl, rfl, rfl, rfl, rfl, rfl, rfl⟩

/-- R32, R45: format S, majors 0x01 and 0x02. -/
theorem test_decode_system :
    decodeTile 0x0200000000000003 = .ok (.trap 3)
      ∧ decodeTile 0x0210000000000000 = .ok .nop
      ∧ decodeTile 0x0220000000000000 = .ok .yield
      ∧ decodeTile 0x0230800000000000 = .ok (.srd 1 0)
      ∧ decodeTile 0x02400C0000000031 = .ok (.swr 3 0x31)
      ∧ decodeTile 0x02400C0000000102 = .ok (.hinv 3)
      ∧ decodeTile 0x02400C0000000103 = .ok (.xroot 3)
      ∧ decodeTile 0x0251000300000010 = .ok (.capq 2 3 0 0x10)
      ∧ decodeTile 0x0262800000000000 = .ok (.lwid 5)
      ∧ decodeTile 0x0272A40000000000 = .ok (.publish 5 9)
      ∧ decodeTile 0x0280000000018000 = .ok (.valid (.partImm 0x8000))
      ∧ decodeTile 0x0290000000000000 = .ok .wrapend
      ∧ decodeTile 0x0400000000000000 = .ok .eret
      ∧ decodeTile 0x0410000000000000 = .ok .savectx
      ∧ decodeTile 0x0420000000000000 = .ok .loadctx
      ∧ decodeTile 0x8C001C0000000000 = .ok (.mslt 7) :=
  ⟨rfl, rfl, rfl, rfl, rfl, rfl, rfl, rfl, rfl, rfl, rfl, rfl, rfl, rfl, rfl, rfl⟩

/-- R32, R45: format S, major 0x10. -/
theorem test_decode_scalar :
    decodeTile 0x2000886000000000 = .ok (.add 1 2 3)
      ∧ decodeTile 0x2010886000000000 = .ok (.sub 1 2 3)
      ∧ decodeTile 0x2020886000000000 = .ok (.mul 1 2 3)
      ∧ decodeTile 0x2030886000000000 = .ok (.mulh 1 2 3)
      ∧ decodeTile 0x2040886000000000 = .ok (.mulhu 1 2 3)
      ∧ decodeTile 0x2050886000000000 = .ok (.div 1 2 3)
      ∧ decodeTile 0x2060886000000000 = .ok (.divu 1 2 3)
      ∧ decodeTile 0x2070886000000000 = .ok (.rem 1 2 3)
      ∧ decodeTile 0x2080886000000000 = .ok (.remu 1 2 3)
      ∧ decodeTile 0x2090886000000000 = .ok (.and 1 2 3)
      ∧ decodeTile 0x20A0886000000000 = .ok (.or 1 2 3)
      ∧ decodeTile 0x20B0886000000000 = .ok (.xor 1 2 3)
      ∧ decodeTile 0x20C0886000000000 = .ok (.sll 1 2 3)
      ∧ decodeTile 0x20D0886000000000 = .ok (.srl 1 2 3)
      ∧ decodeTile 0x20E0886000000000 = .ok (.sra 1 2 3)
      ∧ decodeTile 0x20F0886000000000 = .ok (.slt 1 2 3)
      ∧ decodeTile 0x2100886000000000 = .ok (.sltu 1 2 3)
      ∧ decodeTile 0x2110886000000000 = .ok (.min 1 2 3)
      ∧ decodeTile 0x2120886000000000 = .ok (.max 1 2 3)
      ∧ decodeTile 0x2132140000000000 = .ok (.clz 4 5)
      ∧ decodeTile 0x2142140000000000 = .ok (.popc 4 5)
      ∧ decodeTile 0x215214C700000000 = .ok (.sel 4 5 6 7)
      ∧ decodeTile 0x21621400000013C8 = .ok (.bfx 4 5 8 15 true)
      ∧ decodeTile 0x21721400000003C8 = .ok (.bfi 4 5 8 15) :=
  ⟨rfl, rfl, rfl, rfl, rfl, rfl, rfl, rfl, rfl, rfl, rfl, rfl, rfl, rfl, rfl, rfl, rfl, rfl, rfl, rfl, rfl, rfl, rfl, rfl⟩

/-- R32, R45, R147: format S, major 0x11. -/
theorem test_decode_immediate :
    decodeTile 0x22018C0000000001 = .ok (.addi 3 3 1)
      ∧ decodeTile 0x22908800000000FF = .ok (.andi 1 2 0xFF)
      ∧ decodeTile 0x22A08800000000FF = .ok (.ori 1 2 0xFF)
      ∧ decodeTile 0x22B08800000000FF = .ok (.xori 1 2 0xFF)
      ∧ decodeTile 0x22C088000000003F = .ok (.slli 1 2 63)
      ∧ decodeTile 0x22D0880000000001 = .ok (.srli 1 2 1)
      ∧ decodeTile 0x22E0880000000004 = .ok (.srai 1 2 4)
      ∧ decodeTile 0x238100000000000A = .ok (.li 2 10)
      ∧ decodeTile 0x239100000000ABCD = .ok (.lih 2 0xABCD) :=
  ⟨rfl, rfl, rfl, rfl, rfl, rfl, rfl, rfl, rfl⟩

/-- R32, R45, R149: format S, major 0x12. -/
theorem test_decode_reference :
    decodeTile 0x240190A000000000 = .ok (.refmk 3 4 5)
      ∧ decodeTile 0x2401900000000001 = .ok (.refmkW 3 4)
      ∧ decodeTile 0x241084E000000000 = .ok (.refadd 1 1 7)
      ∧ decodeTile 0x2420840000000008 = .ok (.refaddImm 1 1 8)
      ∧ decodeTile 0x243A240000000000 = .ok (.refh 20 9)
      ∧ decodeTile 0x244A240000000000 = .ok (.refoff 20 9)
      ∧ decodeTile 0x244A240000000001 = .ok (.refoffW 20 9) :=
  ⟨rfl, rfl, rfl, rfl, rfl, rfl, rfl⟩

/-- R34, R45: format M, majors 0x13 and 0x14. -/
theorem test_decode_scalar_memory :
    decodeTile 0x2602B00000FFFFFF = .ok (.ldB 5 6 .weak 0xFFFFFF)
      ∧ decodeTile 0x2612B14000000002 = .ok (.ldH 5 6 (.strong .blk) 2)
      ∧ decodeTile 0x2622B54000000000 = .ok (.ldW 5 6 (.strong .sys) 0)
      ∧ decodeTile 0x26331A8000000000 = .ok (.ldD 6 3 (.acq .cl) 0)
      ∧ decodeTile 0x2644300000000010 = .ok (.ldq 8 6 .weak 16)
      ∧ decodeTile 0x2802B00000000000 = .ok (.stB 5 6 .weak 0)
      ∧ decodeTile 0x2812B3C000000000 = .ok (.stH 5 6 (.rel .dev) 0)
      ∧ decodeTile 0x2822B44000000000 = .ok (.stW 5 6 (.strong .dom) 0)
      ∧ decodeTile 0x283112C000000000 = .ok (.stD 2 2 (.rel .cl) 0)
      ∧ decodeTile 0x2830880000FFFFF8 = .ok (.stD 1 1 .weak 0xFFFFF8)
      ∧ decodeTile 0x2844300000000010 = .ok (.stq 8 6 .weak 16) :=
  ⟨rfl, rfl, rfl, rfl, rfl, rfl, rfl, rfl, rfl, rfl, rfl⟩

/-- R35, R36, R45: majors 0x30 to 0x32. -/
theorem test_decode_binding :
    decodeTile 0x600000B018380000 = .ok (.tbind 0 3 7 .i32 .s .row)
      ∧ decodeTile 0x6012481000010000 = .ok (.tbindMn 9 4 .fp16 .s .col)
      ∧ decodeTile 0x6022482000020000 = .ok (.tbindMk 9 4 .bf16 .s .sw)
      ∧ decodeTile 0x6032492800000000 = .ok (.tbindKn 9 4 .a56 .a .row)
      ∧ decodeTile 0x6040C00001F80000 = .ok (.tview 3 0 63 0)
      ∧ decodeTile 0x6052400000010000 = .ok (.tlay 9 .col)
      ∧ decodeTile 0x620F000000000000 = .ok (.tunbind 60)
      ∧ decodeTile 0x6211030000000000 = .ok (.tdesc 4 3 0)
      ∧ decodeTile 0x6221400000000000 = .ok (.tzero 5)
      ∧ decodeTile 0x6230010000000000 = .ok (.tfill 0 1)
      ∧ decodeTile 0x6241460002800000 = .ok (.tcpyt 5 6 (some 2))
      ∧ decodeTile 0x6251400000000000 = .ok (.tsettle 5)
      ∧ decodeTile 0x6261C60000000080 = .ok (.tstat 7 6 2)
      ∧ decodeTile 0x6400044300000000 = .ok (.shape 0 1 2 3)
      ∧ decodeTile 0x64148C0000000006 = .ok (.shq 9 3 6)
      ∧ decodeTile 0x6414800000000010 = .ok (.shqAdv 9 0) :=
  ⟨rfl, rfl, rfl, rfl, rfl, rfl, rfl, rfl, rfl, rfl, rfl, rfl, rfl, rfl, rfl, rfl⟩

/-- R37, R41, R45: majors 0x38 and 0x39. -/
theorem test_decode_tile_memory :
    decodeTile 0x7000440000000000 = .ok (.tld 1 1 0 false .weak 0)
      ∧ decodeTile 0x700044A000000000 = .ok (.tld 1 1 5 false .weak 0)
      ∧ decodeTile 0x7000440002000000 = .ok (.tld 1 1 0 true .weak 0)
      ∧ decodeTile 0x7010CC0000000000 = .ok (.tst 3 3 0 .weak 0)
      ∧ decodeTile 0x701044003C000000 = .ok (.tst 1 1 0 (.rel .dev) 0)
      ∧ decodeTile 0x7020C4A100000000 = .ok (.tldg 3 1 5 2 .weak 0)
      ∧ decodeTile 0x7030C4A100000000 = .ok (.tsts 3 1 5 2 .weak 0)
      ∧ decodeTile 0x7040C4A000000008 = .ok (.tldd 3 1 5 .weak 8)
      ∧ decodeTile 0x7050C4A000000008 = .ok (.tstd 3 1 5 .weak 8)
      ∧ decodeTile 0x70608C0000000040 = .ok (.pld 2 3 0 64)
      ∧ decodeTile 0x7070C40000000018 = .ok (.plds 3 1 24)
      ∧ decodeTile 0x70801C6000000001 = .ok (.tprf 7 3 1)
      ∧ decodeTile 0x72022B3A66000000 = .ok (.xcpy 4 5 6 7 9 (.rel .dom)) :=
  ⟨rfl, rfl, rfl, rfl, rfl, rfl, rfl, rfl, rfl, rfl, rfl, rfl, rfl⟩

/-- R36, R38, R45: majors 0x44 and 0x45. -/
theorem test_decode_matrix :
    decodeTile 0x8800C10800000000 = .ok (.tmma 3 ⟨1, none⟩ ⟨2, none⟩)
      ∧ decodeTile 0x8800C1142C000000 = .ok (.tmma 3 ⟨1, none⟩ ⟨5, some 3⟩)
      ∧ decodeTile 0x8810C1080061C000 = .ok (.tmmas 3 ⟨1, none⟩ ⟨2, none⟩ 6 7)
      ∧ decodeTile 0x8820C10800000000 = .ok (.tmmax 3 ⟨1, none⟩ ⟨2, none⟩)
      ∧ decodeTile 0x8830C10820000800 = .ok (.gmma 3 1 ⟨2, some 0⟩ 2)
      ∧ decodeTile 0x8A00C00000000000 = .ok (.tacz 3)
      ∧ decodeTile 0x8A11030000000000 = .ok (.tacv 4 3 .fp32 .rne false none)
      ∧ decodeTile 0x8A11030000084000 = .ok (.tacv 4 3 .fp16 .rne true none)
      ∧ decodeTile 0x8A20C50000000040 = .ok (.tacq 3 5 .fp32 .rne true none) :=
  ⟨rfl, rfl, rfl, rfl, rfl, rfl, rfl, rfl, rfl⟩

/-- R36, R45, R209: format T, major 0x50. -/
theorem test_decode_arithmetic :
    decodeTile 0xA000C10800000000 = .ok (.tadd 3 1 2 .rne false none)
      ∧ decodeTile 0xA010C10800280000 = .ok (.tsub 3 1 2 .rdn true none)
      ∧ decodeTile 0xA020C10804B00000 = .ok (.tmul 3 1 2 .rup false (some 4))
      ∧ decodeTile 0xA031010830100000 = .ok (.tfma 4 1 2 3 .rz false none)
      ∧ decodeTile 0xA040C10800400000 = .ok (.tmin 3 1 2 .rsr false none)
      ∧ decodeTile 0xA050C10800000000 = .ok (.tmax 3 1 2 .rne false none)
      ∧ decodeTile 0xA060C10000080000 = .ok (.tabs 3 1 true none)
      ∧ decodeTile 0xA070C10000000000 = .ok (.tneg 3 1 false none)
      ∧ decodeTile 0xA08141000008C000 = .ok (.tcvt 5 1 .e4m3 .rne true none)
      ∧ decodeTile 0xA090810800000080 = .ok (.tcmp 2 1 2 .fp32 2 none)
      ∧ decodeTile 0xA0A1010803800000 = .ok (.tsel 4 1 2 (some 3)) :=
  ⟨rfl, rfl, rfl, rfl, rfl, rfl, rfl, rfl, rfl, rfl, rfl⟩

/-- R36, R45: format T, majors 0x51 and 0x52. -/
theorem test_decode_logic_and_functions :
    decodeTile 0xA200C10800000000 = .ok (.tand 3 1 2 none)
      ∧ decodeTile 0xA210C10800000000 = .ok (.tor 3 1 2 none)
      ∧ decodeTile 0xA220C10800000000 = .ok (.txor 3 1 2 none)
      ∧ decodeTile 0xA230C10000000000 = .ok (.tnot 3 1 none)
      ∧ decodeTile 0xA240C100000001C0 = .ok (.tshl 3 1 7 none)
      ∧ decodeTile 0xA250C10000003FC0 = .ok (.tshr 3 1 255 none)
      ∧ decodeTile 0xA260C11400000000 = .ok (.tbsh 3 1 5 none)
      ∧ decodeTile 0xA270C10850000000 = .ok (.tfsh 3 1 2 5 none)
      ∧ decodeTile 0xA400810000000000 = .ok (.trcp 2 1 none)
      ∧ decodeTile 0xA410810000000000 = .ok (.trsq 2 1 none)
      ∧ decodeTile 0xA420C10800000000 = .ok (.trcpn 3 1 2 none)
      ∧ decodeTile 0xA430C10800000000 = .ok (.trsqn 3 1 2 none)
      ∧ decodeTile 0xA440810000000000 = .ok (.texp2 2 1 none)
      ∧ decodeTile 0xA450810000000000 = .ok (.tlog2 2 1 none) :=
  ⟨rfl, rfl, rfl, rfl, rfl, rfl, rfl, rfl, rfl, rfl, rfl, rfl, rfl, rfl⟩

/-- R36, R39, R45: majors 0x53 to 0x55. -/
theorem test_decode_rows_and_calls :
    decodeTile 0xA600810000180000 = .ok (.tsumr 2 1 .rz true none)
      ∧ decodeTile 0xA610810005800000 = .ok (.tmaxr 2 1 (some 5))
      ∧ decodeTile 0xA6210100500001C0 = .ok (.topk 4 5 1 7 none)
      ∧ decodeTile 0xA6310100500000C0 = .ok (.tsortr 4 1 (some 5) true)
      ∧ decodeTile 0xA631010000000000 = .ok (.tsortr 4 1 none false)
      ∧ decodeTile 0xA641010000000040 = .ok (.tscanr 4 1 .exc .rne false)
      ∧ decodeTile 0xA651010800000040 = .ok (.tperm 4 1 2 true none)
      ∧ decodeTile 0xA661010000000000 = .ok (.tbcast 4 1 false none)
      ∧ decodeTile 0xA800C00084000800 = .ok (.map 3 0 (.i2 1 2) none)
      ∧ decodeTile 0xA810FFE080000004 = .ok (.map2 3 4 511 (.i1 1) none)
      ∧ decodeTile 0xA820C040800005C0 = .ok (.reduce 3 2 (.i1 1) (some 7))
      ∧ decodeTile 0xA830C0408C000804 = .ok (.reduce2 3 4 2 (.i2 1 6) none)
      ∧ decodeTile 0xAA00420C00000000 = .ok (.mand 1 2 3)
      ∧ decodeTile 0xAA10420C00000000 = .ok (.mor 1 2 3)
      ∧ decodeTile 0xAA20420000000000 = .ok (.mnot 1 2)
      ∧ decodeTile 0xAA31810000000000 = .ok (.mcnt 6 1) :=
  ⟨rfl, rfl, rfl, rfl, rfl, rfl, rfl, rfl, rfl, rfl, rfl, rfl, rfl, rfl, rfl, rfl⟩

/-- R34, R45, R46: format M, major 0x70. -/
theorem test_decode_atomics :
    decodeTile 0xE0118B4200000000 = .ok (.atomD .add 3 1 1 (.strong .dev) 0)
      ∧ decodeTile 0xE0011BC80A000000 = .ok (.atomW .bfadd2 2 3 4 (.rel .dev) 0)
      ∧ decodeTile 0xE022128A60000000 = .ok (.casW 4 2 5 6 (.acq .cl) 0)
      ∧ decodeTile 0xE032134A60000000 = .ok (.casD 4 2 5 6 (.strong .dev) 0)
      ∧ decodeTile 0xE042154C80000000 = .ok (.cas16 4 2 6 8 (.strong .sys) 0)
      ∧ decodeTile 0xE052158000000008 = .ok (.lda 4 2 (.acq .sys) 8)
      ∧ decodeTile 0xE06215C000000008 = .ok (.stl 4 2 (.rel .sys) 8)
      ∧ decodeTile 0xE070034000000000 = .ok (.fence .dev)
      ∧ decodeTile 0xE083A39090000000 = .ok (.waitv 7 4 8 9 (.acq .dev) 0) :=
  ⟨rfl, rfl, rfl, rfl, rfl, rfl, rfl, rfl, rfl⟩

/-- R40, R45: format B, major 0x71. -/
theorem test_decode_barriers :
    decodeTile 0xE2020000C0000000 = .ok (.bari 2 3)
      ∧ decodeTile 0xE210000080000000 = .ok (.bara 0 2)
      ∧ decodeTile 0xE22200000A000000 = .ok (.barw 5 2)
      ∧ decodeTile 0xE23000000C000000 = .ok (.bart 6 0)
      ∧ decodeTile 0xE241118000000000 = .ok (.tsend 4 3 1)
      ∧ decodeTile 0xE2511C0000000000 = .ok (.trecv 7 0 1) :=
  ⟨rfl, rfl, rfl, rfl, rfl, rfl⟩

/-- R41, R45: format E, majors 0x78 and 0x79. -/
theorem test_decode_engines :
    decodeTile 0xF002800000000000 = .ok (.enq 5 0 .weak)
      ∧ decodeTile 0xF00280001E006000 = .ok (.enq 5 3 (.rel .dev))
      ∧ decodeTile 0xF202091800000000 = .ok (.move 4 1 2 3 0 .weak)
      ∧ decodeTile 0xF20233C25E000000 = .ok (.move 4 6 7 8 9 (.rel .dev))
      ∧ decodeTile 0xF212800100000000 = .ok (.mvq 5 4)
      ∧ decodeTile 0xF22280011C000000 = .ok (.mvwait 5 4 (.acq .dev))
      ∧ decodeTile 0xF2331001C0000000 = .ok (.sweep 6 2 7)
      ∧ decodeTile 0xF245300000000000 = .ok (.mkq 10 6)
      ∧ decodeTile 0xF252304000000000 = .ok (.mkfree 4 6 8 0 .weak) :=
  ⟨rfl, rfl, rfl, rfl, rfl, rfl, rfl, rfl, rfl⟩

/-- R293: the worked relay-core words. -/
theorem test_decode_relay : decodeRelay 0x0005850B = .ok (.rfetch 10 11) ∧ decodeRelay 0x00C5950B = .ok (.bxtr 10 11 12)
      ∧ decodeRelay 0x0005A50B = .ok (.swaitq 10 11) ∧ decodeRelay 0x00C5B50B = .ok (.dspch 10 11 12) := ⟨rfl, rfl, rfl, rfl⟩

/-- R231 to R235: the worked lane-function words. -/
theorem test_decode_lane : decodeLane 0x1100C200 = .ok (.lfma .fp32 .rne false .x (.q 0) (.k 0) .x)
      ∧ decodeLane 0x1D100800 = .ok (.lcvt .fp16 .fp32 .rne false .x (.e 0)) ∧ decodeLane 0x2110C802 = .ok (.lcmp 2 .fp32 .x (.e 0) (.k 1))
      ∧ decodeLane 0x5027F010 = .ok (.lkld true 0x3F80 (.q 1)) ∧ decodeLane 0x58400800 = .ok (.lpush (.q 2) (.q 0) (.q 1))
      ∧ decodeLane 0x5C030000 = .ok (.lmset (.q 3)) ∧ decodeLane 0x68000000 = .ok .lret := ⟨rfl, rfl, rfl, rfl, rfl, rfl, rfl⟩


/-! ### Single steps -/

/-- A block about to issue an instruction, changed by f. -/
def blockWith (f : Block → Block) : Block := f (startBlock placeLaunch 0 0 0)

/-- A state in which that block moves. -/
def stateWith (f : Block → Block) : State := (placeTile 0x0210000000000000 State.reset).setBlock placeKey (blockWith f)

/-- What an answer says of the block that moved. -/
def seen (o : Out) (p : Block → Bool) : Bool :=
  match o with
  | .next t => match t.block? placeKey with
    | some b => p b
    | none => false
  | _ => false

/-- What one instruction leaves in the block. -/
def leaves (i : Instr) (f : Block → Block) (p : Block → Bool) : Bool := seen (exec i (stateWith f)) p

/-- Scalars set. -/
def scalars (l : List (SReg × W64)) (b : Block) : Block := { b with s := l.foldl (fun v p => v.set p.1 p.2) b.s }

/-- References set. -/
def refs (l : List (ARef × W64)) (b : Block) : Block := { b with a := l.foldl (fun v p => v.set p.1 p.2) b.a }

/-- A tile of its elements' encodings. -/
def tile (fmt : Efmt) (home : Home) (m n : Nat) (xs : List Nat) : Tile := { Tile.bound none home .row fmt m n 0 with elems := xs.toArray }

/-- Tiles bound. -/
def tiles (l : List (TReg × Tile)) (b : Block) : Block := { b with t := l.foldl (fun v p => v.set p.1 (some p.2)) b.t }

/-- The elements of a tile. -/
def elems (b : Block) (t : TReg) : Option (List Nat) := (b.gt t).map fun x => x.elems.toList

/-- Scalar d holds v, not poisoned, and the next word is to issue. -/
def holds (d : SReg) (v : W64) (b : Block) : Bool := b.gs d == v && !b.ps d && b.pc == 72

/-- R145: sums wrap; the most negative product's high half; s0 discards. -/
theorem test_sums : leaves (.add 3 1 2) (scalars [(1, 5), (2, -7)]) (holds 3 (-2)) = true
    ∧ leaves (.sub 3 1 2) (scalars [(1, 0), (2, 1)]) (holds 3 0xFFFFFFFFFFFFFFFF) = true
    ∧ leaves (.mul 3 1 2) (scalars [(1, 0x100000000), (2, 0x100000001)]) (holds 3 0x100000000) = true
    ∧ leaves (.mulh 3 1 2) (scalars [(1, -1), (2, 1)]) (holds 3 (-1)) = true
    ∧ leaves (.mulhu 3 1 2) (scalars [(1, -1), (2, 2)]) (holds 3 1) = true
    ∧ leaves (.add 0 1 2) (scalars [(1, 5), (2, 7)]) (holds 0 0) = true := by decide +kernel

/-- R146: division never traps. -/
theorem test_divisions : leaves (.div 3 1 2) (scalars [(1, -7), (2, 2)]) (holds 3 (-3)) = true
    ∧ leaves (.div 3 1 2) (scalars [(1, 0x8000000000000000), (2, -1)]) (holds 3 0x8000000000000000) = true
    ∧ leaves (.divu 3 1 2) (scalars [(1, 9)]) (holds 3 (-1)) = true ∧ leaves (.rem 3 1 2) (scalars [(1, -7), (2, 2)]) (holds 3 (-1)) = true
    ∧ leaves (.remu 3 1 2) (scalars [(1, 9)]) (holds 3 9) = true := by decide +kernel

/-- R145: logic, shifts by the low six bits, compares, counts, selection and fields. -/
theorem test_logic : leaves (.and 3 1 2) (scalars [(1, 12), (2, 10)]) (holds 3 8) = true ∧ leaves (.or 3 1 2) (scalars [(1, 12), (2, 10)]) (holds 3 14) = true
    ∧ leaves (.xor 3 1 2) (scalars [(1, 12), (2, 10)]) (holds 3 6) = true ∧ leaves (.sll 3 1 2) (scalars [(1, 1), (2, 65)]) (holds 3 2) = true
    ∧ leaves (.srl 3 1 2) (scalars [(1, -1), (2, 60)]) (holds 3 15) = true ∧ leaves (.sra 3 1 2) (scalars [(1, -16), (2, 2)]) (holds 3 (-4)) = true
    ∧ leaves (.slt 3 1 2) (scalars [(1, -1), (2, 1)]) (holds 3 1) = true ∧ leaves (.sltu 3 1 2) (scalars [(1, -1), (2, 1)]) (holds 3 0) = true
    ∧ leaves (.min 3 1 2) (scalars [(1, -1), (2, 1)]) (holds 3 (-1)) = true ∧ leaves (.max 3 1 2) (scalars [(1, -1), (2, 1)]) (holds 3 1) = true
    ∧ leaves (.clz 3 1) id (holds 3 64) = true ∧ leaves (.popc 3 1) (scalars [(1, -1)]) (holds 3 64) = true
    ∧ leaves (.sel 3 1 2 4) (scalars [(1, 5), (2, 6), (4, 0)]) (holds 3 6) = true
    ∧ leaves (.bfx 3 1 4 3 true) (scalars [(1, 0x80)]) (holds 3 (-8)) = true ∧ leaves (.bfi 3 1 8 7) (scalars [(1, 0x1AB), (3, 0xFFFF)]) (holds 3 0xABFF) = true := by
  decide +kernel

/-- R147: immediates are sign-extended; LIH writes the high half. -/
theorem test_immediates : leaves (.addi 3 1 0xFFFFFFFF) (scalars [(1, 5)]) (holds 3 4) = true
    ∧ leaves (.andi 3 1 0x80000000) (scalars [(1, -1)]) (holds 3 0xFFFFFFFF80000000) = true ∧ leaves (.ori 3 1 1) (scalars [(1, 4)]) (holds 3 5) = true
    ∧ leaves (.xori 3 1 0xFFFFFFFF) (scalars [(1, 5)]) (holds 3 (-6)) = true ∧ leaves (.slli 3 1 63) (scalars [(1, 3)]) (holds 3 0x8000000000000000) = true
    ∧ leaves (.srli 3 1 63) (scalars [(1, -1)]) (holds 3 1) = true ∧ leaves (.srai 3 1 63) (scalars [(1, -1)]) (holds 3 (-1)) = true
    ∧ leaves (.li 3 0x80000000) id (holds 3 0xFFFFFFFF80000000) = true ∧ leaves (.lih 3 0xABCD) (scalars [(3, 0x12345678)]) (holds 3 0xABCD12345678) = true := by
  decide +kernel

/-- R149, R97: a reference moved below offset 0 is poisoned with cause BOUND. -/
theorem test_references : leaves (.refmk 3 1 2) (scalars [(1, 5), (2, 0x40)]) (fun b => b.ga 3 == 0x0000500000000040 && !b.pa 3) = true
    ∧ leaves (.refmkW 3 1) (scalars [(1, 0x500000000040)]) (fun b => b.ga 3 == 0x500000000040) = true
    ∧ leaves (.refaddImm 1 1 0xFFFFFFF8) (refs [(1, 0x500000000000)]) (fun b => b.pa 1 && b.origin == some { cause := 3, addr := 0, pc := 64, dev := 0 }) = true
    ∧ leaves (.refadd 1 2 3) (fun b => scalars [(3, 8)] (refs [(2, 0x500000000000)] b)) (fun b => b.ga 1 == 0x500000000008) = true
    ∧ leaves (.refh 3 1) (refs [(1, 0x500000000007)]) (holds 3 5) = true ∧ leaves (.refoff 3 1) (refs [(1, 0x500000000007)]) (holds 3 7) = true
    ∧ leaves (.refoffW 3 1) (refs [(1, 0x500000000007)]) (holds 3 0x500000000007) = true := by decide +kernel

/-- R30, R94: the poison of an input reaches the result. -/
theorem test_poison : leaves (.add 3 1 2) (fun b => { b with sp := 2 }) (fun b => b.ps 3 && b.pc == 72) = true := by decide +kernel

/-- R125, R126, R138: calls, returns, the end of a block and its validity. -/
theorem test_control : leaves (.call 0xFFFFFFFE) id (fun b => b.pc == 48 && b.calls == [72]) = true
    ∧ leaves .ret (fun b => { b with calls := [0x100] }) (fun b => b.pc == 0x100 && b.calls == []) = true ∧ leaves .ret id (fun b => b.ended == some (.none, 1)) = true
    ∧ leaves .exit id (fun b => b.ended == some (.full, 0)) = true ∧ leaves .wrapend id (fun b => b.ended == some (.full, 0)) = true
    ∧ leaves (.valid (.partImm 0x8000)) id (fun b => b.validity == .part 0x8000) = true
    ∧ leaves (.valid (.partReg 1)) (scalars [(1, 0x10000)]) (fun b => b.validity == .part 0xFFFF) = true
    ∧ leaves .nop id (fun b => b.pc == 72) = true ∧ leaves .yield id (fun b => b.pc == 72) = true := by decide +kernel

/-- R98, R134: TRAP #3 at PC 64. -/
theorem test_trap : leaves (.trap 3) id (fun b => b.flt.flt0 == 0x1400000000000040 && b.flt.flt3 == 3 && b.ended == some (.none, 0x14)) = true := by decide +kernel

/-- R127 to R130: special registers and capabilities; a system-only word traps PRIV in user mode. -/
theorem test_special_registers : leaves (.srd 3 0x008) id (holds 3 4096) = true ∧ leaves (.lwid 3) id (holds 3 4096) = true
    ∧ leaves (.swr 1 0x031) (scalars [(1, 0x1FF)]) (fun b => b.gang == 0xFF) = true ∧ leaves (.swr 1 0x032) (scalars [(1, 7)]) (fun b => b.seed == 7) = true
    ∧ leaves (.capq 3 4 0 0) id (holds 3 0x0100) = true ∧ leaves (.capq 3 4 0 0x17) id (holds 4 1) = true
    ∧ leaves .eret id (fun b => b.ended == some (.none, 2) && b.flt.flt3 == 0x0400000000000000) = true
    ∧ leaves (.xroot 1) id (fun b => b.ended == some (.none, 2)) = true ∧ leaves (.hinv 1) id (fun b => b.ended == some (.none, 2)) = true
    ∧ leaves .loadctx id (fun b => b.ended == some (.none, 2)) = true ∧ leaves .savectx id (fun b => b.ended == some (.none, 2)) = true := by decide +kernel

/-- R158, R159: a grant for 300 x 500 x 70, and its strips. -/
theorem test_shapes : leaves (.shape 1 1 2 3) (scalars [(1, 300), (2, 500), (3, 300)])
      (fun b => b.gs 1 == 128 && b.gs 2 == 256 && b.gs 3 == 128 && (b.gsh 1).ktot == 300) = true
    ∧ leaves (.shqAdv 3 1) (fun b => { b with sh := b.sh.set 1 { gm := 8, gn := 8, gk := 128, kcur := 128, v := true, ktot := 300, kpos := 128 } })
      (fun b => b.gs 3 == 44 && (b.gsh 1).kpos == 256 && (b.gsh 1).kcur == 44) = true
    ∧ leaves (.shq 3 1 6) (fun b => { b with sh := b.sh.set 1 { gm := 8, gn := 8, gk := 128, kcur := 128, v := true, ktot := 300, kpos := 128 } }) (holds 3 2) = true := by
  decide +kernel

/-- R160 to R162, R167: binds, windows, layouts and names freed. -/
theorem test_binds : leaves (.tbind 5 3 7 .i32 .s .row) id (fun b => elems b 5 == some (List.replicate 32 0)) = true
    ∧ leaves (.tbindKn 5 1 .fp16 .s .row) (fun b => { b with sh := b.sh.set 1 { gm := 2, gn := 3, gk := 4, kcur := 4, v := true, ktot := 9, kpos := 0 } })
      (fun b => (b.gt 5).map (fun x => (x.brows, x.bcols, x.link)) == some (4, 3, some (1, true))) = true
    ∧ leaves (.tbindMn 5 1 .fp16 .s .row) id (fun b => b.ended == some (.none, 0x0D)) = true
    ∧ leaves (.tbindMk 5 1 .fp16 .s .row) id (fun b => b.ended == some (.none, 0x0D)) = true
    ∧ leaves (.tunbind 5) (tiles [(5, tile .i8 .s 1 1 [1])]) (fun b => b.gt 5 == none) = true
    ∧ leaves (.tview 5 0 1 1) (fun b => scalars [(1, 0x102)] (tiles [(5, tile .i8 .s 2 4 [1, 2, 3, 4, 5, 6, 7, 8])] b))
      (fun b => (b.gt 5).map (fun x => (x.wrow0, x.wcol0, x.wrows, x.wcols)) == some (1, 2, 1, 2)) = true
    ∧ leaves (.tlay 5 .col) (tiles [(5, tile .i8 .s 1 2 [1, 2])]) (fun b => (b.gt 5).map (fun x => x.lay) == some .col) = true := by decide +kernel

/-- R154, R169, R170: fills, copies and what a descriptor reads as. -/
theorem test_descriptors : leaves (.tfill 5 1) (fun b => scalars [(1, 0x1234)] (tiles [(5, tile .i8 .s 1 2 [1, 2])] b)) (fun b => elems b 5 == some [0x34, 0x34]) = true
    ∧ leaves (.tzero 5) (tiles [(5, tile .i8 .s 1 2 [1, 2])]) (fun b => elems b 5 == some [0, 0]) = true
    ∧ leaves (.tcpyt 5 6 none) (tiles [(5, tile .i8 .s 1 2 [1, 2]), (6, tile .i8 .s 1 2 [3, 4])]) (fun b => elems b 5 == some [3, 4]) = true
    ∧ leaves (.tdesc 3 5 0) (tiles [(5, tile .i8 .s 1 2 [1, 2])]) (holds 3 (0x8000000000000000 + 9 * 2 ^ 47 + 2 ^ 31)) = true
    ∧ leaves (.tdesc 3 5 0) id (holds 3 0) = true ∧ leaves (.tstat 3 5 1) (tiles [(5, tile .i8 .s 1 2 [1, 2])]) (holds 3 0xFFFFFFFFFFFFFFFF) = true
    ∧ leaves (.tstat 3 0 3) id (holds 3 48) = true
    ∧ leaves (.tsettle 5) (tiles [(5, { tile .i8 .s 1 2 [1, 2] with cmp := true })]) (fun b => (b.gt 5).map (fun x => x.cmp) == some false) = true := by decide +kernel

/-- R64: 0.3 in E4M3 is 0x2A with INX; R66, R67: 1 + 2^-11 in FP16 under a draw of 0 is 0x3C01. -/
theorem test_conversions : leaves (.tcvt 5 6 .e4m3 .rne false none) (tiles [(5, tile .e4m3 .s 1 1 [0]), (6, tile .fp32 .s 1 1 [0x3E99999A])])
      (fun b => elems b 5 == some [0x2A] && b.status == flINX) = true
    ∧ leaves (.tcvt 5 6 .fp16 .rsr false none) (fun b => { tiles [(5, tile .fp16 .s 1 1 [0]), (6, tile .fp32 .s 1 1 [0x3F801000])] b with seed := 1 })
      (fun b => elems b 5 == some [0x3C01] && b.status == flINX && b.seed == 0x40822041) = true := by decide +kernel

/-- R60, R61: the worked KS4 element is 4.5. -/
theorem test_block_scale : leaves (.tcvt 5 6 .fp32 .rne false none) (tiles [(5, tile .fp32 .s 1 16 (List.replicate 16 0)),
      (6, { tile .ks4 .s 1 16 (List.replicate 16 7) with scales := #[0x6C], tscale := 0x40000000 })])
      (fun b => elems b 5 == some (List.replicate 16 0x40900000)) = true := by decide +kernel

/-- R64, R68, R206, R210: element arithmetic. -/
theorem test_arithmetic : leaves (.tadd 5 6 7 .rne false none) (tiles [(5, tile .i8 .s 1 2 [0, 0]), (6, tile .i8 .s 1 2 [100, 1]), (7, tile .i8 .s 1 2 [100, 2])])
      (fun b => elems b 5 == some [200, 3] && b.status == 0) = true
    ∧ leaves (.tadd 5 6 7 .rne true none) (tiles [(5, tile .i8 .s 1 1 [0]), (6, tile .i8 .s 1 1 [100]), (7, tile .i8 .s 1 1 [100])])
      (fun b => elems b 5 == some [127] && b.status == flOVF) = true
    ∧ leaves (.tsub 5 6 7 .rne false none) (tiles [(5, tile .fp32 .s 1 1 [0]), (6, tile .fp32 .s 1 1 [0x7F800000]), (7, tile .fp32 .s 1 1 [0x7F800000])])
      (fun b => elems b 5 == some [0x7FC00000] && b.status == flNVL) = true
    ∧ leaves (.tmul 5 6 7 .rne false none) (tiles [(5, tile .fp16 .s 1 1 [0]), (6, tile .fp16 .s 1 1 [0x3E00]), (7, tile .fp16 .s 1 1 [0x4000])])
      (fun b => elems b 5 == some [0x4200]) = true
    ∧ leaves (.tfma 5 6 7 6 .rne false none) (tiles [(5, tile .bf16 .s 1 1 [0]), (6, tile .bf16 .s 1 1 [0x3F80]), (7, tile .bf16 .s 1 1 [0x4000])])
      (fun b => elems b 5 == some [0x4040]) = true
    ∧ leaves (.tmin 5 6 7 .rne false none) (tiles [(5, tile .fp32 .s 1 1 [0]), (6, tile .fp32 .s 1 1 [0]), (7, tile .fp32 .s 1 1 [0x80000000])])
      (fun b => elems b 5 == some [0x80000000]) = true
    ∧ leaves (.tmax 5 6 7 .rne false none) (tiles [(5, tile .ui8 .s 1 1 [0]), (6, tile .ui8 .s 1 1 [3]), (7, tile .ui8 .s 1 1 [200])]) (fun b => elems b 5 == some [200]) = true
    ∧ leaves (.tabs 5 6 true none) (tiles [(5, tile .i8 .s 1 1 [0]), (6, tile .i8 .s 1 1 [0x80])]) (fun b => elems b 5 == some [127] && b.status == flOVF) = true
    ∧ leaves (.tneg 5 6 false none) (tiles [(5, tile .fp32 .s 1 1 [0]), (6, tile .fp32 .s 1 1 [0x3F800000])]) (fun b => elems b 5 == some [0xBF800000]) = true := by
  decide +kernel

/-- R207, R212, R213, R225: comparison into a mask, selection by one, masks of masks and their count. -/
theorem test_masks : leaves (.tcmp 2 6 7 .i8 2 none) (tiles [(6, tile .i8 .s 1 2 [0xFF, 5]), (7, tile .i8 .s 1 2 [0, 5])]) (fun b => (b.gm 2).bits == 1) = true
    ∧ leaves (.tsel 5 6 7 (some 2)) (fun b => { tiles [(5, tile .i8 .s 1 2 [0, 0]), (6, tile .i8 .s 1 2 [1, 2]), (7, tile .i8 .s 1 2 [3, 4])] b with
        m := b.m.set 2 { bits := 2, poison := false, origin := none } }) (fun b => elems b 5 == some [3, 2]) = true
    ∧ leaves (.mand 1 2 3) (fun b => { b with m := (b.m.set 2 { Mask.zero with bits := 12 }).set 3 { Mask.zero with bits := 10 } }) (fun b => (b.gm 1).bits == 8) = true
    ∧ leaves (.mor 1 2 3) (fun b => { b with m := (b.m.set 2 { Mask.zero with bits := 12 }).set 3 { Mask.zero with bits := 10 } }) (fun b => (b.gm 1).bits == 14) = true
    ∧ leaves (.mnot 1 2) id (fun b => (b.gm 1).bits.getLsbD 65535) = true
    ∧ leaves (.mcnt 3 2) (fun b => { b with m := b.m.set 2 { Mask.zero with bits := 12 } }) (holds 3 2) = true := by decide +kernel

/-- R214, R215: logic and shifts of elements; the window as one string of bits. -/
theorem test_element_logic : leaves (.tand 5 6 7 none) (tiles [(5, tile .i8 .s 1 1 [0]), (6, tile .i8 .s 1 1 [12]), (7, tile .i8 .s 1 1 [10])]) (fun b => elems b 5 == some [8]) = true
    ∧ leaves (.tor 5 6 7 none) (tiles [(5, tile .i8 .s 1 1 [0]), (6, tile .i8 .s 1 1 [12]), (7, tile .i8 .s 1 1 [10])]) (fun b => elems b 5 == some [14]) = true
    ∧ leaves (.txor 5 6 7 none) (tiles [(5, tile .i8 .s 1 1 [0]), (6, tile .i8 .s 1 1 [12]), (7, tile .i8 .s 1 1 [10])]) (fun b => elems b 5 == some [6]) = true
    ∧ leaves (.tnot 5 6 none) (tiles [(5, tile .i8 .s 1 1 [0]), (6, tile .i8 .s 1 1 [12])]) (fun b => elems b 5 == some [0xF3]) = true
    ∧ leaves (.tshl 5 6 9 none) (tiles [(5, tile .i8 .s 1 1 [7]), (6, tile .i8 .s 1 1 [12])]) (fun b => elems b 5 == some [0]) = true
    ∧ leaves (.tshr 5 6 1 none) (tiles [(5, tile .i8 .s 1 1 [0]), (6, tile .i8 .s 1 1 [0x80])]) (fun b => elems b 5 == some [0xC0]) = true
    ∧ leaves (.tbsh 5 6 1 none) (fun b => scalars [(1, 4)] (tiles [(5, tile .ui8 .s 1 2 [0, 0]), (6, tile .ui8 .s 1 2 [0xAB, 0xCD])] b)) (fun b => elems b 5 == some [0xB0, 0xDA]) = true
    ∧ leaves (.tfsh 5 6 7 1 none) (fun b => scalars [(1, 8)] (tiles [(5, tile .ui8 .s 1 2 [0, 0]), (6, tile .ui8 .s 1 2 [1, 2]), (7, tile .ui8 .s 1 2 [3, 4])] b))
      (fun b => elems b 5 == some [2, 3]) = true := by decide +kernel

/-- R216, R217: the worked reciprocal and its refinement; exact cases of the others. -/
theorem test_special_functions : leaves (.trcp 5 6 none) (tiles [(5, tile .fp32 .s 1 1 [0]), (6, tile .fp32 .s 1 1 [0x3F800808])])
      (fun b => elems b 5 == some [0x3F7FF001] && b.status == flINX) = true
    ∧ leaves (.trcpn 5 6 7 none) (tiles [(5, tile .fp32 .s 1 1 [0]), (6, tile .fp32 .s 1 1 [0x3F800808]), (7, tile .fp32 .s 1 1 [0x3F7FF001])])
      (fun b => elems b 5 == some [0x3F7FEFF1]) = true
    ∧ leaves (.trsq 5 6 none) (tiles [(5, tile .fp32 .s 1 1 [0]), (6, tile .fp32 .s 1 1 [0x40800000])]) (fun b => elems b 5 == some [0x3F000000]) = true
    ∧ leaves (.texp2 5 6 none) (tiles [(5, tile .fp32 .s 1 1 [0]), (6, tile .fp32 .s 1 1 [0x40400000])]) (fun b => elems b 5 == some [0x41000000]) = true
    ∧ leaves (.tlog2 5 6 none) (tiles [(5, tile .fp32 .s 1 1 [0]), (6, tile .fp32 .s 1 1 [0x41000000])]) (fun b => elems b 5 == some [0x40400000]) = true
    ∧ leaves (.trsqn 5 6 7 none) (tiles [(5, tile .fp32 .s 1 1 [0]), (6, tile .fp32 .s 1 1 [0x40800000]), (7, tile .fp32 .s 1 1 [0x3F000000])])
      (fun b => elems b 5 == some [0x3F000000]) = true := by decide +kernel

/-- R219 to R224: rows. -/
theorem test_rows : leaves (.tsumr 5 6 .rne false none) (tiles [(5, tile .i8 .s 1 1 [0]), (6, tile .i8 .s 1 3 [1, 2, 0xFF])]) (fun b => elems b 5 == some [2]) = true
    ∧ leaves (.tmaxr 5 6 none) (tiles [(5, tile .i8 .s 1 1 [0]), (6, tile .i8 .s 1 3 [1, 2, 0xFF])]) (fun b => elems b 5 == some [2]) = true
    ∧ leaves (.tscanr 5 6 .exc .rne false) (tiles [(5, tile .i8 .s 1 3 [0, 0, 0]), (6, tile .i8 .s 1 3 [1, 2, 4])]) (fun b => elems b 5 == some [0, 1, 3]) = true
    ∧ leaves (.topk 5 7 6 2 none) (tiles [(5, tile .i8 .s 1 2 [0, 0]), (7, tile .ui32 .s 1 2 [0, 0]), (6, tile .i8 .s 1 3 [4, 9, 4])])
      (fun b => elems b 5 == some [9, 4] && elems b 7 == some [1, 0]) = true
    ∧ leaves (.tsortr 5 6 (some 7) false) (tiles [(5, tile .i8 .s 1 3 [0, 0, 0]), (7, tile .ui32 .s 1 3 [0, 0, 0]), (6, tile .i8 .s 1 3 [4, 9, 4])])
      (fun b => elems b 5 == some [4, 4, 9] && elems b 7 == some [0, 2, 1]) = true
    ∧ leaves (.tperm 5 6 7 true none) (tiles [(5, tile .i8 .s 1 2 [0, 0]), (7, tile .i32 .s 1 2 [5, 0xFFFFFFFF]), (6, tile .i8 .s 1 2 [8, 9])])
      (fun b => elems b 5 == some [9, 8] && b.status == flCLMP) = true
    ∧ leaves (.tbcast 5 6 true none) (tiles [(5, tile .i8 .s 2 2 [0, 0, 0, 0]), (6, tile .i8 .s 2 1 [1, 2])]) (fun b => elems b 5 == some [1, 1, 2, 2]) = true := by
  decide +kernel

/-- R234: the worked push of one row of four lanes. -/
theorem test_lane_push :
    let lane (v i : Nat) : LaneSt := { LaneSt.start [] true [] with q := [(v, none), (i, none), (7, none)] }
    (laneCall (laneConsts (blockWith id)) [.lpush (.q 2) (.q 0) (.q 1)] [lane 10 2, lane 11 2, lane 12 0, lane 13 5]).map (fun l => (l.q.map Prod.fst).getD 2 0) = [12, 7, 11, 7] := by
  decide +kernel

/-- R70, R190, R200: a product into accumulators, the other forms of a product refused by home, and moves in and out of them. -/
theorem test_products : leaves (.tmma 5 ⟨6, none⟩ ⟨7, none⟩) (tiles [(5, tile .a56 .a 1 1 [0]), (6, tile .i8 .s 1 2 [2, 3]), (7, tile .i8 .s 2 1 [4, 5])])
      (fun b => elems b 5 == some [0x40370000000000]) = true
    ∧ leaves (.tacz 5) (tiles [(5, tile .a56 .a 1 1 [7])]) (fun b => elems b 5 == some [0]) = true
    ∧ leaves (.tacv 5 6 .fp32 .rne false none) (tiles [(5, tile .fp32 .s 1 1 [0]), (6, tile .a56 .a 1 1 [0x3FF00000000000])]) (fun b => elems b 5 == some [0x3F800000]) = true
    ∧ leaves (.tacq 5 6 .fp32 .rne true none) (tiles [(5, tile .a56 .a 1 1 [0x3FF00000000000]), (6, tile .fp32 .s 1 1 [0x3F800000])]) (fun b => elems b 5 == some [0x40000000000000]) = true
    ∧ leaves (.tmmax 5 ⟨6, none⟩ ⟨7, none⟩) (tiles [(5, tile .a56 .s 1 1 [0]), (6, tile .i8 .s 1 1 [2]), (7, tile .i8 .s 1 1 [4])]) (fun b => b.ended == some (.none, 0x13)) = true
    ∧ leaves (.tmmas 5 ⟨6, none⟩ ⟨7, none⟩ 8 9) id (fun b => b.ended == some (.none, 0x0E)) = true := by decide +kernel

/-! ### States that meet the hypotheses of the statements -/

theorem moves (f : Block → Block) : Moves (stateWith f) placeKey (blockWith f) := ⟨rfl, State.block?_setBlock_same _ _ _⟩

theorem settled_of {s : State} {k : BKey} {b : Block} (m : Moves s k b) (p : Ev → Bool) (h : b.evq = []) (he : b.ended = none) :
    Settled s k p s b where
  turn := m.turn
  present := by rw [m.here]; rfl
  after := by simp [settleWhere, m.here, h, settleEvents, State.pending]
  here := m.here
  clear := by simp [h]
  running := he

theorem settled_for {s : State} {k : BKey} {b : Block} (m : Moves s k b) (strong : Bool) (r : Reach) (h : b.evq = []) (he : b.ended = none) :
    SettledFor s k strong r s b := ⟨b, m.here, settled_of m _ h he⟩

theorem settled (f : Block → Block) (p : Ev → Bool) (h : (blockWith f).evq = []) (he : (blockWith f).ended = none) :
    Settled (stateWith f) placeKey p (stateWith f) (blockWith f) := settled_of (moves f) p h he

/-- The answer of a check is there, and what it answers. -/
def okRes {α : Type} (r : Res α) (p : State → α → Bool) : Bool :=
  match r with
  | .ok s a => p s a
  | _ => false

theorem ok_of {α : Type} {r : Res α} {p : State → α → Bool} (h : okRes r p = true) : ∃ s a, r = .ok s a ∧ p s a = true := by
  cases r with
  | ok s a => exact ⟨s, a, rfl, h⟩
  | bad s f => cases h
  | wait s => cases h

/-- A check faults. -/
def badRes {α : Type} (r : Res α) : Bool :=
  match r with
  | .bad _ _ => true
  | _ => false

theorem bad_of {α : Type} {r : Res α} (h : badRes r = true) : ∃ s f, r = .bad s f := by
  cases r with
  | ok s a => cases h
  | bad s f => exact ⟨s, f, rfl⟩
  | wait s => cases h

/-- A state whose launch's code section is a page, with words in it. -/
def codeState (words : List (Nat × Nat)) (f : Block → Block) : State :=
  let s := stateWith f
  { s with
    mem := words.foldl (fun m p => m.writeLE (placeCode + p.1) 8 p.2) s.mem
    launches := [{ placeLaunch with codeOff := 0, codeLen := 4096 }] }

theorem moves_code (words : List (Nat × Nat)) (f : Block → Block) : Moves (codeState words f) placeKey (blockWith f) :=
  ⟨rfl, State.block?_setBlock_same _ _ _⟩

/-- The instruction at PC + 8 × off. -/
def target (s : State) (b : Block) (off : W32) : Option Instr :=
  match fetchWord s placeKey b ((b.pc.toNat : Int) + 8 * off.toInt) with
  | .ok _ w => match decodeTile w with
    | .ok i => some i
    | .error _ => none
  | _ => none

theorem target_is {s : State} {b : Block} {off : W32} {i : Instr} {p : Instr → Prop} (h : target s b off = some i) (hp : p i) :
    TargetIs s placeKey b off p := by
  unfold target at h
  cases hf : fetchWord s placeKey b ((b.pc.toNat : Int) + 8 * off.toInt) with
  | ok s1 w =>
    rw [hf] at h
    dsimp only at h
    cases hd : decodeTile w with
    | ok j => rw [hd] at h; exact ⟨s1, w, j, hf, hd, (Option.some.inj h) ▸ hp⟩
    | error e => rw [hd] at h; cases h
  | bad s1 f => rw [hf] at h; cases h
  | wait s1 => rw [hf] at h; cases h

theorem test_witness_integer_instructions : ∃ s k b, Moves s k b ∧ (63 : Fin 64).val + (0 : Fin 64).val < 64 := ⟨_, _, _, moves id, by decide⟩

theorem test_witness_references : ∃ s k b, Moves s k b := ⟨_, _, _, moves id⟩

/-- The words before and behind the one at 64: ELSE, ENDIF, LOOP, LOOPC, ENDL. -/
def controlState (f : Block → Block) : State :=
  codeState [(48, 0x0040000000000002), (56, 0x0050800000000002), (72, 0x0020000000000001), (80, 0x0030000000000000), (88, 0x0060000000000000)] f

/-- The clauses of StructuredControl: IF before an ELSE and an ENDIF, clean and poisoned; the loop words before an ENDL, clean and poisoned;
ENDL behind a LOOP and a LOOPC. -/
theorem test_witness_structured_control : (∃ s k b, Moves s k b ∧ (1 : W32).toInt > 0 ∧ (b.ps 1 = false ∧ b.ps 2 = false)
      ∧ TargetIs s k b 1 (fun i => i = .endif ∨ ∃ o, i = .cElse o) ∧ TargetIs s k b 2 (fun i => i = .endif)
      ∧ TargetIs s k b 3 (fun i => ∃ a o, i = .endl a o) ∧ (-1 : W32).toInt < 0 ∧ TargetIs s k b (-1) (fun i => ∃ o, i = .loopc 1 o)
      ∧ TargetIs s k b (-2) fun i => ∃ o, i = .loop o)
    ∧ ∃ s k b, Moves s k b ∧ b.ps 1 = true ∧ TargetIs s k b 2 (fun i => i = .endif ∨ ∃ o, i = .cElse o)
      ∧ TargetIs s k b 3 (fun i => ∃ a o, i = .endl a o) ∧ TargetIs s k b (-1) fun i => ∃ o, i = .loopc 1 o := by
  refine ⟨⟨controlState id, _, _, moves_code _ _, by decide, by decide, ?_, ?_, ?_, by decide, ?_, ?_⟩,
    ⟨controlState fun b => { b with sp := 2 }, _, _, moves_code _ _, by decide, ?_, ?_, ?_⟩⟩
  · exact target_is (i := .cElse 1) (by decide +kernel) (.inr ⟨_, rfl⟩)
  · exact target_is (i := .endif) (by decide +kernel) rfl
  · exact target_is (i := .endl 0 0) (by decide +kernel) ⟨_, _, rfl⟩
  · exact target_is (i := .loopc 1 2) (by decide +kernel) ⟨_, rfl⟩
  · exact target_is (i := .loop 2) (by decide +kernel) ⟨_, rfl⟩
  · exact target_is (i := .endif) (by decide +kernel) (.inl rfl)
  · exact target_is (i := .endl 0 0) (by decide +kernel) ⟨_, _, rfl⟩
  · exact target_is (i := .loopc 1 2) (by decide +kernel) ⟨_, rfl⟩

/-- The clauses of CallsAndReturns: 15 and 16 return PCs, one and none; a table of one entry, and an index at and below its length. -/
theorem test_witness_calls : (∃ s k b, Moves s k b ∧ (-2 : W32).toInt < 0 ∧ b.calls.length < 16 ∧ b.calls ≠ [])
    ∧ (∃ s k b, Moves s k b ∧ 16 ≤ b.calls.length)
    ∧ (∃ s k b, Moves s k b ∧ b.calls = [])
    ∧ (∃ s k b s1 n, Moves s k b ∧ fetchWord s k b ((b.pc.toNat : Int) + 8 * (-2 : W32).toInt) = .ok s1 n ∧ 1 ≤ n ∧ n ≤ 256 ∧ b.calls.length < 16
      ∧ b.ps 1 = false ∧ n ≤ (b.gs 1).toNat)
    ∧ ∃ s k b s1 s2 n e, Moves s k b ∧ fetchWord s k b ((b.pc.toNat : Int) + 8 * (-2 : W32).toInt) = .ok s1 n ∧ 1 ≤ n ∧ n ≤ 256 ∧ b.ps 1 = false
      ∧ (b.gs 1).toNat < n ∧ b.calls.length < 16 ∧ fetchWord s1 k b ((b.pc.toNat : Int) + 8 * ((-2 : W32).toInt + 1 + (b.gs 1).toNat)) = .ok s2 e := by
  refine ⟨⟨_, _, _, moves fun b => { b with calls := List.replicate 15 8 }, by decide, by decide, by decide⟩,
    ⟨_, _, _, moves fun b => { b with calls := List.replicate 16 8 }, by decide⟩, ⟨_, _, _, moves id, rfl⟩, ?_, ?_⟩
  · have h : okRes (fetchWord (codeState [(48, 1)] (scalars [(1, 1)])) placeKey (blockWith (scalars [(1, 1)]))
        (((blockWith (scalars [(1, 1)])).pc.toNat : Int) + 8 * (-2 : W32).toInt)) (fun _ n => n == 1) = true := by decide +kernel
    obtain ⟨s1, n, hf, hn⟩ := ok_of h
    have hn : n = 1 := by simpa using hn
    exact ⟨_, _, _, s1, n, moves_code [(48, 1)] (scalars [(1, 1)]), hf, by omega, by omega, by decide, by decide, by subst hn; decide⟩
  · have h : okRes (fetchWord (codeState [(48, 1), (56, 5)] id) placeKey (blockWith id) (((blockWith id).pc.toNat : Int) + 8 * (-2 : W32).toInt))
        (fun t n => n == 1 && okRes (fetchWord t placeKey (blockWith id) (((blockWith id).pc.toNat : Int) + 8 * ((-2 : W32).toInt + 1 + ((blockWith id).gs 1).toNat)))
          fun _ _ => true) = true := by decide +kernel
    obtain ⟨s1, n, hf, hn⟩ := ok_of h
    simp only [Bool.and_eq_true, beq_iff_eq] at hn
    obtain ⟨s2, e, hg, -⟩ := ok_of hn.2
    exact ⟨_, _, _, s1, s2, n, e, moves_code [(48, 1), (56, 5)] id, hf, by omega, by omega, by decide, by rw [hn.1]; decide, by decide, hg⟩

theorem test_witness_ends : ∃ s k b, Moves s k b := ⟨_, _, _, moves id⟩

/-- The clauses of TrapsAndPrivilege: a user block, poisoned operands at both ends of s8 to s15, an empty queue, a user register at the last
number. -/
theorem test_witness_traps : ∃ s k b tile, Moves s k b ∧ b.sys = none ∧ b.ps 1 = true ∧ b.useTile 5 = .ok tile
    ∧ SettledFor s k true (enqBytes (3 : BitVec 12).toNat) s b ∧ (∃ n, 8 ≤ n ∧ n < 16 ∧ b.ps (Fin.ofNat 32 n) = true)
    ∧ swrReg 0x032 = true ∧ swrReg 0x104 = true ∧ srdReg 0x104 = true ∧ 0x100 ≤ (0x104 : BitVec 12).toNat ∧ b.status.getLsbD 9 = false ∧ b.evq = [] ∧ b.ended = none :=
  ⟨_, _, _, tile .i8 .s 1 2 [1, 2], moves fun b => { tiles [(5, tile .i8 .s 1 2 [1, 2])] b with sp := 0x8102 }, rfl, by decide, rfl,
    settled_for (moves _) _ _ rfl rfl, ⟨15, by decide, by decide, by decide⟩, rfl, rfl, rfl, by decide, by decide, rfl, rfl⟩

/-- The clauses of TrapsAndPrivilege about system mode: a routine that traps, a poisoned table address, a recorded poisoning. -/
theorem test_witness_traps_system : (∃ s k b m, Moves s k b ∧ b.sys = some m)
    ∧ ∃ s k b o, Moves s k b ∧ SettledFor s k true (msltBytes 1) s b ∧ b.status.getLsbD 9 = true ∧ b.ps 1 = true ∧ b.origin = some o :=
  ⟨⟨_, _, _, { code := mkRef 1 0, codeOff := 64, codeLen := 8, userPc := 128, loaded := true, saved := false, resume := none }, moves fun b => { b with
      status := 0x200
      sys := some { code := mkRef 1 0, codeOff := 64, codeLen := 8, userPc := 128, loaded := true, saved := false, resume := none } }, rfl⟩,
    ⟨_, _, _, { cause := 3, addr := 0, pc := 56, dev := 0 },
      moves fun b => { b with status := 0x200, sp := 2, origin := some { cause := 3, addr := 0, pc := 56, dev := 0 } },
      settled_for (moves _) _ _ rfl rfl, by decide, by decide, rfl⟩⟩

/-- A launch with a deadline. -/
def timedState : State :=
  let s := stateWith id
  { s with launches := [{ placeLaunch with man := { placeLaunch.man with deadline := 10 } }] }

/-- The clauses of SpecialRegisterReads: a user register, the last registers of the table, and the numbers beside them that no row names. -/
theorem test_witness_special_reads : srdReg 0x104 = true ∧ srdReg 0x105 = false ∧ srdReg 0x008 = true ∧ srdReg 0x009 = false ∧ srdReg 0x102 = false ∧ (∃ s k b, Moves s k b ∧ (0x0FF : BitVec 12).toNat < 0x100
      ∧ ∃ l, s.launchOf b = some l ∧ l.man.deadline < 2 ^ 62 ∧ s.dtime < 2 ^ 62 ∧ b.status.getLsbD 8 = false)
    ∧ ∃ s k b, Moves s k b ∧ b.status.getLsbD 9 = true := by
  refine ⟨rfl, rfl, rfl, rfl, rfl, ⟨timedState, placeKey, blockWith id, ⟨rfl, State.block?_setBlock_same _ _ _⟩, by decide, ?_⟩, ⟨_, _, _, moves fun b => { b with status := 0x200 }, by decide⟩⟩
  exact ⟨{ placeLaunch with man := { placeLaunch.man with deadline := 10 } }, by rfl, by decide, by decide, by decide⟩

theorem test_witness_special_writes : (0x010 : BitVec 12) ∉ ([0x030, 0x031, 0x032, 0x100, 0x101, 0x102, 0x103, 0x104] : List (BitVec 12)) ∧ ∃ s k b, Moves s k b ∧ b.ps 1 = false ∧ b.status.getLsbD 9 = true ∧ s.ctxBusy (s.ctxNumOf b) = false
    ∧ s.ctxHeld (s.ctxNumOf b) (some k) = false :=
  ⟨by decide, _, _, _, moves fun b => { b with status := 0x200 }, by decide, by decide, by decide +kernel, by decide +kernel⟩

/-- Tiles of one window: a destination t5 and sources t6, t7, t8 of a format, 1 × 2, and an index tile t9. -/
def laneTiles (fmt : Efmt) : Block → Block :=
  tiles [(5, tile fmt .s 1 2 [0, 0]), (6, tile fmt .s 1 2 [1, 2]), (7, tile fmt .s 1 2 [3, 4]), (8, tile fmt .s 1 2 [5, 6]), (9, tile .i32 .s 1 2 [1, 0])]

theorem fits (fmt : Efmt) (home : Home) (n : Nat) (xs : List Nat) (h : xs.length = n) : (tile fmt home 1 n xs).Fits where
  size := by simp [tile, Tile.bound, h]
  rows := Nat.le_refl _
  cols := by simp [tile, Tile.bound]

theorem test_witness_element_arithmetic : ∃ s k b d x y z, Moves s k b ∧ Dest b 5 d ∧ d.fmt.arith = true ∧ Operand s k b d 6 x ∧ x.fmt = d.fmt
    ∧ Operand s k b d 7 y ∧ y.fmt = d.fmt ∧ Operand s k b d 8 z ∧ z.fmt = d.fmt :=
  ⟨_, _, _, tile .fp32 .s 1 2 [0, 0], tile .fp32 .s 1 2 [1, 2], tile .fp32 .s 1 2 [3, 4], tile .fp32 .s 1 2 [5, 6], moves (laneTiles .fp32),
    ⟨rfl, fits _ _ 2 _ rfl, rfl⟩, rfl, ⟨rfl, rfl, rfl, rfl⟩, rfl, ⟨rfl, rfl, rfl, rfl⟩, rfl, ⟨rfl, rfl, rfl, rfl⟩, rfl⟩

/-- The clauses of ElementValues: an integer format, a NaN, infinities of both signs, zeros of both signs, a number. -/
theorem test_witness_element_values : Efmt.i4.isInt = true ∧ (Efmt.fp32.decode 0x7FC00001).isNan = true ∧ Efmt.fp16.decode 0x7C00 = .inf false
    ∧ Efmt.fp16.decode 0xFC00 = .inf true ∧ (∃ t e, Efmt.bf16.decode 0x8000 = .fin t 0 e) ∧ EOp.add ≠ .abs ∧ EOp.add ≠ .neg
    ∧ (Efmt.fp16.float?.isSome ∧ Efmt.bf16.float?.isSome ∧ Efmt.fp32.float?.isSome) ∧ (Efmt.fp16.decode 0x3C00).isNan = false
    ∧ (Efmt.fp16.decode 0x3C00).isZero = false ∧ (Efmt.fp16.decode 0x8000).isZero = true :=
  ⟨rfl, by decide, by decide, by decide, ⟨true, _, rfl⟩, by decide, by decide, by decide, by decide, by decide, by decide⟩

/-- R64, R65, R68, R210: −∞ × 0 is NaN with NVL, −∞ × 1 is −∞, and with sat the largest negative value with OVF. -/
theorem test_infinities : EOp.run .mul .fp16 .rne false 0 0xFC00 0 0 = (0x7E00, flNVL) ∧ EOp.run .mul .fp16 .rne false 0 0xFC00 0x3C00 0 = (0xFC00, 0)
    ∧ EOp.run .mul .fp16 .rne true 0 0xFC00 0x3C00 0 = (0xFBFF, flOVF) := by decide +kernel

/-- The values of SpecialFunctions: a NaN, zeros, infinities, a negative number; 2 cut to one bit and 1 + 2^-15 cut to 13; two numbers for a
Newton step; 2 as a power and as an exponent. -/
theorem test_witness_function_values : Efmt.bf16.special = true ∧ Efmt.bf16.float?.isSome ∧ 0x4000 < 2 ^ Efmt.bf16.bits ∧ (Efmt.bf16.decode 0x7FC0).isNan = true
    ∧ (∃ u e, Efmt.bf16.decode 0x8000 = .fin u 0 e) ∧ Efmt.bf16.decode 0xFF80 = .inf true ∧ (∃ m e, Efmt.bf16.decode 0xC000 = .fin true (m + 1) e)
    ∧ (∃ m e, Efmt.bf16.decode 0x4000 = .fin false m e ∧ 0 < m ∧ m = 2 ^ 7 ∧ 2 ^ 7 * 2 ^ 0 ≤ m ∧ m < (2 ^ 7 + 1) * 2 ^ 0 ∧ 2 ^ 7 < 2 ^ 13
      ∧ m * 2 ^ e.toNat = (2 : Int).natAbs * 2 ^ (-e).toNat)
    ∧ ∃ m e, Efmt.fp32.decode 0x3F800100 = .fin false m e ∧ 2 ^ 12 * 2 ^ 11 ≤ m ∧ m < (2 ^ 12 + 1) * 2 ^ 11 :=
  ⟨rfl, rfl, by decide, by decide, ⟨true, _, rfl⟩, by decide, ⟨127, -6, by decide⟩, ⟨128, -6, by decide, by decide, by decide, by decide, by decide, by decide, by decide⟩,
    ⟨8388864, -23, by decide, by decide, by decide⟩⟩

/-- The clauses of BitwiseElements. -/
theorem test_witness_bitwise : ∃ s k b d x y, Moves s k b ∧ Dest b 5 d ∧ d.fmt.plain = true ∧ Operand s k b d 6 x ∧ x.fmt = d.fmt ∧ d.fmt.isInt = true
    ∧ Operand s k b d 7 y ∧ y.fmt = d.fmt ∧ b.ps 1 = false ∧ x.poison = [] ∧ y.poison = [] :=
  ⟨_, _, _, tile .i16 .s 1 2 [0, 0], tile .i16 .s 1 2 [1, 2], tile .i16 .s 1 2 [3, 4], moves (laneTiles .i16), ⟨rfl, fits _ _ 2 _ rfl, rfl⟩, rfl,
    ⟨rfl, rfl, rfl, rfl⟩, rfl, rfl, ⟨rfl, rfl, rfl, rfl⟩, rfl, by decide, rfl, rfl⟩

theorem test_witness_special_functions : ∃ s k b d x y, Moves s k b ∧ Dest b 5 d ∧ d.fmt.special = true ∧ Operand s k b d 6 x ∧ x.fmt = d.fmt
    ∧ Operand s k b d 7 y ∧ y.fmt = d.fmt :=
  ⟨_, _, _, tile .bf16 .s 1 2 [0, 0], tile .bf16 .s 1 2 [1, 2], tile .bf16 .s 1 2 [3, 4], moves (laneTiles .bf16), ⟨rfl, fits _ _ 2 _ rfl, rfl⟩, rfl,
    ⟨rfl, rfl, rfl, rfl⟩, rfl, ⟨rfl, rfl, rfl, rfl⟩, rfl⟩

theorem test_witness_conversion : ∃ s k b d x y, Moves s k b ∧ Dest b 5 d ∧ Operand s k b d 6 x ∧ Operand s k b d 7 y ∧ y.fmt = x.fmt ∧ x.fmt.arith = true
    ∧ x.fmt = d.fmt ∧ d.fmt.plain = true :=
  ⟨_, _, _, tile .i8 .s 1 2 [0, 0], tile .i8 .s 1 2 [1, 2], tile .i8 .s 1 2 [3, 4], moves (laneTiles .i8), ⟨rfl, fits _ _ 2 _ rfl, rfl⟩, ⟨rfl, rfl, rfl, rfl⟩,
    ⟨rfl, rfl, rfl, rfl⟩, rfl, rfl, rfl, rfl⟩

/-- The values of ConversionComparisonSelection: integer and floating-point formats of each kind of special value. -/
theorem test_witness_conversion_values : Efmt.i8.isInt = true ∧ Efmt.fp32.isInt = false
    ∧ (∃ p q r, Efmt.fp16.float? = some p ∧ p.special = .ieee ∧ Efmt.e4m3.float? = some q ∧ q.special = .nanOnly ∧ Efmt.e2m1.float? = some r ∧ r.special = .none)
    ∧ Val.isNan .nan = true ∧ Val.isNan (.inf true) = false := ⟨rfl, rfl, ⟨_, _, _, rfl, rfl, rfl, rfl, rfl, rfl⟩, rfl, rfl⟩

/-- R65, R211: 2.5 rounds to even, and −0.5 down to −1. -/
theorem test_convert : convert .fp32 .i8 .rne false 0 (.fin false 5 (-1), 0) 0 = (2, flINX) ∧ convert .fp32 .i8 .rdn false 0 (.fin true 1 (-1), 0) 0 = (0xFF, flINX) := by
  decide +kernel

/-- Rows: a column t5 for sums, a row t10 for scans, ranks with their columns in t11. -/
def rowTiles : Block → Block :=
  tiles [(5, tile .i8 .s 1 1 [0]), (6, tile .i8 .s 1 2 [1, 2]), (10, tile .i8 .s 1 2 [0, 0]), (11, tile .ui32 .s 1 2 [0, 0])]

/-- The values of RowFolds: NaN, infinities of both signs and one, no element, zeros of one sign and of both, a sum that is not zero. -/
theorem test_witness_row_sums : Efmt.i8.isInt = true ∧ Efmt.fp16.special = true ∧ (∃ p, Efmt.fp16.float? = some p)
    ∧ (∃ v ∈ [0x7E00].map Efmt.fp16.decode, v.isNan = true) ∧ (let V := [0x7C00, 0x3C00].map Efmt.fp16.decode
      (∀ v ∈ V, v.isNan = false) ∧ .inf false ∈ V ∧ .inf true ∉ V)
    ∧ (let V := [0x3C00, 0xBC00].map Efmt.fp16.decode
      .inf false ∉ V ∧ .inf true ∉ V ∧ V ≠ [] ∧ V = [.fin false 1024 (-10), .fin true 1024 (-10)]) ∧ .inf true ∈ [0xFC00, 0x7C00].map Efmt.fp16.decode := by
  refine ⟨rfl, rfl, ⟨_, rfl⟩, by decide, by decide, by decide, by decide⟩

/-- The clauses of RowFolds. -/
theorem test_witness_row_folds : (∃ s k b d x, Moves s k b ∧ Dest b 5 d ∧ s.source k b 6 = .ok x ∧ x.home = .s ∧ x.fmt = d.fmt ∧ d.fmt.arith = true
      ∧ x.wrows = d.wrows ∧ d.wcols = 1)
    ∧ ∃ s k b d x, Moves s k b ∧ Dest b 10 d ∧ s.source k b 6 = .ok x ∧ x.home = .s ∧ x.fmt = d.fmt ∧ d.fmt.arith = true ∧ x.wrows = d.wrows ∧ x.wcols = d.wcols :=
  ⟨⟨_, _, _, tile .i8 .s 1 1 [0], tile .i8 .s 1 2 [1, 2], moves rowTiles, ⟨rfl, fits _ _ 1 _ rfl, rfl⟩, rfl, rfl, rfl, rfl, rfl, rfl⟩,
    ⟨_, _, _, tile .i8 .s 1 2 [0, 0], tile .i8 .s 1 2 [1, 2], moves rowTiles, ⟨rfl, fits _ _ 2 _ rfl, rfl⟩, rfl, rfl, rfl, rfl, rfl, rfl⟩⟩

theorem test_witness_ranked_rows : ∃ s k b d c x, Moves s k b ∧ Dest b 10 d ∧ Dest b 11 c ∧ (10 : TReg) ≠ 11 ∧ s.source k b 6 = .ok x ∧ x.home = .s ∧ x.fmt = d.fmt
    ∧ d.fmt.arith = true ∧ c.fmt.index = true ∧ c.wrows = d.wrows ∧ c.wcols = d.wcols ∧ x.wrows = d.wrows ∧ d.wcols = (2 : Fin 256).val ∧ 2 ≤ x.wcols
    ∧ x.wcols = d.wcols :=
  ⟨_, _, _, tile .i8 .s 1 2 [0, 0], tile .ui32 .s 1 2 [0, 0], tile .i8 .s 1 2 [1, 2], moves rowTiles, ⟨rfl, fits _ _ 2 _ rfl, rfl⟩, ⟨rfl, fits _ _ 2 _ rfl, rfl⟩,
    by decide, rfl, rfl, rfl, rfl, rfl, rfl, rfl, rfl, rfl, by decide, rfl⟩

/-- The clauses of PermutationsAndMasks: a row repeated; columns permuted, in a plain and in a block-scaled format. -/
theorem test_witness_permutations : (∃ s k b d x, Moves s k b ∧ Dest b 5 d ∧ s.source k b 6 = .ok x ∧ x.home = .s ∧ x.fmt = d.fmt ∧ d.fmt.plain = true
      ∧ x.wrows = 1 ∧ x.wcols = d.wcols)
    ∧ (∃ s k b d x y, Moves s k b ∧ Dest b 5 d ∧ s.source k b 6 = .ok x ∧ x.home = .s ∧ x.fmt = d.fmt ∧ s.source k b 9 = .ok y ∧ y.home = .s ∧ y.fmt.index = true
      ∧ x.wrows = d.wrows ∧ y.wrows = 1 ∧ y.wcols = d.wcols)
    ∧ ∃ s k b d x y, Moves s k b ∧ Dest b 5 d ∧ s.source k b 6 = .ok x ∧ x.home = .s ∧ x.fmt = d.fmt ∧ s.source k b 9 = .ok y ∧ y.home = .s ∧ y.fmt.index = true
      ∧ x.wcols = d.wcols ∧ y.wcols = 1 ∧ y.wrows = d.wrows ∧ d.fmt.block ≠ 0 ∧ d.lay.colwise = x.lay.colwise
      ∧ (∀ q, q < d.wrows → ¬ (y.fmt.int (y.get q 0) < 0 ∨ (x.wrows : Int) ≤ y.fmt.int (y.get q 0))) ∧ (false != d.lay.colwise) = false
    ∧ ∃ s k b d x y, Moves s k b ∧ Dest b 5 d ∧ s.source k b 6 = .ok x ∧ x.home = .s ∧ x.fmt = d.fmt ∧ s.source k b 9 = .ok y ∧ y.home = .s ∧ y.fmt.index = true
      ∧ x.wrows = d.wrows ∧ y.wrows = 1 ∧ y.wcols = d.wcols ∧ d.fmt.block ≠ 0 ∧ d.lay.colwise = x.lay.colwise ∧ (true != d.lay.colwise) = true
      ∧ ((List.range d.wcols).map fun q => y.fmt.int (y.get 0 q)) = (List.range 16).map Int.ofNat ∧ x.wcols = 16
      ∧ wholeBlocks ((List.range d.wcols).map fun q => y.fmt.int (y.get 0 q)) d.fmt.block = true :=
  ⟨⟨_, _, _, tile .i8 .s 1 2 [0, 0], tile .i8 .s 1 2 [1, 2], moves (laneTiles .i8), ⟨rfl, fits _ _ 2 _ rfl, rfl⟩, rfl, rfl, rfl, rfl, rfl, rfl⟩,
    ⟨_, _, _, tile .i8 .s 1 2 [0, 0], tile .i8 .s 1 2 [1, 2], tile .i32 .s 1 2 [1, 0], moves (laneTiles .i8), ⟨rfl, fits _ _ 2 _ rfl, rfl⟩, rfl, rfl, rfl, rfl, rfl, rfl,
      rfl, rfl, rfl⟩,
    ⟨_, _, _, tile .ks4 .s 1 16 (List.replicate 16 1), tile .ks4 .s 1 16 (List.replicate 16 2), tile .i32 .s 1 1 [0],
      moves (tiles [(5, tile .ks4 .s 1 16 (List.replicate 16 1)), (6, tile .ks4 .s 1 16 (List.replicate 16 2)), (9, tile .i32 .s 1 1 [0])]),
      ⟨rfl, fits _ _ 16 _ rfl, rfl⟩, rfl, rfl, rfl, rfl, rfl, rfl, rfl, rfl, rfl, by decide, rfl,
      (fun q hq => by have : q = 0 := by simp [tile, Tile.bound] at hq; exact hq
                      subst this; decide), rfl,
      ⟨_, _, _, tile .ks4 .s 1 16 (List.replicate 16 1), tile .ks4 .s 1 16 (List.replicate 16 2), tile .i32 .s 1 16 (List.range 16),
        moves (tiles [(5, tile .ks4 .s 1 16 (List.replicate 16 1)), (6, tile .ks4 .s 1 16 (List.replicate 16 2)), (9, tile .i32 .s 1 16 (List.range 16))]),
        ⟨rfl, fits _ _ 16 _ rfl, rfl⟩, rfl, rfl, rfl, rfl, rfl, rfl, rfl, rfl, rfl, by decide, rfl, rfl, by decide +kernel, rfl, by decide +kernel⟩⟩⟩

/-- The clauses of ShapeRecords: requests at both ends of the range, a valid record with strips, an invalid one. -/
theorem test_witness_shape_records : (∃ s k b, Moves s k b ∧ b.ps 1 = false ∧ b.ps 2 = false ∧ b.ps 3 = false ∧ (b.gs 1).toNat = 1 ∧ (b.gs 2).toNat = 2 ^ 32 - 1
      ∧ (b.gs 3).toNat = 0 ∧ (b.gsh 1).v = true ∧ (b.gsh 1).gk ≠ 0 ∧ (b.gsh 2).v = false) ∧ ∃ s k b, Moves s k b ∧ b.ps 1 = false ∧ (b.gs 1).toNat = 2 ^ 32 :=
  ⟨⟨_, _, _, moves fun b => { scalars [(1, 1), (2, 0xFFFFFFFF)] b with sh := b.sh.set 1 { gm := 8, gn := 8, gk := 128, kcur := 128, v := true, ktot := 300, kpos := 128 } },
      by decide, by decide, by decide, by decide, by decide, by decide, by decide, by decide, by decide⟩,
    ⟨_, _, _, moves (scalars [(1, 0x100000000)]), by decide, by decide⟩⟩

/-- The clauses of Binding: an extent within its limits, room in the stores, a valid shape record. -/
theorem test_witness_binding : ∃ s k b, Moves s k b ∧ elementPlaneBytes .ks4 .row 256 256 ≤ 131072 ∧ blockAxis .row 256 256 % Efmt.ks4.block = 0
    ∧ (let u := (b.usageBut (some 5)).add (Tile.bound none .s .row .ks4 256 256 0).usage
      ∃ ls, borrow u (s.core k.core).win b.loans (s.lendable k.core) = some ls ∧ (u.add (b.supersede 5).oldUsage).fits (s.core k.core).win (ls.length + 1) = true)
    ∧ (b.gsh 1).v = true ∧ (b.gsh 1).gk ≠ 0 ∧ b.gt 5 = none ∧ b.gt 6 ≠ none ∧ b.useTile 6 = .error (FaultInfo.atTile 0x0D 6 0 0) :=
  ⟨_, _, _, moves fun b => { tiles [(6, { tile .i8 .s 1 2 [1, 2] with link := some (2, false) })] b with
      sh := (b.sh.set 1 { gm := 8, gn := 8, gk := 128, kcur := 128, v := true, ktot := 300, kpos := 128 }).set 2
        { gm := 8, gn := 8, gk := 128, kcur := 128, v := true, ktot := 300, kpos := 128 } }, by decide, by decide,
    ⟨_, by rfl, by decide +kernel⟩, by decide, by decide, rfl, by decide, by rfl⟩

/-- The clauses of WindowsAndLayouts: a window at the edge of the bound extent. -/
theorem test_witness_windows : (∃ s k b x, Moves s k b ∧ b.useTile 5 = .ok x ∧ b.ps 1 = false ∧ x.link = none
      ∧ (b.gs 1).toNat / 256 % 256 + (0 : Fin 256).val + 1 ≤ x.brows ∧ (b.gs 1).toNat % 256 + (0 : Fin 256).val + 1 ≤ x.bcols ∧ x.fmt.block = 0 ∧ x.home = .s
      ∧ ∀ b1 : Block, b1 = (b.supersede 5).putT 5 (some { x.unlink.relaid .col with
          phys := s.freeCount
          unwritten := false }) → ((b1.usageBut none).add b1.oldUsage).fits (s.core k.core).win (b.loans.length + 1) = true)
    ∧ ∃ s k b x, Moves s k b ∧ b.useTile 5 = .ok x ∧ x.home = .a :=
  ⟨⟨_, _, _, tile .i8 .s 1 2 [0, 0], moves fun b => scalars [(1, 1)] (laneTiles .i8 b), rfl, by decide, rfl, by decide, by decide, rfl, rfl,
      fun b1 e => by subst e; decide +kernel⟩,
    ⟨_, _, _, tile .a56 .a 1 1 [0], moves (tiles [(5, tile .a56 .a 1 1 [0])]), rfl, rfl⟩⟩

/-- The clauses of FillsAndCopies. -/
theorem test_witness_fills : ∃ s k b x y, Moves s k b ∧ b.useTile 5 = .ok x ∧ x.Fits ∧ x.fmt.block = 0 ∧ s.source k b 6 = .ok y ∧ (5 : TReg) ≠ 6 ∧ y.fmt = x.fmt
    ∧ y.wrows = x.wrows ∧ y.wcols = x.wcols ∧ s.source k b 5 = .ok x ∧ Settled s k (writesTile 5) s b
    ∧ ∀ p ∈ b.superseded, p.1 ≠ 5 :=
  ⟨_, _, _, tile .i8 .s 1 2 [0, 0], tile .i8 .s 1 2 [1, 2], moves (laneTiles .i8), rfl, fits _ _ 2 _ rfl, rfl, rfl, by decide, rfl, rfl, rfl, rfl,
    settled _ _ rfl rfl, by simp [blockWith, laneTiles, tiles, startBlock]⟩

theorem test_witness_descriptors : ∃ s k b x, Moves s k b ∧ Settled s k (writesTile 5) s b ∧ b.useTile 5 = .ok x ∧ b.gt 20 = none ∧ 3 ≤ (3 : Fin 256).val :=
  ⟨_, _, _, tile .i8 .s 1 2 [0, 0], moves (laneTiles .i8), settled _ _ rfl rfl, rfl, rfl, by decide⟩

/-- The entry of a data handle: 4 KiB from a virtual address, readable, writable, open to atomics. -/
def dataEntry (va : Nat) : HEntry := parseHandle (2 ^ 63 + va) (2 ^ 47 + 2 ^ 45 + 2 ^ 44 + 4096) 0 0

/-- A state whose context has the data handles 2, 3 and 4, and a reference to the first in a2, with words in memory. -/
def dataState (words : List (Nat × Nat)) (f : Block → Block) : State :=
  let s := stateWith f
  { s.setCtx 0 { placeCtx with
      htn := 16
      hcache := [(0, 1, parseHandle (2 ^ 63 + placeCode) (2 ^ 46 + 2 ^ 44 + 0x1000) 0 0), (0, 2, dataEntry 0x30000), (0, 3, dataEntry 0x31000), (0, 4, dataEntry 0x32000)] } with
    mem := words.foldl (fun m p => m.writeLE p.1 8 p.2) s.mem }

theorem moves_data (words : List (Nat × Nat)) (f : Block → Block) : Moves (dataState words f) placeKey (blockWith f) :=
  ⟨rfl, State.block?_setBlock_same _ _ _⟩

/-- References to the data handles. -/
def dataRefs : Block → Block := refs [(2, mkRef 2 0), (3, mkRef 3 0), (4, mkRef 4 0)]

/-- The block and its state that moves with data references. -/
def dataBlock : Block := blockWith dataRefs
def plain : State := dataState [] dataRefs
def plainEnv : Env := plain.envOf placeKey dataBlock

/-- The clauses of ScalarLoads: an access at the end of the bound, and one beyond it. -/
theorem test_witness_scalar_loads : (∃ s s1 k b h im ps, Moves s k b ∧ b.pa 2 = false
      ∧ locate s (s.envOf k b) (refH (b.ga 2)) (refOff (b.ga 2) + (4080 : BitVec 24).toInt) 16 true Need.load = .ok s1 (h, im, ps))
    ∧ ∃ s s1 k b f, Moves s k b ∧ b.pa 2 = false
      ∧ locate s (s.envOf k b) (refH (b.ga 2)) (refOff (b.ga 2) + (4096 : BitVec 24).toInt) 1 false Need.load = .bad s1 f := by
  constructor
  · obtain ⟨s1, ⟨h, im, ps⟩, e, -⟩ := ok_of (r := locate plain plainEnv (refH (dataBlock.ga 2)) (refOff (dataBlock.ga 2) + (4080 : BitVec 24).toInt) 16 true Need.load)
      (p := fun _ _ => true) (by decide +kernel)
    exact ⟨plain, s1, placeKey, dataBlock, h, im, ps, moves_data _ _, by decide, e⟩
  · obtain ⟨s1, f, e⟩ := bad_of (r := locate plain plainEnv (refH (dataBlock.ga 2)) (refOff (dataBlock.ga 2) + (4096 : BitVec 24).toInt) 1 false Need.load)
      (by decide +kernel)
    exact ⟨plain, s1, placeKey, dataBlock, f, moves_data _ _, by decide, e⟩

/-- The clauses of ScalarStores: a strong and a weak store whose chase ends, and one beyond the bound. -/
theorem test_witness_scalar_stores : (∃ s s1 s2 k b h im ps us chased, Moves s k b ∧ b.pa 2 = false ∧ b.ps 1 = false
      ∧ locate s (s.envOf k b) (refH (b.ga 2)) (refOff (b.ga 2) + (8 : BitVec 24).toInt) 8 true Need.store = .ok s1 (h, im, ps)
      ∧ chaseStore s1 (s.envOf k b) 8 (scalarUnits im ps 8 false (leBytes 8 (b.gs 1).toNat)) = .ok s2 (us, chased))
    ∧ ∃ s s1 k b f, Moves s k b ∧ b.pa 2 = false ∧ b.ps 1 = false
      ∧ locate s (s.envOf k b) (refH (b.ga 2)) (refOff (b.ga 2) + (4 : BitVec 24).toInt) 8 true Need.store = .bad s1 f := by
  constructor
  · obtain ⟨s1, ⟨h, im, ps⟩, e, g⟩ := ok_of (r := locate plain plainEnv (refH (dataBlock.ga 2)) (refOff (dataBlock.ga 2) + (8 : BitVec 24).toInt) 8 true Need.store)
      (p := fun t a => okRes (chaseStore t plainEnv 8 (scalarUnits a.2.1 a.2.2 8 false (leBytes 8 (dataBlock.gs 1).toNat))) fun _ _ => true) (by decide +kernel)
    obtain ⟨s2, ⟨us, c⟩, e2, -⟩ := ok_of g
    exact ⟨plain, s1, s2, placeKey, dataBlock, h, im, ps, us, c, moves_data _ _, by decide, by decide, e, e2⟩
  · obtain ⟨s1, f, e⟩ := bad_of (r := locate plain plainEnv (refH (dataBlock.ga 2)) (refOff (dataBlock.ga 2) + (4 : BitVec 24).toInt) 8 true Need.store)
      (by decide +kernel)
    exact ⟨plain, s1, placeKey, dataBlock, f, moves_data _ _, by decide, by decide, e⟩

/-- The clauses of AccessChecks: no handle 0 and none beyond the table; an entry that is not valid, one without the right, one in reach whose
bound the access meets or passes, and a misaligned one. -/
theorem test_witness_access_checks : (∃ (s : State) (e : Env), (16 : Nat) < 2 ^ 20 ∧ (s.ctx e.ctx).handles ≤ 16)
    ∧ (∃ s e s1 he, 2 ≠ 0 ∧ 2 < (s.ctx e.ctx).handles ∧ readHandle s e (mkRef 2 4) = .ok s1 he ∧ s1.entryValid (s1.ctx e.ctx) he = true
      ∧ he.grants Need.load = true ∧ he.grants Need.fetch = false ∧ corepinReach (s1.ctx e.ctx) e.core he = true ∧ (he.bound : Int) < 4 + (4093 : Nat)
      ∧ (4 : Int) + (4 : Nat) ≤ he.bound ∧ (he.base + (4 : Int).toNat) % 8 ≠ 0)
    ∧ ∃ s e s1 he, 5 ≠ 0 ∧ 5 < (s.ctx e.ctx).handles ∧ readHandle s e (mkRef 5 4) = .ok s1 he ∧ s1.entryValid (s1.ctx e.ctx) he = false := by
  refine ⟨⟨plain, plainEnv, by decide, by decide +kernel⟩, ?_, ?_⟩
  · obtain ⟨s1, he, e, g⟩ := ok_of (r := readHandle plain plainEnv (mkRef 2 4)) (p := fun t h => t.entryValid (t.ctx plainEnv.ctx) h && h.grants Need.load
      && !h.grants Need.fetch && corepinReach (t.ctx plainEnv.ctx) plainEnv.core h && h.bound == 4096 && h.base % 8 == 0) (by decide +kernel)
    simp only [Bool.and_eq_true, Bool.not_eq_true', beq_iff_eq] at g
    obtain ⟨⟨⟨⟨⟨a, b⟩, c⟩, d⟩, h1⟩, h2⟩ := g
    exact ⟨plain, plainEnv, s1, he, by decide, by decide +kernel, e, a, b, c, d, by omega, by omega, by
      show (he.base + 4) % 8 ≠ 0
      omega⟩
  · obtain ⟨s1, he, e, g⟩ := ok_of (r := readHandle plain plainEnv (mkRef 5 4)) (p := fun t h => !t.entryValid (t.ctx plainEnv.ctx) h) (by decide +kernel)
    exact ⟨plain, plainEnv, s1, he, by decide, by decide +kernel, e, by simpa using g⟩

/-- A queued access of eight bytes at 0x30008 by the instruction at 64. -/
def unit (data : List Byte) : EvUnit :=
  { image := mkRef 2 8, place := (List.range 8).map (0x30008 + ·), data := data, mask := [], bad := none, dst := [.reg 0], zero := false, done := false }

def event (kind : EvKind) (rights : Nat) (data : List Byte) (dest : EvDest) (rmw : Option RmwOp) : Ev :=
  { id := 7, kind := kind, pc := 64, ord := .weak, units := [unit data], dest := dest, rmw := rmw, ref := none, chased := none, rights := rights,
    atHome := false, engine := none, tile := none, bale := 0, clmp := false, pwb := false, failed := false, first := false, al := 1, hops := 0, clears := [], keep := false, lines := [], slot := 0,
    copy := false, waiting := false }

/-- A block with one queued access, and its state. -/
def queueBlock (e : Ev) : Block := blockWith fun b => { dataRefs b with evq := [e] }
def queueState (e : Ev) : State := dataState [(0x30008, 0x1122334455667788)] fun b => { dataRefs b with evq := [e] }
def queueEnv (e : Ev) : Env := { (queueState e).envOf placeKey (queueBlock e) with drain := e.buffered }

/-- The clauses of QueuedAccesses: a load unit, a store unit, and a point, each with nothing to wait for. -/
theorem test_witness_queued_accesses : (∃ s s1 k b e u d bs, s.block? k = some b ∧ (b.evq.find? fun x => x.id = e.id) = some e ∧ e.units = [u]
      ∧ s.unitEnabled k b e.id 0 = true ∧ e.dest = .scalar d ∧ e.rmw = none ∧ u.data = [] ∧ u.bad = none ∧ u.zero = false ∧ forwardFrom s b e u = none
      ∧ readUnit s { s.envOf k b with drain := e.buffered } e.need u.image u.place = .ok s1 (none, bs) ∧ e.clmp = false ∧ e.pwb = false ∧ e.chased = none ∧ e.kind = .read)
    ∧ (∃ s s1 k b e u ps, s.block? k = some b ∧ (b.evq.find? fun x => x.id = e.id) = some e ∧ e.units = [u] ∧ s.unitEnabled k b e.id 0 = true
      ∧ e.dest = .none ∧ e.rmw = none ∧ u.data ≠ [] ∧ u.mask = [] ∧ u.data.length = ps.length ∧ ps.Nodup ∧ u.bad = none ∧ u.zero = false
      ∧ chaseAll s { s.envOf k b with drain := e.buffered } e.need u.image u.image u.place = .ok s1 (none, ps) ∧ e.clmp = false ∧ e.pwb = false ∧ e.chased = none ∧ e.kind = .drain)
    ∧ ∃ (s : State) (k : BKey) (b : Block) (e : Ev), s.block? k = some b ∧ (b.evq.find? fun x => x.id = e.id) = some e ∧ pointEnabled b.evq e.id s.engineBusy = true
      ∧ e.engine = none ∧ k ∉ s.stopped ∧ e.kind = .relPoint := by
  refine ⟨?_, ?_, ?_⟩
  · obtain ⟨s1, ⟨c, bs⟩, e, g⟩ := ok_of (r := readUnit (queueState (event .read 1 [] (.scalar 3) none)) (queueEnv (event .read 1 [] (.scalar 3) none))
      (event .read 1 [] (.scalar 3) none).need (unit []).image (unit []).place) (p := fun _ a => a.1 == none) (by decide +kernel)
    have g : c = none := by simpa using g
    subst g
    exact ⟨queueState (event .read 1 [] (.scalar 3) none), s1, placeKey, queueBlock (event .read 1 [] (.scalar 3) none), event .read 1 [] (.scalar 3) none, unit [], 3, bs, State.block?_setBlock_same _ _ _, rfl, rfl, by decide +kernel, rfl, rfl,
      rfl, rfl, rfl, rfl, e, rfl, rfl, rfl, rfl⟩
  · obtain ⟨s1, ⟨c, ps⟩, e, g⟩ := ok_of (r := chaseAll (queueState (event .drain 2 (leBytes 8 5) .none none)) (queueEnv (event .drain 2 (leBytes 8 5) .none none))
      (event .drain 2 (leBytes 8 5) .none none).need (unit (leBytes 8 5)).image (unit (leBytes 8 5)).image (unit (leBytes 8 5)).place)
      (p := fun _ a => a.1 == none && a.2 == (List.range 8).map (0x30008 + ·)) (by decide +kernel)
    simp only [Bool.and_eq_true, beq_iff_eq] at g
    obtain ⟨g1, g2⟩ := g
    subst g1 g2
    exact ⟨queueState (event .drain 2 (leBytes 8 5) .none none), s1, placeKey, queueBlock (event .drain 2 (leBytes 8 5) .none none), event .drain 2 (leBytes 8 5) .none none, unit (leBytes 8 5), _, State.block?_setBlock_same _ _ _, rfl, rfl,
      by decide +kernel, rfl, rfl, by decide, rfl, rfl, by decide, rfl, rfl, e, rfl, rfl, rfl, rfl⟩
  · exact ⟨queueState { event .relPoint 0 [] .none none with units := [] }, placeKey, queueBlock { event .relPoint 0 [] .none none with units := [] }, { event .relPoint 0 [] .none none with units := [] }, State.block?_setBlock_same _ _ _, rfl, by decide +kernel, rfl, by decide, rfl⟩

/-- The clauses of AtomicOperations: an aligned word, doubleword and pair; a misaligned one; and a Perform with nothing to wait for. -/
theorem test_witness_atomics : (∃ s s1 k b h im ps, Moves s k b ∧ b.pa 2 = false ∧ b.ps 1 = false ∧ b.ps 4 = false ∧ b.ps (1 + 1) = false ∧ b.ps (4 + 1) = false
      ∧ locate s (s.envOf k b) (refH (b.ga 2)) (refOff (b.ga 2) + (16 : BitVec 24).toInt) 16 true Need.atomic = .ok s1 (h, im, ps))
    ∧ (∃ s s1 k b f, Moves s k b ∧ b.pa 2 = false ∧ b.ps 1 = false
      ∧ locate s (s.envOf k b) (refH (b.ga 2)) (refOff (b.ga 2) + (2 : BitVec 24).toInt) 4 true Need.atomic = .bad s1 f)
    ∧ (∃ s s1 k b e u d op ps, s.block? k = some b ∧ (b.evq.find? fun x => x.id = e.id) = some e ∧ e.units = [u] ∧ s.unitEnabled k b e.id 0 = true ∧ e.kind = .perform
      ∧ e.dest = .scalar d ∧ e.rmw = some op ∧ u.bad = none ∧ u.zero = false ∧ ps.Nodup ∧ (ps.any fun p => s1.eccAt p) = false ∧ ps.length = 8
      ∧ chaseAll s { s.envOf k b with drain := e.buffered } e.need u.image u.image u.place = .ok s1 (none, ps) ∧ e.clmp = false ∧ e.pwb = false ∧ e.chased = none)
    ∧ (8 : Nat) = 8 ∧ 2 ^ 64 - 1 < 2 ^ (8 * 8) := by
  refine ⟨?_, ?_, ?_, rfl, by decide⟩
  · obtain ⟨s1, ⟨h, im, ps⟩, e, -⟩ := ok_of (r := locate plain plainEnv (refH (dataBlock.ga 2)) (refOff (dataBlock.ga 2) + (16 : BitVec 24).toInt) 16 true Need.atomic)
      (p := fun _ _ => true) (by decide +kernel)
    exact ⟨plain, s1, placeKey, dataBlock, h, im, ps, moves_data _ _, by decide, by decide, by decide, by decide, by decide, e⟩
  · obtain ⟨s1, f, e⟩ := bad_of (r := locate plain plainEnv (refH (dataBlock.ga 2)) (refOff (dataBlock.ga 2) + (2 : BitVec 24).toInt) 4 true Need.atomic)
      (by decide +kernel)
    exact ⟨plain, s1, placeKey, dataBlock, f, moves_data _ _, by decide, by decide, e⟩
  · obtain ⟨s1, ⟨c, ps⟩, e, g⟩ := ok_of (r := chaseAll (queueState (event .perform 7 [] (.scalar 3) (some (.atom .add 1)))) (queueEnv (event .perform 7 [] (.scalar 3)
      (some (.atom .add 1)))) (event .perform 7 [] (.scalar 3) (some (.atom .add 1))).need (unit []).image (unit []).image (unit []).place)
      (p := fun t a => a.1 == none && a.2 == (List.range 8).map (0x30008 + ·) && !(a.2.any fun p => t.eccAt p)) (by decide +kernel)
    simp only [Bool.and_eq_true, Bool.not_eq_true', beq_iff_eq] at g
    obtain ⟨⟨g1, g2⟩, g3⟩ := g
    subst g1 g2
    exact ⟨queueState (event .perform 7 [] (.scalar 3) (some (.atom .add 1))), s1, placeKey, queueBlock (event .perform 7 [] (.scalar 3) (some (.atom .add 1))), event .perform 7 [] (.scalar 3) (some (.atom .add 1)), unit [], 3, .atom .add 1, _, State.block?_setBlock_same _ _ _, rfl, rfl,
      by decide +kernel, rfl, rfl, rfl, rfl, rfl, by decide, g3, rfl, e, rfl, rfl, rfl⟩

/-- A tile of four words, and an index tile of one row. -/
def wordTiles (b : Block) : Block :=
  { tiles [(5, tile .i32 .s 1 4 [1, 2, 3, 4]), (9, tile .i32 .s 1 1 [0])] (dataRefs b) with s := b.s.set 1 (0x0000000000000010 : W64) }

def wordState : State := dataState [] wordTiles
def wordBlock : Block := blockWith wordTiles
def wordEnv : Env := wordState.envOf placeKey wordBlock
def wordTile : Tile := tile .i32 .s 1 4 [1, 2, 3, 4]

/-- How the statements plan an access to the tile through a2. -/
def wordPlan (h : HEntry) (row : Nat → Int) : Plan :=
  { x := wordTile, h := h, hidx := refH (wordBlock.ga 2), base := 0, limit := h.bound, e := refOff (wordBlock.ga 2) + (0 : BitVec 20).toInt,
    tensor := wordBlock.tensor 0 wordTile, row := row }

def wordCollect (s : State) (us : List EvUnit) (g : Group) : Res (List EvUnit) :=
  (loadUnit (s.envOf placeKey wordBlock) Need.load s g).andThen fun s u => .ok s (us ++ [u])

/-- The clauses of TileAccesses: a load, an indexed load, a store. -/
theorem test_witness_tile_accesses : Moves wordState placeKey wordBlock ∧ wordBlock.pa 2 = false ∧ wordBlock.ps 0 = false ∧ wordBlock.useTile 5 = .ok wordTile
    ∧ wordState.source placeKey wordBlock 5 = .ok wordTile
    ∧ (∃ s1 s2 h us, checkHandle wordState wordEnv (wordPlan (parseHandle 0 0 0 0) fun u => u).lowest Need.load = .ok s1 h
      ∧ resFold wordCollect s1 [] (groupAccesses false ((wordPlan h fun u => u).all true false).1) = .ok s2 us)
    ∧ (∃ rows, indexRows wordState placeKey wordBlock 9 wordTile.memRows = .ok rows)
    ∧ ∃ s1 s2 h us, checkHandle wordState wordEnv (wordPlan (parseHandle 0 0 0 0) fun u => u).lowest Need.store = .ok s1 h
      ∧ poisonedData wordTile ((wordPlan h fun u => u).all false false).1 = none
      ∧ placeStore ((s1.fired placeKey [wordTile]).envOf placeKey wordBlock) Need.store (s1.fired placeKey [wordTile]) []
        (groupAccesses false ((wordPlan h fun u => u).all false false).1) = .ok s2 (us, none) := by
  refine ⟨moves_data _ _, by decide, by decide, rfl, rfl, ?_, ⟨_, rfl⟩, ?_⟩
  · obtain ⟨s1, h, e, g⟩ := ok_of (r := checkHandle wordState wordEnv (wordPlan (parseHandle 0 0 0 0) fun u => u).lowest Need.load)
      (p := fun t h => okRes (resFold wordCollect t [] (groupAccesses false ((wordPlan h fun u => u).all true false).1)) fun _ _ => true) (by decide +kernel)
    obtain ⟨s2, us, e2, -⟩ := ok_of g
    exact ⟨s1, s2, h, us, e, e2⟩
  · obtain ⟨s1, h, e, g⟩ := ok_of (r := checkHandle wordState wordEnv (wordPlan (parseHandle 0 0 0 0) fun u => u).lowest Need.store)
      (p := fun t h => (poisonedData wordTile ((wordPlan h fun u => u).all false false).1).isNone
        && okRes (placeStore ((t.fired placeKey [wordTile]).envOf placeKey wordBlock) Need.store (t.fired placeKey [wordTile]) []
          (groupAccesses false ((wordPlan h fun u => u).all false false).1)) fun _ a => a.2.isNone) (by decide +kernel)
    simp only [Bool.and_eq_true, Option.isNone_iff_eq_none] at g
    obtain ⟨s2, ⟨us, o⟩, e2, h2⟩ := ok_of g.2
    have h2 : o = none := by simpa using h2
    subst h2
    exact ⟨s1, s2, h, us, e, g.1, e2⟩

/-- The clauses of TileAddresses: an element at the last place inside the bound, one below offset 0, and one beyond the bound. -/
theorem test_witness_tile_addresses : wordTile.fmt.bits = 8 * 4 ∧ 0 < 4 ∧ wordTile.fmt ≠ .a56
    ∧ (wordPlan (dataEntry 0) fun u => u).tensor.vr = 0 ∧ (wordPlan (dataEntry 0) fun u => u).tensor.vc = 0 ∧ (∀ u : Nat, (0 : Int) ≤ (u : Int))
    ∧ (0 : Int) ≤ 4092 ∧ (4092 : Int) + (4 : Nat) ≤ (4096 : Nat) ∧ (-1 : Int) < 0 ∧ ((4096 : Nat) : Int) < 4093 + (4 : Nat) :=
  ⟨rfl, by decide, by decide, rfl, rfl, fun u => Int.natCast_nonneg u, by decide, by decide, by decide, by decide⟩

/-- A distributed tensor of one block of 1 × 4 words, owned by handle 3 of this device; its table lies at the start of handle 2. -/
def ownerState : State := dataState [(0x30000, 0x0001000100040001), (0x30008, 0x0B), (0x30010, 16), (0x30020, 3 * 4096)] fun b => { wordTiles b with s := b.s }
def ownerBlock : Block := blockWith fun b => { wordTiles b with s := b.s }
def ownerEnv : Env := ownerState.envOf placeKey ownerBlock
def ownerRead : Res (HEntry × List Byte) :=
  (locate ownerState ownerEnv (refH (ownerBlock.ga 2)) (refOff (ownerBlock.ga 2) + (0 : BitVec 20).toInt) 32 false Need.load).andThen fun s l =>
    (readUnit s ownerEnv Need.load l.2.1 l.2.2).andThen fun s u => .ok s (l.1, u.2)
def ownerCollect (s : State) (us : List EvUnit) (g : Group) : Res (List EvUnit) :=
  (loadUnit (s.envOf placeKey ownerBlock) Need.load s g).andThen fun s u => .ok s (us ++ [u])

/-- A launch with a bound parameter window P0 of 64 bytes; P1 is not bound. -/
def windowState (f : Block → Block) : State :=
  { dataState [] f with launches := [{ placeLaunch with windows := some (mkRef 2 0, 64) :: List.replicate 7 none }] }

/-- The clauses of DistributedAndParameterAccesses: a table that is well formed and names what it owns, for a load and for a store; an unbound
window, a bound one with its last eight bytes and eight beyond them. -/
theorem test_witness_distributed : (SettledFor ownerState placeKey false (tableHeader 2 0) ownerState ownerBlock
      ∧ SettledFor ownerState placeKey false (tableEntries 5 2 0 0) ownerState ownerBlock ∧ ownerBlock.pa 2 = false ∧ ownerBlock.ps 0 = false
      ∧ ownerBlock.useTile 5 = .ok wordTile ∧ ownerState.source placeKey ownerBlock 5 = .ok wordTile
      ∧ okRes ownerRead (fun s a => !(parseOwner a.2).malformed wordTile
        && okRes (ownerPlan true ownerEnv Need.load (ownerBlock.ga 2) 0 (parseOwner a.2) wordTile 0 0 s) (fun s p =>
          okRes (resFold ownerCollect s [] (groupAccesses false p.1)) fun _ _ => true)
        && okRes (ownerPlan false ownerEnv Need.store (ownerBlock.ga 2) 0 (parseOwner a.2) wordTile 0 0 s) fun s p => (poisonedData wordTile p.1).isNone
          && okRes (placeStore ((s.fired placeKey [wordTile]).envOf placeKey ownerBlock) Need.store (s.fired placeKey [wordTile]) [] (groupAccesses false p.1))
            fun _ r => r.2.isNone) = true)
    ∧ (∃ s k b, Moves s k b ∧ b.pa 2 = false ∧ b.ps 0 = false ∧ s.window b 1 = none ∧ b.useTile 5 = .ok wordTile)
    ∧ ∃ s k b h im ps s1, Moves s k b ∧ s.window b 0 = some (mkRef 2 0, 64) ∧ (64 : Int) < (64 : BitVec 20).toInt + 8 ∧ 0 ≤ (56 : BitVec 20).toInt
      ∧ (56 : BitVec 20).toInt + 8 ≤ (64 : Nat)
      ∧ locate s (s.envOf k b) (refH (mkRef 2 0)) (refOff (mkRef 2 0) + (56 : BitVec 20).toInt) 8 false Need.load = .ok s1 (h, im, ps) := by
  refine ⟨⟨settled_for (moves_data _ _) _ _ rfl rfl, settled_for (moves_data _ _) _ _ rfl rfl, by decide, by decide, rfl, rfl, by decide +kernel⟩, ⟨windowState wordTiles, placeKey, wordBlock, ⟨rfl, State.block?_setBlock_same _ _ _⟩,
    by decide, by decide, by rfl, rfl⟩, ?_⟩
  · obtain ⟨s1, ⟨h, im, ps⟩, e, -⟩ := ok_of (r := locate (windowState wordTiles) ((windowState wordTiles).envOf placeKey wordBlock) (refH (mkRef 2 0))
      (refOff (mkRef 2 0) + (56 : BitVec 20).toInt) 8 false Need.load) (p := fun _ _ => true) (by decide +kernel)
    exact ⟨windowState wordTiles, placeKey, wordBlock, h, im, ps, s1, ⟨rfl, State.block?_setBlock_same _ _ _⟩, by rfl, by decide, by decide, by decide, e⟩

/-- Tiles of a product of one element: plain, scaled and block-scaled. -/
def productTiles : Block → Block :=
  tiles [(5, tile .a56 .a 1 1 [0]), (6, tile .fp16 .s 1 1 [0x3C00]), (7, tile .fp16 .s 1 1 [0x3C00]), (8, tile .fp32 .s 1 1 [0x3F800000]), (9, tile .fp32 .s 1 1 [0x3F800000]),
    (10, tile .ks6 .s 1 16 (List.replicate 16 8)), (11, { tile .ks6 .s 16 1 (List.replicate 16 8) with lay := .col })]

/-- The clauses of Products. -/
theorem test_witness_products : ∃ s k b d x y sa sb, Moves s k b ∧ s.accumulator k b 5 = .ok d ∧ d.Fits ∧ operandTile s k b ⟨6, none⟩ = .ok x ∧ operandTile s k b ⟨7, none⟩ = .ok y
    ∧ ownBound b k [5] [⟨6, none⟩, ⟨7, none⟩] [] = none ∧ productFault .dense 5 6 7 d x y = none ∧ ownBound b k [5] [⟨6, none⟩, ⟨7, none⟩] [8, 9] = none
    ∧ productFault .scaled 5 6 7 d x y = none ∧ s.source k b 8 = .ok sa ∧ s.source k b 9 = .ok sb ∧ scaleFault 8 9 d x sa sb = none
    ∧ ∃ u v, operandTile s k b ⟨10, none⟩ = .ok u ∧ operandTile s k b ⟨11, none⟩ = .ok v ∧ ownBound b k [5] [⟨10, none⟩, ⟨11, none⟩] [] = none
      ∧ productFault .block 5 10 11 d u v = none ∧ u.lay ≠ .col ∧ v.lay = .col :=
  ⟨_, _, _, tile .a56 .a 1 1 [0], tile .fp16 .s 1 1 [0x3C00], tile .fp16 .s 1 1 [0x3C00], tile .fp32 .s 1 1 [0x3F800000], tile .fp32 .s 1 1 [0x3F800000],
    moves productTiles, rfl, fits _ _ 1 _ rfl, rfl, rfl, rfl, rfl, rfl, rfl, rfl, rfl, rfl, tile .ks6 .s 1 16 (List.replicate 16 8),
    { tile .ks6 .s 16 1 (List.replicate 16 8) with lay := .col }, rfl, rfl, rfl, rfl, by decide, rfl⟩

/-- A gang of the cores 0 and 1: its blocks, and the state in which the first moves. -/
def gangState (f g : Block → Block) : State :=
  let s := stateWith f
  (s.setCtx 0 { placeCtx with part := [0, 1] }).setBlock { core := 1, slot := 0 } (blockWith g)

theorem moves_gang (f g : Block → Block) : Moves (gangState f g) placeKey (blockWith f) :=
  ⟨rfl, (State.block?_setBlock_other _ (by decide) _).trans (State.block?_setBlock_same _ _ _)⟩

/-- A part that the lead of core 1 left on the block of core 0. -/
def gangPart : GPart := { id := 3, ready := true, td := 5, ta := 6, b := ⟨7, none⟩, bar := 2, lead := 1, snap := none, badLines := [], pc := 64 }

/-- A member that sleeps on the barrier of that part. -/
def memberBlock : Block := blockWith fun b => { productTiles b with parts := [gangPart], sleep := some (.barw 3 2 none) }
def memberState : State := { stateWith fun b => { productTiles b with parts := [gangPart], sleep := some (.barw 3 2 none) } with evSeq := 4 }

/-- The clauses of GangedProducts: a complete gang and its lead, and a member that sleeps on the barrier of a part. -/
theorem test_witness_ganged : (∃ s k b d x y, Settled s k barWaits s b ∧ b.useTile 5 = .ok d ∧ d.Fits ∧ (∀ c, (s.core c).armed = [])
      ∧ (∀ q ∈ s.blocks, ∀ g ∈ q.2.parts, g.id < s.evSeq) ∧ partTiles s k b 5 6 ⟨7, none⟩ none = .ok (d, x, y) ∧ gangOk s k b = true ∧ (s.barSet k)[(2 : BReg).val].a + 1 ≠ (s.barSet k)[(2 : BReg).val].e)
    ∧ ∃ (s : State) (k : BKey) (b : Block) (d x y : Tile), settleWhere s k barWaits = s ∧ s.pending k barWaits = false ∧ s.block? k = some b
      ∧ b.useTile 5 = .ok d ∧ d.Fits ∧ (∀ c, (s.core c).armed = []) ∧ (∀ q ∈ s.blocks, ∀ g ∈ q.2.parts, g.id < s.evSeq)
      ∧ b.acceptedPart = some gangPart ∧ b.partRuns gangPart = true ∧ gangPart.td = 5 ∧ gangPart.badLines = []
      ∧ (s.barSet k)[gangPart.bar.val].a + 1 ≠ (s.barSet k)[gangPart.bar.val].e
      ∧ partTiles (s.setBlock k { b with parts := b.parts.erase gangPart }) k { b with parts := b.parts.erase gangPart } gangPart.td gangPart.ta gangPart.b gangPart.snap
        = .ok (d, x, y) := by
  have m : Moves memberState placeKey memberBlock := ⟨rfl, (moves _).here⟩
  have z := settled_of m barWaits rfl rfl
  exact ⟨⟨gangState (fun b => { productTiles b with gang := 3 }) id, placeKey, blockWith fun b => { productTiles b with gang := 3 }, tile .a56 .a 1 1 [0],
      tile .fp16 .s 1 1 [0x3C00], tile .fp16 .s 1 1 [0x3C00], settled_of (moves_gang _ _) _ rfl rfl, rfl, fits _ _ 1 _ rfl, fun _ => rfl, by decide +kernel, rfl, by decide +kernel,
      by decide +kernel⟩,
    ⟨memberState, placeKey, memberBlock, tile .a56 .a 1 1 [0],
      tile .fp16 .s 1 1 [0x3C00], tile .fp16 .s 1 1 [0x3C00], z.after, by rw [State.pending, m.here]; exact z.clear, m.here, rfl, fits _ _ 1 _ rfl, fun _ => rfl,
      by decide +kernel, by decide +kernel, by decide +kernel, rfl, rfl, by decide +kernel, rfl⟩⟩

/-- The clauses of AccumulatorMoves. -/
theorem test_witness_accumulators : (∃ s k b d, Moves s k b ∧ d.Fits ∧ b.useTile 5 = .ok d ∧ d.home = .a ∧ s.accumulator k b 5 = .ok d ∧ ∃ x, s.source k b 6 = .ok x
      ∧ x.wrows = d.wrows ∧ x.wcols = d.wcols ∧ x.home = .s ∧ x.fmt.block = 0)
    ∧ ∃ s k b d x, Moves s k b ∧ d.Fits ∧ b.useTile 6 = .ok d ∧ d.home = .s ∧ d.fmt.block = 0 ∧ s.source k b 5 = .ok x ∧ x.wrows = d.wrows ∧ x.wcols = d.wcols ∧ x.home = .a :=
  ⟨⟨_, _, _, tile .a56 .a 1 1 [0], moves productTiles, fits _ _ 1 _ rfl, rfl, rfl, rfl, tile .fp16 .s 1 1 [0x3C00], rfl, rfl, rfl, rfl, rfl⟩,
    ⟨_, _, _, tile .fp16 .s 1 1 [0x3C00], tile .a56 .a 1 1 [0], moves productTiles, fits _ _ 1 _ rfl, rfl, rfl, rfl, rfl, rfl, rfl, rfl⟩⟩

/-- The clauses of MatrixSlotsAndRamp: an aligned address of clean words, a misaligned one, a set reserved bit, a table that waits. -/
theorem test_witness_slots : (∃ s k b, SettledFor s k true (msltBytes 1) s b ∧ b.status.getLsbD 9 = true ∧ b.ps 1 = false ∧ (b.gs 1).toNat = 0x30000
      ∧ (∀ n, n < 4 → (∃ sp, s.spaceOf (0x30000 + 128 * n) = some sp ∧ sp ≠ 3) ∧ s.eccAt (0x30000 + 128 * n) = false)
      ∧ (List.range 64).all (fun n => s.mem.readLE (0x30000 + 8 * n) 8 / 2 ^ 16 % 2 ^ 47 == 0) = true)
    ∧ (∃ s k b, SettledFor s k true (msltBytes 1) s b ∧ (b.gs 1).toNat % 128 ≠ 0)
    ∧ (∃ m : Memory, m.readLE (0x30000 + 8 * 63) 8 / 2 ^ 16 % 2 ^ 47 ≠ 0)
    ∧ ∃ (s : State) (tab : List (Bool × Nat)), (s.die 0).nextSlots = some tab := by
  refine ⟨⟨_, _, _, settled_for (moves fun b => { scalars [(1, 0x30000)] b with status := 0x200 }) _ _ rfl rfl, by decide, by decide, by decide, ?_, by decide +kernel⟩,
    ⟨_, _, _, settled_for (moves (scalars [(1, 0x30008)])) _ _ rfl rfl, by decide⟩, ⟨[(0x30000 + 8 * 63 + 7, 0x40)], by decide⟩,
    ⟨{ State.reset with die0 := { Die.reset with nextSlots := some [] } }, [], rfl⟩⟩
  intro n hn
  have h : n = 0 ∨ n = 1 ∨ n = 2 ∨ n = 3 := by omega
  rcases h with rfl | rfl | rfl | rfl <;> exact ⟨⟨0, by decide +kernel, by decide⟩, by decide +kernel⟩

/-- The clauses of MatrixSlotsAndRamp about a dependency entry. -/
theorem test_witness_micro_op : ∃ (s : State) (k : BKey) (b : Block) (e : DepEntry), s.block? k = some b ∧ b.deps[0]? = some e ∧ b.completed e = true
    ∧ e.state = 3 ∧ b.freeEntry 0 = true :=
  ⟨stateWith fun b => { b with deps := [{ pc := 64, state := 3, td := 5, waits := 0, prog := 0, name := none }] }, placeKey, _, _, (moves _).here, rfl, rfl, rfl,
    by decide +kernel⟩

/-- A state in which a barrier of the block's set expects two arrivals. -/
def barState (f : Block → Block) : State := (stateWith f).setBarSet placeKey ((Vector.replicate 16 Barrier.zero).set 2 { Barrier.zero with e := 2, a := 0 })

theorem moves_bar (f : Block → Block) : Moves (barState f) placeKey (blockWith f) := ⟨rfl, State.block?_setBlock_same _ _ _⟩

/-- The clauses of ClusterBarriers: a count that agrees and one that does not, before the last arrival; the last arrival; a phase that is done and
one that is not; a completion that wakes a sleeper. -/
theorem test_witness_cluster_barriers : (∃ s k b, Settled s k barWaits s b ∧ Settled s k Ev.strong s b ∧ ((s.barSet k)[(2 : BReg).val]).e = (2 : Fin 512).val
      ∧ ((s.barSet k)[(2 : BReg).val]).a + 1 ≠ 2 ∧ (3 : Fin 512).val ≠ 2 ∧ ((s.barSet k)[(1 : BReg).val]).e = 0 ∧ ((s.barSet k)[(1 : BReg).val]).a + 1 = (1 : Fin 512).val
      ∧ b.doneBar.getLsbD (2 : BReg).val = true ∧ b.doneBar.getLsbD (1 : BReg).val = false)
    ∧ ∃ s k b, Settled s k barWaits s b ∧ s.block? k = some b ∧ b.sleep = some (.barw 3 2 (some 1)) ∧ b.acceptedPart = none := by
  refine ⟨⟨_, _, _, settled_of (moves_bar fun b => { b with doneBar := 4 }) _ rfl rfl, settled_of (moves_bar fun b => { b with doneBar := 4 }) _ rfl rfl, ?_⟩,
    ⟨_, _, _, settled (fun b => { b with sleep := some (.barw 3 2 (some 1)) }) _ rfl rfl, (moves _).here, rfl, by decide +kernel⟩⟩
  decide +kernel

/-- A waiting TSEND to core 1, and the TRECV that meets it. -/
def sendMsg : Msg := { id := 0, send := true, tile := 5, core := 1, tag := 3, pos := 0, pc := 56, snap := tile .i8 .s 1 2 [1, 2] }
def recvMsg : Msg := { sendMsg with send := false, tile := 6, core := 0, snap := tile .i8 .s 1 2 [0, 0] }

/-- The clauses of TileMessages: a tile and its partner; a TSEND and its TRECV, into the slot of the name and into an earlier one. -/
theorem test_witness_tile_messages : (∃ s k b p x, Settled s k (writesTile 5) s b ∧ b.useTile 5 = .ok x ∧ partnerCheck s k b (1 : CoreSel).val = .ok p
      ∧ b.deps.length < 32)
    ∧ ∀ phys, phys = 0 ∨ phys = 1 → ∃ (s : State) (k : BKey) (b p : Block) (z : Tile), s.block? k = some b ∧ b.msgs[0]? = some sendMsg ∧ sendMsg.send = true
      ∧ k ∉ s.stopped ∧ partnerKey k sendMsg.core.val ∉ s.stopped ∧ s.partner? k b sendMsg.core.val = some p ∧ partnerKey k sendMsg.core.val ≠ k ∧ matchingRecv k sendMsg p = some (0, recvMsg)
      ∧ sendMsg.snap.fmt.block = 0 ∧ ((p.dropMsg 0).version recvMsg.tile recvMsg.snap).Fits
      ∧ sendMsg.snap.fmt = ((p.dropMsg 0).version recvMsg.tile recvMsg.snap).fmt
      ∧ sendMsg.snap.wrows = ((p.dropMsg 0).version recvMsg.tile recvMsg.snap).wrows
      ∧ sendMsg.snap.wcols = ((p.dropMsg 0).version recvMsg.tile recvMsg.snap).wcols
      ∧ p.gt recvMsg.tile = some z ∧ (z.phys = recvMsg.snap.phys ↔ phys = 0) := by
  refine ⟨⟨_, _, _, blockWith id, tile .i8 .s 1 2 [0, 0], settled_of (moves_gang (laneTiles .i8) id) _ rfl rfl, rfl, by rfl, by decide⟩, ?_⟩
  rintro phys (rfl | rfl)
  · exact ⟨gangState (fun b => { laneTiles .i8 b with msgs := [sendMsg] }) (fun b => { laneTiles .i8 b with msgs := [recvMsg] }), placeKey, _,
      blockWith (fun b => { laneTiles .i8 b with msgs := [recvMsg] }), tile .i8 .s 1 2 [1, 2], (moves_gang _ _).here, rfl, rfl, by decide, by decide, by rfl, by decide, by rfl, rfl,
      fits _ _ 2 _ rfl, rfl, rfl, rfl, rfl, by decide⟩
  · exact ⟨gangState (fun b => { laneTiles .i8 b with msgs := [sendMsg] })
        (fun b => { tiles [(6, { tile .i8 .s 1 2 [1, 2] with phys := 1 })] b with msgs := [recvMsg], superseded := [(6, recvMsg.snap)] }), placeKey, _,
      blockWith (fun b => { tiles [(6, { tile .i8 .s 1 2 [1, 2] with phys := 1 })] b with msgs := [recvMsg], superseded := [(6, recvMsg.snap)] }),
      { tile .i8 .s 1 2 [1, 2] with phys := 1 }, (moves_gang _ _).here, rfl, rfl, by decide, by decide, by rfl, by decide, by rfl, rfl,
      fits _ _ 2 _ rfl, rfl, rfl, rfl, rfl, by decide⟩

/-- A WAITV of one entry of the table at the start of handle 2, which watches handle 3. -/
def waitWords : List (Nat × Nat) := [(0x30000, 3 * 2 ^ 44), (0x30008, 5)]
def waitState : State := dataState waitWords fun b => { dataRefs b with s := b.s.set 1 1 }
def waitBlock : Block := blockWith fun b => { dataRefs b with s := b.s.set 1 1 }
def waitEnv : Env := waitState.envOf placeKey waitBlock

/-- A WAITV that watches handle 3 for a value, in one entry or more. -/
def waitFor (n : Nat) (v wakeBy : W64) : Wait :=
  { d := 3, cmp := 0, all := false, wakeBy := wakeBy, table := List.replicate n (mkRef 3 0, v), acq := false, window := 0, due := 0, fix := none, final := false, holds := [] }

/-- The block that runs it. -/
def sleeping (w : Wait) : Block := blockWith fun b => { dataRefs b with sleep := some (.waitv w) }
def sleepState (w : Wait) : State := dataState [] fun b => { dataRefs b with sleep := some (.waitv w) }

/-- The clauses of FencesAndWaits: a fence; a sleeping WAITV that reads an entry before the last, and the last one with its condition met, not
met, and not met but late; a read that faults; a WAITV whose table and entries pass their checks, and one of an ill-formed operand. -/
theorem test_witness_fences_and_waits : (∃ s k b, Settled s k (fun _ => true) s b)
    ∧ (∀ w, w = waitFor 2 0 0 ∨ w = waitFor 1 0 0 ∨ w = waitFor 1 5 0 → ∃ s s2 k b v, s.block? k = some b ∧ b.sleep = some (.waitv w)
      ∧ ∃ q, w.table[w.holds.length]? = some q ∧ strongRead s (s.envOf k b) q.1 = .ok s2 v ∧ v = 0)
    ∧ ((waitFor 1 5 1).wakeBy.toNat ≤ 1 ∧ (waitFor 1 5 1).wakeBy ≠ 0)
    ∧ (∃ s s2 k b q f, s.block? k = some b ∧ b.sleep = some (.waitv { waitFor 1 0 0 with table := [q] })
      ∧ strongRead s (s.envOf k b) q.1 = .bad s2 f)
    ∧ (SettledFor waitState placeKey true (watchTable 2 1 0) waitState waitBlock
      ∧ SettledFor waitState placeKey true (watchWords 2 1 0) waitState waitBlock ∧ waitBlock.pa 2 = false ∧ waitBlock.ps 1 = false ∧ waitBlock.ps 0 = false
      ∧ (waitBlock.gs 1).toNat % 2 ^ 5 = 1 ∧ (waitBlock.gs 1).toNat / 2 ^ 5 = 0 ∧ okRes (checkHandle waitState waitEnv (mkRef 2 0) Need.load) (fun s2 h =>
        h.bound == 4096 && h.base % 8 == 0 && okRes (placeBytes s2 waitEnv h (mkRef 2 0) Need.load 2 16) fun s3 ps =>
        okRes ((readUnit s3 waitEnv (Need.load.scalar 8) (mkRef 2 0) ps).sampled waitEnv (s3.unitHops ps))
          fun s4 r => r.1.isNone && okRes (checkTable s4 waitEnv (parseTable 1 r.2) 0) fun s5 _ => (parseTable 1 r.2)[0]? == some (mkRef 3 0, 5)
            && okRes (strongRead (s5.setBlock placeKey (sleeping (waitFor 1 5 0))) waitEnv (mkRef 3 0)) fun _ _ => true) = true)
    ∧ ∃ s k b, SettledFor s k true (watchTable 2 1 0) s b ∧ SettledFor s k true (watchWords 2 1 0) s b ∧ b.pa 2 = false ∧ b.ps 1 = false
      ∧ (b.gs 1).toNat % 2 ^ 5 = 17 := by
  have read (w : Wait) (h : okRes (strongRead (sleepState w) ((sleepState w).envOf placeKey (sleeping w)) (mkRef 3 0)) (fun _ v => v == 0) = true)
      (q : W64 × W64) (hq : w.table[w.holds.length]? = some q) (e : q.1 = mkRef 3 0) : ∃ s s2 k b v, s.block? k = some b ∧ b.sleep = some (.waitv w)
      ∧ ∃ q, w.table[w.holds.length]? = some q ∧ strongRead s (s.envOf k b) q.1 = .ok s2 v ∧ v = 0 := by
    obtain ⟨s2, bs, r, z⟩ := ok_of h
    exact ⟨sleepState w, s2, placeKey, sleeping w, bs, (moves_data _ _).here, rfl, q, hq, by rw [e]; exact r, by simpa using z⟩
  refine ⟨⟨_, _, _, settled id _ rfl rfl⟩, ?_, by decide, ?_, ?_, ⟨_, _, _, settled_for (moves (scalars [(1, 17)])) _ _ rfl rfl, settled_for (moves (scalars [(1, 17)])) _ _ rfl rfl, by decide, by decide, by decide⟩⟩
  · rintro w (rfl | rfl | rfl)
    · exact read _ (by decide +kernel) _ rfl rfl
    · exact read _ (by decide +kernel) _ rfl rfl
    · exact read _ (by decide +kernel) _ rfl rfl
  · obtain ⟨s2, f, e⟩ := bad_of (r := strongRead (sleepState { waitFor 1 0 0 with table := [(0, 0)] }) ((sleepState { waitFor 1 0 0 with table := [(0, 0)] }).envOf placeKey
      (sleeping { waitFor 1 0 0 with table := [(0, 0)] })) 0) (by decide +kernel)
    exact ⟨sleepState { waitFor 1 0 0 with table := [(0, 0)] }, s2, placeKey, sleeping { waitFor 1 0 0 with table := [(0, 0)] }, (0, 0), f, (moves_data _ _).here, rfl, e⟩
  · exact ⟨settled_for (moves_data _ _) _ _ rfl rfl, settled_for (moves_data _ _) _ _ rfl rfl, by decide, by decide, by decide, by decide, by decide, by decide +kernel⟩

/-- System mode in a context whose block is in place. -/
def sysMode : SysMode := { code := mkRef 1 0, codeOff := 64, codeLen := 8, userPc := 128, loaded := true, saved := false, resume := none }

/-- A saved block, and a save area that it fits: its version, its length without tiles. -/
def savedBlock : Saved :=
  { id := 1, launch := 0, blklin := 0, savea := 0x40000, key := placeKey, at_ := 0, wrap := false, needs := (0, 0, 0), started := 0, attempt := 0, evq := [], held := [],
    superseded := [], unwritten := [], msgs := [], parts := [], storage := [], raws := [], names := [], arrived := 0, doneBar := 0, donePhase := Vector.replicate 16 0, whole := false, demoted := false }
def savedState (f : Block → Block) : State :=
  let s := dataState [] f
  { s with
    saved := [savedBlock]
    savea := [(placeKey, 0x40000)] }

theorem moves_saved (f : Block → Block) : Moves (savedState f) placeKey (blockWith f) := ⟨rfl, State.block?_setBlock_same _ _ _⟩

def resumeState : State :=
  { savedState fun b => { b with sys := some { sysMode with resume := some 1 } } with mem := [(0x40000, 1), (0x40009, 0x40), (0x4000A, 2)] }
def resumeBlock : Block := blockWith fun b => { b with sys := some { sysMode with resume := some 1 } }

def savedHead : List Byte := resumeState.mem.readN 0x40000 0x21C0

/-- A block in system mode whose save area lies in the host's memory. -/
def saveState : State := { stateWith fun b => { b with sys := some sysMode } with savea := [(placeKey, 0x80000000000000)] }

theorem save_populated (n : Nat) : saveState.populated (saveState.saveaOf placeKey).toNat n = true := by
  have h : (saveState.saveaOf placeKey).toNat = 2 ^ 55 := by decide
  simp [State.populated, State.spaceOf, h]

theorem no_saved_tile (n : Nat) (h : n < 64) : savedTile savedHead savedBlock n 0 = none := by
  have f : (List.range 64).all (fun n => !(resumeState.mem.readLE (0x40000 + (0x11C0 + 64 * n)) 8).testBit 63) = true := by decide +kernel
  have g : fieldAt savedHead (0x11C0 + 64 * n) 8 = resumeState.mem.readLE (0x40000 + (0x11C0 + 64 * n)) 8 := fieldAt_readN _ _ _ _ _ (by omega)
  have k := List.all_eq_true.mp f n (List.mem_range.mpr h)
  unfold savedTile
  simp only [Nat.mul_zero, Nat.add_zero, g]
  rw [if_pos k]

/-- The resumed block as the area gives it. -/
def loadedBlock (loans : List Nat) : Block :=
  { loadArea (resumeState.mem.readN 0x40000 0x24000) resumeState resumeBlock savedBlock with
    loans := loans
    sys := some { sysMode with
      resume := some 1
      userPc := BitVec.ofNat 32 (resumeState.mem.readLE (0x40000 + 0x10) 8) } }

/-- The clauses of SystemRoutines: a save with nothing pending, a block to resume whose area is good, and a return with and without a save. -/
theorem test_witness_system_routines : (∃ s k b, Moves s k b ∧ b.sys = some sysMode ∧ b.ended = none ∧ b.evq = [] ∧ s.maySave k b = true ∧ s.armedIn k b = []
      ∧ s.populated (s.saveaOf k).toNat (saveArea s k b sysMode.userPc).length = true
      ∧ sysMode.saved = false ∧ sysMode.loaded = true ∧ (sysMode.resume.isSome && (s.setBlock k (b.leaveSystem sysMode)).divertDue (b.leaveSystem sysMode)) = false)
    ∧ (∃ loans, Moves resumeState placeKey resumeBlock ∧ resumeBlock.sys = some { sysMode with resume := some 1 } ∧ resumeBlock.ended = none
      ∧ settle resumeState placeKey = resumeState ∧ resumeBlock.loadWaits = false ∧ resumeState.recordOf placeKey resumeBlock { sysMode with resume := some 1 } = savedBlock ∧ (resumeState.saveaOf placeKey).toNat = 0x40000
      ∧ resumeState.populated 0x40000 0x24000 = true ∧ (∀ pa, resumeState.eccAt pa = false) ∧ resumeState.mem.readN 0x40000 0x21C0 = savedHead
      ∧ fieldAt savedHead 8 8 = 0x24000 ∧ fieldAt savedHead 0 8 = 1 ∧ (fieldAt savedHead 0 8).testBit 16 = false
      ∧ endOfTiles ((List.range 64).map fun n => savedTile savedHead savedBlock n 0) 0x24000 = 0x24000
      ∧ borrow (headerNeeds savedHead) (resumeState.core placeKey.core).win resumeBlock.loans
          ((resumeState.lendable placeKey.core).filter fun c => c ≠ placeKey.slot) = some loans ∧ savedBlock.parts = []
      ∧ (loadedBlock loans).inWrap = false ∧ (let s0 := loadBarriers resumeState placeKey resumeBlock (resumeState.mem.readN 0x40000 0x3C0) savedBlock
        let s1 : State := { s0 with
          saved := s0.saved.filter fun y => y.id ≠ savedBlock.id
          freeCount := resumeState.freeCount + 64 + savedBlock.superseded.length }
        replaceEvents (s1.envOf placeKey (loadedBlock loans)) s1 (loadedBlock loans).evq = .ok s1 [])
      ∧ savedBlock.msgs = [])
    ∧ (∃ s k b, Moves s k b ∧ b.sys = some { sysMode with saved := true } ∧ b.ended = none ∧ b.evq = [] ∧ (s.core k.core).staged = none)
    ∧ ∃ s k b, Moves s k b ∧ b.sys = some { sysMode with resume := some 1 } ∧ b.ended = none
      ∧ (s.setBlock k (b.leaveSystem { sysMode with resume := some 1 })).divertDue (b.leaveSystem { sysMode with resume := some 1 }) = true := by
  refine ⟨⟨saveState, placeKey, _, ⟨rfl, (moves fun b => { b with sys := some sysMode }).here⟩, rfl, rfl, rfl, by decide +kernel, by decide +kernel, save_populated _, rfl, rfl, rfl⟩, ?_,
    ⟨_, _, _, moves fun b => { b with sys := some { sysMode with saved := true } }, rfl, rfl, rfl, by decide +kernel⟩,
    ⟨_, _, _, moves fun b => { b with sys := some { sysMode with resume := some 1 }, cancelled := true }, rfl, rfl, by decide +kernel⟩⟩
  have h : (borrow (headerNeeds savedHead) (resumeState.core placeKey.core).win resumeBlock.loans
    ((resumeState.lendable placeKey.core).filter fun c => c ≠ placeKey.slot)).isSome = true := by decide +kernel
  obtain ⟨loans, hl⟩ := Option.isSome_iff_exists.mp h
  exact ⟨loans, ⟨rfl, (moves_saved _).here⟩, rfl, rfl, by
      have h : resumeState.block? placeKey = some resumeBlock := (moves_saved _).here
      unfold settle
      rw [h]
      rfl, by decide, rfl, by decide +kernel, by decide +kernel, fun pa => by
      have e : resumeState.eccLines = [] := rfl
      have a (c : Nat) : (resumeState.core c).armed = [] := rfl
      simp [State.eccAt, State.armedAt, e, a],
    rfl, by decide +kernel, by decide +kernel, by decide +kernel, by
      have e : ((List.range 64).map fun n => savedTile savedHead savedBlock n 0) = (List.range 64).map fun _ => none :=
        List.map_congr_left fun n hn => no_saved_tile n (List.mem_range.mp hn)
      rw [e]; rfl, hl, rfl, by
      have e : fieldAt (resumeState.mem.readN 0x40000 0x24000) 0x1C8 8 = 0 := by
        rw [fieldAt_readN _ _ _ _ _ (by omega)]
        decide +kernel
      have f : (loadedBlock loans).status = (BitVec.ofNat 64 (fieldAt (resumeState.mem.readN 0x40000 0x24000) 0x1C8 8) &&& savedStatusMask) ||| 0x200 ||| 0 := rfl
      rw [Block.inWrap, f, e]
      decide, rfl, rfl⟩

/-- A request for the routine at the code handle. -/
def sysReq : SysReq := { code := mkRef 1 0, entry := 64, savea := 0x40000, resume := none }

/-- A WAITV whose inversion window has ended. -/
def lateWait : Wait := { waitFor 1 5 0 with window := 5, due := 5 }

/-- A waiter of higher priority beside a saved block of its job. -/
def rescueState : State :=
  let s := savedState fun b => { b with sleep := some (.waitv lateWait), launch := 1 }
  { s with
    dtime := 6
    launches := [placeLaunch, { placeLaunch with num := 1, man := { placeLaunch.man with prio := 3 } }] }

/-- A slice that has ended, of the block that moves. -/
def ended : Rescue := { waiter := { core := 9, slot := 0 }, target := placeKey, ends := 0 }

/-- The clauses of SystemModeRequests: a block that can be taken, a waiter that earns a slice, a slice that has ended. -/
theorem test_witness_system_mode_requests : (∃ s s1 k b off len r, s.block? k = some b ∧ sysReq.resume = none ∧ b.sys = none ∧ b.ended = none ∧ s.partDue k b = false
      ∧ s.leadDue k b = false ∧ (∀ d n p, b.sleep ≠ some (.barw d n (some p))) ∧ s.divertDue b = false ∧ routineCode s (s.ctxNumOf b) sysReq.code = .ok s1 (off, len)
      ∧ s.rescues.find? (fun r => decide (r.ends ≤ s.dtime) || (s.waiting? r.waiter).isNone) = some r ∧ r.target = k)
    ∧ ∃ s k tgt b x, s.block? k = some b ∧ (s.saved.find? fun y => y.id = 1) = some x ∧ s.sliceEarly k = false ∧ b.sleep = some (.waitv lateWait)
      ∧ lateWait.due < s.dtime ∧ s.rescuable k x = true 
      ∧ ∃ c m, (resumeSaved s tgt { sysReq with resume := some 1 } 1).block? tgt = some c ∧ c.sys = some m ∧ m.resume = some 1 := by
  have resumed : ∃ c m, (resumeSaved rescueState { core := 0, slot := 1 } { sysReq with resume := some 1 } 1).block? { core := 0, slot := 1 } = some c ∧ c.sys = some m
      ∧ m.resume = some 1 := by
    have h : (match (resumeSaved rescueState { core := 0, slot := 1 } { sysReq with resume := some 1 } 1).block? { core := 0, slot := 1 } with
      | some c => c.sys.any fun m => m.resume == some 1
      | none => false) = true := by decide +kernel
    split at h
    · rename_i c e
      cases g : c.sys with
      | none => rw [g] at h; cases h
      | some m => rw [g] at h; exact ⟨c, m, e, g, eq_of_beq h⟩
    · cases h
  refine ⟨?_, ⟨rescueState, placeKey, { core := 0, slot := 1 }, _, savedBlock, (moves_saved _).here, rfl, rfl, rfl, by decide, by decide +kernel, resumed⟩⟩
  obtain ⟨s1, ⟨off, len⟩, e, -⟩ := ok_of (r := routineCode { plain with rescues := [ended] } (plain.ctxNumOf dataBlock) sysReq.code) (p := fun _ _ => true) (by decide +kernel)
  exact ⟨{ plain with rescues := [ended] }, s1, placeKey, dataBlock, off, len, ended, (moves_data [] dataRefs).here, rfl, rfl, rfl, by decide +kernel, by decide +kernel,
    fun _ _ _ h => (nomatch h), by decide +kernel, e,
    rfl, rfl⟩

/-- A code object of one kernel of one word, at the start of handle 2. -/
def goodObject : List (Nat × Nat) := [(0x30000, 0x000000014B5A434F), (0x30008, 88), (0x30010, 0x0000000800000040), (0x30028, 0x0000000100000048),
  (0x30040, 0x00C0000000000000), (0x30048, 0x0000000100000040), (0x30050, 1)]

def objectState : State := dataState goodObject dataRefs
def objectEnv : Env := objectState.envOf placeKey dataBlock

def objectPlace (s : State) (e : Env) (off n : Nat) : Res (HEntry × W64 × List Nat) :=
  locate s e (refH (dataBlock.ga 2)) ((refOff (dataBlock.ga 2) : Int) + off) n false Need.readWrite

/-- The clauses of Publishing: an object that passes and one that does not. -/
theorem test_witness_publishing : (Settled objectState placeKey (fun _ => true) objectState dataBlock ∧ dataBlock.pa 2 = false
      ∧ okRes (readObject objectState objectEnv (dataBlock.ga 2)) (fun s2 bs => checkObject bs == none && okRes (objectPlace s2 objectEnv 48 8) fun s3 l =>
        okRes (chaseAll s3 objectEnv Need.readWrite l.2.1 l.2.1 l.2.2) fun s4 c => okRes (objectPlace (s4.writeHomes c.2 (leBytes 8 (fieldAt bs 8 8))) objectEnv 6 2)
          fun s5 m => okRes (chaseAll s5 objectEnv Need.readWrite m.2.1 m.2.1 m.2.2) fun _ d => d.2 == [0x30006, 0x30007]) = true)
    ∧ Settled plain placeKey (fun _ => true) plain dataBlock
      ∧ okRes (readObject plain plainEnv (dataBlock.ga 2)) (fun s2 bs => (checkObject bs).isSome && okRes (objectPlace s2 plainEnv 6 2) fun s5 m =>
        okRes (chaseAll s5 plainEnv Need.readWrite m.2.1 m.2.1 m.2.2) fun _ _ => true) = true :=
  ⟨⟨settled_of (moves_data _ _) _ rfl rfl, by decide, by decide +kernel⟩, settled_of (moves_data _ _) _ rfl rfl, by decide +kernel⟩

/-- A lane function of the running kernel at handle 0 of its object: LFMA and LRET. -/
def laneTable : List (Nat × Nat) := [(24, 0x0000000800000200), (32, 0x0000000100000300), (0x200, 0x680000001100C200), (0x300, 0x0000000200000000)]

/-- Tiles for a call: one element each, and two rows of two. -/
def callTiles : Block → Block :=
  tiles [(5, tile .fp32 .s 1 1 [0]), (8, tile .fp32 .s 1 1 [0]), (6, tile .fp32 .s 1 1 [0x3F800000]), (7, tile .fp32 .s 1 2 [0, 0]), (9, tile .fp32 .s 1 2 [0, 0])]

def sourceIs (s : State) (b : Block) (t : TReg) (x : Tile) : Bool :=
  match s.source placeKey b t with
  | .ok y => y == x
  | .error _ => false

theorem source_of {s : State} {b : Block} {t : TReg} {x : Tile} (h : sourceIs s b t x = true) : s.source placeKey b t = .ok x := by
  unfold sourceIs at h
  cases e : s.source placeKey b t with
  | ok y => rw [e] at h; exact congrArg Except.ok (eq_of_beq h)
  | error f => rw [e] at h; cases h

/-- The clauses of LaneFunctionCalls: MAP and MAP2 of one input, REDUCE and REDUCE2 of one and of two. -/
theorem test_witness_lane_function_calls : ∃ s k b d d2, Moves s k b ∧ Dest b 5 d ∧ d.fmt.lane = true ∧ Dest b 8 d2 ∧ d2.fmt.lane = true ∧ (5 : TReg) ≠ 8
    ∧ d2.wrows = d.wrows ∧ d2.wcols = d.wcols ∧ (∃ s1 ws x, laneFn s k b (.map 5 0 (.i1 6) none) 0 = .ok s1 ws ∧ Operand s1 k b d 6 x ∧ x.fmt.lane = true)
    ∧ (∃ s1 ws x, laneFn s k b (.map2 5 8 0 (.i1 6) none) 0 = .ok s1 ws ∧ Operand s1 k b d 6 x ∧ x.fmt.lane = true)
    ∧ (∃ s1 ws x, laneFn s k b (.reduce 5 0 (.i1 7) none) 0 = .ok s1 ws ∧ s1.source k b 7 = .ok x ∧ x.home = .s ∧ x.fmt.lane = true ∧ x.wrows = d.wrows ∧ d.wcols = 1)
    ∧ ∃ s1 ws x y, laneFn s k b (.reduce2 5 8 0 (.i2 7 9) none) 0 = .ok s1 ws ∧ s1.source k b 7 = .ok x ∧ s1.source k b 9 = .ok y ∧ y.home = .s ∧ y.fmt.lane = true
      ∧ y.wrows = x.wrows ∧ y.wcols = x.wcols ∧ x.home = .s ∧ x.fmt.lane = true ∧ x.wrows = d.wrows ∧ d.wcols = 1 := by
  refine ⟨codeState laneTable callTiles, placeKey, blockWith callTiles, tile .fp32 .s 1 1 [0], tile .fp32 .s 1 1 [0], moves_code _ _, ⟨rfl, fits _ _ 1 _ rfl, rfl⟩, rfl,
    ⟨rfl, fits _ _ 1 _ rfl, rfl⟩, rfl, by decide, rfl, rfl, ?_, ?_, ?_, ?_⟩
  · obtain ⟨s1, ws, e, g⟩ := ok_of (r := laneFn (codeState laneTable callTiles) placeKey (blockWith callTiles) (.map 5 0 (.i1 6) none) 0)
      (p := fun t _ => sourceIs t (blockWith callTiles) 6 (tile .fp32 .s 1 1 [0x3F800000])) (by decide +kernel)
    exact ⟨s1, ws, _, e, ⟨source_of g, rfl, rfl, rfl⟩, rfl⟩
  · obtain ⟨s1, ws, e, g⟩ := ok_of (r := laneFn (codeState laneTable callTiles) placeKey (blockWith callTiles) (.map2 5 8 0 (.i1 6) none) 0)
      (p := fun t _ => sourceIs t (blockWith callTiles) 6 (tile .fp32 .s 1 1 [0x3F800000])) (by decide +kernel)
    exact ⟨s1, ws, _, e, ⟨source_of g, rfl, rfl, rfl⟩, rfl⟩
  · obtain ⟨s1, ws, e, g⟩ := ok_of (r := laneFn (codeState laneTable callTiles) placeKey (blockWith callTiles) (.reduce 5 0 (.i1 7) none) 0)
      (p := fun t _ => sourceIs t (blockWith callTiles) 7 (tile .fp32 .s 1 2 [0, 0])) (by decide +kernel)
    exact ⟨s1, ws, _, e, source_of g, rfl, rfl, rfl, rfl⟩
  · obtain ⟨s1, ws, e, g⟩ := ok_of (r := laneFn (codeState laneTable callTiles) placeKey (blockWith callTiles) (.reduce2 5 8 0 (.i2 7 9) none) 0)
      (p := fun t _ => sourceIs t (blockWith callTiles) 7 (tile .fp32 .s 1 2 [0, 0]) && sourceIs t (blockWith callTiles) 9 (tile .fp32 .s 1 2 [0, 0])) (by decide +kernel)
    simp only [Bool.and_eq_true] at g
    exact ⟨s1, ws, _, _, e, source_of g.1, source_of g.2, rfl, rfl, rfl, rfl, rfl, rfl, rfl, rfl⟩

/-- R228, R231: MAP of LFMA with a poisoned constant poisons its element; without it, q0 × k0 plus the latch is 0. -/
theorem test_map : seen (exec (.map 5 0 (.i1 6) none) (codeState laneTable callTiles)) (fun b => elems b 5 == some [0] && b.pc == 72) = true := by decide +kernel

/-- A link command of two bytes from handle 3 to handle 2, the first of which has been copied, with its flag at handle 4. -/
def linkCmd : LinkCmd :=
  { id := 9, ctx := 0, core := 0, dst := mkRef 2 0, src := mkRef 3 0, flag := some (mkRef 4 0), n := 2, who := { launch := 0, blklin := 0 }, acq := none, rel := none,
    node := none, copied := false, failed := false, held := false, cause := 0, next := 1, buffer := [] }

/-- What is left to copy of it, however many bytes the engine takes. -/
theorem link_piece (n : Nat) : linkCmd.piece n = [1] := by simp [LinkCmd.piece, linkCmd, Nat.mod_one]

/-- A state whose die 0 has link commands. -/
def linkState (q : List LinkCmd) : State := plain.setDie 0 { plain.die 0 with link := q }

theorem moves_link (q : List LinkCmd) : Moves (linkState q) placeKey dataBlock := ⟨rfl, (moves_data [] dataRefs).here⟩

/-- One command in a queue has its number alone. -/
theorem one_id (c : LinkCmd) : ∀ (i j : Nat) (x y : LinkCmd), [c][i]? = some x → [c][j]? = some y → x.id = y.id → i = j := by
  intro i j x y hi hj _
  have := List.getElem?_eq_some_iff.mp hi
  have := List.getElem?_eq_some_iff.mp hj
  grind

/-- That command with the byte it has read, none where the read met a fault. -/
def readCmd (x : Option Byte) : LinkCmd := { linkCmd with buffer := [x] }
def linkEnv : Env := { ctx := 0, core := 0, who := none }

/-- The clauses of LinkCopies: a queue with room and a full one, the two halves of a copy, a flag. -/
theorem test_witness_link_copies : (∀ n, n = 255 ∨ n = 256 → ∃ s s1 k b, Settled s k Ev.acquires s b ∧ (∀ r ∈ [2, 3, 4], b.pa r = false) ∧ b.ps 0 = false
      ∧ xcpyCheck s (s.envOf k b) b 2 3 4 (b.gs 0).toNat = .ok s1 () ∧ ((s1.die (s1.dieOf k.core)).link).length = n)
    ∧ (∃ s s1 r, (s.die 0).link[0]? = some linkCmd ∧ (∀ (i j : Nat) (x y : LinkCmd), (s.die 0).link[i]? = some x → (s.die 0).link[j]? = some y → x.id = y.id → i = j)
      ∧ linkCmd.copied = false ∧ s.waitsPoint linkCmd.acq = false ∧ s.waitsRelease linkCmd.rel = false ∧ linkCmd.buffer = []
      ∧ s.linkWaits ((s.die 0).link.take 0) (linkCmd.dataHomes s (linkCmd.piece s.freeCount).length) = false
      ∧ engineRead linkEnv linkCmd.src s (linkCmd.piece s.freeCount) = .ok s1 r)
    ∧ (∀ x, x = some 7 ∨ x = none → ∃ s s1 s2 f, (s.die 0).link[0]? = some (readCmd x) ∧ (readCmd x).buffer ≠ []
      ∧ engineReady linkEnv (readCmd x).dst s ((List.range (readCmd x).buffer.length).map ((readCmd x).next + ·)) = .ok s1 ()
      ∧ engineWrite linkEnv (readCmd x).dst s1 (readCmd x).next (readCmd x).buffer = .ok s2 f)
    ∧ ∃ s s1 s2 l im ps, (s.die 0).link[0]? = some { linkCmd with copied := true } ∧ s.waitsPoint linkCmd.rel = false
      ∧ s.linkWaits ((s.die 0).link.take 0) (({ linkCmd with copied := true } : LinkCmd).flagHomes s) = false
      ∧ locate s linkEnv (refH (mkRef 4 0)) (refOff (mkRef 4 0)) 8 true (Need.store.scalar 8) = .ok s1 l
      ∧ chaseAll s1 linkEnv (Need.store.scalar 8) l.2.1 l.2.1 l.2.2 = .ok s2 (im, ps) ∧ ps.any s2.eccAt = false ∧ ps.Nodup ∧ ps.length = 8 := by
  have room (n : Nat) (h : okRes (xcpyCheck (linkState (List.replicate n linkCmd)) ((linkState (List.replicate n linkCmd)).envOf placeKey dataBlock) dataBlock 2 3 4
      (dataBlock.gs 0).toNat) (fun t _ => ((t.die (t.dieOf placeKey.core)).link).length == n) = true) : ∃ s s1 k b, Settled s k Ev.acquires s b
      ∧ (∀ r ∈ [2, 3, 4], b.pa r = false) ∧ b.ps 0 = false ∧ xcpyCheck s (s.envOf k b) b 2 3 4 (b.gs 0).toNat = .ok s1 () ∧ ((s1.die (s1.dieOf k.core)).link).length = n := by
    obtain ⟨s1, u, e, g⟩ := ok_of h
    exact ⟨linkState (List.replicate n linkCmd), s1, placeKey, dataBlock, settled_of (moves_link _) _ rfl rfl, by decide, by decide, e, eq_of_beq g⟩
  have writes (x : Option Byte) (h : okRes (engineReady linkEnv (readCmd x).dst (linkState [readCmd x]) [1]) (fun t _ =>
      okRes (engineWrite linkEnv (readCmd x).dst t 1 [x]) fun _ _ => true) = true) : ∃ s s1 s2 f, (s.die 0).link[0]? = some (readCmd x) ∧ (readCmd x).buffer ≠ []
      ∧ engineReady linkEnv (readCmd x).dst s ((List.range (readCmd x).buffer.length).map ((readCmd x).next + ·)) = .ok s1 ()
      ∧ engineWrite linkEnv (readCmd x).dst s1 (readCmd x).next (readCmd x).buffer = .ok s2 f := by
    obtain ⟨s1, u, e, g⟩ := ok_of h
    obtain ⟨s2, f, e2, -⟩ := ok_of g
    exact ⟨linkState [readCmd x], s1, s2, f, rfl, List.cons_ne_nil _ _, e, e2⟩
  refine ⟨?_, ?_, ?_, ?_⟩
  · rintro n (rfl | rfl)
    · exact room _ (by decide +kernel)
    · exact room _ (by decide +kernel)
  · obtain ⟨s1, r, e, -⟩ := ok_of (r := engineRead linkEnv linkCmd.src (linkState [linkCmd]) [1]) (p := fun _ _ => true) (by decide +kernel)
    exact ⟨linkState [linkCmd], s1, r, rfl, one_id _, rfl, rfl, rfl, rfl, rfl, by rw [link_piece]; exact e⟩
  · rintro x (rfl | rfl)
    · exact writes _ (by decide +kernel)
    · exact writes _ (by decide +kernel)
  · obtain ⟨s1, l, e, g⟩ := ok_of (r := locate (linkState [{ linkCmd with copied := true }]) linkEnv (refH (mkRef 4 0)) (refOff (mkRef 4 0)) 8 true
      (Need.store.scalar 8)) (p := fun t l => okRes (chaseAll t linkEnv (Need.store.scalar 8) l.2.1 l.2.1 l.2.2) fun u a =>
        !a.2.any u.eccAt && a.2 == (List.range 8).map (0x32000 + ·)) (by decide +kernel)
    obtain ⟨s2, ⟨im, ps⟩, e2, g2⟩ := ok_of g
    simp only [Bool.and_eq_true, Bool.not_eq_true', beq_iff_eq] at g2
    obtain ⟨h1, h2⟩ := g2
    subst h2
    exact ⟨linkState [{ linkCmd with copied := true }], s1, s2, l, im, _, rfl, rfl, rfl, e, e2, h1, by decide, rfl⟩

/-- A context with one bindery queue of 16 commands: its descriptor at 0x38000, its ring at 0x39000, its head at 0. -/
def ringWords (tail : Nat) (cmd : List Nat) : List (Nat × Nat) :=
  [(0x38000, 2 ^ 63 + 0x39000), (0x38008, 0x400), (0x38010, tail)] ++ cmd.zipIdx.map fun p => (0x39000 + 8 * p.2, p.1)

def ringState (words : List (Nat × Nat)) : State :=
  let s := dataState words dataRefs
  s.setCtx 0 { s.ctx 0 with
    bqb := 0x38000
    bqn := 1 }

theorem moves_ring (words : List (Nat × Nat)) : Moves (ringState words) placeKey dataBlock := ⟨rfl, (moves_data words dataRefs).here⟩

/-- The clauses of EnqueuedCommands: a number that names no queue, a bad descriptor, a full ring, and a ring with one free slot. -/
theorem test_witness_enqueued_commands : (∀ words, SettledFor (ringState words) placeKey true (enqBytes (0 : BitVec 12).toNat) (ringState words) dataBlock
      ∧ SettledFor (ringState words) placeKey true (enqBytes (1 : BitVec 12).toNat) (ringState words) dataBlock) ∧ (∀ r ∈ enqRegs, dataBlock.ps r = false)
    ∧ min (fld 0 13 ((ringState []).ctx ((ringState []).envOf placeKey dataBlock).ctx).bqn.toNat) 4096 ≤ (1 : BitVec 12).toNat
    ∧ (∃ s1 c, queueAt (ringState []) ((ringState []).envOf placeKey dataBlock) (0 : BitVec 12).toNat Need.readWrite = .ok s1 c ∧ c.valid = false)
    ∧ (let s := ringState (ringWords 16 [])
      ∃ s1 c, queueAt s (s.envOf placeKey dataBlock) (0 : BitVec 12).toNat Need.readWrite = .ok s1 c ∧ c.valid = true ∧ 2 ^ c.log2n ≤ c.count)
    ∧ (let s := ringState (ringWords 15 [])
      ∃ s1 s2 c ps, queueAt s (s.envOf placeKey dataBlock) (0 : BitVec 12).toNat Need.readWrite = .ok s1 c ∧ c.valid = true ∧ c.count < 2 ^ c.log2n
        ∧ ringBytes s1 (s.envOf placeKey dataBlock) Need.store (c.slot c.tail) 64 = .ok s2 ps ∧ ps.any s2.eccAt = false ∧ ps.length = 64 ∧ ps.Nodup
        ∧ ∀ p ∈ ps, p ∉ (List.range 4).map (c.at_ + 16 + ·)) := by
  refine ⟨fun w => ⟨settled_for (moves_ring w) _ _ rfl rfl, settled_for (moves_ring w) _ _ rfl rfl⟩, by decide, by decide +kernel, ?_, ?_, ?_⟩
  · obtain ⟨s1, c, e, g⟩ := ok_of (r := queueAt (ringState []) ((ringState []).envOf placeKey dataBlock) (0 : BitVec 12).toNat Need.readWrite)
      (p := fun _ c => !c.valid) (by decide +kernel)
    exact ⟨s1, c, e, by simpa using g⟩
  · obtain ⟨s1, c, e, g⟩ := ok_of (r := queueAt (ringState (ringWords 16 [])) ((ringState (ringWords 16 [])).envOf placeKey dataBlock) (0 : BitVec 12).toNat Need.readWrite)
      (p := fun _ c => c.valid && decide (2 ^ c.log2n ≤ c.count)) (by decide +kernel)
    simp only [Bool.and_eq_true, decide_eq_true_eq] at g
    exact ⟨s1, c, e, g.1, g.2⟩
  · obtain ⟨s1, c, e, g⟩ := ok_of (r := queueAt (ringState (ringWords 15 [])) ((ringState (ringWords 15 [])).envOf placeKey dataBlock) (0 : BitVec 12).toNat Need.readWrite)
      (p := fun t c => c.valid && decide (c.count < 2 ^ c.log2n) && okRes (ringBytes t ((ringState (ringWords 15 [])).envOf placeKey dataBlock) Need.store (c.slot c.tail) 64) fun u ps =>
        !ps.any u.eccAt && ps == (List.range 64).map (0x393C0 + ·) && ps.all fun p => !((List.range 4).map (c.at_ + 16 + ·)).contains p) (by decide +kernel)
    simp only [Bool.and_eq_true, decide_eq_true_eq] at g
    obtain ⟨s2, ps, e2, g2⟩ := ok_of g.2
    simp only [Bool.and_eq_true, Bool.not_eq_true', beq_iff_eq, List.all_eq_true] at g2
    obtain ⟨⟨h1, h2⟩, h3⟩ := g2
    exact ⟨s1, s2, c, ps, e, g.1.1, g.1.2, e2, h1, by subst h2; rfl, by subst h2; decide, fun p hp => by simpa using h3 p hp⟩

/-- A command placed on queue 0 and not yet taken. -/
def stub : BindCmd :=
  { id := 3, ctx := 0, q := 0, pos := 0, core := 0, taken := false, words := [], status := 0, cause := 0, addr := 0, cnt1 := 0, cnt2 := 0, parts := 0, at_ := 0, head := [],
    got := [], recd := false, codes := [], learns := none, acq := none, rel := none }

/-- The state that holds the words of that command, changed by g; handle 4 is compressed memory. -/
def takesState (g : State → State) (words : List Nat) : State :=
  let s := ringState (ringWords 1 words)
  let t := s.setCtx 0 { s.ctx 0 with hcache := (0, 4, parseHandle (2 ^ 63 + 0x32000) (2 ^ 45 + 2 ^ 44 + 4096) (2 ^ 34) 0) :: (s.ctx 0).hcache }
  g (t.setDie 0 { t.die 0 with bind := [stub] })

def takesEnv : Env := { ctx := 0, core := 0, who := none }

/-- The command can be taken, and its state, descriptor and command meet a description. -/
def takesOk (g : State → State) (words : List Nat) (p : State → QDesc → BindCmd → Bool) : Bool :=
  let s := takesState g words
  decide (queueCore s 0 0 = 0) && okRes (queueAt s takesEnv 0 Need.readWrite) fun s0 d => d.valid && d.head == 0 && d.tail == 1
    && (((s.die0.bind ++ s.die1.bind).find? fun c => c.ctx = 0 && c.q = 0 && !c.taken && c.pos = 0) == some stub)
    && (s.atWork 0 0 fun _ => true).isEmpty && okRes (ringBytes s0 takesEnv Need.load (d.slot d.head) 64) fun s1 ps => let c := { stub with
          taken := true
          words := (List.range 8).map fun i => BitVec.ofNat 64 (leNat (((s1.readHomes ps).drop (8 * i)).take 8)) }
      !ps.any s1.eccAt && !s1.waitsPoint c.acq && !s1.waitsRelease c.rel && ((s1.die d.die).bind == [stub]) && fld 9 7 (c.w 0) == 0 && p s1 d c

theorem takes_of {g : State → State} {words : List Nat} {p : State → QDesc → BindCmd → Bool} (h : takesOk g words p = true) :
    ∃ s1 d c, Takes (takesState g words) s1 0 0 d c ∧ p s1 d c = true := by
  simp only [takesOk, Bool.and_eq_true, decide_eq_true_eq] at h
  obtain ⟨hq, h⟩ := h
  obtain ⟨s0, d, e0, h⟩ := ok_of h
  simp only [Bool.and_eq_true, beq_iff_eq] at h
  obtain ⟨⟨⟨⟨⟨hv, hh⟩, ht⟩, hs⟩, ha⟩, h⟩ := h
  obtain ⟨s1, ps, e1, h⟩ := ok_of h
  simp only [Bool.and_eq_true, beq_iff_eq, Bool.not_eq_true'] at h
  obtain ⟨⟨⟨⟨⟨he, hw⟩, hr⟩, hb⟩, hz⟩, hp⟩ := h
  refine ⟨s1, d, _, ?_, hp⟩
  exact {
    desc := ⟨s0, ps, by rw [hq]; exact e0, e1, he, rfl⟩
    valid := hv
    pending := by omega
    stub := ⟨stub, by rw [hh]; exact hs, rfl⟩
    point := ⟨hw, hr⟩
    idle := List.isEmpty_iff.mp ha
    alone := by rw [State.takenOf, hb]; rfl
    engine := by rw [Die.enginesBusy, hb]; decide
    zero := hz }

/-- The class that RESAMPLE names, changed. -/
def classIs (f : CodeClass → CodeClass) (s : State) : State := s.setClass 0 0 (f (s.codeClass 0 0))

def rangeOk (words : List Nat) (p : State → HEntry → W64 → Nat → Bool) : Bool :=
  takesOk id words fun s1 _ c => okRes (checkHandle s1 takesEnv (BitVec.ofNat 64 (c.w 2)) Need.readWrite) fun s2 h => p s2 h (BitVec.ofNat 64 (c.w 2)) (c.w 3)

/-- The header of an owner table of one block of 1 × 4 words, and its one entry. -/
def ownerHead : List Nat := [0x0001000100040001, Efmt.i32.code, 16, 0, 3 * 4096]

/-- The clauses of BinderyCommands about a command that is taken: an undefined OP; TRANSFORM refused and begun; REDIST refused, with a
handle that is none, and begun; the range commands refused, on memory that is not compressed, beyond the bound by one block, and up to the
bound, RECODE of the active slot and of another; RESAMPLE refused, BUSY, ACTIVE, LIVE, EARLY and begun; QUANT refused and begun. -/
theorem test_witness_bindery_commands : takesOk id [8] (fun _ _ c => c.op == 8) = true
    ∧ takesOk id [1] (fun _ _ c => c.op == 1 && transformBad c (Efmt.ofCode (fld 32 5 (c.w 4)))) = true
    ∧ takesOk id [1, 0, 3 * 2 ^ 44, 2 * 2 ^ 44, Efmt.i8.code * 2 ^ 32 + 0x10002, 2, 2] (fun _ _ c => c.op == 1
      && !transformBad c (Efmt.ofCode (fld 32 5 (c.w 4)))) = true
    ∧ takesOk id [2] (fun _ _ c => c.op == 2 && fld 0 32 (c.w 5) == 0) = true
    ∧ takesOk id [2, 0, 0, 2 * 2 ^ 44, 0, 2 ^ 32 + 1] (fun s1 _ c => c.op == 2 && badRes (readRef s1 takesEnv (BitVec.ofNat 64 (c.w 2)) 0 32 false Need.load)) = true
    ∧ takesOk id [2, 0, 2 * 2 ^ 44, 0, 0, 2 ^ 32 + 1] (fun s1 _ c => okRes (readRef s1 takesEnv (BitVec.ofNat 64 (c.w 2)) 0 32 false Need.load) fun s2 bs =>
      bs.length == 32 && badRes (readRef s2 takesEnv (BitVec.ofNat 64 (c.w 3)) 0 32 false Need.load)) = true
    ∧ takesOk id [2, 0, 2 * 2 ^ 44, 2 * 2 ^ 44, 0, 2 ^ 32 + 1] (fun s1 _ c => okRes (readRef s1 takesEnv (BitVec.ofNat 64 (c.w 2)) 0 32 false Need.load) fun s2 bs =>
      okRes (readRef s2 takesEnv (BitVec.ofNat 64 (c.w 3)) 0 32 false Need.load) fun _ _ => (parseOwner bs).unfit) = true
    ∧ takesOk (fun s => { s with mem := ownerHead.zipIdx.foldl (fun m p => m.writeLE (0x30000 + 8 * p.2) 8 p.1) s.mem }) [2, 0, 2 * 2 ^ 44, 2 * 2 ^ 44, 3 * 2 ^ 32, 2 ^ 32 + 1] (fun s1 _ c =>
      okRes (readRef s1 takesEnv (BitVec.ofNat 64 (c.w 2)) 0 32 false Need.load) fun s2 bs =>
        okRes (readRef s2 takesEnv (BitVec.ofNat 64 (c.w 3)) 0 32 false Need.load) fun _ bs' => !(parseOwner bs).unfit && (parseOwner bs').efmt == (parseOwner bs).efmt
          && fld 0 32 (c.w 4) + fld 0 32 (c.w 5) == (parseOwner bs).nbr * (parseOwner bs).br && fld 32 32 (c.w 4) + fld 32 32 (c.w 5) == (parseOwner bs).nbc * (parseOwner bs).bc) = true
    ∧ takesOk id [3, 0, 4 * 2 ^ 44, 511] (fun _ _ c => c.op == 3 && c.w 3 % 512 != 0) = true
    ∧ rangeOk [4, 0, 3 * 2 ^ 44, 512] (fun _ h _ _ => !h.ce) = true
    ∧ takesOk id [4, 0, 0, 512] (fun s1 _ c => badRes (checkHandle s1 takesEnv (BitVec.ofNat 64 (c.w 2)) Need.readWrite)) = true
    ∧ rangeOk [3, 0, 4 * 2 ^ 44, 4608] (fun _ h im n => h.ce && (h.base + refOff im) % 512 == 0 && decide (h.bound < refOff im + n)) = true
    ∧ rangeOk [5, 0, 4 * 2 ^ 44, 4096] (fun s2 h im n => h.ce && (h.base + refOff im) % 512 == 0 && decide (refOff im + n ≤ h.bound)
      && (s2.codeClass 0 h.ccls).active == 0) = true
    ∧ rangeOk [5 + 3 * 2 ^ 16, 0, 4 * 2 ^ 44, 4096] (fun s2 h im n => h.ce && (h.base + refOff im) % 512 == 0 && decide (refOff im + n ≤ h.bound)
      && (s2.codeClass 0 h.ccls).active != 3) = true
    ∧ takesOk id [6] (fun _ _ c => c.op == 6 && c.w 4 == 0) = true
    ∧ takesOk (classIs fun x => { x with learning := true }) [6, 0, 4 * 2 ^ 44, 512, 1] (fun s1 d c => c.w 4 == 1 && (s1.codeClass d.die 0).learning) = true
    ∧ takesOk id [6, 0, 4 * 2 ^ 44, 512, 65535] (fun s1 d c => c.w 4 == 65535 && (s1.codeClass d.die 0).active == fld 4 2 c.arg && !(s1.codeClass d.die 0).learning) = true
    ∧ takesOk (fun s => { s with coded := [(0x200, { cls := 0, gen := 3, lines := 1 })] }) [6 + 0x30 * 2 ^ 16, 0, 4 * 2 ^ 44, 512, 1] (fun s1 d c =>
      (s1.codeClass d.die 0).active != fld 4 2 c.arg && s1.liveCount d.die 0 (fld 4 2 c.arg) == 1) = true
    ∧ takesOk (classIs fun x => { x with frozenAt := some 0 }) [6 + 0x30 * 2 ^ 16, 0, 4 * 2 ^ 44, 512, 1] (fun s1 d c => s1.liveCount d.die 0 (fld 4 2 c.arg) == 0
      && (s1.codeClass d.die 0).frozenAt == some 0 && decide (s1.dtime < 0 + s1.mgc.params.getD 2 0)) = true
    ∧ takesOk id [6 + 0x30 * 2 ^ 16, 0, 0, 512, 1] (fun s1 d c => (s1.codeClass d.die 0).frozenAt == none
      && badRes (checkHandle s1 takesEnv (BitVec.ofNat 64 (c.w 2)) Need.load)) = true
    ∧ takesOk id [6 + 0x30 * 2 ^ 16, 0, 4 * 2 ^ 44, 4096, 1] (fun s1 d c => (s1.codeClass d.die 0).frozenAt == none
      && okRes (checkHandle s1 takesEnv (BitVec.ofNat 64 (c.w 2)) Need.load) fun _ h => h.bound == c.w 3) = true
    ∧ takesOk id [6 + 0x30 * 2 ^ 16, 0, 4 * 2 ^ 44, 4608, 1] (fun s1 d c => (s1.codeClass d.die 0).frozenAt == none
      && okRes (checkHandle s1 takesEnv (BitVec.ofNat 64 (c.w 2)) Need.load) fun _ h => decide (h.bound < c.w 3)) = true
    ∧ takesOk id [7] (fun _ _ c => c.op == 7 && (quantOp c).isNone) = true
    ∧ takesOk id [7, 0, 3 * 2 ^ 44, 2 * 2 ^ 44, Efmt.fp16.code * 2 ^ 32 + Efmt.ks6.code * 2 ^ 40 + 0x10010, 32, 12] (fun _ _ c => (quantOp c).any fun o => o.sf != .ks4) = true
    ∧ takesOk id [7, 0, 3 * 2 ^ 44, 2 * 2 ^ 44, Efmt.ks4.code * 2 ^ 32 + Efmt.fp16.code * 2 ^ 40 + 0x10010, 8, 32, 0x3F800000] (fun s1 _ c => (quantOp c).any fun o => o.sf == .ks4
      && okRes (readRef s1 takesEnv o.src (quantTAt o.rows o.cols o.ss .ks4) 4 false Need.load) fun _ _ => true) = true := by
  decide +kernel

/-- A command in flight on a compressed block of handle 4, with its events still to come. -/
def coding (op : Nat) (codes : List W64) : BindCmd := { stub with taken := true, words := [BitVec.ofNat 64 op], codes := codes }

def codingState (g : State → State) (c : BindCmd) : State :=
  let s := takesState id []
  g (s.setDie 0 { s.die 0 with bind := [c] })

/-- A command of the queue that is at work, and its next part can be done. -/
def partOk (c : BindCmd) (p : PartStep → Bool) : Bool :=
  let s := codingState (fun s => { s with mem := (s.mem.writeLE 0x38018 4 1).writeLE 0x30020 8 (3 * 4096) }) c
  c.taken && c.ctx == 0 && c.q == 0 && decide (c.at_ < c.parts) && decide (queueCore s 0 0 = 0)
    && okRes (queueAt s takesEnv 0 Need.readWrite) (fun _ d => d.head == d.tail)
    && !s.bumpFree.engineWaits 0 c (partHomes s.bumpFree c.env c c.at_) && okRes (enginePart s.bumpFree c.env c c.at_) fun _ x => p x

/-- A command at work, with some of its parts done. -/
def working (words : List Nat) (parts at_ : Nat) (head : List Byte) (got : List (List Byte)) : BindCmd :=
  { stub with
    got := got
    taken := true
    words := words.map (BitVec.ofNat 64)
    parts := parts
    at_ := at_
    head := head }

theorem at_work (g : State → State) (hg : ∀ s, (g s).die0 = s.die0 ∧ (g s).die1 = s.die1) (c : BindCmd) (ht : c.taken = true) (hc : c.ctx = 0) (hq : c.q = 0)
    (hp : c.at_ < c.parts) (ops : Nat → Bool) (ho : ops c.op = true) : (codingState g c).atWork 0 0 ops = [(0, c)] := by
  have h0 : ((codingState g c).die 0).bind = [c] := congrArg Die.bind (hg _).1
  have h1 : ((codingState g c).die 1).bind = [] := congrArg Die.bind (hg _).2
  simp [State.atWork, State.takenOf, h0, h1, ht, hc, hq, ho, hp]

/-- A descriptor that is found changes no state, as that clause asks of its hypothesis. -/
theorem queueAt_state {s t : State} {e : Env} {q : Nat} {need : Need} {d : QDesc} (h : queueAt s e q need = .ok t d) : t = s := by
  have table {g a : Nat} (h : tableAt s e g need = .ok t a) : t = s := by
    unfold tableAt at h
    split at h
    · cases h
    · exact (hvFault_ok h).elim
    · split at h
      · split at h
        · exact (hvFault_ok h).elim
        · cases h
      · split at h
        · cases h
        · injection h with h
          exact h.symm
  unfold queueAt at h
  dsimp only at h
  split at h
  · cases h
  · obtain ⟨u, a, e1, e2⟩ := Res.andThen_ok h
    injection e2 with e2
    subst e2
    exact table e1

/-- A TRANSFORM of two units. -/
def bytesCmd : List Nat := [1, 0, 3 * 2 ^ 44, 2 * 2 ^ 44, Efmt.i8.code * 2 ^ 32 + 0x10002, 2, 2]

def partReads (x : PartStep) : Bool := match x with | .read _ => true | .done _ _ => false
def partEnds (x : PartStep) : Bool := match x with | .read _ => false | .done _ _ => true

/-- The clauses of BinderyCommands about a part of a command at work: a read, and the write that ends the last part and an earlier one. -/
theorem test_witness_bindery_parts :
    (partOk (working bytesCmd 2 1 [] []) partReads = true ∧ partOk (working bytesCmd 2 1 [] [[5]]) partEnds = true ∧ partOk (working bytesCmd 2 0 [] [[5]]) partEnds = true)
    ∧ partOk (working [2, 0, 2 * 2 ^ 44, 2 * 2 ^ 44, 0, 2 ^ 32 + 1] 1 0 ((ownerHead.take 4 ++ ownerHead.take 4).flatMap (leBytes 8)) []) partReads = true
    ∧ partOk (working [6 + 0x30 * 2 ^ 16, 0, 4 * 2 ^ 44, 4096, 1] 1 0 [] []) partEnds = true
    ∧ partOk (working [7, 0, 3 * 2 ^ 44, 2 * 2 ^ 44, Efmt.fp16.code * 2 ^ 32 + Efmt.ks6.code * 2 ^ 40 + 0x10010, 32, 12] 1 0 [] []) partReads = true := by
  decide +kernel

/-- The block that the next Code event codes, in a state changed by g. -/
def codes (g : State → State) (op : Nat) (p : State → Option Coded → Bool) : Bool :=
  let s := codingState g (coding op [mkRef 4 0])
  ((s.die 0).inFlight[0]? == some (coding op [mkRef 4 0])) && !s.engineWaits 0 (coding op [mkRef 4 0]) (rangeHomes s takesEnv (mkRef 4 0) 512)
    && okRes (locate s takesEnv (refH (mkRef 4 0)) (refOff (mkRef 4 0)) 512 false Need.readWrite) fun s1 l =>
    okRes (chaseAll s1 takesEnv Need.readWrite (mkRef 4 0) (mkRef 4 0) l.2.2) fun s2 r => r.2 == (List.range 512).map (0x32000 + ·) && !r.2.any s2.eccAt
      && p s2 (kvGet (0x32000 / 512) s2.coded)

/-- A finished command with its record at the start of handle 2. -/
def recording (recd : Bool) : BindCmd :=
  { coding 3 [] with
    words := [3, mkRef 2 0]
    recd := recd }

/-- The clauses of BinderyEvents: COMPRESS of a raw block, DECOMPRESS of a coded and of a raw one, RECODE of a block of another table; a
class that learned, a record that no reference asks for, and one that is written, at its tail and at its head. -/
theorem test_witness_bindery_events : codes id 3 (fun _ o => o.isNone) = true
    ∧ codes (fun s => { s with coded := [(0x191, { cls := 0, gen := 1, lines := 2 })] }) 4 (fun _ o => o.isNone) = true
    ∧ codes (fun s => { s with coded := [(0x190, { cls := 0, gen := 1, lines := 2 })] }) 4 (fun _ o => o.isSome) = true
    ∧ codes (fun s => { s with coded := [(0x190, { cls := 0, gen := 1, lines := 2 })] }) 5 (fun _ o => o == some { cls := 0, gen := 1, lines := 2 }) = true
    ∧ (let c := { coding 6 [] with learns := some (7, 3) }
      let s := codingState id c
      (s.die 0).inFlight[0]? = some c ∧ c.parts ≤ c.at_ ∧ 7 < (s.die 0).classes.length ∧ 3 < ((s.codeClass 0 7).slots).length)
    ∧ ((codingState id (coding 3 [])).die 0).inFlight[0]? = some (coding 3 []) ∧ (codingState id (coding 3 [])).waitsPoint none = false ∧ BitVec.ofNat 64 ((coding 3 []).w 1) = 0
    ∧ ∀ recd ∈ [false, true], let c := recording recd
      ((codingState id c).die 0).inFlight[0]? = some c ∧ BitVec.ofNat 64 (c.w 1) ≠ 0 ∧ (codingState id c).waitsPoint c.rel = false
        ∧ (codingState id c).engineWaits 0 c (recordHomes (codingState id c) c) = false
        ∧ okRes (locate (codingState id c) takesEnv (refH (mkRef 2 0)) (refOff (mkRef 2 0)) 32 true Need.store) (fun s1 l =>
          okRes (chaseAll s1 takesEnv Need.store l.2.1 l.2.1 l.2.2) fun _ r => r.2 == (List.range 32).map (0x30000 + ·)) = true := by
  decide +kernel

/-- A movable handle of one 64 KiB bale at a virtual address. -/
def movable (va : Nat) : HEntry := parseHandle (2 ^ 63 + va) (2 ^ 48 + 2 ^ 45 + 2 ^ 44 + 65536) (2 ^ 35) 0

/-- A block with references to two bales, and a state changed by g in which it moves; handle 7 lies where handle 5 does. -/
def moveRefs : Block → Block := refs [(2, mkRef 2 0), (5, mkRef 5 0), (6, mkRef 6 0)]
def moveBlock : Block := blockWith moveRefs
def moveState (g : State → State) : State :=
  let s := dataState [] moveRefs
  g (s.setCtx 0 { s.ctx 0 with hcache := [(0, 5, movable 0x40000), (0, 6, movable 0x50000), (0, 7, movable 0x40000)] ++ (s.ctx 0).hcache })

def die0With (f : Die → Die) (s : State) : State := s.setDie 0 (f (s.die 0))

theorem moves_die (f : Die → Die) : Moves (moveState (die0With f)) placeKey moveBlock := ⟨rfl, (moves_data [] moveRefs).here⟩

def moveCmd : DroverCmd := { id := 9, num := 1, op := 0x10, tag := 5, ctx := 0, src := mkRef 5 0, dst := mkRef 6 0, recd := mkRef 2 0, acq := none, rel := none }
def freeCmd : DroverCmd := { moveCmd with
  op := 0x11
  dst := 0 }
def entry (state : BaleState) : DirEntry :=
  { ctx := 0, srcH := 5, srcK := 0, dstH := 6, dstK := 0, size := 65536, num := 1, depth := 1, state := state, pages := [0x40000] }
def moved1 : MoveRec := { num := 1, ctx := 0, lines := 0, status := 0, state := 1 }

/-- The Drover's queue of die 0 is full for context 0. -/
def fullFor (s : State) : Bool :=
  let q := s.die (s.dieOf placeKey.core)
  decide (1024 ≤ q.droverCmds.length) || decide (256 ≤ q.droverCmds.countP fun c => c.ctx = s.ctxNumOf moveBlock)

def queued (n : Nat) : State := moveState (die0With fun d => { d with dqueue := List.replicate n moveCmd })

def moveOk (n : Nat) (full : Bool) : Bool :=
  okRes (moveChecks (queued n) ((queued n).envOf placeKey moveBlock) (moveBlock.ga 5) (moveBlock.ga 6) (moveBlock.ga 2) (5, 6, 2)) (fun s1 _ => fullFor s1 == full)
    && okRes (freeChecks (queued n) ((queued n).envOf placeKey moveBlock) (moveBlock.ga 5) (moveBlock.ga 2) (5, 0, 2)) fun s1 _ => fullFor s1 == full

def remembered (state : Nat) : State := moveState (die0With fun d => { d with moves := [{ moved1 with state := state }] })

/-- MKQ at the start of handle 5, in a state changed by g. -/
def mkqOk (g : State → State) (p : State → Nat → Bool) : Bool :=
  okRes (checkHandle (moveState g) ((moveState g).envOf placeKey moveBlock) (moveBlock.ga 5) Need.load) fun s1 h => decide (refOff (moveBlock.ga 5) < h.bound)
    && baleSize h.mcls != 0 && okRes (placeRaw s1 ((moveState g).envOf placeKey moveBlock) h (moveBlock.ga 5) Need.load) p

/-- A block in the middle of a SWEEP of two words. -/
def sweepBlock (n : Nat) : Block := blockWith fun b => { dataRefs b with sleep := some (.sweep 3 2 (mkRef 2 0) 16 n 0) }
def sweepState (n : Nat) : State := dataState [] fun b => { dataRefs b with sleep := some (.sweep 3 2 (mkRef 2 0) 16 n 0) }

/-- A SWEEP of a range that begins: no word, and two. -/
theorem sweep_begins : ∀ n ∈ [0, 16], ∃ s k b s1 h, SettledFor s k true (sweptBytes 2 1) s b ∧ b.pa 2 = false ∧ b.ps 1 = false ∧ refOff (b.ga 2) % 8 = 0
    ∧ (b.gs 1).toNat % 8 = 0 ∧ checkHandle s (s.envOf k b) (b.ga 2) Need.readWrite = .ok s1 h ∧ min (b.gs 1).toNat (2 ^ 24) = n := by
  have begins (n : W64) (hn : min n.toNat (2 ^ 24) = n.toNat) (h8 : n.toNat % 8 = 0)
      (hp : let b := blockWith fun b => scalars [(1, n)] (dataRefs b)
        b.pa 2 = false ∧ b.ps 1 = false ∧ refOff (b.ga 2) % 8 = 0 ∧ (b.gs 1).toNat = n.toNat)
      (hc : okRes (checkHandle (dataState [] fun b => scalars [(1, n)] (dataRefs b)) ((dataState [] fun b => scalars [(1, n)] (dataRefs b)).envOf placeKey
        (blockWith fun b => scalars [(1, n)] (dataRefs b))) (mkRef 2 0) Need.readWrite) (fun _ _ => true) = true) :
      ∃ s k b s1 h, SettledFor s k true (sweptBytes 2 1) s b ∧ b.pa 2 = false ∧ b.ps 1 = false ∧ refOff (b.ga 2) % 8 = 0 ∧ (b.gs 1).toNat % 8 = 0
        ∧ checkHandle s (s.envOf k b) (b.ga 2) Need.readWrite = .ok s1 h ∧ min (b.gs 1).toNat (2 ^ 24) = n.toNat := by
    obtain ⟨s1, h, e, -⟩ := ok_of hc
    exact ⟨dataState [] fun b => scalars [(1, n)] (dataRefs b), placeKey, _, s1, h, settled_for (moves_data _ _) _ _ rfl rfl, hp.1, hp.2.1, hp.2.2.1,
      by rw [hp.2.2.2]; exact h8, e, by rw [hp.2.2.2]; exact hn⟩
  intro n hn
  simp only [List.mem_cons, List.not_mem_nil, or_false] at hn
  rcases hn with rfl | rfl
  · exact begins 0 (by decide) (by decide) (by decide) (by decide +kernel)
  · exact begins 16 (by decide) (by decide) (by decide) (by decide +kernel)

/-- The clauses of DroverCommands: a queue with room and a full one, for both commands; a move that is queued and one that is reported;
SWEEP of a range, of nothing and of one that is misaligned, its first word and its last; MKQ of a waymark, of a bale in the directory, and
of a plain line. -/
theorem test_witness_drover_commands : (∀ n, Settled (queued n) placeKey Ev.acquires (queued n) moveBlock) ∧ (∀ r ∈ [2, 5, 6], moveBlock.pa r = false) ∧ moveBlock.ps 0 = false
    ∧ moveOk 255 false = true ∧ moveOk 256 true = true
    ∧ (∃ s k b v, Moves s k b ∧ b.ps 1 = false ∧ b.gs 1 = v ∧ v = 1 ∧ ((s.die (v.toNat / 2 ^ 31 % 2)).moves.find? fun m => m.num = v.toNat && m.ctx = s.ctxNumOf b)
      = some { moved1 with state := 1 })
    ∧ (∃ s k b, Moves s k b ∧ b.ps 1 = false ∧ ((s.die ((b.gs 1).toNat / 2 ^ 31 % 2)).moves.find? fun m => m.num = (b.gs 1).toNat && m.ctx = s.ctxNumOf b)
      = some { moved1 with state := 3 } ∧ b.sleep = some (.mvwait 3 (b.gs 1)))
    ∧ (∀ n ∈ [0, 16], ∃ s k b s1 h, SettledFor s k true (sweptBytes 2 1) s b ∧ b.pa 2 = false ∧ b.ps 1 = false ∧ refOff (b.ga 2) % 8 = 0 ∧ (b.gs 1).toNat % 8 = 0
      ∧ checkHandle s (s.envOf k b) (b.ga 2) Need.readWrite = .ok s1 h ∧ min (b.gs 1).toNat (2 ^ 24) = n)
    ∧ (∀ n ∈ [0, 8], (sweepState n).block? placeKey = some (sweepBlock n) ∧ (sweepBlock n).sleep = some (.sweep 3 2 (mkRef 2 0) 16 n 0)
      ∧ okRes (locate (sweepState n) ((sweepState n).envOf placeKey (sweepBlock n)) (refH (mkRef 2 0)) ((refOff (mkRef 2 0) : Int) + n) 8 true (Need.readWrite.scalar 8)) (fun s1 l =>
        okRes (chaseAll s1 ((sweepState n).envOf placeKey (sweepBlock n)) (Need.readWrite.scalar 8) l.2.1 l.2.1 l.2.2) fun s2 r =>
          !r.2.any s2.eccAt && r.2 == (List.range 8).map (0x30000 + n + ·)) = true)
    ∧ (∃ s k b, SettledFor s k true (sweptBytes 2 1) s b ∧ (b.gs 1).toNat % 8 = 4)
    ∧ mkqOk (fun s => { s with marks := [(0x800, { newref := mkRef 6 0, home := 0x50000, gen := 1, hop := 1, mnum := 1 })] }) (fun s p => (s.markAt p).isSome) = true
    ∧ mkqOk (die0With fun d => { d with dir := [entry .marked] }) (fun s p => (s.markAt p).isNone && (s.dirOf 0 5 0 == some (entry .marked))) = true
    ∧ mkqOk id (fun s p => (s.markAt p).isNone) = true := by
  refine ⟨fun n => settled_of (moves_die _) _ rfl rfl, by decide, by decide, by decide +kernel, by decide +kernel,
    ⟨(remembered 1).setBlock placeKey (scalars [(1, 1)] moveBlock), placeKey, scalars [(1, 1)] moveBlock, 1, ⟨rfl, State.block?_setBlock_same _ _ _⟩, by decide, by decide, rfl,
      by decide +kernel⟩,
    ⟨(remembered 3).setBlock placeKey { scalars [(1, 1)] moveBlock with sleep := some (.mvwait 3 1) }, placeKey, { scalars [(1, 1)] moveBlock with sleep := some (.mvwait 3 1) },
      ⟨rfl, State.block?_setBlock_same _ _ _⟩, by decide, by decide +kernel, by decide⟩, ?_, ?_,
    ⟨dataState [] (scalars [(1, 4)]), placeKey, _, settled_for (moves_data _ _) _ _ rfl rfl, by decide⟩, by decide +kernel, by decide +kernel, by decide +kernel⟩
  · exact sweep_begins
  · intro n hn
    simp only [List.mem_cons, List.not_mem_nil, or_false] at hn
    rcases hn with rfl | rfl
    · exact ⟨(moves_data _ _).here, rfl, by decide +kernel⟩
    · exact ⟨(moves_data _ _).here, rfl, by decide +kernel⟩

/-- A Drover with a command at the head of its queue, and a directory. -/
def claimState (c : DroverCmd) (dir : List DirEntry) : State := moveState (die0With fun d => { d with
  dqueue := [c]
  dir := dir })

/-- A claim that passes its checks and walks its pages. -/
def claims (c : DroverCmd) (dir : List DirEntry) (p : State → List Nat → List Nat → Bool) : Bool :=
  let s := claimState c dir
  let e := droverEnv s 0 c
  okRes (moveChecks s e c.src c.dst c.recd (0, 0, 0)) fun s1 r => okRes (walkPages s1 e r.1 Need.load c.src (r.2.2 / 4096)) fun s2 ps =>
    okRes (walkPages s2 e r.2.1 Need.store c.dst (r.2.2 / 4096)) fun s3 pd => p s3 ps pd

/-- The bale of a claim is moving, or its destination is held. -/
def busyFor (s : State) (c : DroverCmd) : Bool :=
  (s.baleState 0 (refH c.src) 0).isSome || (s.baleState 0 (refH c.dst) 0).isSome || s.baleNamed 0 (refH c.dst) 0

/-- Every entry of a full directory is of another context. -/
def fullDir : List DirEntry := List.replicate 16384 { entry .marked with ctx := 99 }

/-- A move that has lines left, and one that has none. -/
def running (line : Nat) (recd : Bool) : RunningMove :=
  { recd := recd, cmd := moveCmd, status := 0, cause := 0, addr := 0, line := line, lines := 512, gen := 1, depth := 1, eccLines := 0, srcPages := (List.range 16).map fun n => 0x40000 + 4096 * n,
    dstPages := (List.range 16).map fun n => 0x50000 + 4096 * n }
def runningState (line : Nat) (recd : Bool) : State := moveState (die0With fun d => { d with running := some (running line recd) })

/-- A quarantine at its end. -/
def quarantine (cleared recd : Bool) : Quarantine := { cmd := freeCmd, ctx := 0, h := 5, k := 0, size := 65536, ends := 0, cleared := cleared, recd := recd }
def quarState (cleared recd : Bool) : State := moveState (die0With fun d => { d with quar := [quarantine cleared recd] })

/-- The clauses of DroverEvents but the full directory: commands refused by OP, by FORMAT and by BOUND, claims that are busy, shared, too
deep and good; an MKFREE of a bale that is not marked and of one that is; a line to mark, at both ends of a move; a move to report; a
quarantine to end and one to report. -/
theorem test_witness_drover_events : badRes (moveChecks (claimState { moveCmd with src := mkRef 3 0 } []) (droverEnv (claimState { moveCmd with src := mkRef 3 0 } []) 0 moveCmd)
      (mkRef 3 0) (mkRef 6 0) (mkRef 2 0) (0, 0, 0)) = true
    ∧ claims moveCmd [entry .moving] (fun s _ _ => busyFor s moveCmd) = true
    ∧ claims { moveCmd with dst := mkRef 7 0 } [] (fun s ps pd => !busyFor s { moveCmd with dst := mkRef 7 0 } && ps.any pd.contains) = true
    ∧ claims moveCmd [{ entry .marked with
        srcH := 8
        dstH := 5 }, { entry .marked with
        srcH := 9
        dstH := 8 }, { entry .marked with
        srcH := 10
        dstH := 9 }] (fun s ps pd => !busyFor s moveCmd && !ps.any pd.contains && decide (3 < s.baleDepth 0 5 0 16 + 1)) = true
    ∧ claims moveCmd [{ entry .marked with
        srcH := 8
        dstH := 5 }, { entry .marked with
        srcH := 9
        dstH := 8 }] (fun s ps pd => !busyFor s moveCmd && !ps.any pd.contains && s.baleDepth 0 5 0 16 + 1 == 3 && decide ((s.die 0).dir.length < 16384)) = true
    ∧ okRes (freeChecks (claimState freeCmd []) (droverEnv (claimState freeCmd []) 0 freeCmd) freeCmd.src freeCmd.recd (0, 0, 0)) (fun s n => n == 65536
      && (s.directory.find? fun x => x.ctx = 0 && x.srcH = 5 && x.srcK = 0 && x.state = .marked).isNone) = true
    ∧ okRes (freeChecks (claimState freeCmd [entry .marked]) (droverEnv (claimState freeCmd [entry .marked]) 0 freeCmd) freeCmd.src freeCmd.recd (0, 0, 0)) (fun s n => n == 65536
      && ((s.directory.find? fun x => x.ctx = 0 && x.srcH = 5 && x.srcK = 0 && x.state = .marked) == some (entry .marked)) && !s.baleNamed 0 5 0
      && !s.holdsPages (entry .marked).pages) = true
    ∧ (∀ c, ((claimState c []).die 0).running = none ∧ ((claimState c []).die 0).dqueue = c :: [] ∧ (claimState c []).waitsPoint moveCmd.acq = false
      ∧ (claimState c []).waitsRelease moveCmd.rel = false)
    ∧ (∀ n recd, ((runningState n recd).die 0).running = some (running n recd) ∧ (runningState n recd).waitsPoint moveCmd.rel = false
      ∧ (runningState n recd).unmarked (running n recd) = false)
    ∧ (∃ s : State, (s.die 0).running = some (running 512 false) ∧ s.unmarked (running 512 false) = true)
    ∧ (∀ n ∈ [0, 511], let old := lineHome (running n false).srcPages n
      let new := lineHome (running n false).dstPages n
      n < 512 ∧ old % 128 = 0 ∧ new % 128 = 0 ∧ old ≠ new ∧ (runningState n false).armedAt old = false ∧ (runningState n false).armedAt new = false)
    ∧ (∀ recd ∈ [false, true], okRes (droverRecord (runningState 512 recd) 0 moveCmd recd 0 0 512 0 0 (runningState 512 recd).dtime) (fun _ a => a == recd) = true)
    ∧ (∀ c recd, ((quarState c recd).die 0).quar[0]? = some (quarantine c recd) ∧ (quarState c recd).waitsPoint (quarantine c recd).cmd.rel = false
      ∧ (quarantine c recd).ends ≤ (quarState c recd).dtime)
    ∧ ∀ recd ∈ [false, true], okRes (droverRecord (quarState true recd) 0 freeCmd recd 0 0 512 0 0 (quarantine true recd).ends) (fun _ a => a == recd) = true := by
  refine ⟨by decide +kernel, by decide +kernel, by decide +kernel, by decide +kernel, by decide +kernel, by decide +kernel, by decide +kernel, fun c => ⟨rfl, rfl, rfl, rfl⟩,
    fun n recd => ⟨rfl, rfl, rfl⟩, ⟨moveState (die0With fun d => { d with
      running := some (running 512 false)
      dir := [entry .moving] }), rfl, by decide +kernel⟩, by decide +kernel, by decide +kernel, fun c recd => ⟨rfl, rfl, Nat.zero_le _⟩, by decide +kernel⟩

/-- The clause of a full directory. -/
theorem test_witness_full_directory : ∃ (s s1 s2 s3 : State) (hs hd : HEntry) (size : Nat) (ps pd : List Nat), (s.die 0).running = none ∧ (s.die 0).dqueue = moveCmd :: []
    ∧ moveChecks s (droverEnv s 0 moveCmd) moveCmd.src moveCmd.dst moveCmd.recd (0, 0, 0) = .ok s1 (hs, hd, size)
    ∧ walkPages s1 (droverEnv s 0 moveCmd) hs Need.load moveCmd.src (size / 4096) = .ok s2 ps
    ∧ walkPages s2 (droverEnv s 0 moveCmd) hd Need.store moveCmd.dst (size / 4096) = .ok s3 pd ∧ busyFor s3 moveCmd = false ∧ (∀ p ∈ ps, p ∉ pd)
    ∧ s3.baleDepth 0 5 0 16 + 1 ≤ 3 ∧ 16384 ≤ (s3.die 0).dir.length := by
  obtain ⟨s1, ⟨hs, hd, size⟩, e1, g⟩ := ok_of (r := moveChecks (claimState moveCmd fullDir) (droverEnv (claimState moveCmd fullDir) 0 moveCmd) moveCmd.src moveCmd.dst
    moveCmd.recd (0, 0, 0)) (p := fun s1 r => okRes (walkPages s1 (droverEnv (claimState moveCmd fullDir) 0 moveCmd) r.1 Need.load moveCmd.src (r.2.2 / 4096)) fun s2 ps =>
      okRes (walkPages s2 (droverEnv (claimState moveCmd fullDir) 0 moveCmd) r.2.1 Need.store moveCmd.dst (r.2.2 / 4096)) fun s3 pd => !busyFor s3 moveCmd
        && (ps.all fun p => !pd.contains p) && decide (s3.baleDepth 0 5 0 16 + 1 ≤ 3) && decide (16384 ≤ (s3.die 0).dir.length)) (by decide +kernel)
  obtain ⟨s2, ps, e2, g⟩ := ok_of g
  obtain ⟨s3, pd, e3, g⟩ := ok_of g
  simp only [Bool.and_eq_true, decide_eq_true_eq, Bool.not_eq_true', List.all_eq_true] at g
  exact ⟨claimState moveCmd fullDir, s1, s2, s3, hs, hd, size, ps, pd, rfl, rfl, e1, e2, e3, g.1.1.1, fun p hp => by simpa using g.1.1.2 p hp, g.1.2, g.2⟩

/-- A state whose launch is changed, in which a block moves. -/
def launchState (g : Launch → Launch) (f : Block → Block) : State :=
  let s := dataState [] f
  { s with launches := [g placeLaunch] }

theorem launch_block (g : Launch → Launch) (f : Block → Block) : (launchState g f).block? placeKey = some (blockWith f) := State.block?_setBlock_same _ _ _

def dueLaunch (l : Launch) : Launch := { l with man := { l.man with deadline := 0 } }
def wrapLaunch (l : Launch) : Launch := { l with wrapup := some 96 }
def cancel (b : Block) : Block := { b with cancelled := true }
def policy (n : Nat) (l : Launch) : Launch := { l with man := { l.man with fpol := n } }

/-- The clauses of BlockEvents: the last core's clock; a diversion by a deadline and one by a cancel, without and with a wrap-up; an
overrun; an end without a trap, one that is run again, and one that is not. -/
theorem test_witness_block_events : (∃ (s : State) (core : Nat), s.coreCount = core + 1)
    ∧ (∀ w : Bool, ∃ (s s1 : State) (k : BKey) (b0 b : Block) (l : Launch), s.block? k = some b ∧ s.launchOf b = some l ∧ s1.block? k = some b0 ∧ s1.divertDue b0 = true
      ∧ settleWhere s1 k Ev.begun = s ∧ s.divertDue b = true ∧ s.stopWaits k b = false ∧ (∀ p ∈ s.blocks, p.2.parts = []) ∧ (∀ h ∈ b.held, h.begun = false)
      ∧ s.expired l.man = !w
      ∧ l.wrapup = if w then some 96 else none)
    ∧ (∃ (s : State) (k : BKey) (b : Block) (l : Launch), s.block? k = some b ∧ s.launchOf b = some l ∧ b.status.getLsbD 8 = true ∧ b.wbend ≤ s.dtime ∧ b.ended = none ∧ b.sys = none)
    ∧ (∃ (s : State) (k : BKey) (b : Block) (l : Launch), s.block? k = some b ∧ s.launchOf b = some l ∧ b.ended = some (.full, 0) ∧ b.evq = [] ∧ b.msgs = [] ∧ b.held = []
      ∧ (s.core k.core).staged = none)
    ∧ (∃ (s : State) (k : BKey) (b : Block) (l : Launch), s.block? k = some b ∧ s.launchOf b = some l ∧ b.ended = some (.none, 0x14) ∧ b.evq = [] ∧ b.msgs = [] ∧ b.held = []
      ∧ (s.core k.core).staged = none ∧ l.man.fltref = 0 ∧ l.man.fpol = 1 ∧ b.attempt = 0 ∧ l.status = 0 ∧ b.status.getLsbD 8 = false)
    ∧ ∃ (s : State) (k : BKey) (b : Block) (l : Launch), s.block? k = some b ∧ s.launchOf b = some l ∧ b.ended = some (.none, 0x14) ∧ b.evq = [] ∧ b.msgs = [] ∧ b.held = []
      ∧ (s.core k.core).staged = none ∧ l.man.fltref = 0 ∧ l.man.fpol = 0 := by
  refine ⟨⟨launchState id id, 191, by decide +kernel⟩, fun w => ?_,
    ⟨launchState id fun b => { b with status := 0x100 }, placeKey, _, placeLaunch, launch_block _ _, rfl, rfl, Nat.le_refl 0, rfl, rfl⟩,
    ⟨launchState id fun b => { b with ended := some (.full, 0) }, placeKey, _, placeLaunch, launch_block _ _, rfl, rfl, rfl, rfl, rfl, by decide +kernel⟩,
    ⟨launchState (policy 1) fun b => { b with ended := some (.none, 0x14) }, placeKey, _, policy 1 placeLaunch, launch_block _ _, rfl, rfl, rfl, rfl, rfl, by decide +kernel, rfl, rfl,
      rfl, rfl, rfl⟩,
    ⟨launchState (policy 0) fun b => { b with ended := some (.none, 0x14) }, placeKey, _, policy 0 placeLaunch, launch_block _ _, rfl, rfl, rfl, rfl, rfl, by decide +kernel, rfl, rfl⟩⟩
  cases w
  · exact ⟨launchState dueLaunch id, launchState dueLaunch id, placeKey, blockWith id, blockWith id, dueLaunch placeLaunch, launch_block _ _, rfl, launch_block _ _, by decide +kernel,
      (settled_of ⟨rfl, launch_block _ _⟩ _ rfl rfl).after, by decide +kernel, by decide +kernel, by decide +kernel,
      fun _ h => (nomatch h), by decide +kernel, rfl⟩
  · exact ⟨launchState wrapLaunch cancel, launchState wrapLaunch cancel, placeKey, blockWith cancel, blockWith cancel, wrapLaunch placeLaunch, launch_block _ _, rfl, launch_block _ _,
      by decide +kernel, (settled_of ⟨rfl, launch_block _ _⟩ _ rfl rfl).after, by decide +kernel, by decide +kernel, by decide +kernel,
      fun _ h => (nomatch h), by decide +kernel, rfl⟩

/-- Two launches that wait for a context: of priority 3, and of priority 0. -/
def waiting : Launch := { placeLaunch with
  begun := []
  key := some 5
  man := { placeLaunch.man with prio := 3 } }
def behind : Launch := { placeLaunch with
  num := 1
  begun := []
  key := some 0 }
def choiceState : State := { dataState [] id with
  blocks := []
  launches := [waiting, behind] }

/-- A launch that has nothing left to run. -/
def doneLaunch (l : Launch) : Launch := { l with
  valid := [(0, .full)]
  man := { l.man with compref := mkRef 4 0 } }
def doneState : State := { launchState doneLaunch id with blocks := [] }

/-- The clauses of LaunchEvents. -/
theorem test_witness_launch_events : (∃ (s s2 : State) (k : BKey) (l : Launch), (s.core k.core).staged = none ∧ s.block? k = none ∧ k.core < s.coreCount ∧ k.slot < 4
      ∧ (∀ x ∈ s.launches, x.key ≠ none) ∧ l ∈ s.launches ∧ s.mayUse k l = true ∧ (∀ x ∈ s.launches, s.mayUse k x = true → x = l ∨ s.effectivePrio x < s.effectivePrio l
        ∨ (s.effectivePrio x = s.effectivePrio l ∧ l.key.getD 0 < x.key.getD 0)) ∧ l.reruns = [] ∧ l.coop = false ∧ l.begun.Pairwise (· < ·) ∧ s.launch? l.num = some l
      ∧ placeBlock s l (firstGap 0 l.begun) 0 k = .ok s2 ())
    ∧ (∃ (s : State) (l : Launch), s.launch? 0 = some l ∧ s.expired l.man = true ∧ l.over = false)
    ∧ ∃ (s s2 : State) (l : Launch) (cause : Nat), s.launch? 0 = some l ∧ s.mayRecord l = true ∧ l.man.vmap = 0 ∧ l.node = none
      ∧ writeLaunchRec (s.setLaunch { l with mapped := true }) l.man l.record = .ok s2 cause := by
  refine ⟨?_, ⟨launchState dueLaunch id, dueLaunch placeLaunch, rfl, rfl, rfl⟩, ?_⟩
  · obtain ⟨s2, u, e, -⟩ := ok_of (r := placeBlock choiceState waiting (firstGap 0 waiting.begun) 0 placeKey) (p := fun _ _ => true) (by decide +kernel)
    exact ⟨choiceState, s2, placeKey, waiting, by decide +kernel, rfl, by decide +kernel, by decide, by decide, by decide, by decide +kernel, by decide +kernel, rfl, rfl,
      List.Pairwise.nil, by decide +kernel, e⟩
  · obtain ⟨s2, c, e, -⟩ := ok_of (r := writeLaunchRec (doneState.setLaunch { doneLaunch placeLaunch with mapped := true }) (doneLaunch placeLaunch).man
      (doneLaunch placeLaunch).record) (p := fun _ _ => true) (by decide +kernel)
    exact ⟨doneState, s2, doneLaunch placeLaunch, c, rfl, by decide +kernel, rfl, rfl, e⟩

/-- A published object at handle 2, a manifest of its kernel at handle 3. -/
def manifestWords : List (Nat × Nat) := (0x30000, 0x000100014B5A434F) :: goodObject.drop 1 ++ [(0x31000, 2 * 2 ^ 44), (0x31018, 2 ^ 64 - 1), (0x31038, 4 * 2 ^ 44)]

/-- Node 0 of graph 5: its type, the nodes behind it, its words. -/
def nodeOf (type_ next0 next1 : Nat) (words : List W64) : NodeSt := { NodeSt.zero with
  running := true
  words := BitVec.ofNat 64 (type_ + next0 * 2 ^ 32 + next1 * 2 ^ 48) :: words }
def graphOf (x : NodeSt) : Graph :=
  { num := 5, man := { placeLaunch.man with compref := mkRef 4 0 }, nodes := [(0, x)], ready := true, started := true, kernels := 0, fcause := 0, status := 0, ending := false }
def graphState (words : List (Nat × Nat)) (g : Graph) : State := { dataState words id with graphs := [g] }

def runsNode (s : State) (x : NodeSt) (type_ : Nat) : Bool :=
  (s.graph? 5 == some (graphOf x)) && (graphOf x).ready && !s.frozenQueue 5 && ((graphOf x).node 0 == x) && x.running && x.type_ == type_

/-- A node whose predicate is read. -/
def reads (words : List (Nat × Nat)) (x : NodeSt) (type_ : Nat) (p : W64 → Bool) : Bool :=
  let s := graphState words (graphOf x)
  runsNode s x type_ && okRes (readPredicate s (graphOf x) x.refA) fun s1 v => (s1.graph? 5 == some (graphOf x)) && p v

/-- The clauses of GraphNodes: a KERNEL, a COPY to a queue with one place, a COND each way, a LOOP at its start, in its body, at its end
again and for the last time, a WAIT whose word is at its value and one below it, a SIGNAL, an END, a deadline, a hold that passes. -/
theorem test_witness_graph_nodes : (let x := nodeOf 1 0xFFFF 0xFFFF [mkRef 3 0]
      let s := graphState manifestWords (graphOf x)
      (runsNode s x 1 && x.launch.isNone && okRes (readRef s (dispEnv 0) x.refA 0 128 false Need.load) fun s1 bs => ((s1.ctx (parseManifest bs).ctx).handles != 0)
        && okRes (admitLaunch s1 bs (parseManifest bs) (some (5, 0))) fun s2 r => !s2.tableFull && (s2.graph? 5 == some (graphOf x)) && match r with
          | .ok _ => true
          | .error _ => false) = true)
    ∧ (let x := nodeOf 2 0xFFFF 0xFFFF [mkRef 3 0, mkRef 2 0, 8]
      let s := (graphState [] (graphOf x)).setDie 0 { plain.die 0 with link := List.replicate 255 linkCmd }
      (runsNode s x 2 && (s.die0.link.find? fun c => c.node = some (5, 0)).isNone && okRes (copyRefused s (dispEnv 0) x) fun s1 r => r.isNone && s1.die0.link.length == 255) = true)
    ∧ reads [(0x31000, 1)] (nodeOf 3 1 2 [mkRef 3 0]) 3 (fun v => v == 1) = true ∧ reads [] (nodeOf 3 1 2 [mkRef 3 0]) 3 (fun v => v == 0) = true
    ∧ (let x := nodeOf 4 2 0xFFFF [mkRef 3 0, 1, 3]
      runsNode (graphState [] (graphOf x)) x 4 = true ∧ x.runs = 0 ∧ x.valB.toNat % 2 ^ 16 ≠ 0
        ∧ runsNode (graphState [] (graphOf { x with runs := 1 })) { x with runs := 1 } 4 = true
        ∧ reads [(0x31000, 1)] { x with
          runs := 2
          atEnd := true } 4 (fun v => v != 0 && decide (2 < x.valC.toNat)) = true
        ∧ reads [(0x31000, 1)] { x with
          runs := 3
          atEnd := true } 4 (fun v => v != 0 && decide (¬ 3 < x.valC.toNat)) = true)
    ∧ reads [(0x31000, 7)] (nodeOf 5 1 0xFFFF [mkRef 3 0, 7]) 5 (fun v => v == 7) = true ∧ reads [(0x31000, 6)] (nodeOf 5 1 0xFFFF [mkRef 3 0, 7]) 5 (fun v => v == 6) = true
    ∧ (let x := nodeOf 6 1 0xFFFF [mkRef 3 0, 7]
      let s := graphState [] (graphOf x)
      (runsNode s x 6 && okRes (strongAdd s (dispEnv 0) Need.atomic x.refA x.valB.toNat) fun s1 _ => s1.graph? 5 == some (graphOf x)) = true)
    ∧ (let x := nodeOf 7 0xFFFF 0xFFFF []
      let s := graphState [] (graphOf x)
      (runsNode s x 7 && okRes (writeLaunchRec s (graphOf x).man { num := 5, fcause := 0, status := 0, full := 0, part := 0, none_ := 0, fsum := 0, fblk := none, nflt := 0 })
        fun _ c => c == 0) = true)
    ∧ (let g := { graphOf NodeSt.zero with man := { placeLaunch.man with deadline := 0 } }
      let s := { graphState [] g with launches := [{ placeLaunch with node := some (5, 0) }] }
      s.graph? 5 = some g ∧ s.expired g.man = true ∧ g.ending = false ∧ s.graphBusy 5 = true)
    ∧ ((graphOf { NodeSt.zero with hold := some 0 }).node 0).hold = some 0 ∧ 0 ≤ (graphState [] (graphOf NodeSt.zero)).dtime := by
  decide +kernel

/-- A state changed by g in which relay core 0 moves, with registers set. -/
def relayWith (l : List (XReg × W64)) : Relay := { Relay.zero with x := l.foldl (fun v p => v.set p.1 p.2) Relay.zero.x }
def relayState (g : State → State) (words : List (Nat × Nat)) (l : List (XReg × W64)) : State :=
  { g ((dataState words id).setRelay 0 (relayWith l)) with active := .relay 0 }

theorem moves_relay (words : List (Nat × Nat)) (l : List (XReg × W64)) : RelayMoves (relayState id words l) 0 (relayWith l) where
  turn := rfl
  here := by simp [relayState, State.setRelay]

/-- A launch line, changed. -/
def lineIs (n : Fin 512) (f : LaunchLine → LaunchLine) (s : State) : State := { s with lines := s.lines.set n (f s.lines[n]) }

theorem moves_line (n : Fin 512) (f : LaunchLine → LaunchLine) (words : List (Nat × Nat)) (l : List (XReg × W64)) :
    RelayMoves (relayState (lineIs n f) words l) 0 (relayWith l) where
  turn := rfl
  here := by simp [relayState, lineIs, State.setRelay]

/-- A sealed line of a manifest whose object is at handle 2, with a last byte; no queue, no windows. -/
def sealedLine (bytes : List Byte) (l : LaunchLine) : LaunchLine := { l with
  bytes := bytes
  sealed := true }
def manifestBytes (kidx : Byte) : List Byte :=
  leBytes 8 (2 * 2 ^ 44) ++ [kidx] ++ List.replicate 15 0 ++ leBytes 8 (2 ^ 64 - 1) ++ List.replicate 24 0 ++ leBytes 8 (4 * 2 ^ 44) ++ List.replicate 63 0 ++ [0x35]

/-- Launches enough to fill the launch table. -/
def manyLaunches (s : State) : State := { s with launches := List.replicate 4096 { placeLaunch with man := { placeLaunch.man with ctx := 9 } } }

/-- RFETCH of line 511 answers a fetch of a kind. -/
def fetches (g : State → State) (kidx : Byte) (p : Fetched → Bool) : Bool :=
  let s := relayState (fun s => g (lineIs 511 (sealedLine (manifestBytes kidx)) s)) manifestWords [(10, 511)]
  okRes (fetchManifest s (manifestBytes kidx)) fun _ r => p r

/-- The clauses of RelayWords about lines: a seal of a line of the device and of the host, a recall. -/
theorem test_witness_launch_lines : let s := relayState (lineIs 511 fun l => { l with hostOwned := true, written := true }) [] []
    s.lines[(511 : Fin 512)].hostOwned = true ∧ s.lines[(511 : Fin 512)].written = true ∧ s.lines[(510 : Fin 512)].hostOwned = false
      ∧ s.lines[(510 : Fin 512)].bytes.length = 128 := by decide +kernel

theorem line_of (n : Fin 512) (f : LaunchLine → LaunchLine) (words : List (Nat × Nat)) (l : List (XReg × W64)) :
    (relayState (lineIs n f) words l).lines[n] = f State.reset.lines[n] := by simp [relayState, lineIs, State.setRelay]; rfl

/-- The clauses about RFETCH before admission: an index beyond the lines, a line that is not sealed, one with another last byte, one with a
manifest. -/
theorem test_witness_fetches : (RelayMoves (relayState id [] [(10, 512)]) 0 (relayWith [(10, 512)]) ∧ 512 ≤ ((relayWith [(10, 512)]).gx 10).toNat)
    ∧ (RelayMoves (relayState id [] [(10, 511)]) 0 (relayWith [(10, 511)]) ∧ ((relayWith [(10, 511)]).gx 10).toNat = (511 : Fin 512).val
      ∧ (relayState id [] [(10, 511)]).tableError = false ∧ (relayState id [] [(10, 511)]).lines[(511 : Fin 512)].sealed = false)
    ∧ ∀ bytes ∈ [List.replicate 128 (0 : Byte), manifestBytes 0], let s := relayState (lineIs 511 (sealedLine bytes)) [] [(10, 511)]
      RelayMoves s 0 (relayWith [(10, 511)]) ∧ s.lines[(511 : Fin 512)].sealed = true ∧ s.lines[(511 : Fin 512)].bytes = bytes
        ∧ ((bytes.getD 127 0).toNat % 128 = 0x35 ↔ bytes = manifestBytes 0) := by
  refine ⟨⟨moves_relay _ _, by decide⟩, ⟨moves_relay _ _, by decide, by decide +kernel, by decide +kernel⟩, fun bytes hb => ⟨moves_line _ _ _ _, ?_, ?_, ?_⟩⟩
  · rw [line_of]; rfl
  · rw [line_of]; rfl
  · revert bytes; decide +kernel

/-- The clauses about admission: a manifest that is refused, one that finds the table full, one that is admitted. -/
theorem test_witness_admissions : fetches id 1 (fun r => r == .refused 0x22) = true ∧ fetches manyLaunches 0 (fun r => r == .full) = true
    ∧ fetches id 0 (fun r => match r with
      | .admitted _ => true
      | _ => false) = true := by
  decide +kernel

/-- The clauses of RelayWords about BXTR, SWAITQ and DSPCH: a bit field of no bits, of 65, one bit beyond the buffer, and the last 64; a
wait with nothing selected, an event, and a line sealed behind one that is not; a launch that is none, a core outside the partition, a block
beyond the grid, a stage that is taken and one that is free, a context in use and one that is free. -/
theorem test_witness_relay_words : (∃ s r, RelayMoves s 0 r ∧ (r.gx 10).toNat = 960 ∧ (r.gx 11).toNat = 64 ∧ (r.gx 12).toNat = 961 ∧ (r.gx 13).toNat = 65 ∧ (r.gx 14).toNat = 0
      ∧ r.mbError = false)
    ∧ (∃ s r, RelayMoves s 0 r ∧ (r.gx 0).getLsbD 0 = false ∧ (∀ n : Fin 512, (r.gx 0).getLsbD (n.val / 8) = true → s.lines[n].sealed = false) ∧ s.internal = [])
    ∧ (∃ s r, RelayMoves s 0 r ∧ (∀ n : Fin 512, (r.gx 10).getLsbD (n.val / 8) = true → s.lines[n].sealed = false) ∧ s.internal = ievHost :: [])
    ∧ (∃ s r, RelayMoves s 0 r ∧ s.lines[(9 : Fin 512)].sealed = true ∧ (r.gx 10).getLsbD ((9 : Fin 512).val / 8) = true
      ∧ ∀ n : Fin 512, n < 9 → (r.gx 10).getLsbD (n.val / 8) = true → s.lines[n].sealed = false)
    ∧ (let s := relayState (fun s => { s with blocks := [] }) [] [(10, 0), (11, 1), (12, 1), (13, 2 ^ 32)]
      let r := relayWith [(10, 0), (11, 1), (12, 1), (13, 2 ^ 32)]
      RelayMoves s 0 r ∧ s.tableError = false ∧ s.liveLaunch (r.gx 11).toNat = none ∧ s.liveLaunch (r.gx 10).toNat = some placeLaunch ∧ (r.gx 12).toNat % 256 ∉ (s.ctx 0).part
        ∧ placeLaunch.man.gridSize ≤ (r.gx 13).toNat / 2 ^ 32)
    ∧ (let s := relayState (fun s => { s with blocks := [] }) [] [(10, 0), (12, 1024)]
      let r := relayWith [(10, 0), (12, 1024)]
      RelayMoves s 0 r ∧ ((r.gx 12).toNat).testBit 10 = true ∧ (s.core 0).staged = none ∧ (r.gx 12).toNat % 256 ∈ (s.ctx 0).part
        ∧ (r.gx 12).toNat / 2 ^ 32 < placeLaunch.man.gridSize)
    ∧ (let s := relayState (fun s => (s.setCore 0 { s.core 0 with staged := some (0, 0, 0) })) [] [(10, 0), (12, 1024)]
      RelayMoves s 0 (relayWith [(10, 0), (12, 1024)]) ∧ (s.core 0).staged = some (0, 0, 0) ∧ s.contextFree placeKey placeLaunch = false)
    ∧ (let s := relayState (fun s => { s with blocks := [] }) [] [(10, 0), (12, 0)]
      s.contextFree placeKey placeLaunch = true ∧ s.rerunOn 0 = false ∧ placeLaunch.reruns = []
        ∧ okRes (placeBlock s placeLaunch 0 0 placeKey) (fun _ _ => true) = true)
    ∧ (let l : Launch := { placeLaunch with
        begun := []
        coop := true }
      let s := relayState (fun s => { s with
        blocks := []
        launches := [l] }) [] [(10, 0), (12, 0)]
      s.liveLaunch 0 = some l ∧ s.contextFree placeKey l = true ∧ s.rerunOn 0 = false ∧ l.reruns = [] ∧ l.man.gridSize ≤ (coopPlaces s l placeKey 0).length
        ∧ okRes (placeEach l.num s (coopPlaces s l placeKey 0)) (fun _ _ => true) = true)
    ∧ (let l : Launch := { placeLaunch with coop := true }
      let s := relayState (fun s => { s with
        blocks := []
        launches := [l] }) [] [(10, 0), (12, 0)]
      s.liveLaunch 0 = some l ∧ s.contextFree placeKey l = true ∧ s.rerunOn 0 = false ∧ l.begun ≠ []) := by
  refine ⟨⟨relayState id [] [(10, 960), (11, 64), (12, 961), (13, 65)], _, moves_relay _ _, by decide, by decide, by decide, by decide, by decide, rfl⟩,
    ⟨relayState id [] [], _, moves_relay _ _, by decide, by decide +kernel, rfl⟩,
    ⟨relayState (fun s => { s with internal := [ievHost] }) [] [(10, 2)], relayWith [(10, 2)], ⟨rfl, by simp [relayState, State.setRelay]⟩, by decide +kernel, rfl⟩,
    ⟨relayState (lineIs 9 (sealedLine [])) [] [(10, 2)], _, moves_line _ _ _ _, by decide +kernel, by decide, by decide +kernel⟩,
    ⟨⟨rfl, by simp [relayState, State.setRelay]⟩, by decide +kernel, by decide +kernel, by decide +kernel, by decide +kernel, by decide +kernel⟩,
    ⟨⟨rfl, by simp [relayState, State.setRelay]⟩, by decide +kernel, by decide +kernel, by decide +kernel, by decide +kernel⟩,
    ⟨⟨rfl, by simp [relayState, State.setRelay, State.setCore]⟩, by decide +kernel, by decide +kernel⟩, by decide +kernel, by decide +kernel, by decide +kernel⟩

/-- A state with a command in the ring of port 0, in the host's memory, changed by g. -/
def hostState (g : State → State) (words : List Nat) : State :=
  let s := g plain
  { s with
    mem := words.zipIdx.foldl (fun m p => m.writeLE (hostPA 0 + 8 * p.2) 8 p.1) s.mem
    port0 := { s.port0 with hcrt := 1 } }

def hostCmdOf (g : State → State) (words : List Nat) : HostCmd := (hostState g words).hostCmd 0 0

/-- The command stands at the head of the ring, and meets a description. -/
def headOk (g : State → State) (words : List Nat) (p : State → HostCmd → Bool) : Bool :=
  !((hostState g words).port 0).down && (((hostState g words).port 0).pending == [0]) && p (hostState g words) (hostCmdOf g words)

theorem head_of {g : State → State} {words : List Nat} {p : State → HostCmd → Bool} (h : headOk g words p = true) :
    AtHead (hostState g words) 0 (hostCmdOf g words) ∧ p (hostState g words) (hostCmdOf g words) = true := by
  simp only [headOk, Bool.and_eq_true, Bool.not_eq_true', beq_iff_eq] at h
  exact ⟨⟨by decide, h.1.1, 0, [], h.1.2, rfl⟩, h.2⟩

def idle (s : State) : State := { s with blocks := [] }
def refusedRow (op : Nat) (masks : List Nat) : Bool := headOk id [op + 256] fun _ c => c.op == op && !c.clean masks

/-- The contexts that an INVAL meets. -/
def hits (s : State) (c : HostCmd) : List Nat :=
  (s.ctxs.filter fun p => p.2.matches_ (fld 16 14 (c.w 1)) (fld 0 16 (c.w 1)) ((c.w 1).testBit 32)).map fun p => p.1

/-- The clauses of HostCommands: a bit that must be zero in each row, and two OPs that are none; every field of CTXSET, busy and free, at
both ends; PART of a core that is not there, of a partition that grows, and of a core that still runs a block; CANCEL of a level below and
above, a number too wide, nothing to cancel, and a launch; INVAL, DROVER to a full queue and to one with room, HINV, and PINWIN refused,
busy and done. -/
theorem test_witness_host_commands : (([(1, [ones 64, ones 64]), (2, [ones 64, ones 64, ones 64]), (3, [ones 3, ones 64]), (4, [ones 34 - 3 * 2 ^ 30, ones 64]),
      (6, [ones 64, ones 64, ones 64, ones 64, 1]), (7, [ones 64]), (8, [ones 8, ones 64])] : List (Nat × List Nat)).all fun p => refusedRow p.1 p.2) = true
    ∧ headOk id [0] (fun _ c => c.op == 0) = true ∧ headOk id [9] (fun _ c => c.op == 9) = true
    ∧ ((List.range 9).all fun n => headOk id [1, n, 5] fun _ c => c.op == 1 && c.clean [ones 64, ones 64] && c.w 1 == n && decide (c.w 2 < 2 ^ 32)) = true
    ∧ headOk id [1, 2, 5] (fun s _ => !(settleCtx s 0).ctxBusy 0 && !(settleCtx s 0).ctxHeld 0 none) = true
    ∧ headOk id [1, 3, 5] (fun s _ => s.ctxOccupied 0) = true ∧ headOk idle [1, 3, 5] (fun s _ => !s.ctxOccupied 0 && !s.ctxEngines 0) = true
    ∧ headOk (fun s => s.setDie 0 { s.die 0 with bind := [stub] }) [1, 4, 5] (fun s c => (s.die0.bind ++ s.die1.bind).any fun z => z.ctx == c.ctx) = true
    ∧ headOk id [1, 4, 5] (fun s c => (s.die0.bind ++ s.die1.bind).all fun z => z.ctx != c.ctx) = true
    ∧ headOk id [1, 7, 2 ^ 32] (fun _ c => c.w 1 == 7 && decide (2 ^ 32 ≤ c.w 2)) = true
    ∧ headOk (fun s => { s with clusters := 8 }) [2, 0, 0, 1] (fun s c => c.clean [ones 64, ones 64, ones 64] && c.cores.any fun n => decide (s.coreCount ≤ n)) = true
    ∧ headOk idle [2, 3] (fun s c => (c.cores.all fun n => decide (n < s.coreCount)) && (((s.ctx c.ctx).part ++ (s.ctx c.ctx).leaving).all fun n => c.cores.contains n)) = true
    ∧ headOk id [2, 2] (fun s c => (c.cores.all fun n => decide (n < s.coreCount)) && (s.block? placeKey == some dataBlock) && s.ctxNumOf dataBlock == c.ctx
      && (s.ctx c.ctx).part.contains 0 && !c.cores.contains 0) = true
    ∧ headOk id [3, 0] (fun _ c => decide (c.w 1 < 1)) = true ∧ headOk id [3, 5] (fun _ c => decide (4 < c.w 1)) = true
    ∧ headOk id [3, 1, 2 ^ 32] (fun _ c => decide (2 ^ 32 ≤ c.w 2)) = true ∧ headOk id [3, 4, 2 ^ 16] (fun _ c => decide (2 ^ 16 ≤ c.w 2)) = true
    ∧ headOk id [3, 1, 7] (fun s c => (cancelLevel s c.ctx (c.w 1) 7).isNone) = true
    ∧ headOk id [3, 1, 0] (fun s c => (cancelLevel s c.ctx (c.w 1) 0).isSome && (s.launch? 0 == some placeLaunch) && !placeLaunch.over) = true
    ∧ headOk id [4, 0, 1] (fun _ c => c.clean [ones 34 - 3 * 2 ^ 30, ones 64] && !(c.w 1).testBit 33 && c.w 2 != 0) = true
    ∧ headOk idle [4, 2 ^ 33 + 2 ^ 32, 1] (fun s c => c.clean [ones 34 - 3 * 2 ^ 30, ones 64] && (c.w 1).testBit 33 && hits s c == [0]
      && (hits s c).all fun n => !((hits s c).foldl settleCtx s).ctxBusy n && !((hits s c).foldl settleCtx s).ctxHeld n none) = true
    ∧ headOk (fun s => s.setDie 1 { s.die 1 with dqueue := List.replicate 256 moveCmd }) [6, 0x10, 0, 0, 0, 1] (fun s c => c.clean [ones 64, ones 64, ones 64, ones 64, 1]
      && (s.die (c.w 5)).droverFull (fld 16 16 (c.w 1))) = true
    ∧ headOk (fun s => s.setDie 1 { s.die 1 with dqueue := List.replicate 255 moveCmd }) [6, 0x10, 0, 0, 0, 1] (fun s c => !(s.die (c.w 5)).droverFull (fld 16 16 (c.w 1))) = true
    ∧ headOk id [7, 2 ^ 63] (fun _ c => c.op == 7 && c.clean [ones 64]) = true
    ∧ headOk id [8, 0, 786944] (fun _ c => c.clean [ones 8, ones 64] && decide (786432 < c.w 2)) = true ∧ headOk id [8, 0, 511] (fun _ c => c.w 2 % 512 != 0) = true
    ∧ headOk id [8, 1, 0] (fun s c => !(s.ctx c.ctx).part.contains (c.w 1)) = true
    ∧ headOk id [8, 0, 786432] (fun s c => (s.ctx c.ctx).part.contains (c.w 1) && s.coreOccupied (c.w 1)) = true
    ∧ headOk idle [8, 0, 786432] (fun s c => (s.ctx c.ctx).part.contains (c.w 1) && !s.coreOccupied (c.w 1)) = true := by
  refine ⟨?_, ?_, ?_, ?_, ?_, ?_, ?_, ?_, ?_, ?_, ?_, ?_, ?_, ?_, ?_, ?_, ?_, ?_, ?_, ?_, ?_, ?_, ?_, ?_, ?_, ?_, ?_, ?_, ?_⟩ <;> decide +kernel

/-- An entry of the fault ring of port 0 that waits for its answer. -/
def post : HvPost := { tag := 6, port := 0, gva := 0, gpa := 0, vmid := 0, ctx := 0, kind := 1, level := 0, det := 0, who := none, declined := false, posted := true, served := false, drain := false }
def waitingPost (s : State) : State := { s with hvPosts := [post] }
def queue0 : Queue := { qid := 3, launches := [0], owner := 0, slot := some 0, frozen := true, poisoned := false, spilledFrom := none }

/-- The clauses of HostAccesses: a reply that is refused, one to nothing, one that serves and one that declines; the last byte of the launch
window and the first behind it, a waymark, an error; a relay core that is halted; a queue to poison. -/
theorem test_witness_host_accesses : headOk id [5, 6, 2] (fun s c => (s.firstReply 0 (s.port 0).pending == some c) && !c.clean [ones 64, 1]) = true
    ∧ headOk id [5, 6, 1] (fun s c => (s.firstReply 0 (s.port 0).pending == some c) && c.clean [ones 64, 1] && s.hvPosts.isEmpty) = true
    ∧ ([0, 1].all fun n => headOk waitingPost [5, 6, n] fun s c => (s.firstReply 0 (s.port 0).pending == some c) && c.clean [ones 64, 1] && c.w 2 == n
      && ((s.hvPosts.find? fun p => p.tag = BitVec.ofNat 64 (c.w 1) && p.posted && !p.declined && !p.served) == some post)) = true
    ∧ (windowLine 0 0x7FFF = some 255 ∧ windowLine 0 0x8000 = none ∧ plain.hdm 0 0x8000 = true ∧ plain.markAt 0x8000 = none ∧ plain.quarantinedAt 0x8000 = false
      ∧ plain.eccAt 0x8000 = false ∧ { plain with eccLines := [0x100] }.eccAt 0x8000 = true
      ∧ ({ plain with marks := [(0x100, { newref := 0, home := 0x60000, gen := 0, hop := 0, mnum := 0 })] }.markAt 0x8000).isSome = true ∧ plain.hdm 1 0x8000 = false)
    ∧ (∀ x ∈ (waitingPost plain).hvPosts, x.posted = true ∨ x.port ≠ 0)
    ∧ ((plain.setRelay 0 { Relay.zero with halted := true }).relays[(0 : Fin 8)].halted = true ∧ ∀ l ∈ plain.launches, plain.launchFrozen l = false)
    ∧ (let s := { plain with queues := [queue0] }
      (s.queues.find? fun x => x.qid = 3) = some queue0 ∧ s.graphs = [] ∧ 0 ∈ queue0.launches ∧ s.launch? 0 = some placeLaunch ∧ placeLaunch.over = false) := by
  decide +kernel

/-- A mailbox with a command of words, in a state changed by g. -/
def mailState (g : State → State) (words : List Nat) : State :=
  let s := g plain
  { s with port0 := { s.port0 with mbox := (words.zipIdx.foldl (fun m p => m.writeLE (8 * p.2) 8 p.1) s.port0.mbox).writeLE 0xFF8 8 1 } }

def mailOk (g : State → State) (words : List Nat) (p : State → (Nat → Nat) → Bool) : Bool :=
  let s := mailState g words
  !(s.port 0).down && (s.port 0).mbox.readLE 0xFF8 8 == 1 && (s.port 0).mailOp == words.headD 0 % 256 && p s (s.port 0).mailW

theorem mailed_of {g : State → State} {words : List Nat} {p : State → (Nat → Nat) → Bool} (h : mailOk g words (fun s w => fld 8 56 (w 0) == 0 && p s w) = true) :
    Mailed (mailState g words) 0 (words.headD 0 % 256) := by
  simp only [mailOk, Bool.and_eq_true, Bool.not_eq_true', beq_iff_eq] at h
  exact ⟨by decide, h.1.1.1, h.1.1.2, h.1.2, h.2.1⟩

def mail (g : State → State) (words : List Nat) (p : State → (Nat → Nat) → Bool) : Bool := mailOk g words fun s w => fld 8 56 (w 0) == 0 && p s w
def testing (s : State) : State := { s with mgc := { s.mgc with testMode := true } }

/-- The clauses of MailboxCommands but UPDATE's: a bit that must be zero in each command; OPs that are none; SETPARAM of no parameter, below
and above a range and at both ends; MONCFG and MONREAD within and beyond their limits, with and without clear; TESTINJ outside test mode, at
its last line and beyond it. -/
theorem test_witness_mailbox : ((List.range 10).all fun n => n == 0 || mailOk id [n + 256] fun _ w => fld 8 56 (w 0) != 0) = true
    ∧ ([0, 10, 1, 2, 4, 8].all fun n => mail id [n] fun _ _ => true) = true
    ∧ mail id [5, 7] (fun _ w => (paramRange (w 1)).isNone) = true ∧ mail id [5, 4, 4999] (fun _ w => paramRange (w 1) == some (5000, 1000000) && decide (w 2 < 5000)) = true
    ∧ mail id [5, 4, 5000] (fun _ w => decide (5000 ≤ w 2)) = true ∧ mail id [5, 4, 1000000] (fun _ w => decide (w 2 ≤ 1000000)) = true
    ∧ mail id [5, 4, 1000001] (fun _ w => decide (1000000 < w 2)) = true
    ∧ mail id [6, 2] (fun _ w => decide (2 ≤ w 1)) = true ∧ mail id [6, 1, 7, 9, 15] (fun _ w => decide (w 1 < 2) && decide (w 2 < 8) && decide (w 3 ≤ 9) && decide (w 4 ≤ 15)) = true
    ∧ mail id [7, 1, 8] (fun _ w => decide (8 ≤ w 2)) = true ∧ ([0, 1].all fun n => mail id [7, 1, 7, n] fun _ w => decide (w 2 < 8) && w 3 == n) = true
    ∧ mail id [9] (fun s _ => !s.mgc.testMode) = true ∧ mail testing [9, 0, 0, 0, 1572864] (fun s w => s.mgc.testMode && decide (1572864 ≤ w 4)) = true
    ∧ mail testing [9, 1, 191, 1, 524287] (fun s w => decide (w 2 < s.coreCount) && s.dieOf (w 2) == w 1 && decide (w 4 < 524288)) = true := by
  decide +kernel

/-- The clauses of UPDATE: which holds depends on what the model leaves free. -/
theorem test_witness_update : mail id [3] (fun s _ => s.mgc.rollback == 0) = true
    ∧ ∀ image, Config.imageVerifies image = false ∨ (Config.imageVersion image).toNat < (mailState id [3]).mgc.rollback
      ∨ (Config.imageVerifies image = true ∧ (mailState id [3]).mgc.rollback ≤ (Config.imageVersion image).toNat) := by
  refine ⟨by decide +kernel, fun image => ?_⟩
  cases Config.imageVerifies image
  · exact .inl rfl
  · exact (Nat.lt_or_ge _ _).elim (fun h => .inr (.inl h)) fun h => .inr (.inr ⟨rfl, h⟩)

/-- The clauses of PackageEvents: a clock that steps and one that does not, a lock that is lost by the port and by time, a boot from each
bank, error counts. -/
theorem test_witness_package_events : (State.reset.lockedOnce = false ∧ (1000000 : Int) < 1000001 ∧ ¬ (1000000 : Int) < 1000000 ∧ State.reset.launches = [] ∧ State.reset.graphs = [])
    ∧ (∃ s : State, s.dstate = 1 ∧ s.lastSync + 10000000000 ≤ s.dtime) ∧ 1 < State.reset.mgc.errors.length
    ∧ ((2304 : Nat) ≤ 2304 ∧ ([5, 4095] : List Nat).eraseDups.length = 2 ∧ 5 ∈ [5, 4095] ∧ ∀ m ∈ [5, 4095], m < 4096)
    ∧ (State.reset.mgc.bankB.2 = false ∨ State.reset.mgc.bankA.1 < State.reset.mgc.bankB.1 ∨ State.reset.mgc.bankB.1 ≤ State.reset.mgc.bankA.1)
    ∧ ∃ m : Mgc, m.bankB.2 = true ∧ (m.bankA.2 = false ∨ m.bankA.1 < m.bankB.1) :=
  ⟨⟨rfl, by decide, by decide, rfl, rfl⟩, ⟨{ State.reset with dstate := 1, dtime := 10000000000 }, rfl, by decide⟩, by decide +kernel, by decide, by decide +kernel,
    ⟨{ State.reset.mgc with bankB := (State.reset.mgc.bankA.1 + 1, true) }, rfl, .inr (Nat.lt_succ_self _)⟩⟩

/-- A state whose next step runs a NOP. -/
def nopState : State := State.reset.withFetchWord 64 0x0210000000000000

/-- The clauses of StepRunsDecoded: a block on its own and by the schedule, a relay core, an event, a stopped block. -/
theorem test_witness_step : (∃ (s s1 s2 s3 : State) (k : BKey) (b b2 : Block) (bs : List Byte) (i : Instr), s.halted = false ∧ k ∉ s.stopped ∧ s.block? k = some b ∧ b.ended = none
      ∧ b.held = [] ∧ b.superseded = [] ∧ b.readers = [] ∧ b.acceptedPart.any b.partRuns = false ∧ s.divertDue b = false ∧ s.overrunDue b = false ∧ b.sleep = none ∧ bs.length = 8
      ∧ decodeBytes bs = .ok (i, []) ∧ s.active = .block k ∧ fetchWord s k b b.pc.toNat = .ok s1 (leNat bs)
      ∧ settleWhere s1 k (fun e => hazard k i e || loadsTile k i e || (Instr.arrives i && barWaits e)) = s2 ∧ s2.block? k = some b2 ∧ b2.ended = none
      ∧ s2.pending k (hazard k i) = false ∧ (b2.sys = none → s2.issueStalls k b2 i = false)
      ∧ (b2.sys = none → b2.mustWait k i = true → ∃ t ∈ Instr.tilesOf i k, b2.gt t = none)
      ∧ (if i.binds then s3 = s2 else b2.expandFits (s2.core k.core).win b2 (Instr.tilesOf i k) = true ∧ freshSlots k i.tileDests s2 = some s3)
      ∧ s.schedule = [] ∧ ∃ (u : State) (ts : List Turn), u.schedule = .agent (.block k) :: ts ∧ s = { u with schedule := ts, active := .block k })
    ∧ (let s := placeRelay 0x00C5950B State.reset
      s.halted = false ∧ s.relays[(0 : Fin 8)].halted = false ∧ decodeRelay (s.relays[(0 : Fin 8)].imem.readLE s.relays[(0 : Fin 8)].pc.toNat 4) = .ok (.bxtr 10 11 12)
        ∧ s.active = .relay 0 ∧ ∃ (u : State) (ts : List Turn), u.schedule = .agent (.relay 0) :: ts ∧ s = { u with schedule := ts, active := .relay 0 })
    ∧ ({ State.reset with schedule := [.event .thermalTrip] }.halted = false ∧ Instr.isEvent .thermalTrip = true ∧ Instr.ofBlock .thermalTrip = none)
    ∧ placeKey ∈ { nopState with stopped := [placeKey] }.stopped := by
  refine ⟨?_, ⟨rfl, by decide +kernel, by rfl, rfl, { placeRelay 0x00C5950B State.reset with schedule := [.agent (.relay 0)] }, [], rfl, rfl⟩, ⟨rfl, rfl, rfl⟩, by decide⟩
  let b := startBlock placeLaunch 0 0 0
  let p := fun e => hazard placeKey .nop e || loadsTile placeKey .nop e || (Instr.arrives .nop && barWaits e)
  obtain ⟨s1, w, e, g⟩ := ok_of (r := fetchWord nopState placeKey b 64)
    (p := fun t w => w == 0x0210000000000000 && ((settleWhere t placeKey p).block? placeKey == some b) && !(settleWhere t placeKey p).pending placeKey (hazard placeKey .nop)
      && !(settleWhere t placeKey p).issueStalls placeKey b .nop && b.expandFits ((settleWhere t placeKey p).core 0).win b (Instr.tilesOf .nop placeKey)
      && (freshSlots placeKey (Instr.tileDests .nop) (settleWhere t placeKey p)).isSome) (by decide +kernel)
  simp only [Bool.and_eq_true, beq_iff_eq, Bool.not_eq_true', Option.isSome_iff_exists] at g
  obtain ⟨⟨⟨⟨⟨h1, h2⟩, h3⟩, h4⟩, h6⟩, s3, h5⟩ := g
  subst h1
  have free : b.mustWait placeKey .nop = false := by decide +kernel
  exact ⟨nopState, s1, settleWhere s1 placeKey p, s3, placeKey, b, b, [0, 0, 0, 0, 0, 0, 0x10, 0x02], .nop, rfl, by decide, by decide +kernel, rfl, rfl, rfl, rfl, by decide +kernel,
    by decide +kernel, by decide +kernel, rfl, rfl, by rfl, rfl, e, rfl, h2, rfl, h3, fun _ => h4, fun _ h => absurd (h.symm.trans free) (by decide), ⟨h6, h5⟩, rfl,
    { nopState with schedule := [.agent (.block placeKey)] }, [], rfl, rfl⟩

/-- The hypotheses of LaneEncodeDecode and of MemoryInvariant. -/
theorem test_witness_lane_words : (0x1100C200 : Nat) < 2 ^ 32 ∧ decodeLane 0x1100C200 = .ok (.lfma .fp32 .rne false .x (.q 0) (.k 0) .x) := ⟨by decide, rfl⟩

theorem test_witness_memory_invariant : ∃ s t : State, MemoryWf s ∧ step s = .next t := by
  have h : (match step nopState with
    | .next _ => true
    | _ => false) = true := by decide +kernel
  cases e : step nopState with
  | next t => exact ⟨nopState, t, (by decide +kernel : Memory.wf nopState.mem = true), e⟩
  | fault f => rw [e] at h; cases h
  | refused r => rw [e] at h; cases h

/-- The hypothesis of EncodeDecode. -/
theorem test_witness_round_trip : Instr.wellFormed (.addi 31 31 0xFFFFFFFF) = true := by decide

end Sys2Proof.Tests
end

section
/-! SUPPORT. Structured control flow (R123): a control word whose target is of the kind it requires, the jumps it makes, and the statement
`Obligations.StructuredControl`. -/

namespace Sys2Proof.Machine

/-! ### Jumps -/

/-- A jump by words, as a sum of bit vectors (R120). -/
theorem Block.jump_eq (b : Block) (n : Int) : b.jump n = { b with pc := b.pc + 8 * BitVec.ofInt 32 n } := by
  have hpc : BitVec.ofInt 32 (pcPlus b n) = b.pc + 8 * BitVec.ofInt 32 n := by
    rw [pcPlus, BitVec.ofInt_add, BitVec.ofInt_mul, BitVec.ofInt_natCast, BitVec.ofNat_toNat, BitVec.setWidth_eq]
    rfl
  rw [Block.jump, hpc]

/-- The next word. -/
theorem Block.jump_one (b : Block) : b.jump 1 = { b with pc := b.pc + 8 } := b.jump_eq 1

/-- The word that off names. -/
theorem Block.jump_toInt (b : Block) (off : W32) : b.jump off.toInt = { b with pc := b.pc + 8 * off } := by
  rw [Block.jump_eq, BitVec.ofInt_toInt]

/-- The word behind the one that off names. -/
theorem Block.jump_toInt_add_one (b : Block) (off : W32) : b.jump (off.toInt + 1) = { b with pc := b.pc + 8 * (off + 1) } := by
  rw [Block.jump_eq, BitVec.ofInt_add, BitVec.ofInt_toInt]
  rfl

/-- A jump whose distance is chosen ends where the chosen one ends. -/
theorem Block.jump_ite {b : Block} (c : Prop) [Decidable c] {yes no : Int} {p q : W32}
    (hyes : b.jump yes = { b with pc := p }) (hno : b.jump no = { b with pc := q }) :
    b.jump (if c then yes else no) = { b with pc := if c then p else q } := by
  by_cases hc : c
  · simpa only [if_pos hc] using hyes
  · simpa only [if_neg hc] using hno

/-! ### Conditions -/

/-- The model's condition is R123's. -/
theorem condHolds_eq_condition (cc : Cc) (x y : W64) : condHolds cc x y = condition cc x y := by
  have heq : decide (x = y) = (x == y) := Bool.eq_iff_iff.mpr (decide_eq_true_iff.trans beq_iff_eq.symm)
  cases cc with
  | eq => exact heq
  | ne => exact (decide_not).trans (congrArg (!·) heq)
  | lt | ge | ltu | geu => rfl

/-- A branch on clean scalars jumps as its condition says. -/
theorem branch_of_clean (s : State) (k : BKey) {b : Block} {x y : SReg} (hx : b.ps x = false) (hy : b.ps y = false) (cc : Cc) (yes no : Int) :
    branch s k b cc x y yes no = .next (s.setBlock k (b.jump (if condition cc (b.gs x) (b.gs y) then yes else no))) := by
  rw [branch, hx, hy, Bool.or_self, if_neg Bool.false_ne_true, condHolds_eq_condition]

/-- A branch on a poisoned scalar traps POISON (R96). -/
theorem branch_of_poisoned (s : State) (k : BKey) {b : Block} {x y : SReg} (h : ¬ (b.ps x = false ∧ b.ps y = false)) (cc : Cc) (yes no : Int) :
    branch s k b cc x y yes no = trapOut s k b b.scalarPoison := by
  have hxy : (b.ps x || b.ps y) = true := by
    rw [← Bool.not_eq_false, Bool.or_eq_false_iff]
    exact h
  rw [branch, if_pos hxy]

/-! ### Words with a target -/

/-- A control word whose target passes its test runs its meaning in the state that the fetch left. -/
theorem Moves.withMatch_of_target {s : State} {k : BKey} {b : Block} {off : W32} {p : Instr → Prop} {test : Instr → Bool} {sign : Bool}
    (m : Moves s k b) (hsign : sign = true) (ht : TargetIs s k b off p) (hp : ∀ i, p i → test i = true) :
    ∃ s1 w, Cached s s1 ∧ ∀ i f, withMatch i off sign (wordIs test) s f = f s1 k b w := by
  obtain ⟨s1, w, i, hfetch, hdecode, hi⟩ := ht
  refine ⟨s1, w, fetchWord_ok hfetch, fun j f => ?_⟩
  have hword : wordIs test w = true := by
    simp only [wordIs, hdecode]
    exact hp i hi
  simp only [withMatch, m.onBlock, hsign, Bool.not_true, Bool.false_eq_true, if_false, pcPlus, hfetch, hword, if_true]

/-- A control word whose meaning, past its target's check, writes the block b'. -/
theorem Moves.completes_of_target {s : State} {k : BKey} {b b' : Block} {i : Instr} {off : W32} {p : Instr → Prop} {test : Instr → Bool}
    {sign : Bool} {f : State → BKey → Block → Nat → Out} (m : Moves s k b) (hexec : exec i s = withMatch i off sign (wordIs test) s f)
    (hsign : sign = true) (ht : TargetIs s k b off p) (hp : ∀ i, p i → test i = true)
    (hf : ∀ s1 w, f s1 k b w = .next (s1.setBlock k b')) : Completes i s fun t => AccessOnly s t k b' := by
  obtain ⟨s1, w, hcached, hrun⟩ := m.withMatch_of_target hsign ht hp
  exact ⟨s1.setBlock k b', by rw [hexec, hrun, hf], hcached.access k b'⟩

/-- The instruction traps POISON with the block's origin record, in a state with the bytes and the block of s. -/
def TrapsPoison (s : State) (k : BKey) (b : Block) (i : Instr) : Prop :=
  ∃ s1, SameBytes s s1 ∧ s1.block? k = some b ∧ exec i s = .next (takeTrap s1 k b (FaultInfo.poisoned b.origin 0 none))

/-- A control word whose meaning, past its target's check, finds a poisoned scalar. -/
theorem Moves.trapsPoison_of_target {s : State} {k : BKey} {b : Block} {i : Instr} {off : W32} {p : Instr → Prop} {test : Instr → Bool}
    {sign : Bool} {f : State → BKey → Block → Nat → Out} (m : Moves s k b) (hexec : exec i s = withMatch i off sign (wordIs test) s f)
    (hsign : sign = true) (ht : TargetIs s k b off p) (hp : ∀ i, p i → test i = true)
    (hf : ∀ s1 w, f s1 k b w = trapOut s1 k b b.scalarPoison) : TrapsPoison s k b i := by
  obtain ⟨s1, w, hcached, hrun⟩ := m.withMatch_of_target hsign ht hp
  have hhere : s1.block? k = some b := by simpa only [State.block?, hcached.blocks] using m.here
  exact ⟨s1, fun a => by rw [hcached.mem], hhere, by rw [hexec, hrun, hf]; rfl⟩

/-! ### The kinds of target (R122) -/

theorem isElseOrEndif_of {i : Instr} (h : i = .endif ∨ ∃ o, i = .cElse o) : isElseOrEndif i = true := by
  obtain rfl | ⟨o, rfl⟩ := h <;> rfl

theorem isEndif_of {i : Instr} (h : i = .endif) : isEndif i = true := h ▸ rfl

theorem isEndl_of {i : Instr} (h : ∃ a o, i = .endl a o) : isEndl i = true := by
  obtain ⟨a, o, rfl⟩ := h
  rfl

theorem isHeaderOf_zero_of {i : Instr} (h : ∃ o, i = .loop o) : isHeaderOf 0 i = true := by
  obtain ⟨o, rfl⟩ := h
  rfl

theorem isHeaderOf_of {x : SReg} (hx : x ≠ 0) {i : Instr} (h : ∃ o, i = .loopc x o) : isHeaderOf x i = true := by
  obtain ⟨o, rfl⟩ := h
  simp only [isHeaderOf, ne_eq, hx, not_false_eq_true, decide_true, Bool.and_self]

/-- s0 is never poisoned (R94). -/
theorem Block.ne_zero_of_ps {b : Block} {x : SReg} (h : b.ps x = true) : x ≠ 0 := by
  rintro rfl
  exact absurd h (by rw [Block.ps, if_pos rfl]; exact Bool.false_ne_true)

/-! ### The words -/

/-- The block behind an ENDL that counts s[x] down. -/
def Block.countedDown (b : Block) (x : SReg) (off : W32) : Block :=
  { b.putS x (b.gs x - 1) false with pc := if b.gs x = 1 then b.pc + 8 else b.pc + 8 * (off + 1) }

/-- What an ENDL that counts down writes: the count, its poison bit and the PC. -/
theorem Block.countedDown_spec (b : Block) {x : SReg} (hx : x ≠ 0) (off : W32) :
    let b' := b.countedDown x off
    b'.gs x = b.gs x - 1 ∧ (∀ r, r ≠ x → b'.gs r = b.gs r) ∧ b'.sp = b.sp &&& ~~~ BitVec.twoPow 32 x.val
      ∧ b'.pc = (if b.gs x = 1 then b.pc + 8 else b.pc + 8 * (off + 1)) ∧ b' = { b with pc := b'.pc, s := b'.s, sp := b'.sp } := by
  have hput : b.countedDown x off = { b with
      pc := (b.countedDown x off).pc
      s := b.s.set x.val (b.gs x - 1)
      sp := b.sp &&& ~~~ BitVec.twoPow 32 x.val } := by
    rw [Block.countedDown, Block.putS, if_neg hx, if_neg Bool.false_ne_true]
  have hgs (r : SReg) : (b.countedDown x off).gs r = if r = x && x ≠ 0 then b.gs x - 1 else b.gs r := Block.gs_putS b x r _ false
  refine ⟨?count, fun r hr => ?others, by rw [hput], rfl, by rw [hput]⟩
  case count => rw [hgs, if_pos (by simp only [ne_eq, hx, not_false_eq_true, decide_true, Bool.and_self])]
  case others => rw [hgs, if_neg (by simp only [hr, decide_false, Bool.false_and, Bool.false_eq_true, not_false_eq_true])]

section
variable {s : State} {k : BKey} {b : Block} {x y : SReg} {off : W32} (m : Moves s k b)
include m

/-- IF, BRK and CONT on clean scalars: the branch of R123. -/
theorem Moves.branchWord_completes {i : Instr} {p : Instr → Prop} {test : Instr → Bool} {cc : Cc} {yes no : Int} {pcYes pcNo : W32}
    (hexec : exec i s = withMatch i off (0 < off.toInt) (wordIs test) s fun s k b _ => branch s k b cc x y yes no)
    (hyes : b.jump yes = { b with pc := pcYes }) (hno : b.jump no = { b with pc := pcNo }) (hp : ∀ i, p i → test i = true)
    (hoff : 0 < off.toInt) (hclean : b.ps x = false ∧ b.ps y = false) (ht : TargetIs s k b off p) :
    Completes i s fun t => AccessOnly s t k { b with pc := if condition cc (b.gs x) (b.gs y) then pcYes else pcNo } :=
  m.completes_of_target hexec (decide_eq_true hoff) ht hp fun s1 _ => by
    rw [branch_of_clean s1 k hclean.1 hclean.2, Block.jump_ite _ hyes hno]

/-- IF, BRK and CONT on a poisoned scalar. -/
theorem Moves.branchWord_trapsPoison {i : Instr} {p : Instr → Prop} {test : Instr → Bool} {cc : Cc} {yes no : Int}
    (hexec : exec i s = withMatch i off (0 < off.toInt) (wordIs test) s fun s k b _ => branch s k b cc x y yes no)
    (hp : ∀ i, p i → test i = true) (hoff : 0 < off.toInt) (hpoison : ¬ (b.ps x = false ∧ b.ps y = false)) (ht : TargetIs s k b off p) :
    TrapsPoison s k b i :=
  m.trapsPoison_of_target hexec (decide_eq_true hoff) ht hp fun s1 _ => branch_of_poisoned s1 k hpoison cc yes no

theorem Moves.cElse_completes (hoff : 0 < off.toInt) (ht : TargetIs s k b off fun i => i = .endif) :
    Completes (.cElse off) s fun t => AccessOnly s t k { b with pc := b.pc + 8 * (off + 1) } :=
  m.completes_of_target (exec_cElse off s) (decide_eq_true hoff) ht (fun _ => isEndif_of) fun s1 _ => by
    rw [Block.jump_toInt_add_one]

theorem Moves.endif_goesTo : Completes .endif s (GoesTo s k b (b.pc + 8)) :=
  ⟨s.setBlock k b.advance, by rw [exec_endif, execEndif, m.onBlock], OnlyBlock.set s k b.advance⟩

theorem Moves.loop_completes (hoff : 0 < off.toInt) (ht : TargetIs s k b off fun i => ∃ a o, i = .endl a o) :
    Completes (.loop off) s fun t => AccessOnly s t k { b with pc := b.pc + 8 } :=
  m.completes_of_target (exec_loop off s) (decide_eq_true hoff) ht (fun _ => isEndl_of) fun _ _ => rfl

theorem Moves.loopc_completes (hoff : 0 < off.toInt) (ht : TargetIs s k b off fun i => ∃ a o, i = .endl a o) (hx : b.ps x = false) :
    Completes (.loopc x off) s fun t => AccessOnly s t k { b with pc := if b.gs x = 0 then b.pc + 8 * (off + 1) else b.pc + 8 } :=
  m.completes_of_target (exec_loopc x off s) (decide_eq_true hoff) ht (fun _ => isEndl_of) fun s1 _ => by
    rw [hx, if_neg Bool.false_ne_true, Block.jump_ite _ (b.jump_toInt_add_one off) b.jump_one]

theorem Moves.loopc_trapsPoison (hoff : 0 < off.toInt) (ht : TargetIs s k b off fun i => ∃ a o, i = .endl a o) (hx : b.ps x = true) :
    TrapsPoison s k b (.loopc x off) :=
  m.trapsPoison_of_target (exec_loopc x off s) (decide_eq_true hoff) ht (fun _ => isEndl_of) fun _ _ => if_pos hx

/-- The ENDL of a LOOP goes back to the first word of the body. -/
theorem Moves.endl_zero_completes (hoff : off.toInt < 0) (ht : TargetIs s k b off fun i => ∃ o, i = .loop o) :
    Completes (.endl 0 off) s fun t => AccessOnly s t k { b with pc := b.pc + 8 * (off + 1) } :=
  m.completes_of_target (exec_endl 0 off s) (decide_eq_true hoff) ht (fun _ => isHeaderOf_zero_of) fun s1 _ => by
    rw [if_pos rfl, Block.jump_toInt_add_one]

theorem Moves.endl_trapsPoison (hoff : off.toInt < 0) (ht : TargetIs s k b off fun i => ∃ o, i = .loopc x o) (hx : b.ps x = true) :
    TrapsPoison s k b (.endl x off) :=
  have hx0 : x ≠ 0 := Block.ne_zero_of_ps hx
  m.trapsPoison_of_target (exec_endl x off s) (decide_eq_true hoff) ht (fun _ => isHeaderOf_of hx0) fun _ _ => by
    rw [if_neg hx0, if_pos hx]

/-- The ENDL of a LOOPC. -/
theorem Moves.endl_completes (hoff : off.toInt < 0) (hx0 : x ≠ 0) (hx : b.ps x = false)
    (ht : TargetIs s k b off fun i => ∃ o, i = .loopc x o) :
    Completes (.endl x off) s fun t => AccessOnly s t k (b.countedDown x off) :=
  m.completes_of_target (exec_endl x off s) (decide_eq_true hoff) ht (fun _ => isHeaderOf_of hx0) fun s1 _ => by
    have hlast : b.gs x - 1 = 0 ↔ b.gs x = 1 := BitVec.sub_eq_iff_eq_add
    have hpc : (b.putS x (b.gs x - 1) false).pc = b.pc := Block.putS_pc b x _ false
    rw [if_neg hx0, hx, if_neg Bool.false_ne_true]
    dsimp only
    rw [Block.jump_ite _ (Block.jump_one _) (Block.jump_toInt_add_one _ off), hpc, Block.countedDown]
    simp only [hlast]

end

/-- Settles O3: past the check of its target, each word jumps by its own rule of R123, and a poisoned scalar traps before any effect. -/
theorem structuredControl : Obligations.StructuredControl := by
  intro s k b cc x y off m
  refine ⟨?cIf, ?poisonedBranch, ?poisonedCount, m.cElse_completes, m.endif_goesTo, m.loop_completes, m.loopc_completes, ?brk, ?cont,
    m.endl_zero_completes, ?endl⟩
  case cIf => exact m.branchWord_completes (exec_cIf cc x y off s) b.jump_one (b.jump_toInt_add_one off) fun _ => isElseOrEndif_of
  case poisonedBranch =>
    intro hoff hpoison
    refine ⟨m.branchWord_trapsPoison (exec_cIf cc x y off s) (fun _ => isElseOrEndif_of) hoff hpoison, fun ht => ⟨?_, ?_⟩⟩
    · exact m.branchWord_trapsPoison (exec_brk cc x y off s) (fun _ => isEndl_of) hoff hpoison ht
    · exact m.branchWord_trapsPoison (exec_cont cc x y off s) (fun _ => isEndl_of) hoff hpoison ht
  case poisonedCount => exact fun hx => ⟨fun hoff ht => m.loopc_trapsPoison hoff ht hx, fun hoff ht => m.endl_trapsPoison hoff ht hx⟩
  case brk =>
    exact fun hoff ht hclean =>
      m.branchWord_completes (exec_brk cc x y off s) (b.jump_toInt_add_one off) b.jump_one (fun _ => isEndl_of) hoff hclean ht
  case cont =>
    exact fun hoff ht hclean =>
      m.branchWord_completes (exec_cont cc x y off s) (b.jump_toInt off) b.jump_one (fun _ => isEndl_of) hoff hclean ht
  case endl =>
    intro hoff hx0 hx ht
    obtain ⟨t, hexec, haccess⟩ := m.endl_completes hoff hx0 hx ht
    exact ⟨t, hexec, b.countedDown x off, haccess, b.countedDown_spec hx0 off⟩

end Sys2Proof.Machine
end

section
/-! SUPPORT. Forming, moving and reading references (R149): the image of a reference as a sum of integers, its two fields as the parts of a
word, and the statement `Obligations.References`. -/

namespace Sys2Proof.Machine

/-! ### Reference images (R74) -/

/-- The image of a reference, as a sum of integers. -/
theorem mkRef_eq_ofInt (h off : Nat) : mkRef h off = BitVec.ofInt 64 ((h : Int) % 2 ^ 20 * 2 ^ 44 + (off : Int) % 2 ^ 44) := by
  rw [mkRef, ← BitVec.ofInt_natCast]
  norm_cast

/-- The image of a moved reference keeps HIDX and adds to OFF, mod 2^44. -/
theorem refMove_eq_ofInt (r : W64) (n : Int) :
    refMove r n = BitVec.ofInt 64 ((refH r : Int) % 2 ^ 20 * 2 ^ 44 + ((refOff r : Int) + n) % 2 ^ 44) := by
  have hoff : 0 ≤ ((refOff r : Int) + n) % 2 ^ 44 := Int.emod_nonneg _ (by decide)
  rw [refMove, mkRef_eq_ofInt, Int.toNat_of_nonneg hoff, Int.emod_emod]

/-- HIDX is the word shifted down. -/
theorem ofNat_refH (r : W64) : BitVec.ofNat 64 (refH r) = r >>> 44 := by
  have hlt : r.toNat / 2 ^ 44 < 2 ^ 64 := Nat.lt_of_le_of_lt (Nat.div_le_self _ _) r.isLt
  apply BitVec.eq_of_toNat_eq
  rw [BitVec.toNat_ofNat, BitVec.toNat_ushiftRight, Nat.shiftRight_eq_div_pow, refH, Nat.mod_eq_of_lt hlt]

/-- OFF is the low 44 bits of the word. -/
theorem ofNat_refOff (r : W64) : BitVec.ofNat 64 (refOff r) = r &&& 0xFFFFFFFFFFF := by
  have hlt : r.toNat % 2 ^ 44 < 2 ^ 64 := Nat.lt_of_le_of_lt (Nat.mod_le _ _) r.isLt
  apply BitVec.eq_of_toNat_eq
  rw [BitVec.toNat_ofNat, BitVec.toNat_and, refOff, Nat.mod_eq_of_lt hlt]
  exact (Nat.and_two_pow_sub_one_eq_mod r.toNat 44).symm

/-- A result that fits leaves the origin record. -/
theorem Block.boundOrigin_false (b : Block) : b.boundOrigin false = b.origin := by
  unfold Block.boundOrigin
  cases b.origin <;> rfl

/-! ### The words (R149) -/

section
variable {s : State} {k : BKey} {b : Block} (m : Moves s k b)
include m

/-- REFMK: a field that does not fit its place is cut, and poisons the result. -/
theorem Moves.refmk_completes (d : ARef) (y z : SReg) :
    let bad := decide (2 ^ 20 ≤ (b.gs y).toNat) || decide (2 ^ 44 ≤ (b.gs z).toNat)
    Completes (.refmk d y z) s
      (RefResult s k b d (mkRef (b.gs y).toNat (b.gs z).toNat) (bad || (b.ps y || b.ps z)) (b.boundOrigin (bad && !(b.ps y || b.ps z)))) := by
  intro bad
  obtain ⟨t, hexec, hresult⟩ := m.refResult d (fun x => mkRef ((x.gs y).toNat % 2 ^ 20) ((x.gs z).toNat % 2 ^ 44)) (fun x => x.ps y || x.ps z)
    fun x => (x.gs y).toNat ≥ 2 ^ 20 || (x.gs z).toNat ≥ 2 ^ 44
  have hcut : mkRef ((b.gs y).toNat % 2 ^ 20) ((b.gs z).toNat % 2 ^ 44) = mkRef (b.gs y).toNat (b.gs z).toNat := by
    simp only [mkRef, Nat.mod_mod]
  rw [hcut, Bool.or_comm] at hresult
  exact ⟨t, hexec, hresult⟩

/-- REFMK.W: every word is an image, so nothing but its own poison reaches the result. -/
theorem Moves.refmkW_completes (d : ARef) (y : SReg) : Completes (.refmkW d y) s (RefResult s k b d (b.gs y) (b.ps y) b.origin) := by
  obtain ⟨t, hexec, hresult⟩ := m.refResult d (fun x => x.gs y) (fun x => x.ps y) fun _ => false
  rw [Bool.or_false, Bool.false_and, Block.boundOrigin_false] at hresult
  exact ⟨t, hexec, hresult⟩

/-- Both forms of REFADD: the offset moves by n, and the result is poisoned when it leaves [0, 2^44). -/
theorem Moves.refMove_completes {i : Instr} {d x : ARef} {n : Block → Int} {input : Block → Bool}
    (hexec : exec i s = Machine.refResult d (fun b => refMove (b.ga x) (n b)) input (fun b => refLeaves (b.ga x) (n b)) s) :
    Completes i s (RefResult s k b d (BitVec.ofInt 64 ((refH (b.ga x) : Int) % 2 ^ 20 * 2 ^ 44 + ((refOff (b.ga x) : Int) + n b) % 2 ^ 44))
      (refLeaves (b.ga x) (n b) || input b) (b.boundOrigin (refLeaves (b.ga x) (n b) && !input b))) := by
  obtain ⟨t, hrun, hresult⟩ := m.refResult d (fun b => refMove (b.ga x) (n b)) input fun b => refLeaves (b.ga x) (n b)
  rw [refMove_eq_ofInt, Bool.or_comm] at hresult
  exact ⟨t, hexec.trans hrun, hresult⟩

theorem Moves.refh_completes (e : SReg) (x : ARef) : Completes (.refh e x) s (ScalarResult s k b e (b.ga x >>> 44) (b.pa x)) := by
  rw [← ofNat_refH]
  exact m.scalarResult e (fun b => BitVec.ofNat 64 (refH (b.ga x))) fun b => b.pa x

theorem Moves.refoff_completes (e : SReg) (x : ARef) :
    Completes (.refoff e x) s (ScalarResult s k b e (b.ga x &&& 0xFFFFFFFFFFF) (b.pa x)) := by
  rw [← ofNat_refOff]
  exact m.scalarResult e (fun b => BitVec.ofNat 64 (refOff (b.ga x))) fun b => b.pa x

theorem Moves.refoffW_completes (e : SReg) (x : ARef) : Completes (.refoffW e x) s (ScalarResult s k b e (b.ga x) (b.pa x)) :=
  m.scalarResult e (fun b => b.ga x) fun b => b.pa x

end

/-- Settles O2: each word is one use of the shared operation of its file, and the images agree as sums of integers. -/
theorem references : Obligations.References := by
  intro s k b d x e y z imm m
  refine ⟨?refmk, m.refmkW_completes d y, ?refadd, ?refaddImm, m.refh_completes e x, m.refoff_completes e x, m.refoffW_completes e x⟩
  case refmk => simpa only [mkRef_eq_ofInt] using m.refmk_completes d y z
  case refadd => exact (m.refMove_completes (exec_refadd d x y s) :)
  case refaddImm => exact (m.refMove_completes (exec_refaddImm d x imm s) :)

end Sys2Proof.Machine
end
